-- ==== Sys2Proof/Word.lean ====
section
/-! DEFINITION. The word types of the machine: a lane value or instruction word (32 bits), a uniform
register (64 bits), a lane mask (64 bits, R11), a tile descriptor (128 bits, R42), a byte. -/
namespace Sys2Proof

/-- A 32-bit lane value, or an instruction word (R42, R93). -/
abbrev Word := BitVec 32
/-- A 64-bit uniform register (R42). -/
abbrev DWord := BitVec 64
/-- A mask with one bit per lane; W is 64 on the Lemolo (R10, R11). -/
abbrev Mask := BitVec 64
/-- A 128-bit tile descriptor (R245). -/
abbrev Tile := BitVec 128
/-- One byte of memory. -/
abbrev Byte := BitVec 8

end Sys2Proof
end

