-- ==== Sys2Proof/Syntax.lean ====
section
/-! DEFINITION. The instruction set: one constructor of `Instr` for every row of the opcode table, in
the table's order. Rows that have a word carry the word's operand fields; rows that are events of the
device carry what the event acts on. -/
namespace Sys2Proof

/-- Conditions of BRA on CC (R104), in code order 0 to 14. -/
inductive Cond where
  | al | eq | ne | lt | ge | le | gt | lo | hs | ls | hi | mi | pl | vs | vc
  deriving DecidableEq, Repr
/-- Conditions of ICMP (R160), in code order. -/
inductive ICond where
  | eq | ne | lt | le
  deriving DecidableEq, Repr
/-- Conditions of FCMP (R172), in code order. -/
inductive FCond where
  | eq | ne | lt | le | un | ord
  deriving DecidableEq, Repr
/-- Conditions of SSEL (R154), in code order. -/
inductive SCond where
  | eq | ne | lt | lo
  deriving DecidableEq, Repr
/-- Selectors of IDX (R147), in code order. -/
inductive IdxSel where
  | tx | ty | jx | jy | lin | j | lane
  deriving DecidableEq, Repr
/-- Selectors of SREAD (R148), in code order. -/
inductive SrSel where
  | width | launch | gt | gridx | gridy | teamx | teamy | lossx | context | core | team | group
  | active | helper | astat | texloops
  deriving DecidableEq, Repr
/-- Element types of MODE.ETYPE and of CVT (R47), in code order 0 to 13. -/
inductive EType where
  | f32 | f16 | bf16 | e4m3 | e5m2 | fp4 | i32 | n32 | i16 | n16 | i8 | n8 | i64 | n64
  deriving DecidableEq, Repr
/-- Rounding modes (R47, R68), in code order 0 to 5. -/
inductive Rnd where
  | rn | rz | ru | rd | rna | sr
  deriving DecidableEq, Repr
/-- Access sizes of the M format (R103), in code order 0 to 6. -/
inductive Size where
  | n8 | i8 | n16 | i16 | b32 | b64 | b128
  deriving DecidableEq, Repr
/-- Cache hints (R103), in code order. -/
inductive Hint where
  | normal | ef | el | na
  deriving DecidableEq, Repr
/-- Operations of atomics and reduction stores (R213), in code order. -/
inductive AOp where
  | add | min | max | and | or | xor | exch | cas
  deriving DecidableEq, Repr
/-- Types of atomics and reduction stores (R213), in code order. -/
inductive AType where
  | int | uint | f32 | bf16
  deriving DecidableEq, Repr
/-- Scopes of FENCE (R219), in code order. -/
inductive Scope where
  | group | team | die | package | system
  deriving DecidableEq, Repr
/-- Engine access paths (R219, R308), in code order. -/
inductive Path where
  | core | copy | mtx | hash | rast | tex | peer
  deriving DecidableEq, Repr
/-- Levels of PREF (R219), in code order. -/
inductive PrefLvl where
  | l1 | l2 | msc
  deriving DecidableEq, Repr
/-- Operations of CACHEOP (R219), in code order. -/
inductive CacheOp where
  | drop | clean | flush
  deriving DecidableEq, Repr
/-- Directions of QSWAP (R187), codes 1 to 3. -/
inductive QDir where
  | h | v | d
  deriving DecidableEq, Repr
/-- Operations of REDLOG and SCANLOG (R192), in code order. -/
inductive RedOp where
  | iadd | imin | imax | iminn | imaxn | iand | ior | ixor | fadd | fmin | fmax
  deriving DecidableEq, Repr
/-- Operations of VOTE (R187), in code order. -/
inductive VoteOp where
  | all | any | eq
  deriving DecidableEq, Repr
/-- Level modes of TSAMP (R264), in code order. -/
inductive TMode where
  | q | l | b
  deriving DecidableEq, Repr
/-- Face culling of RTRI (R269), in code order. -/
inductive Cull where
  | none | back | front
  deriving DecidableEq, Repr
/-- The control registers that CSRR and CSRW name (R276). -/
inductive Csr where
  | acclive
  | tcause | targ | tresume | taddr | tlanes | tscratch
  | lossx | preemptTimeout | ordTimeout
  | capacity | captarget | retirestk | retirestat | migphase
  | retain0 | retain1 | retain2 | retain3 | retovfl
  | xtabbase | xver | xpolicy | hotThresh | idleThresh | coldThresh | xwindow
  | mapctl | maperr | keycmd | keystat | leaseRw | leaseRo | svclevel
  deriving DecidableEq, Repr
/-- The kinds of an inbound access from the host or a peer (R412, R417). -/
inductive Inbound where
  | read (bytes : Nat)
  | write (data : List Nat)
  | reduce (op : AOp) (ty : AType) (data : List Nat)
  deriving DecidableEq, Repr

/-- The instructions and events of the opcode table, one constructor per row, in its order. -/
inductive Instr where
  | clauseStart (w a b l : Nat)
  -- vector integer, major 0x01 (R157)
  | iadd (d a b : Nat) | isub (d a b : Nat) | imul (d a b : Nat) | imulhi (d a b : Nat)
  | imulhn (d a b : Nat) | imad (d a b : Nat) | iand (d a b : Nat) | ior (d a b : Nat)
  | ixor (d a b : Nat) | ishl (d a b : Nat) | ishr (d a b : Nat) | isra (d a b : Nat)
  | imin (d a b : Nat) | imax (d a b : Nat) | iminn (d a b : Nat) | imaxn (d a b : Nat)
  | iabs (d a : Nat) | clz (d a : Nat) | popc (d a : Nat) | brev (d a : Nat)
  | bfe (d a b : Nat) | bfi (d a b : Nat) | intlv2 (d a b : Nat) | intlv3 (d a b : Nat)
  | mov (d a : Nat) | movs (d a : Nat) (hi : Bool) | icmp (n : Bool) (c : ICond) (p a b : Nat)
  -- immediates, majors 0x02 to 0x05 (R164)
  | iaddi (d a : Nat) (imm : Int) | ishli (d a imm : Nat) | movi (d : Nat) (imm : Int)
  | movhi (d imm : Nat)
  -- identity, mode and select, major 0x06
  | idx (d : Nat) (s : IdxSel) | sread (d : Nat) (clr : Bool) (s : SrSel) | mater
  | spanq (d : Nat) | setmodeReg (m a : Nat) | setmodeImm (m imm : Nat) | getmode (d : Nat)
  | isel (d a : Nat) (neg : Bool) (p : Nat)
  -- predicates, major 0x07 (R167)
  | pand (d a b : Nat) | por (d a b : Nat) | pxor (d a b : Nat) | pandn (d a b : Nat)
  | pcnt (d a : Nat) | pfirst (d a : Nat) | ptos (d a : Nat) (hi : Bool)
  | stop (d a : Nat) (hi : Bool)
  -- uniform integer, majors 0x08 to 0x0B (R152, R155)
  | sadd (d a b : Nat) (f : Bool) | ssub (d a b : Nat) (f : Bool) | smul (d a b : Nat) (f : Bool)
  | smulh (d a b : Nat) (n f : Bool) | sand (d a b : Nat) (f : Bool) | sor (d a b : Nat) (f : Bool)
  | sxor (d a b : Nat) (f : Bool) | sshl (d a b : Nat) (f : Bool) | sshr (d a b : Nat) (f : Bool)
  | ssra (d a b : Nat) (f : Bool) | smin (d a b : Nat) (n f : Bool) | smax (d a b : Nat) (n f : Bool)
  | scmp (a b : Nat) | ssel (d a b : Nat) (c : SCond) | smov (d a : Nat)
  | smovi (d : Nat) (imm : Int) | saddImm (d a : Nat) (imm : Int) | smovhi (d a imm : Nat)
  -- float arithmetic, major 0x10 (R169)
  | fadd (d a b : Nat) | fsub (d a b : Nat) | fmul (d a b : Nat) | fmad (d a b : Nat)
  | fmsb (d a b : Nat) | fmin (d a b : Nat) | fmax (d a b : Nat) | fneg (d a : Nat)
  | fabs (d a : Nat) | fcmp (c : FCond) (p a b : Nat) | fclass (d a : Nat) | frndi (d a : Nat)
  | fscale (d a b : Nat) | fdot2 (d a b : Nat)
  -- conversion, majors 0x11 and 0x12 (R178, R182)
  | cvt (d a k : Nat) (t : EType) | cvti (d a : Nat) (r : Rnd) (t : EType)
  | packb (d a b : Nat) | permb (d a b : Nat) | qcvt (d a s : Nat) | setseed (a b : Nat)
  -- special functions, major 0x13 (R185)
  | rcp (d a : Nat) | rsq (d a : Nat) | sqrt (d a : Nat) | exp2 (d a : Nat) | log2 (d a : Nat)
  | sint (d a : Nat) | cost (d a : Nat) | tanh (d a : Nat)
  -- cross-lane, major 0x14 (R187)
  | shflIdx (d a : Nat) (oob : Bool) (b : Nat) | shflUp (d a : Nat) (oob : Bool) (n : Nat)
  | shflDn (d a : Nat) (oob : Bool) (n : Nat) | shflXor (d a : Nat) (oob : Bool) (n : Nat)
  | shflUpw (d a : Nat) (oob : Bool) (k : Nat) | shflDnw (d a : Nat) (oob : Bool) (k : Nat)
  | shflXorw (d a : Nat) (oob : Bool) (k : Nat) | qswap (d a : Nat) (r : QDir)
  | qddx (d a : Nat) (c : Bool) | qddy (d a : Nat) (c : Bool) | redlog (d a : Nat) (o : RedOp)
  | scanlog (d a : Nat) (excl : Bool) (o : RedOp) | rdfirst (d a : Nat) (w : Bool)
  | rdlane (d a b : Nat) | ballot (d a : Nat) | vote (d a : Nat) (o : VoteOp)
  | vmatch (d a : Nat) | vmatchf (d a : Nat)
  -- control and masks, majors 0x17 to 0x1F (R128, R137)
  | mendl (o : Int) | bra (c : Cond) (o : Int) | brz (p : Nat) (o : Int) | brnz (p : Nat) (o : Int)
  | call (o : Int) | mif (p : Nat) (o : Int) | melse (o : Int) | mbrk (p : Nat) (o : Int)
  | mcont (p : Nat) (o : Int)
  -- loads and stores (R206 to R212)
  | ld (d s o : Nat) (z : Size) (h : Hint) (nr : Bool) | st (d s o : Nat) (z : Size) (h : Hint)
  | lds (d a : Nat) (imm : Int) | sts (d a : Nat) (imm : Int)
  | ldl (d s o : Nat) (z : Size) | stl (d s o : Nat) (z : Size)
  | ldc (d s o : Nat) (z : Size) | stc (d s o : Nat) (z : Size)
  | ldp (d s o : Nat) (z : Size) (h : Hint) | stp (d s o : Nat) (z : Size) (h : Hint)
  -- atomics and reduction stores (R213)
  | atom (d s o : Nat) (z : Size) (h : Hint) (b c : Nat) (op : AOp) (ty : AType)
  | atoml (d s o : Nat) (z : Size) (b c : Nat) (op : AOp) (ty : AType)
  | atomc (d s o : Nat) (b c : Nat) (op : AOp) (ty : AType)
  | redst (d s o : Nat) (z : Size) (h : Hint) (op : AOp) (ty : AType)
  | redc (d s o : Nat) (op : AOp) (ty : AType)
  -- synchronisation, copies, placement, publication (R219)
  | fence (s : Scope) | xfence (b a : Path) | bar (c n : Nat) | bararr (c n : Nat) | barwait (n : Nat)
  | bcinit (a n : Nat) | bcwait (d n : Nat) | cpyk (count a : Nat) | claim (d b a : Nat)
  | pin (d a : Nat) | unpin (d a : Nat) | pref (h : Hint) (l : PrefLvl) (o a : Nat)
  | tagset (t o a : Nat) | tagget (d o a : Nat) | cacheop (p : CacheOp) (o a : Nat)
  | pubw (b a : Nat) | acqw (d a : Nat) | mbxsend (a die : Nat) (fwd : Bool) | mbxrecv (d a : Nat)
  | spawn (d a s : Nat) (sig : Bool) (cls : Nat)
  -- matrix (R246, R247)
  | tdesc (b a d : Nat) | azero (d : Nat) | mma (r : Bool) (t a d : Nat) | mmap (r : Bool) (t a d : Nat)
  | mmabs (r : Bool) (t a d s : Nat) | aload (t d : Nat) | amov (a d : Nat)
  | adrain (band : Bool) (s a t : Nat) | agdrain (o b a : Nat) | astash (a q p : Nat)
  | matrixCommandStart (core : Nat)
  -- hash grid (R260)
  | hcfg (d a : Nat) | hgather (d a s l0 n : Nat) | hscatter (d a s l0 n : Nat)
  -- rendering (R264 to R272)
  | draw (d a n : Nat) (any : Bool) | drawQueue (op : Nat) | ordent (k p : Nat)
  | ordentAdmit (gid : Nat) | ordexit | ordexitRelease (rel : Nat)
  | tsamp (d c s x l : Nat) (m : TMode) | rbox (d y s n : Nat) | rtri (d y s n : Nat) (cull : Cull)
  | regroup (k : Nat) | regroupRoundClose (die launch : Nat)
  -- experts and system (R273, R275)
  | route (n e d : Nat) | xdone (t : Nat) | csrr (r : Csr) (d : Nat) | csrw (r : Csr) (a : Nat)
  | trap (imm : Nat) | hret | pyield | bkpt (imm : Nat)
  -- control without offset, major 0x35
  | nop | exit | ret | jmps (a : Nat) | trapu (imm : Nat) | mend | mloop
  -- events of groups, teams and memory
  | teamExpand (span : Nat) | longOpComplete (op : Nat) | wWaitSatisfied (gid : Nat)
  | bararrArrive (arr : Nat) | mbxDeliver (op : Nat) | mbxrecvTake (gid : Nat) | pubwStore (op : Nat)
  | copyRequestExecute (core : Nat) | copyElementWrite (copy elem : Nat)
  | homeRead (req : Nat) (useCopy : Bool) | homeStoreArrive (req : Nat) (install : Bool)
  | homeStorePerform (req : Nat) | homeAtomic (req : Nat) | scratchpadBankOp (req : Nat)
  | louvreFilterSwap (die slice : Nat) | pageWalk (core ctx va : Nat) | mvRecheck (op : Nat)
  | faultQueueWrite (fault : Nat) | trapHandlerEntry (gid : Nat) | groupEnd (gid : Nat)
  -- launches, contexts, graphs, classes
  | launchSubmit (sub : Nat) | placePiece (launch die : Nat)
  | ctxEnable (ctx : Nat) | ctxDisable (ctx : Nat) | ctxRelease (ctx : Nat)
  | kickReplay (ctx handle arg : Nat) | kickResolve (ctx : Nat) (deliver : Bool) (seq : Nat)
  | kickFrameTick (ctx : Nat) | kickSuspend (ctx : Nat) | kickResume (ctx : Nat)
  | kickDiscard (ctx word : Nat) | replayBegin (ctx : Nat)
  | nodeLaunch (ctx node : Nat) | nodeBackgroundLaunch (ctx node : Nat) | nodeCopy (ctx node : Nat)
  | nodeDraw (ctx node : Nat) | nodeSignal (ctx node : Nat) | nodeWait (ctx node : Nat)
  | waitNodePoll (ctx node : Nat) | nodeComplete (ctx node : Nat)
  | frameTick (ctx : Nat) | budgetExpire (ctx : Nat) | preemptEntry (gid : Nat)
  | teamSave (team : Nat) | preemptTimeoutExpire (team : Nat) | ordTimeoutExpire (gid : Nat)
  | teamResume (saved core : Nat)
  -- rasterisers
  | rasterDrawStart (die r : Nat) | fragmentRegister (die r : Nat) | rastTestAndWrite (die r : Nat)
  | drawEnd (die r : Nat)
  -- links and warm reset
  | linkFlitReceive (link : Nat) (crcOk : Bool) | linkRetryTimeout (link : Nat)
  | routeSwitch (src dst : Nat)
  | warmResetRequest (die : Nat) | warmResetStart (die : Nat) | warmResetQuiesce (die : Nat)
  | warmResetRetrain (die : Nat) | warmResetAdmit (die : Nat)
  -- Barchan
  | barchanWindowEnd | barchanPublish (table : Nat) | xtableEnable (table : Nat)
  | xtableDisable (table : Nat) | xtableRefresh (table : Nat)
  -- interleave and retirement
  | mapStageA (region row data : Nat) | mapStageB (region row data : Nat) | mapApply (region : Nat)
  | mapApplySwitch (region : Nat) | retireStack (value : Nat) | retireCellStart (cell : Nat)
  | retireRowCopy (cell : Nat) | retireCellSwitch (cell : Nat) | unitRequest (req : Nat)
  -- Caravan engines
  | caravanMoveStart (engine : Nat) | caravanPageCopy (engine : Nat) | caravanMoveEnd (engine : Nat)
  | caravanFreetailWrite (engine value : Nat) | caravanEpochEnd (engine : Nat)
  | pageCountForward (engine : Nat)
  -- host, peers, bring-up, keys, monitors
  | hostMemAccess (addr : Nat) (acc : Inbound) | peerInboundAccess (port addr : Nat) (acc : Inbound)
  | powerOn | mgmtAttest | mgmtReadCert | mgmtRaiseSvn | mgmtWarmStart | mgmtColdStart
  | mgmtWriteFlash (slot chunk : Nat) | keyGenerate (slot : Nat) | keyDestroy (slot : Nat)
  | keyQuery (slot : Nat) | keyDiscardDone (slot : Nat)
  | monitorSample (die : Nat) (temps volts rings : List Nat)
  | registerWrite (addr bytes value : Nat) | ctxcmdComplete | mgmtCommandComplete
  | keyGenerateComplete (slot : Nat) | startStepComplete (ok : Bool)
  | peerLinkTrain (port : Nat) (up : Bool) (lanes remote : Nat)
  deriving DecidableEq, Repr

end Sys2Proof
end

