-- ==== Sys2Proof/WellFormed.lean ====
section
/-! DEFINITION. Well-formed instructions: the operand values that the encoding admits. A word whose
fields break one of these is ILLEGAL from its encoding (R105, step 1). -/
namespace Sys2Proof

/-- The combinations that ATOM, ATOML (`.`), REDST, ATOMC and REDC admit (R214): `ret` is an atomic
that returns the old value, `pad` the die-scratchpad forms. -/
def atomicOk (ret pad : Bool) (op : AOp) (ty : AType) (z : Size) : Bool :=
  let wide := z == .b64
  match op, ty with
  | .add, .int => true
  | .add, .uint => true
  | .add, _ => !wide
  | .min, .bf16 => false
  | .max, .bf16 => false
  | .min, .f32 => !wide
  | .max, .f32 => !wide
  | .min, _ => true
  | .max, _ => true
  | .and, .int => !pad
  | .and, .uint => !pad
  | .or, .int => !pad
  | .or, .uint => !pad
  | .xor, .int => !pad
  | .xor, .uint => !pad
  | .exch, .int => ret
  | .exch, .uint => ret
  | .cas, .int => ret
  | .cas, .uint => ret
  | _, _ => false

/-- R103: a .b64 data register is even and a .b128 data register a multiple of 4. -/
def sizeReg (z : Size) (d : Nat) : Bool :=
  match z with
  | .b64 => d % 2 == 0
  | .b128 => d % 4 == 0
  | _ => true

/-- Sizes that a store admits (R203). -/
def storeSize (z : Size) : Bool :=
  match z with
  | .i8 => false
  | .i16 => false
  | _ => true

/-- Sizes that a global or local atomic admits (R203). -/
def atomSize (z : Size) : Bool :=
  match z with
  | .b32 => true
  | .b64 => true
  | _ => false

/-- A register of `.b64` operands B and C of an atomic names an even pair (R213). -/
def atomRegs (z : Size) (d b c : Nat) : Bool :=
  d < 128 && b < 128 && c < 128 && sizeReg z d && sizeReg z b && sizeReg z c

/-- The comparison register is used by .cas alone and reserved otherwise (R213). -/
def casReg (op : AOp) (c : Nat) : Bool :=
  match op with
  | .cas => true
  | _ => c == 0

/-- The well-formed instructions. Event rows carry the bounds of the numbers they name (R3, R350). -/
def Instr.wf : Instr → Bool
  | .clauseStart w a b l =>
      w < 4096 && a < 16 && b < 16 && l < 64 && 1 ≤ l && !(12 ≤ a && a ≤ 14) && !(12 ≤ b && b ≤ 14)
  | .iadd d a b => d < 128 && a < 128 && b < 128
  | .isub d a b => d < 128 && a < 128 && b < 128
  | .imul d a b => d < 128 && a < 128 && b < 128
  | .imulhi d a b => d < 128 && a < 128 && b < 128
  | .imulhn d a b => d < 128 && a < 128 && b < 128
  | .imad d a b => d < 128 && a < 128 && b < 128
  | .iand d a b => d < 128 && a < 128 && b < 128
  | .ior d a b => d < 128 && a < 128 && b < 128
  | .ixor d a b => d < 128 && a < 128 && b < 128
  | .ishl d a b => d < 128 && a < 128 && b < 128
  | .ishr d a b => d < 128 && a < 128 && b < 128
  | .isra d a b => d < 128 && a < 128 && b < 128
  | .imin d a b => d < 128 && a < 128 && b < 128
  | .imax d a b => d < 128 && a < 128 && b < 128
  | .iminn d a b => d < 128 && a < 128 && b < 128
  | .imaxn d a b => d < 128 && a < 128 && b < 128
  | .iabs d a => d < 128 && a < 128
  | .clz d a => d < 128 && a < 128
  | .popc d a => d < 128 && a < 128
  | .brev d a => d < 128 && a < 128
  | .bfe d a b => d < 128 && a < 128 && b < 128
  | .bfi d a b => d < 128 && a < 128 && b < 128
  | .intlv2 d a b => d < 128 && a < 128 && b < 128
  | .intlv3 d a b => d < 128 && a < 128 && b < 128
  | .mov d a => d < 128 && a < 128
  | .movs d a _ => d < 128 && a < 64
  | .icmp _ _ p a b => p < 16 && a < 128 && b < 128
  | .iaddi d a imm => d < 128 && a < 128 && -2048 ≤ imm && imm < 2048
  | .ishli d a imm => d < 128 && a < 128 && imm < 4096
  | .movi d imm => d < 128 && -262144 ≤ imm && imm < 262144
  | .movhi d imm => d < 128 && imm < 524288
  | .idx d _ => d < 128
  | .sread d clr s => d < 64 && (!clr || s == .astat)
  | .mater => true
  | .spanq d => d < 64
  | .setmodeReg m a => 0 < m && m < 256 && a < 64
  | .setmodeImm m imm =>
      0 < m && m < 256 && imm < 2048 && (m / 8 == 0 || (m % 8 == 0 && imm < 1024))
  | .getmode d => d < 64
  | .isel d a _ p => d < 128 && a < 128 && p < 16
  | .pand d a b => d < 16 && a < 16 && b < 16
  | .por d a b => d < 16 && a < 16 && b < 16
  | .pxor d a b => d < 16 && a < 16 && b < 16
  | .pandn d a b => d < 16 && a < 16 && b < 16
  | .pcnt d a => d < 64 && a < 16
  | .pfirst d a => d < 16 && a < 16
  | .ptos d a _ => d < 64 && a < 16
  | .stop d a _ => d < 16 && a < 64
  | .sadd d a b _ => d < 64 && a < 64 && b < 64
  | .ssub d a b _ => d < 64 && a < 64 && b < 64
  | .smul d a b _ => d < 64 && a < 64 && b < 64
  | .smulh d a b _ _ => d < 64 && a < 64 && b < 64
  | .sand d a b _ => d < 64 && a < 64 && b < 64
  | .sor d a b _ => d < 64 && a < 64 && b < 64
  | .sxor d a b _ => d < 64 && a < 64 && b < 64
  | .sshl d a b _ => d < 64 && a < 64 && b < 64
  | .sshr d a b _ => d < 64 && a < 64 && b < 64
  | .ssra d a b _ => d < 64 && a < 64 && b < 64
  | .smin d a b _ _ => d < 64 && a < 64 && b < 64
  | .smax d a b _ _ => d < 64 && a < 64 && b < 64
  | .scmp a b => a < 64 && b < 64
  | .ssel d a b _ => d < 64 && a < 64 && b < 64
  | .smov d a => d < 64 && a < 64
  | .smovi d imm => d < 64 && -8192 ≤ imm && imm < 8192
  | .saddImm d a imm => d < 64 && a < 64 && -8192 ≤ imm && imm < 8192
  | .smovhi d a imm => d < 64 && a < 64 && imm < 16384
  | .fadd d a b => d < 128 && a < 128 && b < 128
  | .fsub d a b => d < 128 && a < 128 && b < 128
  | .fmul d a b => d < 128 && a < 128 && b < 128
  | .fmad d a b => d < 128 && a < 128 && b < 128
  | .fmsb d a b => d < 128 && a < 128 && b < 128
  | .fmin d a b => d < 128 && a < 128 && b < 128
  | .fmax d a b => d < 128 && a < 128 && b < 128
  | .fneg d a => d < 128 && a < 128
  | .fabs d a => d < 128 && a < 128
  | .fcmp _ p a b => p < 16 && a < 128 && b < 128
  | .fclass d a => d < 128 && a < 128
  | .frndi d a => d < 128 && a < 128
  | .fscale d a b => d < 128 && a < 128 && b < 128
  | .fdot2 d a b => d < 128 && a < 128 && b < 128
  | .cvt d a k _ => d < 128 && a < 128 && k < 8
  | .cvti d a _ _ => d < 128 && a < 128
  | .packb d a b => d < 128 && a < 128 && b < 128
  | .permb d a b => d < 128 && a < 128 && b < 128
  | .qcvt d a s => d < 128 && a < 128 && s < 64
  | .setseed a b => a < 128 && b < 64
  | .rcp d a => d < 128 && a < 128
  | .rsq d a => d < 128 && a < 128
  | .sqrt d a => d < 128 && a < 128
  | .exp2 d a => d < 128 && a < 128
  | .log2 d a => d < 128 && a < 128
  | .sint d a => d < 128 && a < 128
  | .cost d a => d < 128 && a < 128
  | .tanh d a => d < 128 && a < 128
  | .shflIdx d a _ b => d < 128 && a < 128 && b < 64
  | .shflUp d a _ n => d < 128 && a < 128 && n < 64
  | .shflDn d a _ n => d < 128 && a < 128 && n < 64
  | .shflXor d a _ n => d < 128 && a < 128 && n < 64
  | .shflUpw d a _ k => d < 128 && a < 128 && 1 ≤ k && k < 8
  | .shflDnw d a _ k => d < 128 && a < 128 && 1 ≤ k && k < 8
  | .shflXorw d a _ k => d < 128 && a < 128 && 1 ≤ k && k < 8
  | .qswap d a _ => d < 128 && a < 128
  | .qddx d a _ => d < 128 && a < 128
  | .qddy d a _ => d < 128 && a < 128
  | .redlog d a _ => d < 128 && a < 128
  | .scanlog d a _ _ => d < 128 && a < 128
  | .rdfirst d a w => d < 64 && a < 128 && (!w || a % 2 == 0)
  | .rdlane d a b => d < 64 && a < 128 && b < 64
  | .ballot d a => d < 128 && d % 2 == 0 && a < 16
  | .vote d a _ => d < 16 && a < 16
  | .vmatch d a => d < 128 && d % 2 == 0 && a < 128
  | .vmatchf d a => d < 128 && d % 2 == 0 && a < 128
  | .mendl o => -2097152 ≤ o && o < 2097152
  | .bra _ o => -2097152 ≤ o && o < 2097152
  | .brz p o => p < 16 && -2097152 ≤ o && o < 2097152
  | .brnz p o => p < 16 && -2097152 ≤ o && o < 2097152
  | .call o => -2097152 ≤ o && o < 2097152
  | .mif p o => p < 16 && -2097152 ≤ o && o < 2097152
  | .melse o => -2097152 ≤ o && o < 2097152
  | .mbrk p o => p < 16 && -2097152 ≤ o && o < 2097152
  | .mcont p o => p < 16 && -2097152 ≤ o && o < 2097152
  | .ld d s o z _ _ => d < 128 && s < 64 && o < 128 && sizeReg z d
  | .st d s o z _ => d < 128 && s < 64 && o < 128 && sizeReg z d && storeSize z
  | .lds d a imm => d < 64 && a < 64 && -8192 ≤ imm && imm < 8192
  | .sts d a imm => d < 64 && a < 64 && -8192 ≤ imm && imm < 8192
  | .ldl d s o z => d < 128 && s < 64 && o < 128 && sizeReg z d
  | .stl d s o z => d < 128 && s < 64 && o < 128 && sizeReg z d && storeSize z
  | .ldc d s o z => d < 128 && s < 64 && o < 128 && sizeReg z d
  | .stc d s o z => d < 128 && s < 64 && o < 128 && sizeReg z d && storeSize z
  | .ldp d s o z _ => d < 128 && s < 64 && o < 128 && sizeReg z d
  | .stp d s o z _ => d < 128 && s < 64 && o < 128 && sizeReg z d && storeSize z
  | .atom d s o z _ b c op ty =>
      s < 64 && o < 128 && atomRegs z d b c && atomSize z && casReg op c && atomicOk true false op ty z
  | .atoml d s o z b c op ty =>
      s < 64 && o < 128 && atomRegs z d b c && atomSize z && casReg op c && atomicOk true false op ty z
  | .atomc d s o b c op ty =>
      s < 64 && o < 128 && atomRegs .b32 d b c && casReg op c && atomicOk true true op ty .b32
  | .redst d s o z _ op ty =>
      s < 64 && o < 128 && d < 128 && sizeReg z d && atomSize z && atomicOk false false op ty z
  | .redc d s o op ty => s < 64 && o < 128 && d < 128 && atomicOk false true op ty .b32
  | .fence _ => true
  | .xfence _ _ => true
  | .bar c n => c ≤ 16 && n < 16
  | .bararr c n => c ≤ 16 && n < 16
  | .barwait n => n < 16
  | .bcinit a n => a < 64 && n < 16
  | .bcwait d n => d < 64 && n < 16
  | .cpyk count a => 1 ≤ count && count ≤ 64 && a < 64
  | .claim d b a => d < 64 && b < 64 && a < 64
  | .pin d a => d < 64 && a < 64
  | .unpin d a => d < 64 && a < 64
  | .pref _ _ o a => o < 128 && a < 64
  | .tagset t o a => t < 128 && o < 128 && a < 64
  | .tagget d o a => d < 128 && o < 128 && a < 64
  | .cacheop _ o a => o < 128 && a < 64
  | .pubw b a => b < 64 && a < 64
  | .acqw d a => d < 64 && a < 64
  | .mbxsend a die _ => a < 64 && die < 4
  | .mbxrecv d a => d < 64 && a < 64
  | .spawn d a s _ cls => d < 64 && a < 64 && s < 64 && cls < 4
  | .tdesc b a d => b < 64 && a < 64 && d < 16
  | .azero d => d < 64
  | .mma _ t a d => t < 16 && a < 128 && a % 8 == 0 && d < 64
  | .mmap _ t a d => t < 16 && a < 128 && a % 8 == 0 && d < 64
  | .mmabs _ t a d s => t < 16 && a < 128 && a % 8 == 0 && d < 64 && s < 128 && s % 4 == 0
  | .aload t d => t < 16 && d < 64
  | .amov a d => a < 64 && d < 64
  | .adrain band s a t => s < 64 && a < 64 && t < 16 && (band || s == 0)
  | .agdrain o b a => o < 128 && b < 64 && a < 64
  | .astash a q p => a < 64 && q < 16 && p < 16
  | .matrixCommandStart core => core < 640
  | .hcfg d a => d < 64 && a < 64
  | .hgather d a s l0 n => d < 128 && a < 128 && s < 64 && l0 < 16 && 1 ≤ n && n ≤ 16
  | .hscatter d a s l0 n => d < 128 && a < 128 && s < 64 && l0 < 16 && 1 ≤ n && n ≤ 16
  | .draw d a n any => d < 64 && a < 64 && n < 4 && (!any || n == 0)
  | .drawQueue _ => true
  | .ordent k p => k < 128 && k % 2 == 0 && p < 128
  | .ordentAdmit _ => true
  | .ordexit => true
  | .ordexitRelease _ => true
  | .tsamp d c s x l m => d < 128 && c < 128 && s < 64 && x < 128 && l < 128 && (m != .q || l == 0)
  | .rbox d y s n => d < 128 && y < 128 && s < 64 && n < 128
  | .rtri d y s n _ => d < 128 && y < 128 && s < 64 && n < 128
  | .regroup k => k < 128
  | .regroupRoundClose die _ => die < 4
  | .route n e d => n < 4 && e < 128 && d < 128 && d % 2 == 0
  | .xdone t => t < 128 && t % 2 == 0
  | .csrr _ d => d < 64
  | .csrw _ a => a < 64
  | .trap imm => imm < 65536
  | .hret => true
  | .pyield => true
  | .bkpt imm => imm < 65536
  | .nop => true
  | .exit => true
  | .ret => true
  | .jmps a => a < 64
  | .trapu imm => imm < 65536
  | .mend => true
  | .mloop => true
  | .copyRequestExecute core => core < 644
  | .louvreFilterSwap die slice => die < 4 && slice < 64
  | .pageWalk core ctx va => core < 640 && ctx < 16384 && va < 2 ^ 56
  | .placePiece _ die => die < 4
  | .ctxEnable c => c < 16384
  | .ctxDisable c => c < 16384
  | .ctxRelease c => c < 16384
  | .kickReplay c h arg => c < 16384 && h < 1024 && arg < 2 ^ 50
  | .kickResolve c _ seq => c < 16384 && seq < 2 ^ 50
  | .kickDiscard c w => c < 16384 && w < 2 ^ 64
  | .teamResume _ core => core < 640
  | .rasterDrawStart d r => d < 4 && r < 4
  | .fragmentRegister d r => d < 4 && r < 4
  | .rastTestAndWrite d r => d < 4 && r < 4
  | .drawEnd d r => d < 4 && r < 4
  | .warmResetRequest d => d < 4
  | .warmResetStart d => d < 4
  | .warmResetQuiesce d => d < 4
  | .warmResetRetrain d => d < 4
  | .warmResetAdmit d => d < 4
  | .barchanPublish n => n < 4
  | .xtableEnable n => n < 4
  | .xtableDisable n => n < 4
  | .xtableRefresh n => n < 4
  | .mapStageA r row data => r < 6 && row < 12 && data < 4096
  | .mapStageB r row data => r < 6 && row < 12 && data < (if r == 0 then 2 ^ 20 else if r == 5 then 2 ^ 22 else 2 ^ 18)
  | .mapApply r => r < 6
  | .mapApplySwitch r => r < 6
  | .caravanMoveStart e => e < 6
  | .caravanPageCopy e => e < 6
  | .caravanMoveEnd e => e < 6
  | .caravanFreetailWrite e v => e < 6 && v < 2 ^ 32
  | .caravanEpochEnd e => e < 6
  | .pageCountForward e => e < 6
  | .peerInboundAccess q _ _ => q < 16
  | .mgmtWriteFlash slot chunk => slot < 2 && chunk < 2 ^ 16
  | .keyGenerate k => k < 1024
  | .keyDestroy k => k < 1024
  | .keyQuery k => k < 1024
  | .keyDiscardDone k => k < 1024
  | .keyGenerateComplete k => k < 1024
  | .monitorSample die _ _ _ => die < 4
  | .registerWrite _ bytes _ => bytes == 1 || bytes == 2 || bytes == 4 || bytes == 8
  | .peerLinkTrain q _ lanes _ => q < 16 && lanes ≤ 4
  | .teamExpand _ => true
  | .longOpComplete _ => true
  | .wWaitSatisfied _ => true
  | .bararrArrive _ => true
  | .mbxDeliver _ => true
  | .mbxrecvTake _ => true
  | .pubwStore _ => true
  | .copyElementWrite _ _ => true
  | .homeRead _ _ => true
  | .homeStoreArrive _ _ => true
  | .homeStorePerform _ => true
  | .homeAtomic _ => true
  | .scratchpadBankOp _ => true
  | .mvRecheck _ => true
  | .faultQueueWrite _ => true
  | .trapHandlerEntry _ => true
  | .groupEnd _ => true
  | .launchSubmit _ => true
  | .kickFrameTick c => c < 16384
  | .kickSuspend c => c < 16384
  | .kickResume c => c < 16384
  | .replayBegin c => c < 16384
  | .nodeLaunch c _ => c < 16384
  | .nodeBackgroundLaunch c _ => c < 16384
  | .nodeCopy c _ => c < 16384
  | .nodeDraw c _ => c < 16384
  | .nodeSignal c _ => c < 16384
  | .nodeWait c _ => c < 16384
  | .waitNodePoll c _ => c < 16384
  | .nodeComplete c _ => c < 16384
  | .frameTick c => c < 16384
  | .budgetExpire c => c < 16384
  | .preemptEntry _ => true
  | .teamSave _ => true
  | .preemptTimeoutExpire _ => true
  | .ordTimeoutExpire _ => true
  | .linkFlitReceive _ _ => true
  | .linkRetryTimeout _ => true
  | .routeSwitch _ _ => true
  | .barchanWindowEnd => true
  | .retireStack v => v < 2 ^ 64
  | .retireCellStart _ => true
  | .retireRowCopy _ => true
  | .retireCellSwitch _ => true
  | .unitRequest _ => true
  | .hostMemAccess _ _ => true
  | .powerOn => true
  | .mgmtAttest => true
  | .mgmtReadCert => true
  | .mgmtRaiseSvn => true
  | .mgmtWarmStart => true
  | .mgmtColdStart => true
  | .ctxcmdComplete => true
  | .mgmtCommandComplete => true
  | .startStepComplete _ => true

end Sys2Proof
end

