-- ==== Sys2Proof/Decode.lean ====
section
/-! DEFINITION. The decoder, total on every word and rejecting by name, and the encoder of well-formed
instructions, both written from the encoding tables of the spec (R94, R98 to R105 and the tables of the
instruction entries). Words are natural numbers below 2^32; an instruction marked E takes a second word. -/
namespace Sys2Proof

/-- Field `[lo+n-1:lo]` of a word, given as `2^lo` and `2^n`. -/
def fld (w lo n : Nat) : Nat := w / lo % n
/-- The one-bit field at `2^lo`. -/
def bit (w lo : Nat) : Bool := w / lo % 2 == 1
/-- A Bool as a bit. -/
def b2n (b : Bool) : Nat := if b then 1 else 0
/-- A two's complement field of modulus `n` (R100). -/
def sxt (v n : Nat) : Int := if 2 * v < n then (v : Int) else (v : Int) - (n : Int)
/-- The field of modulus `n` that holds an integer in two's complement. -/
def unsx (i : Int) (n : Nat) : Nat := (i % (n : Int)).toNat

/-- The code of `Cond` in its field. -/
def Cond.code : Cond → Nat
  | .al => 0
  | .eq => 1
  | .ne => 2
  | .lt => 3
  | .ge => 4
  | .le => 5
  | .gt => 6
  | .lo => 7
  | .hs => 8
  | .ls => 9
  | .hi => 10
  | .mi => 11
  | .pl => 12
  | .vs => 13
  | .vc => 14
/-- The `Cond` that a code names; `none` for an unassigned code. -/
def Cond.ofCode : Nat → Option Cond
  | 0 => some .al
  | 1 => some .eq
  | 2 => some .ne
  | 3 => some .lt
  | 4 => some .ge
  | 5 => some .le
  | 6 => some .gt
  | 7 => some .lo
  | 8 => some .hs
  | 9 => some .ls
  | 10 => some .hi
  | 11 => some .mi
  | 12 => some .pl
  | 13 => some .vs
  | 14 => some .vc
  | _ => none

/-- The code of `ICond` in its field. -/
def ICond.code : ICond → Nat
  | .eq => 0
  | .ne => 1
  | .lt => 2
  | .le => 3
/-- The `ICond` that a code names; `none` for an unassigned code. -/
def ICond.ofCode : Nat → Option ICond
  | 0 => some .eq
  | 1 => some .ne
  | 2 => some .lt
  | 3 => some .le
  | _ => none

/-- The code of `FCond` in its field. -/
def FCond.code : FCond → Nat
  | .eq => 0
  | .ne => 1
  | .lt => 2
  | .le => 3
  | .un => 4
  | .ord => 5
/-- The `FCond` that a code names; `none` for an unassigned code. -/
def FCond.ofCode : Nat → Option FCond
  | 0 => some .eq
  | 1 => some .ne
  | 2 => some .lt
  | 3 => some .le
  | 4 => some .un
  | 5 => some .ord
  | _ => none

/-- The code of `SCond` in its field. -/
def SCond.code : SCond → Nat
  | .eq => 0
  | .ne => 1
  | .lt => 2
  | .lo => 3
/-- The `SCond` that a code names; `none` for an unassigned code. -/
def SCond.ofCode : Nat → Option SCond
  | 0 => some .eq
  | 1 => some .ne
  | 2 => some .lt
  | 3 => some .lo
  | _ => none

/-- The code of `IdxSel` in its field. -/
def IdxSel.code : IdxSel → Nat
  | .tx => 0
  | .ty => 1
  | .jx => 2
  | .jy => 3
  | .lin => 4
  | .j => 5
  | .lane => 6
/-- The `IdxSel` that a code names; `none` for an unassigned code. -/
def IdxSel.ofCode : Nat → Option IdxSel
  | 0 => some .tx
  | 1 => some .ty
  | 2 => some .jx
  | 3 => some .jy
  | 4 => some .lin
  | 5 => some .j
  | 6 => some .lane
  | _ => none

/-- The code of `SrSel` in its field. -/
def SrSel.code : SrSel → Nat
  | .width => 0
  | .launch => 1
  | .gt => 2
  | .gridx => 3
  | .gridy => 4
  | .teamx => 5
  | .teamy => 6
  | .lossx => 7
  | .context => 8
  | .core => 9
  | .team => 10
  | .group => 11
  | .active => 12
  | .helper => 13
  | .astat => 14
  | .texloops => 15
/-- The `SrSel` that a code names; `none` for an unassigned code. -/
def SrSel.ofCode : Nat → Option SrSel
  | 0 => some .width
  | 1 => some .launch
  | 2 => some .gt
  | 3 => some .gridx
  | 4 => some .gridy
  | 5 => some .teamx
  | 6 => some .teamy
  | 7 => some .lossx
  | 8 => some .context
  | 9 => some .core
  | 10 => some .team
  | 11 => some .group
  | 12 => some .active
  | 13 => some .helper
  | 14 => some .astat
  | 15 => some .texloops
  | _ => none

/-- The code of `EType` in its field. -/
def EType.code : EType → Nat
  | .f32 => 0
  | .f16 => 1
  | .bf16 => 2
  | .e4m3 => 3
  | .e5m2 => 4
  | .fp4 => 5
  | .i32 => 6
  | .n32 => 7
  | .i16 => 8
  | .n16 => 9
  | .i8 => 10
  | .n8 => 11
  | .i64 => 12
  | .n64 => 13
/-- The `EType` that a code names; `none` for an unassigned code. -/
def EType.ofCode : Nat → Option EType
  | 0 => some .f32
  | 1 => some .f16
  | 2 => some .bf16
  | 3 => some .e4m3
  | 4 => some .e5m2
  | 5 => some .fp4
  | 6 => some .i32
  | 7 => some .n32
  | 8 => some .i16
  | 9 => some .n16
  | 10 => some .i8
  | 11 => some .n8
  | 12 => some .i64
  | 13 => some .n64
  | _ => none

/-- The code of `Rnd` in its field. -/
def Rnd.code : Rnd → Nat
  | .rn => 0
  | .rz => 1
  | .ru => 2
  | .rd => 3
  | .rna => 4
  | .sr => 5
/-- The `Rnd` that a code names; `none` for an unassigned code. -/
def Rnd.ofCode : Nat → Option Rnd
  | 0 => some .rn
  | 1 => some .rz
  | 2 => some .ru
  | 3 => some .rd
  | 4 => some .rna
  | 5 => some .sr
  | _ => none

/-- The code of `Size` in its field. -/
def Size.code : Size → Nat
  | .n8 => 0
  | .i8 => 1
  | .n16 => 2
  | .i16 => 3
  | .b32 => 4
  | .b64 => 5
  | .b128 => 6
/-- The `Size` that a code names; `none` for an unassigned code. -/
def Size.ofCode : Nat → Option Size
  | 0 => some .n8
  | 1 => some .i8
  | 2 => some .n16
  | 3 => some .i16
  | 4 => some .b32
  | 5 => some .b64
  | 6 => some .b128
  | _ => none

/-- The code of `Hint` in its field. -/
def Hint.code : Hint → Nat
  | .normal => 0
  | .ef => 1
  | .el => 2
  | .na => 3
/-- The `Hint` that a code names; `none` for an unassigned code. -/
def Hint.ofCode : Nat → Option Hint
  | 0 => some .normal
  | 1 => some .ef
  | 2 => some .el
  | 3 => some .na
  | _ => none

/-- The code of `AOp` in its field. -/
def AOp.code : AOp → Nat
  | .add => 0
  | .min => 1
  | .max => 2
  | .and => 3
  | .or => 4
  | .xor => 5
  | .exch => 6
  | .cas => 7
/-- The `AOp` that a code names; `none` for an unassigned code. -/
def AOp.ofCode : Nat → Option AOp
  | 0 => some .add
  | 1 => some .min
  | 2 => some .max
  | 3 => some .and
  | 4 => some .or
  | 5 => some .xor
  | 6 => some .exch
  | 7 => some .cas
  | _ => none

/-- The code of `AType` in its field. -/
def AType.code : AType → Nat
  | .int => 0
  | .uint => 1
  | .f32 => 2
  | .bf16 => 3
/-- The `AType` that a code names; `none` for an unassigned code. -/
def AType.ofCode : Nat → Option AType
  | 0 => some .int
  | 1 => some .uint
  | 2 => some .f32
  | 3 => some .bf16
  | _ => none

/-- The code of `Scope` in its field. -/
def Scope.code : Scope → Nat
  | .group => 0
  | .team => 1
  | .die => 2
  | .package => 3
  | .system => 4
/-- The `Scope` that a code names; `none` for an unassigned code. -/
def Scope.ofCode : Nat → Option Scope
  | 0 => some .group
  | 1 => some .team
  | 2 => some .die
  | 3 => some .package
  | 4 => some .system
  | _ => none

/-- The code of `Path` in its field. -/
def Path.code : Path → Nat
  | .core => 0
  | .copy => 1
  | .mtx => 2
  | .hash => 3
  | .rast => 4
  | .tex => 5
  | .peer => 6
/-- The `Path` that a code names; `none` for an unassigned code. -/
def Path.ofCode : Nat → Option Path
  | 0 => some .core
  | 1 => some .copy
  | 2 => some .mtx
  | 3 => some .hash
  | 4 => some .rast
  | 5 => some .tex
  | 6 => some .peer
  | _ => none

/-- The code of `PrefLvl` in its field. -/
def PrefLvl.code : PrefLvl → Nat
  | .l1 => 0
  | .l2 => 1
  | .msc => 2
/-- The `PrefLvl` that a code names; `none` for an unassigned code. -/
def PrefLvl.ofCode : Nat → Option PrefLvl
  | 0 => some .l1
  | 1 => some .l2
  | 2 => some .msc
  | _ => none

/-- The code of `CacheOp` in its field. -/
def CacheOp.code : CacheOp → Nat
  | .drop => 0
  | .clean => 1
  | .flush => 2
/-- The `CacheOp` that a code names; `none` for an unassigned code. -/
def CacheOp.ofCode : Nat → Option CacheOp
  | 0 => some .drop
  | 1 => some .clean
  | 2 => some .flush
  | _ => none

/-- The code of `QDir` in its field. -/
def QDir.code : QDir → Nat
  | .h => 1
  | .v => 2
  | .d => 3
/-- The `QDir` that a code names; `none` for an unassigned code. -/
def QDir.ofCode : Nat → Option QDir
  | 1 => some .h
  | 2 => some .v
  | 3 => some .d
  | _ => none

/-- The code of `RedOp` in its field. -/
def RedOp.code : RedOp → Nat
  | .iadd => 0
  | .imin => 1
  | .imax => 2
  | .iminn => 3
  | .imaxn => 4
  | .iand => 5
  | .ior => 6
  | .ixor => 7
  | .fadd => 8
  | .fmin => 9
  | .fmax => 10
/-- The `RedOp` that a code names; `none` for an unassigned code. -/
def RedOp.ofCode : Nat → Option RedOp
  | 0 => some .iadd
  | 1 => some .imin
  | 2 => some .imax
  | 3 => some .iminn
  | 4 => some .imaxn
  | 5 => some .iand
  | 6 => some .ior
  | 7 => some .ixor
  | 8 => some .fadd
  | 9 => some .fmin
  | 10 => some .fmax
  | _ => none

/-- The code of `VoteOp` in its field. -/
def VoteOp.code : VoteOp → Nat
  | .all => 0
  | .any => 1
  | .eq => 2
/-- The `VoteOp` that a code names; `none` for an unassigned code. -/
def VoteOp.ofCode : Nat → Option VoteOp
  | 0 => some .all
  | 1 => some .any
  | 2 => some .eq
  | _ => none

/-- The code of `TMode` in its field. -/
def TMode.code : TMode → Nat
  | .q => 0
  | .l => 1
  | .b => 2
/-- The `TMode` that a code names; `none` for an unassigned code. -/
def TMode.ofCode : Nat → Option TMode
  | 0 => some .q
  | 1 => some .l
  | 2 => some .b
  | _ => none

/-- The code of `Cull` in its field. -/
def Cull.code : Cull → Nat
  | .none => 0
  | .back => 1
  | .front => 2
/-- The `Cull` that a code names; `none` for an unassigned code. -/
def Cull.ofCode : Nat → Option Cull
  | 0 => some .none
  | 1 => some .back
  | 2 => some .front
  | _ => none

/-- The register number of a control register (R276). -/
def Csr.num : Csr → Nat
  | .acclive => 0x0
  | .tcause => 0x400
  | .targ => 0x401
  | .tresume => 0x402
  | .taddr => 0x403
  | .tlanes => 0x404
  | .tscratch => 0x405
  | .lossx => 0x410
  | .preemptTimeout => 0x411
  | .ordTimeout => 0x412
  | .capacity => 0x420
  | .captarget => 0x421
  | .retirestk => 0x422
  | .retirestat => 0x423
  | .migphase => 0x424
  | .retain0 => 0x430
  | .retain1 => 0x431
  | .retain2 => 0x432
  | .retain3 => 0x433
  | .retovfl => 0x434
  | .xtabbase => 0x440
  | .xver => 0x441
  | .xpolicy => 0x442
  | .hotThresh => 0x443
  | .idleThresh => 0x444
  | .coldThresh => 0x445
  | .xwindow => 0x446
  | .mapctl => 0x800
  | .maperr => 0x801
  | .keycmd => 0x802
  | .keystat => 0x803
  | .leaseRw => 0x804
  | .leaseRo => 0x805
  | .svclevel => 0x806
/-- The control register that a number names (R276); `none` for an unassigned number. -/
def Csr.ofNum : Nat → Option Csr
  | 0x0 => some .acclive
  | 0x400 => some .tcause
  | 0x401 => some .targ
  | 0x402 => some .tresume
  | 0x403 => some .taddr
  | 0x404 => some .tlanes
  | 0x405 => some .tscratch
  | 0x410 => some .lossx
  | 0x411 => some .preemptTimeout
  | 0x412 => some .ordTimeout
  | 0x420 => some .capacity
  | 0x421 => some .captarget
  | 0x422 => some .retirestk
  | 0x423 => some .retirestat
  | 0x424 => some .migphase
  | 0x430 => some .retain0
  | 0x431 => some .retain1
  | 0x432 => some .retain2
  | 0x433 => some .retain3
  | 0x434 => some .retovfl
  | 0x440 => some .xtabbase
  | 0x441 => some .xver
  | 0x442 => some .xpolicy
  | 0x443 => some .hotThresh
  | 0x444 => some .idleThresh
  | 0x445 => some .coldThresh
  | 0x446 => some .xwindow
  | 0x800 => some .mapctl
  | 0x801 => some .maperr
  | 0x802 => some .keycmd
  | 0x803 => some .keystat
  | 0x804 => some .leaseRw
  | 0x805 => some .leaseRo
  | 0x806 => some .svclevel
  | _ => none

/-! ### Word formats (R99) -/

/-- V3: minor [25:21], d [20:14], a [13:7], b [6:0]. -/
def wV3 (maj min d a b : Nat) : Nat := maj * 67108864 + min * 2097152 + d * 16384 + a * 128 + b
/-- VI: d [25:19], a [18:12], imm12 [11:0]. -/
def wVI (maj d a imm : Nat) : Nat := maj * 67108864 + d * 524288 + a * 4096 + imm
/-- VL: d [25:19], imm19 [18:0]. -/
def wVL (maj d imm : Nat) : Nat := maj * 67108864 + d * 524288 + imm
/-- S3: minor [25:20], d [19:14], a [13:8], b [7:2], sub [1:0]. -/
def wS3 (min d a b sub : Nat) : Nat := 0x08 * 67108864 + min * 1048576 + d * 16384 + a * 256 + b * 4 + sub
/-- SI: d [25:20], a [19:14], imm14 [13:0]. -/
def wSI (maj d a imm : Nat) : Nat := maj * 67108864 + d * 1048576 + a * 16384 + imm
/-- M: data [25:19], base [18:13], offset [12:6], size [5:3], hint [2:1], nr [0]. -/
def wM (maj d s o z h nr : Nat) : Nat :=
  maj * 67108864 + d * 524288 + s * 8192 + o * 64 + z * 8 + h * 2 + nr
/-- B: cond [25:22], offset [21:0]. -/
def wB (maj c : Nat) (o : Int) : Nat := maj * 67108864 + c * 4194304 + unsx o 4194304
/-- X: minor [25:20], operands [19:0]. -/
def wX (maj min ops : Nat) : Nat := maj * 67108864 + min * 1048576 + ops
/-- The extension word of a payload (R98). -/
def wE (payload : Nat) : Nat := 0x3E * 67108864 + payload

/-- The words of a well-formed instruction, in order; an event has none. -/
def encode : Instr → List Nat
  | .clauseStart w a b l => [0x3F * 67108864 + w * 16384 + a * 1024 + b * 64 + l]
  | .iadd d a b => [wV3 0x01 0 d a b]
  | .isub d a b => [wV3 0x01 1 d a b]
  | .imul d a b => [wV3 0x01 2 d a b]
  | .imulhi d a b => [wV3 0x01 3 d a b]
  | .imulhn d a b => [wV3 0x01 4 d a b]
  | .imad d a b => [wV3 0x01 5 d a b]
  | .iand d a b => [wV3 0x01 6 d a b]
  | .ior d a b => [wV3 0x01 7 d a b]
  | .ixor d a b => [wV3 0x01 8 d a b]
  | .ishl d a b => [wV3 0x01 9 d a b]
  | .ishr d a b => [wV3 0x01 10 d a b]
  | .isra d a b => [wV3 0x01 11 d a b]
  | .imin d a b => [wV3 0x01 12 d a b]
  | .imax d a b => [wV3 0x01 13 d a b]
  | .iminn d a b => [wV3 0x01 14 d a b]
  | .imaxn d a b => [wV3 0x01 15 d a b]
  | .iabs d a => [wV3 0x01 16 d a 0]
  | .clz d a => [wV3 0x01 17 d a 0]
  | .popc d a => [wV3 0x01 18 d a 0]
  | .brev d a => [wV3 0x01 19 d a 0]
  | .bfe d a b => [wV3 0x01 20 d a b]
  | .bfi d a b => [wV3 0x01 21 d a b]
  | .intlv2 d a b => [wV3 0x01 22 d a b]
  | .intlv3 d a b => [wV3 0x01 23 d a b]
  | .mov d a => [wV3 0x01 24 d a 0]
  | .movs d a hi => [wV3 0x01 25 d a (b2n hi)]
  | .icmp n c p a b => [wV3 0x01 26 (b2n n * 64 + c.code * 16 + p) a b]
  | .iaddi d a imm => [wVI 0x02 d a (unsx imm 4096)]
  | .ishli d a imm => [wVI 0x03 d a imm]
  | .movi d imm => [wVL 0x04 d (unsx imm 524288)]
  | .movhi d imm => [wVL 0x05 d imm]
  | .idx d s => [wX 0x06 0 (d * 8192 + s.code)]
  | .sread d clr s => [wX 0x06 1 (d * 16384 + b2n clr * 256 + s.code)]
  | .mater => [wX 0x06 2 0]
  | .spanq d => [wX 0x06 3 (d * 16384)]
  | .setmodeReg m a => [wX 0x06 4 (m * 4096 + a)]
  | .setmodeImm m imm => [wX 0x06 4 (m * 4096 + 2048 + imm)]
  | .getmode d => [wX 0x06 5 (d * 16384)]
  | .isel d a neg p => [wX 0x06 6 (d * 8192 + a * 64 + b2n neg * 32 + p)]
  | .pand d a b => [wV3 0x07 0 d a b]
  | .por d a b => [wV3 0x07 1 d a b]
  | .pxor d a b => [wV3 0x07 2 d a b]
  | .pandn d a b => [wV3 0x07 3 d a b]
  | .pcnt d a => [wV3 0x07 4 d a 0]
  | .pfirst d a => [wV3 0x07 5 d a 0]
  | .ptos d a hi => [wV3 0x07 6 d a (b2n hi)]
  | .stop d a hi => [wV3 0x07 7 d a (b2n hi)]
  | .sadd d a b f => [wS3 0 d a b (b2n f)]
  | .ssub d a b f => [wS3 1 d a b (b2n f)]
  | .smul d a b f => [wS3 2 d a b (b2n f)]
  | .sand d a b f => [wS3 4 d a b (b2n f)]
  | .sor d a b f => [wS3 5 d a b (b2n f)]
  | .sxor d a b f => [wS3 6 d a b (b2n f)]
  | .sshl d a b f => [wS3 7 d a b (b2n f)]
  | .sshr d a b f => [wS3 8 d a b (b2n f)]
  | .ssra d a b f => [wS3 9 d a b (b2n f)]
  | .smulh d a b n f => [wS3 3 d a b (b2n n * 2 + b2n f)]
  | .smin d a b n f => [wS3 10 d a b (b2n n * 2 + b2n f)]
  | .smax d a b n f => [wS3 11 d a b (b2n n * 2 + b2n f)]
  | .scmp a b => [wS3 12 0 a b 0]
  | .ssel d a b c => [wS3 13 d a b c.code]
  | .smov d a => [wS3 14 d a 0 0]
  | .smovi d imm => [wSI 0x09 d 0 (unsx imm 16384)]
  | .saddImm d a imm => [wSI 0x0A d a (unsx imm 16384)]
  | .smovhi d a imm => [wSI 0x0B d a imm]
  | .fadd d a b => [wV3 0x10 0 d a b]
  | .fsub d a b => [wV3 0x10 1 d a b]
  | .fmul d a b => [wV3 0x10 2 d a b]
  | .fmad d a b => [wV3 0x10 3 d a b]
  | .fmsb d a b => [wV3 0x10 4 d a b]
  | .fmin d a b => [wV3 0x10 5 d a b]
  | .fmax d a b => [wV3 0x10 6 d a b]
  | .fneg d a => [wV3 0x10 7 d a 0]
  | .fabs d a => [wV3 0x10 8 d a 0]
  | .fcmp c p a b => [wV3 0x10 9 (c.code * 16 + p) a b]
  | .fclass d a => [wV3 0x10 10 d a 0]
  | .frndi d a => [wV3 0x10 11 d a 0]
  | .fscale d a b => [wV3 0x10 12 d a b]
  | .fdot2 d a b => [wV3 0x10 13 d a b]
  | .cvt d a k t => [wV3 0x11 0 d a (k * 16 + t.code)]
  | .cvti d a r t => [wV3 0x11 1 d a (r.code * 16 + t.code)]
  | .packb d a b => [wV3 0x11 2 d a b]
  | .permb d a b => [wV3 0x11 3 d a b]
  | .qcvt d a s => [wX 0x12 0 (d * 8192 + a * 64 + s)]
  | .setseed a b => [wX 0x12 1 (a * 64 + b)]
  | .rcp d a => [wV3 0x13 0 d a 0]
  | .rsq d a => [wV3 0x13 1 d a 0]
  | .sqrt d a => [wV3 0x13 2 d a 0]
  | .exp2 d a => [wV3 0x13 3 d a 0]
  | .log2 d a => [wV3 0x13 4 d a 0]
  | .sint d a => [wV3 0x13 5 d a 0]
  | .cost d a => [wV3 0x13 6 d a 0]
  | .tanh d a => [wV3 0x13 7 d a 0]
  | .shflIdx d a oob b => [wV3 0x14 0 d a (b2n oob * 64 + b)]
  | .shflUp d a oob n => [wV3 0x14 1 d a (b2n oob * 64 + n)]
  | .shflDn d a oob n => [wV3 0x14 2 d a (b2n oob * 64 + n)]
  | .shflXor d a oob n => [wV3 0x14 3 d a (b2n oob * 64 + n)]
  | .shflUpw d a oob n => [wV3 0x14 4 d a (b2n oob * 64 + n)]
  | .shflDnw d a oob n => [wV3 0x14 5 d a (b2n oob * 64 + n)]
  | .shflXorw d a oob n => [wV3 0x14 6 d a (b2n oob * 64 + n)]
  | .qswap d a r => [wV3 0x14 8 d a r.code]
  | .qddx d a c => [wV3 0x14 9 d a (b2n c)]
  | .qddy d a c => [wV3 0x14 10 d a (b2n c)]
  | .redlog d a o => [wV3 0x14 11 d a o.code]
  | .scanlog d a x o => [wV3 0x14 12 d a (b2n x * 16 + o.code)]
  | .rdfirst d a w => [wV3 0x14 13 d a (b2n w)]
  | .rdlane d a b => [wV3 0x14 14 d a b]
  | .ballot d a => [wV3 0x14 15 d a 0]
  | .vote d a o => [wV3 0x14 16 d a o.code]
  | .vmatch d a => [wV3 0x14 17 d a 0]
  | .vmatchf d a => [wV3 0x14 18 d a 0]
  | .mendl o => [wB 0x17 0 o]
  | .bra c o => [wB 0x18 c.code o]
  | .brz p o => [wB 0x19 p o]
  | .brnz p o => [wB 0x1A p o]
  | .call o => [wB 0x1B 0 o]
  | .mif p o => [wB 0x1C p o]
  | .melse o => [wB 0x1D 0 o]
  | .mbrk p o => [wB 0x1E p o]
  | .mcont p o => [wB 0x1F p o]
  | .ld d s o z h nr => [wM 0x20 d s o z.code h.code (b2n nr)]
  | .st d s o z h => [wM 0x21 d s o z.code h.code 0]
  | .lds d a imm => [wSI 0x22 d a (unsx imm 16384)]
  | .sts d a imm => [wSI 0x23 d a (unsx imm 16384)]
  | .ldl d s o z => [wM 0x24 d s o z.code 0 0]
  | .stl d s o z => [wM 0x25 d s o z.code 0 0]
  | .ldc d s o z => [wM 0x26 d s o z.code 0 0]
  | .stc d s o z => [wM 0x27 d s o z.code 0 0]
  | .ldp d s o z h => [wM 0x28 d s o z.code h.code 0]
  | .stp d s o z h => [wM 0x29 d s o z.code h.code 0]
  | .atom d s o z h b c op ty => [wM 0x2A d s o z.code h.code 0, wE (ty.code * 262144 + op.code * 16384 + c * 128 + b)]
  | .atoml d s o z b c op ty => [wM 0x2B d s o z.code 0 0, wE (ty.code * 262144 + op.code * 16384 + c * 128 + b)]
  | .atomc d s o b c op ty => [wM 0x2C d s o 4 0 0, wE (ty.code * 262144 + op.code * 16384 + c * 128 + b)]
  | .redst d s o z h op ty => [wM 0x2D d s o z.code h.code 0, wE (ty.code * 262144 + op.code * 16384)]
  | .redc d s o op ty => [wM 0x2E d s o 4 0 0, wE (ty.code * 262144 + op.code * 16384)]
  | .fence s => [wX 0x2F 0 s.code]
  | .xfence b a => [wX 0x2F 1 (b.code * 8 + a.code)]
  | .bar c n => [wX 0x2F 2 (c * 16 + n)]
  | .bararr c n => [wX 0x2F 3 (c * 16 + n)]
  | .barwait n => [wX 0x2F 4 n]
  | .bcinit a n => [wX 0x2F 5 (a * 16 + n)]
  | .bcwait d n => [wX 0x2F 6 (d * 16 + n)]
  | .cpyk count a => [wX 0x2F 7 ((count - 1) * 64 + a)]
  | .claim d b a => [wX 0x2F 8 (d * 4096 + b * 64 + a)]
  | .pin d a => [wX 0x2F 9 (d * 4096 + a)]
  | .unpin d a => [wX 0x2F 10 (d * 4096 + a)]
  | .pref h l o a => [wX 0x2F 11 (h.code * 32768 + l.code * 8192 + o * 64 + a)]
  | .tagset t o a => [wX 0x2F 12 (t * 8192 + o * 64 + a)]
  | .tagget d o a => [wX 0x2F 13 (d * 8192 + o * 64 + a)]
  | .cacheop p o a => [wX 0x2F 14 (p.code * 8192 + o * 64 + a)]
  | .pubw b a => [wX 0x2F 15 (b * 64 + a)]
  | .acqw d a => [wX 0x2F 16 (d * 4096 + a)]
  | .mbxsend a die fwd => [wX 0x2F 17 a, wE (b2n fwd * 4 + die)]
  | .mbxrecv d a => [wX 0x2F 18 (d * 4096 + a)]
  | .spawn d a s sig cls => [wX 0x2F 19 (d * 4096 + a), wE (cls * 128 + b2n sig * 64 + s)]
  | .tdesc b a d => [wX 0x30 0 (b * 1024 + a * 16 + d)]
  | .azero d => [wX 0x30 1 d]
  | .mma r t a d => [wX 0x30 2 (b2n r * 131072 + t * 8192 + a * 64 + d)]
  | .mmap r t a d => [wX 0x30 3 (b2n r * 131072 + t * 8192 + a * 64 + d)]
  | .mmabs r t a d s => [wX 0x30 4 (b2n r * 131072 + t * 8192 + a * 64 + d), wE s]
  | .aload t d => [wX 0x30 5 (t * 64 + d)]
  | .amov a d => [wX 0x30 6 (a * 64 + d)]
  | .adrain band s a t => [wX 0x30 7 (b2n band * 65536 + s * 1024 + a * 16 + t)]
  | .agdrain o b a => [wX 0x30 8 (o * 4096 + b * 64 + a)]
  | .astash a q p => [wX 0x30 9 (a * 256 + q * 16 + p)]
  | .hcfg d a => [wX 0x31 0 (d * 64 + a)]
  | .hgather d a s l0 n => [wX 0x31 1 (s * 16384 + a * 128 + d), wE ((n - 1) * 16 + l0)]
  | .hscatter d a s l0 n => [wX 0x31 2 (s * 16384 + a * 128 + d), wE ((n - 1) * 16 + l0)]
  | .draw d a n any => [wX 0x32 0 (d * 64 + a), wE (b2n any * 4 + n)]
  | .ordent k p => [wX 0x32 1 (k * 128 + p)]
  | .ordexit => [wX 0x32 2 0]
  | .tsamp d c s x l m => [wX 0x32 3 (s * 16384 + c * 128 + d), wE (m.code * 16384 + l * 128 + x)]
  | .rbox d y s n => [wX 0x32 4 (s * 16384 + y * 128 + d), wE n]
  | .rtri d y s n cull => [wX 0x32 5 (s * 16384 + y * 128 + d), wE (cull.code * 128 + n)]
  | .regroup k => [wX 0x32 6 k]
  | .route n e d => [wX 0x33 0 (n * 16384 + e * 128 + d)]
  | .xdone t => [wX 0x33 1 t]
  | .csrr r d => [wX 0x34 0 (r.num * 64 + d)]
  | .csrw r a => [wX 0x34 1 (r.num * 64 + a)]
  | .trap imm => [wX 0x34 2 imm]
  | .hret => [wX 0x34 3 0]
  | .pyield => [wX 0x34 4 0]
  | .bkpt imm => [wX 0x34 5 imm]
  | .nop => [wX 0x35 0 0]
  | .exit => [wX 0x35 1 0]
  | .ret => [wX 0x35 2 0]
  | .jmps a => [wX 0x35 3 a]
  | .trapu imm => [wX 0x35 4 imm]
  | .mend => [wX 0x35 5 0]
  | .mloop => [wX 0x35 6 0]
  | _ => []

/-! ### Decoding -/

/-- Why a word is no instruction (R105). -/
inductive Reject where
  /-- A major code that R101 leaves unassigned. -/
  | unassignedMajor
  /-- A minor code that R102 leaves unassigned. -/
  | unassignedMinor
  /-- A code of an option field that the instruction's entry leaves unassigned. -/
  | unassignedCode
  /-- A nonzero reserved field (R7, R100). -/
  | reservedField
  /-- An operand value that the encoding excludes (R100, R103, R105). -/
  | badOperand
  /-- An instruction marked E without its extension word (R98). -/
  | extensionMissing
  /-- An extension word that follows no instruction marked E (R98). -/
  | strayExtension
  /-- Fewer bits than a word. -/
  | shortWord
  deriving DecidableEq, Repr

/-- What the decoder answers: an instruction and how many words it takes, or a rejection by name. -/
inductive Decoded where
  | instr (i : Instr) (words : Nat)
  | reject (r : Reject)
  deriving DecidableEq, Repr

/-- A candidate instruction, or the reason why there is none. -/
abbrev Cand := Except Reject Instr

/-- A candidate from an option field's code. -/
def withCode {α : Type} (o : Option α) (f : α → Instr) : Cand :=
  match o with
  | some c => .ok (f c)
  | none => .error .unassignedCode

/-- Major 0x01 (R157): `m` minor, `d`, `a`, `b` the V3 fields. -/
def decVecInt (m d a b : Nat) : Cand :=
  match m with
  | 0 => .ok (.iadd d a b)
  | 1 => .ok (.isub d a b)
  | 2 => .ok (.imul d a b)
  | 3 => .ok (.imulhi d a b)
  | 4 => .ok (.imulhn d a b)
  | 5 => .ok (.imad d a b)
  | 6 => .ok (.iand d a b)
  | 7 => .ok (.ior d a b)
  | 8 => .ok (.ixor d a b)
  | 9 => .ok (.ishl d a b)
  | 10 => .ok (.ishr d a b)
  | 11 => .ok (.isra d a b)
  | 12 => .ok (.imin d a b)
  | 13 => .ok (.imax d a b)
  | 14 => .ok (.iminn d a b)
  | 15 => .ok (.imaxn d a b)
  | 16 => .ok (.iabs d a)
  | 17 => .ok (.clz d a)
  | 18 => .ok (.popc d a)
  | 19 => .ok (.brev d a)
  | 20 => .ok (.bfe d a b)
  | 21 => .ok (.bfi d a b)
  | 22 => .ok (.intlv2 d a b)
  | 23 => .ok (.intlv3 d a b)
  | 24 => .ok (.mov d a)
  | 25 => .ok (.movs d a (bit b 1))
  | 26 => withCode (ICond.ofCode (fld d 16 4)) fun c => .icmp (bit d 64) c (fld d 1 16) a b
  | _ => .error .unassignedMinor

/-- Major 0x06 (R144 to R151, R165): `m` minor. -/
def decIdent (m w : Nat) : Cand :=
  match m with
  | 0 => withCode (IdxSel.ofCode (fld w 1 16)) fun s => .idx (fld w 8192 128) s
  | 1 => withCode (SrSel.ofCode (fld w 1 256)) fun s => .sread (fld w 16384 64) (bit w 256) s
  | 2 => .ok .mater
  | 3 => .ok (.spanq (fld w 16384 64))
  | 4 => if bit w 2048 then .ok (.setmodeImm (fld w 4096 256) (fld w 1 2048))
      else .ok (.setmodeReg (fld w 4096 256) (fld w 1 64))
  | 5 => .ok (.getmode (fld w 16384 64))
  | 6 => .ok (.isel (fld w 8192 128) (fld w 64 128) (bit w 32) (fld w 1 16))
  | _ => .error .unassignedMinor

/-- Major 0x07 (R167). -/
def decPred (m d a b : Nat) : Cand :=
  match m with
  | 0 => .ok (.pand d a b)
  | 1 => .ok (.por d a b)
  | 2 => .ok (.pxor d a b)
  | 3 => .ok (.pandn d a b)
  | 4 => .ok (.pcnt d a)
  | 5 => .ok (.pfirst d a)
  | 6 => .ok (.ptos d a (bit b 1))
  | 7 => .ok (.stop d a (bit b 1))
  | _ => .error .unassignedMinor

/-- Major 0x08 (R152): the S3 fields. -/
def decUniform (m d a b sub : Nat) : Cand :=
  match m with
  | 0 => .ok (.sadd d a b (bit sub 1))
  | 1 => .ok (.ssub d a b (bit sub 1))
  | 2 => .ok (.smul d a b (bit sub 1))
  | 3 => .ok (.smulh d a b (bit sub 2) (bit sub 1))
  | 4 => .ok (.sand d a b (bit sub 1))
  | 5 => .ok (.sor d a b (bit sub 1))
  | 6 => .ok (.sxor d a b (bit sub 1))
  | 7 => .ok (.sshl d a b (bit sub 1))
  | 8 => .ok (.sshr d a b (bit sub 1))
  | 9 => .ok (.ssra d a b (bit sub 1))
  | 10 => .ok (.smin d a b (bit sub 2) (bit sub 1))
  | 11 => .ok (.smax d a b (bit sub 2) (bit sub 1))
  | 12 => .ok (.scmp a b)
  | 13 => withCode (SCond.ofCode sub) fun c => .ssel d a b c
  | 14 => .ok (.smov d a)
  | _ => .error .unassignedMinor

/-- Major 0x10 (R169). -/
def decFloat (m d a b : Nat) : Cand :=
  match m with
  | 0 => .ok (.fadd d a b)
  | 1 => .ok (.fsub d a b)
  | 2 => .ok (.fmul d a b)
  | 3 => .ok (.fmad d a b)
  | 4 => .ok (.fmsb d a b)
  | 5 => .ok (.fmin d a b)
  | 6 => .ok (.fmax d a b)
  | 7 => .ok (.fneg d a)
  | 8 => .ok (.fabs d a)
  | 9 => withCode (FCond.ofCode (fld d 16 8)) fun c => .fcmp c (fld d 1 16) a b
  | 10 => .ok (.fclass d a)
  | 11 => .ok (.frndi d a)
  | 12 => .ok (.fscale d a b)
  | 13 => .ok (.fdot2 d a b)
  | _ => .error .unassignedMinor

/-- Major 0x11 (R178). -/
def decConvert (m d a b : Nat) : Cand :=
  match m with
  | 0 => withCode (EType.ofCode (fld b 1 16)) fun t => .cvt d a (fld b 16 8) t
  | 1 => match Rnd.ofCode (fld b 16 8) with
    | some r => withCode (EType.ofCode (fld b 1 16)) fun t => .cvti d a r t
    | none => .error .unassignedCode
  | 2 => .ok (.packb d a b)
  | 3 => .ok (.permb d a b)
  | _ => .error .unassignedMinor

/-- Major 0x12 (R182). -/
def decQuant (m w : Nat) : Cand :=
  match m with
  | 0 => .ok (.qcvt (fld w 8192 128) (fld w 64 128) (fld w 1 64))
  | 1 => .ok (.setseed (fld w 64 128) (fld w 1 64))
  | _ => .error .unassignedMinor

/-- Major 0x13 (R185). -/
def decSpecial (m d a : Nat) : Cand :=
  match m with
  | 0 => .ok (.rcp d a)
  | 1 => .ok (.rsq d a)
  | 2 => .ok (.sqrt d a)
  | 3 => .ok (.exp2 d a)
  | 4 => .ok (.log2 d a)
  | 5 => .ok (.sint d a)
  | 6 => .ok (.cost d a)
  | 7 => .ok (.tanh d a)
  | _ => .error .unassignedMinor

/-- Major 0x14 (R187). -/
def decCross (m d a b : Nat) : Cand :=
  match m with
  | 0 => .ok (.shflIdx d a (bit b 64) (fld b 1 64))
  | 1 => .ok (.shflUp d a (bit b 64) (fld b 1 64))
  | 2 => .ok (.shflDn d a (bit b 64) (fld b 1 64))
  | 3 => .ok (.shflXor d a (bit b 64) (fld b 1 64))
  | 4 => .ok (.shflUpw d a (bit b 64) (fld b 1 8))
  | 5 => .ok (.shflDnw d a (bit b 64) (fld b 1 8))
  | 6 => .ok (.shflXorw d a (bit b 64) (fld b 1 8))
  | 8 => withCode (QDir.ofCode (fld b 1 4)) fun r => .qswap d a r
  | 9 => .ok (.qddx d a (bit b 1))
  | 10 => .ok (.qddy d a (bit b 1))
  | 11 => withCode (RedOp.ofCode (fld b 1 16)) fun o => .redlog d a o
  | 12 => withCode (RedOp.ofCode (fld b 1 16)) fun o => .scanlog d a (bit b 16) o
  | 13 => .ok (.rdfirst d a (bit b 1))
  | 14 => .ok (.rdlane d a b)
  | 15 => .ok (.ballot d a)
  | 16 => withCode (VoteOp.ofCode (fld b 1 4)) fun o => .vote d a o
  | 17 => .ok (.vmatch d a)
  | 18 => .ok (.vmatchf d a)
  | _ => .error .unassignedMinor

/-- A candidate of the M format from its size and hint codes (R103). -/
def withSize (z h : Nat) (f : Size → Hint → Instr) : Cand :=
  match Size.ofCode z with
  | some z' => withCode (Hint.ofCode h) fun h' => f z' h'
  | none => .error .unassignedCode

/-- A candidate of an atomic from its extension payload (R213). -/
def withAtomic (p : Nat) (f : AOp → AType → Instr) : Cand :=
  match AOp.ofCode (fld p 16384 16) with
  | some op => withCode (AType.ofCode (fld p 262144 4)) fun ty => f op ty
  | none => .error .unassignedCode

/-- Major 0x2F (R219): `p` the extension payload. -/
def decSync (m w p : Nat) : Cand :=
  match m with
  | 0 => withCode (Scope.ofCode (fld w 1 8)) fun s => .fence s
  | 1 => match Path.ofCode (fld w 8 8) with
    | some b => withCode (Path.ofCode (fld w 1 8)) fun a => .xfence b a
    | none => .error .unassignedCode
  | 2 => .ok (.bar (fld w 16 32) (fld w 1 16))
  | 3 => .ok (.bararr (fld w 16 32) (fld w 1 16))
  | 4 => .ok (.barwait (fld w 1 16))
  | 5 => .ok (.bcinit (fld w 16 64) (fld w 1 16))
  | 6 => .ok (.bcwait (fld w 16 64) (fld w 1 16))
  | 7 => .ok (.cpyk (fld w 64 64 + 1) (fld w 1 64))
  | 8 => .ok (.claim (fld w 4096 64) (fld w 64 64) (fld w 1 64))
  | 9 => .ok (.pin (fld w 4096 64) (fld w 1 64))
  | 10 => .ok (.unpin (fld w 4096 64) (fld w 1 64))
  | 11 => match Hint.ofCode (fld w 32768 4) with
    | some h => withCode (PrefLvl.ofCode (fld w 8192 4)) fun l => .pref h l (fld w 64 128) (fld w 1 64)
    | none => .error .unassignedCode
  | 12 => .ok (.tagset (fld w 8192 128) (fld w 64 128) (fld w 1 64))
  | 13 => .ok (.tagget (fld w 8192 128) (fld w 64 128) (fld w 1 64))
  | 14 => withCode (CacheOp.ofCode (fld w 8192 4)) fun p => .cacheop p (fld w 64 128) (fld w 1 64)
  | 15 => .ok (.pubw (fld w 64 64) (fld w 1 64))
  | 16 => .ok (.acqw (fld w 4096 64) (fld w 1 64))
  | 17 => .ok (.mbxsend (fld w 1 64) (fld p 1 4) (bit p 4))
  | 18 => .ok (.mbxrecv (fld w 4096 64) (fld w 1 64))
  | 19 => .ok (.spawn (fld w 4096 64) (fld w 1 64) (fld p 1 64) (bit p 64) (fld p 128 4))
  | _ => .error .unassignedMinor

/-- Major 0x30 (R246, R247). -/
def decMatrix (m w p : Nat) : Cand :=
  match m with
  | 0 => .ok (.tdesc (fld w 1024 64) (fld w 16 64) (fld w 1 16))
  | 1 => .ok (.azero (fld w 1 64))
  | 2 => .ok (.mma (bit w 131072) (fld w 8192 16) (fld w 64 128) (fld w 1 64))
  | 3 => .ok (.mmap (bit w 131072) (fld w 8192 16) (fld w 64 128) (fld w 1 64))
  | 4 => .ok (.mmabs (bit w 131072) (fld w 8192 16) (fld w 64 128) (fld w 1 64) (fld p 1 128))
  | 5 => .ok (.aload (fld w 64 16) (fld w 1 64))
  | 6 => .ok (.amov (fld w 64 64) (fld w 1 64))
  | 7 => .ok (.adrain (bit w 65536) (fld w 1024 64) (fld w 16 64) (fld w 1 16))
  | 8 => .ok (.agdrain (fld w 4096 128) (fld w 64 64) (fld w 1 64))
  | 9 => .ok (.astash (fld w 256 64) (fld w 16 16) (fld w 1 16))
  | _ => .error .unassignedMinor

/-- Major 0x31 (R260). -/
def decHash (m w p : Nat) : Cand :=
  match m with
  | 0 => .ok (.hcfg (fld w 64 64) (fld w 1 64))
  | 1 => .ok (.hgather (fld w 1 128) (fld w 128 128) (fld w 16384 64) (fld p 1 16) (fld p 16 16 + 1))
  | 2 => .ok (.hscatter (fld w 1 128) (fld w 128 128) (fld w 16384 64) (fld p 1 16) (fld p 16 16 + 1))
  | _ => .error .unassignedMinor

/-- Major 0x32 (R264, R269, R272). -/
def decRender (m w p : Nat) : Cand :=
  match m with
  | 0 => .ok (.draw (fld w 64 64) (fld w 1 64) (fld p 1 4) (bit p 4))
  | 1 => .ok (.ordent (fld w 128 128) (fld w 1 128))
  | 2 => .ok .ordexit
  | 3 => withCode (TMode.ofCode (fld p 16384 4)) fun m => .tsamp (fld w 1 128) (fld w 128 128) (fld w 16384 64) (fld p 1 128) (fld p 128 128) m
  | 4 => .ok (.rbox (fld w 1 128) (fld w 128 128) (fld w 16384 64) (fld p 1 128))
  | 5 => withCode (Cull.ofCode (fld p 128 4)) fun c => .rtri (fld w 1 128) (fld w 128 128) (fld w 16384 64) (fld p 1 128) c
  | 6 => .ok (.regroup (fld w 1 128))
  | _ => .error .unassignedMinor

/-- Major 0x33 (R273). -/
def decExpert (m w : Nat) : Cand :=
  match m with
  | 0 => .ok (.route (fld w 16384 4) (fld w 128 128) (fld w 1 128))
  | 1 => .ok (.xdone (fld w 1 128))
  | _ => .error .unassignedMinor

/-- Major 0x34 (R275). -/
def decSystem (m w : Nat) : Cand :=
  match m with
  | 0 => withCode (Csr.ofNum (fld w 64 4096)) fun r => .csrr r (fld w 1 64)
  | 1 => withCode (Csr.ofNum (fld w 64 4096)) fun r => .csrw r (fld w 1 64)
  | 2 => .ok (.trap (fld w 1 65536))
  | 3 => .ok .hret
  | 4 => .ok .pyield
  | 5 => .ok (.bkpt (fld w 1 65536))
  | _ => .error .unassignedMinor

/-- Major 0x35 (R128, R137). -/
def decControl (m w : Nat) : Cand :=
  match m with
  | 0 => .ok .nop
  | 1 => .ok .exit
  | 2 => .ok .ret
  | 3 => .ok (.jmps (fld w 1 64))
  | 4 => .ok (.trapu (fld w 1 65536))
  | 5 => .ok .mend
  | 6 => .ok .mloop
  | _ => .error .unassignedMinor

/-- The atomics and reduction stores of majors 0x2A to 0x2E (R213), once size and hint are read. -/
def decAtomic (maj w p : Nat) (z : Size) (h : Hint) : Cand :=
  let d := fld w 524288 128
  let s := fld w 8192 64
  let o := fld w 64 128
  let b := fld p 1 128
  let c := fld p 128 128
  match maj with
  | 0x2A => withAtomic p fun op ty => .atom d s o z h b c op ty
  | 0x2B => withAtomic p fun op ty => .atoml d s o z b c op ty
  | 0x2C => withAtomic p fun op ty => .atomc d s o b c op ty
  | 0x2D => withAtomic p fun op ty => .redst d s o z h op ty
  | 0x2E => withAtomic p fun op ty => .redc d s o op ty
  | _ => .error .unassignedMajor

/-- The atomics, from their whole word. -/
def decAtomicWord (maj w p : Nat) : Cand :=
  match Size.ofCode (fld w 8 8) with
  | some z =>
    match Hint.ofCode (fld w 2 4) with
    | some h => decAtomic maj w p z h
    | none => .error .unassignedCode
  | none => .error .unassignedCode

/-- The candidate that a word's fields give, by major code (R101); `p` is the extension payload. -/
def decFields (w p : Nat) : Cand :=
  match w / 67108864 with
  | 0x01 => decVecInt (fld w 2097152 32) (fld w 16384 128) (fld w 128 128) (fld w 1 128)
  | 0x02 => .ok (.iaddi (fld w 524288 128) (fld w 4096 128) (sxt (fld w 1 4096) 4096))
  | 0x03 => .ok (.ishli (fld w 524288 128) (fld w 4096 128) (fld w 1 4096))
  | 0x04 => .ok (.movi (fld w 524288 128) (sxt (fld w 1 524288) 524288))
  | 0x05 => .ok (.movhi (fld w 524288 128) (fld w 1 524288))
  | 0x06 => decIdent (fld w 1048576 64) w
  | 0x07 => decPred (fld w 2097152 32) (fld w 16384 128) (fld w 128 128) (fld w 1 128)
  | 0x08 => decUniform (fld w 1048576 64) (fld w 16384 64) (fld w 256 64) (fld w 4 64) (fld w 1 4)
  | 0x09 => .ok (.smovi (fld w 1048576 64) (sxt (fld w 1 16384) 16384))
  | 0x0A => .ok (.saddImm (fld w 1048576 64) (fld w 16384 64) (sxt (fld w 1 16384) 16384))
  | 0x0B => .ok (.smovhi (fld w 1048576 64) (fld w 16384 64) (fld w 1 16384))
  | 0x10 => decFloat (fld w 2097152 32) (fld w 16384 128) (fld w 128 128) (fld w 1 128)
  | 0x11 => decConvert (fld w 2097152 32) (fld w 16384 128) (fld w 128 128) (fld w 1 128)
  | 0x12 => decQuant (fld w 1048576 64) w
  | 0x13 => decSpecial (fld w 2097152 32) (fld w 16384 128) (fld w 128 128)
  | 0x14 => decCross (fld w 2097152 32) (fld w 16384 128) (fld w 128 128) (fld w 1 128)
  | 0x17 => .ok (.mendl (sxt (fld w 1 4194304) 4194304))
  | 0x18 => withCode (Cond.ofCode (fld w 4194304 16)) fun c => .bra c (sxt (fld w 1 4194304) 4194304)
  | 0x19 => .ok (.brz (fld w 4194304 16) (sxt (fld w 1 4194304) 4194304))
  | 0x1A => .ok (.brnz (fld w 4194304 16) (sxt (fld w 1 4194304) 4194304))
  | 0x1B => .ok (.call (sxt (fld w 1 4194304) 4194304))
  | 0x1C => .ok (.mif (fld w 4194304 16) (sxt (fld w 1 4194304) 4194304))
  | 0x1D => .ok (.melse (sxt (fld w 1 4194304) 4194304))
  | 0x1E => .ok (.mbrk (fld w 4194304 16) (sxt (fld w 1 4194304) 4194304))
  | 0x1F => .ok (.mcont (fld w 4194304 16) (sxt (fld w 1 4194304) 4194304))
  | 0x20 => withSize (fld w 8 8) (fld w 2 4) fun z h => .ld (fld w 524288 128) (fld w 8192 64) (fld w 64 128) z h (bit w 1)
  | 0x21 => withSize (fld w 8 8) (fld w 2 4) fun z h => .st (fld w 524288 128) (fld w 8192 64) (fld w 64 128) z h
  | 0x22 => .ok (.lds (fld w 1048576 64) (fld w 16384 64) (sxt (fld w 1 16384) 16384))
  | 0x23 => .ok (.sts (fld w 1048576 64) (fld w 16384 64) (sxt (fld w 1 16384) 16384))
  | 0x24 => withSize (fld w 8 8) (fld w 2 4) fun z _ => .ldl (fld w 524288 128) (fld w 8192 64) (fld w 64 128) z
  | 0x25 => withSize (fld w 8 8) (fld w 2 4) fun z _ => .stl (fld w 524288 128) (fld w 8192 64) (fld w 64 128) z
  | 0x26 => withSize (fld w 8 8) (fld w 2 4) fun z _ => .ldc (fld w 524288 128) (fld w 8192 64) (fld w 64 128) z
  | 0x27 => withSize (fld w 8 8) (fld w 2 4) fun z _ => .stc (fld w 524288 128) (fld w 8192 64) (fld w 64 128) z
  | 0x28 => withSize (fld w 8 8) (fld w 2 4) fun z h => .ldp (fld w 524288 128) (fld w 8192 64) (fld w 64 128) z h
  | 0x29 => withSize (fld w 8 8) (fld w 2 4) fun z h => .stp (fld w 524288 128) (fld w 8192 64) (fld w 64 128) z h
  | 0x2A => decAtomicWord 0x2a w p
  | 0x2B => decAtomicWord 0x2b w p
  | 0x2C => decAtomicWord 0x2c w p
  | 0x2D => decAtomicWord 0x2d w p
  | 0x2E => decAtomicWord 0x2e w p
  | 0x2F => decSync (fld w 1048576 64) w p
  | 0x30 => decMatrix (fld w 1048576 64) w p
  | 0x31 => decHash (fld w 1048576 64) w p
  | 0x32 => decRender (fld w 1048576 64) w p
  | 0x33 => decExpert (fld w 1048576 64) w
  | 0x34 => decSystem (fld w 1048576 64) w
  | 0x35 => decControl (fld w 1048576 64) w
  | 0x3E => .error .strayExtension
  | 0x3F => .ok (.clauseStart (fld w 16384 4096) (fld w 1024 16) (fld w 64 16) (fld w 1 64))
  | _ => .error .unassignedMajor

/-- The instructions that the opcode tables mark E (R98, R102), by their word. -/
def takesExt (w : Nat) : Bool :=
  let m := fld w 1048576 64
  match w / 67108864 with
  | 0x2A => true
  | 0x2B => true
  | 0x2C => true
  | 0x2D => true
  | 0x2E => true
  | 0x2F => m == 17 || m == 19
  | 0x30 => m == 4
  | 0x31 => m == 1 || m == 2
  | 0x32 => m == 0 || m == 3 || m == 4 || m == 5
  | _ => false

/-- A candidate is the instruction of `ws` when its operands are admitted and every bit of the words is
one that the encoding puts there, so that reserved fields are zero (R7, R105). -/
def checkCand (ws : List Nat) : Cand → Decoded
  | .error r => .reject r
  | .ok i => if i.wf then (if encode i = ws then .instr i ws.length else .reject .reservedField)
             else .reject .badOperand

/-- The decoder: the word `w` and, where the clause has one, the word after it (R98). -/
def decode (w : Nat) (next : Option Nat) : Decoded :=
  if 4294967296 ≤ w then .reject .shortWord
  else if takesExt w then
    match next with
    | some x => if x / 67108864 = 0x3E then checkCand [w, x] (decFields w (fld x 1 67108864))
                else .reject .extensionMissing
    | none => .reject .extensionMissing
  else checkCand [w] (decFields w 0)

/-- The decoder's answer as an option. -/
def Decoded.toOption : Decoded → Option Instr
  | .instr i _ => some i
  | .reject _ => none

/-- What the decoder reads from an instruction whose bits are `w`, first word in bits 31..0 and the
extension word above it; a row given `nbits` bits has zeros above them. -/
def decodeTableWord (nbits w : Nat) : Option Instr :=
  let v := if nbits = 0 then w else fld w 1 (2 ^ nbits)
  (decode (fld v 1 4294967296) (some (fld v 4294967296 4294967296))).toOption

end Sys2Proof
end

