-- ==== Sys2Proof/Config.lean ====
section
/-! DEFINITION. The free values: constants without a body for what the spec leaves open. Nothing in Lean
can evaluate them, so a claim holds whatever they are. Each is named in an assumption-log entry. -/
namespace Sys2Proof.Config

/-- Address of the M-level handler of the device firmware, which the spec does not give (R370). -/
opaque mvec : Nat
/-- A free byte, by the count of free values drawn so far: what memory read through another key decrypts
to (R322, R453), the bytes of signatures (R449), and of flits (R385). -/
opaque freeByte : Nat → BitVec 8
/-- A free choice between two allowed outcomes, by the count of free values drawn so far. -/
opaque choice : Nat → Bool
/-- The device's candidate result of a special function within the bound of R88: function number, F16 or
F32, input pattern, candidate pattern. It depends on the input alone, as R88 requires. -/
opaque special : Nat → Bool → Nat → Nat
/-- Whether a firmware header with its signature verifies under the vendor key, whose digest matches the fused one
(R447): bytes 0x000 to 0x1262 of the image. -/
opaque verifies : List (BitVec 8) → Bool
/-- The bytes of the boot ROM's SHA3-512 digest (R449). -/
opaque romByte : Nat → BitVec 8
/-- The certificate chain in the flash (R448): its length in bytes and its bytes. -/
opaque certLen : Nat
opaque certByte : Nat → BitVec 8
/-- The serial number that the fuses hold (R442). -/
opaque serial : Nat

end Sys2Proof.Config
end

