-- ==== Sys2Proof/Machine/Bits.lean ====
section
/-! DEFINITION. Small data helpers with no meaning of their own: tables keyed by number, lists read with
a default, bytes and words, lanes. -/
namespace Sys2Proof.Machine

/-! ### Tables keyed by a number -/

/-- A table keyed by a number. -/
abbrev Tbl (α : Type) := List (Nat × α)

/-- The entry of key `k`. -/
def tget {α : Type} (t : Tbl α) (k : Nat) : Option α :=
  match t with
  | [] => none
  | (j, v) :: r => if j = k then some v else tget r k
/-- The table with `k ↦ v`: in place where `k` stands, else before the first greater key. -/
def tput {α : Type} (t : Tbl α) (k : Nat) (v : α) : Tbl α :=
  match t with
  | [] => [(k, v)]
  | (j, u) :: r => if j = k then (k, v) :: r else if k < j then (k, v) :: (j, u) :: r else (j, u) :: tput r k v
/-- The table without key `k`. -/
def tdel {α : Type} (t : Tbl α) (k : Nat) : Tbl α := t.filter fun e => e.1 != k
/-- The table with `f` applied to the entry of `k`, if there is one. -/
def tmod {α : Type} (t : Tbl α) (k : Nat) (f : α → α) : Tbl α :=
  match tget t k with
  | some v => tput t k (f v)
  | none => t
/-- The values of a table. -/
def tvals {α : Type} (t : Tbl α) : List α := t.map (·.2)

/-- The list with entry `i` replaced by `f` of it. -/
def lmod {α : Type} (l : List α) (i : Nat) (f : α → α) : List α :=
  match l, i with
  | [], _ => []
  | x :: r, 0 => f x :: r
  | x :: r, i + 1 => x :: lmod r i f

/-! ### Numbers -/

/-- Ceiling division. -/
def cdiv (a b : Nat) : Nat := (a + b - 1) / b
/-- `a` rounded up to a multiple of `b`. -/
def rup (a b : Nat) : Nat := cdiv a b * b
/-- Field `[lo+n-1:lo]` of a number. -/
def nfld (x lo n : Nat) : Nat := x / 2 ^ lo % 2 ^ n
/-- Bit `i` of a number. -/
def nbit (x i : Nat) : Bool := x / 2 ^ i % 2 == 1
/-- Two's complement reading of an n-bit number. -/
def sgn (x n : Nat) : Int := if 2 * x < 2 ^ n then (x : Int) else (x : Int) - (2 ^ n : Nat)
/-- An integer modulo 2^n. -/
def wrapN (i : Int) (n : Nat) : Nat := (i % ((2 ^ n : Nat) : Int)).toNat
/-- Exclusive or over a number's bits. -/
def parity : Nat → Nat → Nat
  | 0, _ => 0
  | n + 1, x => (x % 2 + parity n (x / 2)) % 2
/-- The number of set bits among the lowest `n`. -/
def popN : Nat → Nat → Nat
  | 0, _ => 0
  | n + 1, x => x % 2 + popN n (x / 2)
/-- The number with bit `i` set to `b`. -/
def setBit (x i : Nat) (b : Bool) : Nat :=
  if b then x ||| 2 ^ i else if nbit x i then x - 2 ^ i else x
/-- The least `i < n` with `p i`. -/
def findN (n : Nat) (p : Nat → Bool) : Option Nat := (List.range n).find? p
/-- The entry of a list that is least under a key; the first of equal ones. -/
def argMin {α : Type} (key : α → Nat) : List α → Option α
  | [] => none
  | x :: r =>
    match argMin key r with
    | none => some x
    | some y => if key y < key x then some y else some x
/-- The entry of a list that is greatest under a key; the first of equal ones. -/
def argMax {α : Type} (key : α → Nat) : List α → Option α
  | [] => none
  | x :: r =>
    match argMax key r with
    | none => some x
    | some y => if key x < key y then some y else some x
/-- Insertion by a key, stable. -/
def insBy {α : Type} (key : α → Nat) (x : α) : List α → List α
  | [] => [x]
  | y :: r => if key x ≤ key y then x :: y :: r else y :: insBy key x r
/-- Stable sort by a key, ascending. -/
def sortBy {α : Type} (key : α → Nat) (l : List α) : List α := l.foldr (insBy key) []
/-- The list without repeats; the first of each stays. -/
def uniq {α : Type} [BEq α] (l : List α) : List α :=
  (l.foldl (fun acc x => if acc.contains x then acc else x :: acc) []).reverse

/-! ### Bytes -/

/-- The `n` little-endian bytes of a number (R204). -/
def toBytes : Nat → Nat → List Byte
  | 0, _ => []
  | n + 1, x => BitVec.ofNat 8 x :: toBytes n (x / 256)
/-- The number that little-endian bytes hold (R204). -/
def ofBytes : List Byte → Nat
  | [] => 0
  | b :: r => b.toNat + 256 * ofBytes r
/-- Bytes `[o, o+n)` of a list, zero where it ends. -/
def slice (l : List Byte) (o n : Nat) : List Byte := (List.range n).map fun i => l.getD (o + i) 0
/-- The list with `d` written over it from offset `o`. -/
def overlay (l : List Byte) (o : Nat) (d : List Byte) : List Byte :=
  (List.range l.length).map fun i => if o ≤ i ∧ i < o + d.length then d.getD (i - o) 0 else l.getD i 0
/-- The number in bytes `[o, o+n)`. -/
def rdN (l : List Byte) (o n : Nat) : Nat := ofBytes (slice l o n)

/-! ### Lanes -/

/-- W, the lanes of a group (R10). -/
def laneCount : Nat := 64
/-- The lane numbers in ascending order. -/
def laneIx : List Nat := List.range 64
/-- A mask from a test of lanes. -/
def maskOf (p : Nat → Bool) : Mask :=
  BitVec.ofNat 64 (laneIx.foldl (fun acc l => if p l then acc + 2 ^ l else acc) 0)
/-- Lane `l` of a mask. -/
def inMask (m : Mask) (l : Nat) : Bool := m.getLsbD l
/-- The lanes of a mask, ascending. -/
def lanesOf (m : Mask) : List Nat := laneIx.filter (inMask m)
/-- A vector register's value in lane `l`; a register holds one word a lane. -/
def laneVal (v : List Word) (l : Nat) : Word := v.getD l 0
/-- A vector register from a function of lanes. -/
def vecOf (f : Nat → Word) : List Word := laneIx.map f
/-- Exclusive or over the bits of a vector of flags. -/
def boolW (b : Bool) : Word := if b then 1 else 0

end Sys2Proof.Machine
end

