-- ==== Sys2Proof/Machine/State.lean ====
section
/-! DEFINITION. The state of the machine as plain data: everything the spec gives the module, its dies,
cores, contexts, launches, teams, groups, spans, caches, memories, engines and registers, with the
model's own bookkeeping (identifiers, the agenda of turns, the counter of free values) beside it. -/
namespace Sys2Proof.Machine

/-! ### How a step can stop -/

/-- Why the machine stops. Closed: no other fault exists. -/
inductive Fault where
  /-- Raised by every step and meaning but POWER_ON while the module has no power, after a sensor reached
  125 °C (R455). Safe: nothing runs until power returns. -/
  | noPower
  deriving DecidableEq, Repr

/-- Why an instruction has no meaning. -/
inductive Refusal where
  /-- An instruction that the model does not give a meaning yet. Safe. -/
  | notModelled (mnemonic : String)
  /-- Raised by a program instruction when no group and no span is issuing: there is nothing to act on.
  A step never raises it. Safe. -/
  | noIssuer
  deriving DecidableEq, Repr

/-! ### Memory -/

/-- A memory: byte values by address, addresses strictly rising, none equal to what an unlisted address
reads as. An unlisted byte reads as zero (DESIGN CHOICE, log entry 2). -/
abbrev Memory := List Host.Cell

/-- What an unlisted byte of a memory reads as. -/
def Memory.unlisted : BitVec 8 := 0

/-- The canonical form of a memory. -/
def Memory.wf : Memory → Bool
  | [] => true
  | [c] => c.2 != Memory.unlisted
  | c :: d :: r => c.2 != Memory.unlisted && decide (c.1 < d.1) && Memory.wf (d :: r)

/-! ### Registers of a group or span -/

/-- A register that can carry a pending tag (R109). -/
inductive Reg where
  | v (n : Nat)
  | s (n : Nat)
  | p (n : Nat)
  | t (n : Nat)
  deriving DecidableEq, Repr

/-- The condition flags (R46). -/
structure CC where
  v : Bool
  c : Bool
  z : Bool
  n : Bool
  deriving DecidableEq, Repr

/-- Privilege levels (R276). -/
inductive Level where
  | u | s | m
  deriving DecidableEq, Repr

/-- Kinds of mask-stack entries (R136). -/
inductive MKind where
  | ifK | elseK | loopB | loopC
  deriving DecidableEq, Repr

/-- A mask-stack entry (R136). `atEnd` holds lanes of its mask that a materialisation absorbed from pieces of the true
side: they become active at MEND, not at MELSE (R31). -/
structure MaskEntry where
  mask : Mask
  mode : Word
  kind : MKind
  atEnd : Mask
  deriving DecidableEq, Repr

/-- A clause position: the header's byte address and the word index (R93). -/
structure Pos where
  h : Nat
  k : Nat
  deriving DecidableEq, Repr

/-- The registers that a group owns (R42). Predicates are p0 to p14: p15 is hard-wired (R44). -/
structure Regs where
  v : List (List Word)
  s : List DWord
  p : List Mask
  t : List Tile
  cc : CC
  mode : Word
  deriving DecidableEq, Repr

/-- The item that a lane holds (R13, R16). -/
structure Item where
  tx : Nat
  ty : Nat
  jx : Nat
  jy : Nat
  helper : Bool
  deriving DecidableEq, Repr

/-- Causes of traps and events (R372), with their codes in `Cause.code`. -/
inductive Cause where
  | illegal | priv | depmiss | misalign | pagefault | tagfault | layout | dieoff | poison | preempt
  | user | bkpt | physrange | ordabandon
  deriving DecidableEq, Repr

/-- One bank of trap registers (R371, R376). -/
structure TrapBank where
  cause : Nat
  plev : Level
  mode : Word
  arg : DWord
  resume : DWord
  addr : DWord
  lanes : DWord
  scratch : DWord
  deriving DecidableEq, Repr

/-- A trap that has been raised and waits for the group's flags (R111, R373). -/
structure TrapRec where
  cause : Cause
  arg : Nat
  addr : Nat
  lanes : Mask
  resume : Pos
  toM : Bool
  deriving DecidableEq, Repr

/-- The A latch of the matrix instructions (R250). -/
structure Latch where
  valid : Bool
  a : Nat
  mfmt : Nat
  data : List (List Word)
  deriving DecidableEq, Repr

/-- Arithmetic exceptions: bit 0 IV, 1 DZ, 2 OF, 3 UF (R76). -/
abbrev Exc := BitVec 4

/-- A pending write that an outstanding Long instruction will make (R109, R110). -/
structure Tag where
  reg : Reg
  flag : Nat
  op : Nat
  deriving DecidableEq, Repr

/-- An ordered section that a group is inside (R266): its lanes, and the lane, pixel and key of each pixel that
it holds. -/
structure Section where
  lanes : Mask
  entries : List (Nat × Nat × Nat)
  deriving DecidableEq, Repr

/-- What pre-emption has done with a group (R379 to R381). -/
inductive PreSt where
  /-- not asked, or asked and still running -/
  | run
  /-- standing at a clause boundary, waiting for its flags to enter the PREEMPT handler -/
  | entering
  /-- inside the PREEMPT handler, before its PYIELD -/
  | handler
  /-- yielded: issues nothing until the resume -/
  | yielded
  deriving DecidableEq, Repr

/-- Where a group stands in the code, and what holds its issue. -/
structure Ctl where
  pos : Pos
  /-- fields of the clause header under way (R94) -/
  seta : Nat
  setb : Nat
  len : Nat
  level : Level
  /-- a W instruction, or a mask instruction that spills or refills, that holds the group at issue -/
  hold : Option Instr
  /-- GT at which the holding instruction first met issue -/
  holdAt : Nat
  /-- for a held BAR or BARWAIT, the parity of the phase it waits for; for a mask instruction, the
  requests of its spill or refill -/
  holdArg : List Nat
  /-- the fault-queue record that has descheduled the group (R377) -/
  desched : Option Nat
  trap : Option TrapRec
  /-- completion faults that the group takes when it next issues (R201, R488) -/
  owed : List TrapRec
  /-- the operation by which the misaligned-access routine of the firmware performs an access, while it runs
  for the group (R311) -/
  emul : Option Nat
  pre : PreSt
  /-- EXIT has removed the last lane; the group ends once its flags are clear (R132) -/
  ending : Bool
  deriving DecidableEq, Repr

/-- A Short instruction's arithmetic exceptions before they take effect: the GT at which its latency has passed, what it
raised in which lanes, its clause header and MODE, and the registers that it wrote (R77, R78, R106). -/
structure Late where
  due : Nat
  exc : Exc
  lanes : Mask
  header : Nat
  mode : Word
  regs : List Reg
  deriving DecidableEq, Repr

/-- A group (R9, R14). -/
structure Group where
  team : Nat
  num : Nat
  core : Nat
  quad : Nat
  regs : Regs
  ctl : Ctl
  items : List (Option Item)
  active : Mask
  /-- every mask-stack entry, oldest first; those before the 16 newest lie in the spill area too (R50) -/
  stack : List MaskEntry
  rng : List Word
  sticky : Exc
  /-- exceptions raised whose instructions have not completed, in issue order (R77) -/
  late : List Late
  texloops : Nat
  flags : List Nat
  tags : List Tag
  bankS : TrapBank
  bankM : TrapBank
  latch : Latch
  sect : Option Section
  slot : Nat
  age : Nat
  lastIssue : Nat
  /-- greatest W of the group's completed writes, by path (R220, R223) -/
  maxW : List Nat
  /-- lanes that a DIEOFF reissue performs, at the position that it concerns (R374) -/
  redo : Option (Pos × Mask)
  deriving DecidableEq, Repr

/-! ### Spans -/

/-- An affine form a + b·tx + c·ty + d·jx + e·jy (R22). -/
structure Form where
  a : Word
  b : Word
  c : Word
  d : Word
  e : Word
  deriving DecidableEq, Repr

/-- A half-space {D ≥ 0} or {D > 0} with D's exact integer coefficients (R23). -/
structure Half where
  a : Int
  b : Int
  c : Int
  d : Int
  e : Int
  strict : Bool
  deriving DecidableEq, Repr

/-- A predicate form (R23). -/
inductive PForm where
  | const (b : Bool)
  | conj (hs : List Half)
  deriving DecidableEq, Repr

/-- A box of items (R21). -/
structure Box where
  tx0 : Nat
  tx1 : Nat
  ty0 : Nat
  ty1 : Nat
  jx0 : Nat
  jx1 : Nat
  jy0 : Nat
  jy1 : Nat
  deriving DecidableEq, Repr

/-- Where a span stands among the pieces of its cuts (R37). Constructs are named by the identifier of their
control-stack entry. -/
inductive Park where
  | run
  /-- parked at the MEND clause or loop exit of a construct -/
  | join (construct : Nat)
  /-- cut away by MCONT, parked at the MENDL of a loop, named by its LOOPC entry -/
  | mendl (construct : Nat)
  /-- parked at a materialising instruction: teams of its box wait to be allocated (R30) -/
  | expand
  deriving DecidableEq, Repr

/-- An entry of a span's control stack (R142), with the construct's identifier, which its pieces share, and
the side of the construct's cut that the piece is on. -/
structure SpanEntry where
  mode : Word
  kind : MKind
  id : Nat
  side : Bool
  deriving DecidableEq, Repr

/-- A span (R21). -/
structure Span where
  launch : Nat
  core : Nat
  box : Box
  forms : List Form
  pforms : List PForm
  s : List DWord
  t : List Tile
  mode : Word
  cc : CC
  stack : List SpanEntry
  pos : Pos
  seta : Nat
  setb : Nat
  len : Nat
  park : Park
  /-- the cuts that it is a piece of, with its place among each cut's pieces (R37) -/
  cuts : List (Nat × Nat)
  sticky : Exc
  age : Nat
  /-- the other pieces that are active with it when it expands: those parked at the same loop exit (R38) -/
  act : List Nat
  maxW : List Nat
  /-- team-linear indices of the teams that have been expanded, and so removed from the span (R30) -/
  gone : List Nat
  /-- the span unit is inside a clause of it, so that it runs no other span before the clause ends (R24) -/
  inside : Bool
  flags : List Nat
  deriving DecidableEq, Repr

/-! ### Teams, launches -/

/-- An accumulator register: 64 rows of 64 patterns and its hidden sticky causes (R45, R80). -/
structure Acc where
  rows : List (List Word)
  iv : Bool
  ofl : Bool
  deriving DecidableEq, Repr

/-- A byte-count barrier slot (R227). -/
structure BcSlot where
  count : Int
  init : Bool
  err : Nat
  deriving DecidableEq, Repr

/-- A team barrier (R226); `all` is the model's own: the phase counts every group that has not ended (R225). -/
structure Bar where
  arr : Nat
  exp : Nat
  par : Bool
  mask : Nat
  all : Bool
  deriving DecidableEq, Repr

/-- A request to pre-empt a team (R379). -/
structure PreReq where
  at_ : Nat
  pto : Nat
  oto : Nat
  forced : Bool
  deriving DecidableEq, Repr

/-- What something waits for: operations, copies and draws that the group issued earlier, and the greatest W of
those that have completed (R220, R223, R239, R267). -/
structure Await where
  ops : List Nat
  copies : List Nat
  draws : List Nat
  w : Nat
  deriving DecidableEq, Repr

/-- A placed team (R9). -/
structure Team where
  launch : Nat
  tx : Nat
  ty : Nat
  core : Nat
  groups : Nat
  base : Nat
  size : Nat
  loc : Memory
  accs : List Acc
  accLive : DWord
  bcs : List BcSlot
  bars : List Bar
  age : Nat
  pre : Option PreReq
  /-- copies and draws that groups of it which have ended handed over -/
  left : Await
  deriving DecidableEq, Repr

/-- Scheduling classes (R364). -/
inductive Cls where
  | frame | normal | background
  deriving DecidableEq, Repr

/-- Who is told when a launch completes. -/
inductive Source where
  | node (ctx node : Nat)
  | spawn (signal : Option Nat)
  deriving DecidableEq, Repr

/-- A launch that the device has accepted (R125). -/
structure Launch where
  ctx : Nat
  ident : DWord
  gx : Nat
  gy : Nat
  tx : Nat
  ty : Nat
  nospan : Bool
  coresident : Bool
  quad : Bool
  extent : Option (Nat × Nat)
  cls : Cls
  priv : Nat
  param : DWord
  nregs : Nat
  accs : Nat
  localB : Nat
  csp : Nat
  entry : Nat
  /-- address of the kernel's code and its words at acceptance (R127) -/
  code : Nat
  words : List Word
  lossx : Int
  /-- the next team to place and the end of its share, for each die (R366) -/
  nextT : List Nat
  endT : List Nat
  /-- teams of a CORESIDENT launch that are placed within spans, whose resources are reserved: team-linear index, core,
  base of its local memory (R19, R32) -/
  held : List (Nat × Nat × Nat)
  stopped : Bool
  /-- a CORESIDENT Background launch whose budget has run out: its teams come back together at a tick (R60, R365) -/
  expired : Bool
  source : Source
  order : Nat
  /-- the address of its descriptor, which a record of its node's failure names (R358) -/
  desc : Nat
  deriving DecidableEq, Repr

/-- A team or span that pre-emption has saved (R56 to R59). `image` is where its record lies. -/
structure Saved where
  launch : Nat
  die : Nat
  team : Option Team
  groups : List Group
  span : Option Span
  image : Nat
  bytes : Nat
  deriving DecidableEq, Repr

/-! ### Outstanding work -/

/-- Address spaces of a request. -/
inductive Space where
  | global
  | scratch (launch : Nat)
  | host
  | peer (port : Nat)
  | window
  deriving DecidableEq, Repr

/-- What a memory request does. -/
inductive ReqKind where
  | load
  | store
  | atomic (op : AOp) (ty : AType) (c : Nat)
  | reduce (op : AOp) (ty : AType)
  | tagSet (tag : Nat)
  | tagGet
  deriving DecidableEq, Repr

/-- Where a memory request stands. -/
inductive ReqSt where
  | fresh
  | pending (w : Nat)
  | done (w : Nat)
  | error
  | poisoned
  /-- its physical address does not exist (R328) -/
  | phys
  deriving DecidableEq, Repr

/-- One memory request: one lane's access, one byte of an emulated access, or one engine element. -/
structure Req where
  kind : ReqKind
  space : Space
  path : Path
  core : Nat
  die : Nat
  ctx : Nat
  gid : Nat
  op : Nat
  lane : Nat
  va : Nat
  pa : Nat
  size : Nat
  data : List Byte
  hint : Hint
  lro : Bool
  key : Nat
  st : ReqSt
  val : List Byte
  seq : Nat
  /-- a store's acknowledgement brings the line, and L1 installs it (R283) -/
  install : Bool
  /-- its miss in the MSC slice has been tested in the Louvre filter (R295) -/
  missed : Bool
  deriving DecidableEq, Repr

/-- A register write that an operation makes when it completes. -/
inductive RegWrite where
  | vec (r : Nat) (lanes : Mask) (vals : List Word)
  | uni (r : Nat) (val : DWord)
  | pred (r : Nat) (lanes : Mask) (bits : Mask)
  deriving DecidableEq, Repr

/-- What an outstanding Long operation still needs before it completes. -/
inductive OpSt where
  /-- nothing: it may complete -/
  | ready
  /-- its memory requests -/
  | reqs
  /-- held at translation by the moving bit (R326); the fault record if one has been queued (R488) -/
  | moving (fault : Option Nat)
  /-- queued at, or running on, an engine -/
  | engine
  deriving DecidableEq, Repr

/-- An outstanding Long operation (R107). -/
structure Op where
  gid : Nat
  team : Nat
  core : Nat
  instr : Instr
  flag : Nat
  pos : Pos
  mode : Word
  lanes : Mask
  /-- lanes that write registers -/
  wlanes : Mask
  svals : List DWord
  vvals : List (List Word)
  tile : List Tile
  writes : List RegWrite
  exc : Exc
  excLanes : Mask
  st : OpSt
  /-- GT at issue, and the number of the group's last earlier write -/
  at_ : Nat
  /-- W of what it wrote, once known -/
  w : Nat
  /-- what must complete before it acts -/
  await : Await
  misc : List Nat
  /-- whether it was issued at level U (R319) -/
  user : Bool
  deriving DecidableEq, Repr

/-- A barrier arrival of BARARR that has not taken effect (R225). -/
structure Arrive where
  gid : Nat
  bar : Nat
  c : Nat
  await : Await
  deriving DecidableEq, Repr

/-- Pixels and keys that an ORDEXIT releases once the group's earlier writes have completed (R267). -/
structure Release where
  gid : Nat
  die : Nat
  ctx : Nat
  entries : List (Nat × Nat)
  await : Await
  deriving DecidableEq, Repr

/-- A fault held for the supervisor (R352, R377). -/
structure FaultRec where
  ctx : Nat
  kind : Nat
  status : Nat
  core : Nat
  team : Nat
  group : Nat
  write : Bool
  read : Bool
  addr : Nat
  lanes : Mask
  /-- sequence number of its fault-queue entry; 0 until written -/
  seq : Nat
  /-- the group, held operation, copy, Caravan engine, or die·4 + rasteriser that it holds -/
  holder : Nat
  /-- kind 1 of an access held by the moving bit (R488), or kind 4 of a DRAW that is not queued yet: the holder is the
  operation -/
  moving : Bool
  deriving DecidableEq, Repr

/-- A copy request's 64 bytes, decoded (R230). -/
structure CopyReq where
  kind : Nat
  flags : Nat
  elem : Nat
  space : Nat
  d0 : Nat
  d1 : Nat
  d2 : Nat
  src : Nat
  dst : Nat
  ss1 : Int
  ss2 : Int
  ds1 : Int
  ds2 : Int
  index : Nat
  rsvd : Bool
  deriving DecidableEq, Repr

/-- A copy request that an engine holds (R229 to R232). -/
structure Copy where
  engine : Nat
  gid : Nat
  team : Nat
  /-- the context and node of a copy node, else none -/
  node : Option (Nat × Nat)
  req : CopyReq
  addr : Nat
  started : Bool
  stopped : Bool
  /-- the fault record that holds the request (R232) -/
  fault : Option Nat
  /-- elements not yet handled are those from here on, but for `early` -/
  next : Nat
  early : List Nat
  /-- elements read whose write is not yet performed: element, request -/
  flying : List (Nat × Nat)
  counted : Nat
  err : Nat
  at_ : Nat
  /-- the greatest W of its writes -/
  w : Nat
  deriving DecidableEq, Repr

/-- A mailbox packet in a die's queue (R391). -/
structure Packet where
  bytes : List Byte
  deriving DecidableEq, Repr

/-! ### Rasterisers -/

/-- A draw, decoded from its descriptor (R420). -/
structure Draw where
  ctx : Nat
  addr : Nat
  flags : Nat
  num : Nat
  prims : Nat
  width : Nat
  height : Nat
  insts : Nat
  vbase : Nat
  ibase : Nat
  istride : Nat
  vcount : Nat
  target : Nat
  status : Nat
  node : Option Nat
  /-- the group that issued its DRAW, if one did, and the draw's own number in the model -/
  gid : Nat
  id : Nat
  /-- the core that issued its DRAW, if one did, and whether it did so at level U (R265) -/
  core : Option Nat
  user : Bool
  deriving DecidableEq, Repr

/-- A running draw: where it stands, and the fragment under way. -/
structure Running where
  draw : Draw
  fragBase : Nat
  fragCap : Nat
  frags : Nat
  fragOvf : Nat
  inst : Nat
  prim : Nat
  /-- samples of the current triangle still to test: pixel x, y, sample, depth bits -/
  todo : List (Nat × Nat × Nat × Nat)
  /-- whether the current triangle has been set up -/
  setUp : Bool
  /-- samples of the current pixel that passed: pixel x, y, sample -/
  passed : List (Nat × Nat × Nat)
  err : Nat
  fault : Option Nat
  finishing : Bool
  lastW : Nat
  deriving DecidableEq, Repr

/-- One rasteriser (R418). -/
structure Raster where
  queue : List Draw
  run : Option Running
  deriving DecidableEq, Repr

/-- A pixel-scoreboard entry (R428). -/
structure ScoreEnt where
  ctx : Nat
  pixel : Nat
  key : Nat
  perInst : Bool
  deriving DecidableEq, Repr

/-! ### Caches, translation -/

/-- A line held at its home, in the home L2 slice or the MSC slice (R289, R294): whether the L2 holds it dirty, and
whether the MSC does. -/
structure HomeLine where
  data : List Byte
  tags : List Nat
  poison : List Bool
  dirty : Bool
  mdirty : Bool
  key : Nat
  inL2 : Bool
  inMsc : Bool
  ls : Nat
  deriving DecidableEq, Repr

/-- A leased or unleased copy of a line in an L1, a remote L2, or an engine cache (R299, R308). -/
inductive Holder where
  | l1 (core : Nat)
  | l2 (die : Nat)
  | copyBuf (engine : Nat)
  | tex (cluster : Nat)
  | peer (cluster : Nat)
  | hash (cluster : Nat)
  deriving DecidableEq, Repr

/-- A copy of a line. -/
structure CopyLine where
  holder : Holder
  space : Space
  line : Nat
  data : List Byte
  tags : List Nat
  expiry : Nat
  granted : Nat
  key : Nat
  /-- its place in an L1's order of eviction, as its hint gives it (R205) -/
  age : Nat
  deriving DecidableEq, Repr

/-- A way of an L2 set that a line holds: the line, its recency, the retention register that reserves the way, and the
one in whose range the line lies (R288, R290). -/
structure WayEnt where
  die : Nat
  line : Nat
  age : Nat
  reserved : Option Nat
  inRange : Option Nat
  deriving DecidableEq, Repr

/-- A pending write at a line's home: the request, its W, its bytes (R301, R302). -/
structure PendW where
  req : Nat
  w : Nat
  off : Nat
  data : List Byte
  deriving DecidableEq, Repr

/-- What the home keeps for a line whether or not the line is present. -/
structure LineCtl where
  wprev : Nat
  pend : List PendW
  deriving DecidableEq, Repr

/-- A translation held in a TLB, under a lease (R324, R325). Numbers below 84 are the TLBs of clusters and engines, those
from 84 on the cores'. -/
structure TlbEnt where
  cluster : Nat
  asid : Nat
  va : Nat
  size : Nat
  leaf : Nat
  leafPa : Nat
  expiry : Nat
  deriving DecidableEq, Repr

/-- A table entry held in the walk cache of a die's walkers, under a lease (R324, R325). -/
structure WalkEnt where
  die : Nat
  asid : Nat
  pa : Nat
  entry : Nat
  expiry : Nat
  deriving DecidableEq, Repr

/-- A hash engine's cached grid descriptor (R260). -/
structure GridEnt where
  cluster : Nat
  ctx : Nat
  va : Nat
  bytes : List Byte
  deriving DecidableEq, Repr

/-- A home MSC slice's request to a unit (R343, R348). -/
structure UnitReq where
  line : Nat
  write : Bool
  data : List Byte
  tags : List Nat
  poison : List Bool
  key : Nat
  phase : Nat
  deriving DecidableEq, Repr

/-- One line as a unit stores it: tags, poison, and the key slot and generation of its ciphertext (R322). -/
structure UnitMeta where
  tags : List Nat
  poison : List Bool
  slot : Nat
  gen : Nat
  deriving DecidableEq, Repr

/-! ### Dies, links, package -/

/-- A retention register (R234, R290, R291). -/
structure Retain where
  valid : Bool
  ways : Nat
  ctx : Nat
  base : Nat
  len : Nat
  mask : Nat
  deriving DecidableEq, Repr

/-- A health-monitor reading (R454). -/
structure Sensor where
  val : Nat
  valid : Bool
  deriving DecidableEq, Repr

/-- A compute die: its control block, mailbox queue, retention registers, monitors, rasterisers,
scoreboard, filters (R389, R454). -/
structure Die where
  state : Nat
  pending : Bool
  linksUp : List Bool
  dropped : Nat
  retry : List Nat
  mbx : List Packet
  retain : List Retain
  ovf : List Nat
  temp : List Sensor
  volt : List Sensor
  ring : List Sensor
  throtctl : Nat
  clk : Nat
  cause : Nat
  events : Nat
  rasters : List Raster
  board : List ScoreEnt
  /-- time at which step 2 of a warm reset began (R408) -/
  quiesced : Nat
  /-- matrix arrays: queue of commands by core, and the command that runs -/
  mqueue : Tbl (List Nat)
  mrun : Tbl Nat
  deriving DecidableEq, Repr

/-- One MSC slice's Louvre filter (R295). -/
structure Louvre where
  active : Nat
  standby : Nat
  misses : Nat
  deriving DecidableEq, Repr

/-- One direction of a die link (R385): the sender's flits not yet acknowledged, oldest first, how many
times the oldest has failed in a row, when it was last sent, and how many flits the receiver has accepted in order. -/
structure Link where
  src : Nat
  dst : Nat
  up : Bool
  buffer : List (Nat × List Byte)
  fails : Nat
  sentAt : Nat
  nextSeq : Nat
  expect : Nat
  deriving DecidableEq, Repr

/-- An interleave region's map (R329, R331). -/
structure Region where
  a : List Nat
  b : List Nat
  sa : List Nat
  sb : List Nat
  depth : Nat
  /-- cells that a retirement has moved: stack, base, stride -/
  moved : Tbl (Nat × Nat × Nat)
  /-- A and B of an apply that waits for outstanding requests (R333) -/
  applying : Option (List Nat × List Nat)
  deriving DecidableEq, Repr

/-- One moving cell of a retirement (R347). -/
structure MoveCell where
  region : Nat
  cell : Nat
  stack : Nat
  base : Nat
  started : Bool
  mark : Nat
  switched : Bool
  deriving DecidableEq, Repr

/-- A retirement that is copying (R347). -/
structure Retire where
  stack : Nat
  pkgDepth : Nat
  dieDepth : Nat
  cells : List MoveCell
  deriving DecidableEq, Repr

/-- A Caravan engine's move (R337). -/
structure Move where
  ctx : Nat
  va : Nat
  leafPa : Nat
  oldLeaf : Nat
  frame : Nat
  size : Nat
  claim : Option Nat
  /-- 0: waits for W of MV; 1: copying; 2: final leaf stored -/
  phase : Nat
  w : Nat
  next : Nat
  deriving DecidableEq, Repr

/-- A page that an engine has been asked to move. -/
structure MoveAsk where
  ctx : Nat
  va : Nat
  leafPa : Nat
  claim : Option Nat
  deriving DecidableEq, Repr

/-- A Caravan engine's block and its work (R336, R338). -/
structure Caravan where
  freeBase : Nat
  freeHead : Nat
  freeTail : Nat
  retBase : Nat
  retHead : Nat
  retTail : Nat
  ringLog : Nat
  epoch : Nat
  promote : Nat
  moves : Nat
  ctrBase : Nat
  asks : List MoveAsk
  move : Option Move
  waiting : Bool
  epochAt : Nat
  /-- counts to forward to the engine that holds the frame (R338) -/
  fwd : List Nat
  deriving DecidableEq, Repr

/-- A peer port block (R417). -/
structure Port where
  up : Bool
  lanes : Nat
  remote : Nat
  en : Bool
  atoms : Bool
  inbase : List Nat
  inlen : List Nat
  deriving DecidableEq, Repr

/-- Counts that Barchan keeps for one version's copies of one expert: version, expert, die·256 + slot,
tokens in flight (R398). -/
structure Inflight where
  ver : Nat
  expert : Nat
  die : Nat
  slot : Nat
  count : Nat
  deriving DecidableEq, Repr

/-- A copy of an expert's weights: its die and slot; the primary is slot 0xFF (R396, R397). -/
structure Replica where
  die : Nat
  slot : Nat
  valid : Bool
  deriving DecidableEq, Repr

/-- One entry of a version image (R397). -/
structure ExpertEnt where
  pdie : Nat
  paddr : Nat
  reps : List Replica
  deriving DecidableEq, Repr

/-- A copy of an expert that CopyVerify has written and will read back (R400): where it lies and the CRC of what was
read. -/
structure XCopy where
  expert : Nat
  die : Nat
  slot : Nat
  crc : Nat
  deriving DecidableEq, Repr

/-- A version on its way to be published (R400, R401): it waits for the W of its copies, which are then read back,
and after `written` for the W of its image. `carry` counts the departures that it carries (R403). -/
structure PubVer where
  image : List ExpertEnt
  w : Nat
  copies : List XCopy
  written : Bool
  carry : Nat
  atWindow : Bool
  deriving DecidableEq, Repr

/-- Tokens routed in the window to a replica of an expert, and whether it was cold in the window before
(R398). -/
structure RepCount where
  expert : Nat
  die : Nat
  slot : Nat
  count : Nat
  wasCold : Bool
  deriving DecidableEq, Repr

/-- A slot that retires until no live version lists it, and whether event 4 is due then (R399, R406). -/
structure Retiring where
  die : Nat
  slot : Nat
  expert : Nat
  log : Bool
  deriving DecidableEq, Repr

/-- An enabled Barchan table (R396 to R398). -/
structure XTable where
  experts : Nat
  expBytes : Nat
  poolBase : List Nat
  poolSlots : List Nat
  windows : Nat
  cur : Nat
  /-- images of the live versions -/
  images : Tbl (List ExpertEnt)
  load : List Nat
  dieload : List Nat
  repcount : List RepCount
  inflight : List Inflight
  retiring : List Retiring
  /-- dies whose departure no published version carries yet (R403) -/
  departed : List Nat
  publish : Option PubVer
  deriving DecidableEq, Repr

/-- The Barchan registers (R395). -/
structure Barchan where
  base : Nat
  ver : List Nat
  en : List Bool
  freeze : List Bool
  refresh : List Bool
  targets : Nat
  ctx : Nat
  maxrep : Nat
  hot : Nat
  idle : Nat
  cold : Nat
  window : Nat
  windowAt : Nat
  tables : Tbl XTable
  /-- the greatest W of the engine's stores (R482) -/
  lastW : Nat
  deriving DecidableEq, Repr

/-- A key slot (R451): its state (0 empty, 1 keyed, 2 discarding) and how often it has been generated. -/
structure KeySlot where
  state : Nat
  gen : Nat
  deriving DecidableEq, Repr

/-- A start of the module under way (R442, R443). -/
structure Starting where
  warm : Bool
  step : Nat
  deriving DecidableEq, Repr

/-- The management controller (R442 to R450). -/
structure Mgmt where
  starting : Option Starting
  level : Nat
  warm : Bool
  img : Nat
  step : Nat
  busy : Bool
  result : Nat
  length : Nat
  buf : Nat
  /-- the command under way, as it was written, and the result and length that it will report once it has had its
  effect -/
  cmd : Nat
  out : Option (Nat × Nat)
  buffer : Memory
  flash : List Memory
  fusedSvn : Nat
  serial : Nat
  /-- of the running image: its SVN, and the digest of its header and body as they were verified -/
  imgSvn : Nat
  imgDigest : List Byte
  deriving DecidableEq, Repr

/-- KEYSTAT (R451). -/
structure KeyStat where
  slot : Nat
  result : Nat
  busy : Bool
  deriving DecidableEq, Repr

/-- Package registers (R276, R298, R332, R339 to R343, R388). -/
structure Pkg where
  leaseRw : Nat
  leaseRo : Nat
  capacity : Nat
  captarget : Nat
  retStatus : Nat
  retStack : Nat
  retLeft : Nat
  retired : Nat
  migphase : Nat
  errSingular : Bool
  errBadcmd : Bool
  errBusy : Bool
  errRegion : Nat
  ctxbase : Nat
  cmdCtx : Nat
  cmdOp : Nat
  cmdResult : Nat
  cmdBusy : Bool
  /-- the result that the command under way will report, once it has had its effect -/
  cmdOut : Option Nat
  trctx : Nat
  trlid : Nat
  deriving DecidableEq, Repr

/-! ### Contexts -/

/-- Where a node of a running replay stands: `done` and `failed` await NODE_COMPLETE, `complete` is behind it. -/
inductive NodeSt where
  | idle | run | done | failed | complete
  deriving DecidableEq, Repr

/-- A node of a graph object (R355). -/
structure Node where
  kind : Nat
  tick : Bool
  msi : Option Nat
  x : Nat
  y : Nat
  z : Nat
  st : NodeSt
  /-- status and address of a failure; when the node's next poll is due, or, once it is done, the greatest W of the
  writes then pending -/
  status : Nat
  addr : Nat
  at_ : Nat
  /-- the descriptor of a draw node that has started and is not queued yet (R420) -/
  desc : List Byte
  deriving DecidableEq, Repr

/-- A replay that is running (R356 to R361). -/
structure Replay where
  handle : Nat
  nodes : List Node
  edges : List (Nat × Nat)
  signal : Nat
  msi : Option Nat
  stopped : Bool
  /-- its patches have W's that must pass before the first node starts (R357) -/
  startW : Nat
  deriving DecidableEq, Repr

/-- A context (R349, R350). -/
structure Ctx where
  asid : Nat
  key : Nat
  root : Nat
  place : Bool
  retain : Bool
  fqmsi : Bool
  logmsi : Bool
  cls : Cls
  budget : Nat
  tick : Nat
  svec : Nat
  uvec : Nat
  saveBase : Nat
  saveSize : Nat
  logBase : Nat
  logLog : Nat
  logOvf : Nat
  logHead : Nat
  fqBase : Nat
  fqLog : Nat
  fqHead : Nat
  kickDrop : Nat
  deriving DecidableEq, Repr

/-- The rest of a context: its arena, registers and running work. -/
structure CtxRun where
  graphTab : Nat
  msiFq : Nat
  msiLog : Nat
  privBase : Nat
  privSlot : Nat
  privSlots : Nat
  lossx : Int
  pto : Nat
  oto : Nat
  nextSeq : Nat
  kicks : List (Nat × Nat)
  replay : Option Replay
  suspended : Bool
  releasing : Bool
  /-- Background budget left, in ns -/
  remaining : Int
  tickAt : Nat
  /-- kicks discarded while the context was not enabled, which its next enable counts in KICKDROP (R360, R445) -/
  dropped : Nat
  deriving DecidableEq, Repr

/-- A launch descriptor that waits to be checked (R126). -/
structure Submit where
  ctx : Nat
  addr : Nat
  background : Bool
  cls : Nat
  source : Source
  die : Option Nat
  /-- the SPAWN operation that reports the status, if one does -/
  op : Option Nat
  deriving DecidableEq, Repr

/-- Which instruction stream an executed instruction belongs to: the model's own register, set by the
step that lets a group or a span issue. -/
inductive Issuer where
  | none
  | group (gid : Nat)
  | span (sid : Nat)
  deriving DecidableEq, Repr

/-- One turn of the machine, as the model's agenda orders them: an event of the device, or the issue of the
next instruction of a group or of a span. -/
inductive Turn where
  | event (i : Instr)
  | group (gid : Nat)
  | span (sid : Nat)
  deriving DecidableEq, Repr

/-! ### The whole machine -/

/-- Global memory behind its caches. -/
structure Mem where
  units : Memory
  umeta : Tbl UnitMeta
  /-- unit lines whose stored bytes cannot be corrected (R348) -/
  bad : List Nat
  home : Tbl HomeLine
  lines : Tbl LineCtl
  lsTab : Tbl Nat
  copies : List CopyLine
  ways : List WayEnt
  tlb : List TlbEnt
  walks : List WalkEnt
  unitq : Tbl UnitReq
  host : Memory
  peers : Tbl Memory
  scratch : Tbl Memory
  louvre : Tbl Louvre
  grids : List GridEnt
  /-- bytes of the MSI-X table and of its pending-bit array, from 0xF000_0080_0000 on (R387, R414) -/
  msix : Memory
  deriving DecidableEq, Repr

/-- Work in flight. -/
structure Work where
  ops : Tbl Op
  reqs : Tbl Req
  arrives : Tbl Arrive
  releases : Tbl Release
  faults : Tbl FaultRec
  copies : Tbl Copy
  subs : Tbl Submit
  /-- MSI-X messages, by vector, oldest first, each with the W that GT passes before it is sent (R414) -/
  msi : List (Nat × Nat)
  deriving DecidableEq, Repr

/-- The machine. -/
structure State where
  power : Bool
  /-- GT in ns and each die's lead over it, at most 2 (R297) -/
  gt : Nat
  skew : List Nat
  issuer : Issuer
  agenda : List Turn
  delays : List Nat
  /-- how far each die's GT leads after each coming step, where it drifts (the model's own input, R297) -/
  drift : List (List Nat)
  /-- how many free values have been drawn (the model's own) -/
  freeN : Nat
  /-- next identifier of a model object (the model's own) -/
  nextId : Nat
  pkg : Pkg
  regions : List Region
  retire : Option Retire
  keys : Tbl KeySlot
  keystat : KeyStat
  mgmt : Mgmt
  barchan : Barchan
  caravans : List Caravan
  ports : List Port
  dies : List Die
  links : List Link
  /-- pairs of dies (source·8 + destination) whose traffic takes its other route (R386) -/
  routes : Tbl Nat
  ctxs : Tbl Ctx
  runs : Tbl CtxRun
  launches : Tbl Launch
  teams : Tbl Team
  groups : Tbl Group
  spans : Tbl Span
  saved : Tbl Saved
  mem : Mem
  work : Work
  deriving DecidableEq, Repr

/-! ### Reset -/

/-- MODE at launch and handler entry (R47). -/
def modeEntry : Word := 0x000C000F

/-- A retention register at reset (R291). -/
def Retain.reset : Retain := ⟨false, 0, 0, 0, 0, 0⟩

/-- A compute die at reset (R389, R454). -/
def Die.reset : Die where
  state := 0
  pending := false
  linksUp := [true, true, true]
  dropped := 0
  retry := [0, 0, 0]
  mbx := []
  retain := List.replicate 4 Retain.reset
  ovf := [0, 0, 0, 0]
  temp := List.replicate 24 ⟨0, false⟩
  volt := List.replicate 16 ⟨0, false⟩
  ring := List.replicate 32 ⟨0, false⟩
  throtctl := 95 + 105 * 256 + 680 * 65536
  clk := 1200
  cause := 0
  events := 0
  rasters := List.replicate 4 ⟨[], none⟩
  board := []
  quiesced := 0
  mqueue := []
  mrun := []

/-- The bring-up interleave of a region (R333): A the identity, B[i] = 1 << i. -/
def Region.bringUp (depth : Nat) : Region where
  a := (List.range 12).map fun i => 2 ^ i
  b := (List.range 12).map fun i => 2 ^ i
  sa := List.replicate 12 0
  sb := List.replicate 12 0
  depth := depth
  moved := []
  applying := none

/-- A Caravan engine at reset (R336). -/
def Caravan.reset : Caravan where
  freeBase := 0
  freeHead := 0
  freeTail := 0
  retBase := 0
  retHead := 0
  retTail := 0
  ringLog := 9
  epoch := 1000
  promote := 0
  moves := 0
  ctrBase := 0
  asks := []
  move := none
  waiting := false
  epochAt := 0
  fwd := []

/-- A peer port at reset (R417). -/
def Port.reset : Port := ⟨false, 0, 0, false, false, [0, 0, 0, 0], [0, 0, 0, 0]⟩

/-- The two directions of every die link (R384): compute neighbours, then the far-tier dies, which are
numbered 4 (FD0) and 5 (FD1). -/
def linkPairs : List (Nat × Nat) :=
  [(0, 1), (1, 0), (0, 2), (2, 0), (1, 3), (3, 1), (2, 3), (3, 2),
   (0, 4), (4, 0), (1, 4), (4, 1), (2, 5), (5, 2), (3, 5), (5, 3)]

/-- A link at reset. -/
def Link.reset (p : Nat × Nat) : Link := ⟨p.1, p.2, true, [], 0, 0, 0, 0⟩

/-- CAPACITY at reset (R339). -/
def capacityReset : Nat := 0x0008020080200800

/-- The package registers at reset. -/
def Pkg.reset : Pkg where
  leaseRw := 500
  leaseRo := 100000
  capacity := capacityReset
  captarget := capacityReset
  retStatus := 0
  retStack := 0
  retLeft := 0
  retired := 0
  migphase := 0
  errSingular := false
  errBadcmd := false
  errBusy := false
  errRegion := 0
  ctxbase := 0
  cmdCtx := 0
  cmdOp := 0
  cmdResult := 0
  cmdBusy := false
  cmdOut := none
  trctx := 0
  trlid := 0

/-- The Barchan registers at reset (R395). -/
def Barchan.reset : Barchan where
  base := 0
  ver := [0, 0, 0, 0]
  en := [false, false, false, false]
  freeze := [false, false, false, false]
  refresh := [false, false, false, false]
  targets := 0xF
  ctx := 0
  maxrep := 3
  hot := 0xFFFFFFFF
  idle := 0
  cold := 0
  window := 1000
  windowAt := 0
  tables := []
  lastW := 0

/-- The management controller at power-on: a cold start stands before its step 1 (R442). -/
def Mgmt.reset : Mgmt where
  starting := some ⟨false, 0⟩
  level := 0
  warm := false
  img := 0
  step := 0
  busy := false
  result := 0
  length := 0
  buf := 0
  cmd := 0
  out := none
  buffer := []
  flash := [[], []]
  fusedSvn := 0
  serial := 0
  imgSvn := 0
  imgDigest := []

/-- Empty memory and caches. -/
def Mem.reset : Mem := ⟨[], [], [], [], [], [], [], [], [], [], [], [], [], [], [], [], []⟩

/-- No work. -/
def Work.reset : Work := ⟨[], [], [], [], [], [], [], []⟩

/-- The six interleave regions at their cold-start depths (R330, R335). -/
def regionsReset : List Region :=
  [Region.bringUp (2 ^ 20), Region.bringUp (2 ^ 18), Region.bringUp (2 ^ 18), Region.bringUp (2 ^ 18),
   Region.bringUp (2 ^ 18), Region.bringUp 4161536]

/-- The machine right after power-on reset: every register at its reset value, no context, the cold start
standing before its first step (R442). -/
def State.reset : State where
  power := true
  gt := 0
  skew := [0, 0, 0, 0]
  issuer := .none
  agenda := []
  delays := []
  drift := []
  freeN := 0
  nextId := 1
  pkg := Pkg.reset
  regions := regionsReset
  retire := none
  keys := []
  keystat := ⟨0, 0, false⟩
  mgmt := Mgmt.reset
  barchan := Barchan.reset
  caravans := List.replicate 6 Caravan.reset
  ports := List.replicate 16 Port.reset
  dies := List.replicate 4 Die.reset
  links := linkPairs.map Link.reset
  routes := []
  ctxs := []
  runs := []
  launches := []
  teams := []
  groups := []
  spans := []
  saved := []
  mem := Mem.reset
  work := Work.reset

end Sys2Proof.Machine
end

