-- ==== Sys2Proof/Machine/Float.lean ====
section
/-! DEFINITION. Number formats and the arithmetic rules: exact values, the one rounding (R68 to R73),
sums, products, comparisons, conversions (R61 to R87). -/
namespace Sys2Proof.Machine

/-! ### Formats -/

/-- A floating-point format (R62): exponent bits, mantissa bits, bias, whether exponent all ones is special
(R63), whether it has infinities. -/
structure Fmt where
  ebits : Nat
  mbits : Nat
  bias : Nat
  ieee : Bool
  fp4 : Bool
  deriving DecidableEq, Repr

def fmtF32 : Fmt := ⟨8, 23, 127, true, false⟩
def fmtF16 : Fmt := ⟨5, 10, 15, true, false⟩
def fmtBF16 : Fmt := ⟨8, 7, 127, true, false⟩
def fmtE5M2 : Fmt := ⟨5, 2, 15, true, false⟩
def fmtE4M3 : Fmt := ⟨4, 3, 7, false, false⟩
def fmtFP4 : Fmt := ⟨2, 1, 1, false, true⟩

/-- The sign bit's place. -/
def Fmt.signAt (f : Fmt) : Nat := 2 ^ (f.ebits + f.mbits)
/-- The pattern of a sign. -/
def Fmt.sign (f : Fmt) (neg : Bool) : Nat := if neg then f.signAt else 0
/-- The width of an element. -/
def Fmt.width (f : Fmt) : Nat := f.ebits + f.mbits + 1
/-- Largest finite magnitude's pattern (R62). -/
def Fmt.maxPat (f : Fmt) : Nat :=
  if f.fp4 then 7 else if f.ieee then (2 ^ f.ebits - 1) * 2 ^ f.mbits - 1 else 0x7E
/-- The infinity's pattern of a format that has one. -/
def Fmt.infPat (f : Fmt) : Nat := (2 ^ f.ebits - 1) * 2 ^ f.mbits
/-- The canonical NaN (R63); a format without NaN takes +0. -/
def Fmt.nanPat (f : Fmt) : Nat :=
  if f.fp4 then 0 else if f.ieee then f.infPat + 2 ^ (f.mbits - 1) else 0x7F
/-- The least exponent of a normal value. -/
def Fmt.emin (f : Fmt) : Int := 1 - (f.bias : Int)
/-- Whether MODE.FTZ applies to the format (R71). -/
def Fmt.flushable (f : Fmt) : Bool := f.ieee && f.mbits != 2

/-- What an element's pattern stands for: a NaN (signalling or not), an infinity, or the exact value
±m·2^e. -/
inductive FVal where
  | nan (signalling : Bool)
  | inf (neg : Bool)
  | fin (neg : Bool) (m : Nat) (e : Int)
  deriving DecidableEq, Repr

/-- The value of a pattern (R62, R63). -/
def Fmt.value (f : Fmt) (x : Nat) : FVal :=
  let neg := decide (f.signAt ≤ x % (2 * f.signAt))
  let ex := x / 2 ^ f.mbits % 2 ^ f.ebits
  let m := x % 2 ^ f.mbits
  if f.ieee && ex == 2 ^ f.ebits - 1 then
    if m = 0 then .inf neg else .nan (decide (m < 2 ^ (f.mbits - 1)))
  else if !f.ieee && !f.fp4 && x % f.signAt == 0x7F then .nan false
  else if ex = 0 then .fin neg m (f.emin - f.mbits)
  else .fin neg (2 ^ f.mbits + m) ((ex : Int) - f.bias - f.mbits)

/-- The value of an input, a subnormal read as zero of its sign under FTZ (R71). -/
def Fmt.input (f : Fmt) (ftz : Bool) (x : Nat) : FVal :=
  match f.value x with
  | .fin neg m e => if ftz && f.flushable && m < 2 ^ f.mbits then .fin neg 0 e else .fin neg m e
  | v => v

/-! ### Exact results and the one rounding -/

/-- Causes, bit by bit (R76). -/
def excIV : Exc := 1
def excDZ : Exc := 2
def excOF : Exc := 4
def excUF : Exc := 8

/-- An exact result before rounding: a NaN with whether it is invalid, an infinity, a zero with its sign, or
±(n/d)·2^e with n, d > 0. -/
inductive Exact where
  | nan
  | inf (neg : Bool)
  | zero (neg : Bool)
  | val (neg : Bool) (n d : Nat) (e : Int)
  deriving DecidableEq, Repr

/-- The rounding environment: MODE.RND, FTZ and SAT (R68, R71, R72). -/
structure FEnv where
  rnd : Rnd
  ftz : Bool
  sat : Bool
  deriving DecidableEq, Repr

/-- Round to nearest even, without FTZ or SAT. -/
def FEnv.plain : FEnv := ⟨.rn, false, false⟩

/-- Floor(log2(n/d)) for n, d > 0. -/
def ratLog (n d : Nat) : Int :=
  let l : Int := (Nat.log2 n : Int) - (Nat.log2 d : Int)
  -- n/d lies in (2^(l-1), 2^(l+1))
  if 0 ≤ l then (if d * 2 ^ l.toNat ≤ n then l else l - 1)
  else (if d ≤ n * 2 ^ (-l).toNat then l else l - 1)

/-- Whether the kept magnitude goes up (R68, R73): kept `k`, discarded `rem/den`, 12 random bits `r`. -/
def roundsUp (rnd : Rnd) (neg : Bool) (k rem den r : Nat) : Bool :=
  match rnd with
  | .rn => decide (den < 2 * rem) || (2 * rem == den && k % 2 == 1)
  | .rz => false
  | .ru => !neg && rem != 0
  | .rd => neg && rem != 0
  | .rna => decide (den ≤ 2 * rem)
  | .sr =>
    let top := rem * 2048 / den
    let w := 2 * top + (if rem * 2048 % den = 0 then 0 else 1)
    decide (4096 ≤ w + r)

/-- The pattern of "∞" for a destination (R69, R72), and the exception of reaching it. -/
def Fmt.toInf (f : Fmt) (sat neg : Bool) : Nat × Exc :=
  if sat then (f.sign neg + f.maxPat, 0)
  else if f.fp4 then (f.sign neg + f.maxPat, excOF)
  else if f.ieee then (f.sign neg + f.infPat, 0)
  else (f.sign neg + 0x7F, excOF)

/-- An overflowed result (R69, R72). -/
def Fmt.overflow (f : Fmt) (env : FEnv) (neg : Bool) : Nat × Exc :=
  let away := match env.rnd with
    | .rn => true
    | .rna => true
    | .ru => !neg
    | .rd => neg
    | .rz => false
    | .sr => false
  if env.sat then (f.sign neg + f.maxPat, 0)
  else if away then ((f.toInf false neg).1, excOF)
  else (f.sign neg + f.maxPat, excOF)

/-- The pattern of kept magnitude `k` at quantum 2^qe, where `k` fits `mbits + 1` bits or is the next power
of two. -/
def Fmt.pack (f : Fmt) (k : Nat) (qe : Int) : Nat :=
  if k < 2 ^ f.mbits then k
  else if k < 2 ^ (f.mbits + 1) then ((qe + f.mbits + f.bias).toNat) * 2 ^ f.mbits + (k - 2 ^ f.mbits)
  else ((qe + 1 + f.mbits + f.bias).toNat) * 2 ^ f.mbits

/-- One rounding of a nonzero finite exact result into a format (R68 to R73). -/
def Fmt.roundVal (f : Fmt) (env : FEnv) (neg : Bool) (n d : Nat) (e : Int) (r : Nat) : Nat × Exc :=
  let ex := ratLog n d + e
  let tiny := decide (ex < f.emin)
  let qe := max ex f.emin - f.mbits
  let sh := e - qe
  let num := if 0 ≤ sh then n * 2 ^ sh.toNat else n
  let den := if 0 ≤ sh then d else d * 2 ^ (-sh).toNat
  let k := num / den
  let rem := num % den
  let k' := if roundsUp env.rnd neg k rem den r then k + 1 else k
  let p := f.pack k' qe
  let maxE : Int := (2 ^ f.ebits : Nat) - (if f.ieee then 2 else 1) - f.bias
  let big := decide (maxE < ex) || decide (f.maxPat < p)
  if big then f.overflow env neg
  else if env.ftz && f.flushable && p < 2 ^ f.mbits && p != 0 then (f.sign neg, excUF)
  else (f.sign neg + p, if tiny && rem != 0 then excUF else 0)

/-- The pattern of an exact result, with the exceptions of R69 to R72. -/
def Fmt.round (f : Fmt) (env : FEnv) (x : Exact) (r : Nat) : Nat × Exc :=
  match x with
  | .nan => if f.fp4 then (0, excIV) else (f.nanPat, 0)
  | .inf neg => f.toInf env.sat neg
  | .zero neg => (f.sign neg, 0)
  | .val neg n d e => f.roundVal env neg n d e r

/-- An exact value from a signed integer times 2^e; a zero takes `zneg`. -/
def Exact.ofInt (i : Int) (e : Int) (zneg : Bool) : Exact :=
  if i = 0 then .zero zneg else .val (decide (i < 0)) i.natAbs 1 e

/-- A finite value as an integer at exponent `e ≤` its own. -/
def finAt (neg : Bool) (m : Nat) (e0 e : Int) : Int :=
  let k : Int := (m : Int) * (2 ^ (e0 - e).toNat : Nat)
  if neg then -k else k

/-- Whether an input raises invalid of itself (R64). -/
def FVal.snan : FVal → Exc
  | .nan true => excIV
  | _ => 0
def FVal.isNan : FVal → Bool
  | .nan _ => true
  | _ => false
/-- The value with its sign inverted. -/
def FVal.neg : FVal → FVal
  | .nan q => .nan q
  | .inf n => .inf (!n)
  | .fin n m e => .fin (!n) m e
/-- A value as an exact result. -/
def FVal.exact : FVal → Exact
  | .nan _ => .nan
  | .inf n => .inf n
  | .fin n m e => if m = 0 then .zero n else .val n m 1 e

/-- a + b exactly (R68, R170). -/
def exAdd (rnd : Rnd) (a b : FVal) : Exact × Exc :=
  let iv := a.snan ||| b.snan
  match a, b with
  | .nan _, _ => (.nan, iv)
  | _, .nan _ => (.nan, iv)
  | .inf x, .inf y => if x = y then (.inf x, iv) else (.nan, excIV)
  | .inf x, _ => (.inf x, iv)
  | _, .inf y => (.inf y, iv)
  | .fin x m e, .fin y n g =>
    let lo := min e g
    let zneg := if x = y then x else rnd == .rd
    (Exact.ofInt (finAt x m e lo + finAt y n g lo) lo zneg, iv)

/-- a · b exactly. -/
def exMul (a b : FVal) : FVal × Exc :=
  let iv := a.snan ||| b.snan
  match a, b with
  | .nan _, _ => (.nan false, iv)
  | _, .nan _ => (.nan false, iv)
  | .inf x, .inf y => (.inf (x != y), iv)
  | .inf x, .fin y n _ => if n = 0 then (.nan false, excIV) else (.inf (x != y), iv)
  | .fin x m _, .inf y => if m = 0 then (.nan false, excIV) else (.inf (x != y), iv)
  | .fin x m e, .fin y n g => (.fin (x != y) (m * n) (e + g), iv)

/-- a · b + d exactly, fused (R170). -/
def exFma (rnd : Rnd) (a b d : FVal) : Exact × Exc :=
  let p := exMul a b
  let r := exAdd rnd p.1 d
  (r.1, p.2 ||| r.2)

/-- The order of two non-NaN values, −0 below +0 when `zeros`. -/
def fLt (zeros : Bool) (a b : FVal) : Bool :=
  match a, b with
  | .nan _, _ => false
  | _, .nan _ => false
  | .inf x, .inf y => x && !y
  | .inf x, _ => x
  | _, .inf y => !y
  | .fin x m e, .fin y n g =>
    let lo := min e g
    let i := finAt x m e lo
    let j := finAt y n g lo
    decide (i < j) || (zeros && i == 0 && j == 0 && x && !y)

/-- Equality as numbers: +0 and −0 are equal, a NaN equals nothing (R172). -/
def fEq (a b : FVal) : Bool := !a.isNan && !b.isNan && !fLt false a b && !fLt false b a

/-! ### Element operations -/

/-- A float operation on elements of one format: its exact result and own exceptions. -/
inductive FOp where
  | add | sub | mul | mad | msb | fmin | fmax
  deriving DecidableEq, Repr

/-- One element of FADD to FMAX (R169 to R171): `r` is the draw. -/
def fElem (f : Fmt) (env : FEnv) (op : FOp) (a b d r : Nat) : Nat × Exc :=
  let x := f.input env.ftz a
  let y := f.input env.ftz b
  let z := f.input env.ftz d
  let fin (p : Exact × Exc) : Nat × Exc :=
    let q := f.round env p.1 r
    (q.1, p.2 ||| q.2)
  let noRound (v : FVal) : Nat × Exc :=
    let q := f.round { env with rnd := .rn } v.exact 0
    (q.1, x.snan ||| y.snan)
  match op with
  | .add => fin (exAdd env.rnd x y)
  | .sub => fin (exAdd env.rnd x y.neg)
  | .mul => let p := exMul x y; fin (p.1.exact, p.2)
  | .mad => fin (exFma env.rnd x y z)
  | .msb => fin (exFma env.rnd x y z.neg)
  | .fmin => if x.isNan then noRound y else if y.isNan then noRound x
             else noRound (if fLt true y x then y else x)
  | .fmax => if x.isNan then noRound y else if y.isNan then noRound x
             else noRound (if fLt true x y then y else x)

/-- FDOT2 (R176): a0·b0 + a1·b1 + d, once rounded to F32. -/
def fDot2 (f : Fmt) (env : FEnv) (a b d r : Nat) : Nat × Exc :=
  let h (x i : Nat) := f.input env.ftz (x / 2 ^ (16 * i) % 65536)
  let p := exMul (h a 0) (h b 0)
  let q := exMul (h a 1) (h b 1)
  let z := fmtF32.input env.ftz d
  let iv := p.2 ||| q.2 ||| z.snan
  let infs : List Bool := [p.1, q.1, z].filterMap fun v => match v with
    | .inf n => some n
    | _ => none
  let opp : Bool := infs.contains true && infs.contains false
  let iv := if opp then iv ||| excIV else iv
  let res : Exact × Exc :=
    if opp || p.1.isNan || q.1.isNan || z.isNan then (.nan, iv)
    else match infs with
      | n :: _ => (.inf n, iv)
      | [] =>
        match p.1, q.1, z with
        | .fin a1 m1 e1, .fin a2 m2 e2, .fin a3 m3 e3 =>
          let lo := min e1 (min e2 e3)
          let zneg := if a1 == a2 && a2 == a3 then a1 else env.rnd == .rd
          (Exact.ofInt (finAt a1 m1 e1 lo + finAt a2 m2 e2 lo + finAt a3 m3 e3 lo) lo zneg, iv)
        | _, _, _ => (.nan, iv)
  let o := fmtF32.round env res.1 r
  (o.1, res.2 ||| o.2)

/-- FCMP (R172). -/
def fCompare (c : FCond) (ftz : Bool) (a b : Nat) : Bool × Exc :=
  let x := fmtF32.input ftz a
  let y := fmtF32.input ftz b
  let un := x.isNan || y.isNan
  let r := match c with
    | .eq => fEq x y
    | .ne => !fEq x y
    | .lt => fLt false x y
    | .le => !un && !fLt false y x
    | .un => un
    | .ord => !un
  (r, x.snan ||| y.snan)

/-- FCLASS of one element, as it is stored (R173). -/
def fClass (f : Fmt) (a : Nat) : Nat :=
  match f.value a with
  | .nan true => 256
  | .nan false => 512
  | .inf n => if n then 1 else 128
  | .fin n m _ =>
    if m = 0 then (if n then 8 else 16)
    else if m < 2 ^ f.mbits then (if n then 4 else 32)
    else (if n then 2 else 64)

/-- A finite value rounded to an integral one under a mode, with quantum 1 (R174). -/
def roundInt (rnd : Rnd) (neg : Bool) (n d : Nat) (e : Int) (r : Nat) : Nat :=
  let num := if 0 ≤ e then n * 2 ^ e.toNat else n
  let den := if 0 ≤ e then d else d * 2 ^ (-e).toNat
  let k := num / den
  if roundsUp rnd neg k (num % den) den r then k + 1 else k

/-- FRNDI (R174): rounded to an integral value of the same format; FTZ and SAT apply (R71, R72). -/
def fRndi (f : Fmt) (env : FEnv) (a r : Nat) : Nat × Exc :=
  match f.input env.ftz a with
  | .nan s => (f.nanPat, if s then excIV else 0)
  | .inf n => (if env.sat then f.sign n + f.maxPat else f.sign n + f.infPat, 0)
  | .fin n m e =>
    if m = 0 then (f.sign n, 0)
    else
      let k := roundInt env.rnd n m 1 e r
      if k = 0 then (f.sign n, 0)
      else ((f.roundVal ⟨.rn, false, env.sat⟩ n k 1 0 0).1, 0)

/-- FSCALE (R175): a·2^b with b a signed integer; an exponent beyond every format's range acts as the
range's end, which rounds alike. R175 gives a NaN input `NaN of the same sign`, R64 makes every NaN result the canonical NaN,
whose sign is clear: the result here is the canonical NaN (DESIGN CHOICE, log entry 120). -/
def fScale (f : Fmt) (env : FEnv) (a : Nat) (b : Int) (r : Nat) : Nat × Exc :=
  match f.input env.ftz a with
  | .nan s => (f.nanPat, if s then excIV else 0)
  | .inf n => f.round env (.inf n) r
  | .fin n m e =>
    if m = 0 then (f.sign n, 0)
    else f.roundVal env n m 1 (e + max (-1000) (min b 1000)) r

/-! ### Conversions (R67, R178 to R183) -/

end Sys2Proof.Machine

namespace Sys2Proof
open Sys2Proof.Machine

/-- The float format of an element type, if it is one. -/
def EType.fmt : EType → Option Fmt
  | .f32 => some fmtF32
  | .f16 => some fmtF16
  | .bf16 => some fmtBF16
  | .e4m3 => some fmtE4M3
  | .e5m2 => some fmtE5M2
  | .fp4 => some fmtFP4
  | _ => none

/-- The width of an element in bits (R61). -/
def EType.width : EType → Nat
  | .f32 => 32
  | .f16 => 16
  | .bf16 => 16
  | .e4m3 => 8
  | .e5m2 => 8
  | .fp4 => 4
  | .i32 => 32
  | .n32 => 32
  | .i16 => 16
  | .n16 => 16
  | .i8 => 8
  | .n8 => 8
  | .i64 => 64
  | .n64 => 64

/-- Whether an element type is a signed integer. -/
def EType.signedI : EType → Bool
  | .i32 => true
  | .i16 => true
  | .i8 => true
  | .i64 => true
  | _ => false

/-- Elements per unit, a register or a pair (R179). -/
def EType.count (t : EType) : Nat := if t.width = 64 then 1 else 32 / t.width

/-- The range of an integer type. -/
def EType.imin (t : EType) : Int := if t.signedI then -(2 ^ (t.width - 1) : Nat) else 0
def EType.imax (t : EType) : Int :=
  if t.signedI then (2 ^ (t.width - 1) : Nat) - 1 else (2 ^ t.width : Nat) - 1

/-- An element read as its integer type. -/
def EType.toInt (t : EType) (x : Nat) : Int := if t.signedI then sgn x t.width else (x : Int)

end Sys2Proof

namespace Sys2Proof.Machine

/-- An integer kept to a range. -/
def clampI (lo hi x : Int) : Int := if x < lo then lo else if hi < x then hi else x

/-- Float to integer (R67). -/
def fToInt (f : Fmt) (env : FEnv) (t : EType) (a r : Nat) : Nat × Exc :=
  match f.input env.ftz a with
  | .nan _ => (0, excIV)
  | .inf n => (wrapN (if n then t.imin else t.imax) t.width, excIV)
  | .fin n m e =>
    let k : Int := roundInt env.rnd n m 1 (min e 200) r
    let i := if n then -k else k
    let c := clampI t.imin t.imax i
    (wrapN c t.width, if c = i then 0 else excIV)

/-- Integer to float: the exact value rounded once. -/
def intToF (f : Fmt) (env : FEnv) (i : Int) (r : Nat) : Nat × Exc :=
  f.round env (Exact.ofInt i 0 false) r

/-- Conv of one element (R180): source type, destination type. -/
def conv (src dst : EType) (env : FEnv) (a r : Nat) : Nat × Exc :=
  match src.fmt, dst.fmt with
  | some f, some g =>
    let v := f.input env.ftz a
    let q := g.round env v.exact r
    (q.1, v.snan ||| q.2)
  | some f, none => fToInt f env dst a r
  | none, some g => intToF g env (src.toInt a) r
  | none, none =>
    let x := src.toInt a
    (wrapN (if env.sat then clampI dst.imin dst.imax x else x) dst.width, 0)

/-- Whether a conversion draws under SR: a float source or destination (R180). -/
def convDraws (src dst : EType) : Bool := src.fmt.isSome || dst.fmt.isSome

/-- QCVT of one element (R87): a / s, once rounded into FP8 or FP4. -/
def qElem (g : Fmt) (env : FEnv) (a s r : Nat) : Nat × Exc :=
  let x := fmtF32.input env.ftz a
  let y := fmtF32.input env.ftz s
  let iv := x.snan ||| y.snan
  let out (e : Exact) (c : Exc) : Nat × Exc :=
    let q := g.round env e r
    (q.1, c ||| q.2)
  match x, y with
  | .nan _, _ => out .nan iv
  | _, .nan _ => out .nan iv
  | .inf _, .inf _ => out .nan excIV
  | .inf m, .fin n _ _ => out (.inf (m != n)) 0
  | .fin m k _, .inf n => if k = 0 then out (.zero (m != n)) 0 else out (.zero (m != n)) 0
  | .fin m k e, .fin n l h =>
    if l = 0 then (if k = 0 then out .nan excIV else out (.inf (m != n)) excDZ)
    else if k = 0 then out (.zero (m != n)) 0
    else out (.val (m != n) k l (e - h)) 0

/-! ### The generator (R74) -/

/-- One step of a lane's generator. -/
def nextRandom (s : Word) : Word :=
  let a := s ^^^ (s <<< (13 : Nat))
  let b := a ^^^ (a >>> (17 : Nat))
  b ^^^ (b <<< (5 : Nat))

/-- The 12 bits that a draw gives a rounding (R73). -/
def drawBits (s : Word) : Nat := s.toNat / 2 ^ 20

/-- A generator state, a zero replaced by one. -/
def seedOf (w : Word) : Word := if w = 0 then 1 else w

/-! ### Block scales (R65) -/

/-- The significand and exponent of an E3M5 scale. -/
def e3m5 (x : Nat) : Nat × Int :=
  if x / 32 % 8 = 0 then (x % 32, -7) else (32 + x % 32, (x / 32 % 8 : Int) - 8)

end Sys2Proof.Machine
end

