-- ==== Sys2Proof/Machine/Flags.lean ====
section
/-! DEFINITION. The flag computations of the uniform instructions (R46, R153, R154), the conditions on
them (R104), and the integer element arithmetic with its clamp (R156 to R162). -/
namespace Sys2Proof.Machine

/-! ### CC -/

/-- CC as a word (R46). -/
def CC.word (c : CC) : Nat := b2n c.v + 2 * b2n c.c + 4 * b2n c.z + 8 * b2n c.n
/-- CC from a word. -/
def CC.ofWord (w : Nat) : CC := ⟨nbit w 0, nbit w 1, nbit w 2, nbit w 3⟩
/-- CC clear (R53). -/
def CC.clear : CC := ⟨false, false, false, false⟩

/-- Flags of SADD.f (R153). -/
def ccAdd (a b : DWord) : CC :=
  let r := a + b
  { v := (a.msb == b.msb) && (r.msb != a.msb)
    c := decide (2 ^ 64 ≤ a.toNat + b.toNat)
    z := r == 0
    n := r.msb }
/-- Flags of SSUB.f and SCMP (R153). -/
def ccSub (a b : DWord) : CC :=
  let r := a - b
  { v := (a.msb != b.msb) && (r.msb != a.msb)
    c := decide (b.toNat ≤ a.toNat)
    z := a == b
    n := r.msb }
/-- Flags of SMUL.f (R153): V when the signed product lies outside 64 bits. -/
def ccMul (a b : DWord) : CC :=
  let p := a.toInt * b.toInt
  let r := a * b
  { v := decide (p < -(2 ^ 63 : Int)) || decide ((2 ^ 63 : Int) ≤ p)
    c := false
    z := r == 0
    n := r.msb }
/-- Flags of every other uniform instruction with .f (R153). -/
def ccOther (r : DWord) : CC := { v := false, c := false, z := r == 0, n := r.msb }

end Sys2Proof.Machine

namespace Sys2Proof
open Sys2Proof.Machine

/-- The conditions of BRA (R104). -/
def Cond.holds (c : Cond) (f : CC) : Bool :=
  match c with
  | .al => true
  | .eq => f.z
  | .ne => !f.z
  | .lt => f.n != f.v
  | .ge => f.n == f.v
  | .le => f.z || (f.n != f.v)
  | .gt => !f.z && (f.n == f.v)
  | .lo => !f.c
  | .hs => f.c
  | .ls => !f.c || f.z
  | .hi => f.c && !f.z
  | .mi => f.n
  | .pl => !f.n
  | .vs => f.v
  | .vc => !f.v
/-- The conditions of SSEL (R154). -/
def SCond.holds (c : SCond) (f : CC) : Bool :=
  match c with
  | .eq => f.z
  | .ne => !f.z
  | .lt => f.n != f.v
  | .lo => !f.c

end Sys2Proof

namespace Sys2Proof.Machine

/-! ### Uniform results (R152) -/

/-- High half of the signed 128-bit product. -/
def mulhS (a b : DWord) : DWord := BitVec.ofInt 64 (a.toInt * b.toInt / (2 ^ 64 : Nat))
/-- High half of the unsigned 128-bit product. -/
def mulhU (a b : DWord) : DWord := BitVec.ofNat 64 (a.toNat * b.toNat / 2 ^ 64)
/-- Left shift by the whole amount. -/
def shlU (a b : DWord) : DWord := if 64 ≤ b.toNat then 0 else a <<< b.toNat
/-- Logical right shift by the whole amount. -/
def shrU (a b : DWord) : DWord := if 64 ≤ b.toNat then 0 else a >>> b.toNat
/-- Arithmetic right shift by the whole amount. -/
def sraU (a b : DWord) : DWord := a.sshiftRight (min b.toNat 63)
/-- Minimum and maximum, signed or, with .n, unsigned. -/
def minU (n : Bool) (a b : DWord) : DWord :=
  if n then (if b.toNat < a.toNat then b else a) else (if b.toInt < a.toInt then b else a)
def maxU (n : Bool) (a b : DWord) : DWord :=
  if n then (if a.toNat < b.toNat then b else a) else (if a.toInt < b.toInt then b else a)

/-! ### Vector integer elements -/

/-- The integer shape of an ETYPE code (R156): element width and whether SAT's range is unsigned. -/
def intShape (et : Nat) : Nat × Bool :=
  match et with
  | 7 => (32, true)
  | 8 => (16, false)
  | 9 => (16, true)
  | 10 => (8, false)
  | 11 => (8, true)
  | 12 => (64, false)
  | 13 => (64, true)
  | _ => (32, false)

/-- The vector integer operations marked E (R157, R159). -/
inductive IOp where
  | add | sub | mul | mulhi | mulhn | mad | shl | shr | sra | smin | smax | umin | umax | abs
  deriving DecidableEq, Repr

/-- An exact integer reduced to an element: clamped under SAT, else modulo 2^w (R158). -/
def reduceI (w : Nat) (uns sat : Bool) (x : Int) : Nat :=
  if sat then
    wrapN (clampI (if uns then 0 else -(2 ^ (w - 1) : Nat))
                  (if uns then (2 ^ w : Nat) - 1 else (2 ^ (w - 1) : Nat) - 1) x) w
  else wrapN x w

/-- One element of width `w` (R157 to R159). -/
def iElem (op : IOp) (w : Nat) (uns sat : Bool) (a b d : Nat) : Nat :=
  let rd (x : Nat) : Int := if uns then (x : Int) else sgn x w
  match op with
  | .add => reduceI w uns sat (rd a + rd b)
  | .sub => reduceI w uns sat (rd a - rd b)
  | .mul => reduceI w uns sat (rd a * rd b)
  | .mad => reduceI w uns sat (rd a * rd b + rd d)
  | .mulhi => wrapN (sgn a w * sgn b w / (2 ^ w : Nat)) w
  | .mulhn => a * b / 2 ^ w % 2 ^ w
  | .shl => if w ≤ b then 0 else a * 2 ^ b % 2 ^ w
  | .shr => if w ≤ b then 0 else a / 2 ^ b
  | .sra => wrapN (sgn a w / (2 ^ (min b w) : Nat)) w
  | .smin => if sgn b w < sgn a w then b else a
  | .smax => if sgn a w < sgn b w then b else a
  | .umin => min a b
  | .umax => max a b
  | .abs =>
    -- IABS reads a signed whatever the type; the result is clamped to the type's range (R158)
    reduceI w uns sat (sgn a w).natAbs

/-- Elements of width `w` of packed values, `n` of them, combined one by one (R61). -/
def packElems : Nat → Nat → (Nat → Nat → Nat → Nat) → Nat → Nat → Nat → Nat
  | 0, _, _, _, _, _ => 0
  | n + 1, w, f, a, b, d =>
    f (a % 2 ^ w) (b % 2 ^ w) (d % 2 ^ w) + 2 ^ w * packElems n w f (a / 2 ^ w) (b / 2 ^ w) (d / 2 ^ w)

/-- A whole unit, a 32-bit lane value or a 64-bit pair, under an ETYPE code. -/
def iUnit (op : IOp) (et : Nat) (sat : Bool) (a b d : Nat) : Nat :=
  let sh := intShape et
  packElems (if sh.1 = 64 then 1 else 32 / sh.1) sh.1 (iElem op sh.1 sh.2 sat) a b d

/-- ICMP of one element (R160). -/
def iCompare (c : ICond) (uns : Bool) (w a b : Nat) : Bool :=
  match c with
  | .eq => a == b
  | .ne => a != b
  | .lt => if uns then decide (a < b) else decide (sgn a w < sgn b w)
  | .le => if uns then decide (a ≤ b) else decide (sgn a w ≤ sgn b w)

/-- Leading zeros of a 32-bit value, 0 to 32 (R163). -/
def clz32 (x : Nat) : Nat := if x = 0 then 32 else 31 - Nat.log2 x
/-- Bit i moved to bit n−1−i. -/
def brevN : Nat → Nat → Nat
  | 0, _ => 0
  | n + 1, x => x % 2 * 2 ^ n + brevN n (x / 2)

/-- BFE (R161). -/
def bfe32 (a b : Nat) : Nat :=
  let pos := b % 32
  let len := min (b / 256 % 64) 32
  let n := min len (32 - pos)
  if n = 0 then 0
  else
    let f := nfld a pos n
    if nbit b 16 then wrapN (sgn f n) 32 else f
/-- BFI (R161): `d` is the old destination. -/
def bfi32 (a b d : Nat) : Nat :=
  let pos := b % 32
  let len := min (b / 256 % 64) 32
  let n := min len (32 - pos)
  d - nfld d pos n * 2 ^ pos + nfld a 0 n * 2 ^ pos

/-- INTLV2 over `n` bits (R162). -/
def intlvTwo : Nat → Nat → Nat → Nat
  | 0, _, _ => 0
  | n + 1, a, b => a % 2 + 2 * (b % 2) + 4 * intlvTwo n (a / 2) (b / 2)
/-- INTLV3 over `n` bits (R162). -/
def intlvThree : Nat → Nat → Nat → Nat → Nat
  | 0, _, _, _ => 0
  | n + 1, a, b, d => a % 2 + 2 * (b % 2) + 4 * (d % 2) + 8 * intlvThree n (a / 2) (b / 2) (d / 2)

end Sys2Proof.Machine
end

