-- ==== Sys2Proof/Machine/Operands.lean ====
section
/-! DEFINITION. Operands: the fields of MODE, reading and writing registers, the lanes an instruction
writes, and the table of every instruction's class, sources and destinations (R42 to R49, R100 to R109). -/
namespace Sys2Proof.Machine

/-! ### MODE (R47) -/

def mGuard (m : Word) : Nat := nfld m.toNat 0 4
def mEtype (m : Word) : Nat := nfld m.toNat 4 4
def mRndCode (m : Word) : Nat := nfld m.toNat 8 3
def mFtz (m : Word) : Bool := nbit m.toNat 11
def mSat (m : Word) : Bool := nbit m.toNat 12
def mMfmt (m : Word) : Nat := nfld m.toNat 13 3
def mAexc (m : Word) : Bool := nbit m.toNat 16
def mSubg (m : Word) : Nat := nfld m.toNat 17 4
/-- The rounding mode; a reserved code cannot stand in MODE (R48). -/
def mRnd (m : Word) : Rnd := (Rnd.ofCode (mRndCode m)).getD .rn
/-- The element type; a reserved code cannot stand in MODE (R48). -/
def mEt (m : Word) : EType := (EType.ofCode (mEtype m)).getD .f32
/-- The rounding environment of MODE. -/
def mEnv (m : Word) : FEnv := ⟨mRnd m, mFtz m, mSat m⟩
/-- Whether ETYPE names pairs of registers (R156). -/
def mPair (m : Word) : Bool := mEtype m == 12 || mEtype m == 13
/-- A legal MODE (R48). -/
def modeOk (m : Nat) : Bool :=
  nfld m 4 4 < 14 && nfld m 8 3 < 6 && nfld m 13 3 < 6 && nfld m 17 4 ≤ 6 && m < 2 ^ 21

/-! ### Reading registers -/

/-- A vector register, one word a lane. -/
def Regs.vr (r : Regs) (n : Nat) : List Word := r.v.getD n []
/-- A lane's value of a vector register. -/
def Regs.vl (r : Regs) (n l : Nat) : Word := laneVal (r.vr n) l
/-- A lane's value of an even/odd pair (R43). -/
def Regs.vp (r : Regs) (n l : Nat) : Nat := (r.vl n l).toNat + 2 ^ 32 * (r.vl (n + 1) l).toNat
/-- A uniform register. -/
def Regs.sr (r : Regs) (n : Nat) : DWord := r.s.getD n 0
/-- A predicate: p15 reads as all ones (R44). -/
def Regs.pr (r : Regs) (n : Nat) : Mask := if n = 15 then BitVec.allOnes 64 else r.p.getD n 0
/-- A tile register. -/
def Regs.tr (r : Regs) (n : Nat) : Tile := r.t.getD n 0

/-! ### Writing registers -/

/-- A vector register written in the lanes of a mask (R49). -/
def Regs.setV (r : Regs) (n : Nat) (m : Mask) (f : Nat → Word) : Regs :=
  { r with v := r.v.set n (vecOf fun l => if inMask m l then f l else r.vl n l) }
/-- A pair written in the lanes of a mask. -/
def Regs.setP2 (r : Regs) (n : Nat) (m : Mask) (f : Nat → Nat) : Regs :=
  (r.setV n m fun l => BitVec.ofNat 32 (f l)).setV (n + 1) m fun l => BitVec.ofNat 32 (f l / 2 ^ 32)
/-- A unit of the ETYPE written: a register, or a pair under ETYPE 12 and 13. -/
def Regs.setU (r : Regs) (pair : Bool) (n : Nat) (m : Mask) (f : Nat → Nat) : Regs :=
  if pair then r.setP2 n m f else r.setV n m fun l => BitVec.ofNat 32 (f l)
/-- A unit of the ETYPE read in a lane. -/
def Regs.vu (r : Regs) (pair : Bool) (n l : Nat) : Nat := if pair then r.vp n l else (r.vl n l).toNat
/-- A uniform register written; uniform writes are not gated (R49). -/
def Regs.setS (r : Regs) (n : Nat) (x : DWord) : Regs := { r with s := r.s.set n x }
/-- A predicate written in the lanes of a mask; writes to p15 are discarded (R44). -/
def Regs.setPr (r : Regs) (n : Nat) (m bits : Mask) : Regs :=
  if n = 15 then r else { r with p := r.p.set n ((bits &&& m) ||| (r.pr n &&& ~~~m)) }
/-- A tile register written. -/
def Regs.setT (r : Regs) (n : Nat) (x : Tile) : Regs := { r with t := r.t.set n x }

/-- The lanes that an instruction writes: active, with the GUARD predicate set (R49). -/
def Group.writers (g : Group) : Mask := g.active &&& g.regs.pr (mGuard g.regs.mode)
/-- The helper mask (R16). -/
def Group.helpers (g : Group) : Mask :=
  maskOf fun l => match g.items.getD l none with
    | some it => it.helper
    | none => false
/-- The member lanes of the group: those that hold an item in the extent or a helper. -/
def Group.items? (g : Group) (l : Nat) : Bool := (g.items.getD l none).isSome
/-- Registers allocated to the group (R43). -/
def Group.nregs (g : Group) : Nat := g.regs.v.length

/-! ### The table of instructions -/

/-- Classes of instructions (R101, R107). -/
inductive IClass where
  | short | longA | longB | waiting | event
  deriving DecidableEq, Repr

/-- The order of levels. -/
def Level.num : Level → Nat
  | .u => 0
  | .s => 1
  | .m => 2

/-- Cause codes (R372). -/
def Cause.code : Cause → Nat
  | .illegal => 1
  | .priv => 2
  | .depmiss => 3
  | .misalign => 4
  | .pagefault => 5
  | .tagfault => 6
  | .layout => 7
  | .dieoff => 8
  | .poison => 9
  | .preempt => 10
  | .user => 11
  | .bkpt => 12
  | .physrange => 13
  | .ordabandon => 14

/-- Registers of a unit of the ETYPE (R156). -/
def uReg (m : Word) (n : Nat) : List Reg := if mPair m then [.v n, .v (n + 1)] else [.v n]
/-- `k` consecutive vector registers. -/
def vRegs (n k : Nat) : List Reg := (List.range k).map fun i => .v (n + i)
/-- Data registers of an access size (R204). -/
def zRegs (z : Size) (d : Nat) : List Reg :=
  match z with
  | .b64 => vRegs d 2
  | .b128 => vRegs d 4
  | _ => vRegs d 1
end Sys2Proof.Machine

namespace Sys2Proof
open Sys2Proof.Machine

/-- Bytes of an access size (R103). -/
def Size.bytes : Size → Nat
  | .n8 => 1
  | .i8 => 1
  | .n16 => 2
  | .i16 => 2
  | .b32 => 4
  | .b64 => 8
  | .b128 => 16

/-- The class of an instruction (R101, R102). -/
def Instr.cls : Instr → IClass
  | .qcvt _ _ _ => .longB
  | .rcp _ _ => .longB
  | .rsq _ _ => .longB
  | .sqrt _ _ => .longB
  | .exp2 _ _ => .longB
  | .log2 _ _ => .longB
  | .sint _ _ => .longB
  | .cost _ _ => .longB
  | .tanh _ _ => .longB
  | .ld _ _ _ _ _ _ => .longA
  | .st _ _ _ _ _ => .longA
  | .lds _ _ _ => .longA
  | .sts _ _ _ => .longA
  | .ldl _ _ _ _ => .longA
  | .stl _ _ _ _ => .longA
  | .ldc _ _ _ _ => .longA
  | .stc _ _ _ _ => .longA
  | .ldp _ _ _ _ _ => .longA
  | .stp _ _ _ _ _ => .longA
  | .atom _ _ _ _ _ _ _ _ _ => .longA
  | .atoml _ _ _ _ _ _ _ _ => .longA
  | .atomc _ _ _ _ _ _ _ => .longA
  | .redst _ _ _ _ _ _ _ => .longA
  | .redc _ _ _ _ _ => .longA
  | .fence _ => .waiting
  | .xfence _ _ => .waiting
  | .bar _ _ => .waiting
  | .barwait _ => .waiting
  | .bcwait _ _ => .waiting
  | .mbxrecv _ _ => .waiting
  | .ordent _ _ => .waiting
  | .regroup _ => .waiting
  | .pyield => .waiting
  | .bcinit _ _ => .longA
  | .cpyk _ _ => .longA
  | .claim _ _ _ => .longA
  | .pin _ _ => .longA
  | .unpin _ _ => .longA
  | .pref _ _ _ _ => .longA
  | .tagset _ _ _ => .longA
  | .tagget _ _ _ => .longA
  | .cacheop _ _ _ => .longA
  | .pubw _ _ => .longA
  | .acqw _ _ => .longA
  | .mbxsend _ _ _ => .longA
  | .spawn _ _ _ _ _ => .longA
  | .azero _ => .longB
  | .mma _ _ _ _ => .longB
  | .mmap _ _ _ _ => .longB
  | .mmabs _ _ _ _ _ => .longB
  | .aload _ _ => .longB
  | .amov _ _ => .longB
  | .adrain _ _ _ _ => .longB
  | .agdrain _ _ _ => .longB
  | .astash _ _ _ => .longB
  | .hcfg _ _ => .longA
  | .hgather _ _ _ _ _ => .longA
  | .hscatter _ _ _ _ _ => .longA
  | .draw _ _ _ _ => .longA
  | .tsamp _ _ _ _ _ _ => .longA
  | .rbox _ _ _ _ => .longA
  | .rtri _ _ _ _ _ => .longA
  | .route _ _ _ => .longA
  | .xdone _ => .longA
  | i => if encode i = [] then .event else .short

/-- Registers that an instruction reads besides the GUARD predicate (R108), under MODE. -/
def Instr.reads (m : Word) : Instr → List Reg
  | .iadd _ a b => uReg m a ++ uReg m b
  | .isub _ a b => uReg m a ++ uReg m b
  | .imul _ a b => uReg m a ++ uReg m b
  | .imulhi _ a b => uReg m a ++ uReg m b
  | .imulhn _ a b => uReg m a ++ uReg m b
  | .imad d a b => uReg m a ++ uReg m b ++ uReg m d
  | .iand _ a b => [.v a, .v b]
  | .ior _ a b => [.v a, .v b]
  | .ixor _ a b => [.v a, .v b]
  | .ishl _ a b => uReg m a ++ uReg m b
  | .ishr _ a b => uReg m a ++ uReg m b
  | .isra _ a b => uReg m a ++ uReg m b
  | .imin _ a b => uReg m a ++ uReg m b
  | .imax _ a b => uReg m a ++ uReg m b
  | .iminn _ a b => uReg m a ++ uReg m b
  | .imaxn _ a b => uReg m a ++ uReg m b
  | .iabs _ a => uReg m a
  | .clz _ a => [.v a]
  | .popc _ a => [.v a]
  | .brev _ a => [.v a]
  | .bfe _ a b => [.v a, .v b]
  | .bfi d a b => [.v a, .v b, .v d]
  | .intlv2 _ a b => [.v a, .v b]
  | .intlv3 d a b => [.v a, .v b, .v d]
  | .mov _ a => [.v a]
  | .movs _ a _ => [.s a]
  | .icmp _ _ _ a b => uReg m a ++ uReg m b
  | .iaddi _ a _ => uReg m a
  | .ishli _ a _ => uReg m a
  | .movhi d _ => [.v d]
  | .setmodeReg _ a => [.s a]
  | .isel d a _ p => [.v a, .p p, .v d]
  | .pand _ a b => [.p a, .p b]
  | .por _ a b => [.p a, .p b]
  | .pxor _ a b => [.p a, .p b]
  | .pandn _ a b => [.p a, .p b]
  | .pcnt _ a => [.p a]
  | .pfirst _ a => [.p a]
  | .ptos _ a _ => [.p a]
  | .stop _ a _ => [.s a]
  | .sadd _ a b _ => [.s a, .s b]
  | .ssub _ a b _ => [.s a, .s b]
  | .smul _ a b _ => [.s a, .s b]
  | .smulh _ a b _ _ => [.s a, .s b]
  | .sand _ a b _ => [.s a, .s b]
  | .sor _ a b _ => [.s a, .s b]
  | .sxor _ a b _ => [.s a, .s b]
  | .sshl _ a b _ => [.s a, .s b]
  | .sshr _ a b _ => [.s a, .s b]
  | .ssra _ a b _ => [.s a, .s b]
  | .smin _ a b _ _ => [.s a, .s b]
  | .smax _ a b _ _ => [.s a, .s b]
  | .scmp a b => [.s a, .s b]
  | .ssel _ a b _ => [.s a, .s b]
  | .smov _ a => [.s a]
  | .saddImm _ a _ => [.s a]
  | .smovhi _ a _ => [.s a]
  | .fadd _ a b => [.v a, .v b]
  | .fsub _ a b => [.v a, .v b]
  | .fmul _ a b => [.v a, .v b]
  | .fmad d a b => [.v a, .v b, .v d]
  | .fmsb d a b => [.v a, .v b, .v d]
  | .fmin _ a b => [.v a, .v b]
  | .fmax _ a b => [.v a, .v b]
  | .fneg _ a => [.v a]
  | .fabs _ a => [.v a]
  | .fcmp _ _ a b => [.v a, .v b]
  | .fclass _ a => [.v a]
  | .frndi _ a => [.v a]
  | .fscale _ a b => [.v a, .v b]
  | .fdot2 d a b => [.v a, .v b, .v d]
  | .cvt d a _ t =>
      (if mPair m then vRegs a 2 else [.v a]) ++
      (if (mEt m).count < t.count then (if t.width = 64 then vRegs d 2 else [.v d]) else [])
  | .cvti d a _ t =>
      (if mPair m then vRegs a 2 else [.v a]) ++
      (if (mEt m).count < t.count then (if t.width = 64 then vRegs d 2 else [.v d]) else [])
  | .packb _ a b => [.v a, .v b]
  | .permb d a b => [.v a, .v b, .v d]
  | .qcvt _ a s => vRegs a (if mEtype m == 5 then 8 else 4) ++ [.s s]
  | .setseed a b => [.v a, .s b]
  | .rcp _ a => [.v a]
  | .rsq _ a => [.v a]
  | .sqrt _ a => [.v a]
  | .exp2 _ a => [.v a]
  | .log2 _ a => [.v a]
  | .sint _ a => [.v a]
  | .cost _ a => [.v a]
  | .tanh _ a => [.v a]
  | .shflIdx _ a _ b => [.v a, .v b]
  | .shflUp _ a _ _ => [.v a]
  | .shflDn _ a _ _ => [.v a]
  | .shflXor _ a _ _ => [.v a]
  | .shflUpw _ a _ _ => [.v a]
  | .shflDnw _ a _ _ => [.v a]
  | .shflXorw _ a _ _ => [.v a]
  | .qswap _ a _ => [.v a]
  | .qddx _ a _ => [.v a]
  | .qddy _ a _ => [.v a]
  | .redlog _ a _ => [.v a]
  | .scanlog _ a _ _ => [.v a]
  | .rdfirst _ a w => if w then vRegs a 2 else [.v a]
  | .rdlane _ a b => [.v a, .s b]
  | .ballot _ a => [.p a]
  | .vote _ a _ => [.p a]
  | .vmatch _ a => [.v a]
  | .vmatchf _ a => [.v a]
  | .brz p _ => [.p p]
  | .brnz p _ => [.p p]
  | .mif p _ => [.p p]
  | .mbrk p _ => [.p p]
  | .mcont p _ => [.p p]
  | .ld _ s o _ _ _ => [.s s, .v o]
  | .st d s o z _ => [.s s, .v o] ++ zRegs z d
  | .lds _ a _ => [.s a]
  | .sts d a _ => [.s a, .s d]
  | .ldl _ s o _ => [.s s, .v o]
  | .stl d s o z => [.s s, .v o] ++ zRegs z d
  | .ldc _ s o _ => [.s s, .v o]
  | .stc d s o z => [.s s, .v o] ++ zRegs z d
  | .ldp _ s o _ _ => [.s s, .v o, .s 60]
  | .stp d s o z _ => [.s s, .v o, .s 60] ++ zRegs z d
  | .atom _ s o z _ b c op _ => [.s s, .v o] ++ zRegs z b ++ (if op = .cas then zRegs z c else [])
  | .atoml _ s o z b c op _ => [.s s, .v o] ++ zRegs z b ++ (if op = .cas then zRegs z c else [])
  | .atomc _ s o b c op _ => [.s s, .v o, .v b] ++ (if op = .cas then [.v c] else [])
  | .redst d s o z _ _ _ => [.s s, .v o] ++ zRegs z d
  | .redc d s o _ _ => [.s s, .v o, .v d]
  | .bcinit a _ => [.s a]
  | .cpyk _ a => [.s a]
  | .claim _ b a => [.s a, .s b]
  | .pin _ a => [.s a]
  | .unpin _ a => [.s a]
  | .pref _ _ o a => [.s a, .v o]
  | .tagset t o a => [.s a, .v o, .v t]
  | .tagget _ o a => [.s a, .v o]
  | .cacheop _ o a => [.s a, .v o]
  | .pubw b a => [.s a, .s b]
  | .acqw _ a => [.s a]
  | .mbxsend a _ _ => [.s a]
  | .mbxrecv _ a => [.s a]
  | .spawn _ a s sig _ => [.s a] ++ (if sig then [.s s] else [])
  | .tdesc b a _ => [.s a, .s b]
  | .mma _ t a _ => [.t t] ++ vRegs a 16
  | .mmap _ t a _ => [.t t] ++ vRegs a 16
  | .mmabs _ t a _ s => [.t t] ++ vRegs a 16 ++ vRegs s 4
  | .aload t _ => [.t t]
  | .adrain band s _ t => [.t t] ++ (if band then [.s s] else [])
  | .agdrain o b _ => [.s b, .v o]
  | .astash _ q p => [.t q, .t p]
  | .hcfg _ a => [.s a]
  | .hgather _ a s _ _ => [.s s, .v a]
  | .hscatter d a s _ _ => [.s s, .v a, .v d]
  | .draw _ a _ _ => [.s a]
  | .ordent k p => vRegs k 2 ++ [.v p]
  | .tsamp _ c s x l md => [.s s, .v c, .v x] ++ (if md = .q then [] else [.v l])
  | .rbox _ y s n => [.s s, .v n] ++ vRegs y 8
  | .rtri _ y s n _ => [.s s, .v n] ++ vRegs y 8
  | .regroup k => [.v k]
  | .route _ e _ => [.v e]
  | .xdone t => vRegs t 2
  | .csrw _ a => [.s a]
  | .ret => [.s 63]
  | .jmps a => [.s a]
  | _ => []

/-- Registers that an instruction writes, under MODE. -/
def Instr.defs (m : Word) : Instr → List Reg
  | .iadd d _ _ => uReg m d
  | .isub d _ _ => uReg m d
  | .imul d _ _ => uReg m d
  | .imulhi d _ _ => uReg m d
  | .imulhn d _ _ => uReg m d
  | .imad d _ _ => uReg m d
  | .iand d _ _ => [.v d]
  | .ior d _ _ => [.v d]
  | .ixor d _ _ => [.v d]
  | .ishl d _ _ => uReg m d
  | .ishr d _ _ => uReg m d
  | .isra d _ _ => uReg m d
  | .imin d _ _ => uReg m d
  | .imax d _ _ => uReg m d
  | .iminn d _ _ => uReg m d
  | .imaxn d _ _ => uReg m d
  | .iabs d _ => uReg m d
  | .clz d _ => [.v d]
  | .popc d _ => [.v d]
  | .brev d _ => [.v d]
  | .bfe d _ _ => [.v d]
  | .bfi d _ _ => [.v d]
  | .intlv2 d _ _ => [.v d]
  | .intlv3 d _ _ => [.v d]
  | .mov d _ => [.v d]
  | .movs d _ _ => [.v d]
  | .icmp _ _ p _ _ => [.p p]
  | .iaddi d _ _ => uReg m d
  | .ishli d _ _ => uReg m d
  | .movi d _ => [.v d]
  | .movhi d _ => [.v d]
  | .idx d _ => [.v d]
  | .sread d _ _ => [.s d]
  | .spanq d => [.s d]
  | .getmode d => [.s d]
  | .isel d _ _ _ => [.v d]
  | .pand d _ _ => [.p d]
  | .por d _ _ => [.p d]
  | .pxor d _ _ => [.p d]
  | .pandn d _ _ => [.p d]
  | .pcnt d _ => [.s d]
  | .pfirst d _ => [.p d]
  | .ptos d _ _ => [.s d]
  | .stop d _ _ => [.p d]
  | .sadd d _ _ _ => [.s d]
  | .ssub d _ _ _ => [.s d]
  | .smul d _ _ _ => [.s d]
  | .smulh d _ _ _ _ => [.s d]
  | .sand d _ _ _ => [.s d]
  | .sor d _ _ _ => [.s d]
  | .sxor d _ _ _ => [.s d]
  | .sshl d _ _ _ => [.s d]
  | .sshr d _ _ _ => [.s d]
  | .ssra d _ _ _ => [.s d]
  | .smin d _ _ _ _ => [.s d]
  | .smax d _ _ _ _ => [.s d]
  | .ssel d _ _ _ => [.s d]
  | .smov d _ => [.s d]
  | .smovi d _ => [.s d]
  | .saddImm d _ _ => [.s d]
  | .smovhi d _ _ => [.s d]
  | .fadd d _ _ => [.v d]
  | .fsub d _ _ => [.v d]
  | .fmul d _ _ => [.v d]
  | .fmad d _ _ => [.v d]
  | .fmsb d _ _ => [.v d]
  | .fmin d _ _ => [.v d]
  | .fmax d _ _ => [.v d]
  | .fneg d _ => [.v d]
  | .fabs d _ => [.v d]
  | .fcmp _ p _ _ => [.p p]
  | .fclass d _ => [.v d]
  | .frndi d _ => [.v d]
  | .fscale d _ _ => [.v d]
  | .fdot2 d _ _ => [.v d]
  | .cvt d _ _ t => if t.width = 64 then vRegs d 2 else [.v d]
  | .cvti d _ _ t => if t.width = 64 then vRegs d 2 else [.v d]
  | .packb d _ _ => [.v d]
  | .permb d _ _ => [.v d]
  | .qcvt d _ _ => [.v d]
  | .rcp d _ => [.v d]
  | .rsq d _ => [.v d]
  | .sqrt d _ => [.v d]
  | .exp2 d _ => [.v d]
  | .log2 d _ => [.v d]
  | .sint d _ => [.v d]
  | .cost d _ => [.v d]
  | .tanh d _ => [.v d]
  | .shflIdx d _ o _ => [.v d] ++ (if o then [.p 13] else [])
  | .shflUp d _ o _ => [.v d] ++ (if o then [.p 13] else [])
  | .shflDn d _ o _ => [.v d] ++ (if o then [.p 13] else [])
  | .shflXor d _ o _ => [.v d] ++ (if o then [.p 13] else [])
  | .shflUpw d _ o _ => [.v d] ++ (if o then [.p 13] else [])
  | .shflDnw d _ o _ => [.v d] ++ (if o then [.p 13] else [])
  | .shflXorw d _ o _ => [.v d] ++ (if o then [.p 13] else [])
  | .qswap d _ _ => [.v d]
  | .qddx d _ _ => [.v d]
  | .qddy d _ _ => [.v d]
  | .redlog d _ _ => [.v d]
  | .scanlog d _ _ _ => [.v d]
  | .rdfirst d _ _ => [.s d]
  | .rdlane d _ _ => [.s d]
  | .ballot d _ => vRegs d 2
  | .vote d _ _ => [.p d]
  | .vmatch d _ => vRegs d 2
  | .vmatchf d _ => vRegs d 2
  | .call _ => [.s 63]
  | .ld d _ _ z _ nr => zRegs z d ++ (if nr then [.p 14] else [])
  | .lds d _ _ => [.s d]
  | .ldl d _ _ z => zRegs z d
  | .ldc d _ _ z => zRegs z d
  | .ldp d _ _ z _ => zRegs z d
  | .atom d _ _ z _ _ _ _ _ => zRegs z d
  | .atoml d _ _ z _ _ _ _ => zRegs z d
  | .atomc d _ _ _ _ _ _ => [.v d]
  | .bcwait d _ => [.s d]
  | .claim d _ _ => [.s d]
  | .pin d _ => [.s d]
  | .unpin d _ => [.s d]
  | .tagget d _ _ => [.v d]
  | .acqw d _ => [.s d]
  | .mbxrecv d _ => [.s d]
  | .spawn d _ _ _ _ => [.s d]
  | .tdesc _ _ d => [.t d]
  | .hcfg d _ => [.s d]
  | .hgather d _ _ _ _ => [.v d]
  | .draw d _ _ _ => [.s d]
  | .tsamp d _ _ _ _ _ => vRegs d 4
  | .rbox d _ _ _ => vRegs d 8
  | .rtri d _ _ _ _ => vRegs d 4
  | .route _ _ d => vRegs d 2
  | .csrr _ d => [.s d]
  | _ => []

/-- Whether the GUARD predicate gates what the instruction writes, so that it reads it (R49, R200). STOP.hi writes no lane at
W = 64 (R11, R168), and R49 has an instruction that writes nothing read no GUARD; whether that holds of an instruction that
writes no lane on this machine is not said: STOP.hi reads GUARD and takes pD as written, as STOP does (DESIGN CHOICE, log
entry 119). -/
def Instr.gated : Instr → Bool
  | .movs _ _ _ => true
  | .movi _ _ => true
  | .idx _ _ => true
  | .setseed _ _ => true
  | .rdfirst _ _ _ => false
  | .rdlane _ _ _ => false
  | .pcnt _ _ => false
  | .ptos _ _ _ => false
  | .lds _ _ _ => false
  | .sts _ _ _ => false
  | .acqw _ _ => false
  | .st _ _ _ _ _ => true
  | .stl _ _ _ _ => true
  | .stc _ _ _ _ => true
  | .stp _ _ _ _ _ => true
  | .redst _ _ _ _ _ _ _ => true
  | .redc _ _ _ _ _ => true
  | .pref _ _ _ _ => true
  | .tagset _ _ _ => true
  | .cacheop _ _ _ => true
  | .agdrain _ _ _ => true
  | .adrain _ _ _ _ => true
  | .astash _ _ _ => true
  | .hscatter _ _ _ _ _ => true
  | .xdone _ => true
  | .brz _ _ => false
  | .brnz _ _ => false
  | .mif _ _ => false
  | .mbrk _ _ => false
  | .mcont _ _ => false
  | .ordent _ _ => false
  | .regroup _ => false
  | i => (i.defs 0).any fun r => match r with
    | .v _ => true
    | .p _ => true
    | _ => false

/-- Whether MODE's ETYPE, RND and MFMT admit the instruction (R105 step 3; R160, R169, R181, R183, R185,
R190, R192, R195, R248, R255 to R257). -/
def Instr.modeAdmits (m : Word) : Instr → Bool
  | .icmp _ _ _ _ _ => mEtype m ≤ 7 || mPair m
  | .fadd _ _ _ => mEtype m ≤ 2
  | .fsub _ _ _ => mEtype m ≤ 2
  | .fmul _ _ _ => mEtype m ≤ 2
  | .fmad _ _ _ => mEtype m ≤ 2
  | .fmsb _ _ _ => mEtype m ≤ 2
  | .fmin _ _ _ => mEtype m ≤ 2
  | .fmax _ _ _ => mEtype m ≤ 2
  | .fneg _ _ => mEtype m ≤ 5
  | .fabs _ _ => mEtype m ≤ 5
  | .fcmp _ _ _ _ => mEtype m == 0
  | .fclass _ _ => mEtype m ≤ 2
  | .frndi _ _ => mEtype m ≤ 2
  | .fscale _ _ _ => mEtype m ≤ 2
  | .fdot2 _ _ _ => mEtype m == 1 || mEtype m == 2
  | .cvt _ _ k t =>
      let ns := (mEt m).count
      let nd := t.count
      if ns == nd then k == 0 else if ns < nd then k < nd / ns else k < ns / nd
  | .packb _ _ _ =>
      [1, 2, 8, 9, 3, 4, 10, 11, 5].contains (mEtype m)
  | .qcvt _ a _ => (mEtype m == 5 && a % 8 == 0) || ((mEtype m == 3 || mEtype m == 4) && a % 4 == 0)
  | .rcp _ _ => mEtype m ≤ 1
  | .rsq _ _ => mEtype m ≤ 1
  | .sqrt _ _ => mEtype m ≤ 1
  | .exp2 _ _ => mEtype m ≤ 1
  | .log2 _ _ => mEtype m ≤ 1
  | .sint _ _ => mEtype m ≤ 1
  | .cost _ _ => mEtype m ≤ 1
  | .tanh _ _ => mEtype m ≤ 1
  | .qddx _ _ _ => mEtype m ≤ 2
  | .qddy _ _ _ => mEtype m ≤ 2
  | .redlog _ _ o => 8 > o.code || (mEtype m ≤ 2 && mRndCode m != 5)
  | .scanlog _ _ _ o => 8 > o.code || (mEtype m ≤ 2 && mRndCode m != 5)
  | .vmatchf _ _ => mEtype m == 0
  | .azero _ => mMfmt m < 6
  | .mma _ _ _ _ => mMfmt m < 6 && mMfmt m != 4
  | .mmap _ _ _ _ => mMfmt m < 6 && mMfmt m != 4
  | .mmabs _ _ _ _ _ => mMfmt m == 4
  | .aload _ _ => mMfmt m < 6
  | .amov _ _ => mMfmt m < 6
  | .adrain band _ _ _ => mMfmt m < 6 && (!band || mMfmt m != 5)
  | .agdrain _ _ _ => mMfmt m < 5
  | .astash _ _ _ => mMfmt m < 5
  | _ => true

/-- Accumulators that an instruction names (R247). -/
def Instr.accs : Instr → List Nat
  | .azero d => [d]
  | .mma _ _ _ d => [d]
  | .mmap _ _ _ d => [d]
  | .mmabs _ _ _ d _ => [d]
  | .aload _ d => [d]
  | .amov a d => [a, d]
  | .adrain _ _ a _ => [a]
  | .agdrain _ _ a => [a]
  | .astash a _ _ => [a]
  | _ => []

/-- Instructions that name pairs under ETYPE 12 and 13: an odd field then is ILLEGAL (R156). -/
def Instr.pairOk (m : Word) (i : Instr) : Bool :=
  let ev (l : List Nat) : Bool := !mPair m || l.all fun n => n % 2 == 0
  match i with
  | .iadd d a b => ev [d, a, b]
  | .isub d a b => ev [d, a, b]
  | .imul d a b => ev [d, a, b]
  | .imulhi d a b => ev [d, a, b]
  | .imulhn d a b => ev [d, a, b]
  | .imad d a b => ev [d, a, b]
  | .ishl d a b => ev [d, a, b]
  | .ishr d a b => ev [d, a, b]
  | .isra d a b => ev [d, a, b]
  | .imin d a b => ev [d, a, b]
  | .imax d a b => ev [d, a, b]
  | .iminn d a b => ev [d, a, b]
  | .imaxn d a b => ev [d, a, b]
  | .iabs d a => ev [d, a]
  | .icmp _ _ _ a b => ev [a, b]
  | .iaddi d a _ => ev [d, a]
  | .ishli d a _ => ev [d, a]
  | .cvt d a _ t => ev [a] && (t.width != 64 || d % 2 == 0)
  | .cvti d a _ t => ev [a] && (t.width != 64 || d % 2 == 0)
  | _ => true

/-- Vector registers that must lie in the allocation beyond those read and written (R264, R268). -/
def Instr.named (m : Word) (i : Instr) : List Nat :=
  (i.reads m ++ i.defs m).filterMap fun r => match r with
    | .v n => some n
    | _ => none

/-- Where a control word may stand (R97): last word of its clause, or only word of a clause of LEN 1. -/
def Instr.placeOk (i : Instr) (k words len : Nat) : Bool :=
  let last := k + words - 1 == len
  match i with
  | .bra _ _ => last
  | .brz _ _ => last
  | .brnz _ _ => last
  | .call _ => last
  | .jmps _ => last
  | .ret => last
  | .exit => last
  | .trapu _ => last
  | .mif _ _ => last
  | .mbrk _ _ => last
  | .mcont _ _ => last
  | .melse _ => len == 1
  | .mend => len == 1
  | .mloop => len == 1
  | .mendl _ => len == 1
  | _ => true

/-- The lowest level that may run an instruction (R275, R276); U for every other. -/
def Instr.level : Instr → Level
  | .trap _ => .s
  | .hret => .s
  | .csrr r _ => if r.num < 0x400 then .u else if r.num < 0x800 then .s else .m
  | .csrw r _ => if r.num < 0x400 then .u else if r.num < 0x800 then .s else .m
  | _ => .u

/-- The instructions whose misaligned accesses the firmware routine performs (R199). -/
def Instr.emulates : Instr → Bool
  | .ld _ _ _ _ _ _ => true
  | .st _ _ _ _ _ => true
  | .lds _ _ _ => true
  | .sts _ _ _ => true
  | .ldl _ _ _ _ => true
  | .stl _ _ _ _ => true
  | .ldc _ _ _ _ => true
  | .stc _ _ _ _ => true
  | .ldp _ _ _ _ _ => true
  | .stp _ _ _ _ _ => true
  | _ => false

end Sys2Proof
end

