-- ==== Sys2Proof/Machine/Memory.lean ====
section
/-! DEFINITION. Memory behind the caches: the canonical memory operations, the physical map (R327), the
interleave and the units (R329 to R335, R346 to R348), key slots and ciphertext (R322, R453), lines at
their homes (R288, R294), leases and their summaries (R299), pending stores (R301 to R303). -/
namespace Sys2Proof.Machine

/-! ### Canonical memories -/

/-- The byte at an address. -/
def Memory.get (m : Memory) (a : Nat) : Byte :=
  match m with
  | [] => Memory.unlisted
  | c :: r => if c.1 = a then c.2 else Memory.get r a
/-- One byte written; a byte equal to what an unlisted address reads as is not listed. -/
def Memory.put (m : Memory) (a : Nat) (b : Byte) : Memory :=
  match m with
  | [] => if b = Memory.unlisted then [] else [(a, b)]
  | c :: r =>
    if a < c.1 then (if b = Memory.unlisted then c :: r else (a, b) :: c :: r)
    else if c.1 = a then (if b = Memory.unlisted then r else (a, b) :: r)
    else c :: Memory.put r a b
/-- `n` bytes from an address. -/
def Memory.read (m : Memory) (a n : Nat) : List Byte := (List.range n).map fun i => m.get (a + i)
/-- Bytes written from an address on. -/
def Memory.write (m : Memory) (a : Nat) : List Byte → Memory
  | [] => m
  | b :: r => Memory.write (m.put a b) (a + 1) r
/-- The memory without the bytes of `[a, a+n)`. -/
def Memory.clear (m : Memory) (a n : Nat) : Memory := m.filter fun c => !(decide (a ≤ c.1) && decide (c.1 < a + n))

/-! ### Time (R297) -/

/-- GT as die `d` reads it: at most 2 ns ahead of the least. Dies 4 and 5 are the far-tier dies, which read the least. -/
def State.gtAt (s : State) (d : Nat) : Nat := s.gt + min 2 (s.skew.getD d 0)
/-- The die of a core (R3). -/
def coreDie (c : Nat) : Nat := c / 160
/-- The cluster of a core within the package. -/
def coreCluster (c : Nat) : Nat := c / 8
/-- GT on a core's die. -/
def State.gtOf (s : State) (core : Nat) : Nat := s.gtAt (coreDie core)
/-- A die's record. -/
def State.die (s : State) (d : Nat) : Die := s.dies.getD d Die.reset
/-- A die changed. -/
def State.modDie (s : State) (d : Nat) (f : Die → Die) : State := { s with dies := lmod s.dies d f }
/-- A fresh identifier. -/
def State.fresh (s : State) : Nat × State := (s.nextId, { s with nextId := s.nextId + 1 })
/-- `n` free values drawn: the index of the first. -/
def State.drawFree (s : State) (n : Nat) : Nat × State := (s.freeN, { s with freeN := s.freeN + n })

/-! ### The physical map (R327, R328) -/

/-- The region of a physical address and its base: 0 package, 1 to 4 die regions, 5 far tier. -/
def regionOf (pa : Nat) : Option (Nat × Nat) :=
  if pa < 0x008000000000 then some (0, 0)
  else if pa < 0x010000000000 then
    let d := (pa - 0x008000000000) / 0x002000000000
    some (1 + d, 0x008000000000 + d * 0x002000000000)
  else if 0x020000000000 ≤ pa ∧ pa < 0x040000000000 then some (5, 0x020000000000)
  else none

/-- The base address of a region. -/
def regionBase (r : Nat) : Nat :=
  match r with
  | 0 => 0
  | 5 => 0x020000000000
  | d => 0x008000000000 + (d - 1) * 0x002000000000

/-- A region's record. -/
def State.region (s : State) (r : Nat) : Region := s.regions.getD r (Region.bringUp 0)

/-- A depth field of CAPACITY or CAPTARGET, in units of 512 lines a cell (R339). -/
def depthField (cap r : Nat) : Nat := if r = 0 then nfld cap 0 12 else nfld cap (12 + 10 * (r - 1)) 10

/-- The current depth of a region in lines a cell: CAPACITY's for the near tier, which counts as zero below
service level 2 (R328, R445), the mapped depth for the far tier. -/
def State.depth (s : State) (r : Nat) : Nat :=
  if r = 5 then (s.region 5).depth
  else if s.mgmt.level < 2 then 0
  else depthField s.pkg.capacity r * 512

/-- Where a physical address leads, or none when it raises PHYSRANGE (R328). -/
def State.spaceOf (s : State) (pa : Nat) : Option Space :=
  match regionOf pa with
  | some (r, base) => if pa < base + 524288 * s.depth r then some .global else none
  | none =>
    if 0x400000000000 ≤ pa ∧ pa < 0x800000000000 then some .host
    else if 0x800000000000 ≤ pa ∧ pa < 0xC00000000000 then
      some (.peer ((pa - 0x800000000000) / 0x040000000000))
    else if 0xF00000000000 ≤ pa ∧ pa < 0xF00100000000 then some .window
    else none

/-! ### Interleave (R329, R330) -/

/-- The cell and row of line `n` of a region. -/
def Region.locate (g : Region) (n : Nat) : Nat × Nat :=
  let bitOf (i : Nat) : Nat :=
    (parity 12 (g.a.getD i 0 &&& (n % 4096)) + parity 24 (g.b.getD i 0 &&& (n / 4096))) % 2
  ((List.range 12).foldl (fun acc i => acc + bitOf i * 2 ^ i) 0, n / 4096)

/-- The unit, base and stride of a cell as the cell table has it (R330, R346); units 16 on are the
far-tier channels. -/
def State.cellEnt (s : State) (r cell : Nat) : Nat × Nat × Nat :=
  match tget (s.region r).moved cell with
  | some e => e
  | none =>
    match r with
    | 0 => (cell % 16, cell / 16, 256)
    | 5 => (16 + cell % 96, cell / 96, 43)
    | d => (4 * (d - 1) + cell % 4, cell / 4, 1024)

/-- The first line of a region's share of a unit (R330). -/
def shareBase (r : Nat) : Nat := if r = 0 ∨ r = 5 then 0 else 2 ^ 28

/-- A line of a unit as one number. -/
def unitLine (unit line : Nat) : Nat := 2 ^ 30 * unit + line

/-- The region and the region's line number of a physical line. -/
def lineRegion (ln : Nat) : Option (Nat × Nat) :=
  match regionOf (ln * 128) with
  | some (r, base) => some (r, ln - base / 128)
  | none => none

/-- The moving cell of a retirement that a physical line falls in, with its row. -/
def State.movingCell (s : State) (ln : Nat) : Option (MoveCell × Nat) :=
  match s.retire, lineRegion ln with
  | some rt, some (r, n) =>
    let cr := (s.region r).locate n
    match rt.cells.find? fun m => m.region == r && m.cell == cr.1 && !m.switched with
    | some m => some (m, cr.2)
    | none => none
  | _, _ => none

/-- Where a physical line is stored now: its unit line (R329, R348). -/
def State.unitOf (s : State) (ln : Nat) : Option Nat :=
  match lineRegion ln with
  | none => none
  | some (r, n) =>
    let cr := (s.region r).locate n
    let e := s.cellEnt r cr.1
    match s.movingCell ln with
    | some (m, row) =>
      if m.started && decide (row < m.mark) then
        some (unitLine m.stack (shareBase r + m.base + row))
      else some (unitLine e.1 (shareBase r + e.2.1 + cr.2 * e.2.2))
    | none => some (unitLine e.1 (shareBase r + e.2.1 + cr.2 * e.2.2))

/-- Whether a request for a line stalls at home: its row is being copied, or it lies in a top range that a
retirement is giving up (R348). -/
def State.unitStalls (s : State) (ln : Nat) : Bool :=
  (match s.movingCell ln with
   | some (m, row) => m.started && row == m.mark
   | none => false) ||
  (match s.retire, lineRegion ln with
   | some rt, some (r, n) =>
     let row := ((s.region r).locate n).2
     (r == 0 && decide (rt.pkgDepth ≤ row)) ||
     (r == rt.stack / 4 + 1 && decide (rt.dieDepth ≤ row))
   | _, _ => false)

/-- The home die of a line (R327): of the stack that held its cell at cold start, of its die region, or
cell[1:0] in the far tier. -/
def State.homeDie (s : State) (ln : Nat) : Nat :=
  match lineRegion ln with
  | none => 0
  | some (r, n) =>
    match r with
    | 0 => ((s.region 0).locate n).1 % 16 / 4
    | 5 => ((s.region 5).locate n).1 % 4
    | d => d - 1

/-! ### Units and ciphertext (R322) -/

/-- The generation of a key slot's key. -/
def State.keyGen (s : State) (k : Nat) : Nat :=
  match tget s.keys k with
  | some e => e.gen
  | none => 0
/-- Whether a key slot is keyed (R451). -/
def State.keyed (s : State) (k : Nat) : Bool :=
  match tget s.keys k with
  | some e => e.state == 1
  | none => false

/-- Whether a unit line lies on a stack that a retirement has powered down (R347): it keeps nothing, and what a read of it
returns the spec does not state (DESIGN CHOICE, log entry 106). -/
def State.poweredDown (s : State) (u : Nat) : Bool := nbit s.pkg.retired (u / 2 ^ 30)
/-- What a unit stores for a line beside its bytes; a line never written has tags 0 and no poison (R442), and one that cannot be
corrected comes with every sector poisoned (R348). -/
def State.unitMeta (s : State) (u : Nat) : Option UnitMeta :=
  if s.poweredDown u then
    some ⟨(List.range 4).map fun i => (Config.freeByte (s.freeN + 128 + i)).toNat % 16, [false, false, false, false], 0, s.keyGen 0⟩
  else if s.mem.bad.contains u then
    let m := (tget s.mem.umeta u).getD ⟨[0, 0, 0, 0], [], 0, s.keyGen 0⟩
    some { m with poison := [true, true, true, true] }
  else tget s.mem.umeta u

/-- A line's bytes as a fill through key slot `key` returns them: through another key than they were
encrypted with, the decryption's free bytes (R322, R453). -/
def State.unitBytes (s : State) (u key : Nat) : List Byte :=
  let raw := s.mem.units.read (u * 128) 128
  match s.unitMeta u with
  | none => raw
  | some m =>
    if m.slot = key ∧ m.gen = s.keyGen key ∧ !s.poweredDown u then raw
    else (List.range 128).map fun i => Config.freeByte (s.freeN + i)

/-- A unit line written: plaintext bytes under a key slot, with tags and poison; what it held before no longer matters. -/
def State.unitWrite (s : State) (u key : Nat) (data : List Byte) (tags : List Nat) (poison : List Bool) :
    State :=
  if s.poweredDown u then s
  else { s with mem := { s.mem with
      units := s.mem.units.write (u * 128) data
      umeta := tput s.mem.umeta u ⟨tags, poison, key, s.keyGen key⟩
      bad := s.mem.bad.filter fun b => b != u } }

/-! ### Lines at home -/

/-- The line held at its home, if it is. -/
def State.homeLine (s : State) (ln : Nat) : Option HomeLine := tget s.mem.home ln
/-- The line's control record. -/
def State.lineCtl (s : State) (ln : Nat) : LineCtl := (tget s.mem.lines ln).getD ⟨0, []⟩
/-- The line as its memory holds it now, for a fill through `key`. -/
def State.filled (s : State) (ln key : Nat) : HomeLine :=
  match s.unitOf ln with
  | some u =>
    let m := (s.unitMeta u).getD ⟨[0, 0, 0, 0], [false, false, false, false], key, s.keyGen key⟩
    ⟨s.unitBytes u key, m.tags, m.poison, false, false, key, false, false, 0⟩
  | none => ⟨List.replicate 128 0, [0, 0, 0, 0], [false, false, false, false], false, false, key, false, false, 0⟩
/-- A write-back of the line that has not reached its unit (R348), the latest. -/
def State.queuedWrite (s : State) (ln : Nat) : Option UnitReq :=
  (s.mem.unitq.map (·.2)).reverse.find? fun q => q.write && q.line == ln
/-- The line as the home would serve it: held, in a write-back, or filled. -/
def State.lineNow (s : State) (ln key : Nat) : HomeLine :=
  match s.homeLine ln with
  | some h => h
  | none =>
    match s.queuedWrite ln with
    | some q => ⟨q.data, q.tags, q.poison, true, false, q.key, false, false, 0⟩
    | none => s.filled ln key

/-- A line's bytes with the pending writes up to time `t` over them (R301, R303). -/
def overlayPend (pend : List PendW) (t : Nat) (data : List Byte) : List Byte :=
  pend.foldl (fun d p => if p.w ≤ t then overlay d p.off p.data else d) data

/-- A line's bytes as a plain read at its home sees them now (R303). -/
def State.seeLine (s : State) (ln key : Nat) : List Byte :=
  overlayPend (s.lineCtl ln).pend (s.gtAt (s.homeDie ln)) (s.lineNow ln key).data
/-- The bytes with every earlier arrival over them, as an atomic sees them (R302). -/
def State.futureLine (s : State) (ln key : Nat) : List Byte :=
  (s.lineCtl ln).pend.foldl (fun d p => overlay d p.off p.data) (s.lineNow ln key).data

/-- `n` bytes of global memory, within lines or across them, as plain reads see them now. -/
def State.see (s : State) (pa n key : Nat) : List Byte :=
  if pa % 128 + n ≤ 128 then slice (s.seeLine (pa / 128) key) (pa % 128) n
  else slice ((List.range (cdiv (pa % 128 + n) 128)).flatMap fun k => s.seeLine (pa / 128 + k) key) (pa % 128) n

/-- Whether a 32-byte sector in `[pa, pa+n)` is poisoned. -/
def State.poisonedAt (s : State) (pa n key : Nat) : Bool :=
  (List.range (cdiv (pa % 32 + n) 32)).any fun i =>
    let a := pa / 32 + i
    ((s.lineNow (a / 4) key).poison).getD (a % 4) false
/-- The tag of a granule (R323). -/
def State.granuleTag (s : State) (pa key : Nat) : Nat := ((s.lineNow (pa / 128) key).tags).getD (pa / 32 % 4) 0

/-! ### Lease summaries (R299) -/

/-- The table entry of a line's MSC slice that holds its summary while the line is absent. -/
def State.lsIndex (s : State) (ln : Nat) : Nat := 65536 * (64 * s.homeDie ln + ln % 64) + ln % 65536
/-- LS of a line. -/
def State.ls (s : State) (ln : Nat) : Nat :=
  match s.homeLine ln with
  | some h => h.ls
  | none => (tget s.mem.lsTab (s.lsIndex ln)).getD 0
/-- LS raised to `e`. -/
def State.raiseLs (s : State) (ln e : Nat) : State :=
  match s.homeLine ln with
  | some h => { s with mem := { s.mem with home := tput s.mem.home ln { h with ls := max h.ls e } } }
  | none => { s with mem := { s.mem with
      lsTab := tput s.mem.lsTab (s.lsIndex ln) (max e ((tget s.mem.lsTab (s.lsIndex ln)).getD 0)) } }

/-- Whether the home die of a line answers and grants leases: its STATE is 0 or 1 (R386, R408). -/
def State.homeUp (s : State) (ln : Nat) : Bool := (s.die (s.homeDie ln)).state ≤ 1

/-- Grant (R299): a lease on a line unless a store or atomic to it is pending; the expiry. -/
def State.grant (s : State) (ln : Nat) (lro : Bool) : Option Nat × State :=
  let g := s.gtAt (s.homeDie ln)
  if (s.lineCtl ln).pend.any fun p => decide (g < p.w) then (none, s)
  else
    let e := g + (if lro then s.pkg.leaseRo else s.pkg.leaseRw)
    (some e, s.raiseLs ln e)

/-- LeaseValid (R300) on die `d`. -/
def State.leaseValid (s : State) (d e : Nat) : Bool := decide (s.gtAt d + 2 < e)

/-! ### L2 and MSC ways (R284, R288 to R290, R294 to R296) -/

/-- The L2 set of a line on a die: slice and set. -/
def l2Set (ln : Nat) : Nat × Nat := (ln % 80, ln / 80 % 1024)
/-- The MSC set of a line. -/
def mscSet (ln : Nat) : Nat × Nat := (ln % 64, ln / 64 % 8192)

/-- L2 ways that launches have carved out on a die (R284). -/
def State.carved (s : State) (d : Nat) : Nat :=
  s.launches.foldl (fun n e =>
    if e.2.csp ≠ 0 ∧ (tget s.mem.scratch (e.1 * 4 + d)).isSome then n + e.2.csp / 524288 else n) 0
/-- Ways that retention registers reserve in a slice of a die. -/
def State.reservedWays (s : State) (d slice : Nat) : Nat :=
  (s.die d).retain.foldl (fun n r => if r.valid && nbit r.mask slice then n + r.ways else n) 0

/-- The retention register whose range an access falls in: the lowest-numbered (R290). -/
def State.retainOf (s : State) (d ctx va : Nat) : Option Nat :=
  findN 4 fun i =>
    let r := (s.die d).retain.getD i Retain.reset
    r.valid && r.ctx == ctx && decide (r.base ≤ va) && decide (va < r.base + r.len)

/-- A line's bytes on their way to its unit (R296). -/
def State.writeBack (s : State) (ln : Nat) (h : HomeLine) : State :=
  let f := s.fresh
  { f.2 with mem := { f.2.mem with
      unitq := tput f.2.mem.unitq f.1 ⟨ln, true, h.data, h.tags, h.poison, h.key, f.2.pkg.migphase⟩ } }
/-- A line leaves the home: dirty bytes go to its unit as a write-back (R296). -/
def State.dropHome (s : State) (ln : Nat) : State :=
  match s.homeLine ln with
  | none => s
  | some h =>
    let s1 := { s with mem := { s.mem with home := tdel s.mem.home ln } }
    let s2 := s1.raiseLs ln h.ls
    if h.dirty || h.mdirty then s2.writeBack ln h else s2

/-- Louvre hash bits of a line (R295). -/
def louvreBits (n : Nat) : List Nat :=
  [0x9E3779B97F4A7C15, 0xC2B2AE3D27D4EB4F, 0x165667B19E3779F9].map fun k => n * k % 2 ^ 64 / 2 ^ 48
/-- A slice's filter. -/
def State.louvreOf (s : State) (d slice : Nat) : Louvre := (tget s.mem.louvre (d * 64 + slice)).getD ⟨0, 0, 0⟩
/-- A filter after 2^18 misses: the standby filter, cleared, becomes active. -/
def Louvre.swap (f : Louvre) : Louvre := if f.misses < 262144 then f else ⟨0, f.active, f.misses - 262144⟩
/-- Whether either filter of a line's slice holds the line. -/
def State.louvreHolds (s : State) (d ln : Nat) : Bool :=
  let f := s.louvreOf d (ln % 64)
  (louvreBits ln).all (nbit f.active) || (louvreBits ln).all (nbit f.standby)
/-- A miss tested in both filters, and remembered where neither holds it: whether the line is allocated, and the filter after
it. -/
def Louvre.miss (f : Louvre) (bits : List Nat) : Bool × Louvre :=
  if bits.all (nbit f.active) || bits.all (nbit f.standby) then (true, { f with misses := f.misses + 1 })
  else (false, { f with active := bits.foldl (fun a b => setBit a b true) f.active, misses := f.misses + 1 })
/-- A miss of a line in its slice's filter: whether the line is allocated. A swap that is due comes first. -/
def State.louvreMiss (s : State) (d ln : Nat) : Bool × State :=
  let r := (s.louvreOf d (ln % 64)).swap.miss (louvreBits ln)
  (r.1, { s with mem := { s.mem with louvre := tput s.mem.louvre (d * 64 + ln % 64) r.2 } })

/-- A miss in a line's MSC slice: whether the line is allocated there. The filter answers under the normal hint and `.ef`; no
other hint reads it (R205, R295). -/
def State.mscMiss (s : State) (ln : Nat) (h : Hint) : Bool × State :=
  match h with
  | .na => (false, s)
  | .el => (true, s)
  | _ => if s.mgmt.level < 3 then (false, s) else s.louvreMiss (s.homeDie ln) ln

/-- The recency that an allocation hint gives (R205). -/
def hintAge (now : Nat) (h : Hint) : Nat :=
  match h with
  | .ef => 0
  | .el => 2 ^ 60 + now
  | _ => now + 1

/-- The way entry of a line in an L2 (`d < 4`) or an MSC (`4 + d`). -/
def State.wayOf (s : State) (d ln : Nat) : Option WayEnt :=
  s.mem.ways.find? fun w => w.die == d && w.line == ln
/-- A way entry removed. -/
def State.delWay (s : State) (d ln : Nat) : State :=
  { s with mem := { s.mem with ways := s.mem.ways.filter fun w => !(w.die == d && w.line == ln) } }
/-- A way entry added, as the most recent of all. -/
def State.addWay (s : State) (w : WayEnt) : State :=
  { s with nextId := s.nextId + 1, mem := { s.mem with ways := w :: s.mem.ways } }

/-- Where the home MSC keeps a line that leaves L2 or fills (R296): allocated, a victim of its set dropped. -/
def State.mscAlloc (s : State) (ln : Nat) (h : Hint) : State :=
  let d := s.homeDie ln
  if s.mgmt.level < 3 then s
  else match s.homeLine ln with
    | none => s
    | some hl =>
      if h = .na then s
      else if hl.inMsc then
        match s.wayOf (4 + d) ln with
        | some w => (s.delWay (4 + d) ln).addWay { w with age := hintAge s.nextId h }
        | none => s
      else
        let set := s.mem.ways.filter fun w => w.die == 4 + d && mscSet w.line == mscSet ln
        let s1 := if set.length < 16 then s
          else match argMin (fun w : WayEnt => w.age) set with
            | none => s
            | some v =>
              let s2 := s.delWay (4 + d) v.line
              match s2.homeLine v.line with
              | some vl =>
                if vl.inL2 then
                  let s3 := { s2 with mem := { s2.mem with home := tput s2.mem.home v.line { vl with inMsc := false, mdirty := false } } }
                  if vl.mdirty then s3.writeBack v.line vl else s3
                else s2.dropHome v.line
              | none => s2
        let s3 := { s1 with mem := { s1.mem with home := tmod s1.mem.home ln fun l => { l with inMsc := true } } }
        s3.addWay ⟨4 + d, ln, hintAge s.nextId h, none, none⟩

/-- A line leaves an L2 slice (R289, R296): a leased copy is dropped; a dirty home line goes into the MSC when it is
there or the Louvre filter reports a second touch, else it is written back. -/
def State.l2Evict (s : State) (d ln : Nat) : State :=
  let s1 := s.delWay d ln
  if s.homeDie ln = d ∧ (s1.homeLine ln).isSome then
    match s1.homeLine ln with
    | none => s1
    | some h =>
      let put (x : HomeLine) : State := { s1 with mem := { s1.mem with home := tput s1.mem.home ln x } }
      if h.inMsc then put { h with inL2 := false, dirty := false, mdirty := h.mdirty || h.dirty }
      else if h.dirty && decide (3 ≤ s.mgmt.level) && s1.louvreHolds d ln then
        (put { h with inL2 := false, dirty := false, mdirty := true }).mscAlloc ln .normal
      else (put { h with inL2 := false }).dropHome ln
  else { s1 with mem := { s1.mem with copies := s1.mem.copies.filter fun c => !(c.holder == .l2 d && c.line == ln) } }

/-- The number that stands for the context of a request that carries no context and no address (R290). -/
def noCtx : Nat := 16384
/-- What a lookup or fill of a line in a die's L2 finds under the retention registers (R290): the register whose range it
falls in, and that register again when a reserved way of the set is empty or holds a line out of range, with that line. -/
def State.reserve (s : State) (d ln ctx : Nat) (va : Option Nat) : Option Nat × Option (Nat × Option Nat) :=
  let st := l2Set ln
  match va.bind (s.retainOf d ctx) with
  | none => (none, none)
  | some i =>
    let r := (s.die d).retain.getD i Retain.reset
    let held := s.mem.ways.filter fun w => w.die == d && l2Set w.line == st && w.reserved == some i
    (some i,
      if !nbit r.mask st.1 then none
      else if held.length < r.ways then some (i, none)
      else (held.find? fun w => w.inRange != some i).map fun w => (i, some w.line))
/-- The least recently used ordinary line of a set goes, when the set's ordinary ways are full (R288). -/
def State.makeRoom (s : State) (d : Nat) (st : Nat × Nat) : State :=
  let ord := s.mem.ways.filter fun w => w.die == d && l2Set w.line == st && w.reserved == none
  if ord.length < 16 - s.carved d - s.reservedWays d st.1 then s
  else match argMin (fun w : WayEnt => w.age) ord with
    | some v => s.l2Evict d v.line
    | none => s
/-- Allocation of a line in a die's L2 (R288, R290): touched when present, moved to a reserved way of the range it falls in
when there is one for it; otherwise in such a way, or in an ordinary way. `va` is absent for a request that carries none. -/
def State.l2Alloc (s : State) (d ln ctx : Nat) (va : Option Nat) (h : Hint) : State :=
  let res := s.reserve d ln ctx va
  let clear (t : State) (o : Option Nat) : State := match o with
    | some v => t.l2Evict d v
    | none => t
  if h = .na then s
  else match s.wayOf d ln with
    | some w =>
      let age := hintAge s.nextId h
      (match (if w.inRange.isSome && w.reserved.isSome then none else res.2) with
       | some (i, o) =>
         if o = some ln ∨ w.reserved = some i then (s.delWay d ln).addWay { w with age := age, inRange := some i }
         else ((clear s o).delWay d ln).addWay ⟨d, ln, age, some i, some i⟩
       | none => (s.delWay d ln).addWay { w with age := age })
    | none =>
      match res.2 with
      | some (i, o) => (clear s o).addWay ⟨d, ln, hintAge s.nextId h, some i, some i⟩
      | none =>
        let s1 := match res.1 with
          | some i => s.modDie d fun x => { x with ovf := lmod x.ovf i fun o => min (o + 1) 65535 }
          | none => s
        (s1.makeRoom d (l2Set ln)).addWay ⟨d, ln, hintAge s.nextId h, none, none⟩

/-- A filled line placed at its home: in the home L2 slice, and in the MSC as the hint and the Louvre filter
have it (R205, R295). -/
def State.placeHome (s : State) (ln : Nat) (hl : HomeLine) (ctx : Nat) (va : Option Nat) (h : Hint) : State :=
  let d := s.homeDie ln
  let s1 := { s with mem := { s.mem with home := tput s.mem.home ln { hl with ls := s.ls ln, inL2 := h != .na, inMsc := false } } }
  let s2 : State := if h = .na then s1 else s1.l2Alloc d ln ctx va h
  let t := s2.mscMiss ln h
  if t.1 then t.2.mscAlloc ln h else t.2
/-- A line at its home that neither L2 nor MSC keeps leaves it. -/
def State.leaveHome (s : State) (ln : Nat) : State :=
  match s.homeLine ln with
  | some h => if h.inL2 || h.inMsc then s else s.dropHome ln
  | none => s
/-- The home L2 touched by an access, or the line brought back into it from the MSC slice (R205, R289); under `.na` a line
that neither keeps leaves. -/
def State.touchAt (s : State) (ln ctx : Nat) (va : Option Nat) (h : Hint) : State :=
  if h = .na then s.leaveHome ln
  else
    let s1 := s.l2Alloc (s.homeDie ln) ln ctx va h
    { s1 with mem := { s1.mem with home := tmod s1.mem.home ln fun x => { x with inL2 := true } } }

/-- The line moved to its MSC slice, where the atomic units are: the home L2 slice drops it (R296). A line that L2 holds dirty
goes there whatever the filter says; another that is absent there meets its miss, unless `missed` says that it has met it
already. Under a hint that allocates nothing it stays where it is (R205). -/
def State.toMsc (s : State) (ln : Nat) (h : Hint) (missed : Bool) : State :=
  match s.homeLine ln with
  | none => s
  | some x =>
    let t : Bool × State :=
      if x.inMsc then (true, s)
      else if h = .na then (false, s)
      else if x.dirty then (true, s)
      else if missed then (false, s)
      else s.mscMiss ln h
    let s1 := if t.1 then t.2.mscAlloc ln h else t.2
    match s1.homeLine ln with
    | some y =>
      if y.inMsc then
        let s2 := s1.delWay (s1.homeDie ln) ln
        { s2 with mem := { s2.mem with home := tmod s2.mem.home ln fun z =>
          { z with inL2 := false, dirty := false, mdirty := z.mdirty || z.dirty } } }
      else s1
    | none => s1

/-- Copies of a line that a test of holders names are dropped. -/
def State.dropCopies (s : State) (ln : Nat) (p : Holder → Bool) : State :=
  { s with mem := { s.mem with copies := s.mem.copies.filter fun c => !(c.line == ln && p c.holder) } }
/-- A holder's leased copy of a line, if it holds one. -/
def State.copyOf (s : State) (h : Holder) (ln : Nat) : Option CopyLine :=
  s.mem.copies.find? fun c => c.holder == h && c.line == ln
/-- A copy installed. -/
def State.addCopy (s : State) (c : CopyLine) : State :=
  { s with mem := { s.mem with copies := c :: s.mem.copies.filter fun x => !(x.holder == c.holder && x.line == c.line) } }

/-! ### Stores at home (R301, R302) -/

/-- The W of a store that reaches its home now (R301). -/
def State.nextW (s : State) (ln : Nat) : Nat :=
  max (s.gtAt (s.homeDie ln)) (max (s.ls ln) (s.lineCtl ln).wprev)

/-- A store becomes pending at its home: its W and the state. -/
def State.pend (s : State) (ln req off : Nat) (data : List Byte) : Nat × State :=
  let w := s.nextW ln
  let c := s.lineCtl ln
  (w, { s with mem := { s.mem with lines := tput s.mem.lines ln { wprev := w, pend := c.pend ++ [⟨req, w, off, data⟩] } } })

/-- A line's poison after stores to parts of it, offset and length: a 32-byte sector written whole is clear (R201). -/
def clearPoison (parts : List (Nat × Nat)) (p : List Bool) : List Bool :=
  (List.range 4).map fun i => p.getD i false &&
    !((List.range 32).all fun b => parts.any fun x => decide (x.1 ≤ 32 * i + b) && decide (32 * i + b < x.1 + x.2))
/-- The parts of a line that the instruction of a pending store has written once that store is performed (R201): those of
its lanes that are performed, and the store's own. -/
def State.storedParts (s : State) (ln : Nat) (p : PendW) : List (Nat × Nat) :=
  let own : List (Nat × Nat) := [(p.off, p.data.length)]
  match tget s.work.reqs p.req with
  | none => own
  | some r =>
    if r.op = 0 then own
    else own ++ s.work.reqs.filterMap fun q =>
      if q.2.op == r.op && q.2.space == .global && q.2.pa / 128 == ln && q.2.kind == .store && (match q.2.st with
        | .done _ => true
        | _ => false) then some (q.2.pa % 128, q.2.size) else none

/-- The pending write of a request takes effect in its home line (R301), an atomic's in the MSC slice when the line is
there (R296). -/
def State.performPend (s : State) (ln req : Nat) : State :=
  let c := s.lineCtl ln
  match c.pend.find? fun p => p.req == req with
  | none => s
  | some p =>
    let s1 := { s with mem := { s.mem with lines := tput s.mem.lines ln { c with pend := c.pend.filter fun q => q.req != req } } }
    let parts := s.storedParts ln p
    { s1 with mem := { s1.mem with home := tmod s1.mem.home ln fun h =>
        { h with data := overlay h.data p.off p.data, poison := clearPoison parts h.poison,
                 dirty := h.dirty || h.inL2 || !h.inMsc, mdirty := h.mdirty || (h.inMsc && !h.inL2) } } }

/-- A pending store taken off its line without effect. -/
def State.unpend (s : State) (ln req : Nat) : State :=
  { s with mem := { s.mem with lines := tmod s.mem.lines ln fun c => { c with pend := c.pend.filter fun p => p.req != req } } }
/-- A granule's tag written (R237). -/
def State.setTag (s : State) (pa tag : Nat) : State :=
  { s with mem := { s.mem with home := tmod s.mem.home (pa / 128) fun h =>
      { h with tags := h.tags.set (pa / 32 % 4) tag, dirty := true } } }
/-- A request's record changed. -/
def State.modReq (s : State) (r : Nat) (f : Req → Req) : State :=
  { s with work := { s.work with reqs := tmod s.work.reqs r f } }
/-- A request put into flight; its identifier. -/
def State.addReq (s : State) (r : Req) : Nat × State :=
  let f := s.fresh
  (f.1, { f.2 with work := { f.2.work with reqs := tput f.2.work.reqs f.1 { r with seq := f.1 } } })

/-- A write of a device agent that belongs to no group: it reaches the home in the step that makes it, and
is performed at its W as any store is (R301). Bytes lie within one line. It carries the context and address of what caused
it, or none (R290), and an allocation hint (R321); `die` is the die that it comes from. -/
def State.devLineFor (s : State) (die ctx va : Nat) (h : Hint) (pa key : Nat) (data : List Byte) : Nat × State :=
  let r : Req :=
    { kind := .store, space := .global, path := .core, core := 0, die := die, ctx := ctx, gid := 0,
      op := 0, lane := 0, va := va, pa := pa, size := data.length, data := data, hint := h, lro := false,
      key := key, st := .fresh, val := [], seq := 0, install := false, missed := false }
  let a := s.addReq r
  let p := a.2.pend (pa / 128) a.1 (pa % 128) data
  (p.1, p.2.modReq a.1 fun q => { q with st := .pending p.1 })
def State.devLine (s : State) (pa key : Nat) (data : List Byte) : Nat × State :=
  s.devLineFor (s.homeDie (pa / 128)) noCtx 0 .normal pa key data
/-- Bytes cut at line boundaries: offsets and pieces. -/
def linePieces (pa : Nat) (data : List Byte) : List (Nat × List Byte) :=
  let first := 128 - pa % 128
  if data.length ≤ first then [(pa, data)]
  else
    (pa, data.take first) ::
      (List.range (cdiv (data.length - first) 128)).map fun i =>
        (pa + first + 128 * i, (data.drop (first + 128 * i)).take 128)
/-- Device writes across lines, and to any space but a register window, by an agent of a die: the greatest W and the state
(R301, R487). A write to an address that does not exist, or whose home does not answer, is lost. -/
def State.devStoreFor (s : State) (die ctx va : Nat) (h : Hint) (pa key : Nat) (data : List Byte) : Nat × State :=
  match s.spaceOf pa with
  | some .global =>
    (linePieces pa data).foldl (fun acc p =>
      if acc.2.homeUp (p.1 / 128) then
        let r := acc.2.devLineFor die ctx (va + p.1 - pa) h p.1 key p.2
        (max acc.1 r.1, r.2)
      else acc) (0, s)
  | some .host => (s.gtAt die, { s with mem := { s.mem with host := s.mem.host.write (pa - 0x400000000000) data } })
  | some (.peer q) =>
    let m := ((tget s.mem.peers q).getD []).write (pa % 0x040000000000) data
    (s.gtAt die, { s with mem := { s.mem with peers := tput s.mem.peers q m } })
  | _ => (0, s)
/-- A device write that carries neither context nor address (R290). -/
def State.devStore (s : State) (pa key : Nat) (data : List Byte) : Nat × State := s.devStoreFor 0 noCtx 0 .normal pa key data

/-! ### Routes between dies (R384, R386) -/

/-- The far-tier die that a compute die borders. -/
def borderOf (d : Nat) : Nat := 4 + d / 2
/-- The dies that a route passes after its first: the fixed route, or the other. -/
def hops (src dst : Nat) (other : Bool) : List Nat :=
  if 4 ≤ src then
    (if 4 ≤ dst ∨ borderOf dst = src then (if other && decide (dst < 4) then [dst ^^^ 1, dst] else [dst])
     else if other then [dst ^^^ 3, dst ^^^ 1, dst] else [dst ^^^ 2, dst])
  else if dst = borderOf src then (if other then [src ^^^ 1, dst] else [dst])
  else if 4 ≤ dst then (if other then [src ^^^ 1, src ^^^ 3, dst] else [src ^^^ 2, dst])
  else if dst = src ^^^ 1 then (if other then [src ^^^ 2, src ^^^ 3, dst] else [dst])
  else if dst = src ^^^ 2 then (if other then [src ^^^ 1, src ^^^ 3, dst] else [dst])
  else
    let m := if src = 0 ∨ src = 3 then 1 else 0
    [if other then m ^^^ 3 else m, dst]
/-- Whether a link is up. -/
def State.linkUp (s : State) (a b : Nat) : Bool := s.links.any fun l => l.src == a && l.dst == b && l.up
/-- Whether every link of a route is up. -/
def State.pathUp (s : State) (src : Nat) : List Nat → Bool
  | [] => true
  | d :: r => s.linkUp src d && s.pathUp d r
/-- Whether traffic between two dies takes its other route. -/
def State.detour (s : State) (src dst : Nat) : Bool := (tget s.routes (src * 8 + dst)).getD 0 == 1
/-- What becomes of a request between two dies. -/
inductive Reach where
  | ok
  /-- its route is down, and traffic has not moved to the other yet; or a retirement gives up its line (R348) -/
  | wait
  | broken
  deriving DecidableEq, Repr
def State.reach (s : State) (src dst : Nat) : Reach :=
  if src = dst then .ok
  else if s.pathUp src (hops src dst (s.detour src dst)) then .ok
  else if s.pathUp src (hops src dst (!s.detour src dst)) then .wait
  else .broken
/-- What becomes of a die's request to a line's home: a home that gives no service answers with errors (R386, R408). -/
def State.reachHome (s : State) (src ln : Nat) : Reach := if s.homeUp ln then s.reach src (s.homeDie ln) else .broken
/-- Whether a line lies at or beyond a retirement's depths, in lines a cell. -/
def topLine (stack pkgDepth dieDepth ln : Nat) : Bool :=
  match lineRegion ln with
  | some (r, n) => (r == 0 && decide (pkgDepth ≤ n / 4096)) || (r == stack / 4 + 1 && decide (dieDepth ≤ n / 4096))
  | none => false
/-- Whether a request stalls at its home because a retirement gives up its line (R348). -/
def State.topStalls (s : State) (ln : Nat) : Bool :=
  match s.retire with
  | some t => topLine t.stack t.pkgDepth t.dieDepth ln
  | none => false
/-- Whether a peer port's link is up and enabled (R417). -/
def State.portOn (s : State) (q : Nat) : Bool := (s.ports.getD q Port.reset).up && (s.ports.getD q Port.reset).en
/-- Whether a peer port carries a request now; a remote device may refuse any (R416, R417). -/
def State.peerTakes (s : State) (q : Nat) : Bool × State :=
  let f := s.drawFree 1
  (s.portOn q && !Config.choice f.1, f.2)
/-- What becomes of an engine's access to a physical address: to a line's home, or to the far-tier die that leads to the
host (R487) or to a peer port that is on (R416). -/
def State.reachFor (s : State) (die pa : Nat) : Reach :=
  match s.spaceOf pa with
  | some .global => if s.topStalls (pa / 128) then .wait else s.reachHome die (pa / 128)
  | some .host => s.reach die 4
  | some (.peer q) => if s.portOn q then s.reach die 5 else .broken
  | _ => .ok
/-- Whether an engine's access that reaches its place is taken there. -/
def State.taken (s : State) (pa : Nat) : Bool × State :=
  match s.spaceOf pa with
  | some (.peer q) => s.peerTakes q
  | _ => (true, s)

/-! ### The capacity of L1 (R281, R282) -/

/-- A core's L1 has the granules that are not local memory (R281, R282): of the lines that they do not hold, those that its
positions put first go (R205). -/
def State.trimL1 (s : State) (core : Nat) : State :=
  let loc := s.teams.foldl (fun n t => if t.2.core == core then n + rup t.2.size 4096 else n) 0
  let mine := s.mem.copies.filter fun c => c.holder == .l1 core
  let out := ((sortBy (fun c : CopyLine => c.age) mine).take (mine.length - (524288 - loc) / 128)).map (·.line)
  { s with mem := { s.mem with copies := s.mem.copies.filter fun c => !(c.holder == .l1 core && out.contains c.line) } }
/-- A copy installed in a holder; an L1 gives it the position that the hint names (R205). -/
def State.putCopy (s : State) (c : CopyLine) (h : Hint) : State :=
  match c.holder with
  | .l1 core => ({ s.addCopy { c with age := hintAge s.nextId h } with nextId := s.nextId + 1 } : State).trimL1 core
  | _ => s.addCopy c
/-- A copy that an access has used: its position in an L1 is what the hint makes it, or stays under `.na` (R205). -/
def State.touchCopy (s : State) (c : CopyLine) (h : Hint) : State :=
  if h = .na then s
  else { s with
    nextId := s.nextId + 1
    mem := { s.mem with copies := s.mem.copies.map fun x =>
      if x.holder == c.holder && x.line == c.line then { x with age := hintAge s.nextId h } else x } }

/-! ### Reads of engines under leases (R299, R300, R308) -/

/-- A valid copy of a line in a holder, under a key slot. -/
def State.leasedCopy (s : State) (h : Holder) (die ln key : Nat) : Option CopyLine :=
  s.mem.copies.find? fun c => c.holder == h && c.space == .global && c.line == ln && c.key == key && s.leaseValid die c.expiry
/-- A line as an engine of a die reads it through its own cache `h`: from a valid copy there or in the die's L2, else at its
home, which the read touches (R205, R290), under a lease if one is granted (R299). -/
def State.leasedLine (s : State) (h : Holder) (die ln key ctx va : Nat) (lro : Bool) (hint : Hint) : List Byte × State :=
  let put (t : State) (x : Holder) (d : List Byte) (e : Nat) : State :=
    t.putCopy ⟨x, .global, ln, d, [], e, s.gtAt die, key, 0⟩ hint
  match s.leasedCopy h die ln key, s.leasedCopy (.l2 die) die ln key with
  | some c, _ => (c.data, s)
  | none, some c =>
    let s1 := s.l2Alloc die ln ctx (some va) hint
    (c.data, if hint = .na then s1 else put s1 h c.data c.expiry)
  | none, none =>
    let data := s.seeLine ln key
    let home (t : State) : State := t.touchAt ln ctx (some va) hint
    if hint = .na ∨ s.poisonedAt (ln * 128) 128 key then (data, home s)
    else match s.grant ln lro with
      | (none, s1) => (data, home s1)
      | (some e, s1) =>
        let s2 := if die = s.homeDie ln then s1 else put (s1.l2Alloc die ln ctx (some va) hint) (.l2 die) data e
        (data, home (put s2 h data e))

end Sys2Proof.Machine
end

