-- ==== Sys2Proof/Machine/Registers.lean ====
section
/-! DEFINITION. What the registers hold as software and the host read them: control registers (R276) and
the register window (R336, R387 to R389, R417, R444, R450, R451, R454). Reads change nothing. -/
namespace Sys2Proof.Machine

/-- Sum of fields placed at bit positions. -/
def packF (l : List (Nat × Nat)) : Nat := l.foldl (fun acc e => acc + e.1 * 2 ^ e.2) 0
/-- Flags as a number, bit i for the i-th. -/
def packB (l : List Bool) : Nat := l.foldr (fun b acc => b2n b + 2 * acc) 0

/-- SVCLEVEL (R444). -/
def State.svclevel (s : State) : Nat :=
  packF [(s.mgmt.level, 0), (b2n s.mgmt.warm, 2), (s.mgmt.img, 3), (s.mgmt.step, 4)]
/-- RETIRESTAT (R342). -/
def State.retirestat (s : State) : Nat :=
  packF [(s.pkg.retStatus, 0), (s.pkg.retStack, 8), (s.pkg.retLeft, 32), (s.pkg.retired, 48)]
/-- MAPERR (R332). -/
def State.maperr (s : State) : Nat :=
  packF [(b2n s.pkg.errSingular, 0), (b2n s.pkg.errBadcmd, 1), (b2n s.pkg.errBusy, 2), (s.pkg.errRegion, 3)]
/-- The state of a key slot (R451). -/
def State.keyState (s : State) (k : Nat) : Nat :=
  match tget s.keys k with
  | some e => e.state
  | none => 0
/-- The number of empty key slots (R451). -/
def State.keyFree (s : State) : Nat := 1024 - (s.keys.filter fun e => e.2.state != 0).length
/-- KEYSTAT (R451). STATE is the slot's at the read; FREE is a 10-bit field. -/
def State.keystatWord (s : State) : Nat :=
  packF [(s.keystat.slot, 0), (s.keyState s.keystat.slot, 10), (s.keystat.result, 12),
    (b2n s.keystat.busy, 16), (s.keyFree % 1024, 17)]
/-- RETAINi (R291). -/
def Retain.word (r : Retain) : Nat := packF [(b2n r.valid, 0), (r.ways, 1), (r.ctx, 5)]
/-- XVER (R395). -/
def Barchan.xver (b : Barchan) : Nat :=
  packF ((List.range 4).map fun n => (b.ver.getD n 0 % 65536, 16 * n))
/-- XPOLICY (R395). -/
def Barchan.policy (b : Barchan) : Nat :=
  packF [(packB b.en, 0), (packB b.freeze, 4), (b.targets, 12), (b.ctx, 16), (b.maxrep, 32)]
/-- LOSSX (R90): the exponent, sign-extended in its 8-bit field. -/
def lossxWord (x : Int) : Nat := wrapN x 8

/-- A control register as the issuing group reads it (R276): `g` the group, `d` its die, `ctx` its context. -/
def State.csrValue (s : State) (r : Csr) (g : Group) (d ctx : Nat) : Nat :=
  let bank := if g.ctl.level = .m then g.bankM else g.bankS
  let run := tget s.runs ctx
  match r with
  | .acclive =>
    (match tget s.teams g.team with
     | some t => t.accLive.toNat
     | none => 0)
  | .tcause => packF [(bank.cause, 0), (bank.plev.num, 8), (bank.mode.toNat, 16)]
  | .targ => bank.arg.toNat
  | .tresume => bank.resume.toNat
  | .taddr => bank.addr.toNat
  | .tlanes => bank.lanes.toNat
  | .tscratch => bank.scratch.toNat
  | .lossx => (run.map fun c => lossxWord c.lossx).getD 0
  | .preemptTimeout => (run.map fun c => c.pto).getD 0
  | .ordTimeout => (run.map fun c => c.oto).getD 0
  | .capacity => s.pkg.capacity
  | .captarget => s.pkg.captarget
  | .retirestk => 0
  | .retirestat => s.retirestat
  | .migphase => s.pkg.migphase
  | .retain0 => ((s.die d).retain.getD 0 Retain.reset).word
  | .retain1 => ((s.die d).retain.getD 1 Retain.reset).word
  | .retain2 => ((s.die d).retain.getD 2 Retain.reset).word
  | .retain3 => ((s.die d).retain.getD 3 Retain.reset).word
  | .retovfl => packF ((List.range 4).map fun i => ((s.die d).ovf.getD i 0, 16 * i))
  | .xtabbase => s.barchan.base
  | .xver => s.barchan.xver
  | .xpolicy => s.barchan.policy
  | .hotThresh => s.barchan.hot
  | .idleThresh => s.barchan.idle
  | .coldThresh => s.barchan.cold
  | .xwindow => s.barchan.window
  | .mapctl => 0
  | .maperr => s.maperr
  | .keycmd => 0
  | .keystat => s.keystatWord
  | .leaseRw => s.pkg.leaseRw
  | .leaseRo => s.pkg.leaseRo
  | .svclevel => s.svclevel

/-! ### The register window (R387) -/

/-- The package control block, by 8-byte offset (R388, R444, R450, R451). -/
def State.pkgReg (s : State) (o : Nat) : Nat :=
  match o with
  | 0x000 => s.pkg.ctxbase
  | 0x010 => packF [(s.pkg.cmdCtx, 0), (s.pkg.cmdResult, 16), (b2n s.pkg.cmdBusy, 31)]
  | 0x018 => s.pkg.trctx
  | 0x020 => s.pkg.trlid
  | 0x028 => s.gt
  | 0x108 => packF [(b2n s.mgmt.busy, 0), (s.mgmt.result, 8), (s.mgmt.length, 16)]
  | 0x110 => s.mgmt.buf
  | 0x120 => s.svclevel
  | 0x148 => s.keystatWord
  | _ => 0
/-- A Caravan block, by 8-byte offset (R336). -/
def Caravan.reg (c : Caravan) (o : Nat) : Nat :=
  match o with
  | 0x00 => c.freeBase
  | 0x08 => packF [(c.freeHead, 0), (c.freeTail, 32)]
  | 0x10 => c.retBase
  | 0x18 => packF [(c.retHead, 0), (c.retTail, 32)]
  | 0x20 => packF [(c.ringLog, 0), (c.epoch, 32)]
  | 0x28 => packF [(c.promote, 0), (c.moves, 32)]
  | 0x30 => c.ctrBase
  | _ => 0
/-- A sensor register: value and VALID above it (R454). -/
def Sensor.word (x : Sensor) (w : Nat) : Nat := x.val + b2n x.valid * 2 ^ w
/-- A die control block, by 8-byte offset (R389, R454). -/
def Die.reg (d : Die) (o : Nat) : Nat :=
  if o = 0x000 then packF [(d.state, 0), (b2n d.pending, 3), (packB d.linksUp, 4)]
  else if o = 0x010 then packF [(d.mbx.length, 0), (d.dropped, 16)]
  else if o = 0x018 then packF ((List.range 3).map fun i => (d.retry.getD i 0, 16 * i))
  else if 0x100 ≤ o ∧ o < 0x1C0 then (d.temp.getD ((o - 0x100) / 8) ⟨0, false⟩).word 16
  else if 0x200 ≤ o ∧ o < 0x280 then (d.volt.getD ((o - 0x200) / 8) ⟨0, false⟩).word 16
  else if 0x300 ≤ o ∧ o < 0x400 then (d.ring.getD ((o - 0x300) / 8) ⟨0, false⟩).word 20
  else if o = 0x400 then d.throtctl
  else if o = 0x408 then packF [(d.clk, 0), (d.cause, 11), (d.events, 16)]
  else 0
/-- A peer port block, by 8-byte offset (R417). -/
def Port.reg (p : Port) (o : Nat) : Nat :=
  if o = 0x00 then packF [(b2n p.up, 0), (p.lanes, 1), (p.remote, 8)]
  else if o = 0x08 then packF [(b2n p.en, 0), (b2n p.atoms, 1)]
  else if 0x10 ≤ o ∧ o < 0x50 then
    (if o % 16 = 0 then p.inbase.getD ((o - 0x10) / 16) 0 else p.inlen.getD ((o - 0x10) / 16) 0)
  else 0
/-- The 8 bytes of the register window at an 8-aligned address; unlisted addresses read as zero (R387). -/
def State.winWord (s : State) (a : Nat) : Nat :=
  let o := a - 0xF00000000000
  if o < 0x1000 then s.pkgReg o
  else if 0x4000 ≤ o ∧ o < 0x6000 then ofBytes (s.mgmt.buffer.read (o - 0x4000) 8)
  else if 0x10000 ≤ o ∧ o < 0x10180 then
    (s.caravans.getD ((o - 0x10000) / 64) Caravan.reset).reg (o % 64)
  else if 0x20000 ≤ o ∧ o < 0x24000 then (s.die ((o - 0x20000) / 0x1000)).reg (o % 0x1000)
  else if 0x30000 ≤ o ∧ o < 0x31000 then (s.ports.getD ((o - 0x30000) / 0x100) Port.reset).reg (o % 0x100)
  else if 0x800000 ≤ o ∧ o < 0x808100 then ofBytes (s.mem.msix.read (o - 0x800000) 8)
  else 0
/-- `n` bytes of the register window. -/
def State.winRead (s : State) (a n : Nat) : List Byte :=
  (List.range n).map fun i => (toBytes 8 (s.winWord ((a + i) / 8 * 8))).getD ((a + i) % 8) 0

end Sys2Proof.Machine
end

