-- ==== Sys2Proof/Machine/Translate.lean ====
section
/-! DEFINITION. Translation: reads of physical memory, page walks under leased entry reads (R315 to R320),
the TLBs (R324, R325), permissions (R319), the counts of far-tier reads (R338), and the checks that a memory
access makes before any lane is performed (R198, R201). -/
namespace Sys2Proof.Machine

/-! ### Physical reads -/

/-- `n` bytes at a physical address as a read at their homes sees them now (R303); none where the address
does not exist (R328). -/
def State.physRead (s : State) (pa n key : Nat) : Option (List Byte) :=
  match s.spaceOf pa with
  | some .global => some (s.see pa n key)
  | some .host => some (s.mem.host.read (pa - 0x400000000000) n)
  | some (.peer q) => some (((tget s.mem.peers q).getD []).read (pa % 0x040000000000) n)
  | some .window => some (s.winRead pa n)
  | _ => none
/-- The bytes that the next write at a physical address would find, pending stores included (R302). -/
def State.physFuture (s : State) (pa n key : Nat) : List Byte :=
  match s.spaceOf pa with
  | some .global => (List.range n).map fun i => (s.futureLine ((pa + i) / 128) key).getD ((pa + i) % 128) 0
  | _ => (s.physRead pa n key).getD (List.replicate n 0)
/-- A number read at a physical address; zero where it does not exist. -/
def State.physNum (s : State) (pa n key : Nat) : Nat := ofBytes ((s.physRead pa n key).getD [])

/-! ### Far-tier read counts (R338) -/

/-- The counter of a far-tier frame incremented at the engine that holds it; with no table, at CTRBASE = 0, nothing is counted
(DESIGN CHOICE, log entry 115). -/
def State.countFrame (s : State) (f : Nat) : State :=
  let c := s.caravans.getD (4 + f % 2) Caravan.reset
  if c.ctrBase = 0 then s
  else
    let pa := c.ctrBase + 16 * (f / 2) + 8
    let n := ofBytes (s.physFuture pa 2 0)
    (s.devStore pa 0 (toBytes 2 (min (n + 1) 65535))).2
/-- A far-tier line read: the far-tier die that serves it counts it, or owes the count to the other engine. -/
def State.countRead (s : State) (ln : Nat) : State :=
  match lineRegion ln with
  | some (5, n) =>
    let f := n / 512
    let srv := match s.unitOf ln with
      | some u => if u / 2 ^ 30 - 16 < 48 then 4 else 5
      | none => 4
    if srv = 4 + f % 2 then s.countFrame f
    else { s with caravans := lmod s.caravans srv fun c => { c with fwd := c.fwd ++ [f] } }
  | _ => s

/-- A line brought to its home for a device's read, if it is absent: it counts when the far tier holds it (R338), and is placed
as the hint and the Louvre filter have it (R205, R290, R295); none while the read must wait (R348). -/
def State.bring (s : State) (ln key ctx : Nat) (va : Option Nat) (h : Hint) : Option State :=
  if (s.homeLine ln).isSome || s.spaceOf (ln * 128) != some .global then some s
  else if s.unitStalls ln || s.topStalls ln || s.mem.unitq.any fun q => q.2.line == ln then none
  else some (((s.drawFree 132).2.countRead ln).placeHome ln (s.filled ln key) ctx va h)

/-! ### Page walks -/

/-- What a walk finds. -/
inductive WalkRes where
  | leaf (e pa expiry : Nat)
  | moving (e pa : Nat)
  | sparse
  | fault (status : Nat)
  | phys
  deriving DecidableEq, Repr

/-- Level index field of a virtual address (R314). -/
def vaIx (va lvl : Nat) : Nat := nfld va (16 + 10 * lvl) 10
/-- Whether a leaf is well formed for the level it stands at (R318). -/
def leafOk (e lvl : Nat) : Bool :=
  let size := nfld e 48 2
  nfld e 50 4 == 0 &&
  ((lvl == 0 && size == 0) || (lvl == 0 && size == 1 && nfld e 16 5 == 0) ||
   (lvl == 1 && size == 2 && nfld e 16 14 == 0))

/-- What reading a table entry answers: the entry, whether its sector is poisoned, and the lease that it came under; a home
that cannot be read now; an address that does not exist. -/
inductive EntryRes where
  | ok (e : Nat) (poison : Bool) (lease : Option Nat)
  | wait
  | phys
  deriving DecidableEq, Repr
/-- A walk-cache entry of a die that may be used (R325). -/
def State.walkHit (s : State) (die asid pa : Nat) : Option WalkEnt :=
  s.mem.walks.find? fun w => w.die == die && w.asid == asid && w.pa == pa && s.leaseValid die w.expiry
/-- One entry of a page table read by a die's walker (R315, R325): from the walk cache, else at its home under a lease. An
entry that names a next table is kept in the walk cache. Through a key slot that is not keyed the home answers with an error
reply, as poison (R453). -/
def State.readEntry (s : State) (die asid pa key : Nat) : EntryRes × State :=
  match s.walkHit die asid pa with
  | some w => (.ok w.entry false (some w.expiry), s)
  | none =>
    match s.spaceOf pa, s.reachFor die pa with
    | none, _ => (.phys, s)
    | some .global, .ok =>
      let ln := pa / 128
      if !s.keyed key then (.ok 0 true none, s)
      else match s.bring ln key noCtx none .normal with
        | none => (.wait, s)
        | some s0 =>
          let g := s0.grant ln false
          let e := ofBytes (s0.see pa 8 key)
          let p := s0.poisonedAt pa 8 key
          let s1 := g.2.touchAt ln noCtx none .normal
          (.ok e p g.1, match g.1 with
            | some x => if nbit e 0 && !nbit e 1 && !p then { s1 with mem := { s1.mem with walks := ⟨die, asid, pa, e, x⟩ :: s1.mem.walks } } else s1
            | none => s1)
    | some _, .ok => (.ok (s.physNum pa 8 key) false none, s)
    | some _, .broken => (.ok 0 true none, s)
    | some _, .wait => (.wait, s)

/-- The walk from level `lvl - 1` of the table at `t` (R315). `exp` is the least lease so far, none once an
entry has come without a lease. -/
def State.walkFrom (lvl : Nat) (s : State) (die asid t va key : Nat) (exp : Option Nat) : WalkRes × State :=
  match lvl with
  | 0 => (.fault 0x05, s)
  | l + 1 =>
    let pa := t + 8 * vaIx va l
    match s.readEntry die asid pa key with
    | (.phys, s1) => (.phys, s1)
    | (.wait, s1) => (.moving 0 pa, s1)
    | (.ok e poison lease, s1) =>
      let exp1 := match exp, lease with
        | some a, some b => some (min a b)
        | _, _ => none
      if poison then (.fault 0x0A, s1)
      else if !nbit e 0 then (if nbit e 7 then .sparse else .fault 0x01, s1)
      else if !nbit e 1 then
        if l = 0 ∨ nfld e 2 11 ≠ 0 ∨ nfld e 48 16 ≠ 0 then (.fault 0x05, s1)
        else State.walkFrom l s1 die asid (nfld e 13 35 * 8192) va key exp1
      else if !leafOk e l then (.fault 0x05, s1)
      else if nbit e 8 then (.moving e pa, s1)
      else (.leaf e pa (exp1.getD 0), s1)

/-- The far future, from which a walk's least lease is taken. -/
def farFuture : Nat := 2 ^ 64

/-- The bytes a leaf's page covers (R318). -/
def leafSpan (e : Nat) : Nat :=
  match nfld e 48 2 with
  | 0 => 0x10000
  | 1 => 0x200000
  | _ => 0x40000000
/-- The physical address that a leaf gives a virtual address (R318). -/
def leafAddr (e va : Nat) : Nat := leafSpan e * (65536 * nfld e 16 32 / leafSpan e) + va % leafSpan e

/-- The TLB of a core, and the cluster or engine whose TLB stands behind a TLB (R324). -/
def coreTlb (core : Nat) : Nat := 84 + core
def behindTlb (t : Nat) : Nat := if t < 84 then t else coreCluster (t - 84)
/-- How many entries a TLB has (R324). -/
def tlbSize (t : Nat) : Nat := if t < 84 then 2048 else 64
/-- The first `n` entries of one TLB kept, and those of every other. -/
def tlbCut (t : Nat) : Nat → List TlbEnt → List TlbEnt
  | _, [] => []
  | n, e :: r =>
    if e.cluster ≠ t then e :: tlbCut t n r
    else match n with
      | 0 => tlbCut t 0 r
      | k + 1 => e :: tlbCut t k r
/-- An entry put into its TLB, in the place of another for the same page or of the oldest. -/
def State.tlbPut (s : State) (x : TlbEnt) : State :=
  let keep := s.mem.tlb.filter fun t => !(t.cluster == x.cluster && t.asid == x.asid && t.va == x.va && t.size == x.size)
  { s with mem := { s.mem with tlb := x :: tlbCut x.cluster (tlbSize x.cluster - 1) keep } }
/-- A walk of a context's tables for one address; what it finds is installed in the TLB `tlb` and in the one behind it,
under the least lease of its entries (R324, R325). -/
def State.walk (s : State) (tlb die ctx va : Nat) : WalkRes × State :=
  match tget s.ctxs ctx with
  | none => (.fault 0x01, s)
  | some c =>
    match s.walkFrom 4 die c.asid c.root va c.key (some farFuture) with
    | (.leaf e pa x, s1) =>
      if x = 0 then (.leaf e pa x, s1)
      else
        let ent (t : Nat) : TlbEnt := ⟨t, c.asid, va / leafSpan e * leafSpan e, leafSpan e, e, pa, x⟩
        (.leaf e pa x, (s1.tlbPut (ent (behindTlb tlb))).tlbPut (ent tlb))
    | r => r
/-- A valid entry of a TLB for an address. -/
def State.tlbHit (s : State) (tlb die asid va : Nat) : Option TlbEnt :=
  s.mem.tlb.find? fun t => t.cluster == tlb && t.asid == asid && decide (t.va ≤ va) &&
    decide (va < t.va + t.size) && s.leaseValid die t.expiry
/-- The leaf for an address: from the TLB, then from the one behind it, else by a walk (R324). -/
def State.leafFor (s : State) (tlb die ctx va : Nat) : WalkRes × State :=
  match tget s.ctxs ctx with
  | none => (.fault 0x01, s)
  | some c =>
    match s.tlbHit tlb die c.asid va, s.tlbHit (behindTlb tlb) die c.asid va with
    | some t, _ => (.leaf t.leaf t.leafPa t.expiry, s)
    | none, some t => (.leaf t.leaf t.leafPa t.expiry, s.tlbPut { t with cluster := tlb })
    | none, none => s.walk tlb die ctx va

/-- A translation: the physical address, what it reaches, and what the leaf says of it. -/
structure Trans where
  pa : Nat
  space : Space
  key : Nat
  tagOn : Bool
  lro : Bool
  hint : Hint
  leaf : Nat
  leafPa : Nat
  deriving DecidableEq, Repr

/-- What a translation answers. -/
inductive TrRes where
  | ok (t : Trans)
  | sparse
  | moving
  | fault (status : Nat)
  | phys
  deriving DecidableEq, Repr

/-- What an access wants of its page (R319). -/
structure Want where
  write : Bool
  fetch : Bool
  user : Bool
  deriving DecidableEq, Repr

/-- Permission checks at the leaf in the order 0x03, 0x02, 0x04 (R319). -/
def leafStatus (e : Nat) (w : Want) : Option Nat :=
  if w.user && !nbit e 4 then some 0x03
  else if w.write && !nbit e 2 then some 0x02
  else if w.fetch && !nbit e 3 then some 0x04
  else none

/-- Translation of one virtual address (R315 to R322). -/
def State.translate (s : State) (cluster die ctx va : Nat) (w : Want) : TrRes × State :=
  match s.leafFor cluster die ctx va with
  | (.leaf e lpa _, s1) =>
    (match leafStatus e w with
     | some st => (.fault st, s1)
     | none =>
       let pa := leafAddr e va
       let k := nfld e 54 10
       let dk := match tget s.ctxs ctx with
         | some c => c.key
         | none => 0
       (.ok { pa := pa, space := (s1.spaceOf pa).getD .global, key := if k = 0 then dk else k,
              tagOn := nbit e 6, lro := nbit e 5, hint := (Hint.ofCode (nfld e 14 2)).getD .normal,
              leaf := e, leafPa := lpa }, s1))
  | (.moving _ _, s1) => (.moving, s1)
  | (.sparse, s1) => (.sparse, s1)
  | (.fault st, s1) => (.fault st, s1)
  | (.phys, s1) => (.phys, s1)

/-- Whether a PAGEFAULT status is resolvable (R319, R377). -/
def resolvable (st : Nat) : Bool := st == 1 || st == 2 || st == 4 || st == 5 || st == 10

/-- Global(b, o) (R198): the 60-bit tagged address. -/
def globalAddr (b : DWord) (o : Nat) : Nat :=
  2 ^ 56 * nfld b.toNat 56 4 + (nfld b.toNat 0 56 + o) % 2 ^ 56
/-- Whether a pointer is canonical. -/
def canonical (b : DWord) : Bool := nfld b.toNat 60 4 == 0
/-- The address part of a tagged address. -/
def vaOf (x : Nat) : Nat := x % 2 ^ 56
/-- The tag of a tagged address. -/
def tagOf (x : Nat) : Nat := x / 2 ^ 56 % 16

/-! ### Device accesses to a context's address space -/

/-- The cluster number under which a die's own engines translate. -/
def engineCluster (die : Nat) : Nat := 80 + die

/-- Answers of a device access beside the statuses of R319: an address that does not exist, poisoned data, a home
that gives no answer, a page that is moving. -/
def stPhys : Nat := 0xFF
def stPoison : Nat := 0xFE
def stOff : Nat := 0xFD
def stMoving : Nat := 0x00
/-- One line of global memory read by an engine: from a valid copy that its cache or its die's L2 holds, else at its home, which
brings it there; none while it must wait (R299, R308). -/
def State.readLine (s : State) (cache : Option Holder) (die ctx va : Nat) (tr : Trans) (ln : Nat) : Option (List Byte × State) :=
  match cache with
  | some h =>
    if (s.leasedCopy h die ln tr.key).isSome || (s.leasedCopy (.l2 die) die ln tr.key).isSome then
      some (s.leasedLine h die ln tr.key ctx va tr.lro tr.hint)
    else (s.bring ln tr.key ctx (some va) tr.hint).map fun t => t.leasedLine h die ln tr.key ctx va tr.lro tr.hint
  | none => (s.bring ln tr.key ctx (some va) tr.hint).map fun t => (t.seeLine ln tr.key, t.touchAt ln ctx (some va) tr.hint)
/-- Lines read one after another. -/
def State.readLinesFrom (s : State) (cache : Option Holder) (die ctx va : Nat) (tr : Trans) (ln : Nat) : Nat → Option (List Byte × State)
  | 0 => some ([], s)
  | n + 1 => match s.readLine cache die ctx va tr ln with
    | none => none
    | some x => (x.2.readLinesFrom cache die ctx (va + 128) tr (ln + 1) n).map fun y => (x.1 ++ y.1, y.2)
/-- Global bytes read by an engine, line by line; none while a line must wait. -/
def State.readLines (s : State) (cache : Option Holder) (die ctx va : Nat) (tr : Trans) (n : Nat) : Option (List Byte × State) :=
  (s.readLinesFrom cache die ctx va tr (tr.pa / 128) (cdiv (tr.pa % 128 + n) 128)).map fun r => (slice r.1 (tr.pa % 128) n, r.2)
/-- Bytes of a context's address space, read by a device agent of a die through a TLB and through its leased cache, if it
has one: the bytes, or the status and address of the fault that it meets. -/
def State.readVia (s : State) (cache : Option Holder) (cluster die ctx : Nat) (user : Bool) (va n : Nat) : (Except (Nat × Nat) (List Byte)) × State :=
  let first := min n (65536 - va % 65536)
  let step (acc : (Except (Nat × Nat) (List Byte)) × State) (p : Nat × Nat) :=
    match acc with
    | (.error e, t) => (.error e, t)
    | (.ok l, t) =>
      match t.translate cluster die ctx p.1 ⟨false, false, user⟩ with
      | (.ok tr, t1) =>
        (match t1.physRead tr.pa p.2 tr.key, t1.reachFor die tr.pa with
         | some _, .broken => (.error (stOff, p.1), t1)
         | some _, .wait => (.error (stMoving, p.1), t1)
         | some b, .ok =>
           let k := t1.taken tr.pa
           if !k.1 then (.error (stOff, p.1), k.2)
           else if t1.spaceOf tr.pa = some .global then
             if !t1.keyed tr.key ∨ t1.poisonedAt tr.pa p.2 tr.key then (.error (stPoison, p.1), t1)
             else match t1.readLines cache die ctx p.1 tr p.2 with
               | some r => (.ok (l ++ r.1), r.2)
               | none => (.error (stMoving, p.1), t1)
           else (.ok (l ++ b), k.2)
         | none, _ => (.error (stPhys, p.1), t1))
      | (.fault st, t1) => (.error (st, p.1), t1)
      | (.sparse, t1) => (.error (0x01, p.1), t1)
      | (.moving, t1) => (.error (stMoving, p.1), t1)
      | (.phys, t1) => (.error (stPhys, p.1), t1)
  let rest := (List.range (cdiv (n - first) 65536)).map fun i => (va + first + 65536 * i, min 65536 (n - first - 65536 * i))
  ((va, first) :: rest).foldl step (.ok [], s)
/-- Bytes read by an agent without a cache. -/
def State.readAs (s : State) (cluster die ctx : Nat) (user : Bool) (va n : Nat) : (Except (Nat × Nat) (List Byte)) × State :=
  s.readVia none cluster die ctx user va n
/-- Bytes of a context's address space, read by one of a die's own agents. -/
def State.devRead (s : State) (die ctx va : Nat) (n : Nat) : (Except (Nat × Nat) (List Byte)) × State :=
  s.readAs (engineCluster die) die ctx false va n

/-- Whether a die's write is answered with an error (R386, R453). -/
def State.writeRefused (s : State) (die : Nat) (tr : Trans) : Bool :=
  s.reachFor die tr.pa == .broken || (s.spaceOf tr.pa == some .global && !s.keyed tr.key)
/-- A device agent's write to a context's address space: its W, or the fault. -/
def State.writeAs (s : State) (die ctx : Nat) (user : Bool) (va : Nat) (data : List Byte) : (Except Nat Nat) × State :=
  match s.translate (engineCluster die) die ctx va ⟨true, false, user⟩ with
  | (.ok tr, s1) =>
    if s1.spaceOf tr.pa = none then (.error stPhys, s1)
    else if s1.writeRefused die tr then (.error stOff, s1)
    else if s1.reachFor die tr.pa = .wait then (.error stMoving, s1)
    else
      let k := s1.taken tr.pa
      if !k.1 then (.error stOff, k.2)
      else
        let r := k.2.devStoreFor die ctx va tr.hint tr.pa tr.key data
        (.ok r.1, r.2)
  | (.fault st, s1) => (.error st, s1)
  | (.sparse, s1) => (.error 0x01, s1)
  | (.moving, s1) => (.error stMoving, s1)
  | (.phys, s1) => (.error stPhys, s1)
/-- A write of one of a die's own agents. -/
def State.devWrite (s : State) (die ctx va : Nat) (data : List Byte) : (Except Nat Nat) × State := s.writeAs die ctx false va data

/-- A device agent's release: a number added to a 64-bit word of a context's address space (R243, R361, R426). -/
def State.addAs (s : State) (die ctx : Nat) (user : Bool) (va n : Nat) : (Except Nat Nat) × State :=
  match s.translate (engineCluster die) die ctx va ⟨true, false, user⟩ with
  | (.ok tr, s1) =>
    if s1.spaceOf tr.pa = none then (.error stPhys, s1)
    else if s1.writeRefused die tr then (.error stOff, s1)
    else if s1.reachFor die tr.pa = .wait then (.error stMoving, s1)
    else
      let k := s1.taken tr.pa
      let old := ofBytes (s1.physFuture tr.pa 8 tr.key)
      if !k.1 then (.error stOff, k.2)
      else
        let r := k.2.devStoreFor die ctx va tr.hint tr.pa tr.key (toBytes 8 (old + n))
        (.ok r.1, r.2)
  | (.fault st, s1) => (.error st, s1)
  | (.sparse, s1) => (.error 0x01, s1)
  | (.moving, s1) => (.error stMoving, s1)
  | (.phys, s1) => (.error stPhys, s1)

def State.devAdd (s : State) (die ctx va n : Nat) : (Except Nat Nat) × State := s.addAs die ctx false va n

/-! ### The checks of a group's access (R201) -/

/-- One lane's access: lane, tagged address, pointer canonical. -/
structure LaneAcc where
  lane : Nat
  addr : Nat
  canon : Bool
  deriving DecidableEq, Repr

/-- A lane's access with its translation. -/
structure LaneTr where
  lane : Nat
  addr : Nat
  tr : Trans
  deriving DecidableEq, Repr

/-- What the checks of R201 answer. -/
inductive Chk where
  | go (ts : List LaneTr) (sparse : List Nat)
  | page (status addr : Nat) (lanes : Mask)
  | tag (ptr gran addr : Nat) (lanes : Mask)
  | moving
  deriving DecidableEq, Repr

/-- One lane's answer on the way. -/
inductive LaneRes where
  | ok (t : LaneTr)
  | sparse (lane : Nat)
  | moving
  | fault (lane addr status : Nat)
  deriving DecidableEq, Repr

/-- Every lane's translation, in ascending order of lanes. -/
def State.transLanes (s : State) (cluster die ctx : Nat) (w : Want) (nr : Bool) :
    List LaneAcc → List LaneRes × State
  | [] => ([], s)
  | a :: r =>
    let one : LaneRes × State :=
      if !a.canon then (.fault a.lane a.addr 0x06, s)
      else match s.translate cluster die ctx (vaOf a.addr) w with
        | (.ok t, s1) => (.ok ⟨a.lane, a.addr, t⟩, s1)
        | (.sparse, s1) => (if nr then .sparse a.lane else .fault a.lane a.addr 0x01, s1)
        | (.moving, s1) => (.moving, s1)
        | (.fault st, s1) => (.fault a.lane a.addr st, s1)
        | (.phys, s1) => (.ok ⟨a.lane, a.addr, ⟨2 ^ 48, .global, 0, false, false, .normal, 0, 0⟩⟩, s1)
    let rest := one.2.transLanes cluster die ctx w nr r
    (one.1 :: rest.1, rest.2)

/-- The granule of a lane's access whose tag differs from the pointer's, if one does (R323). -/
def State.tagMiss (s : State) (size : Nat) (t : LaneTr) : Option (Nat × Nat) :=
  if t.tr.tagOn && s.spaceOf t.tr.pa == some .global then
    match findN (cdiv (t.tr.pa % 32 + size) 32) fun i => s.granuleTag (t.tr.pa + 32 * i) t.tr.key != tagOf t.addr with
    | some i => some (tagOf t.addr, s.granuleTag (t.tr.pa + 32 * i) t.tr.key)
    | none => none
  else none

/-- PAGEFAULT over every page, then TAGFAULT over every granule (R201). A page held by the moving bit holds
the access unless another lane's fault is already known. `tags` says whether tags are compared. -/
def State.checkLanes (s : State) (cluster die ctx : Nat) (w : Want) (nr tags : Bool) (size : Nat)
    (l : List LaneAcc) : Chk × State :=
  let r := s.transLanes cluster die ctx w nr l
  let faults := r.1.filterMap fun x => match x with
    | .fault a b c => some (a, b, c)
    | _ => none
  match faults with
  | (_, a, st) :: _ => (.page st a (maskOf fun i => faults.any fun f => f.1 == i), r.2)
  | [] =>
    if r.1.any fun x => decide (x = .moving) then (.moving, r.2)
    else
      let ts := r.1.filterMap fun x => match x with
        | .ok t => some t
        | _ => none
      let sp := r.1.filterMap fun x => match x with
        | .sparse a => some a
        | _ => none
      let bad := if tags then ts.filterMap fun t => (r.2.tagMiss size t).map fun m => (t, m) else []
      match bad with
      | (t, m) :: _ => (.tag m.1 m.2 t.addr (maskOf fun i => bad.any fun b => b.1.lane == i), r.2)
      | [] => (.go ts sp, r.2)

end Sys2Proof.Machine
end

