-- ==== Sys2Proof/Machine/Ops.lean ====
section
/-! DEFINITION. The shared operations of groups: records changed, messages and log records (R78, R351,
R414), the end of teams, launches and contexts (R132, R350), fetching code (R93, R127), taking a trap and
returning from one (R370 to R377), and the common issue of an instruction by a group (R105 to R111). -/
namespace Sys2Proof.Machine

/-! ### Records changed -/

def State.modGroup (s : State) (g : Nat) (f : Group → Group) : State := { s with groups := tmod s.groups g f }
def State.modCtl (s : State) (g : Nat) (f : Ctl → Ctl) : State := s.modGroup g fun x => { x with ctl := f x.ctl }
def State.modRegs (s : State) (g : Nat) (f : Regs → Regs) : State := s.modGroup g fun x => { x with regs := f x.regs }
def State.modTeam (s : State) (t : Nat) (f : Team → Team) : State := { s with teams := tmod s.teams t f }
def State.modSpan (s : State) (n : Nat) (f : Span → Span) : State := { s with spans := tmod s.spans n f }
def State.modLaunch (s : State) (l : Nat) (f : Launch → Launch) : State := { s with launches := tmod s.launches l f }
def State.modRun (s : State) (c : Nat) (f : CtxRun → CtxRun) : State := { s with runs := tmod s.runs c f }
def State.modOp (s : State) (o : Nat) (f : Op → Op) : State := { s with work := { s.work with ops := tmod s.work.ops o f } }
def State.delOp (s : State) (o : Nat) : State := { s with work := { s.work with ops := tdel s.work.ops o } }
def State.delReq (s : State) (r : Nat) : State := { s with work := { s.work with reqs := tdel s.work.reqs r } }
def State.modCtx (s : State) (c : Nat) (f : Ctx → Ctx) : State := { s with ctxs := tmod s.ctxs c f }
def State.setFaults (s : State) (t : Tbl FaultRec) : State := { s with work := { s.work with faults := t } }
def State.modPkg (s : State) (f : Pkg → Pkg) : State := { s with pkg := f s.pkg }
def State.modMgmt (s : State) (f : Mgmt → Mgmt) : State := { s with mgmt := f s.mgmt }

/-- The operations of a group or span that are outstanding. -/
def State.opsOf (s : State) (g : Nat) : Tbl Op := s.work.ops.filter fun o => o.2.gid == g
/-- The requests of an operation. -/
def State.reqsOf (s : State) (o : Nat) : Tbl Req := s.work.reqs.filter fun r => r.2.op == o
/-- The groups of a team. -/
def State.groupsOf (s : State) (t : Nat) : Tbl Group := s.groups.filter fun g => g.2.team == t
/-- The die of a launch's teams on a core. -/
def Team.linear (t : Team) (l : Launch) : Nat := t.ty * l.gx + t.tx
/-- A context's register and work record. -/
def State.run (s : State) (c : Nat) : CtxRun :=
  (tget s.runs c).getD ⟨0, 0, 0, 0, 0, 0, 0, 200, 50, 1, [], none, false, false, 0, 0, 0⟩

/-! ### Messages and log records -/

/-- An MSI-X message that follows a device write of W `w`: it is sent once GT has passed `w` (R414). Vectors at or above
2,048 send nothing. -/
def State.msi (s : State) (w v : Nat) : State :=
  if v < 2048 then { s with work := { s.work with msi := s.work.msi ++ [(v, w)] } } else s
/-- The physical address of a context's descriptor (R350). -/
def State.descAddr (s : State) (c : Nat) : Nat := s.pkg.ctxbase + 512 * c
/-- A device-written 32-bit field of a descriptor, stored through the platform key slot: the store's W. -/
def State.descStore (s : State) (c off v : Nat) : Nat × State := s.devStore (s.descAddr c + off) 0 (toBytes 4 v)
def State.descPut (s : State) (c off v : Nat) : State := (s.descStore c off v).2
/-- A 32-bit field of a descriptor as it stands. -/
def State.descGet (s : State) (c off : Nat) : Nat := s.physNum (s.descAddr c + off) 4 0

/-- Word 0 of a record of kind 0x01 or 0x02 (R78, R351). -/
def recWord (kind code grp team : Nat) (span : Bool) : Nat :=
  packF [(kind, 0), (code, 8), (grp, 16), (team, 20), (b2n span, 63)]
/-- The 64-bit value of a clause position (R93). -/
def Pos.word (p : Pos) : Nat := (p.h * 64 + p.k) % 2 ^ 64
/-- The clause position of a 64-bit value. -/
def Pos.ofWord (w : Nat) : Pos := ⟨w / 64, w % 64⟩

/-! ### Who issues -/

/-- A group that issues an instruction, with everything it belongs to. -/
structure GI where
  gid : Nat
  g : Group
  team : Team
  launch : Launch
  i : Instr
  deriving DecidableEq, Repr

/-- The issuing group's records. -/
def State.gi (s : State) (gid : Nat) (i : Instr) : Option GI :=
  match tget s.groups gid with
  | none => none
  | some g =>
    match tget s.teams g.team with
    | none => none
    | some t =>
      match tget s.launches t.launch with
      | none => none
      | some l => some ⟨gid, g, t, l, i⟩

def GI.die (e : GI) : Nat := coreDie e.g.core
def GI.ctx (e : GI) : Nat := e.launch.ctx
def GI.mode (e : GI) : Word := e.g.regs.mode
/-- The words of the issuing instruction. -/
def GI.words (e : GI) : List Nat := encode e.i
/-- The instruction's first word, as trap registers report it. -/
def GI.word (e : GI) : Nat := e.words.headD 0
/-- The lanes that the instruction writes (R49). -/
def GI.lanes (e : GI) : Mask := e.g.writers
/-- The lanes that store: helper lanes are excluded (R16, R200). -/
def GI.storeLanes (e : GI) : Mask := e.g.writers &&& ~~~e.g.helpers
/-- The flag that the clause's header gives the instruction's class (R107). -/
def GI.flag (e : GI) : Nat := if e.i.cls = .longB then e.g.ctl.setb else e.g.ctl.seta
/-- The header after the instruction's own clause: N of R128. -/
def Ctl.nextHeader (c : Ctl) : Nat := c.pos.h + 4 * (c.len + 1)
/-- The position after the issuing instruction. -/
def GI.after (e : GI) : Pos :=
  let c := e.g.ctl
  let k := c.pos.k + e.words.length
  if k ≤ c.len then ⟨c.pos.h, k⟩ else ⟨c.nextHeader, 0⟩
/-- Whether a launch is the Transom launch (R390). -/
def State.isTransom (s : State) (l : Launch) : Bool := l.ctx == s.pkg.trctx && l.ident.toNat == s.pkg.trlid

/-! ### Fetching code -/

/-- What fetching a word answers. -/
inductive Fetched where
  | word (w : Nat)
  | fault (status : Nat)
  | moving
  | phys
  /-- its data are poisoned, or its home answers with an error -/
  | trap (c : Cause)
  deriving DecidableEq, Repr

/-- A word of code read at a physical address by a core of a die: what it answers where the word is poisoned, or where its
home answers with an error, the spec does not state for a fetch; it is what a load's completion raises (R201, R453;
DEDUCED, log entry 127). -/
def State.fetchWord (s : State) (die pa key : Nat) : Fetched :=
  match s.physRead pa 4 key, s.reachFor die pa with
  | none, _ => .phys
  | some _, .wait => .moving
  | some _, .broken => .trap .dieoff
  | some b, .ok =>
    if s.spaceOf pa = some .global ∧ (!s.keyed key ∨ s.poisonedAt pa 4 key) then .trap .poison else .word (ofBytes b)
/-- The word of a launch's accepted code at an address (R127). -/
def Launch.codeWord (l : Launch) (a : Nat) : Option Nat :=
  if l.code ≤ a ∧ a % 4 = 0 ∧ (a - l.code) / 4 < l.words.length then (l.words[(a - l.code) / 4]?).map (·.toNat)
  else none
/-- A word of code as the group would fetch it on entering a clause: its page must permit the fetch (R319);
the accepted code is what was read at acceptance: of the old word and the new one that R127 allows after a store to
running code, the old (DESIGN CHOICE, log entry 99). No word stands at an address that is not a multiple of 4 (R93), so
no header is found there. -/
def GI.fetch (e : GI) (s : State) (lv : Level) (a : Nat) : Fetched :=
  if !(decide (a < 2 ^ 56)) then .fault 0x06
  else if a % 4 ≠ 0 then .word 0
  else match (s.translate (coreTlb e.g.core) e.die e.ctx a ⟨false, true, lv = .u⟩).1 with
    | .fault st => .fault st
    | .sparse => .fault 0x01
    | .moving => .moving
    | .phys => .phys
    | .ok t =>
      match e.launch.codeWord a with
      | some w => .word w
      | none => s.fetchWord e.die t.pa t.key
/-- A word inside the clause under way: its page's permission was checked when the clause was entered. -/
def GI.fetchIn (e : GI) (s : State) (a : Nat) : Fetched :=
  match e.launch.codeWord a with
  | some w => .word w
  | none => e.fetch s e.g.ctl.level a
/-- Whether a word is a clause header (R94). -/
def isHeader (w : Nat) : Bool := w / 67108864 == 0x3F

/-! ### The end of work -/

/-- A group's record leaves the machine; its outstanding operations and requests that no home has yet
performed go with it unless they write memory. A fault of it that waits for room in the fault queue still gets its
entry (R352). -/
def State.dropGroup (s : State) (gid : Nat) : State :=
  { s with
    groups := tdel s.groups gid
    work := { s.work with
      ops := s.work.ops.filter fun o => o.2.gid != gid
      reqs := s.work.reqs.filter fun r => !(r.2.gid == gid && decide (r.2.kind = .load))
      arrives := s.work.arrives.filter fun a => a.2.gid != gid
      faults := s.work.faults.filter fun f => !(f.2.kind == 1 && !f.2.moving && f.2.holder == gid && f.2.seq != 0) } }
/-- A team's record and everything that works for it leave the machine. -/
def State.dropTeam (s : State) (tid : Nat) : State :=
  let s1 := (s.groupsOf tid).foldl (fun a g => a.dropGroup g.1) s
  let core := match tget s.teams tid with
    | some t => t.core
    | none => 0
  let s2 := { s1 with
    teams := tdel s1.teams tid
    work := { s1.work with
      copies := s1.work.copies.filter fun c => !(c.2.team == tid && c.2.node.isNone)
      ops := s1.work.ops.filter fun o => o.2.team != tid } }
  s2.modDie (coreDie core) fun d =>
    { d with
      mqueue := d.mqueue.map fun q => (q.1, q.2.filter fun o => (tget s2.work.ops o).isSome)
      mrun := d.mrun.filter fun q => (tget s2.work.ops q.2).isSome }
/-- A launch's die scratchpads go when it has no team left on the die (R284). -/
def State.releaseScratch (s : State) (lid : Nat) : State :=
  (List.range 4).foldl (fun a d =>
    if (a.teams.any fun t => t.2.launch == lid && coreDie t.2.core == d) ||
        (a.spans.any fun x => x.2.launch == lid && coreDie x.2.core == d) ||
        (a.saved.any fun x => x.2.launch == lid && x.2.die == d) ||
        (match tget a.launches lid with
         | some l => decide (l.nextT.getD d 0 < l.endT.getD d 0) && !l.stopped
         | none => false)
    then a
    else { a with mem := { a.mem with scratch := tdel a.mem.scratch (lid * 4 + d) } }) s
/-- Whether any item of a launch has not ended. -/
def State.launchBusy (s : State) (lid : Nat) : Bool :=
  (match tget s.launches lid with
   | some l => !l.stopped && (List.range 4).any fun d => decide (l.nextT.getD d 0 < l.endT.getD d 0)
   | none => false) ||
  (s.teams.any fun t => t.2.launch == lid) || (s.spans.any fun x => x.2.launch == lid) ||
  (s.saved.any fun x => x.2.launch == lid)

/-- A running replay's node changed. -/
def State.modNode (s : State) (c n : Nat) (f : Node → Node) : State :=
  s.modRun c fun r => { r with replay := r.replay.map fun p => { p with nodes := lmod p.nodes n f } }
/-- A time that no write has a W beyond: the greatest W of those pending at their homes, or the greatest GT that a die can
read. -/
def State.pendMax (s : State) : Nat := s.mem.lines.foldl (fun m l => l.2.pend.foldl (fun k p => max k p.w) m) (s.gt + 2)
/-- A release that the device owes, as an operation of no group: one is added to a word once the writes that it releases
have completed (R243, R426). -/
def State.oweAdd (s : State) (i : Instr) (w : Nat) (misc : List Nat) : State :=
  let n := s.fresh
  let op : Op :=
    { gid := 0, team := 0, core := 0, instr := i, flag := 15, pos := ⟨0, 0⟩, mode := 0, lanes := 0, wlanes := 0, svals := [],
      vvals := [], tile := [], writes := [], exc := 0, excLanes := 0, st := .ready, at_ := s.gt, w := w,
      await := ⟨[], [], [], w⟩, misc := misc, user := false }
  { n.2 with work := { n.2.work with ops := tput n.2.work.ops n.1 op } }
/-- Whether an access that the device makes for itself waits for a resolve kick. -/
def State.deviceHeld (s : State) (ctx holder : Nat) : Bool :=
  s.work.faults.any fun f => f.2.kind == 5 && f.2.ctx == ctx && f.2.holder == holder
/-- A fault met by an access that the device makes for itself, for a graph, a node or a launch's descriptor, and that left
the state `s1`: a moving page is met again, a resolvable fault goes to the fault queue, which receives every such fault
(R352), and anything else has its own consequence. The table of R352 gives these entries no kind: the model's own number is
5, and the entry's kind byte is a free value (DESIGN CHOICE, log entry 112). -/
def State.deviceFault (s s1 : State) (ctx st addr holder : Nat) (write : Bool) (bad : State → State) : State :=
  if st == stMoving then s
  else if resolvable st then
    let f := s1.fresh
    f.2.setFaults (tput f.2.work.faults f.1
      { ctx := ctx, kind := 5, status := st, core := 0xFFFF, team := 0, group := 0, write := write, read := !write,
        addr := addr, lanes := 0, seq := 0, holder := holder, moving := false })
  else bad s1
/-- A node reported done, with the W that its writes reach, or failed; NODE_COMPLETE takes it from there (R355, R358). -/
def State.nodeDone (s : State) (c n : Nat) : State :=
  let w := s.pendMax
  s.modNode c n fun x => if x.st = .run then { x with st := .done, at_ := w } else x
def State.nodeFail (s : State) (c n status addr : Nat) : State :=
  s.modNode c n fun x => if x.st = .run ∨ x.st = .idle then { x with st := .failed, status := status, addr := addr } else x

/-- A launch of which every item has ended completes: its node, or its SPAWN signal, which releases every write of the
child's (R243, R355). -/
def State.launchCheck (s : State) (lid : Nat) : State :=
  match tget s.launches lid with
  | none => s
  | some l =>
    let s0 := s.releaseScratch lid
    if s0.launchBusy lid then s0
    else
      let s1 := { s0 with launches := tdel s0.launches lid }
      if l.stopped then s1
      else match l.source with
        | .node c n => s1.nodeDone c n
        | .spawn none => s1
        | .spawn (some va) => s1.oweAdd (.spawn 0 0 0 true 0) s1.pendMax [va, l.ctx]

/-- A team completes when it has no group and the copies and draws that its groups handed over have completed. -/
def State.teamCheck (s : State) (tid : Nat) : State :=
  match tget s.teams tid with
  | none => s
  | some t =>
    if (s.groupsOf tid).isEmpty && t.left.copies.isEmpty && t.left.draws.isEmpty then (s.dropTeam tid).launchCheck t.launch else s
/-- Teams of which no group is left complete with the last of what their groups handed over. -/
def State.teamsCheck (s : State) : State := s.teams.foldl (fun a t => a.teamCheck t.1) s

/-- Whether an operation holds a record of a context that its ring has not taken. -/
def Op.isRecord (o : Op) (c : Nat) : Bool :=
  o.gid == 0 && o.misc.head? == some c && match o.instr with
    | .trap _ => true
    | _ => false
/-- A retention register's lines become ordinary lines (R235). -/
def State.unpin (s : State) (d i : Nat) : State :=
  let s1 := s.modDie d fun x => { x with retain := x.retain.set i Retain.reset }
  { s1 with mem := { s1.mem with ways := s1.mem.ways.map fun w =>
      if w.die == d && w.reserved == some i then { w with reserved := none, inRange := none } else w } }

/-- The draws of a context that its end abandons: FRAGS, FRAGOVF and ERR 2 are written, and the signal is owed once the
draw's writes have completed (R426). Each draw comes with its counts and the W of its last write. The status block's
address is translated now: the context's translations end with it. -/
def State.abandonDraws (s : State) (c : Nat) : State :=
  let ds : List (Draw × Nat × Nat × Nat) := s.dies.flatMap fun d => d.rasters.flatMap fun r =>
    ((match r.run with
      | some x => [(x.draw, x.frags, x.fragOvf, x.lastW)]
      | none => []) ++ r.queue.map fun q => (q, 0, 0, 0)).filter fun x => x.1.ctx == c
  ds.foldl (fun a x =>
    let d := x.1
    let put (p : Nat × State) (off : Nat) (b : List Byte) : Nat × State :=
      match p.2.devWrite 0 c (d.status + off) b with
      | (.ok w, t) => (max p.1 w, t)
      | (.error _, t) => (p.1, t)
    let p := put (put (x.2.2.2, a) 8 (toBytes 4 x.2.1 ++ toBytes 4 x.2.2.1)) 0x1C (toBytes 4 2)
    match p.2.translate (engineCluster 0) 0 c d.status ⟨true, false, false⟩ with
    | (.ok tr, t) => t.oweAdd (.draw 0 0 0 false) p.1 [tr.pa, tr.key]
    | (_, t) => t) s
/-- A context ends (R350): its teams and spans go without a save, its retention registers and translations
are released, its launches, replays, kicks and queued work go. -/
def State.endContext (s : State) (c : Nat) : State :=
  let lids := (s.launches.filter fun l => l.2.ctx == c).map (·.1)
  let tids := (s.teams.filter fun t => lids.contains t.2.launch).map (·.1)
  let s1 := tids.foldl (fun a t => a.dropTeam t) (s.abandonDraws c)
  let asid := match tget s.ctxs c with
    | some x => some x.asid
    | none => none
  let s2 := { s1 with
    spans := s1.spans.filter fun x => !lids.contains x.2.launch
    saved := s1.saved.filter fun x => !lids.contains x.2.launch
    launches := s1.launches.filter fun l => l.2.ctx != c
    ctxs := tdel s1.ctxs c
    runs := tdel s1.runs c
    mem := { s1.mem with
      tlb := s1.mem.tlb.filter fun t => some t.asid != asid
      walks := s1.mem.walks.filter fun t => some t.asid != asid
      scratch := s1.mem.scratch.filter fun x => !lids.contains (x.1 / 4)
      grids := s1.mem.grids.filter fun x => x.ctx != c }
    work := { s1.work with
      faults := s1.work.faults.filter fun f => f.2.ctx != c
      ops := s1.work.ops.filter fun o => !(o.2.gid == 0 && (match o.2.instr with
        | .spawn _ _ _ _ _ => o.2.misc.getD 1 0 == c
        | .pyield => o.2.misc.head? == some c
        | _ => o.2.isRecord c))
      subs := s1.work.subs.filter fun x => x.2.ctx != c
      copies := s1.work.copies.filter fun x => (x.2.node.map (·.1)) != some c }
    dies := s1.dies.map fun d => { d with
      board := d.board.filter fun x => x.ctx != c
      rasters := d.rasters.map fun r =>
        { queue := r.queue.filter fun x => x.ctx != c
          run := match r.run with
            | some x => if x.draw.ctx == c then none else some x
            | none => none } }
    caravans := s1.caravans.map fun e => { e with asks := e.asks.filter fun a => !(a.ctx == c && a.claim.isSome) } }
  (List.range 4).foldl (fun a d => (List.range 4).foldl (fun b i =>
    if ((b.die d).retain.getD i Retain.reset).valid && ((b.die d).retain.getD i Retain.reset).ctx == c
    then b.unpin d i else b) a) s2

/-! ### The error log ring (R351) -/

/-- A record's two writes tried now: the state with them, or the status and address of a fault that keeps the ring from
taking the record: a moving page, a fault that the supervisor can resolve, an address that does not exist. -/
def State.logTry (s : State) (c : Nat) (ws : List Nat) : Option (Nat × Nat) × State :=
  match tget s.ctxs c with
  | none => (none, s)
  | some x =>
    if (x.logHead + 2 ^ 32 - s.descGet c 0x54) % 2 ^ 32 ≥ 2 ^ x.logLog then
      let n := (x.logOvf + 1) % 2 ^ 32
      (none, (s.modCtx c fun y => { y with logOvf := n }).descPut c 0x4C n)
    else
      let va := x.logBase + 32 * (x.logHead % 2 ^ x.logLog)
      let n := (x.logHead + 1) % 2 ^ 32
      let r := s.devWrite 0 c va (ws.flatMap (toBytes 8))
      let done (u : Nat) : State :=
        let h := (r.2.modCtx c fun y => { y with logHead := n }).descStore c 0x50 n
        if x.logmsi then h.2.msi (max u h.1) (h.2.run c).msiLog else h.2
      match r.1 with
      | .ok u => (none, done u)
      | .error st => if st = stMoving ∨ st = stPhys ∨ resolvable st = true then (some (st, va), r.2) else (none, done 0)
/-- Records of a context that wait for their ring, oldest first. -/
def State.recordsHeld (s : State) (c : Nat) : List Nat := (s.work.ops.filter fun o => o.2.isRecord c).map (·.1)
/-- A 32-byte record appended to a context's error log ring (R351). One that the ring cannot take now waits, as an operation
of no group, and so do the records behind it: the device appends them in the order in which it produces them. Those that still
wait when their context ends are dropped (DESIGN CHOICE, log entry 141). -/
def State.logRecord (s : State) (c : Nat) (w0 w1 w2 w3 : Nat) : State :=
  let ws := [w0, w1, w2, w3]
  if !(s.recordsHeld c).isEmpty then s.oweAdd (.trap 0) 0 (c :: ws)
  else match s.logTry c ws with
    | (none, s1) => s1
    | (some _, s1) => s1.oweAdd (.trap 0) 0 (c :: ws)
/-- The oldest record of a context that waits is tried again: a moving page is met again (R326), a resolvable fault goes to
the fault queue (R352), and an address that does not exist ends the context (R328). -/
def State.recordAgain (s : State) (o c : Nat) (ws : List Nat) : State :=
  if s.deviceHeld c o || (s.recordsHeld c).head? != some o then s
  else match s.logTry c ws with
    | (none, s1) => s1.delOp o
    | (some (st, va), s1) => if st = stPhys then s1.endContext c else s.deviceFault s1 c st va o true fun t => t.delOp o
/-- A PHYSRANGE of an engine ends its context, with a record (R328, R370). -/
def State.enginePhys (s : State) (c : Nat) : State :=
  (s.logRecord c (packF [(0x02, 0), (Cause.physrange.code, 8)]) 0 0 s.gt).endContext c

/-! ### Arithmetic exceptions (R76 to R78) -/

/-- The exceptions of an instruction of a group take effect at GT `at_`: sticky bits, and a record under AEXC. -/
def State.arithAt (s : State) (gid : Nat) (mode : Word) (h : Nat) (exc : Exc) (lanes : Mask) (at_ : Nat) : State :=
  if exc = 0 then s
  else
    let s1 := s.modGroup gid fun g => { g with sticky := g.sticky ||| exc }
    if mAexc mode then
      match s1.gi gid .nop with
      | some e =>
        s1.logRecord e.ctx (recWord 0x01 exc.toNat e.g.num (e.team.linear e.launch) false)
          (nfld h 2 54 + 2 ^ 54 * e.g.core) lanes.toNat at_
      | none => s1
    else s1
/-- Cycles of a die's core clock in ns: limits counted in cycles stretch with the clock (R455). -/
def State.cycles (s : State) (die n : Nat) : Nat := cdiv (1000 * n) (max 1 (s.die die).clk)
/-- The latency in cycles of a Short instruction that can raise exceptions (R106). -/
def shortLatency : Instr → Nat
  | .fdot2 _ _ _ => 6
  | .qddx _ _ _ => 6
  | .qddy _ _ _ => 6
  | .redlog _ _ _ => 8
  | .scanlog _ _ _ _ => 8
  | .vmatchf _ _ => 8
  | _ => 4
/-- The GT at which the issuing Short instruction completes: its latency in cycles of its die's clock, in whole ns, and not
before an instruction that the group issued earlier (R77, R78, R106; DEDUCED, log entry 126). -/
def GI.dueAt (e : GI) (s : State) : Nat :=
  max (s.gtOf e.g.core + s.cycles e.die (shortLatency e.i)) ((e.g.late.getLast?.map (·.due)).getD 0)
/-- A Short instruction has raised exceptions: they take effect when its latency has passed (R77). -/
def State.raised (s : State) (e : GI) (exc : Exc) (lanes : Mask) : State :=
  if exc = 0 then s
  else s.modGroup e.gid fun g =>
    { g with late := g.late ++ [⟨e.dueAt s, exc, lanes, e.g.ctl.pos.h, e.mode, e.i.defs e.mode⟩] }
/-- A group's exceptions that are due take effect, in issue order (R77, R78). -/
def State.lateOf (s : State) (gid core : Nat) : List Late → State
  | [] => s
  | l :: r =>
    if l.due ≤ s.gtOf core then
      ((s.modGroup gid fun g => { g with late := g.late.tail }).arithAt gid l.mode l.header l.exc l.lanes l.due).lateOf gid core r
    else s
/-- A group whose exceptions are due. -/
def State.lateDue (s : State) : Option Nat :=
  if s.power then (s.groups.find? fun x => x.2.late.any fun l => decide (l.due ≤ s.gtOf x.2.core)).map (·.1) else none
/-- That group's exceptions take effect. -/
def State.lateTurn (s : State) (gid : Nat) : State :=
  match tget s.groups gid with
  | some g => s.lateOf gid g.core g.late
  | none => s
/-- Every exception of a group that has not taken effect takes effect now: its cross-lane and float instructions are
complete before the group goes (R77, R196). -/
def State.lateAll (s : State) (gid : Nat) : State :=
  match tget s.groups gid with
  | some g => g.late.foldl (fun a l => a.arithAt gid l.mode l.header l.exc l.lanes l.due) (s.modGroup gid fun x => { x with late := [] })
  | none => s

/-! ### Traps (R370 to R377) -/

/-- A record of kind 0x02 (R351). -/
def GI.eventRecord (e : GI) (s : State) (c : Cause) (pos : Pos) (lanes : Mask) : State :=
  s.logRecord e.ctx (recWord 0x02 c.code e.g.num (e.team.linear e.launch) false) pos.word lanes.toNat (s.gtOf e.g.core)

/-- Whether every flag of a group is clear (R111). -/
def Group.flagsClear (g : Group) : Bool := g.flags.all fun n => n == 0
/-- Whether a group's flags are clear and the exceptions of its instructions have taken effect: its instructions are complete
(R111, R196). -/
def Group.quiet (g : Group) : Bool := g.flagsClear && g.late.isEmpty
/-- A group that meets a resolvable PAGEFAULT is descheduled, and an entry awaits the fault queue (R377). `acc` is bit 0 read,
bit 1 write. -/
def GI.desched (e : GI) (s : State) (st acc addr : Nat) (lanes : Mask) : State :=
  let f := s.fresh
  let r : FaultRec :=
    { ctx := e.ctx, kind := 1, status := st, core := e.g.core, team := e.team.linear e.launch, group := e.g.num,
      write := nbit acc 1, read := nbit acc 0, addr := addr, lanes := lanes, seq := 0, holder := e.gid, moving := false }
  (f.2.setFaults (tput f.2.work.faults f.1 r)).modCtl e.gid fun c => { c with desched := some f.1 }

/-- Entry to the S or M handler for the group's pending trap, once its flags are clear (R373): the bank of
the handler's level is written, MODE and level change, and the group stands at the handler's header. A
handler address that names no clause header is ILLEGAL, reported where the group stood (R96); that trap could reach no
handler either, so the context ends with its record (DESIGN CHOICE, log entry 100). A resolvable fault of that fetch
deschedules the group, which enters once it is resolved (R377). The firmware's routine for misaligned
accesses is the device's own: it issues no clause, so the clause under way keeps its fields (R311). -/
def State.enterTrap (s : State) (gid : Nat) : State :=
  match s.gi gid .nop with
  | none => s
  | some e =>
    match e.g.ctl.trap with
    | none => s
    | some t =>
      if !e.g.quiet || e.g.ctl.desched.isSome then s
      else
        let lv : Level := if t.toM then .m else .s
        let vec := if t.toM then Config.mvec else match tget s.ctxs e.ctx with
          | some c => c.svec
          | none => 0
        let old := if t.toM then e.g.bankM else e.g.bankS
        let bank : TrapBank :=
          { cause := t.cause.code, plev := e.g.ctl.level, mode := e.g.regs.mode, arg := BitVec.ofNat 64 t.arg,
            resume := BitVec.ofNat 64 t.resume.word, addr := BitVec.ofNat 64 t.addr, lanes := t.lanes,
            scratch := old.scratch }
        let enter : State := s.modGroup gid fun g =>
          { g with
            tags := []
            latch := { g.latch with valid := false }
            bankS := if t.toM then g.bankS else bank
            bankM := if t.toM then bank else g.bankM
            regs := { g.regs with mode := modeEntry }
            ctl := { g.ctl with
              trap := none
              hold := none
              holdArg := []
              level := lv
              pos := ⟨vec, 0⟩
              emul := if t.toM ∧ t.cause = .misalign then some 0 else none } }
        if t.toM then enter
        else match e.fetch s lv vec with
          | .word w => if isHeader w then enter else (e.eventRecord s .illegal e.g.ctl.pos 0).endContext e.ctx
          | .fault st =>
            if resolvable st then e.desched s st 1 vec 0 else (e.eventRecord s .pagefault e.g.ctl.pos 0).endContext e.ctx
          | .trap c => (e.eventRecord s c e.g.ctl.pos 0).endContext e.ctx
          | .phys => (e.eventRecord s .physrange e.g.ctl.pos 0).endContext e.ctx
          | .moving => s

/-- A trap of a group: pending at once, entered as soon as the flags allow (R370, R373, R376). PHYSRANGE, and
any trap inside a handler but the two that R376 admits, ends the context with a record, once the group's instructions are
complete (R196). -/
def State.raise (s : State) (gid : Nat) (t : TrapRec) : State :=
  match s.gi gid .nop with
  | none => s
  | some e =>
    if t.cause = .physrange then (e.eventRecord (s.lateAll gid) .physrange e.g.ctl.pos t.lanes).endContext e.ctx
    else if e.g.ctl.level = .u ∨ (e.g.ctl.level = .s ∧ t.toM) ∨ (e.g.ctl.level = .m ∧ t.cause = .user ∧ t.toM) then
      (s.modCtl gid fun c => { c with trap := some t, hold := none, holdArg := [] }).enterTrap gid
    else (e.eventRecord (s.lateAll gid) t.cause e.g.ctl.pos t.lanes).endContext e.ctx

/-- Whether a group is held by a W instruction. -/
def Group.heldW (g : Group) : Bool :=
  match g.ctl.hold with
  | some i => i.cls == .waiting
  | none => false
/-- A completion fault: taken at once when the group can take it, through a W instruction that holds it too (R224), else
when it next issues (R201, R488). -/
def State.owe (s : State) (gid : Nat) (t : TrapRec) : State :=
  match tget s.groups gid with
  | none => s
  | some g =>
    if t.cause = .physrange then s.raise gid t
    else if g.ctl.ending then s
    else if g.ctl.trap = none ∧ (g.ctl.pre = .run ∨ g.ctl.pre = .handler) ∧ g.ctl.desched = none ∧ (g.ctl.hold = none ∨ g.heldW) then
      s.raise gid { t with resume := if t.cause = .dieoff then t.resume else g.ctl.pos }
    else s.modCtl gid fun c => { c with owed := c.owed ++ [t] }

/-- A PAGEFAULT at issue: resolvable, the group is descheduled and an entry awaits the fault queue; else it
traps (R372, R377). Under a request to pre-empt its team a descheduled group counts as yielded (R379). -/
def GI.pageFault (e : GI) (s : State) (st acc addr : Nat) (lanes : Mask) : State :=
  if resolvable st then
    (e.desched s st acc addr lanes).modCtl e.gid fun c =>
      { c with pre := if e.team.pre.isSome ∧ c.pre = .run ∧ c.level = .u ∧ e.g.sect.isNone then .yielded else c.pre }
  else
    s.raise e.gid ⟨.pagefault, st + acc * 256, addr, lanes, e.g.ctl.pos, false⟩

/-! ### Control -/

/-- What an instruction's own work answers. -/
inductive Fx where
  /-- its effect is made; the group goes on to the next word -/
  | done (s : State)
  /-- its effect is made; control goes to the clause header at an address -/
  | jump (s : State) (h : Nat)
  /-- the state is complete as it stands: held, stalled, ended -/
  | stay (s : State)
  /-- one of its own traps, the group as it was -/
  | trap (s : State) (c : Cause) (arg addr : Nat) (lanes : Mask)
  /-- a PAGEFAULT -/
  | page (s : State) (status acc addr : Nat) (lanes : Mask)
  deriving DecidableEq, Repr

/-- A trap at the issuing instruction. -/
def GI.trapHere (e : GI) (s : State) (c : Cause) (arg addr : Nat) (lanes : Mask) : State :=
  s.raise e.gid ⟨c, arg, addr, lanes, e.g.ctl.pos, false⟩

/-- A fetch that meets poisoned data or an error reply traps at the issuing instruction: POISON reports its clause position,
DIEOFF the address (R372). -/
def GI.fetchTrap (e : GI) (s : State) (c : Cause) (a : Nat) : State :=
  e.trapHere s c 256 (if c = .poison then e.g.ctl.pos.word else a) 0
/-- Control passes to a position, as the state `s1` after the instruction's effect; a target that is no clause
header, or that cannot be fetched, traps at the instruction with nothing of it done: `s` (R96, R319). -/
def GI.enter (e : GI) (s s1 : State) (p : Pos) : State :=
  let arrive : State := s1.modGroup e.gid fun g =>
    { g with ctl := { g.ctl with pos := p, hold := none, holdArg := [] }, lastIssue := s.gtOf e.g.core }
  if p.k ≠ 0 then arrive
  else if (tget s1.groups e.gid).isNone then s1
  else match e.fetch s (match tget s1.groups e.gid with
      | some g => g.ctl.level
      | none => .u) p.h with
    | .word w => if isHeader w then arrive else e.trapHere s .illegal e.word 0 0
    | .fault st => e.pageFault s st 1 p.h 0
    | .phys => e.trapHere s .physrange 0 p.h 0
    | .trap c => e.fetchTrap s c p.h
    | .moving => s

/-- The tags of what an instruction that is not Long has written go (R110). -/
def GI.untag (e : GI) (s : State) : State :=
  s.modGroup e.gid fun g =>
    if e.i.cls = .longA ∨ e.i.cls = .longB then g
    else { g with tags := g.tags.filter fun t => !(e.i.defs e.mode).contains t.reg }
/-- The end of an instruction's issue. -/
def GI.finish (e : GI) (s : State) : Fx → State
  | .done s1 => e.enter s (e.untag s1) e.after
  | .jump s1 h => e.enter s (e.untag s1) ⟨h, 0⟩
  | .stay s1 => s1
  | .trap s1 c arg addr lanes => e.trapHere s1 c arg addr lanes
  | .page s1 st acc addr lanes => e.pageFault s1 st acc addr lanes

/-- Whether a group may issue an instruction now: it is not held by another, descheduled, trapped, ending or
yielded (R369, R379). -/
def Group.ready (g : Group) (i : Instr) : Bool :=
  (g.ctl.hold == none || g.ctl.hold == some i) && g.ctl.desched == none && g.ctl.trap == none &&
  g.ctl.emul == none && !g.ctl.ending && (g.ctl.pre == .run || g.ctl.pre == .handler)

/-- The matrix instructions that service level 1 refuses (R445). -/
def matrixRefused (s : State) (m : Word) (i : Instr) : Bool :=
  s.mgmt.level == 1 && match i with
    | .mma _ _ _ _ => mMfmt m != 0
    | .mmap _ _ _ _ => mMfmt m != 0
    | .adrain _ _ _ _ => mMfmt m != 0
    | .agdrain _ _ _ => mMfmt m != 0
    | .astash _ _ _ => mMfmt m != 0
    | .mmabs _ _ _ _ _ => true
    | _ => false

/-- Whether an instruction is reserved to the Transom launch (R242, R243). -/
def transomOnly : Instr → Bool
  | .mbxrecv _ _ => true
  | .spawn _ _ _ _ _ => true
  | _ => false

/-- The A field of a matrix instruction issued with .r (R250). -/
def reuseA : Instr → Option Nat
  | .mma true _ a _ => some a
  | .mmap true _ a _ => some a
  | .mmabs true _ a _ _ => some a
  | _ => none
/-- Whether a matrix instruction takes its A operand from the group's valid latch, so that it reads no vector
register (R250). -/
def GI.latched (e : GI) : Bool := e.g.latch.valid && (reuseA e.i).isSome
/-- Whether the latch holds another operand than the instruction names (R250). -/
def GI.latchWrong (e : GI) : Bool :=
  e.latched && !(reuseA e.i == some e.g.latch.a && e.g.latch.mfmt == mMfmt e.mode)
/-- The registers that the issuing instruction reads. -/
def GI.readsNow (e : GI) : List Reg :=
  let l := e.i.reads e.mode ++ (if e.i.gated then [Reg.p (mGuard e.mode)] else [])
  if e.latched then l.filter fun r => match r with
    | .v _ => false
    | _ => true
  else l

/-- The first of the traps that every instruction is checked for (R105). -/
def GI.check (e : GI) (s : State) : Option Cause :=
  let i := e.i
  let c := e.g.ctl
  if !i.wf || !i.placeOk c.pos.k e.words.length c.len then some .illegal
  else if decide (c.level.num < i.level.num) || (transomOnly i && !s.isTransom e.launch) then some .priv
  else if (i.named e.mode).any (fun n => decide (e.g.nregs ≤ n)) || i.accs.any (fun n => decide (e.team.accs.length ≤ n)) ||
      ((i.cls = .longA ∨ i.cls = .longB) && decide (12 ≤ e.flag)) || !i.modeAdmits e.mode || !i.pairOk e.mode ||
      matrixRefused s e.mode i || e.latchWrong then some .illegal
  else if e.readsNow.any fun r => e.g.tags.any fun t => t.reg == r then
    some .depmiss
  else none

/-- Whether an instruction reads memory as it issues, or makes an engine read that checks no acquire of its own. -/
def Instr.readsAtIssue : Instr → Bool
  | .hcfg _ _ => true
  | .hgather _ _ _ _ _ => true
  | .hscatter _ _ _ _ _ => true
  | .pin _ _ => true
  | .tsamp _ _ _ _ _ _ => true
  | .draw _ _ _ _ => true
  | .mma _ _ _ _ => true
  | .mmap _ _ _ _ => true
  | .mmabs _ _ _ _ _ => true
  | .aload _ _ => true
  | .mbxsend _ _ _ => true
  | .spawn _ _ _ _ _ => true
  | _ => false
/-- Whether issue stalls: the class's flag is full (R107), a write that has not landed stands before one of the
instruction's own writes (R110), a Short instruction that has raised exceptions has not completed before one that reads
its result (R77, R106), or an acquire of the group has not completed before a read at issue (R240). -/
def GI.stalls (e : GI) (s : State) : Bool :=
  (e.g.late.any fun l => l.regs.any fun r => e.readsNow.contains r) ||
  ((e.i.cls = .longA ∨ e.i.cls = .longB) && decide (63 ≤ e.g.flags.getD e.flag 0)) ||
  (e.g.tags.any fun t => (e.i.defs e.mode).contains t.reg && (tget s.work.ops t.op).isSome) ||
  (Instr.readsAtIssue e.i && s.work.ops.any fun o => o.2.gid == e.gid && match o.2.instr with
    | .acqw _ _ => true
    | _ => false)

/-- The issue of an instruction by a group: traps in the order of R105, stalls, then its own work. An
instruction that already holds the group is not checked again. -/
def State.runGroup (s : State) (i : Instr) (gid : Nat) (body : GI → State → Fx) : State :=
  match s.gi gid i with
  | none => s
  | some e =>
    if !e.g.ready i then s
    else if e.g.ctl.hold = some i then e.finish s (body e s)
    else match e.g.ctl.owed with
      | t :: r =>
        (s.modCtl gid fun c => { c with owed := r }).raise gid { t with resume := if t.cause = .dieoff then t.resume else e.g.ctl.pos }
      | [] =>
        match e.check s with
        | some c => e.trapHere s c (if c = .priv ∨ c = .illegal ∨ c = .depmiss then e.word else 0) 0 0
        | none => if e.stalls s then s else e.finish s (body e s)

/-! ### Long operations (R107, R109) -/

/-- A new outstanding operation of a group: its flag rises and the registers it writes take its tag. -/
def GI.startOp (e : GI) (s : State) (f : Op → Op) : Nat × State :=
  let n := s.fresh
  let op : Op := f
    { gid := e.gid, team := e.g.team, core := e.g.core, instr := e.i, flag := e.flag, pos := e.g.ctl.pos,
      mode := e.mode, lanes := e.lanes, wlanes := e.lanes, svals := [], vvals := [], tile := [], writes := [],
      exc := 0, excLanes := 0, st := .ready, at_ := s.gtOf e.g.core, w := 0, await := ⟨[], [], [], 0⟩, misc := [],
      user := e.g.ctl.level == .u }
  let s1 := { n.2 with work := { n.2.work with ops := tput n.2.work.ops n.1 op } }
  (n.1, s1.modGroup e.gid fun g =>
    { g with
      flags := lmod g.flags e.flag (· + 1)
      tags := (g.tags.filter fun t => !(e.i.defs e.mode).contains t.reg) ++
        (e.i.defs e.mode).map fun r => ⟨r, e.flag, n.1⟩ })

/-- Whether an instruction writes memory, so that a later release covers it (R223, R239). -/
def Instr.writesMem : Instr → Bool
  | .st _ _ _ _ _ => true
  | .sts _ _ _ => true
  | .stl _ _ _ _ => true
  | .stc _ _ _ _ => true
  | .stp _ _ _ _ _ => true
  | .atom _ _ _ _ _ _ _ _ _ => true
  | .atoml _ _ _ _ _ _ _ _ => true
  | .atomc _ _ _ _ _ _ _ => true
  | .redst _ _ _ _ _ _ _ => true
  | .redc _ _ _ _ _ => true
  | .tagset _ _ _ => true
  | .pubw _ _ => true
  | .cpyk _ _ => true
  | .draw _ _ _ _ => true
  | .adrain _ _ _ _ => true
  | .agdrain _ _ _ => true
  | .astash _ _ _ => true
  | .hscatter _ _ _ _ _ => true
  | .mif _ _ => true
  | .mloop => true
  | .mbrk _ _ => true
  | .mcont _ _ => true
  | .exit => true
  | _ => false
/-- What waits for every operation that a group has issued, copies and draws included; `p` picks the
operations. -/
def State.awaitOf (s : State) (gid : Nat) (p : Instr → Bool) : Await :=
  { ops := (s.work.ops.filter fun o => o.2.gid == gid && p o.2.instr).map (·.1)
    copies := (s.work.copies.filter fun c => c.2.gid == gid && c.2.node.isNone).map (·.1)
    draws := s.dies.flatMap fun d => d.rasters.flatMap fun r =>
      (r.queue.filter fun x => x.gid == gid).map (·.id) ++
      (match r.run with
       | some x => if x.draw.gid == gid then [x.draw.id] else []
       | none => [])
    w := match tget s.groups gid with
      | some g => g.maxW.foldl max 0
      | none => 0 }
/-- Whether what an await names has completed. -/
def Await.done (a : Await) : Bool := a.ops.isEmpty && a.copies.isEmpty && a.draws.isEmpty
/-- An operation, copy or draw with its W leaves an await. -/
def Await.dropOp (a : Await) (o w : Nat) : Await :=
  if a.ops.contains o then { a with ops := a.ops.filter (· != o), w := max a.w w } else a
def Await.dropCopy (a : Await) (o w : Nat) : Await :=
  if a.copies.contains o then { a with copies := a.copies.filter (· != o), w := max a.w w } else a
def Await.dropDraw (a : Await) (o w : Nat) : Await :=
  if a.draws.contains o then { a with draws := a.draws.filter (· != o), w := max a.w w } else a
/-- Every await of the machine changed. -/
def State.modAwaits (s : State) (f : Await → Await) : State :=
  { s with work := { s.work with
      ops := s.work.ops.map fun o => (o.1, { o.2 with await := f o.2.await })
      arrives := s.work.arrives.map fun o => (o.1, { o.2 with await := f o.2.await })
      releases := s.work.releases.map fun o => (o.1, { o.2 with await := f o.2.await }) } }
/-- A copy or draw that has completed leaves what ended groups handed over, of saved teams too; a team that only waited for it
completes. -/
def State.handedDone (s : State) (f : Await → Await) : State :=
  ({ s with
    teams := s.teams.map fun t => (t.1, { t.2 with left := f t.2.left })
    saved := s.saved.map fun x => (x.1, { x.2 with team := x.2.team.map fun t => { t with left := f t.left } }) } : State).teamsCheck
/-- The greatest W of a group's writes on a path raised (R223). -/
def State.noteW (s : State) (gid : Nat) (p : Path) (w : Nat) : State :=
  s.modGroup gid fun g => { g with maxW := lmod g.maxW p.code (max w) }

/-- Some lanes of a group leave its ordered section: their pixels and keys wait for the group's writes and are
then released (R132, R267). -/
def State.leaveSection (s : State) (gid : Nat) (m : Mask) : State :=
  match s.gi gid .nop with
  | none => s
  | some e =>
    match e.g.sect with
    | none => s
    | some x =>
      let out := x.entries.filter fun p => inMask m p.1
      let rest := x.lanes &&& ~~~m
      let f := s.fresh
      let r : Release :=
        { gid := gid, die := coreDie e.g.core, ctx := e.launch.ctx, entries := out.map fun p => p.2,
          await := s.awaitOf gid Instr.writesMem }
      let s1 := if out.isEmpty then s else { f.2 with work := { f.2.work with releases := tput f.2.work.releases f.1 r } }
      let left : Option Section := if rest = 0 then none else some ⟨rest, x.entries.filter fun p => !inMask m p.1⟩
      s1.modGroup gid fun g => { g with sect := left }
/-- Whether an MMAP of a team is outstanding (R60 code W). -/
def State.mmapOut (s : State) (tid : Nat) : Bool :=
  s.work.ops.any fun o => o.2.team == tid && match o.2.instr with
    | .mmap _ _ _ _ => true
    | _ => false

/-- A register write of an operation applied. -/
def Regs.apply (r : Regs) : RegWrite → Regs
  | .vec n m vals => r.setV n m fun l => laneVal vals l
  | .uni n x => r.setS n x
  | .pred n m bits => r.setPr n m bits

/-- An operation leaves: its group's or span's flag falls (R107). -/
def State.retireOp (s : State) (o : Nat) : State :=
  match tget s.work.ops o with
  | none => s
  | some op =>
    let s1 := (s.delOp o).modAwaits fun a => a.dropOp o op.w
    let s2 := s1.modGroup op.gid fun g => { g with flags := lmod g.flags op.flag (· - 1) }
    s2.modSpan op.gid fun x => { x with flags := lmod x.flags op.flag (· - 1) }

end Sys2Proof.Machine
end

