-- ==== Sys2Proof/Machine/Span.lean ====
section
/-! DEFINITION. Items, teams and groups (R13 to R16, R51 to R55, R74), allocation on a core (R32, R43, R281,
R368, R369), spans: forms and predicate forms (R22, R23, R26), cuts (R34 to R36), pieces, rejoin and merging
(R37, R38), materialisation and absorption (R30, R31). -/
namespace Sys2Proof.Machine

/-! ### Items (R13 to R16) -/

/-- Items of one team. -/
def Launch.items (l : Launch) : Nat := l.tx * l.ty
/-- Groups of one team (R14). -/
def Launch.groupsPer (l : Launch) : Nat := cdiv l.items 64
/-- jx and jy of item-linear index j under the launch's layout (R13). -/
def Launch.jxy (l : Launch) (j : Nat) : Nat × Nat :=
  if l.quad then
    let q := j / 4
    let r := j % 4
    (2 * (q % (l.tx / 2)) + r % 2, 2 * (q / (l.tx / 2)) + r / 2)
  else (j % l.tx, j / l.tx)
/-- The item-linear index of jx and jy (R13). -/
def Launch.jOf (l : Launch) (jx jy : Nat) : Nat :=
  if l.quad then ((jy / 2) * (l.tx / 2) + jx / 2) * 4 + jy % 2 * 2 + jx % 2 else jy * l.tx + jx
/-- The launch-linear index (R15). -/
def Launch.linear (l : Launch) (tx ty jx jy : Nat) : Nat := ((ty * l.gx + tx) * l.ty + jy) * l.tx + jx
/-- Whether an item lies inside the launch's extent (R16). -/
def Launch.inside (l : Launch) (tx ty jx jy : Nat) : Bool :=
  match l.extent with
  | none => true
  | some (ex, ey) => decide (tx * l.tx + jx < ex) && decide (ty * l.ty + jy < ey)
/-- The item of a lane: none where the lane is permanently inactive (R14, R16). -/
def Launch.itemAt (l : Launch) (tx ty g lane : Nat) : Option Item :=
  let j := 64 * g + lane
  if l.items ≤ j then none
  else
    let p := l.jxy j
    if l.inside tx ty p.1 p.2 then some ⟨tx, ty, p.1, p.2, false⟩
    else
      let bx := p.1 / 2 * 2
      let b := p.2 / 2 * 2
      if l.inside tx ty bx b || l.inside tx ty (bx + 1) b || l.inside tx ty bx (b + 1) || l.inside tx ty (bx + 1) (b + 1)
      then some ⟨tx, ty, p.1, p.2, true⟩ else none
/-- The items of a group's lanes. -/
def Launch.itemsOf (l : Launch) (tx ty g : Nat) : List (Option Item) := laneIx.map (l.itemAt tx ty g)
/-- The accumulators of a team: allocated in multiples of 4 (R42, R368). -/
def Launch.accN (l : Launch) : Nat := rup l.accs 4
/-- The generator state that a lane starts with, from s1 of its group (R74). -/
def Launch.seed (l : Launch) (s1 : DWord) (it : Option Item) : Word :=
  match it with
  | none => 1
  | some x => seedOf (BitVec.ofNat 32 (nfld s1.toNat 0 32) ^^^ BitVec.ofNat 32 (l.linear x.tx x.ty x.jx x.jy * 0x9E3779B9))

/-! ### What a core can hold (R32, R368) -/

/-- Bytes of a group record and of a team's record, all its accumulators live (R57, R58). -/
def Launch.teamBytes (l : Launch) : Nat :=
  rup (0x100 + l.groupsPer * (0x600 + 256 * l.nregs) + l.accN * 16384 + l.localB) 256
/-- Bytes of a span record (R59). -/
def Launch.spanBytes (l : Launch) : Nat := rup (0x1300 + 20 * l.nregs) 256
/-- The most bytes that the save of one team takes: a team that no span of more than itself holds is saved as a team or
as a span (R56 to R59). -/
def Launch.saveEach (l : Launch) : Nat := if l.nospan then l.teamBytes else max l.teamBytes l.spanBytes
/-- Bytes of a save area with `n` records of `b` bytes together (R56). -/
def saveBytes (n b : Nat) : Nat := rup (0x40 + 16 * n) 256 + b
/-- A box without one of its teams: the boxes above it, beside it and below it. -/
def Box.without (b : Box) (t : Nat × Nat) : List Box :=
  if t.1 < b.tx0 ∨ b.tx1 < t.1 ∨ t.2 < b.ty0 ∨ b.ty1 < t.2 then [b]
  else
    (if b.ty0 < t.2 then [{ b with ty1 := t.2 - 1 }] else []) ++
    (if b.tx0 < t.1 then [{ b with ty0 := t.2, ty1 := t.2, tx1 := t.1 - 1 }] else []) ++
    (if t.1 < b.tx1 then [{ b with ty0 := t.2, ty1 := t.2, tx0 := t.1 + 1 }] else []) ++
    (if t.2 < b.ty1 then [{ b with ty0 := t.2 + 1 }] else [])
/-- The boxes that the teams of a span which have not expanded make up: each is a span record of its own when it is saved
(R30, R59). -/
def Span.leftBoxes (x : Span) (l : Launch) : List Box :=
  x.gone.foldl (fun bs tl => bs.flatMap fun b => b.without (tl % l.gx, tl / l.gx)) [x.box]
/-- Records, and their bytes, that a context's placed and saved work would need in its save area, teams reserved within
spans included (R56, R368). -/
def State.saveUse (s : State) (c : Nat) : Nat × Nat :=
  let add (u : Nat × Nat) (lid : Nat) (f : Launch → Nat × Nat) : Nat × Nat := match tget s.launches lid with
    | some l => if l.ctx == c then (u.1 + (f l).1, u.2 + (f l).1 * (f l).2) else u
    | none => u
  let u1 := s.teams.foldl (fun u t => add u t.2.launch fun l => (1, l.teamBytes)) (0, 0)
  let u2 := s.spans.foldl (fun u x => add u x.2.launch fun l =>
    (if l.held.isEmpty then (if x.2.gone.isEmpty then 1 else (x.2.leftBoxes l).length) else 0, l.spanBytes)) u1
  let u3 := s.saved.foldl (fun u x => add u x.2.launch fun l => (1, if x.2.team.isSome then l.teamBytes else l.spanBytes)) u2
  s.launches.foldl (fun u l => if l.2.ctx == c then (u.1 + l.2.held.length, u.2 + l.2.held.length * l.2.saveEach) else u) u3
/-- Whether a context's save area can record `n` more records of `b` bytes together (R368). -/
def State.saveRoom (s : State) (c n b : Nat) : Bool :=
  let u := s.saveUse c
  match tget s.ctxs c with
  | some x => decide (saveBytes (u.1 + n) (u.2 + b) ≤ x.saveSize)
  | none => false

/-- Team coordinates in a box, ascending in team-linear order. -/
def Box.teams (b : Box) : List (Nat × Nat) :=
  (List.range (b.ty1 + 1 - b.ty0)).flatMap fun i => (List.range (b.tx1 + 1 - b.tx0)).map fun j => (b.tx0 + j, b.ty0 + i)
/-- The teams of a span that it still holds. -/
def Span.teams (x : Span) (l : Launch) : List (Nat × Nat) := x.box.teams.filter fun t => !x.gone.contains (t.2 * l.gx + t.1)
/-- The first team that a span still holds. -/
def Span.firstTeam (x : Span) (l : Launch) : Option (Nat × Nat) := (x.teams l).head?
/-- Whether a span's box holds every item of its teams. -/
def Span.whole (x : Span) (l : Launch) : Bool :=
  x.box.jx0 == 0 && x.box.jx1 + 1 == l.tx && x.box.jy0 == 0 && x.box.jy1 + 1 == l.ty
/-- Teams within spans of CORESIDENT launches for which a core's resources are reserved (R19, R32): launch, and base and
size of the local memory. -/
def State.reserved (s : State) (core : Nat) : List (Nat × Nat × Nat) :=
  s.launches.flatMap fun l => (l.2.held.filter fun h => h.2.1 == core).map fun h => (l.1, h.2.2, l.2.localB)
/-- The reservation of one of a launch's teams: the base of its local memory. -/
def Launch.heldBase (l : Launch) (tl : Nat) : Option Nat := (l.held.find? fun h => h.1 == tl).map (·.2.2)

/-- Use of a core: vector register units, groups, local bytes, accumulators. -/
structure Use where
  regs : Nat
  groups : Nat
  loc : Nat
  accs : Nat
  deriving DecidableEq, Repr
/-- What one team of a launch takes (R43, R45, R281). -/
def Launch.use (l : Launch) : Use := ⟨l.nregs * l.groupsPer, l.groupsPer, l.localB, l.accN⟩
def Use.add (a b : Use) : Use := ⟨a.regs + b.regs, a.groups + b.groups, a.loc + b.loc, a.accs + b.accs⟩
/-- What a core's teams and reservations take. -/
def State.coreUse (s : State) (core : Nat) : Use :=
  let ofL (lid : Nat) : Use := match tget s.launches lid with
    | some l => l.use
    | none => ⟨0, 0, 0, 0⟩
  let a := s.teams.foldl (fun u t => if t.2.core == core then u.add (ofL t.2.launch) else u) ⟨0, 0, 0, 0⟩
  (s.reserved core).foldl (fun u r => u.add (ofL r.1)) a
/-- Whether a use fits one core (R43, R45, R281). -/
def Use.fits (u : Use) : Bool := u.regs ≤ 2048 && u.groups ≤ 64 && u.loc ≤ 458752 && u.accs ≤ 64
/-- Groups of a context that are placed or saved, each with a private slot (R55). -/
def State.ctxGroups (s : State) (c : Nat) : List Nat :=
  let mine (lid : Nat) : Bool := match tget s.launches lid with
    | some l => l.ctx == c
    | none => false
  (s.groups.filterMap fun g => match tget s.teams g.2.team with
    | some t => if mine t.launch then some g.2.slot else none
    | none => none) ++
  (s.saved.flatMap fun x => if mine x.2.launch then x.2.groups.map (·.slot) else [])
/-- Private slots that are promised to groups of teams reserved within spans (R32, R55). -/
def State.slotsPromised (s : State) (c : Nat) : Nat :=
  s.launches.foldl (fun n l => if l.2.ctx == c then n + l.2.held.length * l.2.groupsPer else n) 0
/-- The lowest base at which a local allocation fits a core, beside its teams' and those reserved (R52, R281). -/
def State.localBase (s : State) (core size : Nat) : Option Nat :=
  let held := (s.teams.filter fun t => t.2.core == core && decide (0 < t.2.size)).map (fun t => (t.2.base, t.2.size)) ++
    (s.reserved core).map (·.2)
  if size = 0 then some 0
  else (findN 128 fun i => decide (4096 * i + size ≤ 524288) &&
    held.all fun h => decide (h.1 + h.2 ≤ 4096 * i) || decide (4096 * i + size ≤ h.1)).map (4096 * ·)
/-- Whether a core can allocate one more team of a launch, for which nothing is reserved (R32, R368). -/
def State.canAlloc (s : State) (l : Launch) (core : Nat) : Bool :=
  ((s.coreUse core).add l.use).fits &&
  decide ((s.ctxGroups l.ctx).length + s.slotsPromised l.ctx + l.groupsPer ≤ (s.run l.ctx).privSlots) &&
  (s.localBase core l.localB).isSome
/-- The reservation of one more team made (R19, R32). -/
def State.hold (s : State) (lid core tl : Nat) : State :=
  match tget s.launches lid with
  | none => s
  | some l => s.modLaunch lid fun x => { x with held := x.held ++ [(tl, core, (s.localBase core l.localB).getD 0)] }
/-- Reservations of several teams, each with its core, made one after another where all of them can be (R19, R32). -/
def State.holdTeams (s : State) (lid : Nat) (l : Launch) : List (Nat × Nat) → Option State
  | [] => some s
  | x :: r => if s.canAlloc l x.1 && s.saveRoom l.ctx 1 l.saveEach then (s.hold lid x.1 x.2).holdTeams lid l r else none

/-- The quadrant of a core with the fewest groups (R369). -/
def State.quadFor (s : State) (core : Nat) : Nat :=
  (argMin (fun q => (s.groups.filter fun g => g.2.core == core && g.2.quad == q).length) (List.range 4)).getD 0
/-- The lowest free private slot of a context (R55). -/
def State.slotFor (s : State) (c : Nat) : Nat :=
  let used := s.ctxGroups c
  (findN (s.run c).privSlots fun k => !used.contains k).getD 0

/-! ### Forming teams and groups (R30, R51 to R55, R281) -/

/-- An accumulator clear (R45). -/
def Acc.clear : Acc := ⟨List.replicate 64 (List.replicate 64 0), false, false⟩
/-- A byte-count slot at reset (R227). -/
def BcSlot.reset : BcSlot := ⟨0, false, 0⟩
/-- A team barrier at reset (R226). -/
def Bar.reset : Bar := ⟨0, 0, false, 0, false⟩
/-- A trap bank at reset (R371). -/
def TrapBank.reset : TrapBank := ⟨0, .u, 0, 0, 0, 0, 0, 0⟩
/-- Registers at entry but for the uniform ones that the launch and the group fill (R51, R53). -/
def Regs.entry (n : Nat) : Regs :=
  { v := List.replicate n (List.replicate 64 0), s := List.replicate 64 0, p := List.replicate 15 0,
    t := List.replicate 16 0, cc := CC.clear, mode := modeEntry }
/-- Uniform registers at entry, without s60 and s61 (R51). -/
def Launch.entryS (l : Launch) : List DWord :=
  [l.param, l.ident] ++ List.replicate 60 0 ++ [BitVec.ofNat 64 l.priv, 0]

/-- Granules of a core become local memory and lose their L1 lines (R282): which lines those are the spec does not say, and
every line of the core's L1 goes (DESIGN CHOICE, log entry 101). -/
def State.takeGranules (s : State) (core size : Nat) : State :=
  if size = 0 then s
  else { s with mem := { s.mem with copies := s.mem.copies.filter fun c => c.holder != .l1 core } }
/-- A new team on a core: its local memory reads as zero, its accumulators are clear (R45, R281). `age` is the time at which it
was placed, within the span that held it (R369). -/
def State.newTeam (s : State) (lid core tx ty age : Nat) : Option (Nat × State) :=
  match tget s.launches lid with
  | none => none
  | some l =>
    let tl := ty * l.gx + tx
    match (l.heldBase tl).or (s.localBase core l.localB) with
    | none => none
    | some base =>
      let f := (s.modLaunch lid fun x => { x with held := x.held.filter fun h => h.1 != tl }).fresh
      let t : Team :=
        { launch := lid, tx := tx, ty := ty, core := core, groups := l.groupsPer, base := base, size := l.localB,
          loc := [], accs := List.replicate l.accN Acc.clear,
          accLive := BitVec.ofNat 64 (2 ^ l.accN - 1), bcs := List.replicate 16 BcSlot.reset,
          bars := List.replicate 16 Bar.reset, age := age, pre := none, left := ⟨[], [], [], 0⟩ }
      some (f.1, ({ f.2 with teams := tput f.2.teams f.1 t } : State).takeGranules core l.localB)

/-- A group's control record at a position. -/
def Ctl.start (p : Pos) (seta setb len : Nat) : Ctl :=
  { pos := p, seta := seta, setb := setb, len := len, level := .u, hold := none, holdAt := 0, holdArg := [],
    desched := none, trap := none, owed := [], emul := none, pre := .run, ending := false }

/-- A group formed: its quadrant, private slot, s60 and s61 (R51, R52, R55), generators (R74). -/
def State.newGroup (s : State) (l : Launch) (tid : Nat) (t : Team) (num : Nat) (r : Regs) (active : Mask)
    (stack : List MaskEntry) (sticky : Exc) (c : Ctl) (maxW : List Nat) : State :=
  let f := s.fresh
  let slot := s.slotFor l.ctx
  let run := s.run l.ctx
  let s60 := run.privBase + slot * run.privSlot + 4096
  let s61 := t.base + 2 ^ 20 * t.size
  let items := l.itemsOf t.tx t.ty num
  let g : Group :=
    { team := tid, num := num, core := t.core, quad := s.quadFor t.core
      regs := (r.setS 60 (BitVec.ofNat 64 s60)).setS 61 (BitVec.ofNat 64 s61)
      ctl := c, items := items, active := active, stack := stack, rng := items.map (l.seed (r.sr 1)),
      sticky := sticky, late := [], texloops := 0, flags := List.replicate 12 0, tags := [], bankS := TrapBank.reset,
      bankM := TrapBank.reset, latch := ⟨false, 0, 0, []⟩, sect := none, slot := slot, age := t.age,
      lastIssue := s.gtOf t.core, maxW := maxW, redo := none }
  { f.2 with groups := tput f.2.groups f.1 g }

/-! ### Forms (R22) -/

def Form.const (w : Word) : Form := ⟨w, 0, 0, 0, 0⟩
def Form.uniform (f : Form) : Bool := f.b == 0 && f.c == 0 && f.d == 0 && f.e == 0
/-- The value of a form at an item. -/
def Form.eval (f : Form) (tx ty jx jy : Nat) : Word :=
  f.a + f.b * BitVec.ofNat 32 tx + f.c * BitVec.ofNat 32 ty + f.d * BitVec.ofNat 32 jx + f.e * BitVec.ofNat 32 jy
def Form.map2 (g : Word → Word → Word) (x y : Form) : Form := ⟨g x.a y.a, g x.b y.b, g x.c y.c, g x.d y.d, g x.e y.e⟩
def Form.scale (u : Word) (x : Form) : Form := ⟨x.a * u, x.b * u, x.c * u, x.d * u, x.e * u⟩
/-- A span's form of a vector register. -/
def Span.vf (x : Span) (n : Nat) : Form := x.forms.getD n (Form.const 0)
/-- A span's predicate form; p15 is constant true (R44). -/
def Span.pf (x : Span) (n : Nat) : PForm := if n = 15 then .const true else x.pforms.getD n (.const false)
def Span.setVF (x : Span) (n : Nat) (f : Form) : Span := { x with forms := x.forms.set n f }
def Span.setPF (x : Span) (n : Nat) (f : PForm) : Span := if n = 15 then x else { x with pforms := x.pforms.set n f }

/-! ### Half-spaces (R23) and predicate forms (R26) -/

/-- An affine expression over the integers. -/
structure Aff where
  a : Int
  b : Int
  c : Int
  d : Int
  e : Int
  deriving DecidableEq, Repr
def Aff.eval (x : Aff) (tx ty jx jy : Nat) : Int := x.a + x.b * tx + x.c * ty + x.d * jx + x.e * jy
/-- The corners of a box. -/
def Box.corners (b : Box) : List (Nat × Nat × Nat × Nat) :=
  [b.tx0, b.tx1].flatMap fun x => [b.ty0, b.ty1].flatMap fun y => [b.jx0, b.jx1].flatMap fun u => [b.jy0, b.jy1].map fun w => (x, y, u, w)
/-- The exact expression of a form over a box for a comparison's range. -/
def Form.exact (f : Form) (k : Box) (uns : Bool) : Aff :=
  let sg (w : Word) : Int := w.toInt
  let lin : Aff := ⟨0, sg f.b, sg f.c, sg f.d, sg f.e⟩
  let at0 := lin.eval k.tx0 k.ty0 k.jx0 k.jy0
  let v := f.eval k.tx0 k.ty0 k.jx0 k.jy0
  let val : Int := if uns then (v.toNat : Int) else v.toInt
  ⟨val - at0, lin.b, lin.c, lin.d, lin.e⟩
/-- Whether an exact expression stays in the comparison's range over the box. -/
def Aff.inRange (x : Aff) (k : Box) (uns : Bool) : Bool :=
  k.corners.all fun p =>
    let v := x.eval p.1 p.2.1 p.2.2.1 p.2.2.2
    if uns then decide (0 ≤ v) && decide (v < 2 ^ 32) else decide (-(2 ^ 31 : Int) ≤ v) && decide (v < 2 ^ 31)
def Aff.sub (x y : Aff) : Aff := ⟨x.a - y.a, x.b - y.b, x.c - y.c, x.d - y.d, x.e - y.e⟩
def Half.value (h : Half) (tx ty jx jy : Nat) : Int := h.a + h.b * tx + h.c * ty + h.d * jx + h.e * jy
def Half.holds (h : Half) (tx ty jx jy : Nat) : Bool :=
  if h.strict then decide (0 < h.value tx ty jx jy) else decide (0 ≤ h.value tx ty jx jy)
/-- The half-space {D ≥ 0} or {D > 0}; one without coefficients is a constant. -/
def halfOf (d : Aff) (strict : Bool) : PForm :=
  if d.b = 0 ∧ d.c = 0 ∧ d.d = 0 ∧ d.e = 0 then .const (if strict then decide (0 < d.a) else decide (0 ≤ d.a))
  else .conj [⟨d.a, d.b, d.c, d.d, d.e, strict⟩]
/-- The complement of a half-space. -/
def Half.compl (h : Half) : Half := ⟨-h.a, -h.b, -h.c, -h.d, -h.e, !h.strict⟩
def PForm.eval (p : PForm) (tx ty jx jy : Nat) : Bool :=
  match p with
  | .const b => b
  | .conj hs => hs.all fun h => h.holds tx ty jx jy
/-- PAND of two predicate forms where it is representable (R26). -/
def PForm.and (p q : PForm) : Option PForm :=
  match p, q with
  | .const true, x => some x
  | x, .const true => some x
  | .const false, _ => some (.const false)
  | _, .const false => some (.const false)
  | .conj a, .conj b =>
    let l := uniq (a ++ b)
    if l.length ≤ 4 then some (.conj l) else none
/-- The complement of a predicate form where it is representable (R26). -/
def PForm.compl (p : PForm) : Option PForm :=
  match p with
  | .const b => some (.const (!b))
  | .conj [h] => some (.conj [h.compl])
  | .conj _ => none
/-- PANDN (R26). -/
def PForm.andn (p q : PForm) : Option PForm :=
  match q.compl with
  | some r => p.and r
  | none => none
/-- POR (R26). -/
def PForm.or (p q : PForm) : Option PForm :=
  match p, q with
  | .const true, _ => some (.const true)
  | _, .const true => some (.const true)
  | .const false, x => some x
  | x, .const false => some x
  | _, _ => none
/-- PXOR (R26). -/
def PForm.xor (p q : PForm) : Option PForm :=
  match p, q with
  | .const b, x => if b then x.compl else some x
  | x, .const b => if b then x.compl else some x
  | _, _ => none
/-- Whether v and multiples of axes' coefficients make zero: each axis is a coefficient with the least and the greatest
number that it is taken with. -/
def sumsToZero : List (Int × Nat × Nat) → Int → Bool
  | [], v => v == 0
  | [(c, lo, hi)], v =>
    if c = 0 then v == 0 else v % c == 0 && decide ((lo : Int) ≤ -v / c) && decide (-v / c ≤ (hi : Int))
  | (c, lo, hi) :: r, v =>
    if c = 0 ∨ lo = hi then sumsToZero r (v + c * lo)
    else (List.range (hi + 1 - lo)).any fun i => sumsToZero r (v + c * ((lo + i : Nat) : Int))
/-- Whether an expression is zero at no item of a box (R160). -/
def Aff.never0 (d : Aff) (k : Box) : Bool :=
  !sumsToZero [(d.c, k.ty0, k.ty1), (d.b, k.tx0, k.tx1), (d.e, k.jy0, k.jy1), (d.d, k.jx0, k.jx1)] d.a
/-- A comparison of two forms as a predicate form (R23, R160); none where a half-space is not admitted. -/
def cmpForms (c : ICond) (uns : Bool) (k : Box) (a b : Form) : Option PForm :=
  let x := a.exact k uns
  let y := b.exact k uns
  if x.inRange k uns && y.inRange k uns then
    match c with
    | .lt => some (halfOf (y.sub x) true)
    | .le => some (halfOf (y.sub x) false)
    | .eq => (halfOf (y.sub x) false).and (halfOf (x.sub y) false)
    | .ne =>
      let d := y.sub x
      if d.never0 k then some (.const true)
      else if k.corners.all fun p => d.eval p.1 p.2.1 p.2.2.1 p.2.2.2 == 0 then some (.const false)
      else none
  else none

/-! ### Cuts (R34, R35) -/

/-- The axis of a half-space with exactly one coefficient: 0 tx, 1 ty, 2 jx, 3 jy. -/
def Half.axis (h : Half) : Option Nat :=
  match ([h.b, h.c, h.d, h.e].zipIdx.filter fun p => p.1 ≠ 0) with
  | [p] => some p.2
  | _ => none
def Half.coef (h : Half) (ax : Nat) : Int := [h.b, h.c, h.d, h.e].getD ax 0
/-- The interval of the integers in [lo, hi] with a + k·x ≥ 0, or > 0 when strict. -/
def solve1 (a k : Int) (strict : Bool) (lo hi : Int) : Int × Int :=
  let a1 := if strict then a - 1 else a
  if k = 0 then (if 0 ≤ a1 then (lo, hi) else (1, 0))
  else if 0 < k then (max lo (-(a1 / k)), hi)
  else (lo, min hi (a1 / (-k)))
def Box.range (b : Box) (ax : Nat) : Nat × Nat :=
  match ax with
  | 0 => (b.tx0, b.tx1)
  | 1 => (b.ty0, b.ty1)
  | 2 => (b.jx0, b.jx1)
  | _ => (b.jy0, b.jy1)
def Box.setRange (b : Box) (ax lo hi : Nat) : Box :=
  match ax with
  | 0 => { b with tx0 := lo, tx1 := hi }
  | 1 => { b with ty0 := lo, ty1 := hi }
  | 2 => { b with jx0 := lo, jx1 := hi }
  | _ => { b with jy0 := lo, jy1 := hi }
/-- The three parts of an interval [lo, hi] about its true part [u, w], which is empty when w < u: part, side. -/
def parts3 (lo hi u w : Int) : List (Int × Int × Bool) :=
  if w < u then [(lo, hi, false)]
  else [(lo, u - 1, false), (u, w, true), (w + 1, hi, false)].filter fun p => decide (p.1 ≤ p.2.1)
/-- A single-axis cut (R34): pieces with their sides. -/
def Box.cutAxis (b : Box) (ax : Nat) (hs : List Half) : List (Box × Bool) :=
  let r := b.range ax
  let iv := hs.foldl (fun (acc : Int × Int) h =>
    let s := solve1 h.a (h.coef ax) h.strict r.1 r.2
    (max acc.1 s.1, min acc.2 s.2)) ((r.1 : Int), (r.2 : Int))
  (parts3 r.1 r.2 iv.1 iv.2).map fun p => (b.setRange ax p.1.toNat p.2.1.toNat, p.2.2)
/-- Boxes that an interval [u, w] of row-linear item indices of one grid row divides into (R35): a partial row,
whole rows and a partial row at each end's team, and whole teams between. -/
def teamBoxes (l : Launch) (t ty u w : Nat) : List Box :=
  -- items [u, w] of one team
  let box (r0 r1 c0 c1 : Nat) : Box := ⟨t, t, ty, ty, c0, c1, r0, r1⟩
  let r0 := u / l.tx
  let r1 := w / l.tx
  if u % l.tx = 0 ∧ w % l.tx + 1 = l.tx then [box r0 r1 0 (l.tx - 1)]
  else if r0 = r1 then [box r0 r0 (u % l.tx) (w % l.tx)]
  else
    let a := if u % l.tx = 0 then [] else [box r0 r0 (u % l.tx) (l.tx - 1)]
    let m0 := if u % l.tx = 0 then r0 else r0 + 1
    let m1 := if w % l.tx + 1 = l.tx then r1 + 1 else r1
    let m := if m0 < m1 then [box m0 (m1 - 1) 0 (l.tx - 1)] else []
    let z := if w % l.tx + 1 = l.tx then [] else [box r1 r1 0 (w % l.tx)]
    a ++ m ++ z
/-- Boxes of an interval [u, w] of a grid row. -/
def rowBoxes (l : Launch) (ty u w : Nat) : List Box :=
  let p := l.items
  let t0 := u / p
  let t1 := w / p
  if u % p = 0 ∧ w % p + 1 = p then [⟨t0, t1, ty, ty, 0, l.tx - 1, 0, l.ty - 1⟩]
  else if t0 = t1 then teamBoxes l t0 ty (u % p) (w % p)
  else
    let a := if u % p = 0 then [] else teamBoxes l t0 ty (u % p) (p - 1)
    let m0 := if u % p = 0 then t0 else t0 + 1
    let m1 := if w % p + 1 = p then t1 + 1 else t1
    let m : List Box := if m0 < m1 then [⟨m0, m1 - 1, ty, ty, 0, l.tx - 1, 0, l.ty - 1⟩] else []
    let z := if w % p + 1 = p then [] else teamBoxes l t1 ty 0 (w % p)
    a ++ m ++ z
/-- The factor k of a half-space that is linear in L (R35). -/
def Half.linearK (h : Half) (l : Launch) : Option Int :=
  if h.d ≠ 0 ∧ h.b = h.d * l.items ∧ h.e = h.d * l.tx then some h.d else none
/-- A linear cut (R35). -/
def Box.cutLinear (b : Box) (l : Launch) (hs : List Half) : List (Box × Bool) :=
  let lo : Int := b.tx0 * l.items
  let hi : Int := (b.tx1 + 1) * l.items - 1
  let iv := hs.foldl (fun (acc : Int × Int) h =>
    let s := solve1 (h.a + h.c * b.ty0) h.d h.strict lo hi
    (max acc.1 s.1, min acc.2 s.2)) (lo, hi)
  (parts3 lo hi iv.1 iv.2).flatMap fun p => (rowBoxes l b.ty0 p.1.toNat p.2.1.toNat).map fun x => (x, p.2.2)
/-- The pieces of a cut of a box by a predicate form, or none when the form qualifies for neither kind of cut
(R34 to R36). -/
def Box.cut (b : Box) (l : Launch) (p : PForm) : Option (List (Box × Bool)) :=
  match p with
  | .const v => some [(b, v)]
  | .conj hs =>
    match hs with
    | [] => some [(b, true)]
    | h :: _ =>
      match h.axis with
      | some ax => if hs.all fun x => x.axis == some ax then some (b.cutAxis ax hs) else none
      | none =>
        if hs.all (fun x => (x.linearK l).isSome) && b.ty0 == b.ty1 && b.jx0 == 0 && b.jx1 + 1 == l.tx &&
            b.jy0 == 0 && b.jy1 + 1 == l.ty then
          let c := b.cutLinear l hs
          if c.length ≤ 7 then some c else none
        else none
/-- The smallest L of a box (R37). -/
def Box.minL (b : Box) (l : Launch) : Nat := l.linear b.tx0 b.ty0 b.jx0 b.jy0
/-- Pieces in the order in which they run: true before false, ascending by smallest L (R37). -/
def orderPieces (l : Launch) (ps : List (Box × Bool)) : List (Box × Bool) :=
  sortBy (fun p => p.1.minL l) (ps.filter (·.2)) ++ sortBy (fun p => p.1.minL l) (ps.filter fun p => !p.2)

/-! ### Materialisation and absorption (R30, R31) -/

/-- The spans of a core. -/
def State.spansOn (s : State) (core : Nat) : Tbl Span := s.spans.filter fun x => x.2.core == core
/-- Whether a box holds an item. -/
def Box.has (b : Box) (tx ty jx jy : Nat) : Bool :=
  decide (b.tx0 ≤ tx) && decide (tx ≤ b.tx1) && decide (b.ty0 ≤ ty) && decide (ty ≤ b.ty1) &&
  decide (b.jx0 ≤ jx) && decide (jx ≤ b.jx1) && decide (b.jy0 ≤ jy) && decide (jy ≤ b.jy1)
/-- Whether a span holds an item. -/
def Span.has (x : Span) (l : Launch) (it : Item) : Bool :=
  x.box.has it.tx it.ty it.jx it.jy && !x.gone.contains (it.ty * l.gx + it.tx)
/-- How many entries of its control stack a parked piece's lanes belong to (R31, R138): those pushed before
the cut and the cut's own. -/
def Span.memb (x : Span) : Nat :=
  let upto (c : Nat) : Nat := match x.stack.findIdx? fun e => e.id == c with
    | some i => i + 1
    | none => x.stack.length
  match x.park with
  | .join c => upto c
  | .mendl c => upto c
  | _ => x.stack.length

/-- One group of a team formed from the span that materialises and the spans absorbed with it (R30, R31): every group of the
team, whether or not a lane of it holds an item. Lanes of a true piece, whether it is parked at MEND or has not run yet,
become active at MEND, those of a false piece at MELSE. What becomes of a piece that has not run yet R31 and R138 do not say
(DESIGN CHOICE, log entry 102): a true piece's lanes stay inactive until MEND; so do those of a false piece, and skip the else
path, where an earlier false piece of the team materialises behind its MELSE; and those of a piece that goes on in a loop
which MBRK or MCONT has cut stay inactive until MENDL. -/
def State.formGroup (s : State) (l : Launch) (tid : Nat) (t : Team) (num : Nat) (x : Span)
    (active others : List Span) (pos : Pos) : State :=
  let items := l.itemsOf t.tx t.ty num
  let owner (p : List Span) (lane : Nat) : Option Span := match items.getD lane none with
    | some it => p.find? fun y => y.has l it
    | none => none
  let held (lane : Nat) : Option Span := owner (active ++ others) lane
  let at_ (lane : Nat) (f : Span → Item → Word) : Word := match held lane, items.getD lane none with
    | some y, some it => f y it
    | _, _ => 0
  let v := (List.range l.nregs).map fun k => vecOf fun lane => at_ lane fun y it => (y.vf k).eval it.tx it.ty it.jx it.jy
  let p := (List.range 15).map fun k => maskOf fun lane => at_ lane (fun y it => boolW ((y.pf k).eval it.tx it.ty it.jx it.jy)) == 1
  let stack := x.stack.zipIdx.map fun e =>
    let within (lane : Nat) : Bool := match held lane with
      | some y => (owner active lane).isSome || decide (e.2 < y.memb)
      | none => false
    let trueSide (lane : Nat) : Bool := (owner active lane).isNone && match held lane with
      | some y => y.stack.any fun z => z.id == e.1.id && z.side
      | none => false
    MaskEntry.mk (maskOf within) e.1.mode e.1.kind (if e.1.kind = .ifK then maskOf fun i => within i && trueSide i else 0)
  let act := maskOf fun lane => (owner active lane).isSome
  let sticky := (active ++ others).foldl (fun a y => if laneIx.any fun i => held i == some y then a ||| y.sticky else a) x.sticky
  let maxW := (List.range 7).map fun i => (active ++ others).foldl (fun a y => max a (y.maxW.getD i 0)) 0
  s.newGroup l tid t num { v := v, s := x.s, p := p, t := x.t, cc := x.cc, mode := x.mode } act stack sticky
      (Ctl.start pos x.seta x.setb x.len) maxW

/-- A span's record leaves when it holds no team. -/
def State.dropEmptySpans (s : State) (l : Launch) (lid : Nat) : State :=
  { s with spans := s.spans.filter fun x => !(x.2.launch == lid && (x.2.firstTeam l).isNone) }

/-- One team of a materialising span expands, when the core can allocate it (R30 to R32). -/
def State.expandOne (s : State) (sid : Nat) : Option State :=
  match tget s.spans sid with
  | none => none
  | some x =>
    match tget s.launches x.launch with
    | none => none
    | some l =>
      match x.firstTeam l with
      | none => none
      | some (tx, ty) =>
        if (l.heldBase (ty * l.gx + tx)).isNone && !s.canAlloc l x.core then none
        else
          match s.newTeam x.launch x.core tx ty x.age with
          | none => none
          | some (tid, s1) =>
            match tget s1.teams tid with
            | none => none
            | some t =>
              let mates := (s.spansOn x.core).filter fun y => y.2.launch == x.launch && y.1 != sid && (y.2.teams l).contains (tx, ty)
              let act := x :: (mates.filter fun y => x.act.contains y.1).map (·.2)
              let oth := (mates.filter fun y => !x.act.contains y.1).map (·.2)
              let s2 := (List.range t.groups).foldl (fun a n => a.formGroup l tid t n x act oth x.pos) s1
              let tl := ty * l.gx + tx
              let mark (y : Span) : Span := { y with gone := tl :: y.gone }
              let s3 := (sid :: mates.map (·.1)).foldl (fun a n => a.modSpan n mark) s2
              let s4 := s3.dropEmptySpans l x.launch
              if (l.heldBase tl).isSome || s4.saveRoom l.ctx 0 0 then some (s4.teamCheck tid) else none

/-- As many teams of a materialising span as the core can allocate, in ascending order (R30). -/
def State.expandAll (n : Nat) (s : State) (sid : Nat) : State :=
  match n with
  | 0 => s
  | k + 1 =>
    match s.expandOne sid with
    | some s1 => State.expandAll k s1 sid
    | none => s

/-! ### Rejoin (R38) -/

/-- Two boxes adjacent along one axis, or in L, that together form a box. -/
def Box.join (a b : Box) : Option Box :=
  let same (ax : Nat) : Bool := a.range ax == b.range ax
  match [0, 1, 2, 3].filter fun ax => !same ax with
  | [ax] =>
    let x := a.range ax
    let y := b.range ax
    if x.2 + 1 = y.1 then some (a.setRange ax x.1 y.2)
    else if y.2 + 1 = x.1 then some (a.setRange ax y.1 x.2)
    else none
  | _ => none
/-- Whether two pieces agree in everything that a merge compares (R38). -/
def Span.agrees (x y : Span) : Bool :=
  x.forms == y.forms && x.pforms == y.pforms && x.s == y.s && x.t == y.t && x.mode == y.mode && x.cc == y.cc &&
  x.gone.isEmpty && y.gone.isEmpty
/-- The first pair of a list that merges, with the merged piece. -/
def mergeStep : List (Nat × Span) → Option (List (Nat × Span))
  | [] => none
  | x :: r =>
    match r.find? fun y => x.2.agrees y.2 && (x.2.box.join y.2.box).isSome with
    | some y =>
      let m := { x.2 with box := (x.2.box.join y.2.box).getD x.2.box, sticky := x.2.sticky ||| y.2.sticky,
                          maxW := (List.range 7).map fun i => max (x.2.maxW.getD i 0) (y.2.maxW.getD i 0) }
      some ((x.1, m) :: r.filter fun z => z.1 != y.1)
    | none => (mergeStep r).map (x :: ·)
/-- Merging until no pair qualifies. -/
def mergeAll : Nat → List (Nat × Span) → List (Nat × Span)
  | 0, l => l
  | n + 1, l => match mergeStep l with
    | some m => mergeAll n m
    | none => l

/-- Pieces of a construct on a core. -/
def State.members (s : State) (core c : Nat) : Tbl Span :=
  (s.spansOn core).filter fun x => decide (x.2.park ≠ .expand) && x.2.stack.any fun e => e.id == c
/-- Where a loop's LOOPC entry sends its pieces back: the MODE of the entry. -/
def Span.backAt (x : Span) (c t : Nat) : Span :=
  let m := match x.stack.find? fun e => e.id == c with
    | some e => e.mode
    | none => x.mode
  { x with park := .run, mode := m, pos := ⟨t, 0⟩ }

/-- Rejoin at the end of a construct when every piece has parked there (R38): pieces merge; whole-team pieces
go on; a piece that holds part of a team materialises, at the MEND itself or at the loop exit. -/
def State.rejoin (s : State) (core c : Nat) : State :=
  let ms := s.members core c
  if ms.isEmpty || ms.any fun x => decide (x.2.park ≠ .join c) then s
  else
    match ms with
    | [] => s
    | m :: _ =>
      match tget s.launches m.2.launch with
      | none => s
      | some l =>
        let sorted := sortBy (fun x => x.2.box.minL l) ms
        let merged := mergeAll sorted.length sorted
        let isIf : Bool := (m.2.stack.filter fun e => e.id == c).all fun e => e.kind == .ifK || e.kind == .elseK
        let parts := (merged.filter fun x => !x.2.whole l).map (·.1)
        let pop (x : Span) : Span :=
          let i := (x.stack.findIdx? fun e => e.id == c).getD 0
          let m := (x.stack[i]?.map (·.mode)).getD x.mode
          { x with stack := x.stack.take i, mode := m, park := .run, pos := if isIf = true then ⟨x.pos.h + 8, 0⟩ else x.pos }
        let s1 := { s with spans := s.spans.filter fun x => !ms.any fun y => y.1 == x.1 }
        let put (a : State) (x : Nat × Span) : State :=
          let y := if x.2.whole l then pop x.2
            else if isIf = true then { x.2 with park := .expand, act := [] }
            else { pop x.2 with park := .expand, act := parts }
          { a with spans := tput a.spans x.1 y }
        let s2 := merged.foldl put s1
        parts.foldl (fun a n => a.expandAll (match tget a.spans n with
          | some x => (x.teams l).length
          | none => 0) n) s2

/-- Pieces parked at a MENDL go on when no piece of the loop iterates any more (R37): `t` is the target. -/
def State.releaseMendl (s : State) (core c : Nat) : State :=
  let ms := s.members core c
  if ms.any fun x => decide (x.2.park = .run) then s
  else ms.foldl (fun a x => if x.2.park = .mendl c then a.modSpan x.1 fun y => { y with park := .run } else a) s

/-- After a piece has parked or left: every construct of the core is looked at, innermost first. -/
def State.settle (s : State) (core : Nat) : State :=
  let ids := uniq ((s.spansOn core).flatMap fun x => x.2.stack.reverse.map (·.id))
  ids.foldl (fun a c => (a.rejoin core c).releaseMendl core c) s

/-- Materialisation at a position (R29, R30): the span parks there, and its teams expand as they can be
allocated. -/
def State.materialise (s : State) (sid : Nat) (pos : Pos) : State :=
  match tget s.spans sid with
  | none => s
  | some x =>
    match tget s.launches x.launch with
    | none => s
    | some l =>
      let s1 := s.modSpan sid fun y => { y with park := .expand, pos := pos, act := [] }
      (s1.expandAll (x.teams l).length sid).settle x.core

/-! ### The issue of an instruction by a span (R24, R25, R28, R37) -/

/-- A span that issues an instruction. -/
structure SI where
  sid : Nat
  x : Span
  launch : Launch
  i : Instr
  deriving DecidableEq, Repr
def State.si (s : State) (sid : Nat) (i : Instr) : Option SI :=
  match tget s.spans sid with
  | none => none
  | some x =>
    match tget s.launches x.launch with
    | none => none
    | some l => some ⟨sid, x, l, i⟩

/-- What an instruction does in span mode. -/
inductive SFx where
  /-- the span's record after it; it goes on to the next word -/
  | done (x : Span)
  /-- as `done`, with the state that its logging leaves -/
  | doneS (s : State) (x : Span)
  /-- the span's record; control goes to a clause header -/
  | jump (x : Span) (h : Nat)
  /-- the span materialises at this instruction -/
  | mat
  /-- the state is complete as it stands -/
  | stay (s : State)
  deriving DecidableEq, Repr

def SI.words (e : SI) : Nat := (encode e.i).length
def SI.next (e : SI) : Nat := e.x.pos.h + 4 * (e.x.len + 1)
def SI.after (e : SI) : Pos :=
  let k := e.x.pos.k + e.words
  if k ≤ e.x.len then ⟨e.x.pos.h, k⟩ else ⟨e.next, 0⟩
/-- A word of code as the span fetches it. -/
def SI.fetch (e : SI) (s : State) (a : Nat) : Fetched :=
  if !(decide (a < 2 ^ 56)) then .fault 0x06
  else if a % 4 ≠ 0 then .word 0
  else match (s.translate (coreTlb e.x.core) (coreDie e.x.core) e.launch.ctx a ⟨false, true, true⟩).1 with
  | .fault st => .fault st
  | .sparse => .fault 0x01
  | .moving => .moving
  | .phys => .phys
  | .ok t =>
    match e.launch.codeWord a with
    | some w => .word w
    | none => s.fetchWord (coreDie e.x.core) t.pa t.key
/-- A word inside the clause under way. -/
def SI.fetchIn (e : SI) (s : State) (a : Nat) : Fetched :=
  match e.launch.codeWord a with
  | some w => .word w
  | none => e.fetch s a
/-- Whether an earlier piece of one of its cuts still runs (R37), or a span that materialises absorbs its teams
(R31). -/
def SI.blocked (e : SI) (s : State) : Bool :=
  (s.spansOn e.x.core).any fun y => y.1 != e.sid &&
    ((decide (y.2.park = .run) && e.x.cuts.any fun c => y.2.cuts.any fun d => d.1 == c.1 && decide (d.2 < c.2)) ||
     (decide (y.2.park = .expand) && y.2.launch == e.x.launch && (y.2.teams e.launch).any (e.x.teams e.launch).contains))
/-- Whether the span unit is inside a clause of a span (R24). -/
def Span.inClause (x : Span) : Bool := x.inside && x.pos.k != 0
/-- Whether a span at a clause boundary waits there for its flags (R24, R95). -/
def SI.waits (e : SI) : Bool :=
  e.x.pos.k == 0 && match e.launch.codeWord e.x.pos.h with
  | some w => (List.range 12).any fun k => nbit w (14 + k) && decide (e.x.flags.getD k 0 ≠ 0)
  | none => false
/-- Whether a span runs and no earlier piece of its cuts does (R37). -/
def SI.runs (e : SI) (s : State) : Bool := decide (e.x.park = .run) && !e.blocked s
/-- Whether a span stands before another in the order of choice: the older first (R24). -/
def SI.before (a b : SI) : Bool := decide (a.x.age < b.x.age) || (a.x.age == b.x.age && decide (a.sid < b.sid))
/-- Whether a span may issue: it runs, no earlier piece of its cuts does, and either the span unit is inside a clause of it, or
it is inside a clause of no other span of the core and none that is older is ready (R24, R37). A span that has been saved inside
a clause resumes there, and its turn comes as one's at a clause boundary does. -/
def SI.ready (e : SI) (s : State) : Bool :=
  e.runs s &&
  (e.x.inClause || !(s.spansOn e.x.core).any fun y => y.1 != e.sid && match s.si y.1 .nop with
    | some o => o.runs s && (y.2.inClause || (!o.waits && o.before e && !e.waits))
    | none => false)
/-- Whether a trap of R105 would be taken, so that the span materialises first. -/
def SI.trapped (e : SI) (s : State) : Bool :=
  let i := e.i
  !i.wf || !i.placeOk e.x.pos.k e.words e.x.len || decide (0 < i.level.num) || (transomOnly i && !s.isTransom e.launch) ||
  (i.named e.x.mode).any (fun n => decide (e.x.forms.length ≤ n)) || i.accs.any (fun n => decide (e.launch.accN ≤ n)) ||
  ((i.cls = .longA ∨ i.cls = .longB) && decide (12 ≤ (if i.cls = .longB then e.x.setb else e.x.seta))) ||
  !i.modeAdmits e.x.mode || !i.pairOk e.x.mode || matrixRefused s e.x.mode i
/-- Materialisation waits until the span's flags are clear (R112). -/
def SI.mat (e : SI) (s : State) (p : Pos) : State :=
  if e.x.flags.all fun n => n == 0 then s.materialise e.sid p else s

/-- The end of an instruction's issue in span mode; a transfer to no clause header materialises, so that the
group traps (R96, R105). -/
def SI.enter (e : SI) (s s1 : State) (x : Span) (p : Pos) : State :=
  if p.k ≠ 0 then s1.modSpan e.sid fun _ => { x with pos := p, inside := true }
  else match e.fetch s p.h with
    | .word w => if isHeader w then s1.modSpan e.sid fun _ => { x with pos := p } else e.mat s e.x.pos
    | .moving => s
    | _ => e.mat s e.x.pos
def SI.finish (e : SI) (s : State) : SFx → State
  | .done x => e.enter s s x e.after
  | .doneS s1 x => e.enter s s1 x e.after
  | .jump x h => e.enter s s x ⟨h, 0⟩
  | .mat => e.mat s e.x.pos
  | .stay s1 => s1
/-- The issue of an instruction by a span. A lane-writing instruction under a GUARD that is constant false
writes nothing, and under one that is not constant materialises (R28). -/
def State.runSpan (s : State) (i : Instr) (sid : Nat) (body : SI → State → SFx) : State :=
  match s.si sid i with
  | none => s
  | some e =>
    if !e.ready s then s
    else if e.trapped s then e.mat s e.x.pos
    else if i.gated then
      match e.x.pf (mGuard e.x.mode) with
      | .const true => e.finish s (body e s)
      | .const false => e.finish s (match body e s with
        | .mat => .mat
        | .stay _ => .mat
        | _ => .done e.x)
      | .conj _ => e.mat s e.x.pos
    else e.finish s (body e s)

/-- Every program instruction: the stream that issues it runs it, a group or a span; with none, there is
nothing to act on. -/
def State.issue (s : State) (i : Instr) (grp : GI → State → Fx) (spn : SI → State → SFx) :
    Host.Outcome State Fault Refusal :=
  if !s.power then .fault .noPower
  else match s.issuer with
    | .none => .refused .noIssuer
    | .group g => .next (s.runGroup i g grp)
    | .span n => .next (s.runSpan i n spn)
/-- An instruction that has no span form: a span materialises at it (R25). -/
def matSpan (_ : SI) (_ : State) : SFx := .mat

end Sys2Proof.Machine
end

