-- ==== Sys2Proof/Machine/Access.lean ====
section
/-! DEFINITION. Memory instructions of a group: which lanes take part and where they go (R197 to R201), what
stores and loads move (R204), the arithmetic of atomics (R213 to R216), the requests that an access becomes,
accesses held by the moving bit (R326, R488), and the firmware's misaligned accesses (R311). -/
namespace Sys2Proof.Machine

/-! ### Data (R204, R215, R216) -/

/-- The bytes of a list of lane values. -/
def wordsBytes (l : List Word) : List Byte := l.flatMap fun w => toBytes 4 w.toNat
/-- The bytes that a store of a size takes from its data registers' lane values. -/
def storeBytes (z : Size) (l : List Word) : List Byte := (wordsBytes l).take z.bytes
/-- The lane values of a load of a size. -/
def loadWords (z : Size) (b : List Byte) : List Word :=
  match z with
  | .i8 => [BitVec.ofInt 32 (sgn (ofBytes b) 8)]
  | .i16 => [BitVec.ofInt 32 (sgn (ofBytes b) 16)]
  | .b64 => [BitVec.ofNat 32 (rdN b 0 4), BitVec.ofNat 32 (rdN b 4 4)]
  | .b128 => (List.range 4).map fun k => BitVec.ofNat 32 (rdN b (4 * k) 4)
  | _ => [BitVec.ofNat 32 (ofBytes b)]
/-- How many registers an access of a size names. -/
def zCount (z : Size) : Nat := (zRegs z 0).length

/-- Minimum or maximum of an atomic on `n`-bit patterns. -/
def atomSel (big uns : Bool) (n old b : Nat) : Nat :=
  let lt (x y : Nat) : Bool := if uns then decide (x < y) else decide (sgn x n < sgn y n)
  if big then (if lt old b then b else old) else (if lt b old then b else old)
/-- The new value of an atomic or reduction on `n` bits (R215, R216). -/
def atomNew (op : AOp) (ty : AType) (n old b c : Nat) : Nat :=
  let f (o : FOp) : Nat := (fElem fmtF32 FEnv.plain o old b 0 0).1
  match op with
  | .add =>
    (match ty with
     | .f32 => f .add
     | .bf16 => packElems 2 16 (fun x y _ => (fElem fmtBF16 FEnv.plain .add x y 0 0).1) old b 0
     | _ => (old + b) % 2 ^ n)
  | .min =>
    (match ty with
     | .int => atomSel false false n old b
     | .uint => atomSel false true n old b
     | _ => f .fmin)
  | .max =>
    (match ty with
     | .int => atomSel true false n old b
     | .uint => atomSel true true n old b
     | _ => f .fmax)
  | .and => old &&& b
  | .or => old ||| b
  | .xor => old ^^^ b
  | .exch => b
  | .cas => if old = c then b else old

/-! ### What an access does, from operands captured at issue (R108) -/

/-- Which space an instruction addresses (R197). -/
inductive Where_ where
  | global | loc | scr
  deriving DecidableEq, Repr

/-- One piece of a lane's access: the lane, its tagged address, whether its pointer is canonical, and the bytes
that it stores or the operand that it brings. -/
structure Piece where
  lane : Nat
  addr : Nat
  canon : Bool
  data : List Byte
  deriving DecidableEq, Repr

/-- An access: natural alignment, bytes of a piece, permissions, TARG's access bits, the request that a piece
becomes, and the pieces in ascending lane order. -/
structure Plan where
  at_ : Where_
  align : Nat
  size : Nat
  write : Bool
  acc : Nat
  nr : Bool
  tags : Bool
  hint : Hint
  kind : ReqKind
  /-- lane and address whose alignment and range are checked -/
  lanes : List (Nat × Nat)
  limit : Option Nat
  pieces : List Piece
  deriving DecidableEq, Repr

/-- A lane's 64-bit address in local memory or the scratchpad (R197). -/
def flatAddr (base : DWord) (off : List Word) (l : Nat) : Nat := (base.toNat + (laneVal off l).toNat) % 2 ^ 64
/-- The global address of private byte x of a lane (R54). -/
def privAddr (s60 : DWord) (x l : Nat) : Nat := globalAddr s60 (x / 4 * 256 + 4 * l + x % 4)

/-- The data registers that a captured list holds from position `k` on, in one lane. -/
def capLane (vv : List (List Word)) (k n l : Nat) : List Word := (List.range n).map fun i => laneVal (vv.getD (k + i) []) l

/-- A plan over global memory: one piece a lane. -/
def planGlobal (z : Size) (write nr tags : Bool) (acc : Nat) (h : Hint) (k : ReqKind) (base : DWord) (off : List Word)
    (data : Nat → List Byte) (m : Mask) : Plan :=
  let l := lanesOf m
  let addr (i : Nat) : Nat := globalAddr base (laneVal off i).toNat
  { at_ := .global, align := z.bytes, size := z.bytes, write := write, acc := acc, nr := nr, tags := tags, hint := h,
    kind := k, lanes := l.map fun i => (i, vaOf (addr i)), limit := none,
    pieces := l.map fun i => ⟨i, addr i, canonical base, data i⟩ }
/-- A plan over local memory or the scratchpad. -/
def planFlat (w : Where_) (z : Size) (write : Bool) (acc : Nat) (k : ReqKind) (base : DWord) (off : List Word)
    (limit : Nat) (data : Nat → List Byte) (m : Mask) : Plan :=
  let l := lanesOf m
  { at_ := w, align := z.bytes, size := z.bytes, write := write, acc := acc, nr := false, tags := false,
    hint := .normal, kind := k, lanes := l.map fun i => (i, flatAddr base off i), limit := some limit,
    pieces := l.map fun i => ⟨i, flatAddr base off i, true, data i⟩ }
/-- A plan over private memory (R54, R212): pieces of at most 4 bytes. -/
def planPriv (z : Size) (write : Bool) (acc : Nat) (h : Hint) (k : ReqKind) (base s60 : DWord) (off : List Word)
    (p : Nat) (data : Nat → List Byte) (m : Mask) : Plan :=
  let l := lanesOf m
  let sz := min 4 z.bytes
  { at_ := .global, align := z.bytes, size := sz, write := write, acc := acc, nr := false, tags := true, hint := h,
    kind := k, lanes := l.map fun i => (i, flatAddr base off i), limit := some p,
    pieces := l.flatMap fun i => (List.range (z.bytes / sz)).map fun j =>
      ⟨i, privAddr s60 (flatAddr base off i + sz * j) i, canonical s60, slice (data i) (sz * j) sz⟩ }
/-- A plan of LDS, STS, PUBW and ACQW: 8 bytes once per group, as an access of one lane (R200, R209). -/
def planOnce (write : Bool) (acc : Nat) (k : ReqKind) (addr : Nat) (canon : Bool) (data : List Byte) (m : Mask) : Plan :=
  let l := lanesOf m
  { at_ := .global, align := 8, size := 8, write := write, acc := acc, nr := false, tags := true, hint := .normal,
    kind := k, lanes := l.map fun i => (i, vaOf addr), limit := none, pieces := l.map fun i => ⟨i, addr, canon, data⟩ }

/-- The plan of AGDRAIN (R256): the 64 elements of each row as reductions. -/
def planRows (base : DWord) (off : List Word) (m : Mask) : Plan :=
  let l := lanesOf m
  let row (i : Nat) : Nat := globalAddr base (laneVal off i).toNat
  { at_ := .global, align := 4, size := 4, write := true, acc := 3, nr := false, tags := true, hint := .normal,
    kind := .reduce .add .f32, lanes := l.map fun i => (i, vaOf (row i)), limit := none,
    pieces := l.flatMap fun i => (List.range 64).map fun j =>
      ⟨i, 2 ^ 56 * (row i / 2 ^ 56) + (row i + 4 * j) % 2 ^ 56, canonical base, []⟩ }

/-- The plan of 64-byte records that the texture path and the ray units read (R268, R438 to R440). -/
def planRecs (base : DWord) (off : Nat → Nat) (m : Mask) : Plan :=
  let l := lanesOf m
  let addr (i : Nat) : Nat := globalAddr base (off i)
  { at_ := .global, align := 64, size := 64, write := false, acc := 1, nr := false, tags := false, hint := .normal,
    kind := .load, lanes := l.map fun i => (i, vaOf (addr i)), limit := none, pieces := l.map fun i => ⟨i, addr i, canonical base, []⟩ }

/-- The lowest lane of a mask as a mask, or lane 0 when it is empty (R200). -/
def lowLane (m : Mask) : Mask := BitVec.ofNat 64 (2 ^ ((lanesOf m).headD 0))

/-- The operands of a memory instruction that are captured at issue: uniform values. -/
def capS (i : Instr) (r : Regs) : List DWord :=
  match i with
  | .ld _ s _ _ _ _ => [r.sr s]
  | .st _ s _ _ _ => [r.sr s]
  | .lds _ a _ => [r.sr a]
  | .sts d a _ => [r.sr a, r.sr d]
  | .ldl _ s _ _ => [r.sr s]
  | .stl _ s _ _ => [r.sr s]
  | .ldc _ s _ _ => [r.sr s]
  | .stc _ s _ _ => [r.sr s]
  | .ldp _ s _ _ _ => [r.sr s, r.sr 60]
  | .stp _ s _ _ _ => [r.sr s, r.sr 60]
  | .atom _ s _ _ _ _ _ _ _ => [r.sr s]
  | .atoml _ s _ _ _ _ _ _ => [r.sr s]
  | .atomc _ s _ _ _ _ _ => [r.sr s]
  | .redst _ s _ _ _ _ _ => [r.sr s]
  | .redc _ s _ _ _ => [r.sr s]
  | .pref _ _ _ a => [r.sr a]
  | .tagset _ _ a => [r.sr a]
  | .tagget _ _ a => [r.sr a]
  | .cacheop _ _ a => [r.sr a]
  | .pubw b a => [r.sr a, r.sr b]
  | .acqw _ a => [r.sr a]
  | .agdrain _ b _ => [r.sr b]
  | .rbox _ _ a _ => [r.sr a]
  | .rtri _ _ a _ _ => [r.sr a]
  | _ => []
/-- The operands captured at issue: vector values, the offset first. -/
def capV (i : Instr) (r : Regs) : List (List Word) :=
  let data (n : Nat) (z : Size) : List (List Word) := (List.range (zCount z)).map fun k => r.vr (n + k)
  match i with
  | .ld _ _ o _ _ _ => [r.vr o]
  | .st d _ o z _ => r.vr o :: data d z
  | .ldl _ _ o _ => [r.vr o]
  | .stl d _ o z => r.vr o :: data d z
  | .ldc _ _ o _ => [r.vr o]
  | .stc d _ o z => r.vr o :: data d z
  | .ldp _ _ o _ _ => [r.vr o]
  | .stp d _ o z _ => r.vr o :: data d z
  | .atom _ _ o z _ b c _ _ => r.vr o :: (data b z ++ data c z)
  | .atoml _ _ o z b c _ _ => r.vr o :: (data b z ++ data c z)
  | .atomc _ _ o b c _ _ => [r.vr o, r.vr b, r.vr c]
  | .redst d _ o z _ _ _ => r.vr o :: data d z
  | .redc d _ o _ _ => [r.vr o, r.vr d]
  | .agdrain o _ _ => [r.vr o]
  | .rbox _ y _ n => r.vr n :: (List.range 8).map fun k => r.vr (y + k)
  | .rtri _ y _ n _ => r.vr n :: (List.range 8).map fun k => r.vr (y + k)
  | .pref _ _ o _ => [r.vr o]
  | .tagset t o _ => [r.vr o, r.vr t]
  | .tagget _ o _ => [r.vr o]
  | .cacheop _ o _ => [r.vr o]
  | _ => []

/-- The plan of a memory instruction (R197 to R200, R209 to R213, R236 to R240), from its captured operands, the
lanes that take part, the private bytes P, and the limits of local memory and of the scratchpad. -/
def planOf (i : Instr) (sv : List DWord) (vv : List (List Word)) (m : Mask) (p loc scr : Nat) : Option Plan :=
  let b := sv.getD 0 0
  let off := vv.getD 0 []
  let st (z : Size) (l : Nat) : List Byte := storeBytes z (capLane vv 1 (zCount z) l)
  let none_ (_ : Nat) : List Byte := []
  let cmp (z : Size) (l : Nat) : Nat := ofBytes (storeBytes z (capLane vv (1 + zCount z) (zCount z) l))
  match i with
  | .ld _ _ _ z h nr => some (planGlobal z false nr true 1 h .load b off none_ m)
  | .st _ _ _ z h => some (planGlobal z true false true 2 h .store b off (st z) m)
  | .lds _ _ imm => some (planOnce false 1 .load (globalAddr b (imm % 2 ^ 56).toNat) (canonical b) [] m)
  | .sts _ _ imm =>
    some (planOnce true 2 .store (globalAddr b (imm % 2 ^ 56).toNat) (canonical b) (toBytes 8 (sv.getD 1 0).toNat) m)
  | .ldl _ _ _ z => some (planFlat .loc z false 1 .load b off loc none_ m)
  | .stl _ _ _ z => some (planFlat .loc z true 2 .store b off loc (st z) m)
  | .ldc _ _ _ z => some (planFlat .scr z false 1 .load b off scr none_ m)
  | .stc _ _ _ z => some (planFlat .scr z true 2 .store b off scr (st z) m)
  | .ldp _ _ _ z h => some (planPriv z false 1 h .load b (sv.getD 1 0) off p none_ m)
  | .stp _ _ _ z h => some (planPriv z true 2 h .store b (sv.getD 1 0) off p (st z) m)
  | .atom _ _ _ z h _ _ op ty =>
    some (planGlobal z true false true 3 h (.atomic op ty 0) b off (fun l => st z l ++ toBytes z.bytes (cmp z l)) m)
  | .atoml _ _ _ z _ _ op ty =>
    some (planFlat .loc z true 3 (.atomic op ty 0) b off loc (fun l => st z l ++ toBytes z.bytes (cmp z l)) m)
  | .atomc _ _ _ _ _ op ty =>
    some (planFlat .scr .b32 true 3 (.atomic op ty 0) b off scr (fun l => st .b32 l ++ toBytes 4 (cmp .b32 l)) m)
  | .redst _ _ _ z h op ty => some (planGlobal z true false true 3 h (.reduce op ty) b off (st z) m)
  | .redc _ _ _ op ty => some (planFlat .scr .b32 true 3 (.reduce op ty) b off scr (st .b32) m)
  | .tagset _ _ _ => some { planGlobal .i8 true false false 2 .normal (.tagSet 0) b off (fun l => (capLane vv 1 1 l).map fun w => BitVec.ofNat 8 (w.toNat % 16)) m with size := 1 }
  | .tagget _ _ _ => some (planGlobal .i8 false false false 1 .normal .tagGet b off none_ m)
  | .cacheop _ _ _ => some (planGlobal .i8 false false true 1 .na .load b off none_ m)
  | .pubw _ _ => some (planOnce true 2 .store (globalAddr b 0) (canonical b) (toBytes 8 (sv.getD 1 0).toNat) m)
  | .acqw _ _ => some (planOnce false 1 .load (globalAddr b 0) (canonical b) [] m)
  | .agdrain _ _ _ => some (planRows b off m)
  | .rbox _ _ _ _ => some (planRecs b (fun l => (laneVal off l).toNat) m)
  | .rtri _ _ _ _ _ => some (planRecs b (fun l => (laneVal off l).toNat) m)
  | _ => none

/-! ### The checks of an access (R199, R201) -/

/-- The status that names a range (R319): private, local or scratchpad. -/
def Plan.rangeStatus (p : Plan) : Nat :=
  match p.at_ with
  | .global => 0x09
  | .loc => 0x07
  | .scr => 0x08
/-- The lanes of a list as a mask. -/
def maskList (l : List Nat) : Mask := maskOf fun i => l.contains i
/-- Misaligned lanes with their addresses. -/
def Plan.misaligned (p : Plan) : List (Nat × Nat) := p.lanes.filter fun x => x.2 % p.align ≠ 0
/-- Lanes beyond the limit, with their addresses. -/
def Plan.beyond (p : Plan) : List (Nat × Nat) :=
  match p.limit with
  | some n => p.lanes.filter fun x => decide (n < x.2 + p.align)
  | none => []
/-- The address that a trap reports for a lane: the virtual address of its first piece, or its address in its own
space. -/
def Plan.addrOf (p : Plan) (lane : Nat) : Nat :=
  match p.pieces.find? fun x => x.lane == lane with
  | some x => if p.at_ = .global then vaOf x.addr else x.addr
  | none => 0

/-- What the checks answer. -/
inductive PlanRes where
  | go (ts : List (Piece × Trans)) (sparse : List Nat)
  | mis (addr : Nat) (lanes : Mask)
  | page (status addr : Nat) (lanes : Mask)
  | tag (ptr gran addr : Nat) (lanes : Mask)
  | moving
  deriving DecidableEq, Repr

/-- Translation and tags of the pieces, once alignment and range hold. -/
def Plan.translate (p : Plan) (s : State) (cluster die ctx : Nat) (user : Bool) : PlanRes × State :=
  match p.at_ with
  | .global =>
    let r := s.checkLanes cluster die ctx ⟨p.write, false, user⟩ p.nr p.tags p.size (p.pieces.map fun x => ⟨x.lane, x.addr, x.canon⟩)
    (match r.1 with
     | .go ts sp =>
       .go ((p.pieces.filter fun x => !sp.contains x.lane).zip (ts.map fun t => t.tr)) sp
     | .page st a m => .page st (vaOf a) m
     | .tag q g a m => .tag q g (vaOf a) m
     | .moving => .moving, r.2)
  | _ => (.go (p.pieces.map fun x => (x, ⟨x.addr, .window, 0, false, false, .normal, 0, 0⟩)) [], s)
/-- MISALIGN over all lanes, then PAGEFAULT and TAGFAULT (R201). A lane beyond the private range is reported with the lanes
whose translations fault; the lowest lane gives status and address. -/
def Plan.check (p : Plan) (s : State) (cluster die ctx : Nat) (user : Bool) : PlanRes × State :=
  match p.misaligned with
  | x :: r => (.mis (p.addrOf x.1) (maskList ((x :: r).map (·.1))), s)
  | [] =>
    match p.beyond with
    | x :: r =>
      if p.at_ = .global ∧ p.pieces.any fun y => !y.canon then
        (.page 0x06 (p.addrOf x.1) (maskList (p.lanes.map (·.1))), s)
      else
        let out := maskList ((x :: r).map (·.1))
        let q := { p with pieces := p.pieces.filter fun y => !inMask out y.lane }
        (match q.translate s cluster die ctx user with
         | (.page st a m, s1) =>
           if (lanesOf m).headD 64 < x.1 then (.page st a (m ||| out), s1) else (.page p.rangeStatus (p.addrOf x.1) (m ||| out), s1)
         | (_, s1) => (.page p.rangeStatus (p.addrOf x.1) out, s1))
    | [] => p.translate s cluster die ctx user

/-! ### Requests -/

/-- The comparison operand that an atomic's data carries behind its operand. -/
def ReqKind.withCmp (k : ReqKind) (n : Nat) (data : List Byte) : ReqKind :=
  match k with
  | .atomic op ty _ => .atomic op ty (ofBytes (data.drop n))
  | .tagSet _ => .tagSet (ofBytes data)
  | x => x
/-- Whether a request reads or writes a granule's tag. -/
def ReqKind.isTag : ReqKind → Bool
  | .tagSet _ => true
  | .tagGet => true
  | _ => false
/-- The path that an instruction's requests travel on (R308). -/
def reqPath (i : Option Instr) : Path :=
  match i with
  | some (.agdrain _ _ _) => .mtx
  | some (.tsamp _ _ _ _ _ _) => .tex
  | some (.rbox _ _ _ _) => .tex
  | some (.rtri _ _ _ _ _) => .tex
  | _ => .core
/-- Requests of an operation put into flight, one a piece, in order; a store drops the issuing core's L1 copy of
its line (R217, R283). -/
def State.sendPieces (s : State) (p : Plan) (gid op core die ctx lid : Nat) (l : List (Piece × Trans)) : State :=
  l.foldl (fun a x =>
    let space : Space := if p.at_ = .scr then .scratch lid else x.2.space
    let pa := if p.kind.isTag then x.2.pa / 32 * 32 else x.2.pa
    let r : Req :=
      { kind := p.kind.withCmp p.size x.1.data, space := space, path := if (match space with
          | .peer _ => true
          | _ => false) then .peer else reqPath ((tget a.work.ops op).map (·.instr)), core := core, die := die, ctx := ctx, gid := gid, op := op,
        lane := x.1.lane, va := vaOf x.1.addr, pa := pa, size := p.size, data := x.1.data.take p.size,
        hint := if p.hint = .normal then x.2.hint else p.hint, lro := x.2.lro, key := x.2.key,
        st := if p.at_ = .global ∧ a.spaceOf x.2.pa = none then .phys
              else if p.kind.isTag && (!x.2.tagOn || space != .global) then .done 0 else .fresh,
        val := [0], seq := 0, install := false, missed := false }
    let a1 := (a.addReq r).2
    if p.write ∧ p.at_ = .global then a1.dropCopies (pa / 128) fun h => h == .l1 core else a1) s

/-- The copy of a line that a store drops on its way: the issuing die's, where that is not the home (R289). -/
def State.dropPassing (s : State) (r : Req) : State :=
  let ln := r.pa / 128
  if r.die = s.homeDie ln then s else (s.delWay r.die ln).dropCopies ln fun h => h == .l2 r.die
/-- The stores of an operation reach their homes. Those to host memory and to a peer take effect there (R307, R416), and the
cluster's copy of a peer's line goes (R208); those to the register window are left to arrive. -/
def State.arriveAll (s : State) (o : Nat) : State :=
  (s.reqsOf o).foldl (fun a r =>
    let done (t : State) : State := t.modReq r.1 fun x => { x with st := .done (a.gtAt r.2.die) }
    match r.2.space with
    | .global =>
      let p := (a.dropPassing r.2).pend (r.2.pa / 128) r.1 (r.2.pa % 128) r.2.data
      p.2.modReq r.1 fun x => { x with st := .pending p.1 }
    | .host => done { a with mem := { a.mem with host := a.mem.host.write (r.2.pa - 0x400000000000) r.2.data } }
    | .peer q =>
      let m := ((tget a.mem.peers q).getD []).write (r.2.pa % 0x040000000000) r.2.data
      let b : State := { a with mem := { a.mem with peers := tput a.mem.peers q m } }
      done (b.dropCopies (r.2.pa / 128) fun h => h == .peer (coreCluster r.2.core))
    | _ => a) s
/-- Whether every access of a list is taken where it goes; a remote device may refuse any (R416). -/
def State.takenAll (s : State) : List (Piece × Trans) → Bool × State
  | [] => (true, s)
  | x :: r =>
    let a := s.taken x.2.pa
    let b := a.2.takenAll r
    (a.1 && b.1, b.2)

/-- The bytes of the die scratchpad of a launch (R285). -/
def Launch.scrBytes (l : Launch) : Nat := 20 * l.csp
/-- The plan of an issuing group's instruction. -/
def GI.plan (e : GI) (m : Mask) : Option Plan :=
  planOf e.i (capS e.i e.g.regs) (capV e.i e.g.regs) m e.launch.priv e.team.size e.launch.scrBytes
/-- The lanes that a DIEOFF reissue leaves (R374). -/
def GI.redo (e : GI) (m : Mask) : Mask :=
  match e.g.redo with
  | some (p, k) => if p = e.g.ctl.pos then m &&& k else m
  | none => m
/-- The lanes that take part (R200). -/
def GI.takePart (e : GI) : Mask :=
  let once (go : Bool) : Mask := if go then lowLane e.g.active else 0
  e.redo (match e.i with
    | .lds _ _ _ => once true
    | .acqw _ _ => once true
    | .sts _ _ _ => once ((e.g.active &&& ~~~e.g.helpers) != 0)
    | .pubw _ _ => once ((e.g.active &&& ~~~e.g.helpers) != 0)
    | .ld _ _ _ _ _ _ => e.lanes
    | .ldl _ _ _ _ => e.lanes
    | .ldc _ _ _ _ => e.lanes
    | .ldp _ _ _ _ _ => e.lanes
    | .pref _ _ _ _ => e.lanes
    | .tagget _ _ _ => e.lanes
    | .rbox _ _ _ _ => e.lanes
    | .rtri _ _ _ _ _ => e.lanes
    | _ => e.storeLanes)

/-- A MISALIGN: the firmware's routine, or the context's handler (R199, R370). -/
def GI.misalign (e : GI) (s : State) (acc addr : Nat) (lanes : Mask) : Fx :=
  if e.i.emulates then .stay (s.raise e.gid ⟨.misalign, acc, addr, lanes, e.g.ctl.pos, true⟩)
  else .trap s .misalign acc addr lanes
/-- The operation that an access becomes, its operands captured. -/
def GI.memOp (e : GI) (m : Mask) (st : OpSt) (sparse : List Nat) (o : Op) : Op :=
  { o with lanes := m, svals := capS e.i e.g.regs, vvals := capV e.i e.g.regs, st := st, misc := sparse }
/-- The DIEOFF reissue has been made: the limit to its lanes goes with it. Another instruction, a handler's say, leaves it. -/
def GI.clearRedo (e : GI) (s : State) : State :=
  s.modGroup e.gid fun g => { g with redo := match g.redo with
    | some (p, m) => if p = e.g.ctl.pos then none else some (p, m)
    | none => none }
/-- Whether a TAGSET of the group is outstanding among the operations numbered below `n`: tags are not compared before it,
since it is ordered as a store to its granule (R237). -/
def State.tagsPending (s : State) (gid n : Nat) : Bool :=
  s.work.ops.any fun o => decide (o.1 < n) && o.2.gid == gid && match o.2.instr with
    | .tagset _ _ _ => true
    | _ => false
/-- A memory instruction of a group (R201): its checks, then its operation and requests. Local memory is
accessed when the operation completes (R210); a CACHEOP requests its lines as a load does, and acts on them when it
completes (R238). -/
def GI.access (e : GI) (s : State) : Fx :=
  let m := e.takePart
  match e.plan m with
  | none => .done s
  | some p =>
    let r := p.check s (coreTlb e.g.core) e.die e.ctx (e.g.ctl.level == .u)
    if p.tags && s.tagsPending e.gid s.nextId then .stay s
    else match r.1 with
    | .mis a l => e.misalign s p.acc a l
    | .page st a l => .page r.2 st p.acc a l
    | .tag q g a l => .trap r.2 .tagfault (q + 16 * g + 256 * p.acc) a l
    | .moving => .done (e.clearRedo (e.startOp r.2 (e.memOp m (.moving none) [])).2)
    | .go ts sp =>
      let noReq : Bool := p.at_ == .loc
      let o := e.startOp r.2 (e.memOp m (if noReq then .ready else .reqs) sp)
      let s1 := if noReq then o.2 else o.2.sendPieces p e.gid o.1 e.g.core e.die e.ctx e.team.launch ts
      .done (e.clearRedo s1)

/-! ### Local memory (R210, R215, R218) -/

/-- One piece performed in local memory: what it returns, and the memory after it. -/
def localPiece (k : ReqKind) (n : Nat) (m : Memory) (x : Piece) : List Byte × Memory :=
  let old := m.read x.addr n
  match k with
  | .store => ([], m.write x.addr (x.data.take n))
  | .atomic op ty _ =>
    (old, m.write x.addr (toBytes n (atomNew op ty (8 * n) (ofBytes old) (ofBytes (x.data.take n)) (ofBytes (x.data.drop n)))))
  | .reduce op ty => ([], m.write x.addr (toBytes n (atomNew op ty (8 * n) (ofBytes old) (ofBytes (x.data.take n)) 0)))
  | _ => (old, m)
/-- Every piece in order, with what each returns. -/
def localPieces (k : ReqKind) (n : Nat) : Memory → List Piece → List (Nat × List Byte) × Memory
  | m, [] => ([], m)
  | m, x :: r =>
    let one := localPiece k n m x
    let rest := localPieces k n one.2 r
    ((x.lane, one.1) :: rest.1, rest.2)

/-! ### Register results of loads and atomics -/

/-- The registers that a load or atomic writes, from the bytes that lanes received (R204, R207). -/
def loadWrites (i : Instr) (lanes : Mask) (sparse : List Nat) (got : Nat → Option (List Byte)) : List RegWrite :=
  let vec (d : Nat) (z : Size) : List RegWrite :=
    (List.range (zCount z)).map fun k =>
      .vec (d + k) (maskOf fun l => inMask lanes l && ((got l).isSome || sparse.contains l))
        (vecOf fun l => if sparse.contains l then 0 else (loadWords z ((got l).getD [])).getD k 0)
  let once (d : Nat) : List RegWrite :=
    match (lanesOf lanes).head? with
    | some l => match got l with
      | some b => [.uni d (BitVec.ofNat 64 (ofBytes b))]
      | none => []
    | none => []
  match i with
  | .ld d _ _ z _ nr => vec d z ++ (if nr then [.pred 14 lanes (maskList sparse)] else [])
  | .lds d _ _ => once d
  | .acqw d _ => once d
  | .ldl d _ _ z => vec d z
  | .ldc d _ _ z => vec d z
  | .ldp d _ _ z _ => vec d z
  | .atom d _ _ z _ _ _ _ _ => vec d z
  | .atoml d _ _ z _ _ _ _ => vec d z
  | .atomc d _ _ _ _ _ _ => vec d .b32
  | .tagget d _ _ => vec d .n8
  | _ => []

/-! ### The firmware's misaligned accesses (R311) -/

/-- The group as it stood when the trap into the firmware was taken. -/
def GI.trapped (e : GI) (i : Instr) : GI :=
  { e with
    i := i
    g := { e.g with
      regs := { e.g.regs with mode := e.g.bankM.mode }
      ctl := { e.g.ctl with pos := Pos.ofWord e.g.bankM.resume.toNat, level := e.g.bankM.plev } } }
/-- The instruction that the routine emulates. -/
def GI.emulated (e : GI) (s : State) : Option Instr :=
  let p := Pos.ofWord e.g.bankM.resume.toNat
  match e.fetchIn s (p.h + 4 * p.k) with
  | .word w => (decode w none).toOption
  | _ => none
/-- One access of the routine: a byte, or the whole access of a lane that is aligned; its size, and the address
whose range is checked. -/
structure EByte where
  piece : Piece
  size : Nat
  chk : Nat
  deriving DecidableEq, Repr
/-- What the routine finds when it comes to an access: it may go on, to nothing where a sparse leaf answers; or the fault:
status or tags, kind (0 page, 1 tag), address and lane. -/
inductive ERes where
  | go (t : Option Trans)
  | fault (status kind addr lane : Nat)
  | moving
  deriving DecidableEq, Repr
/-- The accesses of the routine, lane by lane and in ascending order of addresses. -/
def Plan.bytes (p : Plan) : List EByte :=
  let bad := p.misaligned.map (·.1)
  let addr (x : Piece) (j : Nat) : Nat :=
    if p.at_ = .global then 2 ^ 56 * (x.addr / 2 ^ 56) + (x.addr + j) % 2 ^ 56 else x.addr + j
  p.pieces.flatMap fun x =>
    if bad.contains x.lane then
      (List.range p.size).map fun j => ⟨⟨x.lane, addr x j, x.canon, (x.data.drop j).take 1⟩, 1, addr x j⟩
    else [⟨x, p.size, x.addr⟩]
/-- The accesses of the routine for LDP and STP: R54 places the bytes of a misaligned lane one by one, and an aligned lane's
pieces are accessed as they are. -/
def routineBytes (i : Instr) (sv : List DWord) (vv : List (List Word)) (p : Plan) : List EByte :=
  let bad := p.misaligned.map (·.1)
  let one (z : Size) (st : Bool) : List EByte :=
    p.lanes.flatMap fun x =>
      if bad.contains x.1 then
        (List.range z.bytes).map fun j =>
          ⟨⟨x.1, privAddr (sv.getD 1 0) (x.2 + j) x.1, canonical (sv.getD 1 0),
            if st then ((storeBytes z (capLane vv 1 (zCount z) x.1)).drop j).take 1 else []⟩, 1, x.2 + j⟩
      else (p.pieces.filter fun y => y.lane == x.1).zipIdx.map fun y => ⟨y.1, p.size, x.2 + p.size * y.2⟩
  match i with
  | .ldp _ _ _ z _ => one z false
  | .stp _ _ _ z _ => one z true
  | _ => p.bytes
/-- The routine comes to an access: only now is it translated (R311). -/
def Plan.byteStep (p : Plan) (cluster die ctx : Nat) (user : Bool) (s : State) (x : EByte) : ERes × State :=
  let q : Plan := { p with align := x.size, size := x.size, lanes := [(x.piece.lane, x.chk)], pieces := [x.piece] }
  match q.check s cluster die ctx user with
  | (.go ts _, s1) => (.go (ts.head?.map (·.2)), s1)
  | (.page st a _, s1) => (.fault st 0 a x.piece.lane, s1)
  | (.tag pt gt a _, s1) => (.fault (pt + 16 * gt) 1 a x.piece.lane, s1)
  | (.mis a _, s1) => (.fault 0 0 a x.piece.lane, s1)
  | (.moving, s1) => (.moving, s1)
/-- The group leaves the routine at a position, as HRET does (R374). -/
def State.leaveFirmware (s : State) (gid : Nat) (p : Pos) : State :=
  s.modGroup gid fun g =>
    { g with
      regs := { g.regs with mode := g.bankM.mode }
      ctl := { g.ctl with emul := none, level := g.bankM.plev, pos := p } }
/-- The position after an instruction of one word at `p`, in the clause under way. -/
def Ctl.wordAfter (c : Ctl) (p : Pos) : Pos := if p.k < c.len then ⟨p.h, p.k + 1⟩ else ⟨p.h + 4 * (c.len + 1), 0⟩
/-- The routine returns behind the emulated instruction `i` at `p`. Where its clause ends there and no clause header
follows, the transfer is ILLEGAL at the instruction (R96). -/
def State.emulLeave (s : State) (gid : Nat) (i : Instr) (p : Pos) : State :=
  match s.gi gid i with
  | none => s
  | some e =>
    let n := e.g.ctl.wordAfter p
    let s1 := s.leaveFirmware gid n
    if n.k ≠ 0 then s1
    else match e.fetch s e.g.bankM.plev n.h with
      | .word w => if isHeader w then s1 else (s.leaveFirmware gid p).raise gid ⟨.illegal, e.word, 0, 0, p, false⟩
      | _ => s1
/-- A fault that the routine met is delivered as the trapping instruction would have raised it. -/
def State.emulFault (s : State) (gid acc status kind addr lane : Nat) : State :=
  match tget s.groups gid with
  | none => s
  | some g =>
    let s1 := s.leaveFirmware gid (Pos.ofWord g.bankM.resume.toNat)
    match s1.gi gid .nop with
    | none => s1
    | some e =>
      if kind = 0 then e.pageFault s1 status acc addr (maskList [lane])
      else s1.raise gid ⟨.tagfault, status + 256 * acc, addr, maskList [lane], e.g.ctl.pos, false⟩

/-- The routine starts (R311): its accesses become one operation without a flag, which counts those that it has passed. -/
def State.emulStart (s : State) (gid : Nat) : State :=
  match s.gi gid .nop with
  | none => s
  | some e0 =>
    if e0.g.ctl.emul ≠ some 0 then s
    else match e0.emulated s with
      | none => s.leaveFirmware gid (Pos.ofWord e0.g.bankM.resume.toNat)
      | some i =>
        let e := e0.trapped i
        match e.plan e.takePart with
        | none => s.leaveFirmware gid e.g.ctl.pos
        | some _ =>
          let n := s.fresh
          let op : Op :=
            { gid := gid, team := e.g.team, core := e.g.core, instr := i, flag := 15, pos := e.g.ctl.pos, mode := e.mode,
              lanes := e.takePart, wlanes := e.takePart, svals := capS i e.g.regs, vvals := capV i e.g.regs, tile := [], writes := [],
              exc := 0, excLanes := 0, st := .reqs, at_ := s.gtOf e.g.core, w := 0, await := ⟨[], [], [], 0⟩, misc := [0],
              user := e.g.ctl.level == .u }
          let s2 := { n.2 with work := { n.2.work with ops := tput n.2.work.ops n.1 op } }
          (e.clearRedo s2).modCtl gid fun c => { c with emul := some n.1 }

end Sys2Proof.Machine
end

