-- ==== Sys2Proof/Machine/Control.lean ====
section
/-! DEFINITION. The clause start (R93 to R96, R379), control transfer (R128 to R135), the mask stack with its spill
area (R50, R136 to R143), and cuts and rejoin in span mode (R34 to R39, R142). -/
namespace Sys2Proof.Machine

/-! ### Targets -/

/-- The target T of a B-format instruction of a clause at H (R104). -/
def target (h : Nat) (o : Int) : Nat := (((h : Int) + 4 * o) % (2 ^ 64 : Nat)).toNat
/-- Whether an address that a register holds may be a transfer's target (R131). -/
def addrOk (a : DWord) : Bool := nfld a.toNat 56 8 == 0 && nfld a.toNat 0 2 == 0
/-- Whether a clause header stands at an address that the group can enter. -/
def GI.header (e : GI) (s : State) (h : Nat) : Bool :=
  match e.fetch s e.g.ctl.level h with
  | .word w => isHeader w
  | _ => false
/-- Whether a clause header stands at an address that the span can enter. -/
def SI.header (e : SI) (s : State) (h : Nat) : Bool :=
  match e.fetch s h with
  | .word w => isHeader w
  | _ => false
def GI.next (e : GI) : Nat := e.g.ctl.nextHeader
def GI.target (e : GI) (o : Int) : Nat := Sys2Proof.Machine.target e.g.ctl.pos.h o
def SI.target (e : SI) (o : Int) : Nat := Sys2Proof.Machine.target e.x.pos.h o

/-! ### The clause start -/

/-- Whether a pre-emption request takes hold of a group at this clause boundary (R379). -/
def GI.preDue (e : GI) (s : State) : Bool :=
  e.team.pre.isSome && e.g.ctl.pre == .run && e.g.sect.isNone && e.g.ctl.level == .u && !s.mmapOut e.g.team
/-- The handler address UVEC of a context. -/
def State.uvec (s : State) (c : Nat) : Nat :=
  match tget s.ctxs c with
  | some x => x.uvec
  | none => 0
/-- CLAUSE_START: the header's WAIT, the removal of the tags that it names, SETA, SETB and LEN (R94, R95, R109).
Inside a clause a header word is ILLEGAL (R96). -/
def execClauseStart (w a b l : Nat) (s : State) : Host.Outcome State Fault Refusal :=
  s.issue (.clauseStart w a b l)
    (fun e s =>
      if e.g.ctl.pos.k ≠ 0 then .trap s .illegal e.word 0 0
      else if e.preDue s then
        .stay (s.modCtl e.gid fun c => { c with pre := if s.uvec e.ctx = 0 then .yielded else .entering })
      else if (List.range 12).any fun k => nbit w k && decide (e.g.flags.getD k 0 ≠ 0) then .stay s
      else .stay (s.modGroup e.gid fun g =>
        { g with
          tags := g.tags.filter fun t => !(decide (t.flag < 12) && nbit w t.flag)
          ctl := { g.ctl with pos := ⟨g.ctl.pos.h, 1⟩, seta := a, setb := b, len := l } }))
    (fun e s =>
      if e.x.pos.k ≠ 0 then .mat
      else if (List.range 12).any fun k => nbit w k && decide (e.x.flags.getD k 0 ≠ 0) then .stay s
      else .stay (s.modSpan e.sid fun x => { x with pos := ⟨x.pos.h, 1⟩, inside := true, seta := a, setb := b, len := l }))

/-! ### Transfers (R128 to R131) -/

def execBra (c : Cond) (o : Int) (s : State) : Host.Outcome State Fault Refusal :=
  s.issue (.bra c o)
    (fun e s => if c.holds e.g.regs.cc then .jump s (e.target o) else .done s)
    (fun e _ => if c.holds e.x.cc then .jump e.x (e.target o) else .done e.x)

/-- The linear half-spaces of R35 on a box that R35 admits. -/
def Box.linearOk (b : Box) (l : Launch) (hs : List Half) : Bool :=
  hs.all (fun x => (x.linearK l).isSome) && b.ty0 == b.ty1 && b.jx0 == 0 && b.jx1 + 1 == l.tx && b.jy0 == 0 && b.jy1 + 1 == l.ty
/-- Whether some item of a box lies in a predicate form, decided on the interval of R34 or R35; none when the
form qualifies for neither (R39). -/
def Box.someTrue (b : Box) (l : Launch) (p : PForm) : Option Bool :=
  match p with
  | .const v => some v
  | .conj [] => some true
  | .conj (h :: r) =>
    match h.axis with
    | some ax =>
      if (h :: r).all fun x => x.axis == some ax then some ((b.cutAxis ax (h :: r)).any (·.2)) else none
    | none => if b.linearOk l (h :: r) then some ((b.cutLinear l (h :: r)).any (·.2)) else none
/-- BRZ and BRNZ in span mode. -/
def brzSpan (want : Bool) (p : Nat) (o : Int) (e : SI) (_ : State) : SFx :=
  match e.x.box.someTrue e.launch (e.x.pf p) with
  | some v => if v = want then .jump e.x (e.target o) else .done e.x
  | none => .mat
def execBrz (p : Nat) (o : Int) (s : State) : Host.Outcome State Fault Refusal :=
  s.issue (.brz p o)
    (fun e s => if e.g.regs.pr p &&& e.g.active = 0 then .jump s (e.target o) else .done s)
    (brzSpan false p o)
def execBrnz (p : Nat) (o : Int) (s : State) : Host.Outcome State Fault Refusal :=
  s.issue (.brnz p o)
    (fun e s => if e.g.regs.pr p &&& e.g.active ≠ 0 then .jump s (e.target o) else .done s)
    (brzSpan true p o)
def execCall (o : Int) (s : State) : Host.Outcome State Fault Refusal :=
  s.issue (.call o)
    (fun e s => if addrOk (BitVec.ofNat 64 (e.target o)) then
        .jump (s.modRegs e.gid fun r => r.setS 63 (BitVec.ofNat 64 e.next)) (e.target o)
      else .trap s .illegal e.word 0 0)
    (fun e _ => if addrOk (BitVec.ofNat 64 (e.target o)) then
        .jump { e.x with s := e.x.s.set 63 (BitVec.ofNat 64 e.next) } (e.target o)
      else .mat)
/-- A transfer to the address in a uniform register (R131). -/
def jumpReg (i : Instr) (n : Nat) (s : State) : Host.Outcome State Fault Refusal :=
  s.issue i
    (fun e s => if addrOk (e.g.regs.sr n) then .jump s (e.g.regs.sr n).toNat else .trap s .illegal e.word 0 0)
    (fun e _ => if addrOk (e.x.s.getD n 0) then .jump e.x (e.x.s.getD n 0).toNat else .mat)
def execRet (s : State) : Host.Outcome State Fault Refusal := jumpReg .ret 63 s
def execJmps (a : Nat) (s : State) : Host.Outcome State Fault Refusal := jumpReg (.jmps a) a s
def execNop (s : State) : Host.Outcome State Fault Refusal :=
  s.issue .nop (fun _ s => .done s) (fun e _ => .done e.x)
/-- TRAPU (R133): USER with the trap position at the next clause. -/
def execTrapu (imm : Nat) (s : State) : Host.Outcome State Fault Refusal :=
  s.issue (.trapu imm)
    (fun e s => .stay (s.raise e.gid ⟨.user, imm, 0, 0, ⟨e.next, 0⟩, false⟩))
    matSpan

/-! ### The mask stack and its spill area (R50) -/

/-- A mask-stack entry as memory holds it (R136). -/
def MKind.code : MKind → Nat
  | .ifK => 1
  | .elseK => 2
  | .loopB => 3
  | .loopC => 4
def MaskEntry.bytes (m : MaskEntry) : List Byte :=
  toBytes 8 m.mask.toNat ++ toBytes 4 m.mode.toNat ++ toBytes 4 m.kind.code
/-- An entry read back; a code that never occurs leaves the kind as it was. -/
def MaskEntry.ofBytes (old : MaskEntry) (b : List Byte) : MaskEntry :=
  { old with
    mask := BitVec.ofNat 64 (rdN b 0 8)
    mode := BitVec.ofNat 32 (rdN b 8 4)
    kind := match rdN b 12 1 % 8 with
      | 1 => .ifK
      | 2 => .elseK
      | 3 => .loopB
      | 4 => .loopC
      | _ => old.kind }

/-- What a mask instruction makes of the group: the whole stack, the mask, MODE, where control goes (none: the
clause at N), and whether no lane remains. -/
structure MaskOut where
  stack : List MaskEntry
  active : Mask
  mode : Word
  target : Option Nat
  ended : Bool
  deriving DecidableEq, Repr

/-- Spilled entries of a stack (R50). -/
def spilledOf (l : List MaskEntry) : Nat := l.length - 16
/-- Entries that an instruction must store to the spill area. -/
def spillWrites (old new : List MaskEntry) : List Nat :=
  (List.range (spilledOf new)).filter fun k => decide (spilledOf old ≤ k) || old[k]? != new[k]?
/-- Entries that an instruction must refill. -/
def spillReads (old new : List MaskEntry) : List Nat :=
  (List.range (min (spilledOf old) new.length)).filter fun k => decide (spilledOf new ≤ k)
/-- The address of a spilled entry, from the group's s60 at issue. -/
def spillAddr (s60 : DWord) (k : Nat) : Nat := globalAddr s60 ((2 ^ 56 - 4096 + 16 * k) % 2 ^ 56)
/-- The accesses to the spill area as a plan: they go through L1 as STP and LDP do. -/
def spillPlan (s60 : DWord) (write : Bool) (new : List MaskEntry) (ks : List Nat) : Plan :=
  { at_ := .global, align := 16, size := 16, write := write, acc := if write then 2 else 1, nr := false, tags := true,
    hint := .normal, kind := if write then .store else .load, lanes := ks.map fun k => (0, vaOf (spillAddr s60 k)), limit := none,
    pieces := ks.map fun k => ⟨0, spillAddr s60 k, canonical s60, match new[k]? with
      | some m => m.bytes
      | none => []⟩ }
/-- The instruction's own effect (R50): it takes place once its accesses have completed. -/
def GI.maskApply (e : GI) (s : State) (o : MaskOut) : Fx :=
  let s1 := s.modGroup e.gid fun g =>
    { g with stack := o.stack, active := o.active, regs := { g.regs with mode := o.mode } }
  if o.ended then .stay (s1.modCtl e.gid fun c => { c with ending := true, hold := none, holdArg := [] })
  else match o.target with
    | some t => .jump s1 t
    | none => .done s1
/-- The spill or refill under way: its requests. -/
def State.dropOpReqs (s : State) (o : Nat) : State :=
  { s with work := { s.work with ops := tdel s.work.ops o, reqs := s.work.reqs.filter fun r => r.2.op != o } }
/-- The operation of a mask instruction's spill and refill, which has no flag (R50). -/
def GI.spillOp (e : GI) (s : State) (st : OpSt) : Nat × State :=
  let n := s.fresh
  let op : Op :=
    { gid := e.gid, team := e.g.team, core := e.g.core, instr := e.i, flag := 15, pos := e.g.ctl.pos, mode := e.mode,
      lanes := 0, wlanes := 0, svals := [e.g.regs.sr 60], vvals := [], tile := [], writes := [], exc := 0, excLanes := 0, st := st,
      at_ := s.gtOf e.g.core, w := 0, await := ⟨[], [], [], 0⟩, misc := [], user := e.g.ctl.level == .u }
  (n.1, ({ n.2 with work := { n.2.work with ops := tput n.2.work.ops n.1 op } } : State).modCtl e.gid fun c =>
    { c with hold := some e.i, holdArg := [n.1], holdAt := s.gtOf e.g.core })
/-- The accesses of a spill and refill checked and sent out, `held` once the moving bit has held them (R326): then the
instruction is still to be done, so a fault that they meet is its own and it replays whole (R140; DEDUCED, log entry 128).
A trap of such an access, which no lane makes, reports no lane (DESIGN CHOICE, log entry 129). -/
def GI.spillSend (e : GI) (s : State) (old new : List MaskEntry) (held : Option Nat) : Fx :=
  let pw := spillPlan (e.g.regs.sr 60) true new (spillWrites old new)
  let pr := spillPlan (e.g.regs.sr 60) false old (spillReads old new)
  let cw := pw.check s (coreTlb e.g.core) e.die e.ctx (e.g.ctl.level == .u)
  let cr := pr.check cw.2 (coreTlb e.g.core) e.die e.ctx (e.g.ctl.level == .u)
  let free (t : State) : State := match held with
    | some id => (t.dropOpReqs id).modCtl e.gid fun c => { c with hold := none, holdArg := [] }
    | none => t
  let wait : Fx := .stay (if held.isSome then s else (e.spillOp cr.2 (.moving none)).2)
  match cw.1, cr.1 with
  | .go tw _, .go tr _ =>
    let n := match held with
      | some id => (id, cr.2.modOp id fun o => { o with st := .reqs })
      | none => e.spillOp cr.2 .reqs
    .stay ((n.2.sendPieces pw e.gid n.1 e.g.core e.die e.ctx e.team.launch tw).sendPieces pr e.gid n.1 e.g.core e.die e.ctx e.team.launch tr)
  | .moving, _ => wait
  | .go _ _, .moving => wait
  | .mis a _, _ => .trap (free cw.2) .misalign 2 a 0
  | .page st a _, _ => .page (free cw.2) st 2 a 0
  | .tag q g a _, _ => .trap (free cw.2) .tagfault (q + 16 * g + 512) a 0
  | .go _ _, .mis a _ => .trap (free cr.2) .misalign 1 a 0
  | .go _ _, .page st a _ => .page (free cr.2) st 1 a 0
  | .go _ _, .tag q g a _ => .trap (free cr.2) .tagfault (q + 16 * g + 256) a 0
/-- Whether an operation is held at translation by the moving bit. -/
def State.opMoving (s : State) (o : Nat) : Bool :=
  match tget s.work.ops o with
  | some x => x.st == .moving none
  | none => false
/-- Whether s60 carries a pending tag (R109). -/
def GI.s60Tagged (e : GI) : Bool := e.g.tags.any fun t => t.reg == .s 60
/-- A mask instruction (R50, R139, R140): its spill stores and refill loads first, if it needs any, then its
effect. One that spills or refills reads s60 as it issues, and so meets DEPMISS under a tag of s60 before any trap of its own
(R105, R109). -/
def GI.maskFx (e : GI) (s : State) (o : MaskOut) : Fx :=
  let ws := spillWrites e.g.stack o.stack
  let rs := spillReads e.g.stack o.stack
  if ws.isEmpty && rs.isEmpty then e.maskApply s o
  else if e.g.ctl.hold = some e.i then
    let id := e.g.ctl.holdArg.headD 0
    let q := s.reqsOf id
    if s.opMoving id then e.spillSend s e.g.stack o.stack (some id) else
    let s60 : DWord := match tget s.work.ops id with
      | some o => o.svals.getD 0 0
      | none => 0
    if q.any fun r => decide (r.2.st = .phys) then .trap (s.dropOpReqs id) .physrange 0 0 0
    else if q.any fun r => decide (r.2.st = .error) then .trap (s.dropOpReqs id) .dieoff (256 * (if rs.isEmpty then 2 else 1)) (match q.find? fun r => decide (r.2.st = .error) with
      | some r => r.2.va
      | none => 0) 0
    else if q.any fun r => decide (r.2.st = .poisoned) then .trap (s.dropOpReqs id) .poison 256 e.g.ctl.pos.word 0
    else if q.all fun r => match r.2.st with
        | .done _ => true
        | _ => false
    then
      let back (k : Nat) (m : MaskEntry) : MaskEntry :=
        if rs.contains k then
          match q.find? fun r => r.2.kind == .load && r.2.va == vaOf (spillAddr s60 k) with
          | some r => m.ofBytes r.2.val
          | none => m
        else m
      e.maskApply (s.dropOpReqs id) { o with stack := o.stack.zipIdx.map fun m => back m.2 m.1 }
    else .stay s
  else if e.s60Tagged then .trap s .depmiss e.word 0 0
  else if !e.header s (o.target.getD e.next) && !o.ended then (match o.target with
    | some t => .jump s t
    | none => .done s)
  else e.spillSend s e.g.stack o.stack none

/-- Lanes removed from the entries of a stack at and after an index. -/
def clearFrom (l : List MaskEntry) (i : Nat) (m : Mask) : List MaskEntry :=
  l.zipIdx.map fun e => if i ≤ e.2 then { e.1 with mask := e.1.mask &&& ~~~m } else e.1
/-- The index of the newest entry of a kind. -/
def newest (l : List MaskEntry) (k : MKind) : Option Nat :=
  (l.zipIdx.filter fun e => e.1.kind == k).getLast?.map (·.2)
/-- A group's state as a mask instruction would leave it that changes nothing else. -/
def GI.keep (e : GI) : MaskOut := ⟨e.g.stack, e.g.active, e.mode, none, false⟩

/-- MIF (R139). -/
def GI.mif (e : GI) (p : Nat) (t : Nat) : Option MaskOut :=
  if 256 ≤ e.g.stack.length then none
  else
    let a := e.g.active &&& e.g.regs.pr p
    some { e.keep with stack := e.g.stack ++ [⟨e.g.active, e.mode, .ifK, 0⟩], active := a, target := if a = 0 then some t else none }
/-- MELSE (R139). -/
def GI.melse (e : GI) (t : Nat) : Option MaskOut :=
  match e.g.stack.getLast? with
  | some x =>
    if x.kind = .ifK then
      let a := x.mask &&& ~~~e.g.active &&& ~~~x.atEnd
      some { e.keep with stack := e.g.stack.dropLast ++ [{ x with kind := .elseK, atEnd := 0 }], active := a, mode := x.mode,
                         target := if a = 0 then some t else none }
    else none
  | none => none
/-- MEND (R139). -/
def GI.mend (e : GI) : Option MaskOut :=
  match e.g.stack.getLast? with
  | some x =>
    if x.kind = .ifK ∨ x.kind = .elseK then
      some { e.keep with stack := e.g.stack.dropLast, active := x.mask, mode := x.mode }
    else none
  | none => none
/-- MLOOP (R139). -/
def GI.mloop (e : GI) : Option MaskOut :=
  if 255 ≤ e.g.stack.length then none
  else some { e.keep with stack := e.g.stack ++ [⟨e.g.active, e.mode, .loopB, 0⟩, ⟨e.g.active, e.mode, .loopC, 0⟩] }
/-- MBRK and MCONT (R139): lanes leave the entries newer than the newest of a kind. -/
def GI.leave (e : GI) (k : MKind) (p : Nat) (t : Nat) : Option MaskOut :=
  match newest e.g.stack k with
  | none => none
  | some i =>
    let m := e.g.active &&& e.g.regs.pr p
    let st := clearFrom e.g.stack (i + 1) m
    let a := e.g.active &&& ~~~m
    if a = 0 ∧ (st.drop (i + 1)).all fun x => x.mask == 0 then
      match k, st[i]? with
      | .loopB, some x => some { e.keep with stack := st.take i, active := x.mask, mode := x.mode, target := some t }
      | _, _ => some { e.keep with stack := st.take (i + 1), active := a, target := some t }
    else some { e.keep with stack := st, active := a }
/-- MENDL (R139). -/
def GI.mendl (e : GI) (t : Nat) : Option MaskOut :=
  match e.g.stack.reverse with
  | x :: y :: _ =>
    if x.kind = .loopC ∧ y.kind = .loopB then
      if x.mask ≠ 0 then some { e.keep with active := x.mask, mode := x.mode, target := some t }
      else some { e.keep with stack := e.g.stack.dropLast.dropLast, active := y.mask, mode := y.mode }
    else none
  | _ => none
/-- EXIT (R132): the active lanes leave every entry. -/
def GI.exit (e : GI) : MaskOut :=
  let st := clearFrom e.g.stack 0 e.g.active
  { e.keep with stack := st, active := 0, ended := st.all fun x => x.mask == 0 }
/-- Whether an instruction pushes a mask-stack entry: at the limit of the stack it would spill one (R50). -/
def Instr.pushes : Instr → Bool
  | .mif _ _ => true
  | .mloop => true
  | _ => false
/-- Group mode of a mask instruction, ILLEGAL where its rule says so (R140), but for the DEPMISS of a push that would spill
(R105). -/
def maskGroup (f : GI → Option MaskOut) (e : GI) (s : State) : Fx :=
  match f e with
  | some o => e.maskFx s o
  | none => .trap s (if Instr.pushes e.i && e.s60Tagged then .depmiss else .illegal) e.word 0 0

/-! ### Cuts in span mode (R34 to R38, R142) -/

/-- Spans of a core change: the machine looks at every construct again. -/
def State.removeSpan (s : State) (sid core lid : Nat) : State :=
  ({ s with spans := s.spans.filter fun x => x.1 != sid }.settle core).launchCheck lid
/-- Pieces put into the span table in place of a span, in the order in which they run; `f` gives a piece its record
from its box and side. -/
def State.putPieces (s : State) (sid cut : Nat) (x : Span) (ps : List (Box × Bool)) (f : Span → Bool → Span) : State :=
  let s0 := { s with spans := s.spans.filter fun y => y.1 != sid }
  ps.zipIdx.foldl (fun a p =>
    let n := a.fresh
    let y := f { x with box := p.1.1, cuts := x.cuts ++ [(cut, p.2)] } p.1.2
    { n.2 with spans := tput n.2.spans n.1 y }) s0
/-- A cut (R34 to R37): none where the span materialises at the branch (R36). Its pieces run from where their
sides go; `one` is the span whole on one side. -/
def SI.cut (e : SI) (s : State) (p : Nat) (cutId : Nat) (falseTo trueTo : Nat) (f : Span → Bool → Span) : SFx :=
  match e.x.box.cut e.launch (e.x.pf p) with
  | none => .mat
  | some ps0 =>
    let ps := orderPieces e.launch ps0
    match ps with
    | [] => .mat
    | [(_, side)] =>
      if e.header s (if side then trueTo else falseTo) then
        .stay ((s.modSpan e.sid fun _ => f e.x side).settle e.x.core)
      else .mat
    | _ =>
      if 64 < (s.spansOn e.x.core).length - 1 + ps.length then .mat
      else if !((ps.all fun q => e.header s (if q.2 then trueTo else falseTo))) then .mat
      else if !(e.x.flags.all fun n => n == 0) then .stay s
      else .stay ((s.putPieces e.sid cutId e.x ps f).settle e.x.core)
/-- The newest entry of a kind on a span's control stack. -/
def Span.newest (x : Span) (k : MKind) : Option (Nat × SpanEntry) :=
  (x.stack.zipIdx.filter fun e => e.1.kind == k).getLast?.map fun e => (e.2, e.1)
/-- MIF in span mode. -/
def SI.mif (e : SI) (s : State) (p : Nat) (t : Nat) : SFx :=
  if 16 ≤ e.x.stack.length then .mat
  else
    let n := s.fresh
    e.cut n.2 p n.1 t e.next fun x side =>
      { x with stack := x.stack ++ [⟨x.mode, .ifK, n.1, side⟩], pos := if side then ⟨e.next, 0⟩ else ⟨t, 0⟩ }
/-- MELSE in span mode: a true piece passes it, a false piece starts there (R37). -/
def SI.melse (e : SI) (_ : State) (t : Nat) : SFx :=
  match e.x.stack.getLast? with
  | some y =>
    if y.kind ≠ .ifK then .mat
    else if y.side then .jump e.x t
    else .done { e.x with stack := e.x.stack.dropLast ++ [{ y with kind := .elseK }], mode := y.mode }
  | none => .mat
/-- A piece parks, once its flags are clear (R112). -/
def SI.park (e : SI) (s : State) (f : Span → Span) : SFx :=
  if e.x.flags.all fun n => n == 0 then .stay ((s.modSpan e.sid f).settle e.x.core) else .stay s
/-- MEND in span mode: a piece of a cut parks there; a span that its construct did not cut goes on (R38). -/
def SI.mend (e : SI) (s : State) : SFx :=
  match e.x.stack.getLast? with
  | some y =>
    if y.kind ≠ .ifK ∧ y.kind ≠ .elseK then .mat
    else if e.x.cuts.any fun c => c.1 == y.id then
      if !e.header s e.next then .mat
      else e.park s fun x => { x with park := .join y.id }
    else .done { e.x with stack := e.x.stack.dropLast, mode := y.mode }
  | none => .mat
/-- MLOOP in span mode. -/
def SI.mloop (e : SI) (s : State) : SFx :=
  if 15 ≤ e.x.stack.length then .mat
  else
    let n := s.fresh
    let m := n.2.fresh
    .doneS m.2 { e.x with stack := e.x.stack ++ [⟨e.x.mode, .loopB, n.1, false⟩, ⟨e.x.mode, .loopC, m.1, false⟩] }
/-- Every piece of a loop on a core learns that the loop has been cut: it waits at the exit for the others. -/
def State.markLoop (s : State) (core id : Nat) : State :=
  { s with spans := s.spans.map fun x =>
      if x.2.core = core then (x.1, { x.2 with stack := x.2.stack.map fun z => if z.id = id then { z with side := true } else z }) else x }
/-- Whether a span is a piece of a cut made inside a construct: a newer entry of its control stack is a cut's. -/
def SI.cutWithin (e : SI) (i : Nat) : Bool := (e.x.stack.drop (i + 1)).any fun z => e.x.cuts.any fun c => c.1 == z.id
/-- A span leaves a loop whole: it goes on behind it, or, when the loop has been cut or the span is a piece of a cut
inside it, parks at its exit for the loop's other pieces (R37, R38). -/
def SI.leaveLoop (e : SI) (s : State) (i : Nat) (b : SpanEntry) (t : Nat) : SFx :=
  if b.side || e.cutWithin i then
    if !e.header s t then .mat
    else e.park (s.markLoop e.x.core b.id) fun x => { x with park := .join b.id, pos := ⟨t, 0⟩, stack := x.stack.take (i + 1) }
  else .jump { e.x with stack := e.x.stack.take i, mode := b.mode } t
/-- MBRK in span mode: pieces cut away park at the loop exit (R37). -/
def SI.mbrk (e : SI) (s : State) (p : Nat) (t : Nat) : SFx :=
  match e.x.newest .loopB with
  | none => .mat
  | some (i, b) =>
    match e.x.pf p with
    | .const true => e.leaveLoop s i b t
    | .const false => .done e.x
    | .conj _ =>
      let n := s.fresh
      match e.x.box.cut e.launch (e.x.pf p) with
      | some [(_, true)] => e.leaveLoop s i b t
      | some [(_, false)] => .done e.x
      | _ => e.cut (n.2.markLoop e.x.core b.id) p n.1 e.next t fun x side =>
          let y := { x with stack := x.stack.zipIdx.map fun (z : SpanEntry × Nat) => if z.2 = i then { z.1 with side := true } else z.1 }
          if side then { y with park := .join b.id, pos := ⟨t, 0⟩, stack := y.stack.take (i + 1) } else { y with pos := ⟨e.next, 0⟩ }
/-- MCONT in span mode: pieces cut away park at MENDL (R37), and so does a piece of a cut inside the loop that goes there
whole. -/
def SI.mcont (e : SI) (s : State) (p : Nat) (t : Nat) : SFx :=
  match e.x.newest .loopC, e.x.newest .loopB with
  | some (i, c), lb =>
    let on (x : Span) : Span := { x with stack := x.stack.take (i + 1) }
    let marked (t : State) : State := match lb with
      | some b => t.markLoop e.x.core b.2.id
      | none => t
    let whole : SFx :=
      if !e.cutWithin i then .jump (on e.x) t
      else if !e.header s t then .mat
      else e.park (marked s) fun x => { on x with park := .mendl c.id, pos := ⟨t, 0⟩ }
    (match e.x.pf p with
     | .const true => whole
     | .const false => .done e.x
     | .conj _ =>
       let n := s.fresh
       match e.x.box.cut e.launch (e.x.pf p) with
       | some [(_, true)] => whole
       | some [(_, false)] => .done e.x
       | _ => e.cut (marked n.2) p n.1 e.next t fun x side =>
           let y := { x with stack := x.stack.zipIdx.map fun (z : SpanEntry × Nat) => if lb.map (·.1) = some z.2 then { z.1 with side := true } else z.1 }
           if side then { on y with park := .mendl c.id, pos := ⟨t, 0⟩ } else { y with pos := ⟨e.next, 0⟩ })
  | none, _ => .mat
/-- MENDL in span mode: the pieces that wait there go back with the span that reaches it. -/
def SI.mendl (e : SI) (s : State) (t : Nat) : SFx :=
  match e.x.stack.reverse with
  | c :: b :: _ =>
    if c.kind = .loopC ∧ b.kind = .loopB then
      if e.header s t then
        let s1 := (s.members e.x.core c.id).foldl (fun a y =>
          if y.2.park = .mendl c.id then a.modSpan y.1 fun z => z.backAt c.id t else a) s
        .stay (s1.modSpan e.sid fun x => x.backAt c.id t)
      else .mat
    else .mat
  | _ => .mat

/-! ### The mask instructions -/

def execMif (p : Nat) (o : Int) (s : State) : Host.Outcome State Fault Refusal :=
  s.issue (.mif p o) (fun e => maskGroup (fun e => e.mif p (e.target o)) e) (fun e s => e.mif s p (e.target o))
def execMelse (o : Int) (s : State) : Host.Outcome State Fault Refusal :=
  s.issue (.melse o) (fun e => maskGroup (fun e => e.melse (e.target o)) e) (fun e s => e.melse s (e.target o))
def execMend (s : State) : Host.Outcome State Fault Refusal :=
  s.issue .mend (fun e => maskGroup GI.mend e) (fun e s => e.mend s)
def execMloop (s : State) : Host.Outcome State Fault Refusal :=
  s.issue .mloop (fun e => maskGroup GI.mloop e) (fun e s => e.mloop s)
def execMbrk (p : Nat) (o : Int) (s : State) : Host.Outcome State Fault Refusal :=
  s.issue (.mbrk p o) (fun e => maskGroup (fun e => e.leave .loopB p (e.target o)) e) (fun e s => e.mbrk s p (e.target o))
def execMcont (p : Nat) (o : Int) (s : State) : Host.Outcome State Fault Refusal :=
  s.issue (.mcont p o) (fun e => maskGroup (fun e => e.leave .loopC p (e.target o)) e) (fun e s => e.mcont s p (e.target o))
def execMendl (o : Int) (s : State) : Host.Outcome State Fault Refusal :=
  s.issue (.mendl o) (fun e => maskGroup (fun e => e.mendl (e.target o)) e) (fun e s => e.mendl s (e.target o))
/-- EXIT in group mode (R132): lanes inside an ordered section leave it. -/
def exitBody (e : GI) (s : State) : Fx :=
  let out (s1 : State) : State := s1.leaveSection e.gid e.g.active
  match e.maskFx s e.exit with
  | .done s1 => .done (out s1)
  | .stay s1 =>
    .stay (match tget s1.groups e.gid with
      | some g => if g.ctl.ending then out s1 else s1
      | none => s1)
  | x => x
/-- EXIT in span mode (R135): every item ends once the span's stores are done. -/
def exitSpan (e : SI) (s : State) : SFx :=
  if e.x.flags.all fun n => n == 0 then .stay (s.removeSpan e.sid e.x.core e.x.launch) else .stay s
def execExit (s : State) : Host.Outcome State Fault Refusal := s.issue .exit exitBody exitSpan

end Sys2Proof.Machine
end

