-- ==== Sys2Proof/Machine/LoadStore.lean ====
section
/-! DEFINITION. Loads, stores, atomics and reduction stores as a group or a span issues them (R27, R197 to R218).
What follows the issue happens at the line's home. -/
namespace Sys2Proof.Machine

/-- The non-helper items of a span (R16, R27). -/
def Span.items (x : Span) (l : Launch) : List Item :=
  (x.teams l).flatMap fun t =>
    (List.range (x.box.jy1 + 1 - x.box.jy0)).flatMap fun j => (List.range (x.box.jx1 + 1 - x.box.jx0)).filterMap fun i =>
      if l.inside t.1 t.2 (x.box.jx0 + i) (x.box.jy0 + j) then some ⟨t.1, t.2, x.box.jx0 + i, x.box.jy0 + j, false⟩ else none
/-- A span store as a plan: one piece an item, which stands for the item's lane (R27). -/
def SI.storePlan (e : SI) (d sr o : Nat) (z : Size) (h : Hint) : Plan :=
  let base := e.x.s.getD sr 0
  let at_ (n : Nat) (it : Item) : Word := (e.x.vf n).eval it.tx it.ty it.jx it.jy
  let ps : List Piece := (e.x.items e.launch).map fun it =>
    ⟨e.launch.linear it.tx it.ty it.jx it.jy, globalAddr base (at_ o it).toNat, canonical base,
      storeBytes z ((List.range (zCount z)).map fun k => at_ (d + k) it)⟩
  { at_ := .global, align := z.bytes, size := z.bytes, write := true, acc := 2, nr := false, tags := true, hint := h,
    kind := .store, lanes := ps.map fun p => (p.lane, vaOf p.addr), limit := none, pieces := ps }
/-- ST in span mode (R25, R27): where any item's access would trap, or be answered with an error, the span materialises. Its
stores reach their homes, the host and the peers as it issues, so that none of them can refuse one afterwards (DEDUCED, log
entry 31). -/
def SI.store (e : SI) (s : State) (d sr o : Nat) (z : Size) (h : Hint) : SFx :=
  let p := e.storePlan d sr o z h
  match p.check s (coreTlb e.x.core) (coreDie e.x.core) e.launch.ctx true with
  | (.go ts _, s1) =>
    let die := coreDie e.x.core
    let k := s1.takenAll ts
    if ts.any fun x => s1.spaceOf x.2.pa == none || s1.writeRefused die x.2 then .mat
    else if ts.any fun x => s1.reachFor die x.2.pa == .wait then .stay s
    else if 63 ≤ e.x.flags.getD e.x.seta 0 then .stay s
    else if !k.1 then .mat
    else
      let n := k.2.fresh
      let op : Op :=
        { gid := e.sid, team := 0, core := e.x.core, instr := e.i, flag := e.x.seta, pos := e.x.pos, mode := e.x.mode,
          lanes := 0, wlanes := 0, svals := [], vvals := [], tile := [], writes := [], exc := 0, excLanes := 0, st := .reqs,
          at_ := s.gtOf e.x.core, w := 0, await := ⟨[], [], [], 0⟩, misc := [], user := true }
      let s2 := { n.2 with work := { n.2.work with ops := tput n.2.work.ops n.1 op } }
      let s3 := (s2.sendPieces p e.sid n.1 e.x.core die e.launch.ctx e.x.launch ts).arriveAll n.1
      let at_ (p : Path) (w : List Nat) : List Nat :=
        if (s3.reqsOf n.1).any fun r => r.2.path == p && (match r.2.st with
          | .done _ => true
          | _ => false) then lmod w p.code (max (s.gtAt die)) else w
      .doneS s3 { e.x with flags := lmod e.x.flags e.x.seta (· + 1), maxW := at_ .core (at_ .peer e.x.maxW) }
  | (.moving, _) => .stay s
  | _ => .mat

def execSt (d sr o : Nat) (z : Size) (h : Hint) (s : State) : Host.Outcome State Fault Refusal :=
  s.issue (.st d sr o z h) GI.access (fun e s => e.store s d sr o z h)
def execLd (d sr o : Nat) (z : Size) (h : Hint) (nr : Bool) (s : State) : Host.Outcome State Fault Refusal :=
  s.issue (.ld d sr o z h nr) GI.access matSpan
def execLds (d a : Nat) (imm : Int) (s : State) : Host.Outcome State Fault Refusal :=
  s.issue (.lds d a imm) GI.access matSpan
def execSts (d a : Nat) (imm : Int) (s : State) : Host.Outcome State Fault Refusal :=
  s.issue (.sts d a imm) GI.access matSpan
def execLdl (d sr o : Nat) (z : Size) (s : State) : Host.Outcome State Fault Refusal :=
  s.issue (.ldl d sr o z) GI.access matSpan
def execStl (d sr o : Nat) (z : Size) (s : State) : Host.Outcome State Fault Refusal :=
  s.issue (.stl d sr o z) GI.access matSpan
def execLdc (d sr o : Nat) (z : Size) (s : State) : Host.Outcome State Fault Refusal :=
  s.issue (.ldc d sr o z) GI.access matSpan
def execStc (d sr o : Nat) (z : Size) (s : State) : Host.Outcome State Fault Refusal :=
  s.issue (.stc d sr o z) GI.access matSpan
def execLdp (d sr o : Nat) (z : Size) (h : Hint) (s : State) : Host.Outcome State Fault Refusal :=
  s.issue (.ldp d sr o z h) GI.access matSpan
def execStp (d sr o : Nat) (z : Size) (h : Hint) (s : State) : Host.Outcome State Fault Refusal :=
  s.issue (.stp d sr o z h) GI.access matSpan
def execAtom (d sr o : Nat) (z : Size) (h : Hint) (b c : Nat) (op : AOp) (ty : AType) (s : State) : Host.Outcome State Fault Refusal :=
  s.issue (.atom d sr o z h b c op ty) GI.access matSpan
def execAtoml (d sr o : Nat) (z : Size) (b c : Nat) (op : AOp) (ty : AType) (s : State) : Host.Outcome State Fault Refusal :=
  s.issue (.atoml d sr o z b c op ty) GI.access matSpan
def execAtomc (d sr o : Nat) (b c : Nat) (op : AOp) (ty : AType) (s : State) : Host.Outcome State Fault Refusal :=
  s.issue (.atomc d sr o b c op ty) GI.access matSpan
def execRedst (d sr o : Nat) (z : Size) (h : Hint) (op : AOp) (ty : AType) (s : State) : Host.Outcome State Fault Refusal :=
  s.issue (.redst d sr o z h op ty) GI.access matSpan
def execRedc (d sr o : Nat) (op : AOp) (ty : AType) (s : State) : Host.Outcome State Fault Refusal :=
  s.issue (.redc d sr o op ty) GI.access matSpan

end Sys2Proof.Machine
end

