-- ==== Sys2Proof/Machine/Schedule.lean ====
section
/-! DEFINITION. What a group or span issues next: fetching and decoding the next word (R93 to R98), the choice of the
group that a quadrant issues (R18, R369), and the passing of time. -/
namespace Sys2Proof.Machine

/-! ### Fetching the next instruction -/

/-- What the next word of an instruction stream gives. -/
inductive NextI where
  | run (i : Instr)
  /-- a word that is no instruction -/
  | bad (w : Nat)
  | fault (status : Nat)
  | phys
  | wait
  /-- the word is poisoned, or its home answers with an error -/
  | trap (c : Cause)
  deriving DecidableEq, Repr

/-- Decoding with the word that follows in the same clause, if one does (R98). -/
def decodeNext (w : Nat) (next : Option Nat) : NextI :=
  match (decode w next).toOption with
  | some i => .run i
  | none => .bad w
/-- The next instruction of a stream that stands at a position of a clause of `len` words. -/
def nextOf (p : Pos) (len : Nat) (first rest : Nat → Fetched) : NextI :=
  match (if p.k = 0 then first p.h else rest (p.h + 4 * p.k)) with
  | .fault st => .fault st
  | .moving => .wait
  | .phys => .phys
  | .trap c => .trap c
  | .word w =>
    if p.k = 0 then (if isHeader w then decodeNext w none else .bad w)
    else if takesExt w ∧ p.k < len then
      match rest (p.h + 4 * (p.k + 1)) with
      | .word x => decodeNext w (some x)
      | .fault st => .fault st
      | .moving => .wait
      | .phys => .phys
      | .trap c => .trap c
    else decodeNext w none

def GI.nextInstr (e : GI) (s : State) : NextI :=
  nextOf e.g.ctl.pos e.g.ctl.len (fun a => e.fetch s e.g.ctl.level a) (fun a => e.fetchIn s a)
def SI.nextInstr (e : SI) (s : State) : NextI :=
  nextOf e.x.pos e.x.len (fun a => e.fetch s a) (fun a => e.fetchIn s a)

/-- Whether a group could issue were its next word an instruction that nothing holds. -/
def Group.free (g : Group) : Bool := g.ready .nop && g.ctl.hold == none

/-- What a group that its quadrant's scheduler has chosen issues: its next instruction, or the state after a word that
cannot issue. -/
def State.groupIssue (s : State) (gid : Nat) : Option Instr × State :=
  match s.gi gid .nop with
  | none => (none, s)
  | some e =>
    if !e.g.free then (none, s)
    else match e.nextInstr s with
      | .run i => (some i, { s with issuer := .group gid })
      | .bad w => (none, e.trapHere s .illegal w 0 0)
      | .fault st => (none, e.pageFault s st 1 (e.g.ctl.pos.h + 4 * e.g.ctl.pos.k) 0)
      | .phys => (none, e.trapHere s .physrange 0 0 0)
      | .trap c => (none, e.fetchTrap s c (e.g.ctl.pos.h + 4 * e.g.ctl.pos.k))
      | .wait => (none, s)
/-- A span's turn: a word that cannot issue materialises it first (R105). -/
def State.spanTurn (s : State) (sid : Nat) : Option Instr × State :=
  match s.si sid .nop with
  | none => (none, s)
  | some e =>
    if !e.ready s then (none, s)
    else match e.nextInstr s with
      | .run i => (some i, { s with issuer := .span sid })
      | .wait => (none, s)
      | _ => (none, e.mat s e.x.pos)

/-! ### The order of turns -/

/-- The class of a group's launch, as the scheduler ranks it (R364, R369). -/
def Cls.rank : Cls → Nat
  | .frame => 2
  | .normal => 1
  | .background => 0
def State.groupRank (s : State) (g : Group) : Nat :=
  match tget s.teams g.team with
  | some t => (match tget s.launches t.launch with
    | some l => l.cls.rank
    | none => 0)
  | none => 0
/-- Whether a group is ready: free, and not held by its next clause's WAIT or by an interlock (R369). -/
def State.groupReady (s : State) (e : GI) : Bool :=
  e.g.free && match e.nextInstr s with
    | .run (.clauseStart w _ _ _) => e.team.pre.isSome || !(List.range 12).any fun k => nbit w k && decide (e.g.flags.getD k 0 ≠ 0)
    | .run i => (({ e with i := i } : GI).check s).isSome || !({ e with i := i } : GI).stalls s
    | .wait => false
    | _ => true
/-- Oldest: least age, then group number. -/
def oldest (l : Tbl Group) : Option (Nat × Group) := argMin (fun g => g.2.age * 16 + g.2.num) l
/-- The choice of a quadrant's scheduler (R369). -/
def State.choose (s : State) (core quad : Nat) : Option Nat :=
  let r := s.groups.filter fun g => g.2.core == core && g.2.quad == quad &&
    match s.gi g.1 .nop with
    | some e => s.groupReady e
    | none => false
  let a := r.filter fun g => decide (s.cycles (coreDie core) 256 ≤ s.gtOf core - g.2.lastIssue)
  match oldest a with
  | some g => some g.1
  | none =>
    match argMax (fun g => s.groupRank g.2) r with
    | none => none
    | some m => (oldest (r.filter fun g => s.groupRank g.2 == s.groupRank m.2)).map (·.1)

/-- A group's turn: it issues when its quadrant's scheduler chooses it (R18, R369). -/
def State.groupTurn (s : State) (gid : Nat) : Option Instr × State :=
  match tget s.groups gid with
  | none => (none, s)
  | some g => if s.choose g.core g.quad = some gid then s.groupIssue gid else (none, s)
/-- The group whose turn cannot wait any longer, as its quadrant chooses: some ready group of the quadrant has not issued for
1,024 cycles (R18). -/
def State.overdue (s : State) : Option Nat :=
  match s.groups.find? fun g => decide (s.cycles (coreDie g.2.core) 1024 ≤ s.gtOf g.2.core - g.2.lastIssue) &&
      match s.gi g.1 .nop with
      | some e => s.groupReady e
      | none => false with
  | some g => s.choose g.2.core g.2.quad
  | none => none

/-- Whether a Background team or span of a context is placed anywhere (R365). -/
def State.bgPlaced (s : State) (c : Nat) : Bool :=
  let bg (lid : Nat) : Bool := match tget s.launches lid with
    | some l => l.ctx == c && l.cls == .background
    | none => false
  (s.teams.any fun t => bg t.2.launch) || s.spans.any fun x => bg x.2.launch
/-- Background time charged to the contexts that spend it: `n` ns of GT in which a Background team of the context is placed.
R365 speaks of each µs of GT; the example of R474 counts tenths of one, so the time is charged as it passes (DEDUCED, log
entry 81). -/
def State.charge (s : State) (n : Nat) : State :=
  { s with runs := s.runs.map fun r => if s.bgPlaced r.1 then (r.1, { r.2 with remaining := r.2.remaining - n }) else r }
/-- How far die `i` leads after a step of `d` ns: its lead before less those, or what the input has for it, within the 2 ns
that dies may differ by (R297). -/
def leadAfter (d was : Nat) (input : Option Nat) : Nat :=
  match input with
  | some x => min 2 (max (was - d) x)
  | none => min 2 was
/-- Time passes: GT advances by the next delay, or by 1 ns, and each die's lead over it by the next drift (R297). -/
def State.tick (s : State) : State :=
  let d := s.delays.headD 1
  let c := s.charge d
  { c with
    gt := s.gt + d
    delays := s.delays.tail
    skew := (List.range 4).map fun i => leadAfter d (s.skew.getD i 0) (s.drift.head?.map fun l => l.getD i 0)
    drift := s.drift.tail }

/-- An event of the device: it needs power (R455). -/
def State.event (s : State) (f : State → State) : Host.Outcome State Fault Refusal :=
  if s.power then .next (f s) else .fault .noPower

end Sys2Proof.Machine
end

