-- ==== Sys2Proof/Machine/Sync.lean ====
section
/-! DEFINITION. Ordering, barriers, copies handed over, placement, publication, mailboxes and child launches, as a
group issues them (R219 to R243), with the events that finish them: barrier arrivals, MBXSEND's delivery, MBXRECV's
take, PUBW's store. -/
namespace Sys2Proof.Machine

/-! ### Holding a group (R219, R224) -/

/-- A W instruction holds its group; `arg` is what the model keeps of its wait. Under a request to pre-empt its team a group
that comes to be held so counts as yielded at once, unless an ordered section or an MMAP of its team defers it (R379). -/
def GI.wait (e : GI) (s : State) (arg : List Nat) : Fx :=
  if e.g.ctl.hold = some e.i then .stay (s.modCtl e.gid fun c => { c with holdArg := arg })
  else .stay (s.modCtl e.gid fun c => { c with
    hold := some e.i, holdAt := s.gtOf e.g.core, holdArg := arg,
    pre := if e.team.pre.isSome ∧ c.pre = .run ∧ c.level = .u ∧ e.g.sect.isNone ∧ s.mmapOut e.g.team = false then .yielded else c.pre })
/-- GT at which the instruction issued: when it first met issue. -/
def GI.issuedAt (e : GI) (s : State) : Nat := if e.g.ctl.hold = some e.i then e.g.ctl.holdAt else s.gtOf e.g.core

/-! ### FENCE and XFENCE (R220 to R223) -/

/-- Instructions that return a value which FENCE.group awaits. -/
def Instr.returnsValue : Instr → Bool
  | .ld _ _ _ _ _ _ => true
  | .lds _ _ _ => true
  | .ldl _ _ _ _ => true
  | .ldc _ _ _ _ => true
  | .ldp _ _ _ _ _ => true
  | .atom _ _ _ _ _ _ _ _ _ => true
  | .atoml _ _ _ _ _ _ _ _ => true
  | .atomc _ _ _ _ _ _ _ => true
  | .tagget _ _ _ => true
  | .acqw _ _ => true
  | _ => false
/-- Memory instructions on the CORE path (R308). -/
def Instr.onCore : Instr → Bool
  | .st _ _ _ _ _ => true
  | .sts _ _ _ => true
  | .stl _ _ _ _ => true
  | .stc _ _ _ _ => true
  | .stp _ _ _ _ _ => true
  | .redst _ _ _ _ _ _ _ => true
  | .redc _ _ _ _ _ => true
  | .pref _ _ _ _ => true
  | .tagset _ _ _ => true
  | .cacheop _ _ _ => true
  | .pubw _ _ => true
  | i => Instr.returnsValue i
/-- Instructions whose writes a release on every path covers, beside copies and draws under way: those of `onCore`,
and engine commands. -/
def Instr.touchesMem (i : Instr) : Bool := Instr.onCore i || Instr.writesMem i || match i with
  | .draw _ _ _ _ => true
  | .hgather _ _ _ _ _ => true
  | .aload _ _ => true
  | .mma _ _ _ _ => true
  | .mmap _ _ _ _ => true
  | .mmabs _ _ _ _ _ => true
  | .tsamp _ _ _ _ _ _ => true
  | .rbox _ _ _ _ => true
  | .rtri _ _ _ _ _ => true
  | .mbxsend _ _ _ => true
  | .claim _ _ _ => true
  | _ => false
/-- Instructions that write on a path themselves or through an engine command (R308). -/
def Instr.writesOn (p : Path) (i : Instr) : Bool :=
  match p, i with
  | .core, _ => Instr.onCore i
  | .peer, _ => Instr.onCore i
  | .copy, .cpyk _ _ => true
  | .mtx, .agdrain _ _ _ => true
  | .mtx, .adrain _ _ _ _ => true
  | .mtx, .astash _ _ _ => true
  | .hash, .hscatter _ _ _ _ _ => true
  | .rast, .draw _ _ _ _ => true
  | _, _ => false
/-- Whether an operation of the group outstanding now satisfies a test. -/
def State.outstanding (s : State) (gid : Nat) (p : Instr → Bool) : Bool :=
  s.work.ops.any fun o => o.2.gid == gid && p o.2.instr
/-- The greatest W of the group's completed writes on a path. -/
def Group.wOn (g : Group) (p : Path) : Nat := g.maxW.getD p.code 0
/-- Whether an instruction is AGDRAIN, whose element reductions travel on the MTX path. -/
def Instr.isAgdrain : Instr → Bool
  | .agdrain _ _ _ => true
  | _ => false
/-- Whether copies of the group that write global addresses, host memory and peer windows among them, are not finished. -/
def State.copiesOut (s : State) (gid : Nat) : Bool :=
  (s.outstanding gid fun i => match i with
    | .cpyk _ _ => true
    | _ => false) ||
  s.work.copies.any fun c => c.2.gid == gid && c.2.node.isNone && nfld c.2.req.space 2 2 == 0
/-- Whether an atomic or reduction store of the group is performed and its W still to come: until then no load sees its value
(R302), which a group of the team that has passed a barrier behind FENCE.team must see (R221). -/
def State.atomicsPending (s : State) (gid : Nat) : Bool :=
  s.work.reqs.any fun r => r.2.gid == gid && (match r.2.st, r.2.kind with
    | .pending w, .atomic _ _ _ => decide (s.gtAt (s.homeDie (r.2.pa / 128)) < w)
    | .pending w, .reduce _ _ => decide (s.gtAt (s.homeDie (r.2.pa / 128)) < w)
    | _, _ => false)
/-- Whether a FENCE's condition holds (R220). FENCE.team, and so BAR, waits as well until the W of the group's atomics has
come, which R221 needs where R302 delays their values (DEDUCED, log entry 130). The scopes that compare GT cover the group's AGDRAIN as well, as the all-reduce
of R393 needs (DEDUCED, log entry 105). Writes of the group's own instructions to host memory and peer windows are acknowledged
when their instructions complete; .system waits for those of its copies too (R229). -/
def GI.fenced (e : GI) (s : State) (sc : Scope) : Bool :=
  let team := !s.outstanding e.gid Instr.onCore && !s.atomicsPending e.gid
  let w := max (max (e.g.wOn .core) (e.g.wOn .peer)) (e.g.wOn .mtx)
  let gt := s.gtOf e.g.core
  let sent := team && !s.outstanding e.gid Instr.isAgdrain
  match sc with
  | .group => !s.outstanding e.gid Instr.returnsValue
  | .team => team
  | .die => sent && decide (w < gt)
  | .package => sent && decide (w + 2 < gt)
  | .system => sent && decide (w + 2 < gt) && !s.copiesOut e.gid
/-- Copies or draws that the group issued and that have not finished. -/
def State.flyingOn (s : State) (gid : Nat) (p : Path) : Bool :=
  match p with
  | .copy => s.work.copies.any fun c => c.2.gid == gid && c.2.node.isNone
  | .rast => !((s.awaitOf gid fun _ => false).draws.isEmpty)
  | _ => false
/-- Whether the group's writes on a path have completed with GT past their W by more than 2 ns. -/
def GI.pathDone (e : GI) (s : State) (p : Path) : Bool :=
  !s.outstanding e.gid (Instr.writesOn p) && !s.flyingOn e.gid p && decide (e.g.wOn p + 2 < s.gtOf e.g.core)
/-- The holder of a path's copies on a core and its cluster (R222). The tile operand cache holds local memory only
and RAST reads nothing. -/
def pathHolder (core : Nat) (p : Path) : Option Holder :=
  match p with
  | .core => some (.l1 core)
  | .copy => some (.copyBuf core)
  | .mtx => none
  | .hash => some (.hash (coreCluster core))
  | .rast => none
  | .tex => some (.tex (coreCluster core))
  | .peer => some (.peer (coreCluster core))
/-- Every copy held for a path that was granted at or before a time is dropped. -/
def State.dropPath (s : State) (core : Nat) (p : Path) (t : Nat) : State :=
  match pathHolder core p with
  | none => s
  | some h => { s with mem := { s.mem with copies := s.mem.copies.filter fun c => !(c.holder == h && decide (c.granted ≤ t)) } }
/-- Every path's copies dropped, as ACQW does (R240). -/
def State.dropPaths (s : State) (core t : Nat) : State :=
  [Path.core, .copy, .mtx, .hash, .rast, .tex, .peer].foldl (fun a p => a.dropPath core p t) s
/-- What a FENCE does when it issues and while it holds. -/
def fenceBody (sc : Scope) (e : GI) (s : State) : Fx := if e.fenced s sc then .done s else e.wait s []
def execFence (sc : Scope) (s : State) : Host.Outcome State Fault Refusal := s.issue (.fence sc) (fenceBody sc) matSpan
/-- What an XFENCE does: the package fence, the writes of path a, then the copies of path b (R222). -/
def xfenceBody (b a : Path) (e : GI) (s : State) : Fx :=
  if e.fenced s .package && e.pathDone s a then .done (s.dropPath e.g.core b (e.issuedAt s)) else e.wait s []
def execXfence (b a : Path) (s : State) : Host.Outcome State Fault Refusal := s.issue (.xfence b a) (xfenceBody b a) matSpan

/-! ### Team barriers (R225, R226) -/

/-- The groups of a team that have not ended. -/
def State.liveGroups (s : State) (tid : Nat) : Nat := (s.groupsOf tid).length
def Team.bar (t : Team) (n : Nat) : Bar := t.bars.getD n Bar.reset
/-- The expected count that an arrival with count c gives. -/
def State.barCount (s : State) (tid c : Nat) : Nat := if c = 0 then s.liveGroups tid else c
/-- The expected count of a phase as it stands: every live group's where c = 0 set it. -/
def State.barExp (s : State) (tid : Nat) (b : Bar) : Nat := if b.all then s.liveGroups tid else b.exp
/-- Whether an arrival's count agrees with the phase's. -/
def State.barAgrees (s : State) (tid : Nat) (b : Bar) (c : Nat) : Bool := b.arr == 0 || s.barExp tid b == s.barCount tid c
/-- A phase whose arrivals have reached its count completes: mask and counts clear, parity toggles, and the groups
that wait on the barrier may go on. -/
def State.barCheck (s : State) (tid n : Nat) : State :=
  match tget s.teams tid with
  | none => s
  | some t =>
    let b := t.bar n
    if b.arr = 0 ∨ b.arr < s.barExp tid b then
      s.modTeam tid fun x => { x with bars := lmod x.bars n fun y => if y.arr = 0 then y else { y with exp := s.barExp tid y } }
    else
      let s1 := s.modTeam tid fun x => { x with bars := x.bars.set n ⟨0, 0, !b.par, 0, false⟩ }
      (s.groupsOf tid).foldl (fun a g =>
        let waits := g.2.ctl.holdArg == [1] && match g.2.ctl.hold with
          | some (.bar _ k) => k == n
          | some (.barwait k) => k == n
          | _ => false
        if waits then a.modCtl g.1 fun c => { c with holdArg := [2] } else a) s1
/-- Every barrier of a team looked at again, after a group has ended. -/
def State.barsCheck (s : State) (tid : Nat) : State := (List.range 16).foldl (fun a n => a.barCheck tid n) s
/-- One arrival at a barrier. -/
def State.barArrive (s : State) (tid num n c : Nat) : State :=
  (s.modTeam tid fun t => { t with bars := lmod t.bars n fun b =>
    { b with arr := b.arr + 1, exp := s.barCount tid c, mask := setBit b.mask num true,
             all := if b.arr = 0 then c == 0 else b.all } }).barCheck tid n
/-- Whether the group's bit is set in the current phase. -/
def GI.arrived (e : GI) (s : State) (n : Nat) : Bool :=
  match tget s.teams e.g.team with
  | some t => nbit (t.bar n).mask e.g.num
  | none => false
def GI.barOf (e : GI) (s : State) (n : Nat) : Bar :=
  match tget s.teams e.g.team with
  | some t => t.bar n
  | none => Bar.reset
/-- After an arrival: the group waits, or its phase has just completed. -/
def GI.barWait (e : GI) (s : State) (n : Nat) : Fx := if e.arrived s n then e.wait s [1] else .done s
/-- BAR: the team fence, the arrival, the wait (R225). holdArg is [0] while the fence holds it, or a BARARR of the group
that has not taken effect; [1] while the phase does, [2] once the phase has completed. -/
def barBody (c n : Nat) (e : GI) (s : State) : Fx :=
  if e.g.ctl.hold = some e.i ∧ e.g.ctl.holdArg = [2] then .done s
  else if e.g.ctl.hold = some e.i ∧ e.g.ctl.holdArg = [1] then .stay s
  else if e.team.groups < c then .trap s .illegal e.word 0 0
  else if !e.fenced s .team || s.work.arrives.any fun a => a.2.gid == e.gid then e.wait s [0]
  else if !s.barAgrees e.g.team (e.barOf s n) c then .trap (s.modCtl e.gid fun x => { x with hold := none, holdArg := [] }) .illegal e.word 0 0
  else if e.arrived s n then e.wait s [1]
  else
    let s1 := s.barArrive e.g.team e.g.num n c
    e.barWait s1 n
/-- BAR in span mode: nothing to do where every team of the box is whole (R25); a count that is ILLEGAL materialises. -/
def barSpan (c : Nat) (e : SI) (_ : State) : SFx :=
  if e.x.whole e.launch && decide (c ≤ e.launch.groupsPer) then .done e.x else .mat
def execBar (c n : Nat) (s : State) : Host.Outcome State Fault Refusal := s.issue (.bar c n) (barBody c n) (barSpan c)
/-- BARARR: its arrival takes effect by BARARR_ARRIVE, once the group's earlier memory instructions have completed. -/
def execBararr (c n : Nat) (s : State) : Host.Outcome State Fault Refusal :=
  s.issue (.bararr c n)
    (fun e s =>
      if e.team.groups < c ∨ e.arrived s n ∨ !s.barAgrees e.g.team (e.barOf s n) c then .trap s .illegal e.word 0 0
      else
        let f := s.fresh
        .done { f.2 with work := { f.2.work with arrives := tput f.2.work.arrives f.1 ⟨e.gid, n, c, s.awaitOf e.gid Instr.touchesMem⟩ } })
    matSpan
/-- What BARWAIT does when it issues and while it holds: the current phase must complete. -/
def barwaitBody (e : GI) (s : State) : Fx :=
  if e.g.ctl.hold = some e.i then (if e.g.ctl.holdArg = [2] then .done s else .stay s) else e.wait s [1]
def execBarwait (n : Nat) (s : State) : Host.Outcome State Fault Refusal := s.issue (.barwait n) barwaitBody matSpan
/-- BARARR_ARRIVE: a BARARR's arrival takes effect, behind the W of the group's atomics (log entry 130); one that no longer agrees with the phase is owed as ILLEGAL. -/
def execBararrArrive (arr : Nat) (s : State) : Host.Outcome State Fault Refusal :=
  s.event fun s =>
    match tget s.work.arrives arr with
    | none => s
    | some a =>
      match s.gi a.gid .nop with
      | none => { s with work := { s.work with arrives := tdel s.work.arrives arr } }
      | some e =>
        if !(a.await.ops.isEmpty) then s
        else
          let s1 := { s with work := { s.work with arrives := tdel s.work.arrives arr } }
          if s.atomicsPending a.gid then s
          else if e.arrived s1 a.bar || !s1.barAgrees e.g.team (e.barOf s1 a.bar) a.c then
            s1.owe a.gid ⟨.illegal, (encode (.bararr a.c a.bar)).headD 0, 0, 0, e.g.ctl.pos, false⟩
          else s1.barArrive e.g.team e.g.num a.bar a.c

/-! ### Byte-count barriers (R227) and copies handed over (R229) -/

def Team.bc (t : Team) (n : Nat) : BcSlot := t.bcs.getD n BcSlot.reset
def State.modBc (s : State) (tid n : Nat) (f : BcSlot → BcSlot) : State := s.modTeam tid fun t => { t with bcs := lmod t.bcs n f }
/-- BCINIT: its slot is set when it completes. -/
def execBcinit (a n : Nat) (s : State) : Host.Outcome State Fault Refusal :=
  s.issue (.bcinit a n)
    (fun e s =>
      let v := (e.g.regs.sr a).toInt
      if -(2 ^ 39 : Int) ≤ v ∧ v < (2 ^ 39 : Int) then .done (e.startOp s fun o => { o with svals := [e.g.regs.sr a] }).2
      else .trap s .illegal e.word 0 0)
    matSpan
/-- BCINIT completes. -/
def State.bcinitDone (s : State) (op : Op) (n : Nat) : State :=
  s.modBc op.team n fun _ => ⟨(op.svals.getD 0 0).toInt, true, 0⟩
/-- What BCWAIT does when it issues and while it holds. -/
def bcwaitBody (d n : Nat) (e : GI) (s : State) : Fx :=
  let b := match tget s.teams e.g.team with
    | some t => t.bc n
    | none => BcSlot.reset
  if b.init && decide (b.count ≤ 0) then
    .done ((s.modBc e.g.team n fun x => { x with init := false }).modRegs e.gid fun r => r.setS d (BitVec.ofNat 64 b.err))
  else e.wait s []
def execBcwait (d n : Nat) (s : State) : Host.Outcome State Fault Refusal := s.issue (.bcwait d n) (bcwaitBody d n) matSpan
/-- Whether `n` bytes at a local offset that must be 64-aligned lie in the team's allocation. -/
def GI.localOk (e : GI) (a n : Nat) : Bool := a % 64 == 0 && decide (a + n ≤ e.team.size)
/-- CPYK: its requests are read when it completes. -/
def execCpyk (count a : Nat) (s : State) : Host.Outcome State Fault Refusal :=
  s.issue (.cpyk count a)
    (fun e s =>
      let x := (e.g.regs.sr a).toNat
      if e.localOk x (64 * count) then .done (e.startOp s fun o => { o with svals := [e.g.regs.sr a] }).2
      else .page s 0x07 1 x 0)
    matSpan

/-- The fields of a copy request's 64 bytes (R230). -/
def CopyReq.ofBytes (b : List Byte) : CopyReq :=
  let fl := rdN b 1 1
  let sp := rdN b 3 1
  { kind := rdN b 0 1, flags := fl, elem := rdN b 2 1, space := sp, d0 := rdN b 4 4, d1 := rdN b 8 4, d2 := rdN b 12 4,
    src := rdN b 0x10 8, dst := rdN b 0x18 8, ss1 := sgn (rdN b 0x20 4) 32, ss2 := sgn (rdN b 0x24 4) 32,
    ds1 := sgn (rdN b 0x28 4) 32, ds2 := sgn (rdN b 0x2C 4) 32, index := rdN b 0x30 8,
    rsvd := nbit fl 7 || nfld sp 6 2 != 0 || rdN b 0x38 8 != 0 }
/-- A request as an engine holds it at first. -/
def Copy.queued (engine gid team : Nat) (node : Option (Nat × Nat)) (req : CopyReq) (addr at_ : Nat) : Copy :=
  { engine := engine, gid := gid, team := team, node := node, req := req, addr := addr, started := false,
    stopped := false, fault := none, next := 0, early := [], flying := [], counted := 0, err := 0, at_ := at_, w := 0 }
def State.addCopyReq (s : State) (c : Copy) : State :=
  let f := s.fresh
  { f.2 with work := { f.2.work with copies := tput f.2.work.copies f.1 c } }
/-- CPYK completes: the engine has read every request. An operation that waited for the CPYK waits for its copies. -/
def State.cpykDone (s : State) (o : Nat) (op : Op) (count : Nat) : State :=
  match tget s.teams op.team with
  | none => s
  | some t =>
    (List.range count).foldl (fun a i =>
      let x := (op.svals.getD 0 0).toNat + 64 * i
      let id := a.nextId
      let b := a.addCopyReq (Copy.queued op.core op.gid op.team none (CopyReq.ofBytes (t.loc.read x 64)) x (a.gtOf op.core))
      b.modAwaits fun w => if w.ops.contains o then { w with copies := w.copies ++ [id] } else w) s

/-! ### Placement (R233 to R236) -/

/-- CLAIM: the Caravan engine does its work once the group's earlier accesses have completed. -/
def execClaim (d b a : Nat) (s : State) : Host.Outcome State Fault Refusal :=
  s.issue (.claim d b a)
    (fun e s => .done (e.startOp s fun o =>
      { o with svals := [e.g.regs.sr a, e.g.regs.sr b], await := s.awaitOf e.gid Instr.touchesMem }).2)
    matSpan

/-- A completion fault of the issuing instruction, taken when the group next issues (R201, R372). -/
def GI.oweLater (e : GI) (s : State) (c : Cause) (arg addr : Nat) (lanes : Mask) : State :=
  s.modCtl e.gid fun x => { x with owed := x.owed ++ [⟨c, arg, addr, lanes, e.g.ctl.pos, false⟩] }
/-- A block of bytes as a plan of single bytes: a descriptor that an instruction reads once per group. -/
def blockPlan (base : DWord) (n lane : Nat) (tags : Bool) : Plan :=
  let ps : List Piece := (List.range n).map fun i => ⟨lane, globalAddr base i, canonical base, []⟩
  { at_ := .global, align := 1, size := 1, write := false, acc := 1, nr := false, tags := tags, hint := .normal,
    kind := .load, lanes := [(lane, vaOf (globalAddr base 0))], limit := none, pieces := ps }
/-- A held instruction that reads a block as it issues: an outstanding operation that keeps the registers it issued with,
until MV_RECHECK lets it read (R326). The registers that HGATHER certainly writes carry tags before its descriptor is
known. -/
def GI.heldBlock (e : GI) (s : State) : Fx :=
  let more : List Reg := match e.i with
    | .hgather d _ _ _ n => vRegs d n
    | _ => []
  let r := e.startOp s fun o =>
    { o with st := .moving none, lanes := e.g.active, svals := e.g.regs.s, vvals := e.g.regs.v, tile := e.g.regs.t,
             await := s.awaitOf e.gid Instr.writesMem, misc := e.g.regs.p.map (·.toNat) }
  .done (r.2.modGroup e.gid fun g =>
    { g with tags := (g.tags.filter fun t => !more.contains t.reg) ++ more.map fun x => ⟨x, e.flag, r.1⟩ })
/-- The group as it stood when such an instruction issued, for the instruction's own work. -/
def GI.asHeld (e : GI) (o : Nat) (op : Op) : GI :=
  { e with
    i := op.instr
    g := { e.g with
      active := op.lanes
      tags := e.g.tags.filter fun t => t.op != o
      regs := { e.g.regs with s := op.svals, v := op.vvals, t := op.tile, p := op.misc.map fun n => BitVec.ofNat 64 n, mode := op.mode }
      ctl := { e.g.ctl with pos := op.pos, seta := op.flag, setb := op.flag, level := if op.user then .u else if e.g.ctl.level = .u then .s else e.g.ctl.level } } }
/-- An operation renamed: the registers and requests that name it follow. -/
def State.renameOp (s : State) (gid m o : Nat) (f : Op → Op) : State :=
  match tget s.work.ops m with
  | none => s
  | some op =>
    ({ s with work := { s.work with
        ops := tput (tdel s.work.ops m) o (f op)
        reqs := s.work.reqs.map fun (r : Nat × Req) => (r.1, if r.2.op = m then { r.2 with op := o } else r.2) } } : State).modGroup gid fun g =>
      { g with tags := g.tags.map fun (t : Tag) => if t.op = m then { t with op := o } else t }
/-- What the work of a held instruction answers, once it may read: it goes on as the operation that it was, in its place in
program order; it completes with a fault; it waits on; or it faults. -/
inductive HeldRes where
  | on (s : State)
  | wait
  | fault (s : State) (c : Cause) (arg addr : Nat) (lanes : Mask)
  | page (s : State) (status acc addr : Nat) (lanes : Mask)
  deriving DecidableEq, Repr
/-- A held instruction's own work done again (R326): its operation, with its flag, gives way to the one that the work makes. -/
def GI.heldAgain (e : GI) (s : State) (o : Nat) (op : Op) (body : GI → State → Fx) : HeldRes :=
  let s0 := (s.delOp o).modGroup op.gid fun g => { g with flags := lmod g.flags op.flag (· - 1), tags := g.tags.filter fun t => t.op != o }
  match body (e.asHeld o op) s0 with
  | .done s1 =>
    (match s1.work.ops.find? fun x => x.2.gid == op.gid && decide (s.nextId ≤ x.1) with
     | some (m, x) =>
       (match x.st with
        | .moving _ => .wait
        | _ => .on (s1.renameOp op.gid m o fun y => { y with await := op.await }))
     | none => .on (s1.modAwaits fun a => a.dropOp o op.w))
  | .trap _ c arg addr l => .fault s c arg addr l
  | .page _ st acc addr l => .page s st acc addr l
  | .jump _ _ => .wait
  | .stay _ => .wait
/-- Lines of a block brought to their homes and touched there (R205, R290); none while one must wait. -/
def State.bringAll (s : State) (ctx : Nat) (va : Option Nat) : List (Nat × Nat × Hint) → Option State
  | [] => some s
  | l :: r => match s.bring l.1 l.2.1 ctx va l.2.2 with
    | none => none
    | some t => (t.touchAt l.1 ctx va l.2.2).bringAll ctx va r
/-- The bytes of such a block at issue, or what stops the instruction: its faults are an access's (R201). -/
def GI.readBlock (e : GI) (s : State) (base : DWord) (n : Nat) (tags : Bool) : (Except Fx (List Byte)) × State :=
  let lane := (lanesOf (lowLane e.g.active)).headD 0
  let m := lowLane e.g.active
  let r := (blockPlan base n lane tags).check s (coreTlb e.g.core) e.die e.ctx (e.g.ctl.level == .u)
  let va := vaOf (globalAddr base 0)
  if tags && s.tagsPending e.gid s.nextId then (.error (.stay s), s)
  else match r.1 with
  | .mis a l => (.error (.trap r.2 .misalign 1 a l), r.2)
  | .page st a l => (.error (.page r.2 st 1 a l), r.2)
  | .tag q g a l => (.error (.trap r.2 .tagfault (q + 16 * g + 256) a l), r.2)
  | .moving => (.error (e.heldBlock r.2), s)
  | .go ts _ =>
    let get (x : Piece × Trans) : Option Byte :=
      match r.2.physRead x.2.pa 1 x.2.key with
      | some b => b.head?
      | none => none
    if ts.any fun x => r.2.spaceOf x.2.pa == none then (.error (.trap r.2 .physrange 0 va m), r.2)
    else if ts.any fun x => r.2.reachFor e.die x.2.pa == .broken then (.error (.trap r.2 .dieoff 256 va m), r.2)
    else if ts.any fun x => r.2.reachFor e.die x.2.pa == .wait then (.error (e.heldBlock r.2), s)
    else if ts.any fun x => r.2.spaceOf x.2.pa == some .global && (!r.2.keyed x.2.key || r.2.poisonedAt x.2.pa 1 x.2.key) then
      (.error (.done (e.oweLater r.2 .poison 256 e.g.ctl.pos.word m)), r.2)
    else
      let lines := uniq (ts.filterMap fun x =>
        if r.2.spaceOf x.2.pa = some .global then some (x.2.pa / 128, x.2.key, x.2.hint) else none)
      match r.2.bringAll e.ctx (some va) lines with
      | none => (.error (e.heldBlock r.2), s)
      | some t => (.ok (ts.filterMap get), t)
/-- PIN: its descriptor is read at issue (R234). -/
def pinBody (a : Nat) (e : GI) (s : State) : Fx :=
  match e.readBlock s (e.g.regs.sr a) 32 true with
  | (.error f, _) => f
  | (.ok b, s1) => .done (e.startOp s1 fun o => { o with misc := b.map (·.toNat) }).2
def execPin (d a : Nat) (s : State) : Host.Outcome State Fault Refusal := s.issue (.pin d a) (pinBody a) matSpan
/-- The ways that a register of `r` ways would leave too few of: some slice of its mask would exceed 14. -/
def State.waysShort (s : State) (d ways mask : Nat) : Bool :=
  (List.range 80).any fun k => nbit mask k && decide (14 < s.reservedWays d k + s.carved d + ways)
/-- PIN's status, and the register that it takes. -/
def State.pinStatus (s : State) (d ctx : Nat) (b : List Byte) : Nat × Option Nat :=
  let base := rdN b 0 8
  let len := rdN b 8 8
  let ways := rdN b 0x10 1
  let mask := rdN b 0x12 10
  let free := findN 4 fun i => !((s.die d).retain.getD i Retain.reset).valid
  let allowed := match tget s.ctxs ctx with
    | some c => c.retain
    | none => false
  if !allowed then (2, none)
  else if base % 128 ≠ 0 ∨ len % 128 ≠ 0 ∨ len = 0 ∨ ways = 0 ∨ 12 < ways ∨ rdN b 0x11 1 ≠ 0 ∨ rdN b 0x1C 4 ≠ 0 then (3, none)
  else match free with
    | none => (1, none)
    | some i => if s.waysShort d ways mask then (4, none) else (0, some i)
/-- A register that has been granted ways takes them from the ordinary ways of its slices: where a set's lines need more than
are left, the least recently used lie in reserved ways from now on, out of range, until a line in range takes their way
(R288, R290). -/
def State.pinWays (s : State) (d i : Nat) : State :=
  let r := (s.die d).retain.getD i Retain.reset
  let takes (w : WayEnt) : Bool :=
    let st := l2Set w.line
    let ord := s.mem.ways.filter fun x => x.die == d && l2Set x.line == st && x.reserved == none
    let older := (ord.filter fun x => decide (x.age < w.age)).length
    w.die == d && w.reserved == none && nbit r.mask st.1 && decide (older + (16 - s.carved d - s.reservedWays d st.1) < ord.length)
  { s with mem := { s.mem with ways := s.mem.ways.map fun w => if takes w then { w with reserved := some i } else w } }
/-- PIN completes. -/
def State.pinDone (s : State) (op : Op) (ctx d : Nat) : RegWrite × State :=
  let die := coreDie op.core
  let b := op.misc.map fun n => BitVec.ofNat 8 n
  match s.pinStatus die ctx b with
  | (st, none) => (.uni d (BitVec.ofNat 64 st), s)
  | (st, some i) =>
    let r : Retain := ⟨true, rdN b 0x10 1, ctx, rdN b 0 8, rdN b 8 8, rdN b 0x12 10⟩
    (.uni d (BitVec.ofNat 64 (st + 256 * i)),
     (s.modDie die fun x => { x with retain := x.retain.set i r, ovf := x.ovf.set i 0 }).pinWays die i)
def execUnpin (d a : Nat) (s : State) : Host.Outcome State Fault Refusal :=
  s.issue (.unpin d a)
    (fun e s => .done (e.startOp s fun o => { o with svals := [e.g.regs.sr a] }).2)
    matSpan
/-- UNPIN completes (R235). -/
def State.unpinDone (s : State) (op : Op) (ctx d : Nat) : RegWrite × State :=
  let die := coreDie op.core
  let h := (op.svals.getD 0 0).toNat % 256
  let r := (s.die die).retain.getD h Retain.reset
  if 3 < h ∨ !r.valid ∨ r.ctx ≠ ctx then (.uni d 1, s) else (.uni d 0, s.unpin die h)
/-- PREF (R236): it never faults, and fetches when it completes. -/
def execPref (h : Hint) (l : PrefLvl) (o a : Nat) (s : State) : Host.Outcome State Fault Refusal :=
  s.issue (.pref h l o a) (fun e s => .done (e.startOp s (e.memOp e.lanes .ready [])).2) matSpan
def execTagset (t o a : Nat) (s : State) : Host.Outcome State Fault Refusal := s.issue (.tagset t o a) GI.access matSpan
def execTagget (d o a : Nat) (s : State) : Host.Outcome State Fault Refusal := s.issue (.tagget d o a) GI.access matSpan
def execCacheop (p : CacheOp) (o a : Nat) (s : State) : Host.Outcome State Fault Refusal :=
  s.issue (.cacheop p o a) GI.access matSpan

/-! ### Publication (R239, R240) -/

/-- PUBW: its store waits for every earlier write of the group. -/
def execPubw (b a : Nat) (s : State) : Host.Outcome State Fault Refusal :=
  s.issue (.pubw b a)
    (fun e s =>
      match e.access s with
      | .done s1 =>
        let n := s1.work.ops.foldl (fun k o => if o.2.gid == e.gid then max k o.1 else k) 0
        .done (s1.modOp n fun o => if o.st = .reqs then { o with st := .engine, await := s.awaitOf e.gid Instr.writesMem }
          else { o with await := s.awaitOf e.gid Instr.writesMem })
      | x => x)
    matSpan
/-- Whether a release may take effect: what it awaits has completed and GT is past its W (R223, R239). -/
def State.released (s : State) (die : Nat) (a : Await) : Bool := a.done && decide (a.w + 2 < s.gtAt die)
/-- PUBW_STORE: the store sets out. -/
def execPubwStore (op : Nat) (s : State) : Host.Outcome State Fault Refusal :=
  s.event fun s =>
    match tget s.work.ops op with
    | none => s
    | some o =>
      match o.instr with
      | .pubw _ _ => if o.st = .engine && s.released (coreDie o.core) o.await then s.modOp op fun x => { x with st := .reqs } else s
      | _ => s
def execAcqw (d a : Nat) (s : State) : Host.Outcome State Fault Refusal := s.issue (.acqw d a) GI.access matSpan

/-! ### Mailboxes (R241, R242, R391, R392) -/

/-- MBXSEND: the packet is read from local memory at issue and delivered by MBX_DELIVER. It is sent whatever the masks and
helper lanes are: R200 does not name it among the instructions that such lanes hold back (DEDUCED, log entry 41). -/
def execMbxsend (a die : Nat) (fwd : Bool) (s : State) : Host.Outcome State Fault Refusal :=
  s.issue (.mbxsend a die fwd)
    (fun e s =>
      let x := (e.g.regs.sr a).toNat
      if e.localOk x 64 then
        .done (e.startOp s fun o => { o with
          st := .engine, await := s.awaitOf e.gid Instr.onCore, misc := (e.team.loc.read x 64).map (·.toNat) }).2
      else .page s 0x07 1 x 0)
    matSpan
/-- A packet as it is queued: the sender fields of its header filled, or kept under .fwd (R391). -/
def packetFor (b : List Byte) (fwd : Bool) (core ctx : Nat) : List Byte :=
  let h := rdN b 0 8
  let h0 := h % 2 ^ 9 + 2 ^ 38 * (h / 2 ^ 38)
  let sender := if fwd then 2 ^ 12 * (h / 2 ^ 12 % 2 ^ 26) + 2 ^ 10
    else 2 ^ 12 * coreDie core + 2 ^ 14 * core + 2 ^ 24 * ctx
  toBytes 8 (h0 + sender) ++ b.drop 8
/-- MBX_DELIVER: the packet is queued after the group's CORE writes, in issue order for one die; a die whose STATE is
not 0, or that no route leads to (R386), answers DIEOFF. -/
def execMbxDeliver (op : Nat) (s : State) : Host.Outcome State Fault Refusal :=
  s.event fun s =>
    match tget s.work.ops op with
    | none => s
    | some o =>
      match o.instr with
      | .mbxsend _ die fwd =>
        let early := s.work.ops.any fun p => decide (p.1 < op) && p.2.gid == o.gid && p.2.st == .engine && match p.2.instr with
          | .mbxsend _ k _ => k == die
          | _ => false
        if o.st ≠ .engine || early || !s.released (coreDie o.core) { o.await with copies := [], draws := [] } then s
        else if s.reach (coreDie o.core) die = .wait then s
        else if (s.die die).state ≠ 0 ∨ s.reach (coreDie o.core) die = .broken then
          (s.retireOp op).owe o.gid ⟨.dieoff, 512, 0, 0, o.pos, false⟩
        else if 1024 ≤ (s.die die).mbx.length then s
        else
          let ctx := match s.gi o.gid .nop with
            | some e => e.ctx
            | none => 0
          (s.modDie die fun d => { d with mbx := d.mbx ++ [⟨packetFor (o.misc.map fun n => BitVec.ofNat 8 n) fwd o.core ctx⟩] }).modOp op
            fun x => { x with st := .ready }
      | _ => s
/-- What MBXRECV does when it issues: it waits; MBXRECV_TAKE completes it. -/
def mbxrecvBody (a : Nat) (e : GI) (s : State) : Fx :=
  if e.g.ctl.hold = some e.i then .stay s
  else if e.localOk (e.g.regs.sr a).toNat 64 then e.wait s []
  else .page s 0x07 2 (e.g.regs.sr a).toNat 0
def execMbxrecv (d a : Nat) (s : State) : Host.Outcome State Fault Refusal := s.issue (.mbxrecv d a) (mbxrecvBody a) matSpan
/-- Whether a version of a table is live: current, or with tokens in flight (R398). -/
def XTable.live (t : XTable) (ver : Nat) : Bool :=
  ver == t.cur || t.inflight.any fun x => x.ver == ver && x.count != 0
/-- Whether a token's version is live in its table (R391, R402). -/
def State.tokenLive (s : State) (tok ver : Nat) : Bool :=
  match tget s.barchan.tables (tok / 2 ^ 14 % 4) with
  | some t => t.live ver
  | none => false
/-- The packet as MBXRECV copies it out: STALE decided now. -/
def State.receive (s : State) (p : Packet) : List Byte :=
  let h := rdN p.bytes 0 8
  let tok := rdN p.bytes 8 4
  let stale := nbit h 8 && tok != 0xFFFFFFFF && !s.tokenLive tok (rdN p.bytes 12 4)
  toBytes 8 (setBit h 9 stale) ++ p.bytes.drop 8
/-- Whether a group's team is not being saved: not asked to yield, or not yet decided to be, since a group of it is still
deferred, as an S handler or an ordered section may be (R242, R379). -/
def State.mayTake (s : State) (g : Group) : Bool :=
  match tget s.teams g.team with
  | none => false
  | some t => match t.pre with
    | none => true
    | some p => !p.forced && (s.groupsOf g.team).any fun x => x.2.ctl.pre != .yielded || x.2.ctl.level != .u
/-- Whether a held group is the oldest of those that wait for a packet on its die. -/
def State.oldestRecv (s : State) (gid : Nat) (g : Group) : Bool :=
  !(s.groups.any fun x => x.1 != gid && coreDie x.2.core == coreDie g.core && decide (x.2.ctl.holdAt < g.ctl.holdAt) &&
    s.mayTake x.2 && match x.2.ctl.hold with
      | some (.mbxrecv _ _) => true
      | _ => false)
/-- MBXRECV_TAKE: the oldest waiting group of a die takes the oldest packet, unless its team is being saved. -/
def execMbxrecvTake (gid : Nat) (s : State) : Host.Outcome State Fault Refusal :=
  s.event fun s =>
    match tget s.groups gid with
    | none => s
    | some g =>
      match g.ctl.hold with
      | some (.mbxrecv d a) =>
        (match s.gi gid (.mbxrecv d a), (s.die (coreDie g.core)).mbx with
         | some e, p :: r =>
           if !s.oldestRecv gid g || !s.mayTake g then s
           else
             let b := s.receive p
             let s1 := s.modDie e.die fun x => { x with mbx := r }
             let s2 := s1.modTeam g.team fun t => { t with loc := t.loc.write (e.g.regs.sr a).toNat b }
             let s3 := s2.modRegs gid fun x => x.setS d (BitVec.ofNat 64 (rdN b 0 8))
             e.finish s (.done (s3.dropPath g.core .core (s.gtOf g.core)))
         | _, _ => s)
      | _ => s

/-! ### Child launches (R243) -/

/-- SPAWN: the descriptor is submitted; LAUNCH_SUBMIT answers. A pointer that is not canonical is carried as an address beyond
the address space: that of the descriptor cannot be read there, and that of the signal word faults when the child completes. -/
def execSpawn (d a sg : Nat) (sig : Bool) (cls : Nat) (s : State) : Host.Outcome State Fault Refusal :=
  s.issue (.spawn d a sg sig cls)
    (fun e s =>
      let at_ (b : DWord) : Nat := vaOf (globalAddr b 0) + (if canonical b then 0 else 2 ^ 56)
      let va := at_ (e.g.regs.sr a)
      let sv := at_ (e.g.regs.sr sg)
      let m := lowLane e.g.active
      if va % 64 ≠ 0 then .trap s .misalign 1 (vaOf va) m
      else if sig && decide (sv % 8 ≠ 0) then .trap s .misalign 2 (vaOf sv) m
      else
        let o := e.startOp s fun o => { o with st := .engine }
        let f := o.2.fresh
        let sub : Submit :=
          { ctx := e.ctx, addr := va, background := false, cls := cls, source := .spawn (if sig then some sv else none),
            die := some e.die, op := some o.1 }
        .done { f.2 with work := { f.2.work with subs := tput f.2.work.subs f.1 sub } })
    matSpan

end Sys2Proof.Machine
end

