-- ==== Sys2Proof/Machine/Barchan.lean ====
section
/-! DEFINITION. Barchan (R395 to R406): table versions and their images, ROUTE and XDONE (R273, R274), window
ends, copies and their verification, publication, departures of dies. -/
namespace Sys2Proof.Machine

/-! ### Tables and versions -/

def State.modBarchan (s : State) (f : Barchan → Barchan) : State := { s with barchan := f s.barchan }
def State.xtab (s : State) (n : Nat) : Option XTable := tget s.barchan.tables n
def State.modTable (s : State) (n : Nat) (f : XTable → XTable) : State :=
  s.modBarchan fun b => { b with tables := tmod b.tables n f }
/-- The key slot of the engine's accesses: the owning context's default slot. -/
def State.xKey (s : State) : Nat :=
  match tget s.ctxs s.barchan.ctx with
  | some c => c.key
  | none => 0
/-- The address of a table (R396). -/
def State.xBase (s : State) (n : Nat) : Nat := s.barchan.base + n * 0x80000
/-- A write of the engine to its area; its W counts for the next window's end (R482). -/
def State.xPut (s : State) (pa : Nat) (data : List Byte) : Nat × State :=
  let r := s.devStore pa s.xKey data
  (r.1, { r.2 with barchan := { r.2.barchan with lastW := max r.2.barchan.lastW r.1 } })
/-- Whether a table's window end is still to publish. -/
def State.windowing (s : State) : Bool := s.barchan.tables.any fun t => match t.2.publish with
  | some p => p.atWindow
  | none => false
/-- The state after a table may have finished its window end, which stood as `s` before: the next window begins once every table
has (R399). -/
def State.windowOver (s s1 : State) : State :=
  if s.windowing && !s1.windowing then { s1 with barchan := { s1.barchan with windowAt := s1.gt } } else s1
/-- Whether version u is older than v, in serial order (R398). -/
def older (u v : Nat) : Bool :=
  let d := (v + 2 ^ 32 - u) % 2 ^ 32
  decide (1 ≤ d) && decide (d ≤ 2 ^ 31)
/-- CURVER less a number. -/
def XTable.back (t : XTable) (k : Nat) : Nat := (t.cur + 2 ^ 32 - k) % 2 ^ 32
/-- The oldest live version. -/
def XTable.oldest (t : XTable) : Nat :=
  (argMax (fun v => (t.cur + 2 ^ 32 - v) % 2 ^ 32) ((t.images.map (·.1)).filter t.live)).getD t.cur
/-- The image of CURVER. -/
def XTable.image (t : XTable) : List ExpertEnt := (tget t.images t.cur).getD []
/-- The valid replicas of an entry. -/
def ExpertEnt.replicas (e : ExpertEnt) : List Replica := e.reps.filter (·.valid)
/-- Whether a live version lists a slot of a die. -/
def XTable.listed (t : XTable) (die slot : Nat) : Bool :=
  t.images.any fun v => t.live v.1 && v.2.any fun e => e.replicas.any fun r => r.die == die && r.slot == slot
/-- A record of kind 0x04 in the ring of XPOLICY.CTX (R406). -/
def State.xLog (s : State) (event expert table die slot ver : Nat) : State :=
  s.logRecord s.barchan.ctx
    (packF [(0x04, 0), (event, 8), (expert % 65536, 16), (table, 32), (die, 34), (slot % 256, 36)]) ver 0 s.gt

/-- An entry from its 16 bytes (R397). -/
def ExpertEnt.ofBytes (b : List Byte) : ExpertEnt :=
  { pdie := nfld (rdN b 0 8) 0 2
    paddr := 4096 * nfld (rdN b 0 8) 12 36
    reps := (List.range 4).map fun i =>
      let x := rdN b (8 + 2 * i) 2
      ⟨nfld x 8 2, nfld x 0 8, nbit x 15⟩ }
def Replica.word (r : Replica) : Nat := if r.valid then packF [(r.slot, 0), (r.die, 8), (1, 15)] else 0
def ExpertEnt.bytes (e : ExpertEnt) : List Byte :=
  toBytes 8 (e.pdie + e.paddr) ++ (List.range 4).flatMap fun i => toBytes 2 ((e.reps.getD i ⟨0, 0, false⟩).word)

/-! ### Enabling, disabling, refreshing (R397, R404) -/

/-- Bytes at their homes as one read of the engine returns them: none where a home gives no answer or the data is
poisoned. -/
def State.homeBytes (s : State) (pa n key : Nat) : Option (List Byte) :=
  match s.spaceOf pa with
  | some .global =>
    if (List.range (cdiv (pa % 128 + n) 128)).all fun i => s.homeUp (pa / 128 + i) && s.spaceOf ((pa / 128 + i) * 128) == some .global then
      (if !s.keyed key || s.poisonedAt pa n key then none else some (s.see pa n key))
    else none
  | _ => none
/-- The table that a header describes, without a live version. -/
def XTable.ofHeader (h : List Byte) : XTable :=
  { experts := rdN h 0 4, expBytes := rdN h 4 4, poolBase := (List.range 4).map fun d => rdN h (0x10 + 8 * d) 8,
    poolSlots := (List.range 4).map fun d => rdN h (0x30 + d) 1, windows := rdN h 0x34 4, cur := rdN h 8 4,
    images := [], load := [], dieload := [0, 0, 0, 0], repcount := [], inflight := [], retiring := [],
    departed := [], publish := none }
/-- Whether a header keeps its limits (R396). -/
def XTable.headerOk (t : XTable) (h : List Byte) : Bool :=
  decide (1 ≤ t.experts) && decide (t.experts ≤ 4096) && t.expBytes % 4096 == 0 && decide (4096 ≤ t.expBytes) &&
  decide (t.expBytes ≤ 2 ^ 30) && (h.drop 0x38).all (· == 0) && (List.range 4).all fun d =>
    let p := t.poolBase.getD d 0
    p == 0 || (p % 65536 == 0 && decide (regionBase (d + 1) ≤ p) &&
      decide (p + t.poolSlots.getD d 0 * t.expBytes ≤ regionBase (d + 1) + 0x002000000000))
/-- Whether an image's entry keeps its limits (R397). -/
def XTable.entryOk (t : XTable) (b : List Byte) : Bool :=
  nfld (rdN b 0 8) 2 10 == 0 && nfld (rdN b 0 8) 48 16 == 0 && (List.range 4).all fun i =>
    let x := rdN b (8 + 2 * i) 2
    nfld x 10 5 == 0 && (!nbit x 15 ||
      (t.poolBase.getD (nfld x 8 2) 0 != 0 && decide (nfld x 0 8 < t.poolSlots.getD (nfld x 8 2) 0)))
/-- The table that setting EN bit n finds, if its header and image hold. -/
def State.xFind (s : State) (n : Nat) : Option XTable :=
  match s.homeBytes (s.xBase n) 0x1000 s.xKey with
  | none => none
  | some h =>
    let t := XTable.ofHeader h
    if !t.headerOk h then none
    else match s.homeBytes (s.xBase n + 0x10000 + 0x10000 * (t.cur % 4)) (16 * t.experts) s.xKey with
      | none => none
      | some b =>
        let es := (List.range t.experts).map fun e => slice b (16 * e) 16
        if es.all t.entryOk then
          some { t with images := [(t.cur, es.map ExpertEnt.ofBytes)], load := List.replicate t.experts 0 }
        else none
/-- EN bit n set (R397). -/
def State.xEnable (s : State) (n : Nat) : State :=
  if s.barchan.en.getD n false then s
  else match s.xFind n with
    | none => s.xLog 7 0xFFFF n 0 0 0
    | some t =>
      let s1 := s.modBarchan fun b =>
        { b with
          windowAt := if b.en.any id then b.windowAt else s.gt
          en := b.en.set n true
          ver := b.ver.set n t.cur
          tables := tput b.tables n t }
      (s1.xPut (s.xBase n + 0x0C) (toBytes 4 t.cur)).2
/-- EN bit n cleared (R397). -/
def State.xDisable (s : State) (n : Nat) : State :=
  s.windowOver (s.modBarchan fun b => { b with en := b.en.set n false, tables := tdel b.tables n })
/-- REFRESH bit n written 1 (R395, R404). -/
def State.xRefresh (s : State) (n : Nat) : State := s.modBarchan fun b => { b with refresh := b.refresh.set n true }
/-- XTABLE_ENABLE, XTABLE_DISABLE, XTABLE_REFRESH: what a write of XPOLICY that sets or clears the bit makes the
engine do. -/
def execXtableEnable (table : Nat) (s : State) : Host.Outcome State Fault Refusal := s.event fun s => if table < 4 then s.xEnable table else s
def execXtableDisable (table : Nat) (s : State) : Host.Outcome State Fault Refusal := s.event fun s => s.xDisable table
def execXtableRefresh (table : Nat) (s : State) : Host.Outcome State Fault Refusal := s.event fun s => s.xRefresh table

/-! ### ROUTE and XDONE (R273, R274) -/

/-- Whether a die is up. -/
def State.dieUp (s : State) (d : Nat) : Bool := (s.die d).state == 0
/-- The count of one copy under a version. -/
def XTable.flying (t : XTable) (ver e die slot : Nat) : Nat :=
  match t.inflight.find? fun x => x.ver == ver && x.expert == e && x.die == die && x.slot == slot with
  | some x => x.count
  | none => 0
/-- A count changed. -/
def XTable.setFlying (t : XTable) (ver e die slot n : Nat) : XTable :=
  let rest := t.inflight.filter fun x => !(x.ver == ver && x.expert == e && x.die == die && x.slot == slot)
  { t with inflight := if n = 0 then rest else ⟨ver, e, die, slot, n⟩ :: rest }
/-- The copies of an expert under CURVER on dies that are up, the primary first. -/
def State.copiesUp (s : State) (t : XTable) (x : ExpertEnt) : List Replica :=
  ((⟨x.pdie, 0xFF, true⟩ : Replica) :: x.replicas.filter fun r => !t.departed.contains r.die).filter fun r => s.dieUp r.die
/-- The copy that ROUTE takes: fewest tokens in flight, then lowest slot; among copies that tie in both, on different
dies, a free choice. -/
def State.routePick (s : State) (t : XTable) (e : Nat) (x : ExpertEnt) : Replica × State :=
  let l := s.copiesUp t x
  let cost (r : Replica) : Nat := t.flying t.cur e r.die r.slot * 256 + r.slot
  match argMin cost l with
  | none => (⟨x.pdie, 0xFF, true⟩, s)
  | some b =>
    (l.filter fun r => cost r == cost b && r.die != b.die).foldl (fun acc r =>
      let f := acc.2.drawFree 1
      (if Config.choice f.1 then r else acc.1, f.2)) (b, s)
/-- One lane's ROUTE: the token. -/
def State.routeOne (s : State) (ctx n e : Nat) : (Nat × Nat) × State :=
  let none_ := ((0xFFFFFFFF, 0), s)
  if ctx ≠ s.barchan.ctx then none_
  else match s.xtab n with
    | none => none_
    | some t =>
      match t.image[e]? with
      | none => none_
      | some x =>
        let p := s.routePick t e x
        let r := p.1
        let bump (l : List RepCount) : List RepCount :=
          if r.slot = 0xFF then l
          else match l.find? fun y => y.expert == e && y.die == r.die && y.slot == r.slot with
            | some y => l.map fun z => if z = y then { z with count := z.count + 1 } else z
            | none => ⟨e, r.die, r.slot, 1, false⟩ :: l
        let upd (u : XTable) : XTable :=
          let v := u.setFlying u.cur e r.die r.slot (u.flying u.cur e r.die r.slot + 1)
          { v with load := lmod v.load e (· + 1), dieload := lmod v.dieload r.die (· + 1), repcount := bump v.repcount }
        ((packF [(e, 0), (r.die, 12), (n, 14), (r.slot, 16)], t.cur), p.2.modTable n upd)
/-- ROUTE: the engine acts when it completes. -/
def execRoute (n e d : Nat) (s : State) : Host.Outcome State Fault Refusal :=
  s.issue (.route n e d)
    (fun g s => .done (g.startOp s fun o => { o with lanes := g.storeLanes, wlanes := g.storeLanes, vvals := [g.g.regs.vr e] }).2)
    matSpan
/-- ROUTE completes: every lane in ascending order; an acquire on every path. -/
def State.routeDone (s : State) (op : Op) (ctx n d : Nat) : List RegWrite × State :=
  let r := (lanesOf op.lanes).foldl (fun (acc : List (Nat × Nat × Nat) × State) l =>
    let q := acc.2.routeOne ctx n (laneVal (op.vvals.getD 0 []) l).toNat
    (acc.1 ++ [(l, q.1.1, q.1.2)], q.2)) ([], s)
  let pick (f : Nat × Nat × Nat → Nat) : List Word := vecOf fun l => match r.1.find? fun x => x.1 == l with
    | some x => BitVec.ofNat 32 (f x)
    | none => 0
  ([.vec d op.lanes (pick fun x => x.2.1), .vec (d + 1) op.lanes (pick fun x => x.2.2)],
   r.2.dropPaths op.core (r.2.gtOf op.core))
/-- XDONE: the engine acts when it completes. -/
def execXdone (t : Nat) (s : State) : Host.Outcome State Fault Refusal :=
  s.issue (.xdone t)
    (fun g s => .done (g.startOp s fun o => { o with lanes := g.storeLanes, vvals := [g.g.regs.vr t, g.g.regs.vr (t + 1)] }).2)
    matSpan
/-- One lane's XDONE. -/
def State.xdoneOne (s : State) (ctx tok ver : Nat) : State :=
  if tok = 0xFFFFFFFF ∨ ctx ≠ s.barchan.ctx then s
  else s.modTable (nfld tok 14 2) fun t =>
    let e := nfld tok 0 12
    let d := nfld tok 12 2
    let k := nfld tok 16 8
    t.setFlying ver e d k (t.flying ver e d k - 1)
/-- XDONE completes. -/
def State.xdoneDone (s : State) (op : Op) (ctx : Nat) : State :=
  (lanesOf op.lanes).foldl (fun a l =>
    a.xdoneOne ctx (laneVal (op.vvals.getD 0 []) l).toNat (laneVal (op.vvals.getD 1 []) l).toNat) s

/-! ### Copies (R400) -/

/-- One bit of CRC-64 with the polynomial of ECMA-182, most significant bit first. -/
def crcBit (c : Nat) : Nat := if nbit c 63 then (2 * c % 2 ^ 64) ^^^ 0x42F0E1EBA9EA3693 else 2 * c
/-- CRC-64 of bytes, from zero. -/
def crc64 (l : List Byte) : Nat :=
  l.foldl (fun c b => (List.range 8).foldl (fun x _ => crcBit x) (c ^^^ (2 ^ 56 * b.toNat))) 0
/-- The address of a slot of a pool (R396). -/
def XTable.slotAddr (t : XTable) (d slot : Nat) : Nat := t.poolBase.getD d 0 + slot * t.expBytes

/-! ### Versions dropped, published (R399, R401, R403) -/

/-- Non-current versions without tokens in flight are dropped, and OLDEST is written (R396, R399). -/
def State.xDrop (s : State) (n : Nat) : State :=
  match s.xtab n with
  | none => s
  | some t =>
    let u := { t with images := t.images.filter fun v => t.live v.1 }
    ((s.modTable n fun _ => u).xPut (s.xBase n + 0x0C) (toBytes 4 u.oldest)).2
/-- Replicas that fail a test cleared in an image. -/
def keepReps (p : Nat → Replica → Bool) (img : List ExpertEnt) : List ExpertEnt :=
  img.zipIdx.map fun (z : ExpertEnt × Nat) =>
    { z.1 with reps := z.1.reps.map fun r => if r.valid && !p z.2 r then ⟨0, 0, false⟩ else r }
/-- Every valid replica of an image: expert and replica. -/
def allReps (img : List ExpertEnt) : List (Nat × Replica) :=
  img.zipIdx.flatMap fun (z : ExpertEnt × Nat) => z.1.replicas.map fun r => (z.2, r)
/-- The version that a publication would make. -/
def XTable.nextVer (t : XTable) : Nat := (t.cur + 1) % 2 ^ 32
/-- A version without copies starts on its way: nothing to do when it equals the current image. -/
def State.xPublish (s : State) (n : Nat) (img : List ExpertEnt) (copies : List XCopy) (w carry : Nat) (atWindow : Bool) : State :=
  s.modTable n fun t =>
    if copies.isEmpty && img == t.image then { t with departed := t.departed.drop carry }
    else { t with publish := some ⟨img, w, copies, false, carry, atWindow⟩ }
/-- Lost replicas of departed dies logged (R403). -/
def State.xLogLost (s : State) (n : Nat) (t : XTable) : State :=
  ((allReps t.image).filter fun r => t.departed.contains r.2.die).foldl (fun a r =>
    a.xLog 5 r.1 n r.2.die r.2.slot t.nextVer) s
/-- A pending departure published at once where it may be (R403). -/
def State.xCarry (s : State) (n : Nat) : State :=
  match s.xtab n with
  | none => s
  | some t =>
    if t.departed.isEmpty || t.publish.isSome || older t.oldest (t.back 2) then s
    else (s.xLogLost n t).xPublish n (keepReps (fun _ r => !t.departed.contains r.die) t.image) [] 0 t.departed.length false
/-- A die's STATE leaves 0 (R403). -/
def State.barchanDepart (s : State) (d : Nat) : State :=
  (List.range 4).foldl (fun a n =>
    let b := a.modTable n fun t =>
      { t with inflight := t.inflight.filter fun x => !(x.die == d && x.slot != 0xFF), departed := t.departed ++ [d] }
    (b.xDrop n).xCarry n) s

/-! ### The window end (R399) -/

/-- What a window end has made of a table's new image so far. -/
structure Grow where
  s : State
  img : List ExpertEnt
  idle : List Nat
  copies : List XCopy
  w : Nat
  deriving DecidableEq, Repr

/-- CopyVerify's read and write (R400): the CRC of what was read and the greatest W of the writes; none on poison or
an error reply. -/
def State.copyExpert (s : State) (t : XTable) (e : ExpertEnt) (d slot : Nat) : Option (Nat × Nat) × State :=
  match s.homeBytes e.paddr t.expBytes s.xKey with
  | none => (none, s)
  | some b =>
    let r := s.xPut (t.slotAddr d slot) b
    (some (crc64 b, r.1), r.2)
/-- One hot expert. -/
def Grow.step (g : Grow) (n maxrep : Nat) (t : XTable) (dl : List Nat) (e : Nat) : Grow :=
  match g.img[e]? with
  | none => g
  | some x =>
    if maxrep ≤ x.replicas.length then g
    else
      let slotOf (d : Nat) : Option Nat := findN (t.poolSlots.getD d 0) fun k => t.poolBase.getD d 0 != 0 && !t.listed d k
      let can (d : Nat) : Bool := d != x.pdie && !(x.replicas.any fun r => r.die == d) && (slotOf d).isSome
      match argMin (fun d => dl.getD d 0) (g.idle.filter can) with
      | none => g
      | some d =>
        let k := (slotOf d).getD 0
        let c := g.s.copyExpert t x d k
        let g1 := { g with s := c.2, idle := g.idle.filter (· != d) }
        match c.1 with
        | none => { g1 with s := g1.s.xLog 3 e n d k 0 }
        | some (crc, w) => { g1 with copies := g1.copies ++ [⟨e, d, k, crc⟩], w := max g1.w w }
/-- The window end of one table. -/
def State.tableWindow (s : State) (n : Nat) : State :=
  match s.xtab n with
  | none => s
  | some t0 =>
    let b := s.xBase n
    let load := t0.load
    let dl := t0.dieload
    let s1 := (s.xPut (b + 0x1000) ((load ++ List.replicate (4096 - load.length) 0).flatMap (toBytes 4))).2
    let s2 := (s1.xPut (b + 0x5000) (dl.flatMap (toBytes 4))).2
    let s3 := (s2.xPut (b + 0x34) (toBytes 4 ((t0.windows + 1) % 2 ^ 32))).2
    let s4 := (s3.modTable n fun t =>
      { t with
        load := List.replicate t.experts 0
        dieload := [0, 0, 0, 0]
        windows := (t.windows + 1) % 2 ^ 32
        repcount := t.repcount.map fun r => { r with count := 0 } }).xDrop n
    match s4.xtab n with
    | none => s4
    | some t =>
      let freed := t.retiring.filter fun r => !t.listed r.die r.slot
      let s5 := (freed.foldl (fun a r => if r.log then a.xLog 4 r.expert n r.die r.slot 0 else a) s4).modTable n fun u =>
        { u with retiring := u.retiring.filter fun r => t.listed r.die r.slot }
      if s.barchan.freeze.getD n false then s5
      else if older t.oldest (t.back 2) then s5.xLog 6 0xFFFF n 0 0 0
      else
        let s6 := s5.xLogLost n t
        let img := keepReps (fun _ r => !t.departed.contains r.die) t.image
        let retire (l : List (Nat × Replica)) (u : XTable) : XTable :=
          { u with retiring := u.retiring ++ l.map fun x => ⟨x.2.die, x.2.slot, x.1, true⟩ }
        if s.barchan.refresh.getD n false then
          let gone := allReps img
          let s7 := s6.modTable n fun u => retire gone { u with repcount := [] }
          (s7.modBarchan fun y => { y with refresh := y.refresh.set n false }).xPublish n (keepReps (fun _ _ => false) img) [] 0
            t.departed.length true
        else
          let rc (e : Nat) (r : Replica) : Nat × Bool :=
            match t0.repcount.find? fun y => y.expert == e && y.die == r.die && y.slot == r.slot with
            | some y => (y.count, y.wasCold)
            | none => (0, false)
          let cold (e : Nat) (r : Replica) : Bool := decide ((rc e r).1 ≤ s.barchan.cold)
          let gone := (allReps img).filter fun x => cold x.1 x.2 && (rc x.1 x.2).2
          let img2 := keepReps (fun e r => !gone.any fun x => x.1 == e && x.2 == r) img
          let marks : List RepCount := (allReps img2).map fun x => ⟨x.1, x.2.die, x.2.slot, 0, cold x.1 x.2⟩
          let s7 := s6.modTable n fun u => retire gone { u with repcount := marks }
          let idle := (List.range 4).filter fun d => nbit s.barchan.targets d && s.dieUp d && decide (dl.getD d 0 < s.barchan.idle)
          let hot := sortBy (fun e => 4096 * (2 ^ 40 - load.getD e 0) + e)
            ((List.range t.experts).filter fun e => decide (s.barchan.hot < load.getD e 0))
          let g := hot.foldl (fun (g : Grow) e => g.step n s.barchan.maxrep t dl e) ⟨s7, img2, idle, [], 0⟩
          g.s.xPublish n img2 g.copies g.w t.departed.length true
/-- Whether a table has a version on its way. -/
def State.publishing (s : State) : Bool := s.barchan.tables.any fun t => t.2.publish.isSome
/-- BARCHAN_WINDOW_END: the window of XWINDOW µs has passed, and every change of the last window end is performed (R482); every
enabled table in ascending order. The next window begins when every table has finished. -/
def execBarchanWindowEnd (s : State) : Host.Outcome State Fault Refusal :=
  s.event fun s =>
    if s.barchan.tables.isEmpty || s.publishing || decide (s.gt < s.barchan.windowAt + 1000 * s.barchan.window) || decide (s.gt ≤ s.barchan.lastW + 2) then s
    else
      let s1 := (List.range 4).foldl (fun a n => a.tableWindow n) s
      if s1.windowing then s1 else s1.modBarchan fun b => { b with windowAt := s1.gt }

/-! ### Publication (R400, R401) -/

/-- The event that a copy's read-back gives: 1 where it is what was read; 2 where the CRCs differ; 3 where it met poison or an
error reply. -/
def State.verifies (s : State) (t : XTable) (c : XCopy) : Nat :=
  match s.homeBytes (t.slotAddr c.die c.slot) t.expBytes s.xKey with
  | some b => if crc64 b = c.crc then 1 else 2
  | none => 3
/-- A replica placed in the lowest invalid REP of an expert. -/
def placeRep (img : List ExpertEnt) (c : XCopy) : List ExpertEnt :=
  lmod img c.expert fun e =>
    match findN 4 fun i => !(e.reps.getD i ⟨0, 0, false⟩).valid with
    | some i => { e with reps := e.reps.set i ⟨c.die, c.slot, true⟩ }
    | none => e
/-- The end of a publication: the next window begins when the last table's has ended. -/
def State.xPublished (s : State) (n : Nat) (p : PubVer) : State :=
  let s1 := s.modTable n fun t => { t with publish := none, departed := t.departed.drop p.carry }
  (s.windowOver s1).xCarry n
/-- BARCHAN_PUBLISH: once GT has passed the W of the copies they are read back, and the image is written; once it has
passed the W of the image, CURVER and XVER become the new version in one step. -/
def execBarchanPublish (table : Nat) (s : State) : Host.Outcome State Fault Refusal :=
  s.event fun s =>
    match s.xtab table with
    | none => s
    | some t =>
      match t.publish with
      | none => s
      | some p =>
        if s.gt ≤ p.w + 2 then s
        else if !p.written then
          let good := p.copies.filter fun c => s.verifies t c == 1
          let s1 := p.copies.foldl (fun a c =>
            a.xLog (s.verifies t c) c.expert table c.die c.slot (if s.verifies t c = 1 then t.nextVer else 0)) s
          let img := good.foldl placeRep p.image
          if img == t.image then s1.xPublished table p
          else
            let r := s1.xPut (s.xBase table + 0x10000 + 0x10000 * (t.nextVer % 4)) (img.flatMap ExpertEnt.bytes)
            r.2.modTable table fun u => { u with publish := some { p with image := img, w := max p.w r.1, copies := [], written := true } }
        else
          let v := t.nextVer
          let s1 := s.modTable table fun u => { u with cur := v, images := tput u.images v p.image }
          let s2 := s1.modBarchan fun b => { b with ver := b.ver.set table v }
          ((s2.xPut (s.xBase table + 8) (toBytes 4 v)).2).xPublished table p

end Sys2Proof.Machine
end

