-- ==== Sys2Proof/Machine/Sha3.lean ====
section
/-! DEFINITION. SHA3-512, which the spec names for image and report digests (R442, R446, R449). How it is computed is the
published standard's (PRESUMED: the spec names the function and does not give it). -/
namespace Sys2Proof.Machine

/-- The bit sequence behind the round constants: an 8-bit shift register with feedback x^8 + x^6 + x^5 + x^4 + 1, after n
shifts. -/
def shaFeedback : Nat → Nat
  | 0 => 1
  | n + 1 => let r := 2 * shaFeedback n; if r < 256 then r else (r ^^^ 0x171)
/-- The constant of a round: bit 2^j - 1 is a bit of the sequence. -/
def shaConst (round : Nat) : Nat :=
  (List.range 7).foldl (fun c j => c + 2 ^ (2 ^ j - 1) * (shaFeedback (7 * round + j) % 2)) 0
/-- How far the lanes turn: along the walk (x, y) to (y, 2x + 3y) from (1, 0), by the triangular numbers. -/
def shaWalk : Nat → Nat × Nat → List (Nat × Nat)
  | 0, _ => []
  | n + 1, p => (p.1 + 5 * p.2, (24 - n) * (25 - n) / 2 % 64) :: shaWalk n (p.2, (2 * p.1 + 3 * p.2) % 5)
def shaTurns : List Nat := (List.range 25).map fun i => ((shaWalk 24 (1, 0)).lookup i).getD 0
/-- A 64-bit lane turned left. -/
def shaTurn (n x : Nat) : Nat := (x * 2 ^ n) % 2 ^ 64 + x / 2 ^ (64 - n)
/-- The sum of a column, and what every lane of a column takes from its neighbours. -/
def shaColumn (a : List Nat) (x : Nat) : Nat := (a.zipIdx.filter fun z => z.2 % 5 == x % 5).foldl (fun v z => v ^^^ z.1) 0
def shaSpread (a : List Nat) (x : Nat) : Nat := shaColumn a (x + 4) ^^^ shaTurn 1 (shaColumn a (x + 1))
/-- The lanes mixed by columns. -/
def shaMix (a : List Nat) : List Nat :=
  let d := (List.range 5).map (shaSpread a)
  a.zipIdx.map fun z => z.1 ^^^ d.getD (z.2 % 5) 0
/-- The lanes turned, and dealt out anew: place (y, 2x + 3y) takes the lane of (x, y). -/
def shaDeal (turns a : List Nat) : List Nat :=
  let t := List.zipWith shaTurn turns a
  (List.range 25).map fun i => t.getD ((i + 3 * (i / 5)) % 5 + 5 * (i % 5)) 0
/-- The step across a row: each lane with its right neighbour inverted, and the one after. -/
def shaRow (b : List Nat) : List Nat :=
  b.zipIdx.map fun z =>
    let at_ (k : Nat) : Nat := b.getD (5 * (z.2 / 5) + (z.2 % 5 + k) % 5) 0
    z.1 ^^^ ((2 ^ 64 - 1 - at_ 1) &&& at_ 2)
/-- The permutation: 24 rounds. -/
def shaPermute (a : List Nat) : List Nat :=
  let turns := shaTurns
  (List.range 24).foldl (fun a r => (shaRow (shaDeal turns (shaMix a))).modifyHead fun v => v ^^^ shaConst r) a
/-- The lanes after the rest of a padded message, taken 72 bytes at a time. -/
def shaBlocks : Nat → List Nat → List Byte → List Nat
  | 0, a, _ => a
  | n + 1, a, m =>
    let lanes := (List.range 25).map fun i => if i < 9 then rdN m (8 * i) 8 else 0
    shaBlocks n (shaPermute (List.zipWith (· ^^^ ·) a lanes)) (m.drop 72)
/-- SHA3-512 of bytes: 64 bytes. The padding is the bits 01 of the function, then 1, zeros and 1. -/
def sha3 (m : List Byte) : List Byte :=
  let n := m.length / 72 + 1
  let z := 72 * n - m.length
  let tail : List Byte := if z = 1 then [0x86] else 0x06 :: (List.replicate (z - 2) 0 ++ [0x80])
  ((shaBlocks n (List.replicate 25 0) (m ++ tail)).take 8).flatMap (toBytes 8)

end Sys2Proof.Machine
end

