-- ==== Sys2Proof/Machine/VecInt.lean ====
section
/-! DEFINITION. Vector integer instructions and vector immediates (R156 to R166), in group mode lane by lane
and in span mode on forms (R25). -/
namespace Sys2Proof.Machine

/-! ### Shared shapes -/

/-- A unit of the ETYPE from a reader of registers. -/
def uRd (pair : Bool) (rd : Nat → Word) (n : Nat) : Nat :=
  if pair then (rd n).toNat + 2 ^ 32 * (rd (n + 1)).toNat else (rd n).toNat
/-- The register values of a unit of the ETYPE. -/
def uWr (pair : Bool) (n x : Nat) : List (Nat × Word) :=
  if pair then [(n, BitVec.ofNat 32 x), (n + 1, BitVec.ofNat 32 (x / 2 ^ 32))] else [(n, BitVec.ofNat 32 x)]
/-- Span mode where every source is uniform: the result is computed once (R25). -/
def uniSpan (srcs : List Nat) (out : (Nat → Word) → List (Nat × Word)) (e : SI) (_ : State) : SFx :=
  if srcs.all fun n => (e.x.vf n).uniform then
    .done ((out fun n => (e.x.vf n).a).foldl (fun x p => x.setVF p.1 (Form.const p.2)) e.x)
  else .mat

/-- Group mode of a lane-by-lane instruction on single registers: `f` from the registers and the lane. -/
def lanewise (d : Nat) (f : Regs → Nat → Word) (e : GI) (s : State) : Fx :=
  .done (s.modRegs e.gid fun r => r.setV d e.lanes (f e.g.regs))
/-- Group mode of an instruction marked E (R156): `f` from MODE's ETYPE code, SAT and three units. -/
def lanewiseE (d a b : Nat) (f : Nat → Bool → Nat → Nat → Nat → Nat) (e : GI) (s : State) : Fx :=
  let m := e.mode
  let p := mPair m
  .done (s.modRegs e.gid fun r => r.setU p d e.lanes fun l =>
    f (mEtype m) (mSat m) (e.g.regs.vu p a l) (e.g.regs.vu p b l) (e.g.regs.vu p d l))
/-- Span mode of an instruction marked E whose sources are all uniform. -/
def uniSpanE (srcs : List Nat) (d a b : Nat) (f : Nat → Bool → Nat → Nat → Nat → Nat) (e : SI) (s : State) : SFx :=
  let m := e.x.mode
  let p := mPair m
  uniSpan (srcs.flatMap fun n => if p then [n, n + 1] else [n])
    (fun rd => uWr p d (f (mEtype m) (mSat m) (uRd p rd a) (uRd p rd b) (uRd p rd d))) e s
/-- Whether MODE gives 32-bit elements (R156). -/
def wide32 (m : Word) : Bool := mEtype m ≤ 7
/-- Span mode of an affine instruction (R25): `f` gives the form where SAT is clear and the elements are 32 bits
wide; with SAT set, only uniform sources. -/
def affSpan (srcs : List Nat) (d a b : Nat) (op : IOp) (f : Span → Option Form) (e : SI) (s : State) : SFx :=
  if mSat e.x.mode then uniSpanE srcs d a b (fun et sat => iUnit op et sat) e s
  else if wide32 e.x.mode then
    match f e.x with
    | some y => .done (e.x.setVF d y)
    | none => .mat
  else .mat
/-- The product of two forms of which one is uniform (R25). -/
def mulForms (x y : Form) : Option Form :=
  if y.uniform then some (Form.scale y.a x) else if x.uniform then some (Form.scale x.a y) else none
/-- A form shifted left by a uniform amount (R25, R159). -/
def shlForm (x : Form) (n : Nat) : Form := if 32 ≤ n then Form.const 0 else Form.scale (BitVec.ofNat 32 (2 ^ n)) x

/-! ### Major 0x01 -/

def execIadd (d a b : Nat) (s : State) : Host.Outcome State Fault Refusal :=
  s.issue (.iadd d a b) (lanewiseE d a b (iUnit .add))
    (affSpan [a, b] d a b .add fun x => some (Form.map2 (· + ·) (x.vf a) (x.vf b)))
def execIsub (d a b : Nat) (s : State) : Host.Outcome State Fault Refusal :=
  s.issue (.isub d a b) (lanewiseE d a b (iUnit .sub))
    (affSpan [a, b] d a b .sub fun x => some (Form.map2 (· - ·) (x.vf a) (x.vf b)))
def execImul (d a b : Nat) (s : State) : Host.Outcome State Fault Refusal :=
  s.issue (.imul d a b) (lanewiseE d a b (iUnit .mul))
    (affSpan [a, b] d a b .mul fun x => mulForms (x.vf a) (x.vf b))
def execImulhi (d a b : Nat) (s : State) : Host.Outcome State Fault Refusal :=
  s.issue (.imulhi d a b) (lanewiseE d a b (iUnit .mulhi)) (uniSpanE [a, b] d a b (iUnit .mulhi))
def execImulhn (d a b : Nat) (s : State) : Host.Outcome State Fault Refusal :=
  s.issue (.imulhn d a b) (lanewiseE d a b (iUnit .mulhn)) (uniSpanE [a, b] d a b (iUnit .mulhn))
def execImad (d a b : Nat) (s : State) : Host.Outcome State Fault Refusal :=
  s.issue (.imad d a b) (lanewiseE d a b (iUnit .mad))
    (affSpan [a, b, d] d a b .mad fun x => (mulForms (x.vf a) (x.vf b)).map fun p => Form.map2 (· + ·) p (x.vf d))
def execIand (d a b : Nat) (s : State) : Host.Outcome State Fault Refusal :=
  s.issue (.iand d a b) (lanewise d fun r l => r.vl a l &&& r.vl b l)
    (uniSpan [a, b] fun rd => [(d, rd a &&& rd b)])
def execIor (d a b : Nat) (s : State) : Host.Outcome State Fault Refusal :=
  s.issue (.ior d a b) (lanewise d fun r l => r.vl a l ||| r.vl b l)
    (uniSpan [a, b] fun rd => [(d, rd a ||| rd b)])
def execIxor (d a b : Nat) (s : State) : Host.Outcome State Fault Refusal :=
  s.issue (.ixor d a b) (lanewise d fun r l => r.vl a l ^^^ r.vl b l)
    (uniSpan [a, b] fun rd => [(d, rd a ^^^ rd b)])
def execIshl (d a b : Nat) (s : State) : Host.Outcome State Fault Refusal :=
  s.issue (.ishl d a b) (lanewiseE d a b (iUnit .shl))
    (fun e _ => if wide32 e.x.mode && (e.x.vf b).uniform then .done (e.x.setVF d (shlForm (e.x.vf a) (e.x.vf b).a.toNat)) else .mat)
def execIshr (d a b : Nat) (s : State) : Host.Outcome State Fault Refusal :=
  s.issue (.ishr d a b) (lanewiseE d a b (iUnit .shr)) (uniSpanE [a, b] d a b (iUnit .shr))
def execIsra (d a b : Nat) (s : State) : Host.Outcome State Fault Refusal :=
  s.issue (.isra d a b) (lanewiseE d a b (iUnit .sra)) (uniSpanE [a, b] d a b (iUnit .sra))
def execImin (d a b : Nat) (s : State) : Host.Outcome State Fault Refusal :=
  s.issue (.imin d a b) (lanewiseE d a b (iUnit .smin)) (uniSpanE [a, b] d a b (iUnit .smin))
def execImax (d a b : Nat) (s : State) : Host.Outcome State Fault Refusal :=
  s.issue (.imax d a b) (lanewiseE d a b (iUnit .smax)) (uniSpanE [a, b] d a b (iUnit .smax))
def execIminn (d a b : Nat) (s : State) : Host.Outcome State Fault Refusal :=
  s.issue (.iminn d a b) (lanewiseE d a b (iUnit .umin)) (uniSpanE [a, b] d a b (iUnit .umin))
def execImaxn (d a b : Nat) (s : State) : Host.Outcome State Fault Refusal :=
  s.issue (.imaxn d a b) (lanewiseE d a b (iUnit .umax)) (uniSpanE [a, b] d a b (iUnit .umax))
def execIabs (d a : Nat) (s : State) : Host.Outcome State Fault Refusal :=
  s.issue (.iabs d a) (lanewiseE d a a (iUnit .abs)) (uniSpanE [a] d a a (iUnit .abs))
def execClz (d a : Nat) (s : State) : Host.Outcome State Fault Refusal :=
  s.issue (.clz d a) (lanewise d fun r l => BitVec.ofNat 32 (clz32 (r.vl a l).toNat))
    (uniSpan [a] fun rd => [(d, BitVec.ofNat 32 (clz32 (rd a).toNat))])
def execPopc (d a : Nat) (s : State) : Host.Outcome State Fault Refusal :=
  s.issue (.popc d a) (lanewise d fun r l => BitVec.ofNat 32 (popN 32 (r.vl a l).toNat))
    (uniSpan [a] fun rd => [(d, BitVec.ofNat 32 (popN 32 (rd a).toNat))])
def execBrev (d a : Nat) (s : State) : Host.Outcome State Fault Refusal :=
  s.issue (.brev d a) (lanewise d fun r l => BitVec.ofNat 32 (brevN 32 (r.vl a l).toNat))
    (uniSpan [a] fun rd => [(d, BitVec.ofNat 32 (brevN 32 (rd a).toNat))])
def execBfe (d a b : Nat) (s : State) : Host.Outcome State Fault Refusal :=
  s.issue (.bfe d a b) (lanewise d fun r l => BitVec.ofNat 32 (bfe32 (r.vl a l).toNat (r.vl b l).toNat))
    (uniSpan [a, b] fun rd => [(d, BitVec.ofNat 32 (bfe32 (rd a).toNat (rd b).toNat))])
def execBfi (d a b : Nat) (s : State) : Host.Outcome State Fault Refusal :=
  s.issue (.bfi d a b) (lanewise d fun r l => BitVec.ofNat 32 (bfi32 (r.vl a l).toNat (r.vl b l).toNat (r.vl d l).toNat))
    (uniSpan [a, b, d] fun rd => [(d, BitVec.ofNat 32 (bfi32 (rd a).toNat (rd b).toNat (rd d).toNat))])
def execIntlv2 (d a b : Nat) (s : State) : Host.Outcome State Fault Refusal :=
  s.issue (.intlv2 d a b) (lanewise d fun r l => BitVec.ofNat 32 (intlvTwo 16 (r.vl a l).toNat (r.vl b l).toNat))
    (uniSpan [a, b] fun rd => [(d, BitVec.ofNat 32 (intlvTwo 16 (rd a).toNat (rd b).toNat))])
def execIntlv3 (d a b : Nat) (s : State) : Host.Outcome State Fault Refusal :=
  s.issue (.intlv3 d a b)
    (lanewise d fun r l => BitVec.ofNat 32 (intlvThree 10 (r.vl a l).toNat (r.vl b l).toNat (r.vl d l).toNat))
    (uniSpan [a, b, d] fun rd => [(d, BitVec.ofNat 32 (intlvThree 10 (rd a).toNat (rd b).toNat (rd d).toNat))])
def execMov (d a : Nat) (s : State) : Host.Outcome State Fault Refusal :=
  s.issue (.mov d a) (lanewise d fun r l => r.vl a l) (fun e _ => .done (e.x.setVF d (e.x.vf a)))
/-- MOVS, the low or, with .hi, the high half of a uniform register (R157). -/
def execMovs (d a : Nat) (hi : Bool) (s : State) : Host.Outcome State Fault Refusal :=
  let half (x : DWord) : Word := BitVec.ofNat 32 (if hi then x.toNat / 2 ^ 32 else x.toNat)
  s.issue (.movs d a hi) (lanewise d fun r _ => half (r.sr a))
    (fun e _ => .done (e.x.setVF d (Form.const (half (e.x.s.getD a 0)))))
/-- ICMP (R160). -/
def execIcmp (n : Bool) (c : ICond) (p a b : Nat) (s : State) : Host.Outcome State Fault Refusal :=
  s.issue (.icmp n c p a b)
    (fun e s =>
      let m := e.mode
      let pr := mPair m
      .done (s.modRegs e.gid fun r => r.setPr p e.lanes (maskOf fun l =>
        iCompare c n (intShape (mEtype m)).1 (e.g.regs.vu pr a l) (e.g.regs.vu pr b l))))
    (fun e _ =>
      if mPair e.x.mode then
        (if [a, a + 1, b, b + 1].all fun k => (e.x.vf k).uniform then
          .done (e.x.setPF p (.const (iCompare c n 64 (uRd true (fun k => (e.x.vf k).a) a) (uRd true (fun k => (e.x.vf k).a) b))))
         else .mat)
      else match cmpForms c n e.x.box (e.x.vf a) (e.x.vf b) with
        | some f => .done (e.x.setPF p f)
        | none => .mat)

/-! ### Majors 0x02 to 0x05 (R164) -/

/-- An immediate in every element of a unit (R164). -/
def immUnit (et : Nat) (imm : Int) : Nat :=
  let w := (intShape et).1
  packElems (if w = 64 then 1 else 32 / w) w (fun _ _ _ => wrapN imm w) 0 0 0
def execIaddi (d a : Nat) (imm : Int) (s : State) : Host.Outcome State Fault Refusal :=
  s.issue (.iaddi d a imm) (lanewiseE d a a fun et sat x _ _ => iUnit .add et sat x (immUnit et imm) 0)
    (fun e s =>
      if mSat e.x.mode then uniSpanE [a] d a a (fun et sat x _ _ => iUnit .add et sat x (immUnit et imm) 0) e s
      else if wide32 e.x.mode then .done (e.x.setVF d (Form.map2 (· + ·) (e.x.vf a) (Form.const (BitVec.ofInt 32 imm))))
      else .mat)
/-- ISHLI (R159, R164): the whole unsigned immediate is the amount. -/
def execIshli (d a imm : Nat) (s : State) : Host.Outcome State Fault Refusal :=
  s.issue (.ishli d a imm)
    (lanewiseE d a a fun et _ x _ _ =>
      let w := (intShape et).1
      packElems (if w = 64 then 1 else 32 / w) w (fun y _ _ => iElem .shl w false false y imm 0) x 0 0)
    (fun e _ => if wide32 e.x.mode then .done (e.x.setVF d (shlForm (e.x.vf a) imm)) else .mat)
def execMovi (d : Nat) (imm : Int) (s : State) : Host.Outcome State Fault Refusal :=
  s.issue (.movi d imm) (lanewise d fun _ _ => BitVec.ofInt 32 imm)
    (fun e _ => .done (e.x.setVF d (Form.const (BitVec.ofInt 32 imm))))
def execMovhi (d imm : Nat) (s : State) : Host.Outcome State Fault Refusal :=
  s.issue (.movhi d imm) (lanewise d fun r l => r.vl d l + BitVec.ofNat 32 (imm * 8192))
    (fun e _ => .done (e.x.setVF d (Form.map2 (· + ·) (e.x.vf d) (Form.const (BitVec.ofNat 32 (imm * 8192))))))

end Sys2Proof.Machine
end

