-- ==== Sys2Proof/Machine/Ident.lean ====
section
/-! DEFINITION. Identity, span status, MODE and select (R144 to R151, R165), predicate instructions (R167,
R168), uniform integer instructions (R152 to R155). -/
namespace Sys2Proof.Machine

/-! ### Identity and span status -/

/-- The value of IDX for a lane's item (R147). -/
def idxValue (l : Launch) (it : Item) (lane : Nat) (s : IdxSel) : Word :=
  match s with
  | .tx => BitVec.ofNat 32 it.tx
  | .ty => BitVec.ofNat 32 it.ty
  | .jx => BitVec.ofNat 32 it.jx
  | .jy => BitVec.ofNat 32 it.jy
  | .lin => BitVec.ofNat 32 (l.linear it.tx it.ty it.jx it.jy)
  | .j => BitVec.ofNat 32 (l.jOf it.jx it.jy)
  | .lane => BitVec.ofNat 32 lane
/-- The form of IDX in span mode; none where it materialises (R22, R147). -/
def idxForm (l : Launch) (s : IdxSel) : Option Form :=
  let w (n : Nat) : Word := BitVec.ofNat 32 n
  match s with
  | .tx => some ⟨0, 1, 0, 0, 0⟩
  | .ty => some ⟨0, 0, 1, 0, 0⟩
  | .jx => some ⟨0, 0, 0, 1, 0⟩
  | .jy => some ⟨0, 0, 0, 0, 1⟩
  | .lin => some ⟨0, w l.items, w (l.gx * l.items), 1, w l.tx⟩
  | .j => if l.quad then none else some ⟨0, 0, 0, 1, w l.tx⟩
  | .lane => none
def execIdx (d : Nat) (k : IdxSel) (s : State) : Host.Outcome State Fault Refusal :=
  s.issue (.idx d k)
    (fun e s => lanewise d (fun _ lane => match e.g.items.getD lane none with
      | some it => idxValue e.launch it lane k
      | none => 0) e s)
    (fun e _ => match idxForm e.launch k with
      | some f => .done (e.x.setVF d f)
      | none => .mat)

/-- SREAD's values that one launch, one span or the package has (R148): none for a group's own. -/
def State.sreadShared (s : State) (l : Launch) (core : Nat) (k : SrSel) : Option DWord :=
  let w (n : Nat) : DWord := BitVec.ofNat 64 n
  match k with
  | .width => some 64
  | .launch => some l.ident
  | .gt => some (w (s.gtOf core))
  | .gridx => some (w l.gx)
  | .gridy => some (w l.gy)
  | .teamx => some (w l.tx)
  | .teamy => some (w l.ty)
  | .lossx => some (BitVec.ofInt 64 l.lossx)
  | .context => some (w l.ctx)
  | .core => some (w core)
  | _ => none
/-- SREAD's values that a group has of its own (R148). -/
def GI.sreadOwn (e : GI) (k : SrSel) : DWord :=
  match k with
  | .team => BitVec.ofNat 64 (e.team.linear e.launch)
  | .group => BitVec.ofNat 64 e.g.num
  | .active => e.g.active
  | .helper => e.g.helpers
  | .astat => BitVec.ofNat 64 e.g.sticky.toNat
  | .texloops => BitVec.ofNat 64 e.g.texloops
  | _ => 0
def execSread (d : Nat) (clr : Bool) (k : SrSel) (s : State) : Host.Outcome State Fault Refusal :=
  s.issue (.sread d clr k)
    (fun e s =>
      let v := (s.sreadShared e.launch e.g.core k).getD (e.sreadOwn k)
      let s1 := s.modRegs e.gid fun r => r.setS d v
      .done (if clr then s1.modGroup e.gid fun g => { g with sticky := 0 } else s1))
    (fun e s => match s.sreadShared e.launch e.x.core k with
      | some v => .done { e.x with s := e.x.s.set d v }
      | none => .mat)
/-- MATER (R150): in span mode the groups resume at the position after it. -/
def execMater (s : State) : Host.Outcome State Fault Refusal :=
  s.issue .mater (fun _ s => .done s)
    (fun e s =>
      if !(e.x.flags.all fun n => n == 0) then .stay s
      else
        let s1 := e.enter s s e.x e.after
        match tget s1.spans e.sid with
        | some y => if y.park = .run ∧ y.pos = e.after then .stay (s1.materialise e.sid e.after) else .stay s1
        | none => .stay s1)
/-- SPANQ (R151). -/
def execSpanq (d : Nat) (s : State) : Host.Outcome State Fault Refusal :=
  s.issue (.spanq d) (fun e s => .done (s.modRegs e.gid fun r => r.setS d 0))
    (fun e s =>
      let n := (s.spansOn e.x.core).length
      let t := (e.x.teams e.launch).length
      .done { e.x with s := e.x.s.set d (BitVec.ofNat 64 (1 + min n 64 * 256 + 2 ^ 32 * min t (2 ^ 32 - 1))) })

/-! ### MODE (R144 to R146) -/

/-- The bits of MODE that a field mask names (R144, R145). -/
def modeBits (m : Nat) : Nat :=
  ([0xF, 0xF0, 0x700, 0x800, 0x1000, 0xE000, 0x10000, 0x1E0000].zipIdx.filter fun p => nbit m p.2).foldl (fun a p => a + p.1) 0
/-- MODE after a field image is written; none where a named field would be illegal (R48, R145). -/
def setModeTo (old : Word) (m image : Nat) : Option Word :=
  let bits := BitVec.ofNat 32 (modeBits m)
  let new := (old &&& ~~~bits) ||| (BitVec.ofNat 32 image &&& bits)
  if m ≠ 0 ∧ modeOk new.toNat then some new else none
/-- The image of SETMODE's immediate form; none where it is illegal (R145). -/
def modeImage (m imm : Nat) : Option Nat :=
  if m / 8 = 0 then some imm
  else if m % 8 = 0 ∧ imm < 1024 then some (imm * 2048)
  else none
/-- SETMODE's work on a MODE word. -/
def modeFx (old : Word) (m : Nat) (image : Option Nat) : Option Word := image.bind fun i => setModeTo old m i
def execSetmodeReg (m a : Nat) (s : State) : Host.Outcome State Fault Refusal :=
  s.issue (.setmodeReg m a)
    (fun e s => match modeFx e.mode m (some (nfld (e.g.regs.sr a).toNat 0 32)) with
      | some w => .done (s.modRegs e.gid fun r => { r with mode := w })
      | none => .trap s .illegal e.word 0 0)
    (fun e _ => match modeFx e.x.mode m (some (nfld (e.x.s.getD a 0).toNat 0 32)) with
      | some w => .done { e.x with mode := w }
      | none => .mat)
def execSetmodeImm (m imm : Nat) (s : State) : Host.Outcome State Fault Refusal :=
  s.issue (.setmodeImm m imm)
    (fun e s => match modeFx e.mode m (modeImage m imm) with
      | some w => .done (s.modRegs e.gid fun r => { r with mode := w })
      | none => .trap s .illegal e.word 0 0)
    (fun e _ => match modeFx e.x.mode m (modeImage m imm) with
      | some w => .done { e.x with mode := w }
      | none => .mat)
def execGetmode (d : Nat) (s : State) : Host.Outcome State Fault Refusal :=
  s.issue (.getmode d) (fun e s => .done (s.modRegs e.gid fun r => r.setS d (e.mode.setWidth 64)))
    (fun e _ => .done { e.x with s := e.x.s.set d (e.x.mode.setWidth 64) })

/-! ### Select (R165) -/

def execIsel (d a : Nat) (neg : Bool) (p : Nat) (s : State) : Host.Outcome State Fault Refusal :=
  s.issue (.isel d a neg p)
    (lanewise d fun r l => if inMask (r.pr p) l != neg then r.vl a l else r.vl d l)
    (fun e _ => match e.x.pf p with
      | .const b =>
        if (e.x.vf a).uniform && (e.x.vf d).uniform then .done (if b != neg then e.x.setVF d (e.x.vf a) else e.x) else .mat
      | .conj _ => .mat)

/-! ### Predicates (R167, R168) -/

/-- Group mode of a predicate instruction. -/
def predwise (d : Nat) (f : GI → Mask) (e : GI) (s : State) : Fx :=
  .done (s.modRegs e.gid fun r => r.setPr d e.lanes (f e))
/-- Span mode of a predicate instruction (R26). -/
def predSpan (d a b : Nat) (f : PForm → PForm → Option PForm) (e : SI) (_ : State) : SFx :=
  match f (e.x.pf a) (e.x.pf b) with
  | some p => .done (e.x.setPF d p)
  | none => .mat
def execPand (d a b : Nat) (s : State) : Host.Outcome State Fault Refusal :=
  s.issue (.pand d a b) (predwise d fun e => e.g.regs.pr a &&& e.g.regs.pr b) (predSpan d a b PForm.and)
def execPor (d a b : Nat) (s : State) : Host.Outcome State Fault Refusal :=
  s.issue (.por d a b) (predwise d fun e => e.g.regs.pr a ||| e.g.regs.pr b) (predSpan d a b PForm.or)
def execPxor (d a b : Nat) (s : State) : Host.Outcome State Fault Refusal :=
  s.issue (.pxor d a b) (predwise d fun e => e.g.regs.pr a ^^^ e.g.regs.pr b) (predSpan d a b PForm.xor)
def execPandn (d a b : Nat) (s : State) : Host.Outcome State Fault Refusal :=
  s.issue (.pandn d a b) (predwise d fun e => e.g.regs.pr a &&& ~~~(e.g.regs.pr b)) (predSpan d a b PForm.andn)
def execPcnt (d a : Nat) (s : State) : Host.Outcome State Fault Refusal :=
  s.issue (.pcnt d a)
    (fun e s => .done (s.modRegs e.gid fun r => r.setS d (BitVec.ofNat 64 (popN 64 (e.g.regs.pr a &&& e.g.active).toNat))))
    matSpan
def execPfirst (d a : Nat) (s : State) : Host.Outcome State Fault Refusal :=
  s.issue (.pfirst d a)
    (predwise d fun e => match (lanesOf (e.g.regs.pr a &&& e.g.active)).head? with
      | some l => BitVec.ofNat 64 (2 ^ l)
      | none => 0)
    matSpan
/-- PTOS; with .hi, lanes 64 to 127, which this part does not have, so zero (R11, R167). -/
def execPtos (d a : Nat) (hi : Bool) (s : State) : Host.Outcome State Fault Refusal :=
  s.issue (.ptos d a hi)
    (fun e s => .done (s.modRegs e.gid fun r => r.setS d (if hi then 0 else e.g.regs.pr a &&& e.g.active)))
    matSpan
/-- STOP; with .hi it writes no lane (R11, R167). -/
def execStop (d a : Nat) (hi : Bool) (s : State) : Host.Outcome State Fault Refusal :=
  s.issue (.stop d a hi)
    (fun e s => .done (if hi then s else s.modRegs e.gid fun r => r.setPr d e.lanes (e.g.regs.sr a)))
    matSpan

/-! ### Uniform instructions (R152 to R155) -/

/-- A uniform instruction: the result from two operands, and the condition flags where it writes them. -/
def uniOp (i : Instr) (d a b : Nat) (f : DWord → DWord → DWord) (cc : Option (DWord → DWord → CC)) (s : State) :
    Host.Outcome State Fault Refusal :=
  s.issue i
    (fun e s => .done (s.modRegs e.gid fun r =>
      let x := e.g.regs.sr a
      let y := e.g.regs.sr b
      let r1 := r.setS d (f x y)
      match cc with
      | some c => { r1 with cc := c x y }
      | none => r1))
    (fun e _ =>
      let x := e.x.s.getD a 0
      let y := e.x.s.getD b 0
      .done { e.x with s := e.x.s.set d (f x y), cc := match cc with
        | some c => c x y
        | none => e.x.cc })
/-- The flags that an instruction other than SADD, SSUB and SMUL gives with .f (R153). -/
def ccIf (f : Bool) (g : DWord → DWord → DWord) : Option (DWord → DWord → CC) :=
  if f then some fun x y => ccOther (g x y) else none
def execSadd (d a b : Nat) (f : Bool) (s : State) : Host.Outcome State Fault Refusal :=
  uniOp (.sadd d a b f) d a b (· + ·) (if f then some ccAdd else none) s
def execSsub (d a b : Nat) (f : Bool) (s : State) : Host.Outcome State Fault Refusal :=
  uniOp (.ssub d a b f) d a b (· - ·) (if f then some ccSub else none) s
def execSmul (d a b : Nat) (f : Bool) (s : State) : Host.Outcome State Fault Refusal :=
  uniOp (.smul d a b f) d a b (· * ·) (if f then some ccMul else none) s
def execSmulh (d a b : Nat) (n f : Bool) (s : State) : Host.Outcome State Fault Refusal :=
  let g := if n then mulhU else mulhS
  uniOp (.smulh d a b n f) d a b g (ccIf f g) s
def execSand (d a b : Nat) (f : Bool) (s : State) : Host.Outcome State Fault Refusal :=
  uniOp (.sand d a b f) d a b (· &&& ·) (ccIf f (· &&& ·)) s
def execSor (d a b : Nat) (f : Bool) (s : State) : Host.Outcome State Fault Refusal :=
  uniOp (.sor d a b f) d a b (· ||| ·) (ccIf f (· ||| ·)) s
def execSxor (d a b : Nat) (f : Bool) (s : State) : Host.Outcome State Fault Refusal :=
  uniOp (.sxor d a b f) d a b (· ^^^ ·) (ccIf f (· ^^^ ·)) s
def execSshl (d a b : Nat) (f : Bool) (s : State) : Host.Outcome State Fault Refusal :=
  uniOp (.sshl d a b f) d a b shlU (ccIf f shlU) s
def execSshr (d a b : Nat) (f : Bool) (s : State) : Host.Outcome State Fault Refusal :=
  uniOp (.sshr d a b f) d a b shrU (ccIf f shrU) s
def execSsra (d a b : Nat) (f : Bool) (s : State) : Host.Outcome State Fault Refusal :=
  uniOp (.ssra d a b f) d a b sraU (ccIf f sraU) s
def execSmin (d a b : Nat) (n f : Bool) (s : State) : Host.Outcome State Fault Refusal :=
  uniOp (.smin d a b n f) d a b (minU n) (ccIf f (minU n)) s
def execSmax (d a b : Nat) (n f : Bool) (s : State) : Host.Outcome State Fault Refusal :=
  uniOp (.smax d a b n f) d a b (maxU n) (ccIf f (maxU n)) s
/-- SCMP writes CC alone (R153). -/
def execScmp (a b : Nat) (s : State) : Host.Outcome State Fault Refusal :=
  s.issue (.scmp a b)
    (fun e s => .done (s.modRegs e.gid fun r => { r with cc := ccSub (e.g.regs.sr a) (e.g.regs.sr b) }))
    (fun e _ => .done { e.x with cc := ccSub (e.x.s.getD a 0) (e.x.s.getD b 0) })
def execSsel (d a b : Nat) (c : SCond) (s : State) : Host.Outcome State Fault Refusal :=
  s.issue (.ssel d a b c)
    (fun e s => .done (s.modRegs e.gid fun r => r.setS d (if c.holds e.g.regs.cc then e.g.regs.sr a else e.g.regs.sr b)))
    (fun e _ => .done { e.x with s := e.x.s.set d (if c.holds e.x.cc then e.x.s.getD a 0 else e.x.s.getD b 0) })
def execSmov (d a : Nat) (s : State) : Host.Outcome State Fault Refusal :=
  uniOp (.smov d a) d a a (fun x _ => x) none s
def execSmovi (d : Nat) (imm : Int) (s : State) : Host.Outcome State Fault Refusal :=
  uniOp (.smovi d imm) d d d (fun _ _ => BitVec.ofInt 64 imm) none s
def execSaddImm (d a : Nat) (imm : Int) (s : State) : Host.Outcome State Fault Refusal :=
  uniOp (.saddImm d a imm) d a a (fun x _ => x + BitVec.ofInt 64 imm) none s
def execSmovhi (d a imm : Nat) (s : State) : Host.Outcome State Fault Refusal :=
  uniOp (.smovhi d a imm) d a a (fun x _ => x <<< 14 ||| BitVec.ofNat 64 imm) none s

end Sys2Proof.Machine
end

