-- ==== Sys2Proof/Machine/Special.lean ====
section
/-! DEFINITION. Special functions (R88, R89): the exact cases, and elsewhere the device's own result, a free
value kept to the bound of R88. The bound is judged against an enclosure in fixed point with 160 fraction
bits, whose error lies far below it. -/
namespace Sys2Proof.Machine

/-- The special functions (R185), in minor order. -/
inductive SFun where
  | rcp | rsq | sqrt | exp2 | log2 | sint | cost | tanh
  deriving DecidableEq, Repr

/-- The number of a special function, as `Config.special` takes it. -/
def SFun.num : SFun → Nat
  | .rcp => 0
  | .rsq => 1
  | .sqrt => 2
  | .exp2 => 3
  | .log2 => 4
  | .sint => 5
  | .cost => 6
  | .tanh => 7

/-- One in fixed point. -/
def fxOne : Nat := 2 ^ 160
/-- ln 2, π and 1 / ln 2 in fixed point, rounded down. -/
def fxLn2 : Nat := 0xb17217f7d1cf79abc9e3b39803f2f6af40f34326
def fxPi : Nat := 0x3243f6a8885a308d313198a2e03707344a4093822
def fxLog2e : Nat := 0x171547652b82fe1777d0ffda0d23a7d11d6aef551

/-- A product in fixed point. -/
def fxMul (a b : Nat) : Nat := a * b / fxOne

/-- Σ y^k / k! from the term `t` of index `k` on. -/
def fxExpSum : Nat → Nat → Nat → Nat → Nat
  | 0, _, _, _ => 0
  | n + 1, y, k, t => t + fxExpSum n y (k + 1) (fxMul t y / (k + 1))

/-- 2^f for f in [0, 1). -/
def fxExp2 (f : Nat) : Nat := fxExpSum 44 (fxMul f fxLn2) 0 fxOne

/-- The alternating sum of the sine or cosine series from term `t` of index `k` on. -/
def fxTrigSum : Nat → Nat → Nat → Nat → Int
  | 0, _, _, _ => 0
  | n + 1, y2, k, t => (t : Int) - fxTrigSum n y2 (k + 2) (fxMul t y2 / ((k + 1) * (k + 2)))

/-- sin and cos of (π/2)·g for g in [0, 1]. -/
def fxSinQ (g : Nat) : Int :=
  let y := fxMul g (fxPi / 2)
  fxTrigSum 24 (fxMul y y) 1 y
def fxCosQ (g : Nat) : Int :=
  let y := fxMul g (fxPi / 2)
  fxTrigSum 24 (fxMul y y) 0 fxOne

/-- The binary digits of log2 m for m in [1, 2), by repeated squaring: `n` digits, the first worth `w`. -/
def fxLog2 : Nat → Nat → Nat → Nat
  | 0, _, _ => 0
  | n + 1, m, w =>
    let s := fxMul m m
    if 2 * fxOne ≤ s then w + fxLog2 n (s / 2) (w / 2) else fxLog2 n s (w / 2)

/-- Integer square root, digit by digit: `b` is the digit under way. -/
def isqrtAux : Nat → Nat → Nat → Nat
  | 0, _, r => r
  | n + 1, x, r =>
    let c := r + 2 ^ n
    if c * c ≤ x then isqrtAux n x c else isqrtAux n x r
/-- Floor of the square root. -/
def isqrt (x : Nat) : Nat := isqrtAux (Nat.log2 x / 2 + 1) x 0

/-- √(n·2^e) as an exact result, with every digit below the 80th in a sticky unit. -/
def exSqrt (n : Nat) (e : Int) : Exact :=
  let o : Nat := if e % 2 = 0 then 0 else 1
  let s := 200
  let x := n * 2 ^ (o + 2 * s)
  let r := isqrt x
  .val false (2 * r + (if r * r = x then 0 else 1)) 1 ((e - o) / 2 - s - 1)

/-- A signed fixed-point number times 2^k, with half a unit that stands for the digits cut off: beyond R89's exact cases no
result lies on the fixed point's grid, so each is inexact (R70). -/
def fxExact (i : Int) (k : Int) : Exact := Exact.ofInt (2 * i + 1) (k - 161) false

/-- Floor and fraction of a finite value, the fraction in fixed point and whether it is exact there. -/
def fracOf (neg : Bool) (m : Nat) (e : Int) : Int × Nat :=
  let i := finAt neg m (max e (-400)) (min e 0 |> max (-400))
  let d : Int := (2 ^ (-(min e 0 |> max (-400))).toNat : Nat)
  (i / d, (i % d).toNat * fxOne / d.toNat)

/-- The exact value of a function at a nonzero finite input, within 2^-90 of its size or of 1: its
enclosure. -/
def sApprox (fn : SFun) (neg : Bool) (m : Nat) (e : Int) : Exact :=
  match fn with
  | .rcp => .val neg 1 m (-e)
  | .rsq =>
    let o : Nat := if e % 2 = 0 then 0 else 1
    let q := 2 ^ 400 / (m * 2 ^ o)
    .val false (isqrt q) 1 (-200 - (e - o) / 2)
  | .sqrt => exSqrt m e
  | .exp2 =>
    let x := if 10 < (Nat.log2 m : Int) + e then (if neg then (-1024, 0) else ((1024 : Int), 0)) else fracOf neg m e
    fxExact (fxExp2 x.2) x.1
  | .log2 =>
    let l := Nat.log2 m
    let f := fxLog2 90 (m * fxOne / 2 ^ l) (fxOne / 2)
    fxExact (((l : Int) + e) * fxOne + f) 0
  | .sint =>
    let q := (fracOf neg m e).2 * 4
    let g := q % fxOne
    match q / fxOne with
    | 0 => fxExact (fxSinQ g) 0
    | 1 => fxExact (fxCosQ g) 0
    | 2 => fxExact (-fxSinQ g) 0
    | _ => fxExact (-fxCosQ g) 0
  | .cost =>
    let q := (fracOf neg m e).2 * 4
    let g := q % fxOne
    match q / fxOne with
    | 0 => fxExact (fxCosQ g) 0
    | 1 => fxExact (-fxSinQ g) 0
    | 2 => fxExact (-fxCosQ g) 0
    | _ => fxExact (fxSinQ g) 0
  | .tanh =>
    -- |x| below 9 (R89); y = 2^(2|x|/ln 2)
    let ax := finAt false m (max e (-300)) (min e 0 |> max (-300))
    let d := 2 ^ (-(min e 0 |> max (-300))).toNat
    let t := 2 * ax.toNat * fxLog2e / d
    let y := fxExp2 (t % fxOne) * 2 ^ (t / fxOne)
    .val neg (y - fxOne) (y + fxOne) 0

/-- The exact cases of R89 at a finite input beyond the table's rows, as a pattern. -/
def sExact (fn : SFun) (f : Fmt) (neg : Bool) (m : Nat) (e : Int) : Option Exact :=
  match fn with
  | .exp2 => if m % 2 ^ (-(min e 0)).toNat = 0 ∧ (Nat.log2 m : Int) + e ≤ 10
             then some (.val false 1 1 (fracOf neg m e).1) else none
  | .log2 => if m = 2 ^ Nat.log2 m then some (Exact.ofInt ((Nat.log2 m : Int) + e) 0 false) else none
  | .sint =>
    let q := (fracOf neg m e).2 * 4
    if q % fxOne = 0 then
      match q / fxOne with
      | 0 => some (.zero false)
      | 1 => some (.val false 1 1 0)
      | 2 => some (.zero false)
      | _ => some (.val true 1 1 0)
    else none
  | .cost =>
    let q := (fracOf neg m e).2 * 4
    if q % fxOne = 0 then
      match q / fxOne with
      | 0 => some (.val false 1 1 0)
      | 1 => some (.zero false)
      | 2 => some (.val true 1 1 0)
      | _ => some (.zero false)
    else none
  | .tanh =>
    -- |x| ≥ 9.0 in F32, ≥ 4.5 in F16: twice |x| is at least 18 or 9
    let lim : Nat := if f.mbits = 23 then 18 else 9
    let big := if 0 ≤ e + 1 then decide (lim ≤ m * 2 ^ (min (e + 1) 200).toNat)
               else decide (lim * 2 ^ (-(e + 1)).toNat ≤ m)
    if big then some (.val neg 1 1 0) else none
  | _ => none

/-- The bound of R88 at exact value n/d·2^e: true when a distance num/den is within it. -/
def sBound (fn : SFun) (f : Fmt) (neg : Bool) (m : Nat) (ex : Int) (y : Exact) : Nat × Int :=
  let f32 := f.mbits == 23
  let quantum : Int := match y with
    | .val _ n d e => max (ratLog n d + e) f.emin - f.mbits
    | _ => f.emin - f.mbits
  let abs : Nat × Int := (1, if f32 then -22 else -11)
  match fn with
  | .rcp => (1, quantum)
  | .rsq => (if f32 then 2 else 1, quantum)
  | .sqrt => (0, quantum)
  | .exp2 => (if f32 then 2 else 1, quantum)
  | .log2 =>
    -- inside [0.5, 2]: the exponent of m·2^ex is −1 or 0, or the value is 2
    let l := (Nat.log2 m : Int) + ex
    if !neg && (l == -1 || l == 0 || (l == 1 && m == 2 ^ Nat.log2 m)) then abs
    else (if f32 then 2 else 1, quantum)
  | .sint => abs
  | .cost => abs
  | .tanh => if f32 then (if (Nat.log2 m : Int) + ex < -12 then abs else (2, quantum)) else (1, quantum)

/-- Whether candidate pattern `c` lies within `b·2^q` of the exact value, less a margin of one part in 2^20
that covers the enclosure. -/
def sWithin (f : Fmt) (c : Nat) (y : Exact) (b : Nat × Int) : Bool :=
  match f.value c, y with
  | .fin n m e, .val yn p d g =>
    let lo := min (min e g) (b.2 - 20)
    let cv := finAt n m e lo * (d : Int)
    let yv := finAt yn p g lo
    let lim := finAt false (b.1 * (2 ^ 20 - 1)) (b.2 - 20) lo * (d : Int)
    decide ((cv - yv).natAbs ≤ lim.natAbs)
  | _, _ => false

/-- Whether a result is tiny in a format (R70). -/
def Exact.tiny (y : Exact) (f : Fmt) : Bool :=
  match y with
  | .val _ n d e => decide (ratLog n d + e < f.emin)
  | _ => false

/-- One element of a special function (R88, R89): FTZ and SAT from the environment, the rounding mode for
SQRT alone; `r` is SQRT's draw. -/
def sElem (fn : SFun) (f : Fmt) (env : FEnv) (a r : Nat) : Nat × Exc :=
  let env' : FEnv := if fn = .sqrt then env else { env with rnd := .rn }
  let out (x : Exact) (c : Exc) : Nat × Exc :=
    let q := f.round env' x r
    (q.1, c ||| q.2)
  match f.input env.ftz a with
  | .nan s => (f.nanPat, if s then excIV else 0)
  | .inf n =>
    match fn with
    | .rcp => out (.zero n) 0
    | .rsq => if n then (f.nanPat, excIV) else out (.zero false) 0
    | .sqrt => if n then (f.nanPat, excIV) else out (.inf false) 0
    | .exp2 => if n then out (.zero false) 0 else out (.inf false) 0
    | .log2 => if n then (f.nanPat, excIV) else out (.inf false) 0
    | .sint => (f.nanPat, excIV)
    | .cost => (f.nanPat, excIV)
    | .tanh => out (.val n 1 1 0) 0
  | .fin n m e =>
    if m = 0 then
      match fn with
      | .rcp => out (.inf n) excDZ
      | .rsq => out (.inf n) excDZ
      | .sqrt => out (.zero n) 0
      | .exp2 => out (.val false 1 1 0) 0
      | .log2 => out (.inf true) excDZ
      | .sint => out (.zero n) 0
      | .cost => out (.val false 1 1 0) 0
      | .tanh => out (.zero n) 0
    else if n && (fn = .rsq || fn = .sqrt || fn = .log2) then (f.nanPat, excIV)
    else
      match sExact fn f n m e with
      | some x => out x 0
      | none =>
        let y := sApprox fn n m e
        let base := out y 0
        if fn = .sqrt || (fn = .rcp && f.mbits != 23) then base
        else
          let c := Config.special fn.num (f.mbits == 23) a
          match f.value base.1 with
          | .fin _ _ _ =>
            if base.2 &&& excOF = 0 && c < 2 * f.signAt && sWithin f c y (sBound fn f n m e y) then
              let uf : Exc := if y.tiny f && c != base.1 then excUF else 0
              if env.ftz && c % f.signAt < 2 ^ f.mbits && c % f.signAt != 0 then (c / f.signAt * f.signAt, base.2 ||| excUF)
              else (c, base.2 ||| uf)
            else base
          | _ => base

end Sys2Proof.Machine
end

