-- ==== Sys2Proof/Machine/FloatOps.lean ====
section
/-! DEFINITION. Float arithmetic (R169 to R177), conversion and byte permutation (R178 to R181), quantising
conversion and the generator (R182 to R184), special functions (R185). -/
namespace Sys2Proof.Machine

/-! ### Elements with draws and exceptions -/

/-- `n` elements from element `k` on, in ascending order, each with its draw under SR (R75): the packed
result, the exceptions, the generator state after them. -/
def elemsFrom (w : Nat) (sr : Bool) (g : Nat → Nat → Nat × Exc) : Nat → Nat → Word → Nat × Exc × Word
  | _, 0, x => (0, 0, x)
  | k, n + 1, x =>
    let x1 := if sr then nextRandom x else x
    let y := g k (drawBits x1)
    let r := elemsFrom w sr g (k + 1) n x1
    (y.1 + 2 ^ w * r.1, y.2 ||| r.2.1, r.2.2)
/-- Every active lane's elements (R75): excluded lanes compute and draw, inactive lanes do neither. -/
def laneElems (e : GI) (sr : Bool) (w n : Nat) (g : Nat → Nat → Nat → Nat × Exc) : List (Nat × Exc × Word) :=
  laneIx.map fun l =>
    let x := e.g.rng.getD l 1
    if inMask e.g.active l then elemsFrom w sr (g l) 0 n x else (0, 0, x)
/-- The union of the exceptions over the lanes that write (R77), and those lanes. -/
def excOf (m : Mask) (outs : List (Nat × Exc × Word)) : Exc × Mask :=
  ((lanesOf m).foldl (fun a l => a ||| (outs.getD l (0, 0, 1)).2.1) 0,
   maskOf fun l => inMask m l && (outs.getD l (0, 0, 1)).2.1 != 0)
/-- Whether an instruction draws: RND is SR and it rounds. -/
def drawsUnder (m : Word) : Bool := mRnd m == .sr

/-- Group mode of a Short float instruction: `put` places a lane's packed result. -/
def floatFx (sr : Bool) (w n : Nat) (put : Regs → (Nat → Nat) → Regs) (g : Nat → Nat → Nat → Nat × Exc) (e : GI)
    (s : State) : Fx :=
  let outs := laneElems e sr w n g
  let x := excOf e.lanes outs
  let s1 := s.modGroup e.gid fun gr =>
    { gr with
      regs := put gr.regs fun l => (outs.getD l (0, 0, 1)).1
      rng := if sr then outs.map fun o => o.2.2 else gr.rng }
  .done (s1.raised e x.1 x.2)

/-- The exceptions of uniform float work of a span take effect (R60 code E, R78). -/
def SI.arith (e : SI) (s : State) (exc : Exc) : State :=
  if exc ≠ 0 ∧ mAexc e.x.mode then
    s.logRecord e.launch.ctx (recWord 0x01 exc.toNat 0 0 true) (nfld e.x.pos.h 2 54 + 2 ^ 54 * e.x.core) 0 (s.gtOf e.x.core)
  else s
/-- Span mode of a float instruction: uniform sources and no SR, the result computed once (R25, R177). -/
def floatSpan (srcs : List Nat) (w n : Nat) (put : Nat → List (Nat × Word)) (g : (Nat → Word) → Nat → Nat → Nat × Exc)
    (e : SI) (s : State) : SFx :=
  if mRnd e.x.mode = .sr ∨ (srcs.any fun k => !(e.x.vf k).uniform) then .mat
  else
    let r := elemsFrom w false (g fun k => (e.x.vf k).a) 0 n 1
    let y := (put r.1).foldl (fun x p => x.setVF p.1 (Form.const p.2)) e.x
    .doneS (e.arith s r.2.1) { y with sticky := y.sticky ||| r.2.1 }

/-- The float format, element width and count of MODE's ETYPE. -/
def modeFmt (m : Word) : Fmt := ((mEt m).fmt).getD fmtF32
def modeW (m : Word) : Nat := (mEt m).width
def modeN (m : Word) : Nat := (mEt m).count

/-- A float instruction on one register of elements: `f` from the format, the environment, three elements and
the draw. -/
def floatOp (i : Instr) (rounds : Bool) (srcs : List Nat) (d a b : Nat)
    (f : Fmt → FEnv → Nat → Nat → Nat → Nat → Nat × Exc) (s : State) : Host.Outcome State Fault Refusal :=
  let el (m : Word) (x : Word) (k : Nat) : Nat := nfld x.toNat (modeW m * k) (modeW m)
  s.issue i
    (fun e s =>
      let m := e.mode
      let r := e.g.regs
      floatFx (rounds && drawsUnder m) (modeW m) (modeN m)
        (fun q val => q.setV d e.lanes fun l => BitVec.ofNat 32 (val l))
        (fun l k x => f (modeFmt m) (mEnv m) (el m (r.vl a l) k) (el m (r.vl b l) k) (el m (r.vl d l) k) x) e s)
    (fun e s =>
      let m := e.x.mode
      floatSpan srcs (modeW m) (modeN m) (fun x => [(d, BitVec.ofNat 32 x)])
        (fun rd k x => f (modeFmt m) (mEnv m) (el m (rd a) k) (el m (rd b) k) (el m (rd d) k) x) e s)

/-! ### Major 0x10 -/

def execFadd (d a b : Nat) (s : State) : Host.Outcome State Fault Refusal :=
  floatOp (.fadd d a b) true [a, b] d a b (fun f v x y z r => fElem f v .add x y z r) s
def execFsub (d a b : Nat) (s : State) : Host.Outcome State Fault Refusal :=
  floatOp (.fsub d a b) true [a, b] d a b (fun f v x y z r => fElem f v .sub x y z r) s
def execFmul (d a b : Nat) (s : State) : Host.Outcome State Fault Refusal :=
  floatOp (.fmul d a b) true [a, b] d a b (fun f v x y z r => fElem f v .mul x y z r) s
def execFmad (d a b : Nat) (s : State) : Host.Outcome State Fault Refusal :=
  floatOp (.fmad d a b) true [a, b, d] d a b (fun f v x y z r => fElem f v .mad x y z r) s
def execFmsb (d a b : Nat) (s : State) : Host.Outcome State Fault Refusal :=
  floatOp (.fmsb d a b) true [a, b, d] d a b (fun f v x y z r => fElem f v .msb x y z r) s
def execFmin (d a b : Nat) (s : State) : Host.Outcome State Fault Refusal :=
  floatOp (.fmin d a b) false [a, b] d a b (fun f v x y z r => fElem f v .fmin x y z r) s
def execFmax (d a b : Nat) (s : State) : Host.Outcome State Fault Refusal :=
  floatOp (.fmax d a b) false [a, b] d a b (fun f v x y z r => fElem f v .fmax x y z r) s
/-- FNEG copies bits with the sign inverted (R64, R170). -/
def execFneg (d a : Nat) (s : State) : Host.Outcome State Fault Refusal :=
  floatOp (.fneg d a) false [a] d a a (fun f _ x _ _ _ => ((x + f.signAt) % (2 * f.signAt), 0)) s
def execFabs (d a : Nat) (s : State) : Host.Outcome State Fault Refusal :=
  floatOp (.fabs d a) false [a] d a a (fun f _ x _ _ _ => (x % f.signAt, 0)) s
/-- FCMP (R172), on F32 alone. -/
def execFcmp (c : FCond) (p a b : Nat) (s : State) : Host.Outcome State Fault Refusal :=
  s.issue (.fcmp c p a b)
    (fun e s =>
      let r := e.g.regs
      floatFx false 32 1 (fun q val => q.setPr p e.lanes (maskOf fun l => val l == 1))
        (fun l _ _ =>
          let y := fCompare c (mFtz e.mode) (r.vl a l).toNat (r.vl b l).toNat
          (b2n y.1, y.2)) e s)
    (fun e s =>
      if mRnd e.x.mode = .sr ∨ !(e.x.vf a).uniform ∨ !(e.x.vf b).uniform then .mat
      else
        let y := fCompare c (mFtz e.x.mode) (e.x.vf a).a.toNat (e.x.vf b).a.toNat
        let x := e.x.setPF p (.const y.1)
        .doneS (e.arith s y.2) { x with sticky := x.sticky ||| y.2 })
def execFclass (d a : Nat) (s : State) : Host.Outcome State Fault Refusal :=
  floatOp (.fclass d a) false [a] d a a (fun f _ x _ _ _ => (fClass f x, 0)) s
def execFrndi (d a : Nat) (s : State) : Host.Outcome State Fault Refusal :=
  floatOp (.frndi d a) true [a] d a a (fun f v x _ _ r => fRndi f v x r) s
/-- FSCALE (R175): the exponent is the lane value, or the 16-bit element, read signed. -/
def execFscale (d a b : Nat) (s : State) : Host.Outcome State Fault Refusal :=
  floatOp (.fscale d a b) true [a, b] d a b (fun f v x y _ r => fScale f v x (sgn y f.width) r) s
/-- FDOT2 (R176): one F32 result from two pairs and d. -/
def execFdot2 (d a b : Nat) (s : State) : Host.Outcome State Fault Refusal :=
  s.issue (.fdot2 d a b)
    (fun e s =>
      let m := e.mode
      let r := e.g.regs
      floatFx (drawsUnder m) 32 1 (fun q val => q.setV d e.lanes fun l => BitVec.ofNat 32 (val l))
        (fun l _ x => fDot2 (modeFmt m) (mEnv m) (r.vl a l).toNat (r.vl b l).toNat (r.vl d l).toNat x) e s)
    (fun e s =>
      let m := e.x.mode
      floatSpan [a, b, d] 32 1 (fun x => [(d, BitVec.ofNat 32 x)])
        (fun rd _ x => fDot2 (modeFmt m) (mEnv m) (rd a).toNat (rd b).toNat (rd d).toNat x) e s)

/-! ### Conversion (R178 to R180) -/

/-- Where CVT's elements lie: elements converted, first source element, first destination element, whether
other elements of d are kept (R179). -/
def cvtShape (src dst : EType) (k : Nat) : Nat × Nat × Nat × Bool :=
  if src.count = dst.count then (src.count, 0, 0, false)
  else if src.count < dst.count then (src.count, 0, k * src.count, true)
  else (dst.count, k * dst.count, 0, false)
/-- The destination unit after CVT: the converted elements in place, the others kept where the form keeps
them. -/
def cvtPlace (dst : EType) (n off : Nat) (keep : Bool) (old conv : Nat) : Nat :=
  let lo := dst.width * off
  let bits := dst.width * n
  if keep then old - nfld old lo bits * 2 ^ lo + conv * 2 ^ lo else conv
/-- CVT and CVTI (R179, R180), under an environment. -/
def cvtOp (i : Instr) (d a k : Nat) (t : EType) (env : Word → FEnv) (s : State) : Host.Outcome State Fault Refusal :=
  let dp := t.width == 64
  s.issue i
    (fun e s =>
      let m := e.mode
      let src := mEt m
      let sh := cvtShape src t k
      let r := e.g.regs
      floatFx (convDraws src t && (env m).rnd == .sr) t.width sh.1
        (fun q val => q.setU dp d e.lanes fun l => cvtPlace t sh.1 sh.2.2.1 sh.2.2.2 (q.vu dp d l) (val l))
        (fun l j x => conv src t (env m) (nfld (r.vu (src.width == 64) a l) (src.width * (sh.2.1 + j)) src.width) x) e s)
    (fun e s =>
      let m := e.x.mode
      let src := mEt m
      let sh := cvtShape src t k
      let sp := src.width == 64
      if (env m).rnd = .sr then .mat
      else
        let old := uRd dp (fun n => (e.x.vf n).a) d
        floatSpan ((if sp then [a, a + 1] else [a]) ++ (if sh.2.2.2 then (if dp then [d, d + 1] else [d]) else []))
          t.width sh.1 (fun x => uWr dp d (cvtPlace t sh.1 sh.2.2.1 sh.2.2.2 old x))
          (fun rd j x => conv src t (env m) (nfld (uRd sp rd a) (src.width * (sh.2.1 + j)) src.width) x) e s)
def execCvt (d a k : Nat) (t : EType) (s : State) : Host.Outcome State Fault Refusal :=
  cvtOp (.cvt d a k t) d a k t mEnv s
/-- CVTI: CVT with k = 0, rounding under its own mode (R179). -/
def execCvti (d a : Nat) (r : Rnd) (t : EType) (s : State) : Host.Outcome State Fault Refusal :=
  cvtOp (.cvti d a r t) d a 0 t (fun m => { mEnv m with rnd := r }) s

/-- PACKB on two values (R181). -/
def packbW (et a b : Nat) : Nat :=
  let w := if et = 5 then 4 else if [3, 4, 10, 11].contains et then 8 else 16
  let n := 32 / w
  (List.range (n / 2)).foldl (fun acc k =>
    acc + nfld a (2 * k * w) w * 2 ^ (k * w) + nfld b (2 * k * w) w * 2 ^ ((n / 2 + k) * w)) 0
/-- PERMB on the selectors b and the bytes of a and of the old d (R181). -/
def permbW (a b d : Nat) : Nat :=
  (List.range 4).foldl (fun acc i =>
    let sel := nfld b (8 * i) 8
    let x := nfld (a + 2 ^ 32 * d) (8 * (sel % 8)) 8
    let y := if nbit sel 3 then 0 else if nbit sel 7 then (if nbit x 7 then 255 else 0) else x
    acc + y * 2 ^ (8 * i)) 0
def execPackb (d a b : Nat) (s : State) : Host.Outcome State Fault Refusal :=
  s.issue (.packb d a b)
    (fun e s => lanewise d (fun r l => BitVec.ofNat 32 (packbW (mEtype e.mode) (r.vl a l).toNat (r.vl b l).toNat)) e s)
    (fun e s => uniSpan [a, b] (fun rd => [(d, BitVec.ofNat 32 (packbW (mEtype e.x.mode) (rd a).toNat (rd b).toNat))]) e s)
def execPermb (d a b : Nat) (s : State) : Host.Outcome State Fault Refusal :=
  s.issue (.permb d a b)
    (lanewise d fun r l => BitVec.ofNat 32 (permbW (r.vl a l).toNat (r.vl b l).toNat (r.vl d l).toNat))
    (uniSpan [a, b, d] fun rd => [(d, BitVec.ofNat 32 (permbW (rd a).toNat (rd b).toNat (rd d).toNat))])

/-! ### Quantising conversion and the generator -/

/-- A Long B float instruction: its results, exceptions and draws are formed at issue from the operands read
there (R108); they land at completion. -/
def longFloat (d : Nat) (sr : Bool) (w n : Nat) (g : Nat → Nat → Nat → Nat × Exc) (e : GI) (s : State) : Fx :=
  let outs := laneElems e sr w n g
  let x := excOf e.lanes outs
  let s1 := s.modGroup e.gid fun gr => if sr then { gr with rng := outs.map fun o => o.2.2 } else gr
  let vals := outs.map fun o => (BitVec.ofNat 32 o.1 : Word)
  .done (e.startOp s1 fun o => { o with writes := [.vec d e.lanes vals], exc := x.1, excLanes := x.2 }).2
def execQcvt (d a c : Nat) (s : State) : Host.Outcome State Fault Refusal :=
  s.issue (.qcvt d a c)
    (fun e s =>
      let m := e.mode
      let r := e.g.regs
      longFloat d (drawsUnder m) (modeW m) (modeN m)
        (fun l k x => qElem (modeFmt m) (mEnv m) (r.vl (a + k) l).toNat (nfld (r.sr c).toNat 0 32) x) e s)
    matSpan
def execSetseed (a b : Nat) (s : State) : Host.Outcome State Fault Refusal :=
  s.issue (.setseed a b)
    (fun e s =>
      let r := e.g.regs
      let seeds : List Word := laneIx.map fun l =>
        if inMask e.lanes l then seedOf (r.vl a l ^^^ (r.sr b).setWidth 32) else e.g.rng.getD l 1
      .done (s.modGroup e.gid fun g => { g with rng := seeds }))
    matSpan

/-! ### Special functions (R185) -/

def specialOp (fn : SFun) (i : Instr) (d a : Nat) (s : State) : Host.Outcome State Fault Refusal :=
  s.issue i
    (fun e s =>
      let m := e.mode
      longFloat d (fn = .sqrt && drawsUnder m) (modeW m) (modeN m)
        (fun l k x => sElem fn (modeFmt m) (mEnv m) (nfld (e.g.regs.vl a l).toNat (modeW m * k) (modeW m)) x) e s)
    matSpan
def execRcp (d a : Nat) (s : State) : Host.Outcome State Fault Refusal := specialOp .rcp (.rcp d a) d a s
def execRsq (d a : Nat) (s : State) : Host.Outcome State Fault Refusal := specialOp .rsq (.rsq d a) d a s
def execSqrt (d a : Nat) (s : State) : Host.Outcome State Fault Refusal := specialOp .sqrt (.sqrt d a) d a s
def execExp2 (d a : Nat) (s : State) : Host.Outcome State Fault Refusal := specialOp .exp2 (.exp2 d a) d a s
def execLog2 (d a : Nat) (s : State) : Host.Outcome State Fault Refusal := specialOp .log2 (.log2 d a) d a s
def execSint (d a : Nat) (s : State) : Host.Outcome State Fault Refusal := specialOp .sint (.sint d a) d a s
def execCost (d a : Nat) (s : State) : Host.Outcome State Fault Refusal := specialOp .cost (.cost d a) d a s
def execTanh (d a : Nat) (s : State) : Host.Outcome State Fault Refusal := specialOp .tanh (.tanh d a) d a s

end Sys2Proof.Machine
end

