-- ==== Sys2Proof/Machine/Matrix.lean ====
section
/-! DEFINITION. Tiles and matrix instructions (R245 to R258), their exact accumulation (R79 to R85), the queue of
commands of each core's array and its events. -/
namespace Sys2Proof.Machine

/-! ### Tile descriptors (R245) -/

def Tile.base (t : Tile) : Nat := nfld t.toNat 0 20
def Tile.rows (t : Tile) : Nat := nfld t.toNat 20 8 + 1
def Tile.cols (t : Tile) : Nat := nfld t.toNat 28 8 + 1
def Tile.stride (t : Tile) : Nat := nfld t.toNat 36 16
def Tile.fmt (t : Tile) : Nat := nfld t.toNat 52 4
def Tile.tr (t : Tile) : Bool := nbit t.toNat 56
def Tile.swz (t : Tile) : Nat := nfld t.toNat 57 2
def Tile.scale (t : Tile) : Nat := nfld t.toNat 64 20
/-- Bits of a stored element. -/
def tileBits (fmt : Nat) : Nat :=
  match fmt with
  | 0 => 16
  | 1 => 16
  | 4 => 4
  | 6 => 32
  | _ => 8
/-- Bytes of a stored row. -/
def Tile.rowBytes (t : Tile) : Nat := cdiv ((Tile.cols t) * tileBits (Tile.fmt t)) 8
/-- Swz of R231, with the m that a swizzle selects. -/
def swizzle (swz p : Nat) : Nat := p ^^^ ((nfld p 7 3 &&& (2 ^ swz - 1)) * 16)
/-- The local byte of a stored element. -/
def Tile.addr (t : Tile) (r c : Nat) : Nat := (Tile.base t) + swizzle (Tile.swz t) (r * (Tile.stride t) + c * tileBits (Tile.fmt t) / 8)
/-- Whether the tile lies within an allocation: its extent, and each of its elements (R245, R197). -/
def Tile.inside (t : Tile) (size : Nat) : Bool :=
  decide ((Tile.base t) + ((Tile.rows t) - 1) * (Tile.stride t) + (Tile.rowBytes t) ≤ size) &&
  (List.range (Tile.cols t)).all fun c => decide (Tile.addr t ((Tile.rows t) - 1) c + max 1 (tileBits (Tile.fmt t) / 8) ≤ size)
/-- A stored element's pattern. -/
def Tile.elem (t : Tile) (m : Memory) (r c : Nat) : Nat :=
  let a := Tile.addr t r c
  if (Tile.fmt t) = 4 then nfld (m.get a).toNat (4 * (c % 2)) 4
  else ofBytes (m.read a (tileBits (Tile.fmt t) / 8))
/-- Whether a descriptor's value is one that TDESC refuses as ILLEGAL (R246). -/
def Tile.bad (t : Tile) : Bool :=
  nfld t.toNat 59 5 != 0 || nfld t.toNat 84 44 != 0 || decide (6 < (Tile.fmt t)) || (Tile.base t) % 64 != 0 || (Tile.scale t) % 16 != 0 ||
  (Tile.stride t) % 16 != 0 || decide ((Tile.stride t) < (Tile.rowBytes t)) || ((Tile.swz t) != 0 && (Tile.stride t) % 128 != 0)
/-- TDESC (R246). -/
def execTdesc (b a d : Nat) (s : State) : Host.Outcome State Fault Refusal :=
  s.issue (.tdesc b a d)
    (fun e s =>
      let t : Tile := BitVec.ofNat 128 ((e.g.regs.sr a).toNat + 2 ^ 64 * (e.g.regs.sr b).toNat)
      if Tile.bad t then .trap s .illegal e.word 0 0
      else if Tile.fmt t = 4 ∧ Tile.tr t then .trap s .layout e.word 0 0
      else .done (s.modRegs e.gid fun r => r.setT d t))
    matSpan

/-! ### Exact chunks (R79 to R82, R84) -/

/-- An exact chunk sum. -/
inductive ChunkSum where
  | nan
  | inf (neg : Bool)
  | fin (k : Int) (e : Int)
  deriving DecidableEq, Repr

/-- The exact sum of finite terms m·2^e. -/
def sumTerms (l : List (Int × Int)) : ChunkSum :=
  match l with
  | [] => .fin 0 0
  | x :: r =>
    let lo := r.foldl (fun m t => min m t.2) x.2
    .fin ((x :: r).foldl (fun acc t => acc + t.1 * (2 ^ (t.2 - lo).toNat : Nat)) 0) lo
/-- The exact sum of products, with the special values of R80. -/
def chunkSum (a b : List FVal) : ChunkSum :=
  let ps := (a.zip b).map fun x => (exMul x.1 x.2).1
  let isInf (neg : Bool) (v : FVal) : Bool := match v with
    | .inf n => n == neg
    | _ => false
  if ps.any FVal.isNan then .nan
  else match ps.any (isInf false), ps.any (isInf true) with
    | true, true => .nan
    | true, false => .inf false
    | false, true => .inf true
    | false, false => sumTerms (ps.filterMap fun v => match v with
        | .fin n m e => if m = 0 then none else some (if n then -(m : Int) else (m : Int), e)
        | _ => none)
/-- D plus a chunk sum, rounded once into FP32 (R79, R80). -/
def accAdd (d : Word) (x : ChunkSum) : Word :=
  let v := fmtF32.value d.toNat
  let nan : Word := BitVec.ofNat 32 fmtF32.nanPat
  match x with
  | .nan => nan
  | .inf n =>
    (match v with
     | .nan _ => nan
     | .inf m => if m = n then d else nan
     | .fin _ _ _ => BitVec.ofNat 32 (fmtF32.sign n + fmtF32.infPat))
  | .fin k e =>
    if k = 0 then d
    else match v with
      | .nan _ => nan
      | .inf _ => d
      | .fin n m f =>
        let lo := min e f
        BitVec.ofNat 32 (fmtF32.round FEnv.plain (Exact.ofInt (finAt n m f lo + k * (2 ^ (e - lo).toNat : Nat)) lo false) 0).1
/-- Whether an element has become NaN, or infinite, through accumulation (R80). -/
def becameNan (old new : Word) : Bool := (fmtF32.value new.toNat).isNan && !(fmtF32.value old.toNat).isNan
def isInfF (v : FVal) : Bool :=
  match v with
  | .inf _ => true
  | _ => false
def becameInf (old new : Word) : Bool := isInfF (fmtF32.value new.toNat) && !isInfF (fmtF32.value old.toNat)
/-- One element after a list of chunks, with what became of it on the way. -/
def accChunks (cs : List ChunkSum) (d : Word) : Word × Bool × Bool :=
  cs.foldl (fun x c =>
    let n := accAdd x.1 c
    (n, x.2.1 || becameNan x.1 n, x.2.2 || becameInf x.1 n)) (d, false, false)
/-- Rows of an accumulator replaced: row i by `f i`, with the hidden sticky causes. -/
def Acc.mapRows (a : Acc) (m : Mask) (f : Nat → Nat → Word → Word × Bool × Bool) : Acc :=
  let out := a.rows.zipIdx.map fun (r : List Word × Nat) =>
    if inMask m r.2 then r.1.zipIdx.map fun (x : Word × Nat) => f r.2 x.2 x.1 else r.1.map fun x => (x, false, false)
  { rows := out.map fun r => r.map (·.1)
    iv := a.iv || out.any fun r => r.any (·.2.1)
    ofl := a.ofl || out.any fun r => r.any (·.2.2) }

/-! ### Operands (R248, R253) -/

/-- The reduction length K. -/
def kOf (mfmt : Nat) : Nat :=
  match mfmt with
  | 0 => 32
  | 1 => 32
  | 4 => 128
  | _ => 64
/-- The formats of A and of B's tile. -/
def aFmt (mfmt : Nat) : Fmt :=
  match mfmt with
  | 0 => fmtBF16
  | 1 => fmtF16
  | 2 => fmtE4M3
  | _ => fmtE5M2
def bFmt (mfmt : Nat) : Fmt :=
  match mfmt with
  | 0 => fmtBF16
  | 1 => fmtF16
  | _ => fmtE4M3
/-- The FMT that a B tile must have. -/
def bTileFmt (mfmt : Nat) : Nat :=
  match mfmt with
  | 3 => 2
  | x => x
/-- A[i][k] as its pattern, from captured registers. -/
def aElem (mfmt : Nat) (data : List (List Word)) (i k : Nat) : Nat :=
  let w := match mfmt with
    | 0 => 16
    | 1 => 16
    | 4 => 4
    | _ => 8
  let n := 32 / w
  nfld (laneVal (data.getD (k / n) []) i).toNat (w * (k % n)) w
/-- B[k][n] as its pattern. -/
def bElem (t : Tile) (m : Memory) (k n : Nat) : Nat := if Tile.tr t then Tile.elem t m k n else Tile.elem t m n k
/-- Whether a B tile matches its instruction (R248, R253). -/
def bTileOk (mfmt : Nat) (t : Tile) : Bool :=
  Tile.fmt t == bTileFmt mfmt &&
  (if Tile.tr t then mfmt != 4 && Tile.rows t == kOf mfmt && Tile.cols t == 64 else Tile.rows t == 64 && Tile.cols t == kOf mfmt)
/-- A list cut into chunks of 32. -/
def chunks32 {α : Type} (k : Nat) (l : List α) : List (List α) := (List.range (k / 32)).map fun c => (l.drop (32 * c)).take 32
/-- Signed I8. -/
def i8 (x : Nat) : Int := sgn x 8
/-- MMA on an accumulator: rows of a mask, captured A, a tile in a memory (R79 to R82). -/
def mmaAcc (mfmt : Nat) (data : List (List Word)) (t : Tile) (m : Memory) (rows : Mask) (a : Acc) : Acc :=
  let k := kOf mfmt
  let bp : List (List Nat) := (List.range 64).map fun n => (List.range k).map fun j => bElem t m j n
  if mfmt = 5 then
    a.mapRows rows fun i n x =>
      let s : Int := ((bp.getD n []).zipIdx.foldl (fun acc y => acc + i8 (aElem 5 data i y.2) * i8 y.1) 0)
      (x + BitVec.ofInt 32 s, false, false)
  else
    let bv := bp.map fun l => chunks32 k (l.map (bFmt mfmt).value)
    let av := (List.range 64).map fun i =>
      if inMask rows i then chunks32 k ((List.range k).map fun j => (aFmt mfmt).value (aElem mfmt data i j)) else []
    a.mapRows rows fun i n x => accChunks (((av.getD i []).zip (bv.getD n [])).map fun c => chunkSum c.1 c.2) x
/-- Twice an FP4 value (R84). -/
def twiceFp4 (x : Nat) : Int :=
  let m : Int := match x % 8 with
    | 0 => 0
    | 1 => 1
    | 2 => 2
    | 3 => 3
    | 4 => 4
    | 5 => 6
    | 6 => 8
    | _ => 12
  if nbit x 3 then -m else m
/-- MMABS on an accumulator (R84, R253): registers 16 to 19 of `data` hold the scales of A. -/
def mmabsAcc (data : List (List Word)) (t : Tile) (m : Memory) (rows : Mask) (a : Acc) : Acc :=
  let bp : List (List Int) := (List.range 64).map fun n => (List.range 128).map fun j => twiceFp4 (bElem t m j n)
  let bs : List (List Nat) := (List.range 64).map fun n => (m.read (Tile.scale t + 16 * n) 16).map (·.toNat)
  let as : List (List Int) := (List.range 64).map fun i =>
    if inMask rows i then (List.range 128).map fun j => twiceFp4 (aElem 4 data i j) else []
  a.mapRows rows fun i n x =>
    let ar := as.getD i []
    let br := bp.getD n []
    let sc (b : Nat) : Nat := nfld (laneVal (data.getD (16 + b / 4) []) i).toNat (8 * (b % 4)) 8
    let term (b : Nat) : Int × Int :=
      let p : Int := (List.range 8).foldl (fun acc k => acc + ar.getD (8 * b + k) 0 * br.getD (8 * b + k) 0) 0
      let u := e3m5 (sc b)
      let v := e3m5 ((bs.getD n []).getD b 0)
      (p * u.1 * v.1, u.2 + v.2 - 2)
    accChunks ((List.range 4).map fun c => sumTerms ((List.range 4).map fun b => term (4 * c + b))) x

/-! ### Drains (R92, R255 to R257) -/

/-- A value to I8 under R67. -/
def valToI8 (env : FEnv) (v : FVal) (r : Nat) : Nat × Exc :=
  match v with
  | .nan _ => (0, excIV)
  | .inf n => (wrapN (if n then -128 else 127) 8, excIV)
  | .fin n m e =>
    let k : Int := roundInt env.rnd n m 1 (min e 200) r
    let i := if n then -k else k
    let c := clampI (-128) 127 i
    (wrapN c 8, if c = i then 0 else excIV)
/-- The element type of a tile format that a drain can write. -/
def tileType (fmt : Nat) : EType :=
  match fmt with
  | 0 => .bf16
  | 1 => .f16
  | 2 => .e4m3
  | 3 => .e5m2
  | 5 => .i8
  | _ => .f32
/-- Whether a drain's elements draw under SR: all but integer to integer (R75, R180, R255). -/
def drainDraws (m : Word) (fmt : Nat) : Bool := mRnd m == .sr && !(mMfmt m == 5 && (fmt == 5 || fmt == 6))
/-- One drained element: the pattern and its exceptions (R255). -/
def drainElem (m : Word) (fmt : Nat) (band : Option (Nat × Nat)) (x : Word) (r : Nat) : Nat × Exc :=
  let env := mEnv m
  if mMfmt m = 5 then
    (if fmt = 6 then (x.toNat, 0) else conv .i32 (tileType fmt) env x.toNat r)
  else
    let v := fmtF32.value x.toNat
    let w : FVal × Exc := match band with
      | none => (v, v.snan)
      | some (a, b) =>
        let p := exMul v (fmtBF16.input (mFtz m) a)
        let q := exMul p.1 (fmtBF16.input (mFtz m) b)
        (q.1, p.2 ||| q.2)
    if fmt = 5 then
      let y := valToI8 env w.1 r
      (y.1, y.2 ||| w.2)
    else match (tileType fmt).fmt with
      | some f =>
        let y := f.round env w.1.exact r
        (y.1, y.2 ||| w.2)
      | none => (0, 0)
/-- A drained row: patterns, exceptions, the lane's generator behind it. -/
def drainRow (m : Word) (fmt : Nat) (band : Option (Nat × Nat)) (row : List Word) (g : Word) : List Nat × Exc × Word :=
  row.foldl (fun acc x =>
    let g1 := if drainDraws m fmt then nextRandom acc.2.2 else acc.2.2
    let y := drainElem m fmt band x (drawBits g1)
    (acc.1 ++ [y.1], acc.2.1 ||| y.2, g1)) ([], 0, g)
/-- The generator of a lane after one drain of 64 elements. -/
def drawn64 (g : Word) : Word := (List.range 64).foldl (fun x _ => nextRandom x) g
/-- A row written into a tile: at (i, j), or at (j, i) when TR is set. -/
def Tile.putRow (t : Tile) (m : Memory) (i : Nat) (vals : List Nat) : Memory :=
  vals.zipIdx.foldl (fun acc (v : Nat × Nat) =>
    acc.write (if Tile.tr t then Tile.addr t v.2 i else Tile.addr t i v.2) (toBytes (tileBits (Tile.fmt t) / 8) v.1)) m
/-- The hidden sticky causes of an accumulator. -/
def Acc.causes (a : Acc) : Exc := (if a.iv then excIV else 0) ||| (if a.ofl then excOF else 0)
/-- Whether a row holds a NaN or an infinity. -/
def rowOdd (row : List Word) : Bool := row.any fun x => match fmtF32.value x.toNat with
  | .fin _ _ _ => false
  | _ => true

/-! ### Issue -/

def Team.acc (t : Team) (n : Nat) : Acc := t.accs.getD n Acc.clear
def State.modAcc (s : State) (tid n : Nat) (f : Acc → Acc) : State := s.modTeam tid fun t => { t with accs := lmod t.accs n f }
/-- Earlier local accesses and matrix writes of the group that a matrix instruction follows (R258). -/
def Instr.writesLocal : Instr → Bool
  | .stl _ _ _ _ => true
  | .atoml _ _ _ _ _ _ _ _ => true
  | .adrain _ _ _ _ => true
  | .astash _ _ _ => true
  | _ => false
/-- A matrix command queued at a core's array (R249). -/
def GI.command (e : GI) (s : State) (st : OpSt) (f : Op → Op) : Nat × State :=
  let o := e.startOp s fun o => f { o with st := st, await := s.awaitOf e.gid Instr.writesLocal }
  let o2 := o.2.modOp o.1 fun x => { x with await := { x.await with copies := [], draws := [] } }
  (o.1, o2.modDie e.die fun d =>
    { d with mqueue := tput d.mqueue e.g.core ((tget d.mqueue e.g.core).getD [] ++ [o.1]) })
/-- A tile's local-range fault, with its base as the address (R197, R258). -/
def Tile.rangeFx (t : Tile) (s : State) (acc : Nat) : Fx := .page s 0x07 acc (Tile.base t) 0
/-- What ReadA gives: the captured registers, and the group with its latch as ReadA leaves it (R250). -/
def GI.readA (e : GI) (r : Bool) (a : Nat) (sc : Option Nat) : List (List Word) × Latch :=
  let regs := ((List.range 16).map fun k => e.g.regs.vr (a + k)) ++
    (match sc with
     | some n => (List.range 4).map fun k => e.g.regs.vr (n + k)
     | none => [])
  if r && e.g.latch.valid then (e.g.latch.data, e.g.latch)
  else if r then (regs, ⟨true, a, mMfmt e.mode, regs⟩)
  else (regs, { e.g.latch with valid := false })
/-- The partner team of a leader (R251). -/
def GI.partner (e : GI) (s : State) : Option Nat :=
  (s.teams.find? fun t => t.2.launch == e.team.launch && t.2.core == e.g.core + 1 &&
    t.2.linear e.launch == e.team.linear e.launch + 1).map (·.1)
/-- A product's issue: the tile's checks, then ReadA and the command. -/
def GI.product (e : GI) (s : State) (r : Bool) (t a : Nat) (sc : Option Nat) : Fx :=
  let tile := e.g.regs.tr t
  if !bTileOk (mMfmt e.mode) tile then .trap s .layout e.word 0 0
  else if !Tile.inside tile e.team.size then Tile.rangeFx tile s 1
  else if sc.isSome && decide (e.team.size < Tile.scale tile + 1024) then .page s 0x07 1 (Tile.scale tile) 0
  else
    let x := e.readA r a sc
    let o := e.command s .engine fun o => { o with lanes := e.g.active, tile := [tile], vvals := x.1 }
    .done (o.2.modGroup e.gid fun g => { g with latch := x.2 })
def execAzero (d : Nat) (s : State) : Host.Outcome State Fault Refusal :=
  s.issue (.azero d) (fun e s => .done (e.command s .engine id).2) matSpan
def execMma (r : Bool) (t a d : Nat) (s : State) : Host.Outcome State Fault Refusal :=
  s.issue (.mma r t a d) (fun e s => e.product s r t a none) matSpan
/-- MMAP (R251). -/
def execMmap (r : Bool) (t a d : Nat) (s : State) : Host.Outcome State Fault Refusal :=
  s.issue (.mmap r t a d)
    (fun e s =>
      if e.g.core % 2 = 1 ∨ !e.launch.coresident ∨ e.team.linear e.launch % 2 = 1 ∨ (e.partner s).isNone then
        .trap s .illegal e.word 0 0
      else e.product s r t a none)
    matSpan
def execMmabs (r : Bool) (t a d sc : Nat) (s : State) : Host.Outcome State Fault Refusal :=
  s.issue (.mmabs r t a d sc) (fun e s => e.product s r t a (some sc)) matSpan
def execAload (t d : Nat) (s : State) : Host.Outcome State Fault Refusal :=
  s.issue (.aload t d)
    (fun e s =>
      let tile := e.g.regs.tr t
      if Tile.fmt tile ≠ 6 ∨ Tile.rows tile ≠ 64 ∨ Tile.cols tile ≠ 64 then .trap s .layout e.word 0 0
      else if !Tile.inside tile e.team.size then Tile.rangeFx tile s 1
      else .done (e.command s .engine fun o => { o with tile := [tile] }).2)
    matSpan
def execAmov (a d : Nat) (s : State) : Host.Outcome State Fault Refusal :=
  s.issue (.amov a d) (fun e s => .done (e.command s .engine id).2) matSpan
/-- A drain into tiles is queued: its draws are taken at issue, in program order (R255). -/
def GI.drain (e : GI) (s : State) (tiles : List Tile) (sv : List DWord) : Fx :=
  match tiles.find? fun t => !Tile.inside t e.team.size with
  | some t => Tile.rangeFx t s 2
  | none =>
    let fmt := match tiles with
      | t :: _ => Tile.fmt t
      | [] => 6
    let o := e.command s .engine fun o =>
      { o with lanes := e.g.active, wlanes := e.storeLanes, tile := tiles, svals := sv, vvals := [e.g.rng] }
    .done (if drainDraws e.mode fmt then o.2.modGroup e.gid fun g =>
        { g with rng := vecOf fun l => if inMask g.active l then drawn64 (g.rng.getD l 1) else g.rng.getD l 1 }
      else o.2)
def execAdrain (band : Bool) (sr a t : Nat) (s : State) : Host.Outcome State Fault Refusal :=
  s.issue (.adrain band sr a t)
    (fun e s =>
      let tile := e.g.regs.tr t
      if Tile.rows tile ≠ 64 ∨ Tile.cols tile ≠ 64 ∨ Tile.fmt tile = 4 ∨ 6 < Tile.fmt tile then .trap s .layout e.word 0 0
      else e.drain s [tile] (if band then [e.g.regs.sr sr] else []))
    matSpan
def execAstash (a q p : Nat) (s : State) : Host.Outcome State Fault Refusal :=
  s.issue (.astash a q p)
    (fun e s =>
      let tp := e.g.regs.tr p
      let tq := e.g.regs.tr q
      let ok (t : Tile) : Bool := Tile.rows t == 64 && Tile.cols t == 64
      if Tile.fmt tp ≠ Tile.fmt tq ∨ !([6, 0, 1, 2, 3].contains (Tile.fmt tp)) ∨ Tile.tr tp ∨ !Tile.tr tq ∨ !ok tp ∨ !ok tq then
        .trap s .layout e.word 0 0
      else e.drain s [tp, tq] [])
    matSpan
/-- AGDRAIN (R256): its rows are checked at issue; its reductions set out when the array has drained them. -/
def execAgdrain (o b a : Nat) (s : State) : Host.Outcome State Fault Refusal :=
  s.issue (.agdrain o b a)
    (fun e s =>
      let m := e.redo e.storeLanes
      match e.plan m with
      | none => .done s
      | some p =>
        let r := p.check s (coreTlb e.g.core) e.die e.ctx (e.g.ctl.level == .u)
        match r.1 with
        | .mis x l => .trap r.2 .misalign p.acc x l
        | .page st x l => .page r.2 st p.acc x l
        | .tag q g x l => .trap r.2 .tagfault (q + 16 * g + 256 * p.acc) x l
        | .moving => .done (e.clearRedo (e.command r.2 (.moving none) fun x => e.memOp m (.moving none) [] x).2)
        | .go ts sp =>
          let n := e.command r.2 .engine fun x => e.memOp m .engine sp x
          .done (e.clearRedo (n.2.sendPieces p e.gid n.1 e.g.core e.die e.ctx e.team.launch ts)))
    matSpan

/-! ### The array -/

/-- The command that a core's array runs, and its queue. -/
def State.arrayRun (s : State) (core : Nat) : Option Nat := tget (s.die (coreDie core)).mrun core
def State.arrayQueue (s : State) (core : Nat) : List Nat := (tget (s.die (coreDie core)).mqueue core).getD []
def State.setArray (s : State) (core : Nat) (o : Option Nat) : State :=
  s.modDie (coreDie core) fun d => { d with mrun := match o with
    | some n => tput d.mrun core n
    | none => tdel d.mrun core }
/-- The bytes of local memory that a tile's reader may see as they stood when its command began (R258). -/
def Tile.snap (t : Tile) (m : Memory) : List Nat :=
  let hi := Tile.base t + Tile.rows t * max (Tile.stride t) (Tile.rowBytes t)
  (m.filter fun c => (decide (Tile.base t ≤ c.1) && decide (c.1 < hi)) ||
    (Tile.fmt t == 4 && decide (Tile.scale t ≤ c.1) && decide (c.1 < Tile.scale t + 1024))).flatMap fun c => [c.1, c.2.toNat]
/-- A snapshot as a memory again. -/
def unsnap : List Nat → Memory
  | a :: b :: r => (a, BitVec.ofNat 8 b) :: unsnap r
  | _ => []
/-- The 32-byte granules in which two memories differ, from the first byte that either lists. -/
def granules (a b : Memory) : List Nat :=
  uniq (((a ++ b).map fun c => c.1 / 32).filter fun g => a.read (32 * g) 32 != b.read (32 * g) 32)
/-- Local memory as a matrix command reads it: stores made while it was outstanding are seen or not, granule by
granule, as free choices give (R258). -/
def State.seenLocal (s : State) (now old : Memory) (t : Tile) : Memory × State :=
  let g := granules (unsnap (Tile.snap t now)) old
  let f := s.drawFree g.length
  (g.zipIdx.foldl (fun m (x : Nat × Nat) => if Config.choice (f.1 + x.2) then m else m.write (32 * x.1) (old.read (32 * x.1) 32)) now, f.2)
/-- Two local memories that differ where the extents of ASTASH's tiles overlap: each byte there holds the one's or the other's
value, as free choices give (R257; log entry 140). -/
def State.eitherLocal (s : State) (p q : Memory) : Memory × State :=
  if p = q then (p, s)
  else
    let bytes := ((granules p q).flatMap fun g => (List.range 32).map fun i => 32 * g + i).filter fun a => p.get a != q.get a
    let f := s.drawFree bytes.length
    (bytes.zipIdx.foldl (fun m (x : Nat × Nat) => if Config.choice (f.1 + x.2) then m.put x.1 (q.get x.1) else m) p, f.2)
/-- AGDRAIN's values leave the array as the data of its requests (R92, R256): rounded under RN, with neither FTZ nor SAT
applied, which R92 and R256 do not name (DEDUCED, log entry 61). -/
def State.agdrainStart (s : State) (o : Nat) (op : Op) (a : Nat) : State :=
  match tget s.teams op.team with
  | none => s
  | some t =>
    let k := match tget s.launches t.launch with
      | some l => l.lossx
      | none => 0
    let acc := t.acc a
    let rows := lanesOf op.lanes
    let val (x : Word) : Nat × Exc :=
      let v := fmtF32.value x.toNat
      let w : FVal := match v with
        | .fin n m e => .fin n m (e - k)
        | y => y
      let y := fmtF32.round FEnv.plain w.exact 0
      (y.1, y.2 ||| v.snan)
    let out : List (Nat × List (Nat × Exc)) := rows.map fun i => (i, (acc.rows.getD i []).map val)
    let exc := out.foldl (fun x r => r.2.foldl (fun y v => y ||| v.2) x) 0
    let lanes := maskOf fun i => out.any fun r => r.1 == i &&
      ((r.2.any fun v => v.2 != 0) || (acc.causes != 0 && rowOdd (acc.rows.getD i [])))
    let datum (n : Nat) : List Byte := toBytes 4 (((out.getD (n / 64) (0, [])).2.getD (n % 64) (0, 0)).1)
    let rs := (s.reqsOf o).map (·.1)
    let s1 := rs.zipIdx.foldl (fun b (x : Nat × Nat) => b.modReq x.1 fun r => { r with data := datum x.2 }) s
    (s1.modAcc op.team a fun x => { x with iv := false, ofl := false }).modOp o fun x =>
      { x with st := .reqs, exc := exc ||| acc.causes, excLanes := lanes }
/-- A queued command taken off its core's queue. -/
def State.unqueue (s : State) (core o : Nat) : State :=
  s.modDie (coreDie core) fun d => { d with mqueue := tmod d.mqueue core fun l => l.filter (· != o) }
/-- MATRIX_COMMAND_START: the oldest command of a core's queue starts on its free array, on both arrays for MMAP,
once what R258 orders before it is done (R249, R252). -/
def execMatrixCommandStart (core : Nat) (s : State) : Host.Outcome State Fault Refusal :=
  s.event fun s =>
    match s.arrayQueue core with
    | [] => s
    | o :: _ =>
      match tget s.work.ops o with
      | none => s.unqueue core o
      | some op =>
        if (s.arrayRun core).isSome || op.st != .engine || !op.await.ops.isEmpty then s
        else
          let s1 := s.unqueue core o
          let snap : List Nat := match tget s.teams op.team, op.tile with
            | some t, x :: _ => Tile.snap x t.loc
            | _, _ => []
          match op.instr with
          | .agdrain _ _ a => s1.agdrainStart o op a
          | .mmap _ _ _ _ =>
            if (s.arrayRun (core + 1)).isSome then s
            else
              let other : List Nat := match (s.gi op.gid op.instr).bind fun e => e.partner s with
                | some p => (match tget s.teams p, op.tile with
                  | some t, x :: _ => Tile.snap x t.loc
                  | _, _ => [])
                | none => []
              ((s1.setArray core (some o)).setArray (core + 1) (some o)).modOp o fun x =>
                { x with misc := snap.length :: (snap ++ other) }
          | _ => (s1.setArray core (some o)).modOp o fun x => { x with misc := snap.length :: snap }

/-! ### Completion -/

/-- A product's accumulator after the command. -/
def productAcc (op : Op) (m : Memory) (a : Acc) : Acc :=
  match op.tile with
  | t :: _ => if mMfmt op.mode = 4 then mmabsAcc op.vvals t m op.lanes a else mmaAcc (mMfmt op.mode) op.vvals t m op.lanes a
  | [] => a
/-- One half of a product: on a team, from the snapshot of its memory at the command's start. -/
def State.productOn (s : State) (op : Op) (tid d : Nat) (old : List Nat) : State :=
  match tget s.teams tid, op.tile with
  | some t, x :: _ =>
    let v := s.seenLocal t.loc (unsnap old) x
    v.2.modAcc tid d (productAcc op v.1)
  | _, _ => s
/-- A drain into tiles (R255, R257): the local bytes, the sticky causes, and what the record names. Where the tiles of ASTASH
overlap, either written value stands. -/
def State.drainDone (s : State) (op : Op) (a : Nat) : Exc × Mask × State :=
  match tget s.teams op.team with
  | none => (0, 0, s)
  | some t =>
    let acc := t.acc a
    let band : Option (Nat × Nat) := match op.svals with
      | x :: _ => some (nfld x.toNat 0 16, nfld x.toNat 16 16)
      | [] => none
    let fmt := match op.tile with
      | x :: _ => Tile.fmt x
      | [] => 6
    let out := (lanesOf op.wlanes).map fun i =>
      (i, drainRow op.mode fmt band (acc.rows.getD i []) (laneVal (op.vvals.getD 0 []) i))
    let exc := out.foldl (fun x r => x ||| r.2.2.1) 0
    let lanes := maskOf fun i => out.any fun r => r.1 == i && (r.2.2.1 != 0 || (acc.causes != 0 && rowOdd (acc.rows.getD i [])))
    let put (ts : List Tile) : Memory :=
      ts.foldl (fun m x => out.foldl (fun m2 r => Tile.putRow x m2 r.1 r.2.1) m) t.loc
    let loc := s.eitherLocal (put op.tile) (put op.tile.reverse)
    (exc ||| acc.causes, lanes,
     (loc.2.modTeam op.team fun x => { x with loc := loc.1 }).modAcc op.team a fun x => { x with iv := false, ofl := false })
/-- Whether a command runs on its core's array. -/
def State.onArray (s : State) (o : Nat) (op : Op) : Bool := s.arrayRun op.core == some o
/-- A matrix command's effect when it leaves the array: its exceptions, the lanes that they name, and the state. -/
def State.matrixDone (s : State) (o : Nat) (op : Op) : Exc × Mask × State :=
  let n := op.misc.headD 0
  let snap := op.misc.tail.take n
  let free (t : State) : State := t.setArray op.core none
  match op.instr with
  | .azero d => (0, 0, free (s.modAcc op.team d fun _ => Acc.clear))
  | .amov a d =>
    (match tget s.teams op.team with
     | some t => (0, 0, free (s.modAcc op.team d fun _ => t.acc a))
     | none => (0, 0, free s))
  | .aload _ d =>
    (match tget s.teams op.team, op.tile with
     | some t, x :: _ =>
       let v := s.seenLocal t.loc (unsnap snap) x
       let rows := (List.range 64).map fun i => (List.range 64).map fun j =>
         BitVec.ofNat 32 (if Tile.tr x then Tile.elem x v.1 j i else Tile.elem x v.1 i j)
       (0, 0, free (v.2.modAcc op.team d fun _ => ⟨rows, false, false⟩))
     | _, _ => (0, 0, free s))
  | .mma _ _ _ d => (0, 0, free (s.productOn op op.team d snap))
  | .mmabs _ _ _ d _ => (0, 0, free (s.productOn op op.team d snap))
  | .mmap _ _ _ d =>
    let s1 := s.productOn op op.team d snap
    let s2 := match (s.gi op.gid op.instr).bind fun e => e.partner s with
      | some p => s1.productOn op p d (op.misc.tail.drop n)
      | none => s1
    (0, 0, (free s2).setArray (op.core + 1) none)
  | .adrain _ _ a _ =>
    let x := s.drainDone op a
    (x.1, x.2.1, free x.2.2)
  | .astash a _ _ =>
    let x := s.drainDone op a
    (x.1, x.2.1, free x.2.2)
  | _ => (0, 0, if s.onArray o op then free s else s)

end Sys2Proof.Machine
end

