-- ==== Sys2Proof/Machine/Hash.lean ====
section
/-! DEFINITION. The hash-grid instructions (R259 to R263) and the hash engine's table cache (R287). -/
namespace Sys2Proof.Machine

/-! ### Grid descriptors (R259) -/

/-- A grid descriptor's fields. -/
structure Grid where
  levels : Nat
  dim : Nat
  feat : Nat
  fmt : Nat
  log2t : Nat
  fbase : Nat
  gbase : Nat
  py : Nat
  pz : Nat
  res : List Nat
  deriving DecidableEq, Repr

def Grid.ofBytes (b : List Byte) : Grid :=
  { levels := rdN b 0 1, dim := rdN b 1 1, feat := rdN b 2 1, fmt := rdN b 3 1, log2t := rdN b 4 1, fbase := rdN b 8 8,
    gbase := rdN b 0x10 8, py := rdN b 0x18 4, pz := rdN b 0x1C 4, res := (List.range 16).map fun i => rdN b (0x20 + 4 * i) 4 }
/-- Features of an entry. -/
def Grid.f (g : Grid) : Nat := 2 ^ g.feat
/-- Whether a resolution is finite and above zero. -/
def resOk (x : Nat) : Bool :=
  match fmtF32.value x with
  | .fin false m _ => m != 0
  | _ => false
/-- HCFG's status (R260), given the launch's die-scratchpad bytes. -/
def gridStatus (b : List Byte) (scr : Nat) : Nat :=
  let g := Grid.ofBytes b
  let bad := g.levels = 0 ∨ 16 < g.levels ∨ (g.dim ≠ 2 ∧ g.dim ≠ 3) ∨ 3 < g.feat ∨ 1 < g.fmt ∨ 22 < g.log2t ∨ rdN b 5 3 ≠ 0 ∨
    g.fbase % 32 ≠ 0 ∨ g.gbase % 32 ≠ 0 ∨ rdN b 0x60 32 ≠ 0 ∨ (g.res.take g.levels).any fun x => !resOk x
  if bad then 1
  else
    let n := g.levels * 2 ^ g.log2t * g.f
    if scr < g.fbase + 2 * n ∨ scr < g.gbase + 4 * n then 2 else 0
/-- The descriptor that the cluster's cache holds for an address. -/
def State.gridCached (s : State) (cluster ctx va : Nat) : Option (List Byte) :=
  (s.mem.grids.find? fun x => x.cluster == cluster && x.ctx == ctx && x.va == va).map (·.bytes)
/-- A descriptor placed in the cluster's cache. -/
def State.gridPut (s : State) (cluster ctx va : Nat) (b : List Byte) : State :=
  { s with mem := { s.mem with grids := ⟨cluster, ctx, va, b⟩ :: s.mem.grids.filter fun x => !(x.cluster == cluster && x.ctx == ctx && x.va == va) } }
/-- MISALIGN of a descriptor address. -/
def GI.gridMis (e : GI) (s : State) (base : DWord) : Fx := .trap s .misalign 1 (vaOf (globalAddr base 0)) (lowLane e.g.active)
/-- HCFG reads its descriptor as it issues. -/
def hcfgBody (a : Nat) (e : GI) (s : State) : Fx :=
  let base := e.g.regs.sr a
  if base.toNat % 128 ≠ 0 then e.gridMis s base
  else match e.readBlock s base 128 false with
    | (.error f, _) => f
    | (.ok b, s1) => .done (e.startOp s1 fun o => { o with svals := [base], misc := b.map (·.toNat) }).2
def execHcfg (d a : Nat) (s : State) : Host.Outcome State Fault Refusal := s.issue (.hcfg d a) (hcfgBody a) matSpan
/-- HCFG completes: the cache and the status. -/
def State.hcfgDone (s : State) (op : Op) (l : Launch) (d : Nat) : RegWrite × State :=
  let b := op.misc.map fun n => BitVec.ofNat 8 n
  (.uni d (BitVec.ofNat 64 (gridStatus b l.scrBytes)),
   s.gridPut (coreCluster op.core) l.ctx (vaOf (op.svals.getD 0 0).toNat) b)
/-- The descriptor that HGATHER and HSCATTER use: the cached one or memory's, where they may differ as a free choice
gives (R260). -/
def GI.grid (e : GI) (s : State) (base : DWord) : (Except Fx (List Byte)) × State :=
  let cl := coreCluster e.g.core
  let va := vaOf (globalAddr base 0)
  match s.gridCached cl e.ctx va with
  | none =>
    (match e.readBlock s base 128 false with
     | (.ok b, s1) => (.ok b, s1.gridPut cl e.ctx va b)
     | x => x)
  | some b =>
    let f := s.drawFree 1
    if Config.choice f.1 then (.ok b, f.2)
    else match e.readBlock f.2 base 128 false with
      | (.ok c, s1) => (.ok c, s1.gridPut cl e.ctx va c)
      | x => x
/-- The vector registers that a hash instruction reads and writes (R260). -/
def hashReads (d a n : Nat) (g : Grid) (scatter : Bool) : List Reg := vRegs a g.dim ++ (if scatter then vRegs d (n * g.f) else [])
def hashWrites (d n : Nat) (g : Grid) (scatter : Bool) : List Reg := if scatter then [] else vRegs d (n * g.f)
/-- HGATHER and HSCATTER up to their operation: the order of traps of R260. -/
def GI.hash (e : GI) (s : State) (d a sr l0 n : Nat) (scatter : Bool) : Fx :=
  let base := e.g.regs.sr sr
  if base.toNat % 128 ≠ 0 then e.gridMis s base
  else match e.grid s base with
    | (.error f, _) => f
    | (.ok b, s1) =>
      let g := Grid.ofBytes b
      if gridStatus b e.launch.scrBytes ≠ 0 then .trap s1 .layout e.word 0 0
      else if g.levels < l0 + n ∨ e.g.nregs < a + g.dim ∨ e.g.nregs < d + n * g.f then .trap s1 .illegal e.word 0 0
      else
        let reads := hashReads d a n g scatter
        let writes := hashWrites d n g scatter
        if reads.any fun r => e.g.tags.any fun t => t.reg == r then .trap s1 .depmiss e.word 0 0
        else if writes.any fun r => e.g.tags.any fun t => t.reg == r && (tget s1.work.ops t.op).isSome then .stay s
        else
          let vv := ((List.range g.dim).map fun k => e.g.regs.vr (a + k)) ++
            (if scatter then (List.range (n * g.f)).map fun k => e.g.regs.vr (d + k) else [])
          let o := e.startOp s1 fun o =>
            { o with st := .engine, lanes := if scatter then e.storeLanes else e.lanes, vvals := vv, misc := b.map (·.toNat) }
          .done (o.2.modGroup e.gid fun gr =>
            { gr with tags := (gr.tags.filter fun t => !writes.contains t.reg) ++ writes.map fun r => ⟨r, e.flag, o.1⟩ })
def execHgather (d a sr l0 n : Nat) (s : State) : Host.Outcome State Fault Refusal :=
  s.issue (.hgather d a sr l0 n) (fun e s => e.hash s d a sr l0 n false) matSpan
def execHscatter (g a sr l0 n : Nat) (s : State) : Host.Outcome State Fault Refusal :=
  s.issue (.hscatter g a sr l0 n) (fun e s => e.hash s g a sr l0 n true) matSpan

/-! ### Corners and weights (R261) -/

/-- A product rounded to F32. -/
def mulF (a b : FVal) : FVal := fmtF32.value (fmtF32.round FEnv.plain (exMul a b).1.exact 0).1
/-- An axis at a level: the integer base and the two weights; none when p is not finite. -/
def axisOf (coord res : Nat) : Option (Int × FVal × FVal) :=
  match mulF (fmtF32.value coord) (fmtF32.value res) with
  | .fin n m e =>
    let i : Int := if n then -(m : Int) else m
    if 0 ≤ e then some (i * (2 ^ e.toNat : Nat), fmtF32.value 0x3F800000, .fin false 0 0)
    else
      let q : Int := ((2 ^ (-e).toNat : Nat) : Int)
      let fl := i / q
      let fr := (i % q).toNat
      let w0 := fmtF32.value (fmtF32.round FEnv.plain (Exact.ofInt (q - fr) e false) 0).1
      some (fl, w0, .fin false fr e)
  | _ => none
/-- The corners of a cell: table index and weight, in ascending order; none when an axis is not finite. -/
def corners (g : Grid) (coords : List Nat) (lvl : Nat) : Option (List (Nat × FVal)) :=
  let ax := coords.map fun c => axisOf c (g.res.getD lvl 0)
  if ax.any Option.isNone then none
  else
    let axs := ax.filterMap id
    some ((List.range (2 ^ g.dim)).map fun c =>
      let at_ (k : Nat) : Nat := match axs[k]? with
        | some x => wrapN (x.1 + (if nbit c k then 1 else 0)) 32
        | none => 0
      let w (k : Nat) : FVal := match axs[k]? with
        | some x => if nbit c k then x.2.2 else x.2.1
        | none => .fin false 0 0
      let h := (at_ 0 ^^^ (at_ 1 * g.py % 2 ^ 32)) ^^^ (if g.dim = 3 then at_ 2 * g.pz % 2 ^ 32 else 0)
      let xy := mulF (w 0) (w 1)
      (h % 2 ^ g.log2t, if g.dim = 3 then mulF xy (w 2) else xy))
/-- Whether a coordinate is NaN or infinite. -/
def coordOdd (x : Nat) : Bool :=
  match fmtF32.value x with
  | .fin _ _ _ => false
  | _ => true
/-- d + a · b, fused and rounded once into F32. -/
def fmaF (d : Nat) (a : FVal) (b : Nat) : Nat := (fmtF32.round FEnv.plain (exFma .rn a (fmtF32.value b) (fmtF32.value d)).1 0).1
/-- The byte offset of a feature, and of its gradient (R259). -/
def Grid.featAt (g : Grid) (lvl e f : Nat) : Nat := g.fbase + ((lvl * 2 ^ g.log2t + e) * g.f + f) * 2
def Grid.gradAt (g : Grid) (lvl e f : Nat) : Nat := g.gbase + ((lvl * 2 ^ g.log2t + e) * g.f + f) * 4
/-- A feature's pattern widened to F32. -/
def Grid.widen (g : Grid) (x : Nat) : Nat := (conv (if g.fmt = 0 then .bf16 else .f16) .f32 FEnv.plain x 0).1

/-! ### The table cache (R287) -/

/-- The die scratchpad of a launch on a die. -/
def State.scratchOf (s : State) (lid die : Nat) : Memory := (tget s.mem.scratch (lid * 4 + die)).getD []
def State.setScratch (s : State) (lid die : Nat) (m : Memory) : State :=
  { s with mem := { s.mem with scratch := tput s.mem.scratch (lid * 4 + die) m } }
/-- The hash engine's copy of a scratchpad line. -/
def State.hashCopy (s : State) (cluster lid ln : Nat) : Option CopyLine :=
  s.mem.copies.find? fun c => c.holder == .hash cluster && c.space == .scratch lid && c.line == ln
/-- A copy of a scratchpad line installed in place of another. -/
def State.putHash (s : State) (cluster lid ln : Nat) (b : List Byte) (t : Nat) : State :=
  let keep := s.mem.copies.filter fun c => !(c.holder == .hash cluster && c.space == .scratch lid && c.line == ln)
  { s with mem := { s.mem with copies := ⟨.hash cluster, .scratch lid, ln, b, [], 0, t, 0, 0⟩ :: keep } }
/-- One line of the table cache brought up for a read: a copy that differs from the scratchpad is used or has been
replaced, as a free choice gives. -/
def State.hashLine (s : State) (cluster lid die ln t : Nat) : List Byte × State :=
  let bank := (s.scratchOf lid die).read (128 * ln) 128
  match s.hashCopy cluster lid ln with
  | none => (bank, s.putHash cluster lid ln bank t)
  | some c =>
    if c.data = bank then (bank, s)
    else
      let f := s.drawFree 1
      if Config.choice f.1 then (c.data, f.2) else (bank, f.2.putHash cluster lid ln bank t)
/-- Every line that a read needs, brought up once. -/
def State.hashLines (s : State) (cluster lid die t : Nat) : List Nat → Tbl (List Byte) × State
  | [] => ([], s)
  | ln :: r =>
    let one := s.hashLine cluster lid die ln t
    let rest := one.2.hashLines cluster lid die t r
    ((ln, one.1) :: rest.1, rest.2)

/-! ### Completion (R262, R263) -/

/-- The coordinates of a lane. -/
def Op.coords (op : Op) (g : Grid) (l : Nat) : List Nat := (List.range g.dim).map fun k => (laneVal (op.vvals.getD k []) l).toNat
/-- HGATHER's results and the state with its cache. -/
def State.hgatherDone (s : State) (op : Op) (lid d l0 n : Nat) : List RegWrite × State :=
  let g := Grid.ofBytes (op.misc.map fun x => BitVec.ofNat 8 x)
  let die := coreDie op.core
  let lv := (List.range n).map fun i => l0 + i
  let cells : List (Nat × List (Option (List (Nat × FVal)))) := (lanesOf op.lanes).map fun l =>
    let c := op.coords g l
    (l, if c.any coordOdd then lv.map fun _ => none else lv.map fun v => corners g c v)
  let lines := uniq (cells.flatMap fun x => (x.2.zip lv).flatMap fun y => (y.1.getD []).flatMap fun c =>
    (List.range g.f).map fun f => g.featAt y.2 c.1 f / 128)
  let got := s.hashLines (coreCluster op.core) lid die (s.gtOf op.core) lines
  let feat (a : Nat) : Nat := g.widen (rdN ((tget got.1 (a / 128)).getD []) (a % 128) 2)
  let out (l i f : Nat) : Word :=
    match (cells.find? fun x => x.1 == l).bind fun x => (x.2[i]?).getD none with
    | none => BitVec.ofNat 32 fmtF32.nanPat
    | some cs => BitVec.ofNat 32 (cs.foldl (fun acc c => fmaF acc c.2 (feat (g.featAt (l0 + i) c.1 f))) 0)
  ((List.range n).flatMap fun i => (List.range g.f).map fun f =>
    .vec (d + i * g.f + f) op.lanes (vecOf fun l => if inMask op.lanes l then out l i f else 0), got.2)
/-- The adds of HSCATTER in their order: address, weight, gradient. -/
def scatterAdds (op : Op) (l0 n : Nat) : List (Nat × FVal × Nat) :=
  let g := Grid.ofBytes (op.misc.map fun x => BitVec.ofNat 8 x)
  (lanesOf op.lanes).flatMap fun l =>
    let c := op.coords g l
    if c.any coordOdd then []
    else (List.range n).flatMap fun i => ((corners g c (l0 + i)).getD []).flatMap fun k => (List.range g.f).map fun f =>
      (g.gradAt (l0 + i) k.1 f, k.2, (laneVal (op.vvals.getD (g.dim + i * g.f + f) []) l).toNat)
/-- HSCATTER's adds performed by the banks, and written through the table cache. Each HSCATTER adds as a whole, and those of
one group in issue order: one of the orders that the rule leaves open (DESIGN CHOICE, log entry 131). -/
def State.hscatterDone (s : State) (op : Op) (lid l0 n : Nat) : State :=
  let die := coreDie op.core
  let adds := scatterAdds op l0 n
  let m := adds.foldl (fun m x => m.write x.1 (toBytes 4 (fmaF (ofBytes (m.read x.1 4)) x.2.1 x.2.2))) (s.scratchOf lid die)
  let s1 := s.setScratch lid die m
  let s2 := (uniq (adds.map (·.1))).foldl (fun a x =>
    match a.hashCopy (coreCluster op.core) lid (x / 128) with
    | none => a
    | some c => a.putHash (coreCluster op.core) lid (x / 128) (overlay c.data (x % 128) (m.read x 4)) c.granted) s1
  s2.noteW op.gid .hash (s.gtOf op.core)
/-- Whether an earlier hash instruction of the group, or, for HSCATTER, an earlier scratchpad access, is still
outstanding (R208). -/
def State.hashHeld (s : State) (o : Nat) (op : Op) : Bool :=
  s.work.ops.any fun x => decide (x.1 < o) && x.2.gid == op.gid && match x.2.instr with
    | .hgather _ _ _ _ _ => true
    | .hscatter _ _ _ _ _ => true
    | .stc _ _ _ _ => decide (op.lanes ≠ 0) && match op.instr with
      | .hscatter _ _ _ _ _ => true
      | _ => false
    | .atomc _ _ _ _ _ _ _ => true
    | .redc _ _ _ _ _ => true
    | _ => false

end Sys2Proof.Machine
end

