-- ==== Sys2Proof/Machine/Routes.lean ====
section
/-! DEFINITION. The links between dies (R384 to R386): routes, flits with their retry, links that go down. Dies 4 and 5
are FD0 and FD1. -/
namespace Sys2Proof.Machine

/-! ### Routes (R386) -/

/-- The die that a memory unit belongs to. -/
def unitDie (u : Nat) : Nat := if u < 16 then u / 4 else if u < 64 then 4 else 5
/-- Whether a request from a die to a line's home has arrived there and is not complete. -/
def State.routeBusy (s : State) (src dst : Nat) : Bool :=
  s.work.reqs.any fun r => r.2.die == src && r.2.space == .global && s.homeDie (r.2.pa / 128) == dst && match r.2.st with
    | .pending _ => true
    | _ => false
/-- ROUTE_SWITCH: traffic moves to the other route once the old one is down, and back once the fixed route is up again,
when no request on the old one is outstanding. -/
def execRouteSwitch (src dst : Nat) (s : State) : Host.Outcome State Fault Refusal :=
  s.event fun s =>
    let d := s.detour src dst
    let up (o : Bool) : Bool := s.pathUp src (hops src dst o)
    if src == dst || s.routeBusy src dst || !(up (!d)) || (!d && up false) then s
    else { s with routes := tput s.routes (src * 8 + dst) (if d then 0 else 1) }

/-! ### Flits (R385) -/

def State.modLink (s : State) (n : Nat) (f : Link → Link) : State := { s with links := lmod s.links n f }
/-- The bit of DIESTAT.LINKS that a compute die has for a neighbour. -/
def linkBit (d other : Nat) : Nat := if 4 ≤ other then 2 else if other = d ^^^ 1 then 0 else 1
/-- The bits that both ends of a link show. -/
def State.showLink (s : State) (a b : Nat) (up : Bool) : State :=
  let one (t : State) (d o : Nat) : State := if d < 4 then t.modDie d fun x => { x with linksUp := x.linksUp.set (linkBit d o) up } else t
  one (one s a b) b a
/-- Both directions of a link taken down or brought up, with nothing in their buffers. -/
def State.setLink (s : State) (a b : Nat) (up : Bool) : State :=
  let one (l : Link) : Link :=
    if (l.src == a && l.dst == b) || (l.src == b && l.dst == a) then { l with up := up, buffer := [], fails := 0 } else l
  { s with links := s.links.map one }.showLink a b up

end Sys2Proof.Machine
end

