-- ==== Sys2Proof/Machine/Interleave.lean ====
section
/-! DEFINITION. Interleave maps (R331 to R333), live stack retirement (R339 to R348), and the requests of home MSC
slices to their units. -/
namespace Sys2Proof.Machine

def State.modRegion (s : State) (r : Nat) (f : Region → Region) : State := { s with regions := lmod s.regions r f }

/-! ### Maps (R331 to R333) -/

/-- The width of a B row of a region: k − 12. -/
def bWidth (r : Nat) : Nat := if r = 0 then 20 else if r = 5 then 22 else 18
/-- A malformed MAPCTL write (R331, R332). -/
def State.mapBad (s : State) (r : Nat) : State := s.modPkg fun p => { p with errBadcmd := true, errRegion := r }
/-- One row of A or of B staged. -/
def State.mapStage (s : State) (b : Bool) (r row data : Nat) : State :=
  if 5 < r ∨ 11 < row ∨ 2 ^ (if b then bWidth r else 12) ≤ data then s.mapBad r
  else s.modRegion r fun g => if b then { g with sb := g.sb.set row data } else { g with sa := g.sa.set row data }
/-- One step of the elimination over GF(2): the rows left once a pivot for a column has been taken, or none. -/
def elimCol (rows : List Nat) (j : Nat) : Option (List Nat) :=
  match rows.find? fun x => nbit x j with
  | none => none
  | some p => some ((rows.erase p).map fun x => if nbit x j then x ^^^ p else x)
/-- Whether a 12-bit matrix is invertible over GF(2). -/
def invertible (rows : List Nat) : Bool :=
  ((List.range 12).foldl (fun (a : Option (List Nat)) j => a.bind fun r => elimCol r j) (some rows)).isSome
/-- MAPCTL's apply: refused while a retirement runs, or when A is singular. -/
def State.mapApply (s : State) (r : Nat) : State :=
  if 5 < r then s.mapBad r
  else if s.retire.isSome then s.modPkg fun p => { p with errBusy := true, errRegion := r }
  else if !invertible (s.region r).sa then s.modPkg fun p => { p with errSingular := true, errRegion := r }
  else s.modRegion r fun g => { g with applying := some (g.sa, g.sb) }
/-- A write of MAPCTL (R331). -/
def State.mapctl (s : State) (v : Nat) : State :=
  let r := nfld v 0 4
  let cmd := nfld v 4 2
  let row := nfld v 6 4
  if 5 < r ∨ 11 < row ∨ nfld v 10 6 ≠ 0 ∨ nfld v 48 16 ≠ 0 then s.mapBad r
  else match cmd with
    | 0 => s
    | 1 => s.mapStage false r row (nfld v 16 32)
    | 2 => s.mapStage true r row (nfld v 16 32)
    | _ => s.mapApply r
/-- Whether a physical address lies in a region. -/
def inRegion (pa r : Nat) : Bool :=
  match regionOf pa with
  | some x => x.1 == r
  | none => false
/-- Whether a memory request is on its way. -/
def Req.open_ (q : Req) : Bool :=
  match q.st with
  | .fresh => true
  | .pending _ => true
  | _ => false
/-- Whether a request to a line that a test names is outstanding: a group's or engine's, a store pending at home, a
request of a home slice to its unit. -/
def State.linesBusy (s : State) (p : Nat → Bool) : Bool :=
  (s.work.reqs.any fun q => q.2.space == .global && q.2.open_ && p (q.2.pa / 128)) ||
  (s.mem.lines.any fun l => !l.2.pend.isEmpty && p l.1) || (s.mem.unitq.any fun q => p q.2.line)
/-- MAP_STAGE_A, MAP_STAGE_B, MAP_APPLY: what a MAPCTL write does. -/
def execMapStageA (region row data : Nat) (s : State) : Host.Outcome State Fault Refusal := s.event fun s => s.mapStage false region row data
def execMapStageB (region row data : Nat) (s : State) : Host.Outcome State Fault Refusal := s.event fun s => s.mapStage true region row data
def execMapApply (region : Nat) (s : State) : Host.Outcome State Fault Refusal := s.event fun s => s.mapApply region
/-- MAP_APPLY_SWITCH: the region has no outstanding request; A and B are replaced in one step. -/
def execMapApplySwitch (region : Nat) (s : State) : Host.Outcome State Fault Refusal :=
  s.event fun s =>
    match (s.region region).applying with
    | none => s
    | some (a, b) =>
      if s.linesBusy fun ln => inRegion (ln * 128) region then s
      else (s.modRegion region fun g => { g with a := a, b := b, moved := [], applying := none }).modPkg
        fun p => { p with migphase := (p.migphase + 1) % 2 ^ 32 }

/-! ### Retirement (R341 to R347) -/

/-- Stacks of a region. -/
def regionStacks (r : Nat) : List Nat := if r = 0 then List.range 16 else (List.range 4).map (4 * (r - 1) + ·)
/-- S0 of R346. -/
def cellsPer (r : Nat) : Nat := if r = 0 then 256 else 1024
/-- The new places of the cells of stack `s` in a region, at depth `d` (R346). -/
def newPlaces (r stack d : Nat) : List MoveCell :=
  let sv := (regionStacks r).filter (· != stack)
  (List.range (cellsPer r)).map fun t =>
    let c := if r = 0 then stack + 16 * t else stack % 4 + 4 * t
    ⟨r, c, sv.getD (t % sv.length) 0, cellsPer r * d + t / sv.length * d, false, 0, false⟩
/-- Dmax of R346: the busiest survivor takes ⌈S0 / survivors⌉ cells. -/
def depthMax (r : Nat) : Nat :=
  let n := (regionStacks r).length - 1
  2 ^ 28 / (cellsPer r + cdiv (cellsPer r) n) / 512 * 512
/-- Whether two cells of a placement share a place. -/
def placesClash (l : List MoveCell) : Bool := (uniq (l.map fun m => (m.stack, m.base))).length != l.length
/-- The capacity with a retirement's depths. -/
def capWith (cap r pkg die : Nat) : Nat :=
  packF ((pkg, 0) :: (List.range 4).map fun d => (if d + 1 = r then die else depthField cap (d + 1), 12 + 10 * d))
/-- The die of a cluster number, an engine's included. -/
def clusterDie (c : Nat) : Nat := if c < 80 then c / 20 else c - 80
/-- Whether a top range is occupied (R345, 0x12). -/
def State.topBusy (s : State) (p : Nat → Bool) : Bool :=
  let frame (pa size : Nat) : Bool := p (pa / 128) || p ((pa + size - 1) / 128)
  (s.mem.tlb.any fun t => s.leaseValid (clusterDie (behindTlb t.cluster)) t.expiry && frame (leafAddr t.leaf t.va) t.size) ||
  (s.mem.walks.any fun w => s.leaseValid w.die w.expiry && frame (nfld w.entry 13 35 * 8192) 8192) ||
  (s.work.ops.any fun o => (match o.2.instr with
    | .cacheop _ _ _ => true
    | _ => false) && (s.reqsOf o.1).any fun q => q.2.space == .global && p (q.2.pa / 128)) ||
  s.linesBusy p || s.caravans.any fun c => match c.move with
    | some m => frame (leafAddr m.oldLeaf m.va) m.size || frame m.frame m.size
    | none => false
/-- The refusal of a RETIRESTK write, if there is one (R345). -/
def State.retireRefusal (s : State) (v : Nat) : Option Nat :=
  let st := v % 16
  let r := st / 4 + 1
  let cap := s.pkg.capacity
  let tgt := s.pkg.captarget
  let dp := depthField tgt 0 * 512
  let dd := depthField tgt r * 512
  if s.retire.isSome || (s.regions.any fun g => g.applying.isSome) || (s.dies.any fun d => d.state != 0) || decide (s.mgmt.level < 2) then some 0x14
  else if 16 ≤ v then some 0x13
  else if s.pkg.retired ≠ 0 then some 0x15
  else if ((List.range 5).any fun k => k != 0 && k != r && depthField tgt k != depthField cap k) ||
      decide (depthField cap 0 < depthField tgt 0) || decide (depthField cap r < depthField tgt r) then some 0x16
  else if !invertible (s.region 0).a || !invertible (s.region r).a ||
      (dp != 0 && placesClash (newPlaces 0 st dp)) || (dd != 0 && placesClash (newPlaces r st dd)) then some 0x10
  else if decide (depthMax 0 < dp) || decide (depthMax r < dd) then some 0x11
  else if s.topBusy (topLine st dp dd) then some 0x12
  else none
/-- A retirement accepted (R347): the cached lines of the top ranges go without a write-back. -/
def State.retireAccept (s : State) (st : Nat) : State :=
  let r := st / 4 + 1
  let dp := depthField s.pkg.captarget 0 * 512
  let dd := depthField s.pkg.captarget r * 512
  let top := topLine st dp dd
  { s with
    retire := some ⟨st, dp, dd, newPlaces 0 st dp ++ newPlaces r st dd⟩
    mem := { s.mem with
      home := s.mem.home.filter fun h => !top h.1
      ways := s.mem.ways.filter fun w => !top w.line
      copies := s.mem.copies.filter fun c => !(c.space == .global && top c.line) }
    pkg := { s.pkg with retStatus := 1, retStack := st, retLeft := 1280, migphase := (s.pkg.migphase + 1) % 2 ^ 32 } }
/-- A write of RETIRESTK (R341, R342, R345). -/
def State.retireWrite (s : State) (v : Nat) : State :=
  match s.retireRefusal v with
  | none => s.retireAccept v
  | some st => if s.retire.isSome then s else s.modPkg fun p => { p with retStatus := st, retStack := v % 16 }
/-- RETIRE_STACK: what a RETIRESTK write does. -/
def execRetireStack (value : Nat) (s : State) : Host.Outcome State Fault Refusal := s.event fun s => s.retireWrite value
/-- The depth of a moving cell's region. -/
def Retire.depthOf (t : Retire) (m : MoveCell) : Nat := if m.region = 0 then t.pkgDepth else t.dieDepth
def State.modMoving (s : State) (cell : Nat) (f : MoveCell → MoveCell) : State :=
  { s with retire := s.retire.map fun t => { t with cells := lmod t.cells cell f } }
/-- RETIRE_CELL_START: the next cell in order starts when fewer than 64 are copying. -/
def execRetireCellStart (cell : Nat) (s : State) : Host.Outcome State Fault Refusal :=
  s.event fun s =>
    match s.retire with
    | none => s
    | some t =>
      let copying := (t.cells.filter fun m => m.started && !m.switched).length
      if copying < 64 ∧ t.cells.findIdx? (fun m => !m.started) = some cell then s.modMoving cell fun m => { m with started := true } else s
/-- The unit line that holds a row of a cell as the cell table has it. -/
def State.oldPlace (s : State) (m : MoveCell) (row : Nat) : Nat :=
  let e := s.cellEnt m.region m.cell
  unitLine e.1 (shareBase m.region + e.2.1 + row * e.2.2)
/-- The unit line that a row moves to. -/
def newPlace (m : MoveCell) (row : Nat) : Nat := unitLine m.stack (shareBase m.region + m.base + row)
/-- RETIRE_ROW_COPY: the row at the watermark is copied with its tags, poison and ciphertext's slot, poisoned throughout
where the old line cannot be corrected (R348); the watermark advances. -/
def execRetireRowCopy (cell : Nat) (s : State) : Host.Outcome State Fault Refusal :=
  s.event fun s =>
    match s.retire with
    | none => s
    | some t =>
      match t.cells[cell]? with
      | none => s
      | some m =>
        if !m.started || m.switched || decide (t.depthOf m ≤ m.mark) then s
        else
          let u := s.oldPlace m m.mark
          let w := newPlace m m.mark
          let um := match s.unitMeta u with
            | some x => tput s.mem.umeta w x
            | none => tdel s.mem.umeta w
          let s1 := { s with mem := { s.mem with
            units := s.mem.units.write (w * 128) (s.mem.units.read (u * 128) 128)
            umeta := um
            bad := s.mem.bad.filter fun b => b != w } }
          s1.modMoving cell fun x => { x with mark := x.mark + 1 }
/-- A stack powered down: what it held is gone (R347). -/
def State.powerDown (s : State) (stack : Nat) : State :=
  { s with mem := { s.mem with
      units := s.mem.units.clear (unitLine stack 0 * 128) (2 ^ 30 * 128)
      umeta := s.mem.umeta.filter fun x => x.1 / 2 ^ 30 != stack
      bad := s.mem.bad.filter fun b => b / 2 ^ 30 != stack } }
/-- RETIRE_CELL_SWITCH: a cell whose last row is written takes its new place; the last one commits the retirement. -/
def execRetireCellSwitch (cell : Nat) (s : State) : Host.Outcome State Fault Refusal :=
  s.event fun s =>
    match s.retire with
    | none => s
    | some t =>
      match t.cells[cell]? with
      | none => s
      | some m =>
        if !m.started || m.switched || decide (m.mark < t.depthOf m) then s
        else
          let s1 := (s.modMoving cell fun x => { x with switched := true }).modRegion m.region fun g =>
            { g with moved := tput g.moved m.cell (m.stack, m.base, 1) }
          let s2 := s1.modPkg fun p => { p with migphase := (p.migphase + 1) % 2 ^ 32, retLeft := p.retLeft - 1 }
          if s2.pkg.retLeft ≠ 0 then s2
          else { s2.powerDown t.stack with
            retire := none
            pkg := { s2.pkg with
              capacity := capWith s2.pkg.capacity (t.stack / 4 + 1) (t.pkgDepth / 512) (t.dieDepth / 512)
              migphase := (s2.pkg.migphase + 1) % 2 ^ 32
              retStatus := 2
              retired := setBit s2.pkg.retired t.stack true } }
/-! ### Requests to units (R348) -/

/-- A home slice's read of a line queued, unless one is. -/
def State.askUnit (s : State) (ln key : Nat) : State :=
  if s.mem.unitq.any fun q => q.2.line == ln && !q.2.write then s
  else
    let f := s.fresh
    { f.2 with mem := { f.2.mem with unitq := tput f.2.mem.unitq f.1 ⟨ln, false, [], [], [], key, f.2.pkg.migphase⟩ } }
/-- The request whose context, address and hint a fill takes. -/
def State.fillFor (s : State) (ln : Nat) : Option Req :=
  (s.work.reqs.find? fun q => q.2.space == .global && q.2.pa / 128 == ln && q.2.open_).map (·.2)
/-- UNIT_REQUEST: a request of a home MSC slice is served by the unit that holds the line's cell now; one routed under
an older PHASE is replayed with the current one, and one whose key slot is not keyed any more is dropped (R452). -/
def execUnitRequest (req : Nat) (s : State) : Host.Outcome State Fault Refusal :=
  s.event fun s =>
    match tget s.mem.unitq req with
    | none => s
    | some q =>
      if s.unitStalls q.line || (s.mem.unitq.any fun x => decide (x.1 < req) && x.2.line == q.line) then s
      else if q.phase ≠ s.pkg.migphase then
        { s with mem := { s.mem with unitq := tput s.mem.unitq req { q with phase := s.pkg.migphase } } }
      else
        let s1 := { s with mem := { s.mem with unitq := tdel s.mem.unitq req } }
        match (if s.keyed q.key then s.unitOf q.line else none) with
        | none => s1
        | some u =>
          if s.reach (s.homeDie q.line) (unitDie (u / 2 ^ 30)) ≠ .ok then s
          else if q.write then s1.unitWrite u q.key q.data q.tags q.poison
          else if (s1.homeLine q.line).isSome || s1.spaceOf (q.line * 128) != some .global then s1
          else
            let hl := s1.filled q.line q.key
            let s2 := (s1.drawFree 132).2.countRead q.line
            match s1.fillFor q.line with
            | some r => s2.placeHome q.line hl r.ctx (some r.va) r.hint
            | none => s2.placeHome q.line hl noCtx none .normal

end Sys2Proof.Machine
end

