-- ==== Sys2Proof/Machine/Copy.lean ====
section
/-! DEFINITION. The copy request engines (R228 to R232): requests checked, elements moved and counted, faults held. -/
namespace Sys2Proof.Machine

/-! ### Whom a copy works for -/

/-- Context, launch, engine, die, cluster and level of a copy. -/
structure CopyFor where
  ctx : Nat
  launch : Nat
  engine : Nat
  die : Nat
  cluster : Nat
  user : Bool
  loc : Nat
  scr : Nat
  deriving DecidableEq, Repr
/-- The engine of a die that serves copy nodes, as an engine number behind the cores'. -/
def nodeEngine (die : Nat) : Nat := 640 + die
/-- The scratchpad of a die that a context's copy node reaches (R355): of the context's launches that hold one there, the first
accepted; its launch and its bytes (DESIGN CHOICE, log entry 75). -/
def State.nodeScratch (s : State) (ctx die : Nat) : Nat × Nat :=
  match s.launches.filter fun l => l.2.ctx == ctx && l.2.csp != 0 && (tget s.mem.scratch (l.1 * 4 + die)).isSome with
  | l :: _ => (l.1, 20 * l.2.csp)
  | [] => (0, 0)
/-- Whom a copy works for: its team's launch, or a node, which has no local memory. -/
def State.copyFor (s : State) (c : Copy) : Option CopyFor :=
  match c.node with
  | some (ctx, _) =>
    let die := c.engine - 640
    let x := s.nodeScratch ctx die
    some ⟨ctx, x.1, c.engine, die, engineCluster die, false, 0, x.2⟩
  | none =>
    match tget s.teams c.team with
    | none => none
    | some t =>
      match tget s.launches t.launch with
      | none => none
      | some l => some ⟨l.ctx, t.launch, c.engine, coreDie c.engine, coreCluster c.engine, true, t.size, l.scrBytes⟩
def State.modCopy (s : State) (n : Nat) (f : Copy → Copy) : State := { s with work := { s.work with copies := tmod s.work.copies n f } }

/-! ### Elements (R231) -/

/-- Bytes of an element. -/
def CopyReq.e (r : CopyReq) : Nat := 2 ^ r.elem
/-- How many elements a request moves. -/
def CopyReq.count (r : CopyReq) : Nat := r.d0 * r.d1 * r.d2
/-- Whether a request's size can be trusted. -/
def CopyReq.sized (r : CopyReq) : Bool := decide (r.elem ≤ 4) && r.count != 0
def CopyReq.x (r : CopyReq) (k : Nat) : Nat := k % r.d0
def CopyReq.y (r : CopyReq) (k : Nat) : Nat := k / r.d0 % r.d1
def CopyReq.z (r : CopyReq) (k : Nat) : Nat := k / r.d0 / r.d1
def CopyReq.srcSpace (r : CopyReq) : Nat := nfld r.space 0 2
def CopyReq.dstSpace (r : CopyReq) : Nat := nfld r.space 2 2
/-- The row that a request's row y reads. -/
def CopyReq.row (r : CopyReq) (loc : Memory) (y : Nat) : Nat := if r.kind = 4 then Sys2Proof.Machine.ofBytes (loc.read (r.index + 4 * y) 4) else y
/-- Swz: the offset's bits [9:7], as the swizzle admits them, over its bits [6:4]. -/
def swz (mode p : Nat) : Nat :=
  let m := match mode with
    | 1 => 1
    | 2 => 3
    | 3 => 7
    | _ => 0
  p ^^^ (((p / 128) &&& m) * 16)
/-- Offsets of element k, modulo 2^64. -/
def CopyReq.srcOff (r : CopyReq) (loc : Memory) (k : Nat) : Nat :=
  wrapN ((r.row loc (r.y k) : Int) * r.ss1 + (r.z k : Int) * r.ss2 + ((r.x k * r.e : Nat) : Int)) 64
def CopyReq.dstOff (r : CopyReq) (k : Nat) : Nat :=
  swz (nfld r.flags 5 2) (wrapN ((r.y k : Int) * r.ds1 + (r.z k : Int) * r.ds2 + ((r.x k * r.e : Nat) : Int)) 64)
/-- The address of an offset in a space: global addresses keep the pointer's tag (R198). -/
def copyAddr (space base off : Nat) : Nat :=
  if space = 0 then globalAddr (BitVec.ofNat 64 base) off else (base + off) % 2 ^ 64
def CopyReq.src_ (r : CopyReq) (loc : Memory) (k : Nat) : Nat := copyAddr r.srcSpace r.src (r.srcOff loc k)
def CopyReq.dst_ (r : CopyReq) (k : Nat) : Nat := copyAddr r.dstSpace r.dst (r.dstOff k)

/-! ### Malformed requests (R230) -/

/-- Whether the fields that a kind does not use hold their neutral values. -/
def CopyReq.neutral (r : CopyReq) : Bool :=
  match r.kind with
  | 0 => r.d1 == 1 && r.d2 == 1 && r.ss1 == 0 && r.ss2 == 0 && r.ds1 == 0 && r.ds2 == 0 && r.index == 0
  | 1 => r.d2 == 1 && r.ss2 == 0 && r.ds2 == 0 && r.index == 0
  | 2 => r.index == 0
  | 3 => r.src / 2 ^ (8 * min 8 r.e) == 0 && r.ss1 == 0 && r.ss2 == 0 && r.index == 0
  | 4 => true
  | _ => false
/-- The bytes that a space holds for a copy; global memory has no limit here. -/
def CopyFor.limit (f : CopyFor) (space : Nat) : Option Nat :=
  match space with
  | 0 => none
  | 1 => some f.loc
  | _ => some f.scr
/-- Whether an element's address is aligned and within its space. -/
def CopyFor.elemOk (f : CopyFor) (space e a : Nat) : Bool :=
  a % e == 0 && match f.limit space with
    | none => true
    | some n => decide (a + e ≤ n)
/-- Whether the source and destination addresses themselves are aligned to the element. -/
def CopyReq.addrsOk (r : CopyReq) : Bool := r.dst % r.e == 0 && (r.kind == 3 || r.src % r.e == 0)
/-- Whether a request is malformed. -/
def CopyReq.malformed (r : CopyReq) (f : CopyFor) (loc : Memory) : Bool :=
  r.rsvd || !r.sized || !r.neutral || !r.addrsOk || r.srcSpace == 3 || r.dstSpace == 3 || (nfld r.flags 5 2 != 0 && r.dstSpace != 1) ||
  (r.kind == 4 && decide (f.loc < r.index + 4 * r.d1)) ||
  (List.range r.count).any fun k =>
    !f.elemOk r.dstSpace r.e (r.dst_ k) || (r.kind != 3 && !f.elemOk r.srcSpace r.e (r.src_ loc k))

/-! ### Counting and completion (R227, R228, R232) -/

/-- Bytes counted down on a request's slot, with an ERR bit if one comes along. -/
def State.copyCount (s : State) (c : Copy) (n err : Nat) : State :=
  if c.node.isSome ∨ !nbit c.req.flags 4 then s
  else s.modBc c.team (nfld c.req.flags 0 4) fun b =>
    { b with count := max (b.count - n) (-(2 ^ 39 : Int)), err := b.err ||| err }
/-- A request leaves its engine once nothing of it is on its way: the group's waits for it end, or its node is told. -/
def State.copyCheck (s : State) (n : Nat) : State :=
  match tget s.work.copies n with
  | none => s
  | some c =>
    if !c.flying.isEmpty || !(c.stopped || decide (c.req.count ≤ c.next)) then s
    else
      let s1 := { s with work := { s.work with copies := tdel s.work.copies n } }
      let s2 := ((s1.modAwaits fun a => a.dropCopy n c.w).noteW c.gid .copy c.w).handedDone fun a => a.dropCopy n c.w
      match c.node with
      | none => s2
      | some (x, k) =>
        if c.err ≠ 0 then s2.nodeFail x k 0x0E c.addr
        else if s2.work.copies.any fun y => y.2.node == some (x, k) then s2
        else s2.nodeDone x k
/-- A request stops: its remaining bytes count, and its ERR bit is set. -/
def State.copyStop (s : State) (n : Nat) (err : Nat) : State :=
  match tget s.work.copies n with
  | none => s
  | some c =>
    let left := c.req.count * c.req.e - c.counted - c.flying.length * c.req.e
    ((s.copyCount c left err).modCopy n fun x => { x with stopped := true, err := x.err ||| err, counted := x.counted + left }).copyCheck n
/-- A malformed request: all its bytes count; without a size that can be trusted, COUNT falls to 0 instead. -/
def State.copyBad (s : State) (n : Nat) (c : Copy) : State :=
  if c.req.sized then s.copyStop n 1
  else
    let s1 := s.copyCount c 0 1
    let s2 := if c.node.isSome ∨ !nbit c.req.flags 4 then s1
      else s1.modBc c.team (nfld c.req.flags 0 4) fun b => { b with count := min b.count 0 }
    (s2.modCopy n fun x => { x with stopped := true, err := 1 }).copyCheck n
/-- A fault of a copy: held through the fault queue, or the request's end, or the context's. -/
def State.copyFault (s : State) (n : Nat) (c : Copy) (f : CopyFor) (st addr : Nat) (write : Bool) : State :=
  if st = stMoving then s
  else if resolvable st then
    let k := s.fresh
    let tl := match tget s.teams c.team, tget s.launches f.launch with
      | some t, some l => t.linear l
      | _, _ => 0
    let r : FaultRec :=
      { ctx := f.ctx, kind := 3, status := st, core := if c.node.isSome then 0xFFFF else c.engine, team := tl, group := 0,
        write := write, read := !write, addr := addr, lanes := 0, seq := 0, holder := n, moving := false }
    (k.2.setFaults (tput k.2.work.faults k.1 r)).modCopy n fun x => { x with fault := some k.1 }
  else if st = stPhys then s.enginePhys f.ctx
  else s.copyStop n (if st = stPoison ∨ st = stOff then 8 else 2)
/-- A kind 3 fault resolved (R232, R352): the request goes on, or stops there under DELIVER. -/
def State.copyResolve (s : State) (n : Nat) (deliver : Bool) : State :=
  let s1 := s.modCopy n fun x => { x with fault := none }
  if deliver then s1.copyStop n 2 else s1

/-! ### The engine -/

/-- The hint that a request names for global memory (R103), or the leaf's. -/
def CopyReq.hint (r : CopyReq) (leaf : Hint) : Hint :=
  match Hint.ofCode (nfld r.space 4 2) with
  | some .normal => leaf
  | some h => h
  | none => leaf
/-- Whether a copy's engine may go on with it: no request of the engine is held by a fault, and its die sends
requests. -/
def State.engineFree (s : State) (c : Copy) (die : Nat) : Bool :=
  !(s.work.copies.any fun x => x.2.engine == c.engine && x.2.fault.isSome) && decide ((s.die die).state ≤ 1)
/-- COPY_REQUEST_EXECUTE: a request starts: a node's is read from global memory, and every request is checked. -/
def execCopyRequestExecute (copy : Nat) (s : State) : Host.Outcome State Fault Refusal :=
  s.event fun s =>
    match tget s.work.copies copy with
    | none => s
    | some c =>
      match s.copyFor c with
      | none => s
      | some f =>
        if c.started || c.stopped || !s.engineFree c f.die then s
        else
          let loc := match tget s.teams c.team with
            | some t => t.loc
            | none => []
          let go (t : State) (d : Copy) : State :=
            if d.req.malformed f loc then (t.modCopy copy fun _ => d).copyBad copy d
            else t.modCopy copy fun _ => { d with started := true }
          if c.node.isNone then go s c
          else match s.readVia (some (.copyBuf f.engine)) f.cluster f.die f.ctx f.user c.addr 64 with
            | (.error (st, a), s1) => s1.copyFault copy c f st a false
            | (.ok b, s1) => go s1 { c with req := CopyReq.ofBytes b }
/-- Elements handled in any order: `next` passes those that are. -/
def skipEarly : Nat → Nat → List Nat → Nat × List Nat
  | 0, n, l => (n, l)
  | k + 1, n, l => if l.contains n then skipEarly k (n + 1) (l.filter (· != n)) else (n, l)
/-- An element handled. -/
def Copy.handled (c : Copy) (el : Nat) : Copy :=
  let r := skipEarly (c.early.length + 1) c.next (el :: c.early)
  { c with next := r.1, early := r.2 }
/-- What reading an element's source answers. -/
inductive ElemRes where
  | bytes (b : List Byte)
  | fault (status addr : Nat)
  | tag
  | wait
  deriving DecidableEq, Repr
/-- A global access of a copy: translated and its tags compared. -/
def State.copyTrans (s : State) (f : CopyFor) (a e : Nat) (canon write : Bool) : (Except ElemRes Trans) × State :=
  if !canon then (.error (.fault 0x06 (vaOf a)), s)
  else match s.translate f.cluster f.die f.ctx (vaOf a) ⟨write, false, f.user⟩ with
    | (.fault st, s1) => (.error (.fault st (vaOf a)), s1)
    | (.sparse, s1) => (.error (.fault 0x01 (vaOf a)), s1)
    | (.moving, _) => (.error .wait, s)
    | (.phys, s1) => (.error (.fault stPhys (vaOf a)), s1)
    | (.ok t, s1) =>
      if s1.spaceOf t.pa = none then (.error (.fault stPhys (vaOf a)), s1)
      else if (s1.tagMiss e ⟨0, a, t⟩).isSome then (.error .tag, s1)
      else (.ok t, s1)
/-- An element's bytes: from global memory through the engine's leased read buffer (R299, R308); of a fill, the pattern, whose
upper eight bytes are free values where the element has sixteen, for the source field holds eight (DESIGN CHOICE, log entry 74). -/
def State.copyRead (s : State) (f : CopyFor) (r : CopyReq) (loc : Memory) (k : Nat) : ElemRes × State :=
  let a := r.src_ loc k
  if r.kind = 3 then
    if r.e ≤ 8 then (.bytes (toBytes r.e r.src), s)
    else
      let f := s.drawFree 8
      (.bytes (toBytes 8 r.src ++ (List.range 8).map fun i => Config.freeByte (f.1 + i)), f.2)
  else match r.srcSpace with
    | 1 => (.bytes (loc.read a r.e), s)
    | 2 => (.bytes ((s.scratchOf f.launch f.die).read a r.e), s)
    | _ =>
      match s.copyTrans f a r.e (canonical (BitVec.ofNat 64 r.src)) false with
      | (.error x, s1) => (x, s1)
      | (.ok t, s1) =>
        let ln := t.pa / 128
        let h : Holder := .copyBuf f.engine
        let leased (u : State) : ElemRes × State :=
          let x := u.leasedLine h f.die ln t.key f.ctx (vaOf a) t.lro (r.hint t.hint)
          (.bytes (slice x.1 (t.pa % 128) r.e), x.2)
        if s1.spaceOf t.pa = some .global ∧ ((s1.leasedCopy h f.die ln t.key).isSome ∨ (s1.leasedCopy (.l2 f.die) f.die ln t.key).isSome) then
          leased s1
        else if s1.reachFor f.die t.pa = .broken then (.fault stOff (vaOf a), s1)
        else if s1.reachFor f.die t.pa = .wait then (.wait, s)
        else if s1.spaceOf t.pa = some .global then
          if !s1.keyed t.key then (.fault stPoison (vaOf a), s1)
          else match s1.bring ln t.key f.ctx (some (vaOf a)) (r.hint t.hint) with
            | none => (.wait, s)
            | some s2 => if s2.poisonedAt t.pa r.e t.key then (.fault stPoison (vaOf a), s2) else leased s2
        else
          let k := s1.taken t.pa
          if k.1 then (.bytes ((s1.physRead t.pa r.e t.key).getD []), k.2) else (.fault stOff (vaOf a), k.2)
/-- An element written at its destination, local bytes counted at once. -/
def State.copyWrite (s : State) (n : Nat) (c : Copy) (f : CopyFor) (el : Nat) (b : List Byte) : State :=
  let r := c.req
  let a := r.dst_ el
  let fly (t : State) (w : Nat) : State :=
    t.modCopy n fun x => { x.handled el with flying := x.flying ++ [(el, w)], w := max x.w w }
  match r.dstSpace with
  | 1 =>
    let s1 := (s.modTeam c.team fun t => { t with loc := t.loc.write a b }).copyCount c r.e 0
    (s1.modCopy n fun x => { x.handled el with counted := x.counted + r.e }).copyCheck n
  | 2 => fly (s.setScratch f.launch f.die ((s.scratchOf f.launch f.die).write a b)) (s.gtAt f.die)
  | _ =>
    match s.copyTrans f a r.e (canonical (BitVec.ofNat 64 r.dst)) true with
    | (.error .wait, _) => s
    | (.error .tag, s1) => s1.copyStop n 4
    | (.error (.fault st x), s1) => s1.copyFault n c f st x true
    | (.error (.bytes _), s1) => s1
    | (.ok t, s1) =>
      let k := s1.taken t.pa
      if s1.writeRefused f.die t then s1.copyFault n c f stOff (vaOf a) true
      else if s1.reachFor f.die t.pa = .wait then s
      else if !k.1 then k.2.copyFault n c f stOff (vaOf a) true
      else
        let w := k.2.devStoreFor f.die f.ctx (vaOf a) (r.hint t.hint) t.pa t.key b
        fly w.2 w.1
/-- COPY_ELEMENT_WRITE: one element of a request moves whole; once its write has been performed with GT past its W by
more than 2 ns, the same event counts its bytes. -/
def execCopyElementWrite (copy element : Nat) (s : State) : Host.Outcome State Fault Refusal :=
  s.event fun s =>
    match tget s.work.copies copy with
    | none => s
    | some c =>
      match s.copyFor c with
      | none => s
      | some f =>
        match c.flying.find? fun x => x.1 == element with
        | some (_, w) =>
          if w + 2 < s.gtAt f.die then
            ((s.copyCount c c.req.e 0).modCopy copy fun x =>
              { x with flying := x.flying.filter (fun y => y.1 != element), counted := x.counted + c.req.e }).copyCheck copy
          else s
        | none =>
          if !c.started || c.stopped || !s.engineFree c f.die ||
              decide (element < c.next) || c.early.contains element || decide (c.req.count ≤ element) then s
          else
            let loc := match tget s.teams c.team with
              | some t => t.loc
              | none => []
            match s.copyRead f c.req loc element with
            | (.wait, _) => s
            | (.tag, s1) => s1.copyStop copy 4
            | (.fault st a, s1) => s1.copyFault copy c f st a false
            | (.bytes b, s1) => s1.copyWrite copy c f element b

end Sys2Proof.Machine
end

