-- ==== Sys2Proof/Machine/Ray.lean ====
section
/-! DEFINITION. The ray units: RBOX and RTRI (R269 to R271) on the formats of R438 to R440. Both read their records as
loads on the TEX path and compute when the records have arrived. -/
namespace Sys2Proof.Machine

def execRbox (d y sr n : Nat) (s : State) : Host.Outcome State Fault Refusal := s.issue (.rbox d y sr n) GI.access matSpan
def execRtri (d y sr n : Nat) (cull : Cull) (s : State) : Host.Outcome State Fault Refusal :=
  s.issue (.rtri d y sr n cull) GI.access matSpan

/-! ### Exact arithmetic -/

/-- A finite value as a ratio of integers. -/
def FVal.rat : FVal → Int × Nat
  | .fin n m e =>
    let i : Int := if n then -(m : Int) else m
    if 0 ≤ e then (i * (2 ^ e.toNat : Nat), 1) else (i, 2 ^ (-e).toNat)
  | _ => (0, 1)
/-- Whether a value is finite. -/
def FVal.finite : FVal → Bool
  | .fin _ _ _ => true
  | _ => false
/-- A ratio, rounded once to F32 in a direction. -/
def ratF32 (rnd : Rnd) (num : Int) (den : Nat) (zneg : Bool) : Nat :=
  if num = 0 then fmtF32.sign zneg
  else (fmtF32.round ⟨rnd, false, false⟩ (.val (decide (num < 0)) num.natAbs den 0) 0).1
/-- Comparison of two F32 patterns as extended reals; false with a NaN. -/
def leF32 (a b : Nat) : Bool :=
  let x := fmtF32.value a
  let y := fmtF32.value b
  !x.isNan && !y.isNan && !fLt false y x
/-- +∞ and −∞. -/
def infF32 : Nat := 0x7F800000
def ninfF32 : Nat := 0xFF800000

/-! ### RBOX (R270, R438) -/

/-- A child's bound on an axis: origin + q·2^e, rounded outward to F32. -/
def childBound (origin : Nat) (q : Nat) (e : Int) (up : Bool) : Nat :=
  match fmtF32.value origin with
  | .fin n m g =>
    let lo := min g e
    (fmtF32.round ⟨if up then .ru else .rd, false, false⟩
      (Exact.ofInt (finAt n m g lo + (q : Int) * (2 ^ (e - lo).toNat : Nat)) lo false) 0).1
  | _ => origin
/-- The distance (bound − origin)/direction, rounded down or up; infinities follow IEEE arithmetic. -/
def slabDist (bound origin dir : Nat) (up : Bool) : Nat :=
  let rnd : Rnd := if up then .ru else .rd
  match fmtF32.value bound, fmtF32.value origin, fmtF32.value dir with
  | .fin bn bm be, .fin on om oe, .fin dn dm de =>
    let lo := min be oe
    let num := finAt bn bm be lo - finAt on om oe lo
    if num = 0 then fmtF32.sign ((rnd == .rd) != dn)
    else (fmtF32.round ⟨rnd, false, false⟩ (.val (decide (num < 0) != dn) num.natAbs dm (lo - de)) 0).1
  | .inf bn, .fin _ _ _, .fin dn _ _ => if bn != dn then ninfF32 else infF32
  | .fin _ _ _, .inf on, .fin dn _ _ => if on == dn then ninfF32 else infF32
  | .fin _ _ _, .fin _ _ _, .inf dn => fmtF32.sign dn
  | _, _, _ => fmtF32.nanPat
/-- An axis of a box: the entry and exit distances, none for a miss (R270). A distance is NaN where no value follows from
infinite operands. -/
def slab (lo hi origin dir : Nat) : Option (Nat × Nat) :=
  match fmtF32.value dir with
  | .fin n m _ =>
    if m = 0 then
      (if (fmtF32.value lo).isNan then some (fmtF32.nanPat, fmtF32.nanPat)
       else if leF32 lo origin && leF32 origin hi then some (ninfF32, infF32) else none)
    else if n then some (slabDist hi origin dir false, slabDist lo origin dir true)
    else some (slabDist lo origin dir false, slabDist hi origin dir true)
  | _ => some (slabDist lo origin dir false, slabDist hi origin dir true)
/-- The greater, or the lesser, of two non-NaN F32 patterns; the first of equal ones. -/
def maxF32 (a b : Nat) : Nat := if leF32 b a then a else b
def minF32 (a b : Nat) : Nat := if leF32 a b then a else b
/-- What a ray does to a child: it misses, it hits at an entry distance, or the spec states neither. -/
inductive ChildRes where
  | miss
  | hit (t : Nat)
  | open_
  deriving DecidableEq, Repr
/-- A child of a node under a ray without NaN. An axis whose distances no arithmetic gives leaves the child open, unless the
others already make it a miss. -/
def childHit (b : List Byte) (ray : List Nat) (c : Nat) : ChildRes :=
  let ref := rdN b (0x10 + 4 * c) 4
  let q (k : Nat) : Nat := rdN b (0x20 + 6 * c + k) 1
  let ex (a : Nat) : Int := sgn (rdN b (0x0C + a) 1) 8
  if ref = 0xFFFFFFFF ∨ q 3 < q 0 ∨ q 4 < q 1 ∨ q 5 < q 2 then .miss
  else
    let ax := (List.range 3).map fun a =>
      slab (childBound (rdN b (4 * a) 4) (q a) (ex a) false) (childBound (rdN b (4 * a) 4) (q (3 + a)) (ex a) true)
        (ray.getD a 0) (ray.getD (3 + a) 0)
    if ax.any Option.isNone then .miss
    else
      let odd (x : Nat × Nat) : Bool := (fmtF32.value x.1).isNan || (fmtF32.value x.2).isNan
      let l := (ax.filterMap id).filter fun x => !odd x
      let entry := l.foldl (fun m x => maxF32 m x.1) ninfF32
      let exit := l.foldl (fun m x => minF32 m x.2) infF32
      if !(leF32 entry exit && leF32 entry (ray.getD 7 0) && leF32 (ray.getD 6 0) exit) then .miss
      else if l.length < 3 then .open_
      else .hit entry
/-- Insertion in ascending entry distance, ties in slot order. -/
def insHit (x : Nat × Nat) : List (Nat × Nat) → List (Nat × Nat)
  | [] => [x]
  | y :: r => if leF32 y.2 x.2 then y :: insHit x r else x :: y :: r
/-- RBOX's eight results for a node's bytes and a ray; none for a word that the spec does not state. Where children are
open, so are the order of the hits and their number up to those children; the misses behind are stated. -/
def rboxLane (b : List Byte) (ray : List Nat) : List (Option Nat) :=
  let nan := ray.any fun x => (fmtF32.value x).isNan
  let res : List ChildRes :=
    if nan || rdN b 0x0F 1 != 0 || rdN b 0x38 8 != 0 then [] else (List.range 4).map (childHit b ray)
  let hits : List (Nat × Nat) := res.zipIdx.foldl (fun l c => match c.1 with
    | .hit t => insHit (rdN b (0x10 + 4 * c.2) 4, t) l
    | _ => l) []
  let opens := (res.filter fun x => decide (x = .open_)).length
  let col (f : Nat × Nat → Nat) (pad : Nat) : List (Option Nat) :=
    (if opens = 0 then hits.map fun x => some (f x) else List.replicate (hits.length + opens) none) ++
      List.replicate (4 - hits.length - opens) (some pad)
  col (·.1) 0xFFFFFFFF ++ col (·.2) infF32

/-! ### RTRI (R271, R439) -/

/-- An F32 as an integer multiple of 2^−149. -/
def f32Int (x : Nat) : Int :=
  match fmtF32.value x with
  | .fin n m e => finAt n m e (-149)
  | _ => 0
/-- A vector of three integers. -/
abbrev V3 := Int × Int × Int
def V3.sub (a b : V3) : V3 := (a.1 - b.1, a.2.1 - b.2.1, a.2.2 - b.2.2)
def V3.cross (a b : V3) : V3 := (a.2.1 * b.2.2 - a.2.2 * b.2.1, a.2.2 * b.1 - a.1 * b.2.2, a.1 * b.2.1 - a.2.1 * b.1)
def V3.dot (a b : V3) : Int := a.1 * b.1 + a.2.1 * b.2.1 + a.2.2 * b.2.2
def v3At (l : List Nat) (k : Nat) : V3 := (f32Int (l.getD k 0), f32Int (l.getD (k + 1) 0), f32Int (l.getD (k + 2) 0))
/-- Whether a bound and a ratio compare: bound ≤ num/den for den > 0. -/
def boundLe (b : Nat) (num : Int) (den : Nat) : Bool :=
  match fmtF32.value b with
  | .nan _ => false
  | .inf n => n
  | v => decide (v.rat.1 * den ≤ num * v.rat.2)
def boundGe (b : Nat) (num : Int) (den : Nat) : Bool :=
  match fmtF32.value b with
  | .nan _ => false
  | .inf n => !n
  | v => decide (num * v.rat.2 ≤ v.rat.1 * den)
/-- RTRI's four results for a triangle's bytes and a finite ray. The barycentrics are the weights of vertices 1 and 2. -/
def rtriHit (b : List Byte) (ray : List Nat) (cull : Cull) : List Nat :=
  let miss := [infF32, 0, 0, 0]
  let vs := (List.range 9).map fun k => rdN b (4 * k) 4
  let o := v3At ray 0
  let d := v3At ray 3
  let a := V3.sub (v3At vs 0) o
  let p := V3.sub (v3At vs 3) o
  let q := V3.sub (v3At vs 6) o
  let e0 := V3.dot d (V3.cross p q)
  let e1 := V3.dot d (V3.cross q a)
  let e2 := V3.dot d (V3.cross a p)
  let n := V3.cross (V3.sub p a) (V3.sub q a)
  let sum := e0 + e1 + e2
  let den := V3.dot n d
  let word := rdN b 0x24 4
  if !((0 ≤ e0 ∧ 0 ≤ e1 ∧ 0 ≤ e2) ∨ (e0 ≤ 0 ∧ e1 ≤ 0 ∧ e2 ≤ 0)) ∨ sum = 0 ∨ den = 0 then miss
  else
    let back := decide (0 < den)
    let num := V3.dot n a * (if den < 0 then -1 else 1)
    let t := (num, den.natAbs)
    if !boundLe (ray.getD 6 0) t.1 t.2 ∨ !boundGe (ray.getD 7 0) t.1 t.2 then miss
    else if (cull = .back ∧ back) ∨ (cull = .front ∧ !back) then miss
    else
      let w (e : Int) : Nat := ratF32 .rn (e * (if sum < 0 then -1 else 1)) sum.natAbs false
      [ratF32 .rn t.1 t.2 false, w e1, w e2, 1 + 2 * b2n back + 16 * word]
/-- RTRI's four results; none for words that the spec does not state. A record with a reserved field set is a miss (R440),
and so is a ray whose interval holds no t; else a coordinate that is not finite leaves the result open. -/
def rtriLane (cull : Cull) (b : List Byte) (ray : List Nat) : List (Option Nat) :=
  if rdN b 0x24 4 / 2 ^ 28 ≠ 0 ∨ !leF32 (ray.getD 6 0) (ray.getD 7 0) then [some infF32, some 0, some 0, some 0]
  else if (ray.take 6).any (fun x => !(fmtF32.value x).finite) || (List.range 9).any fun k => !(fmtF32.value (rdN b (4 * k) 4)).finite then
    List.replicate 4 none
  else (rtriHit b ray cull).map some

/-! ### Results -/

/-- A word of four free bytes. -/
def freeWord (n : Nat) : Word := BitVec.ofNat 32 (ofBytes ((List.range 4).map fun i => Config.freeByte (n + i)))
/-- The register writes of RBOX and RTRI, from the bytes that lanes received; results that the spec does not state
are free. -/
def State.rayWrites (s : State) (op : Op) (got : Nat → Option (List Byte)) : List RegWrite × State :=
  let ray (l : Nat) : List Nat := (List.range 8).map fun k => (laneVal (op.vvals.getD (1 + k) []) l).toNat
  let have_ := maskOf fun l => inMask op.lanes l && (got l).isSome
  let make (d n : Nat) (f : List Byte → List Nat → List (Option Nat)) : List RegWrite × State :=
    let res := laneIx.map fun l => match got l with
      | some b => if inMask op.lanes l then f b (ray l) else []
      | none => []
    let fr := if res.any fun x => x.contains none then s.drawFree (64 * 4 * n) else (0, s)
    ((List.range n).map fun k => .vec (d + k) have_ (vecOf fun l =>
      match (res.getD l []).getD k (some 0) with
      | some v => BitVec.ofNat 32 v
      | none => freeWord (fr.1 + 4 * (n * l + k))), fr.2)
  match op.instr with
  | .rbox d _ _ _ => make d 8 rboxLane
  | .rtri d _ _ _ cull => make d 4 (rtriLane cull)
  | _ => ([], s)

end Sys2Proof.Machine
end

