-- ==== Sys2Proof/Machine/Texture.lean ====
section
/-! DEFINITION. TSAMP and the texture path (R268, R432 to R437): records, texel formats, filtering and the level of
detail. -/
namespace Sys2Proof.Machine

/-! ### Records (R432 to R434) -/

/-- A resource record. -/
structure TexRec where
  kind : Nat
  format : Nat
  filter : Nat
  addr : Nat
  w : Nat
  h : Nat
  d : Nat
  levels : Nat
  base : Nat
  deriving DecidableEq, Repr

/-- Bytes of a texel, channels, and the width of a channel; none for a reserved code. -/
def texFormat (c : Nat) : Option (Nat × Nat) :=
  match c with
  | 1 => some (4, 1)
  | 2 => some (8, 2)
  | 3 => some (16, 4)
  | 4 => some (2, 1)
  | 5 => some (4, 2)
  | 6 => some (8, 4)
  | 7 => some (2, 1)
  | 8 => some (1, 1)
  | 9 => some (2, 2)
  | 10 => some (4, 4)
  | 11 => some (4, 4)
  | 12 => some (2, 1)
  | 13 => some (4, 2)
  | _ => none
/-- Bytes of a texel (R434). -/
def TexRec.b (r : TexRec) : Nat := ((texFormat r.format).getD (1, 1)).1
/-- The dimensions of a level (R433). -/
def TexRec.wk (r : TexRec) (k : Nat) : Nat := max 1 (r.w / 2 ^ k)
def TexRec.hk (r : TexRec) (k : Nat) : Nat := max 1 (r.h / 2 ^ k)
def TexRec.dk (r : TexRec) (k : Nat) : Nat := if r.kind = 3 then max 1 (r.d / 2 ^ k) else r.d
def TexRec.rowPitch (r : TexRec) (k : Nat) : Nat := rup (r.wk k * r.b) 16
def TexRec.slicePitch (r : TexRec) (k : Nat) : Nat := rup (r.hk k * r.rowPitch k) 256
def TexRec.off (r : TexRec) (k : Nat) : Nat := (List.range k).foldl (fun a j => a + r.dk j * r.slicePitch j) 0
/-- The address of a texel (R433). -/
def TexRec.texel (r : TexRec) (k i j z : Nat) : Nat := r.base + r.off k + z * r.slicePitch k + j * r.rowPitch k + i * r.b
/-- A record's fields; none when it breaks a limit of R432 or its format is reserved (R268). -/
def texRec (b : List Byte) : Option TexRec :=
  let r : TexRec := ⟨rdN b 0 1, rdN b 1 1, rdN b 2 1, rdN b 3 1, rdN b 4 2, rdN b 6 2, rdN b 8 2, rdN b 0x0A 1, rdN b 0x10 8⟩
  let size := max r.w (max (if r.kind = 1 then 1 else r.h) (if r.kind = 3 then r.d else 1))
  if r.kind = 0 ∨ 4 < r.kind ∨ (texFormat r.format).isNone ∨ 2 < r.filter ∨ 63 < r.addr ∨
      nfld r.addr 0 2 = 3 ∨ nfld r.addr 2 2 = 3 ∨ nfld r.addr 4 2 = 3 ∨ r.w = 0 ∨ 16384 < r.w ∨ r.h = 0 ∨ 16384 < r.h ∨
      r.d = 0 ∨ 16384 < r.d ∨ (r.kind = 1 ∧ r.h ≠ 1) ∨ ((r.kind = 1 ∨ r.kind = 2) ∧ r.d ≠ 1) ∨ r.levels = 0 ∨ 15 < r.levels ∨
      size < 2 ^ (r.levels - 1) ∨ rdN b 0x0B 5 ≠ 0 ∨ r.base % 256 ≠ 0 ∨ rdN b 0x18 40 ≠ 0
  then none else some r
/-- The axes that a record filters over, and the F32 coordinates that it needs. -/
def TexRec.axes (r : TexRec) : Nat :=
  match r.kind with
  | 1 => 1
  | 3 => 3
  | _ => 2
def TexRec.coords (r : TexRec) : Nat := if r.kind = 4 then 3 else r.axes
/-- The sizes of the filtered axes at a level. -/
def TexRec.size (r : TexRec) (k a : Nat) : Nat :=
  match a with
  | 0 => r.wk k
  | 1 => r.hk k
  | _ => r.dk k

/-! ### Texels (R434) -/

/-- The greatest t below 2^n with p t, for p true up to some point. -/
def greatest : Nat → Nat → (Nat → Bool) → Nat
  | 0, t, _ => t
  | n + 1, t, p => if p (t + 2 ^ n) then greatest n (t + 2 ^ n) p else greatest n t p
/-- The sRGB transfer function of an 8-bit channel, rounded once: x/12.92 up to x = 0.04045, else
((x + 0.055)/1.055)^2.4, whose fifth power is a twelfth power. -/
def srgbF32 (n : Nat) : Nat :=
  if n * 100000 ≤ 4045 * 255 then ratF32 .rn (n * 100) (255 * 1292) false
  else
    let num := n * 1000 + 55 * 255
    let den := 1055 * 255
    let t := greatest 61 0 fun t => decide (t ^ 5 * den ^ 12 ≤ num ^ 12 * 2 ^ 300)
    let exact := t ^ 5 * den ^ 12 == num ^ 12 * 2 ^ 300
    (fmtF32.round FEnv.plain (.val false (2 * t + (if exact then 0 else 1)) 1 (-61)) 0).1
/-- The four channels of a texel as F32 patterns. -/
def texelChannels (format : Nat) (b : List Byte) : List Nat :=
  let f32 (k : Nat) : Nat := rdN b (4 * k) 4
  let wide (t : EType) (k : Nat) : Nat := (conv t .f32 FEnv.plain (rdN b (2 * k) 2) 0).1
  let n8 (k : Nat) : Nat := ratF32 .rn (rdN b k 1) 255 false
  let n16 (k : Nat) : Nat := ratF32 .rn (rdN b (2 * k) 2) 65535 false
  let one := 0x3F800000
  match format with
  | 1 => [f32 0, 0, 0, one]
  | 2 => [f32 0, f32 1, 0, one]
  | 3 => [f32 0, f32 1, f32 2, f32 3]
  | 4 => [wide .f16 0, 0, 0, one]
  | 5 => [wide .f16 0, wide .f16 1, 0, one]
  | 6 => [wide .f16 0, wide .f16 1, wide .f16 2, wide .f16 3]
  | 7 => [wide .bf16 0, 0, 0, one]
  | 8 => [n8 0, 0, 0, one]
  | 9 => [n8 0, n8 1, 0, one]
  | 10 => [n8 0, n8 1, n8 2, n8 3]
  | 11 => [srgbF32 (rdN b 0 1), srgbF32 (rdN b 1 1), srgbF32 (rdN b 2 1), n8 3]
  | 12 => [n16 0, 0, 0, one]
  | 13 => [n16 0, n16 1, 0, one]
  | _ => [0, 0, 0, one]

/-! ### Addressing and filtering (R437) -/

/-- An index mapped into an axis of size n. -/
def texIndex (mode n : Nat) (i : Int) : Nat :=
  match mode with
  | 0 => (i % (n : Int)).toNat
  | 1 => if i < 0 then 0 else min i.toNat (n - 1)
  | _ =>
    let m := (i % (2 * n : Int)).toNat
    if m < n then m else 2 * n - 1 - m
/-- The texels of one axis with their weights in 256ths. -/
def axisTexels (linear : Bool) (mode n : Nat) (c : FVal) : List (Nat × Nat) :=
  let p := exMul c (.fin false n 0)
  let x := p.1.rat
  if linear then
    let t := (fmtF32.value (ratF32 .rn (2 * x.1 - x.2) (2 * x.2) false)).rat
    let i0 := t.1 / (t.2 : Int)
    let a := ((t.1 - i0 * t.2) * 256 / (t.2 : Int)).toNat
    [(texIndex mode n i0, 256 - a), (texIndex mode n (i0 + 1), a)]
  else [(texIndex mode n (x.1 / (x.2 : Int)), 256)]
/-- A value rounded to the nearest integer, ties to even. -/
def nearestInt (v : FVal) : Int :=
  match v with
  | .fin n m e =>
    let k : Int := roundInt .rn n m 1 (min e 200) 0
    if n then -k else k
  | _ => 0
/-- The slice of an array record: the layer, rounded and clamped (R436). -/
def TexRec.layer (r : TexRec) (c : FVal) : Nat :=
  match c with
  | .inf n => if n then 0 else r.d - 1
  | v => texIndex 1 r.d (nearestInt v)
/-- The texels of a level: address, weight in 2^−24. -/
def TexRec.levelTexels (r : TexRec) (k : Nat) (cs : List FVal) : List (Nat × Nat) :=
  let lin := r.filter != 0
  let ax (a : Nat) : List (Nat × Nat) :=
    if a < r.axes then axisTexels lin (nfld r.addr (2 * a) 2) (r.size k a) (cs.getD a (.fin false 0 0)) else [(0, 256)]
  let lay := if r.kind = 4 then r.layer (cs.getD 2 (.fin false 0 0)) else 0
  (ax 2).flatMap fun z => (ax 1).flatMap fun y => (ax 0).map fun x =>
    (r.texel k x.1 y.1 (if r.kind = 4 then lay else z.1), x.2 * y.2 * z.2)
/-- The level λ as a ratio, clamped to the record's levels; a NaN selects level 0 (R436). -/
def TexRec.level (r : TexRec) (lam : Nat) : Int × Nat :=
  match fmtF32.value lam with
  | .nan _ => (0, 1)
  | .inf n => if n then (0, 1) else ((r.levels - 1 : Nat), 1)
  | v =>
    let x := v.rat
    if x.1 < 0 then (0, 1) else if ((r.levels - 1 : Nat) : Int) * x.2 < x.1 then ((r.levels - 1 : Nat), 1) else x
/-- The levels that a lane's sample reads. -/
def TexRec.levelsAt (r : TexRec) (lam : Nat) : List Nat :=
  let x := r.level lam
  if r.filter = 2 then
    let k := (x.1 / (x.2 : Int)).toNat
    if r.levels ≤ k + 1 then [k] else [k, k + 1]
  else [((2 * x.1 + x.2) / (2 * x.2 : Int)).toNat]
/-- Whether a filtered axis has no finite t = c·Wk − 0.5: the product of a finite coordinate rounds to an infinity. -/
def TexRec.overflows (r : TexRec) (cs : List FVal) (lam : Nat) : Bool :=
  r.filter != 0 && (r.levelsAt lam).any fun k => (List.range r.axes).any fun a =>
    let x := (exMul (cs.getD a (.fin false 0 0)) (.fin false (r.size k a) 0)).1.rat
    !(fmtF32.value (ratF32 .rn (2 * x.1 - x.2) (2 * x.2) false)).finite
/-- Every texel that a lane's sample reads: address, weight in 2^−32. -/
def TexRec.texels (r : TexRec) (cs : List FVal) (lam : Nat) : List (Nat × Nat) :=
  let x := r.level lam
  if r.filter = 2 then
    let k := (x.1 / (x.2 : Int)).toNat
    let g := ((x.1 - (k : Int) * x.2) * 256 / (x.2 : Int)).toNat
    if r.levels ≤ k + 1 then (r.levelTexels k cs).map fun t => (t.1, t.2 * 256)
    else ((r.levelTexels k cs).map fun t => (t.1, t.2 * (256 - g))) ++ (r.levelTexels (k + 1) cs).map fun t => (t.1, t.2 * g)
  else
    let k := ((2 * x.1 + x.2) / (2 * x.2 : Int)).toNat
    (r.levelTexels k cs).map fun t => (t.1, t.2 * 256)
/-- A channel's result: the exact sum of weighted texels, rounded once. -/
def weightedSum (l : List (Nat × Nat)) : Nat :=
  let ws : List FVal := l.map fun x => .fin false x.2 (-32)
  let vs := l.map fun x => fmtF32.value x.1
  match chunkSum ws vs with
  | .nan => fmtF32.nanPat
  | .inf n => fmtF32.sign n + fmtF32.infPat
  | .fin k e => (fmtF32.round FEnv.plain (Exact.ofInt k e (l.all fun x => fmtF32.signAt ≤ x.1)) 0).1

/-! ### The level of detail (R436) -/

/-- A difference of two F32 patterns. -/
def subF (a b : Nat) : Nat := (fElem fmtF32 FEnv.plain .sub a b 0 0).1
/-- The length of a derivative vector, rounded once: from scaled derivatives. -/
def rhoOf (ds : List (FVal × Nat)) : Nat :=
  let vs := ds.map fun x => (exMul x.1 (.fin false x.2 0)).1
  if vs.any FVal.isNan then fmtF32.nanPat
  else if vs.any fun v => !v.finite then infF32
  else match sumTerms (vs.filterMap fun v => match v with
      | .fin _ m e => if m = 0 then none else some (((m * m : Nat) : Int), 2 * e)
      | _ => none) with
    | .fin k e => if k = 0 then 0 else (fmtF32.round FEnv.plain (exSqrt k.toNat e) 0).1
    | _ => fmtF32.nanPat
/-- λ of a lane (R436): `pat l k` is coordinate k of lane l. An array's layer is a coordinate too, and its derivative counts,
scaled by D0 (DEDUCED, log entry 132). -/
def lodOf (r : TexRec) (md : TMode) (active : Mask) (pat : Nat → Nat → Nat) (vl : Nat) (l : Nat) : Nat :=
  let q := l / 4 * 4
  let dif (lo hi k : Nat) : FVal :=
    if inMask active lo && inMask active hi then fmtF32.value (subF (pat hi k) (pat lo k)) else .fin false 0 0
  let dx (k : Nat) : FVal := if l % 4 < 2 then dif q (q + 1) k else dif (q + 2) (q + 3) k
  let dy (k : Nat) : FVal := if l % 2 = 0 then dif q (q + 2) k else dif (q + 1) (q + 3) k
  let dims := List.range r.coords
  let rx := rhoOf (dims.map fun k => (dx k, r.size 0 k))
  let ry := rhoOf (dims.map fun k => (dy k, r.size 0 k))
  let m := if (fmtF32.value rx).isNan then rx else if (fmtF32.value ry).isNan then ry else maxF32 rx ry
  let lam := (sElem .log2 fmtF32 FEnv.plain m 0).1
  match md with
  | .l => vl
  | .q => lam
  | .b => (fElem fmtF32 FEnv.plain .add lam vl 0 0).1

/-! ### Issue and completion -/

/-- A lane's record as it is read at issue: its bytes, poisoned, its home gave no answer, or it must wait. -/
inductive RecRead where
  | bytes (b : List Byte)
  | poisoned
  | error
  | waits
  deriving DecidableEq, Repr
/-- The records of the taking-part lanes, read through the cluster's record cache under leases (R299, R308). -/
def State.readRecs (s : State) (core ctx : Nat) : List (Piece × Trans) → List (Nat × RecRead) × State
  | [] => ([], s)
  | x :: r =>
    let die := coreDie core
    let glob := s.spaceOf x.2.pa == some .global
    let one : RecRead × State :=
      if s.reachFor die x.2.pa == .broken then (.error, s)
      else if glob && (!s.keyed x.2.key || s.poisonedAt x.2.pa 64 x.2.key) then (.poisoned, s)
      else if glob then
        match s.readLines (some (.tex (coreCluster core))) die ctx (vaOf x.1.addr) x.2 64 with
        | some b => (.bytes b.1, b.2)
        | none => (.waits, s)
      else (.bytes ((s.physRead x.2.pa 64 x.2.key).getD []), s)
    let rest := one.2.readRecs core ctx r
    ((x.1.lane, one.1) :: rest.1, rest.2)
/-- A lane's valid record, from the bytes of its read. -/
def recOf (rs : List (Nat × RecRead)) (l : Nat) : Option TexRec :=
  match rs.find? fun x => x.1 == l with
  | some (_, .bytes b) => texRec b
  | _ => none
/-- The texels of a lane: none where the record is invalid, or where a coordinate, or the t that a filter takes from it, is
not finite (its result is one that the spec does not state: DESIGN CHOICE, log entry 65). -/
def laneTexels (rs : List (Nat × RecRead)) (md : TMode) (active : Mask) (coord : Nat → Nat → Nat) (vl : Nat → Nat) (l : Nat) :
    Option (TexRec × List (Nat × Nat)) :=
  match recOf rs l with
  | none => none
  | some r =>
    let cs := (List.range r.coords).map fun k => fmtF32.value (coord l k)
    let lam := lodOf r md active coord (vl l) l
    if (cs.take r.axes).any (fun v => !v.finite) || cs.any FVal.isNan || r.overflows cs lam then none
    else some (r, r.texels cs lam)
/-- The accesses of TSAMP's texels as a plan; its pieces have sizes of their own. -/
def texPlan (ps : List (Piece × Nat)) : Plan :=
  { at_ := .global, align := 1, size := 1, write := false, acc := 1, nr := false, tags := false, hint := .normal, kind := .load,
    lanes := ps.map fun x => (x.1.lane, vaOf x.1.addr), limit := none, pieces := ps.map (·.1) }
/-- TSAMP's record addresses (R268). -/
def GI.recPlan (e : GI) (sr x : Nat) : Plan := planRecs (e.g.regs.sr sr) (fun i => 64 * (e.g.regs.vl x i).toNat) e.lanes
/-- How many coordinate registers the records call for. -/
def recNeed (rs : List (Nat × RecRead)) : Nat :=
  rs.foldl (fun n t => match recOf rs t.1 with
    | some y => max n y.coords
    | none => n) 0
/-- The texels that TSAMP reads, each with its size. -/
def GI.texels (e : GI) (rs : List (Nat × RecRead)) (c l : Nat) (md : TMode) : List (Piece × Nat) :=
  (lanesOf e.lanes).flatMap fun i =>
    match laneTexels rs md e.g.active (fun i j => (e.g.regs.vl (c + j) i).toNat) (fun i => (e.g.regs.vl l i).toNat) i with
    | some (y, ts) => ts.map fun t => (⟨i, t.1 % 2 ^ 60, t.1 / 2 ^ 60 == 0, []⟩, y.b)
    | none => []
/-- TSAMP (R268): the records are read at issue, every texel is translated, and the texels are read as loads on the
TEX path. -/
def tsampBody (c sr x l : Nat) (md : TMode) (e : GI) (s : State) : Fx :=
  let m := e.lanes
  let r := e.g.regs
  let user := e.g.ctl.level == .u
  let p := e.recPlan sr x
  let k := p.check s (coreTlb e.g.core) e.die e.ctx user
  match k.1 with
  | .mis a ls => .trap k.2 .misalign 1 a ls
  | .page st a ls => .page k.2 st 1 a ls
  | .tag q g a ls => .trap k.2 .tagfault (q + 16 * g + 256) a ls
  | .moving => e.heldBlock k.2
  | .go ts _ =>
    if ts.any fun t => k.2.spaceOf t.2.pa == none then .trap k.2 .physrange 0 0 0
    else if ts.any fun t => k.2.reachFor e.die t.2.pa == .wait then e.heldBlock k.2
    else
      let z := k.2.readRecs e.g.core e.ctx ts
      let rs := z.1
      let need := recNeed rs
      if rs.any fun t => t.2 == .waits then e.heldBlock k.2
      else if e.g.nregs < c + need then .trap z.2 .illegal e.word 0 0
      else if (vRegs c need).any fun y => e.g.tags.any fun t => t.reg == y then .trap z.2 .depmiss e.word 0 0
      else
        let ps := e.texels rs c l md
        let q := (texPlan ps).check z.2 (coreTlb e.g.core) e.die e.ctx user
        match q.1 with
        | .mis a ls => .trap q.2 .misalign 1 a ls
        | .page st a ls => .page q.2 st 1 a ls
        | .tag pt g a ls => .trap q.2 .tagfault (pt + 16 * g + 256) a ls
        | .moving => e.heldBlock q.2
        | .go us _ =>
          let bad (y : RecRead) : Mask := maskList ((rs.filter fun t => t.2 == y).map (·.1))
          let recs : List Nat := laneIx.flatMap fun i => match rs.find? fun t => t.1 == i with
            | some (_, .bytes b) => b.map (·.toNat)
            | _ => List.replicate 64 0
          let o := e.startOp q.2 fun o =>
            { o with
              st := .reqs, lanes := m, wlanes := e.g.active, svals := [r.sr sr, bad .poisoned, bad .error],
              vvals := r.vr x :: r.vr l :: (List.range need).map fun j => r.vr (c + j), misc := recs }
          .done ((us.zip ps).foldl (fun a y =>
            a.sendPieces { texPlan ps with size := y.2.2 } e.gid o.1 e.g.core e.die e.ctx e.team.launch [y.1]) o.2)
def execTsamp (d c sr x l : Nat) (md : TMode) (s : State) : Host.Outcome State Fault Refusal :=
  s.issue (.tsamp d c sr x l md) (tsampBody c sr x l md) matSpan

/-- The four results of a lane: (0, 0, 0, 1) for an invalid record; none where a texel did not arrive; free words where
the spec states no result. `got` gives the bytes of the lane's texels in order. -/
def tsampLane (op : Op) (rs : List (Nat × RecRead)) (md : TMode) (got : Nat → Option (List (List Byte))) (free l : Nat) : Option (List Word) :=
  match recOf rs l with
  | none => some [0, 0, 0, 0x3F800000]
  | some r =>
    match laneTexels rs md op.wlanes (fun i j => (laneVal (op.vvals.getD (2 + j) []) i).toNat)
        (fun i => (laneVal (op.vvals.getD 1 []) i).toNat) l with
    | none => some ((List.range 4).map fun k => freeWord (free + 16 * l + 4 * k))
    | some (_, ts) =>
      match got l with
      | none => none
      | some bs =>
        let ch := bs.map (texelChannels r.format)
        some ((List.range 4).map fun k =>
          if ((texFormat r.format).getD (1, 1)).2 ≤ k then (if k = 3 then 0x3F800000 else 0)
          else BitVec.ofNat 32 (weightedSum ((ch.map fun c => c.getD k 0).zip (ts.map (·.2)))))
/-- TSAMP's register writes and iteration count, from the texels that arrived. -/
def State.tsampWrites (s : State) (op : Op) (d : Nat) (md : TMode) (got : Nat → Option (List (List Byte))) : List RegWrite × State :=
  let out : Mask := op.svals.getD 1 0 ||| op.svals.getD 2 0
  let rs : List (Nat × RecRead) := (lanesOf (op.lanes &&& ~~~out)).map fun l =>
    (l, .bytes (((op.misc.drop (64 * l)).take 64).map fun n => BitVec.ofNat 8 n))
  let f := s.drawFree 1024
  let res := laneIx.map fun l => if inMask op.lanes l && !inMask out l then tsampLane op rs md got f.1 l else none
  let m := maskOf fun l => (res.getD l none).isSome
  let u := uniq ((lanesOf op.lanes).map fun l => laneVal (op.vvals.getD 0 []) l)
  ((List.range 4).map fun k => .vec (d + k) m (vecOf fun l => ((res.getD l none).getD []).getD k 0),
   f.2.modGroup op.gid fun g => { g with texloops := u.length })

end Sys2Proof.Machine
end

