-- ==== Sys2Proof/Machine/Raster.lean ====
section
/-! DEFINITION. DRAW and the rasterisers (R265, R418 to R426), ordered sections and the pixel scoreboard (R266, R267,
R427 to R430). -/
namespace Sys2Proof.Machine

/-! ### Draw descriptors (R420, R421) -/

/-- The ordering class of a draw: 0 strict, 1 per-instance, 2 unordered. -/
def Draw.ord (d : Draw) : Nat := nfld d.flags 0 2
def Draw.samples (d : Draw) : Nat := 2 ^ nfld d.flags 2 2
/-- A descriptor's 64 bytes as a draw; whether it is malformed apart from its status block. -/
def drawOf (b : List Byte) (ctx addr gid id : Nat) (node core : Option Nat) (user : Bool) : Bool × Draw :=
  let d : Draw :=
    { ctx := ctx, addr := addr, flags := rdN b 4 4, num := rdN b 8 4, prims := rdN b 0x0C 4, width := rdN b 0x10 2,
      height := rdN b 0x12 2, insts := rdN b 0x14 4 % 65536 + 1, vbase := rdN b 0x18 8, ibase := rdN b 0x20 8,
      istride := rdN b 0x28 4, vcount := rdN b 0x2C 4, target := rdN b 0x30 8, status := rdN b 0x38 8, node := node,
      gid := gid, id := id, core := core, user := user }
  let isz := if nbit d.flags 12 then 4 else 2
  (rdN b 0 4 != 0x4F4C5201 || decide (2 ^ 13 ≤ d.flags) || d.ord == 3 || decide (4 < nfld d.flags 5 3) || nfld d.flags 9 2 == 3 ||
   decide (2 ^ 20 ≤ d.num) || d.prims == 0 || decide (2 ^ 28 < d.prims) || d.width == 0 || decide (16384 < d.width) || d.height == 0 ||
   decide (16384 < d.height) || rdN b 0x16 2 != 0 || d.vbase % 16 != 0 || d.ibase % isz != 0 || d.istride % 16 != 0 ||
   d.vcount == 0 || d.target % 256 != 0 || d.status % 32 != 0 || d.status == 0, d)

/-- What the checks of a draw before it is queued answer. -/
inductive DrawRes where
  | good (d : Draw)
  | malformed
  /-- a fault: status, address, whether it was a write's -/
  | fault (status addr : Nat)
  deriving DecidableEq, Repr
/-- A draw's reads travel on the CORE path of the core that issued it, as what issued it (R265). -/
def Draw.cache (d : Draw) : Option Holder := d.core.map .l1
def Draw.tlb (d : Draw) (die : Nat) : Nat :=
  match d.core with
  | some c => coreTlb c
  | none => engineCluster die
def State.drawRead (s : State) (die : Nat) (d : Draw) (va n : Nat) : (Except (Nat × Nat) (List Byte)) × State :=
  s.readVia d.cache (d.tlb die) die d.ctx d.user va n
/-- A decoded descriptor's status block and the first pages of its vertex and index buffers, read before it is queued
(R421). -/
def State.checkDraw (s : State) (die : Nat) (x : Bool × Draw) : DrawRes × State :=
  let d := x.2
  if x.1 then (.malformed, s)
  else match s.drawRead die d d.status 32 with
    | (.error e, s1) => (.fault e.1 e.2, s1)
    | (.ok st, s1) =>
      let fb := rdN st 0x10 8
      if fb % 16 ≠ 0 ∨ (d.ord ≠ 2 ∧ fb = 0) then (.malformed, s1)
      else match s1.drawRead die d d.vbase 1 with
        | (.error e, s2) => (.fault e.1 e.2, s2)
        | (.ok _, s2) =>
          if d.ibase = 0 then (.good d, s2)
          else match s2.drawRead die d d.ibase 1 with
            | (.error e, s3) => (.fault e.1 e.2, s3)
            | (.ok _, s3) => (.good d, s3)
/-- A fault-queue entry for a draw that a resolvable fault holds (R352 kind 4): `op` names a DRAW not queued yet. -/
def State.holdDraw (s : State) (ctx status addr holder : Nat) (write op : Bool) : State :=
  if s.work.faults.any fun f => f.2.kind == 4 && f.2.holder == holder && f.2.moving == op then s
  else
    let f := s.fresh
    f.2.setFaults (tput f.2.work.faults f.1
      { ctx := ctx, kind := 4, status := status, core := 0xFFFF, team := 0, group := 0, write := write, read := !write,
        addr := addr, lanes := 0, seq := 0, holder := holder, moving := op })
/-- The rasteriser that a draw goes to: its own, or the one with the fewest queued draws (R418). -/
def State.rasterFor (s : State) (die n : Nat) (any : Bool) : Nat :=
  if any then (argMin (fun i => ((s.die die).rasters.getD i ⟨[], none⟩).queue.length) [0, 1, 2, 3]).getD 0 else n
def State.raster (s : State) (die r : Nat) : Raster := (s.die die).rasters.getD r ⟨[], none⟩
def State.modRaster (s : State) (die r : Nat) (f : Raster → Raster) : State :=
  s.modDie die fun d => { d with rasters := lmod d.rasters r f }
/-- A draw appended to a queue, if it has room. -/
def State.queueDraw (s : State) (die n : Nat) (any : Bool) (d : Draw) : Option State :=
  let r := s.rasterFor die n any
  if 32 ≤ (s.raster die r).queue.length then none
  else some (s.modRaster die r fun x => { x with queue := x.queue ++ [d] })

/-! ### DRAW (R265) -/

/-- DRAW is held by the writes that R265 names, and holds the descriptor's bytes from the moment when it could read them: at
issue, where the group's earlier writes have completed; a later store of the group to the descriptor stands behind the read
(R420). -/
def drawBody (a : Nat) (e : GI) (s : State) : Fx :=
  let base := e.g.regs.sr a
  let va := vaOf (globalAddr base 0)
  let lane := (lanesOf (lowLane e.g.active)).headD 0
  let user := e.g.ctl.level == .u
  if e.g.active &&& ~~~e.g.helpers = 0 then .done s
  else if va % 64 ≠ 0 then .trap s .misalign 1 va (lowLane e.g.active)
  else
    let aw := s.awaitOf e.gid Instr.writesMem
    let go (t : State) (st : Nat) (b : List Byte) : Fx :=
      .done (e.startOp t fun o =>
        { o with st := if st = 0 then .engine else .ready, svals := [BitVec.ofNat 64 va], await := aw, misc := st :: b.map (·.toNat) }).2
    let r := (blockPlan base 64 lane true).check s (coreTlb e.g.core) e.die e.ctx user
    if s.tagsPending e.gid s.nextId then .stay s
    else match r.1 with
    | .mis x l => .trap r.2 .misalign 1 x l
    | .page st x l => if resolvable st then .page r.2 st 1 x l else go r.2 2 []
    | .tag q g x l => .trap r.2 .tagfault (q + 16 * g + 256) x l
    | .moving => e.heldBlock r.2
    | .go _ _ =>
      if !r.2.released e.die aw then go r.2 0 []
      else match r.2.readVia (some (.l1 e.g.core)) (coreTlb e.g.core) e.die e.ctx user va 64 with
        | (.ok b, s1) => go s1 0 b
        | (.error _, _) => go r.2 0 []
def execDraw (d a n : Nat) (any : Bool) (s : State) : Host.Outcome State Fault Refusal :=
  s.issue (.draw d a n any) (drawBody a) matSpan
/-- A fault that meets a draw before it is queued: it waits, is held, ends the context, or gives the operation's status 2. -/
def State.drawQueueFault (s s1 : State) (op ctx st a : Nat) (phys bad : State → State) : State :=
  if st = stMoving then s
  else if resolvable st then s1.holdDraw ctx st a op false true
  else if st = stPhys then phys s1
  else bad s1
/-- DRAW_QUEUE: once the group's earlier writes have completed, the descriptor is read if it has not been, and checked, and
the draw is queued when its queue has room. -/
def execDrawQueue (op : Nat) (s : State) : Host.Outcome State Fault Refusal :=
  s.event fun s =>
    match tget s.work.ops op with
    | none => s
    | some o =>
      match o.instr, s.gi o.gid o.instr with
      | .draw _ _ n any, some e =>
        let held := s.work.faults.any fun f => f.2.kind == 4 && f.2.moving && f.2.holder == op
        let va := (o.svals.getD 0 0).toNat
        let answer (t : State) (st : Nat) : State := t.modOp op fun x => { x with st := .ready, misc := [st] }
        let stop (s1 : State) (st a : Nat) : State :=
          s.drawQueueFault s1 op e.ctx st a (fun t => (e.eventRecord t .physrange o.pos 0).endContext e.ctx) fun t => answer t 2
        if o.st ≠ .engine || held || !s.released e.die o.await then s
        else if o.misc.length ≤ 1 then
          match s.readVia (some (.l1 o.core)) (coreTlb o.core) e.die e.ctx o.user va 64 with
          | (.ok b, s1) => s1.modOp op fun x => { x with misc := 0 :: b.map (·.toNat) }
          | (.error x, s1) => stop s1 x.1 x.2
        else
          let id := s.fresh
          let b := (o.misc.drop 1).map fun x => BitVec.ofNat 8 x
          match id.2.checkDraw e.die (drawOf b e.ctx va o.gid id.1 none (some o.core) o.user) with
          | (.malformed, s1) => answer s1 1
          | (.fault st a, s1) => stop s1 st a
          | (.good d, s1) =>
            (match s1.queueDraw e.die n any d with
             | none => s
             | some s2 => (answer s2 0).modAwaits fun w => if w.ops.contains op then { w with draws := w.draws ++ [id.1] } else w)
      | _, _ => s

/-! ### Triangles (R423, R424) -/

/-- A vertex: x and y in 1/256 pixel and the bits of z; none when a coordinate is a NaN or too large. -/
def vertexOf (b : List Byte) : Option (Int × Int × Nat) :=
  let fix (p : Nat) : Option Int :=
    match fmtF32.value p with
    | .fin n m e =>
      let k : Int := roundInt .rn n m 1 (min (e + 8) 200) 0
      if (2 ^ 28 : Int) < k then none else some (if n then -k else k)
    | _ => none
  match fix (rdN b 0 4), fix (rdN b 4 4) with
  | some x, some y => some (x, y, rdN b 8 4)
  | _, _ => none
/-- Sample positions in 1/16 pixel (R424). -/
def samplePos (n : Nat) : List (Nat × Nat) :=
  match n with
  | 1 => [(8, 8)]
  | 2 => [(4, 4), (12, 12)]
  | 4 => [(6, 2), (14, 6), (2, 10), (10, 14)]
  | _ => [(9, 5), (7, 11), (13, 9), (5, 3), (3, 13), (1, 7), (11, 15), (15, 1)]
/-- An edge function A·x + B·y + C through two points. -/
structure Edge where
  a : Int
  b : Int
  c : Int
  deriving DecidableEq, Repr
def edgeOf (sgn : Int) (p q : Int × Int × Nat) : Edge :=
  ⟨-(q.2.1 - p.2.1) * sgn, (q.1 - p.1) * sgn, ((q.2.1 - p.2.1) * p.1 - (q.1 - p.1) * p.2.1) * sgn⟩
def Edge.at_ (e : Edge) (x y : Int) : Int := e.a * x + e.b * y + e.c
/-- Whether a point on an edge belongs to it. -/
def Edge.owns (e : Edge) : Bool := decide (0 < e.a) || (e.a == 0 && decide (0 < e.b))
/-- The depth of a sample: Σ Eᵢ·zᵢ / Σ Eᵢ, rounded once. -/
def depthAt (w : List (Int × Nat)) : Nat :=
  let vs := w.map fun x => fmtF32.value x.2
  let ws : List FVal := w.map fun x => .fin (decide (x.1 < 0)) x.1.natAbs 0
  let sum := w.foldl (fun a x => a + x.1) 0
  match chunkSum ws vs with
  | .nan => fmtF32.nanPat
  | .inf n => fmtF32.sign n + fmtF32.infPat
  | .fin k e => if k = 0 then 0 else (fmtF32.round FEnv.plain (.val (decide (k < 0)) k.natAbs sum.natAbs e) 0).1
/-- The covered samples of a triangle in row order of pixels: x, y, sample, depth (R424). -/
def Draw.covered (d : Draw) (v : List (Int × Int × Nat)) : List (Nat × Nat × Nat × Nat) :=
  match v with
  | [p0, p1, p2] =>
    let area := (p1.1 - p0.1) * (p2.2.1 - p0.2.1) - (p2.1 - p0.1) * (p1.2.1 - p0.2.1)
    let front := if nbit d.flags 11 then decide (area < 0) else decide (0 < area)
    let cull := nfld d.flags 9 2
    if area = 0 ∨ (cull = 1 ∧ !front) ∨ (cull = 2 ∧ front) then []
    else
      let sg : Int := if 0 < area then 1 else -1
      let e0 := edgeOf sg p1 p2
      let e1 := edgeOf sg p2 p0
      let e2 := edgeOf sg p0 p1
      let lo (a b c : Int) : Nat := ((min a (min b c)) / 256).toNat
      let hi (a b c : Int) (n : Nat) : Nat := min n (((max a (max b c)) / 256 + 1).toNat)
      let x0 := lo p0.1 p1.1 p2.1
      let y0 := lo p0.2.1 p1.2.1 p2.2.1
      let x1 := hi p0.1 p1.1 p2.1 d.width
      let y1 := hi p0.2.1 p1.2.1 p2.2.1 d.height
      (List.range (y1 - y0)).flatMap fun j => (List.range (x1 - x0)).flatMap fun i =>
        (samplePos d.samples).zipIdx.filterMap fun (q : (Nat × Nat) × Nat) =>
          let x : Int := ((x0 + i) * 256 + q.1.1 * 16 : Nat)
          let y : Int := ((y0 + j) * 256 + q.1.2 * 16 : Nat)
          let es := [e0.at_ x y, e1.at_ x y, e2.at_ x y]
          let ok (e : Edge) (k : Int) : Bool := decide (0 < k) || (k == 0 && e.owns)
          if ok e0 (es.getD 0 0) && ok e1 (es.getD 1 0) && ok e2 (es.getD 2 0) then
            some (x0 + i, y0 + j, q.2, depthAt [(es.getD 0 0, p0.2.2), (es.getD 1 0, p1.2.2), (es.getD 2 0, p2.2.2)])
          else none
  | _ => []

/-! ### A running draw -/

/-- A running draw changed. -/
def State.modRunning (s : State) (die r : Nat) (f : Running → Running) : State :=
  s.modRaster die r fun x => { x with run := x.run.map f }
/-- A running draw abandoned on a fault: it goes on to its end with ERR 1. -/
def State.abandonRun (s : State) (die r : Nat) (d : Draw) : State :=
  s.modRunning die r fun x => { x with err := 1, todo := [], passed := [], setUp := true, prim := d.prims, inst := d.insts }
/-- A draw that is to start, and whose fault the supervisor has delivered, starts abandoned (R426). -/
def State.abandonQueued (s : State) (die r : Nat) : State :=
  match (s.raster die r).run, (s.raster die r).queue with
  | none, d :: rest =>
    let run : Running :=
      { draw := d, fragBase := 0, fragCap := 0, frags := 0, fragOvf := 0, inst := d.insts, prim := 0, todo := [], setUp := false,
        passed := [], err := 1, fault := none, finishing := false, lastW := 0 }
    s.modRaster die r fun y => { y with queue := rest, run := some run }
  | some x, _ => s.abandonRun die r x.draw
  | none, [] => s
/-- A draw's access to an address that does not exist ends its context with a record (R328). -/
def State.drawPhys (s : State) (d : Draw) : State :=
  (s.logRecord d.ctx (packF [(0x02, 0), (Cause.physrange.code, 8)]) 0 0 s.gt).endContext d.ctx
/-- A fault of a running draw: held, abandoned, or the context's end (R426). -/
def State.drawFault (s : State) (die r : Nat) (d : Draw) (st addr : Nat) (write : Bool) : State :=
  if st = stMoving then s
  else if resolvable st then s.holdDraw d.ctx st addr (die * 4 + r) write false
  else if st = stPhys then s.drawPhys d
  else s.abandonRun die r d
/-- Whether a rasteriser is held by a fault. -/
def State.rasterHeld (s : State) (die r : Nat) : Bool :=
  s.work.faults.any fun f => f.2.kind == 4 && !f.2.moving && f.2.holder == die * 4 + r
/-- RASTER_DRAW_START: the oldest draw of a queue starts, and its fragment list is read (R418, R422). -/
def execRasterDrawStart (die r : Nat) (s : State) : Host.Outcome State Fault Refusal :=
  s.event fun s =>
    let x := s.raster die r
    match x.run, x.queue with
    | none, d :: rest =>
      if s.rasterHeld die r then s
      else
        let start (fb fc err : Nat) : Running :=
          { draw := d, fragBase := fb, fragCap := fc, frags := 0, fragOvf := 0, inst := if err = 0 then 0 else d.insts,
            prim := 0, todo := [], setUp := false, passed := [], err := err, fault := none, finishing := false, lastW := 0 }
        let begin_ (t : State) (run : Running) : State := t.modRaster die r fun y => { y with queue := rest, run := some run }
        (match s.drawRead die d d.status 32 with
         | (.ok b, s1) => begin_ s1 (start (rdN b 0x10 8) (rdN b 0x18 4) 0)
         | (.error e, s1) =>
           if e.1 = stMoving then s
           else if resolvable e.1 then s1.holdDraw d.ctx e.1 e.2 (die * 4 + r) false false
           else if e.1 = stPhys then s1.drawPhys d
           else begin_ s1 (start 0 0 1))
    | _, _ => s
/-- The three vertices of the current triangle: none when it is discarded. -/
def State.readTriangle (s : State) (die : Nat) (d : Draw) (inst prim : Nat) :
    (Except (Nat × Nat) (Option (List (Int × Int × Nat)))) × State :=
  let isz := if nbit d.flags 12 then 4 else 2
  let index (t : State) (k : Nat) : (Except (Nat × Nat) Nat) × State :=
    if d.ibase = 0 then (.ok (3 * prim + k), t)
    else match t.drawRead die d (d.ibase + isz * (3 * prim + k)) isz with
      | (.ok b, t1) => (.ok (ofBytes b), t1)
      | (.error e, t1) => (.error e, t1)
  let step (acc : (Except (Nat × Nat) (Option (List (Int × Int × Nat)))) × State) (k : Nat) :=
    match acc with
    | (.error e, t) => (.error e, t)
    | (.ok none, t) => (.ok none, t)
    | (.ok (some l), t) =>
      match index t k with
      | (.error e, t1) => (.error e, t1)
      | (.ok i, t1) =>
        if d.vcount ≤ i then (.ok none, t1)
        else match t1.drawRead die d (d.vbase + inst * d.istride + 16 * i) 16 with
          | (.error e, t2) => (.error e, t2)
          | (.ok b, t2) => (.ok ((vertexOf b).map fun v => l ++ [v]), t2)
  [0, 1, 2].foldl step (.ok (some []), s)
/-- The visibility word of the triangle under way (R419). -/
def Running.key (x : Running) : Nat := 2 ^ 44 * x.draw.num + 2 ^ 28 * x.inst + x.prim
/-- The address of a sample's slot. -/
def Draw.slot (d : Draw) (x y smp : Nat) : Nat := d.target + 16 * ((y * d.width + x) * d.samples + smp)
/-- Whether the depth test passes (R425). -/
def depthPass (flags new old : Nat) : Bool :=
  if !nbit flags 4 then true
  else
    let c := nfld flags 5 3
    let a := fmtF32.value new
    let b := fmtF32.value old
    if c = 4 then true
    else if a.isNan || b.isNan then false
    else match c with
      | 0 => fLt false a b
      | 1 => !fLt false b a
      | 2 => fLt false b a
      | _ => !fLt false a b
/-- Whether the pixel of the samples that passed is complete and must be registered before the draw goes on. -/
def Running.pixelDone (x : Running) : Bool :=
  match x.passed, x.todo with
  | [], _ => false
  | _, [] => true
  | p :: _, t :: _ => p.1 != t.1 || p.2.1 != t.2.1
/-- The next triangle. -/
def Running.advance (x : Running) : Running :=
  if x.prim + 1 < x.draw.prims then { x with prim := x.prim + 1, setUp := false, passed := [] }
  else { x with prim := 0, inst := x.inst + 1, setUp := false, passed := [] }
/-- RAST_TEST_AND_WRITE: the current triangle is set up, or its next sample is tested and written at its slot's home in
one indivisible step, which takes its W whether or not it passes (R423 to R425). -/
def execRastTestAndWrite (die r : Nat) (s : State) : Host.Outcome State Fault Refusal :=
  s.event fun s =>
    match (s.raster die r).run with
    | none => s
    | some x =>
      let d := x.draw
      if x.finishing || decide (d.insts ≤ x.inst) || s.rasterHeld die r || (decide (d.ord ≠ 2) && x.pixelDone) then s
      else if !x.setUp then
        match s.readTriangle die d x.inst x.prim with
        | (.error e, s1) => s1.drawFault die r d e.1 e.2 false
        | (.ok none, s1) => s1.modRunning die r fun y => y.advance
        | (.ok (some v), s1) =>
          let todo := d.covered v
          s1.modRunning die r fun y => if todo.isEmpty then y.advance else { y with todo := todo, setUp := true, passed := [] }
      else match x.todo with
        | [] => s.modRunning die r fun y => y.advance
        | q :: rest =>
          let va := d.slot q.1 q.2.1 q.2.2.1
          match s.translate (engineCluster die) die d.ctx va ⟨true, false, d.user⟩ with
          | (.fault st, s1) => s1.drawFault die r d st va true
          | (.sparse, s1) => s1.drawFault die r d 0x01 va true
          | (.moving, _) => s
          | (.phys, s1) => s1.drawFault die r d stPhys va true
          | (.ok t, s1) =>
            if s1.spaceOf t.pa = none then s1.drawFault die r d stPhys va true
            else if s1.writeRefused die t then s1.drawFault die r d stOff va true
            else if s1.reachFor die t.pa = .wait then s
            else if s1.spaceOf t.pa = some .global ∧ s1.poisonedAt t.pa 16 t.key then s1.drawFault die r d stPoison va true
            else
              let old := rdN (s1.physFuture t.pa 16 t.key) 8 4
              let pass := depthPass d.flags q.2.2.2 old
              let w := s1.devStoreFor die d.ctx va t.hint t.pa t.key
                (if pass then toBytes 8 x.key ++ (if nbit d.flags 8 then toBytes 4 q.2.2.2 else []) else [])
              w.2.modRunning die r fun y =>
                { y with
                  todo := rest, lastW := max y.lastW w.1
                  passed := if pass && decide (d.ord ≠ 2) then y.passed ++ [(q.1, q.2.1, q.2.2.1)] else y.passed }
/-- FRAGMENT_REGISTER: a pixel in which samples passed becomes a fragment: its record and its scoreboard entry (R427,
R428). -/
def execFragmentRegister (die r : Nat) (s : State) : Host.Outcome State Fault Refusal :=
  s.event fun s =>
    match (s.raster die r).run with
    | none => s
    | some x =>
      if !x.pixelDone || s.rasterHeld die r || x.draw.ord == 2 then s
      else
        let d := x.draw
        match x.passed with
        | [] => s
        | p :: _ =>
          if x.fragCap ≤ x.frags then
            s.modRunning die r fun y => { y with fragOvf := (y.fragOvf + 1) % 2 ^ 32, passed := [] }
          else if 262144 ≤ (s.die die).board.length then s
          else
            let pix := p.1 + 65536 * p.2.1
            let mask := x.passed.foldl (fun m q => setBit m q.2.2 true) 0
            let va := x.fragBase + 16 * x.frags
            match s.writeAs die d.ctx d.user va (toBytes 4 pix ++ toBytes 4 mask ++ toBytes 8 x.key) with
            | (.error st, s1) => s1.drawFault die r d st va true
            | (.ok w, s1) =>
              (s1.modDie die fun y => { y with board := y.board ++ [⟨d.ctx, pix, x.key, d.ord == 1⟩] }).modRunning die r fun y =>
                { y with frags := y.frags + 1, passed := [], lastW := max y.lastW w }
/-- A draw is gone from every wait for it. -/
def State.drawGone (s : State) (d : Draw) (w : Nat) : State :=
  ((s.modAwaits fun a => a.dropDraw d.id w).noteW d.gid .rast w).handedDone fun a => a.dropDraw d.id w
/-- DRAW_END: the counts and ERR are written; once every RAST write has completed, the signal (R426). -/
def execDrawEnd (die r : Nat) (s : State) : Host.Outcome State Fault Refusal :=
  s.event fun s =>
    match (s.raster die r).run with
    | none => s
    | some x =>
      let d := x.draw
      if x.inst < d.insts ∨ s.rasterHeld die r then s
      else if !x.finishing then
        match s.writeAs die d.ctx d.user (d.status + 8) (toBytes 4 x.frags ++ toBytes 4 x.fragOvf) with
        | (.error st, s1) =>
          if resolvable st ∨ st = stMoving ∨ st = stPhys then s1.drawFault die r d st (d.status + 8) true
          else s1.modRunning die r fun y => { y with err := 1, finishing := true }
        | (.ok w, s1) =>
          (match s1.writeAs die d.ctx d.user (d.status + 0x1C) (toBytes 4 x.err) with
           | (.ok w2, s2) => s2.modRunning die r fun y => { y with finishing := true, lastW := max y.lastW (max w w2) }
           | (.error st, s2) =>
             if resolvable st ∨ st = stMoving ∨ st = stPhys then s2.drawFault die r d st (d.status + 0x1C) true
             else s2.modRunning die r fun y => { y with finishing := true, lastW := max y.lastW w })
      else if s.gtAt die ≤ x.lastW + 2 then s
      else
        let leave (t : State) : State :=
          let s1 := (t.modRaster die r fun y => { y with run := none }).drawGone d x.lastW
          match d.node with
          | none => s1
          | some n => if x.err = 0 then s1.nodeDone d.ctx n else s1.nodeFail d.ctx n 0x0F d.addr
        match s.addAs die d.ctx d.user d.status 1 with
        | (.ok _, s1) => leave s1
        | (.error st, s1) => if resolvable st ∨ st = stMoving ∨ st = stPhys then s1.drawFault die r d st d.status true else leave s1

/-! ### Ordered sections (R266, R267, R429) -/

/-- The pixel and key of an ORDENT lane. -/
def GI.ordLane (e : GI) (k p l : Nat) : Nat × Nat := ((e.g.regs.vl p l).toNat, e.g.regs.vp k l)
/-- The class of a key's draw on a die: none when no ordered draw of that number is queued, running, or holding
entries. -/
def State.ordClass (s : State) (die ctx dn : Nat) : Option Bool :=
  let qs := (s.die die).rasters.flatMap fun r => r.queue ++ (match r.run with
    | some x => [x.draw]
    | none => [])
  match qs.find? fun d => d.ctx == ctx && d.num == dn && d.ord != 2 with
  | some d => some (d.ord == 1)
  | none => ((s.die die).board.find? fun x => x.ctx == ctx && x.key / 2 ^ 44 == dn).map (·.perInst)
/-- Whether a key precedes another under a class. -/
def precedes (perInst : Bool) (f k : Nat) : Bool := if perInst then decide (f / 2 ^ 28 < k / 2 ^ 28) else decide (f < k)
/-- Whether an ORDENT lane is admitted; `own` are the entries that the ORDENT's lanes are entering. -/
def State.admits (s : State) (die ctx : Nat) (own : List (Nat × Nat)) (pix key : Nat) : Bool :=
  match s.ordClass die ctx (key / 2 ^ 44) with
  | none => true
  | some pi =>
    let rs := (s.die die).rasters
    let below := rs.any fun r =>
      (r.queue.any fun d => d.ctx == ctx && d.ord != 2 && decide (d.num < key / 2 ^ 44)) || match r.run with
        | some x => x.draw.ctx == ctx && x.draw.ord != 2 && (decide (x.draw.num < key / 2 ^ 44) ||
            (x.draw.num == key / 2 ^ 44 && decide (x.inst < x.draw.insts) && precedes pi x.key key))
        | none => false
    !below && !(s.die die).board.any fun b => b.ctx == ctx && b.pixel == pix && precedes pi b.key key && !own.contains (b.pixel, b.key)
/-- What ORDENT does when it issues: it waits; ORDENT_ADMIT completes it. -/
def ordentBody (e : GI) (s : State) : Fx :=
  if e.g.ctl.hold = some e.i then .stay s
  else if e.g.sect.isSome then .trap s .illegal e.word 0 0
  else e.wait s []
def execOrdent (k p : Nat) (s : State) : Host.Outcome State Fault Refusal := s.issue (.ordent k p) ordentBody matSpan
/-- ORDENT_ADMIT: the scoreboard admits every active lane of a group. -/
def execOrdentAdmit (gid : Nat) (s : State) : Host.Outcome State Fault Refusal :=
  s.event fun s =>
    match tget s.groups gid with
    | none => s
    | some g =>
      match g.ctl.hold with
      | some (.ordent k p) =>
        (match s.gi gid (.ordent k p) with
         | none => s
         | some e =>
           let ls := lanesOf (g.active &&& ~~~g.helpers)
           let own := ls.map (e.ordLane k p)
           if g.ctl.pre = .run ∧ own.all fun x => s.admits e.die e.ctx own x.1 x.2 then
             let sect : Section := ⟨g.active, ls.map fun l => (l, e.ordLane k p l)⟩
             let s1 := (s.modGroup gid fun x => { x with sect := some sect }).dropPath g.core .core (s.gtOf g.core)
             e.finish s (.done s1)
           else s)
      | _ => s
def execOrdexit (s : State) : Host.Outcome State Fault Refusal :=
  s.issue .ordexit (fun e s => .done (s.leaveSection e.gid (BitVec.allOnes 64))) matSpan
/-- ORDEXIT_RELEASE: pixels and keys leave the scoreboard once the group's earlier writes have completed. -/
def execOrdexitRelease (rel : Nat) (s : State) : Host.Outcome State Fault Refusal :=
  s.event fun s =>
    match tget s.work.releases rel with
    | none => s
    | some r =>
      if !s.released r.die r.await then s
      else
        let rm (b : List ScoreEnt) (x : Nat × Nat) : List ScoreEnt :=
          match b.findIdx? fun y => y.ctx == r.ctx && y.pixel == x.1 && y.key == x.2 with
          | some i => b.eraseIdx i
          | none => b
        { s.modDie r.die fun d => { d with board := r.entries.foldl rm d.board } with
          work := { s.work with releases := tdel s.work.releases rel } }

end Sys2Proof.Machine
end

