-- ==== Sys2Proof/Machine/Regroup.lean ====
section
/-! DEFINITION. REGROUP and the close of its rounds (R272). -/
namespace Sys2Proof.Machine

/-- Every path of R308. -/
def allPaths : List Path := [.core, .copy, .mtx, .hash, .rast, .tex, .peer]
/-- Whether what an XFENCE on every path waits for has come (R222, R272). -/
def GI.allFenced (e : GI) (s : State) : Bool := e.fenced s .package && allPaths.all fun p => e.pathDone s p
/-- What REGROUP does when it issues: it waits in its round. The groups of one launch never differ in V or P.
holdArg is empty while the group waits for the close, [1, round] until the lanes are dealt, then [2, W]: the
private bytes that it received are visible once GT has passed W. -/
def regroupBody (e : GI) (s : State) : Fx :=
  if e.g.ctl.hold = some e.i then
    match e.g.ctl.holdArg with
    | [2, w] => if w + 2 < s.gtOf e.g.core then .done (s.dropPaths e.g.core (s.gtOf e.g.core)) else .stay s
    | _ => .stay s
  else if e.g.stack ≠ [] ∨ e.g.helpers ≠ 0 ∨ e.g.sect.isSome then .trap s .illegal e.word 0 0
  else e.wait s []
def execRegroup (k : Nat) (s : State) : Host.Outcome State Fault Refusal := s.issue (.regroup k) regroupBody matSpan

/-- A group of a round, with K. -/
structure Member where
  e : GI
  k : Nat
  deriving DecidableEq, Repr
/-- The closed round that a group is of. -/
def Member.round (m : Member) : Nat := m.e.g.ctl.holdArg.getD 1 0
/-- The groups of a launch on a die that have not ended. -/
def State.residents (s : State) (die lid : Nat) : List GI :=
  s.groups.filterMap fun g => match s.gi g.1 .nop with
    | some e => if e.team.launch == lid && coreDie g.2.core == die && !g.2.ctl.ending then some e else none
    | none => none
/-- The groups of a launch on a die that REGROUP holds. -/
def State.regrouping (s : State) (die lid : Nat) : List Member :=
  (s.residents die lid).filterMap fun e => match e.g.ctl.hold with
    | some (.regroup k) => some ⟨e, k⟩
    | _ => none
/-- The first open round that closes now, of those that its members' waits form: a group that arrived 2,048 cycles after the
first, or later, is of the next. -/
def State.closing (s : State) (die lid : Nat) : List Member :=
  let open_ := (s.regrouping die lid).filter fun m => m.e.g.ctl.holdArg == []
  let all := s.residents die lid
  let round (m : Member) : Nat × List Member :=
    let r := open_.filter fun x => x.e.g.ctl.pos == m.e.g.ctl.pos
    let due := r.foldl (fun a x => min a x.e.g.ctl.holdAt) m.e.g.ctl.holdAt + s.cycles die 2048
    (due, r.filter fun x => decide (x.e.g.ctl.holdAt < due))
  match open_.find? fun m => decide ((round m).2.length = all.length) || decide ((round m).1 ≤ s.gtAt die) with
  | some m => (round m).2
  | none => []
/-- The first closed round whose groups' waits have all ended. -/
def State.dealing (s : State) (die lid : Nat) : List Member :=
  let closed := (s.regrouping die lid).filter fun m => m.e.g.ctl.holdArg.head? == some 1
  let same (a b : Member) : Bool := a.e.g.ctl.holdArg == b.e.g.ctl.holdArg
  match closed.find? fun m => (closed.filter (same m)).all fun x => x.e.allFenced s with
  | some m => closed.filter (same m)
  | none => []

/-- A lane of a round: its group among the round's, its lane number. -/
structure OldLane where
  m : Member
  lane : Nat
  deriving DecidableEq, Repr
/-- The key by which lanes are sorted: v[K], then the launch-linear index of the lane's item. -/
def OldLane.key (o : OldLane) : Nat :=
  let l := match o.m.e.g.items.getD o.lane none with
    | some it => o.m.e.launch.linear it.tx it.ty it.jx it.jy
    | none => 0
  2 ^ 64 * (o.m.e.g.regs.vl o.m.k o.lane).toNat + l
/-- The round's groups in the order in which lanes are dealt to them. -/
def dealOrder (ms : List Member) : List Member :=
  sortBy (fun m => (2 ^ 40 * m.e.g.core + m.e.team.linear m.e.launch) * 16 + m.e.g.num) ms
/-- The round's active lanes in the order in which they are dealt. -/
def dealLanes (ms : List Member) : List OldLane :=
  sortBy OldLane.key ((dealOrder ms).flatMap fun m => (lanesOf m.e.g.active).map fun l => ⟨m, l⟩)
/-- An access of the deal that must wait: its status, its address, whether it writes. -/
abbrev DealStop := Nat × Nat × Bool
/-- Whether an access of the deal waits: on a page that is moving (R326), or for the resolution of a fault (R352). -/
def dealWaits (st : Nat) : Bool := st == stMoving || resolvable st
/-- The private bytes of a lane, four at a time (R54): where each word lies and what it holds, read as the
context's own access would; a page that is not there for good has none. -/
def State.privWords (s : State) (o : OldLane) : (Except DealStop (List (Nat × List Byte))) × State :=
  (List.range (o.m.e.launch.priv / 4)).foldl (fun acc w =>
    match acc.1 with
    | .error _ => acc
    | .ok l =>
      let va := vaOf (privAddr (o.m.e.g.regs.sr 60) (4 * w) o.lane)
      let r := acc.2.devRead o.m.e.die o.m.e.ctx va 4
      match r.1 with
      | .ok b => (.ok (l ++ [(w, b)]), r.2)
      | .error x => if dealWaits x.1 then (.error (x.1, x.2, false), r.2) else (.ok l, r.2)) (.ok [], s)
/-- A group as the deal leaves it: the lanes it receives carry what a lane carries; uniform registers, tiles, MODE
and CC come from the old group of its new lane 0, but s60, which keeps its own private base. -/
def Group.dealt (g : Group) (ls : List OldLane) : Group :=
  let at_ (l : Nat) : Option OldLane := ls[l]?
  let v := g.regs.v.zipIdx.map fun (z : List Word × Nat) => vecOf fun l => match at_ l with
    | some o => o.m.e.g.regs.vl z.2 o.lane
    | none => laneVal z.1 l
  let p := g.regs.p.zipIdx.map fun (z : Mask × Nat) => maskOf fun l => match at_ l with
    | some o => inMask (o.m.e.g.regs.pr z.2) o.lane
    | none => inMask z.1 l
  let rng := (g.rng.zipIdx).map fun (z : Word × Nat) => match at_ z.2 with
    | some o => o.m.e.g.rng.getD o.lane 0
    | none => z.1
  let items := (List.range 64).map fun l => match at_ l with
    | some o => o.m.e.g.items.getD o.lane none
    | none => none
  let regs : Regs := match ls with
    | o :: _ =>
      let r := o.m.e.g.regs
      { v := v, s := r.s.set 60 (g.regs.sr 60), p := p, t := r.t, cc := r.cc, mode := r.mode }
    | [] => { g.regs with v := v, p := p }
  { g with regs := regs, rng := rng, items := items, active := maskOf fun l => decide (l < ls.length) }
/-- The private bytes that a deal moves, by receiving lane. -/
abbrev DealBytes := List (Member × Nat × List (Nat × List Byte))
/-- The private bytes of the lanes that change place read. -/
def State.dealReads (s : State) (l : List (Member × Nat × OldLane)) : (Except DealStop DealBytes) × State :=
  l.foldl (fun acc q =>
    match acc.1 with
    | .error _ => acc
    | .ok a =>
      let r := acc.2.privWords q.2.2
      match r.1 with
      | .ok b => (.ok (a ++ [(q.1, q.2.1, b)]), r.2)
      | .error x => (.error x, r.2)) (.ok [], s)
/-- They are written to their new places: the greatest W. -/
def State.dealWrites (s : State) (l : DealBytes) : (Except DealStop Nat) × State :=
  l.foldl (fun acc q => q.2.2.foldl (fun (a : (Except DealStop Nat) × State) b =>
    match a.1 with
    | .error _ => a
    | .ok m =>
      let va := vaOf (privAddr (q.1.e.g.regs.sr 60) (4 * b.1) q.2.1)
      let r := a.2.devWrite q.1.e.die q.1.e.ctx va b.2
      match r.1 with
      | .ok w => (.ok (max m w), r.2)
      | .error st => if dealWaits st then (.error (st, va, true), r.2) else (.ok m, r.2)) acc) (.ok 0, s)
/-- The lanes of a round dealt, 64 to a group; the groups then wait until the private bytes are visible. Every private byte is
read before any is written. A deal of which an access must wait has not begun: a resolvable fault queues an entry, and the
whole deal is made once nothing holds it (DEDUCED, log entry 133). -/
def State.deal (s : State) (ms : List Member) : State :=
  let lanes := dealLanes ms
  let moved (i : Nat) (m : Member) : List (Nat × OldLane) :=
    (((lanes.drop (64 * i)).take 64).zipIdx.map fun (z : OldLane × Nat) => (z.2, z.1)).filter fun z =>
      z.2.m.e.gid != m.e.gid || z.2.lane != z.1
  let order := (dealOrder ms).zipIdx
  let got := s.dealReads (order.flatMap fun z => (moved z.2 z.1).map fun q => (z.1, q.1, q.2))
  let put := match got.1 with
    | .ok l => got.2.dealWrites l
    | .error x => (.error x, got.2)
  match put.1, ms with
  | .ok w, _ => order.foldl (fun a (z : Member × Nat) =>
      (a.modGroup z.1.e.gid fun g => g.dealt ((lanes.drop (64 * z.2)).take 64)).modCtl z.1.e.gid fun c =>
        { c with holdArg := [2, w] }) put.2
  | .error x, m :: _ => s.deviceFault s m.e.ctx x.1 x.2.1 m.round x.2.2 fun t => t
  | .error _, [] => s
/-- REGROUP_ROUND_CLOSE: a round of a launch on a die closes, or a closed round whose groups' waits have ended is
dealt. -/
def execRegroupRoundClose (die launch : Nat) (s : State) : Host.Outcome State Fault Refusal :=
  s.event fun s =>
    match s.dealing die launch with
    | m :: r => if s.deviceHeld m.e.ctx m.round then s else s.deal (m :: r)
    | [] =>
      let n := s.fresh
      (s.closing die launch).foldl (fun a m => a.modCtl m.e.gid fun c => { c with holdArg := [1, n.1] }) n.2

end Sys2Proof.Machine
end

