-- ==== Sys2Proof/Machine/Keys.lean ====
section
/-! DEFINITION. Key slots (R451 to R453). -/
namespace Sys2Proof.Machine

/-- KEYSTAT after a command. -/
def State.keyResult (s : State) (slot res : Nat) : State := { s with keystat := { s.keystat with slot := slot, result := res } }
/-- Generate: an empty slot; KEY_GENERATE_COMPLETE fills it. -/
def State.keyGenerate (s : State) (k : Nat) : State :=
  match s.keyState k with
  | 0 => { s.keyResult k 0 with keystat := ⟨k, 0, true⟩ }
  | 1 => s.keyResult k 1
  | _ => s.keyResult k 3
/-- The lines' records without the pending stores that came through a slot. -/
def State.dropPend (s : State) (k : Nat) : List (Nat × LineCtl) :=
  s.mem.lines.map fun l => (l.1, { l.2 with pend := l.2.pend.filter fun p => match tget s.work.reqs p.req with
    | some r => r.key != k
    | none => true })
/-- Every line that carries a slot dropped, clean or dirty, without a write-back (R452), and with it the stores that are pending
there: they take no effect, and are answered at their W (DEDUCED, log entry 52). A hash engine's descriptors show
no slot, so all of them go (assumption 93, DEDUCED). -/
def State.dropKey (s : State) (k : Nat) : State :=
  let gone := (s.mem.home.filter fun h => h.2.key == k).map (·.1)
  { s with mem := { s.mem with
      home := s.mem.home.filter fun h => h.2.key != k
      lines := s.dropPend k
      ways := s.mem.ways.filter fun w => !gone.contains w.line
      copies := s.mem.copies.filter fun c => c.key != k
      unitq := s.mem.unitq.filter fun q => q.2.key != k
      grids := [] } }
/-- Destroy (R452): the slot is discarding at once. -/
def State.keyDestroy (s : State) (k : Nat) : State :=
  match s.keyState k with
  | 0 => s.keyResult k 2
  | 1 =>
    if k = 0 then s.keyResult k 4
    else ({ s.keyResult k 0 with keys := tmod s.keys k fun e => { e with state := 2 } }).dropKey k
  | _ => s.keyResult k 3
/-- A KEYCMD write (R451). -/
def State.keyCommand (s : State) (v : Nat) : State :=
  let k := nfld v 0 10
  if s.keystat.busy then { s with keystat := { s.keystat with result := 6 } }
  else if nfld v 12 52 ≠ 0 then s.keyResult k 5
  else match nfld v 10 2 with
    | 0 => s
    | 1 => s.keyGenerate k
    | 2 => s.keyDestroy k
    | _ => s.keyResult k 0
/-- KEYCMD with a slot and an operation. -/
def State.keyOp (s : State) (slot op : Nat) : State := if slot < 1024 then s.keyCommand (slot + 1024 * op) else s
/-- KEY_GENERATE, KEY_DESTROY, KEY_QUERY: what a KEYCMD write does. -/
def execKeyGenerate (slot : Nat) (s : State) : Host.Outcome State Fault Refusal := s.event fun s => s.keyOp slot 1
def execKeyDestroy (slot : Nat) (s : State) : Host.Outcome State Fault Refusal := s.event fun s => s.keyOp slot 2
def execKeyQuery (slot : Nat) (s : State) : Host.Outcome State Fault Refusal := s.event fun s => s.keyOp slot 3
/-- KEY_GENERATE_COMPLETE: the slot holds a fresh key. -/
def execKeyGenerateComplete (slot : Nat) (s : State) : Host.Outcome State Fault Refusal :=
  s.event fun s =>
    if s.keystat.busy && s.keystat.slot == slot then
      { s with keys := tput s.keys slot ⟨1, s.keyGen slot + 1⟩, keystat := { s.keystat with busy := false } }
    else s
/-- KEY_DISCARD_DONE: the last copy is gone and the slot is empty. -/
def execKeyDiscardDone (slot : Nat) (s : State) : Host.Outcome State Fault Refusal :=
  s.event fun s =>
    if s.keyState slot = 2 then { s.dropKey slot with keys := tmod s.keys slot fun e => { e with state := 0 } } else s

end Sys2Proof.Machine
end

