-- ==== Sys2Proof/Machine/System.lean ====
section
/-! DEFINITION. System instructions (R275 to R280): control registers, TRAP, HRET, PYIELD, BKPT. -/
namespace Sys2Proof.Machine

/-! ### Writes of control registers (R276) -/

/-- A group's trap bank of the level that issues. -/
def Group.modBank (g : Group) (f : TrapBank → TrapBank) : Group :=
  if g.ctl.level = .m then { g with bankM := f g.bankM } else { g with bankS := f g.bankS }
/-- A write of XPOLICY (R395, R397, R404). -/
def State.writePolicy (s : State) (v : Nat) : State :=
  let was := s.barchan.en
  let s1 := s.modBarchan fun b =>
    { b with
      ctx := if b.en.any id then b.ctx else nfld v 16 14
      freeze := (List.range 4).map fun n => nbit v (4 + n)
      targets := nfld v 12 4
      maxrep := if nfld v 32 3 ≤ 4 then nfld v 32 3 else b.maxrep }
  let s2 := (List.range 4).foldl (fun a n => if nbit v (8 + n) then a.xRefresh n else a) s1
  (List.range 4).foldl (fun a n =>
    if nbit v n then a.xEnable n else if was.getD n false then a.xDisable n else a) s2
/-- A write of MAPERR: its three flags are write-one-to-clear (R332). -/
def State.writeMaperr (s : State) (v : Nat) : State :=
  s.modPkg fun p =>
    { p with
      errSingular := p.errSingular && !nbit v 0
      errBadcmd := p.errBadcmd && !nbit v 1
      errBusy := p.errBusy && !nbit v 2 }
/-- A value written when it lies in a range. -/
def inRange (v lo hi : Nat) : Bool := decide (lo ≤ v) && decide (v ≤ hi)
/-- A write of LOSSX (R90). -/
def State.writeLossx (s : State) (ctx v : Nat) : State :=
  let x := sgn (v % 256) 8
  if -64 ≤ x ∧ x ≤ 64 then s.modRun ctx fun r => { r with lossx := x } else s
/-- A control register written by a group: `g` its number, `ctx` its context, `tid` its team. Read-only registers
ignore the write (R6). -/
def State.csrWrite (s : State) (r : Csr) (gid ctx tid v : Nat) : State :=
  let lo := v % 2 ^ 32
  match r with
  | .acclive => s.modTeam tid fun t => { t with accLive := BitVec.ofNat 64 (v % 2 ^ t.accs.length) }
  | .tresume => s.modGroup gid fun g => g.modBank fun b => { b with resume := BitVec.ofNat 64 v }
  | .tscratch => s.modGroup gid fun g => g.modBank fun b => { b with scratch := BitVec.ofNat 64 v }
  | .lossx => s.writeLossx ctx v
  | .preemptTimeout => if inRange lo 10 100000 then s.modRun ctx fun c => { c with pto := lo } else s
  | .ordTimeout => if inRange lo 1 100000 then s.modRun ctx fun c => { c with oto := lo } else s
  | .captarget => s.modPkg fun p => { p with captarget := v % 2 ^ 52 }
  | .retirestk => s.retireWrite v
  | .xtabbase => if nfld v 0 21 = 0 then s.modBarchan fun b => { b with base := v % 2 ^ 48 } else s
  | .xpolicy => s.writePolicy v
  | .hotThresh => s.modBarchan fun b => { b with hot := lo }
  | .idleThresh => s.modBarchan fun b => { b with idle := lo }
  | .coldThresh => s.modBarchan fun b => { b with cold := lo }
  | .xwindow => if inRange lo 10 1000000 then s.modBarchan fun b => { b with window := lo } else s
  | .mapctl => s.mapctl v
  | .maperr => s.writeMaperr v
  | .keycmd => s.keyCommand v
  | .leaseRw => if inRange lo 50 10000 then s.modPkg fun p => { p with leaseRw := lo } else s
  | .leaseRo => if inRange lo 1000 1000000 then s.modPkg fun p => { p with leaseRo := lo } else s
  | .tcause => s
  | .targ => s
  | .taddr => s
  | .tlanes => s
  | .capacity => s
  | .retirestat => s
  | .migphase => s
  | .retain0 => s
  | .retain1 => s
  | .retain2 => s
  | .retain3 => s
  | .retovfl => s
  | .xver => s
  | .keystat => s
  | .svclevel => s

def execCsrr (r : Csr) (d : Nat) (s : State) : Host.Outcome State Fault Refusal :=
  s.issue (.csrr r d)
    (fun e s => .done (s.modRegs e.gid fun x => x.setS d (BitVec.ofNat 64 (s.csrValue r e.g e.die e.ctx))))
    matSpan
def execCsrw (r : Csr) (a : Nat) (s : State) : Host.Outcome State Fault Refusal :=
  s.issue (.csrw r a)
    (fun e s => .done (s.csrWrite r e.gid e.ctx e.g.team (e.g.regs.sr a).toNat))
    matSpan

/-! ### Traps by instruction, and the return from a handler (R278, R279, R374) -/

/-- TRAP: USER at level M; the trap position is the next instruction. -/
def execTrap (imm : Nat) (s : State) : Host.Outcome State Fault Refusal :=
  s.issue (.trap imm)
    (fun e s => .stay (s.raise e.gid ⟨.user, imm, 0, 0, e.after, true⟩))
    matSpan
/-- The level that TCAUSE.PLEV names and the position that TRESUME names. -/
def GI.bank (e : GI) : TrapBank := if e.g.ctl.level = .m then e.g.bankM else e.g.bankS
/-- An HRET whose TRESUME names no clause header is ILLEGAL at the HRET, and the handler remains in control: the trap enters
the handler of the same level again, where R376 would end the context for another trap (DEDUCED, log entry 107). -/
def GI.badResume (e : GI) (s : State) : State :=
  (s.modCtl e.gid fun c =>
    { c with trap := some ⟨.illegal, e.word, 0, 0, e.g.ctl.pos, e.g.ctl.level == .m⟩, hold := none, holdArg := [] }).enterTrap e.gid
/-- HRET: MODE, level and position come from the issuing level's bank; the clause that the position lies in gives
SETA, SETB and LEN again. It waits for the handler's own Long instructions, so that no tag of theirs survives (R111). The
reissue after a DIEOFF keeps to the lanes that failed, when TRESUME still names it. -/
def GI.hret (e : GI) (s : State) : Fx :=
  let b := e.bank
  let p := Pos.ofWord b.resume.toNat
  if !e.g.flagsClear then .stay s
  else match e.fetch s b.plev p.h with
  | .fault st => .page s st 1 p.h 0
  | .phys => .trap s .physrange 0 p.h 0
  | .trap c => .stay (e.fetchTrap s c p.h)
  | .moving => .stay s
  | .word w =>
    let len := nfld w 0 6
    if !isHeader w || decide (len < p.k) then .stay (e.badResume s)
    else .stay (s.modGroup e.gid fun g =>
      { g with
        regs := { g.regs with mode := b.mode }
        tags := []
        redo := match g.redo with
          | some (q, m) => if b.cause = Cause.dieoff.code ∧ q = p then some (q, m) else none
          | none => none
        lastIssue := s.gtOf g.core
        ctl := { g.ctl with level := b.plev, pos := p, seta := nfld w 10 4, setb := nfld w 6 4, len := len } })
def execHret (s : State) : Host.Outcome State Fault Refusal := s.issue .hret GI.hret matSpan
/-- PYIELD: in its PREEMPT handler, which runs at level U, the group yields, and is held until the team resumes; at any other
time, in a handler that has interrupted that one too, nothing (R280). -/
def pyieldBody (e : GI) (s : State) : Fx :=
  if e.g.ctl.pre = .handler ∧ e.g.ctl.level = .u then
    .stay (s.modCtl e.gid fun c => { c with pre := .yielded, hold := some .pyield, holdAt := s.gtOf e.g.core, holdArg := [] })
  else .done s
def execPyield (s : State) : Host.Outcome State Fault Refusal := s.issue .pyield pyieldBody matSpan
/-- BKPT: precise. -/
def execBkpt (imm : Nat) (s : State) : Host.Outcome State Fault Refusal :=
  s.issue (.bkpt imm) (fun _ s => .trap s .bkpt imm 0 0) matSpan

end Sys2Proof.Machine
end

