-- ==== Sys2Proof/Machine/Held.lean ====
section
/-! DEFINITION. What a held group's instruction does while it holds, and W_WAIT_SATISFIED (R107, R224). -/
namespace Sys2Proof.Machine

/-- The work of an instruction that can hold its group: the W instructions, and mask instructions while they spill or
refill (R50). MBXRECV and PYIELD are completed by events of their own. -/
def heldBody (i : Instr) (e : GI) (s : State) : Fx :=
  match i with
  | .fence sc => fenceBody sc e s
  | .xfence b a => xfenceBody b a e s
  | .bar c n => barBody c n e s
  | .barwait _ => barwaitBody e s
  | .bcwait d n => bcwaitBody d n e s
  | .ordent _ _ => ordentBody e s
  | .regroup _ => regroupBody e s
  | .mif p o => maskGroup (fun e => e.mif p (e.target o)) e s
  | .melse o => maskGroup (fun e => e.melse (e.target o)) e s
  | .mend => maskGroup GI.mend e s
  | .mloop => maskGroup GI.mloop e s
  | .mbrk p o => maskGroup (fun e => e.leave .loopB p (e.target o)) e s
  | .mcont p o => maskGroup (fun e => e.leave .loopC p (e.target o)) e s
  | .mendl o => maskGroup (fun e => e.mendl (e.target o)) e s
  | .exit => exitBody e s
  | _ => .stay s
/-- W_WAIT_SATISFIED: the instruction that holds a group looks again at what it waits for. -/
def execWWaitSatisfied (gid : Nat) (s : State) : Host.Outcome State Fault Refusal :=
  s.event fun s =>
    match tget s.groups gid with
    | none => s
    | some g =>
      match g.ctl.hold with
      | none => s
      | some i => s.runGroup i gid (heldBody i)
end Sys2Proof.Machine
end

