-- ==== Sys2Proof/Machine/Reload.lean ====
section
/-! DEFINITION. What the resume of a team or span takes from its record (R57 to R59, R383): the record's fields read back
over what the device keeps beside it. -/
namespace Sys2Proof.Machine

/-- `n` numbers of `w` bytes each, from the start of a list of bytes. -/
def numsOf (w : Nat) : Nat → List Byte → List Nat
  | 0, _ => []
  | n + 1, b => Machine.ofBytes (b.take w) :: numsOf w n (b.drop w)
/-- `n` numbers of `w` bytes each, from offset `o`. -/
def rdNs (b : List Byte) (o w n : Nat) : List Nat := numsOf w n (b.drop o)
/-- Bytes `[o, o+n)` of a record. -/
def part (b : List Byte) (o n : Nat) : List Byte := (b.drop o).take n
/-- The number in bytes `[o, o+n)` of a record. -/
def numAt (b : List Byte) (o n : Nat) : Nat := Machine.ofBytes (part b o n)
/-- A memory that holds the given bytes from address 0 on. -/
def Memory.ofBytes (b : List Byte) : Memory :=
  b.zipIdx.filterMap fun z => if z.1 = Memory.unlisted then none else some (z.2, z.1)

/-- A byte-count slot from its saved word (R227). -/
def BcSlot.ofWord (w : Nat) : BcSlot := ⟨sgn (nfld w 0 40) 40, nbit w 40, nfld w 41 4⟩
/-- A barrier from its saved word (R226); which groups the phase counts is the device's own. -/
def Bar.reload (old : Bar) (w : Nat) : Bar := ⟨nfld w 0 5, nfld w 5 5, nbit w 10, nfld w 11 16, old.all⟩
/-- The mask stack of a depth, its newest entries from their hardware slots (R50, R58); the older ones are refilled from
the spill area when they are needed. -/
def reloadStack (old : List MaskEntry) (depth : Nat) (b : List Byte) : List MaskEntry :=
  let n := min depth 256
  let blank : MaskEntry := ⟨0, 0, .ifK, 0⟩
  (List.range (n - 16)).map (fun i => old.getD i blank) ++
    (List.range (min n 16)).map fun i => MaskEntry.ofBytes (old.getD (n - 16 + i) blank) (part b (16 * i) 16)
/-- A group from its record (R58). -/
def Group.reload (g : Group) (v : Nat) (b : List Byte) : Group :=
  let helper := numAt b 0x18 8
  { g with
    ctl := { g.ctl with pos := Pos.ofWord (numAt b 0 8) }
    regs :=
      { v := (List.range v).map fun k => (rdNs b (0x600 + 256 * k) 4 64).map (BitVec.ofNat 32)
        s := (rdNs b 0x2C0 8 64).map (BitVec.ofNat 64)
        p := (rdNs b 0x40 8 15).map (BitVec.ofNat 64)
        t := (rdNs b 0x4C0 16 16).map (BitVec.ofNat 128)
        cc := CC.ofWord (numAt b 0xC 4)
        mode := BitVec.ofNat 32 (numAt b 8 4) }
    active := BitVec.ofNat 64 (numAt b 0x10 8)
    items := g.items.zipIdx.map fun z => z.1.map fun x => { x with helper := nbit helper z.2 }
    sticky := BitVec.ofNat 4 (numAt b 0x20 4)
    stack := reloadStack g.stack (numAt b 0x24 4) (part b 0xC0 256)
    rng := (rdNs b 0x1C0 4 64).map (BitVec.ofNat 32) }
/-- Live accumulators from their images, in ascending register number (R57); the others are cleared (R277). -/
def reloadAccs (live : Nat) (b : List Byte) : Nat → Nat → List Acc → List Acc
  | _, _, [] => []
  | k, o, a :: r =>
    if nbit live k then
      { a with rows := (List.range 64).map fun i => (rdNs b (o + 256 * i) 4 64).map (BitVec.ofNat 32) } :: reloadAccs live b (k + 1) (o + 16384) r
    else Acc.clear :: reloadAccs live b (k + 1) o r
/-- A team from its record (R57); `v` is the count of vector registers. -/
def Team.reload (t : Team) (v : Nat) (b : List Byte) : Team :=
  let live := numAt b 0x18 8 % 2 ^ t.accs.length
  let o := 0x100 + t.groups * (0x600 + 256 * v)
  let images := 16384 * ((List.range t.accs.length).filter fun k => nbit live k).length
  { t with
    accLive := BitVec.ofNat 64 live
    bcs := (rdNs b 0x40 8 16).map BcSlot.ofWord
    bars := t.bars.zipIdx.map fun z => z.1.reload (numAt b (0xC0 + 4 * z.2) 4)
    accs := reloadAccs live b 0 o t.accs
    loc := Memory.ofBytes (part b (o + images) t.size) }
/-- A half-space from its image. -/
def Half.ofBytes (b : List Byte) : Half :=
  let k (i : Nat) : Int := sgn (numAt b (8 * i) 8) 64
  ⟨k 0, k 1, k 2, k 3, k 4, nbit (numAt b 40 8) 0⟩
/-- A predicate form from its image (R59). -/
def PForm.ofBytes (b : List Byte) : PForm :=
  let n := numAt b 0 4
  if n = 0 then .const (nbit (numAt b 4 4) 0) else .conj ((List.range (min n 4)).map fun i => Half.ofBytes (part b (8 + 48 * i) 48))
/-- A span's control-stack entry from its image; the construct's name is the device's own. -/
def SpanEntry.reload (old : SpanEntry) (b : List Byte) : SpanEntry :=
  { old with
    mode := BitVec.ofNat 32 (numAt b 0 4)
    kind := (MaskEntry.ofBytes ⟨0, 0, old.kind, 0⟩ (zeroPad 8 ++ b)).kind }
where
  zeroPad (n : Nat) : List Byte := List.replicate n 0
/-- A span from its record (R59). -/
def Span.reload (x : Span) (b : List Byte) : Span :=
  let blank : SpanEntry := ⟨0, .ifK, 0, false⟩
  let form (i : Nat) : Form :=
    let w (j : Nat) : Word := BitVec.ofNat 32 (numAt b (0x1300 + 20 * i + 4 * j) 4)
    ⟨w 0, w 1, w 2, w 3, w 4⟩
  { x with
    box := ⟨numAt b 0 4, numAt b 4 4, numAt b 8 4, numAt b 0xC 4, numAt b 0x10 2, numAt b 0x12 2, numAt b 0x14 2, numAt b 0x16 2⟩
    pos := Pos.ofWord (numAt b 0x18 8)
    mode := BitVec.ofNat 32 (numAt b 0x20 4)
    cc := CC.ofWord (numAt b 0x24 4)
    stack := (List.range (min (numAt b 0x28 4) 16)).map fun i => (x.stack.getD i blank).reload (part b (0x30 + 8 * i) 8)
    sticky := BitVec.ofNat 4 (numAt b 0xB0 4)
    s := (rdNs b 0x100 8 64).map (BitVec.ofNat 64)
    t := (rdNs b 0x300 16 16).map (BitVec.ofNat 128)
    pforms := (List.range 15).map fun i => PForm.ofBytes (part b (0x400 + 256 * i) 256)
    forms := (List.range x.forms.length).map form }
/-- Something saved, with what its record holds. -/
def Saved.reload (x : Saved) (v : Nat) (b : List Byte) : Saved :=
  { x with
    team := x.team.map fun t => t.reload v b
    groups := x.groups.map fun g => g.reload v (part b (0x100 + g.num * (0x600 + 256 * v)) (0x600 + 256 * v))
    span := x.span.map fun y => y.reload b }

end Sys2Proof.Machine
end

