-- ==== Sys2Proof/Machine/Preempt.lean ====
section
/-! DEFINITION. Pre-emption (R378 to R383): requests, entry to the PREEMPT handler, timeouts, the save of a team or a
span with its record (R56 to R59), the resume; Background budgets and frame ticks (R365). -/
namespace Sys2Proof.Machine

/-! ### Requests (R379) -/

/-- A group as a request to pre-empt its team looks at it: held by a W instruction or descheduled, it counts as yielded
at once, unless it is in an ordered section, in a handler, or an MMAP of its team is outstanding. -/
def State.preGroup (s : State) (gid : Nat) : State :=
  match tget s.groups gid with
  | none => s
  | some g =>
    if g.ctl.pre = .run ∧ g.ctl.level = .u ∧ g.sect.isNone ∧ !s.mmapOut g.team ∧ (g.heldW ∨ g.ctl.desched.isSome) then
      s.modCtl gid fun c => { c with pre := .yielded }
    else s
/-- A request to pre-empt a team; one that stands already stays. -/
def State.requestTeam (s : State) (tid : Nat) : State :=
  match tget s.teams tid with
  | none => s
  | some t =>
    if t.pre.isSome then s
    else match tget s.launches t.launch with
      | none => s
      | some l =>
        let r := s.run l.ctx
        let s1 := s.modTeam tid fun x => { x with pre := some ⟨s.gtOf t.core, r.pto, r.oto, false⟩ }
        (s.groupsOf tid).foldl (fun a g => a.preGroup g.1) s1

/-! ### Save records (R56 to R59) -/

def zeroBytes (n : Nat) : List Byte := List.replicate n 0
/-- A byte-count slot as saved (R227). -/
def BcSlot.word (b : BcSlot) : Nat := packF [(wrapN b.count 40, 0), (b2n b.init, 40), (b.err, 41)]
/-- A team barrier as saved (R226). -/
def Bar.word (b : Bar) : Nat := packF [(b.arr, 0), (b.exp, 5), (b2n b.par, 10), (b.mask, 11)]
/-- A register file's words as bytes. -/
def vecBytes (v : List Word) : List Byte := v.flatMap fun w => toBytes 4 w.toNat
/-- A group record (R58). -/
def Group.record (g : Group) : List Byte :=
  let hw := g.stack.drop (g.stack.length - 16)
  toBytes 8 g.ctl.pos.word ++ toBytes 4 g.regs.mode.toNat ++ toBytes 4 g.regs.cc.word ++ toBytes 8 g.active.toNat ++
  toBytes 8 g.helpers.toNat ++ toBytes 4 g.sticky.toNat ++ toBytes 4 g.stack.length ++ zeroBytes 24 ++
  (g.regs.p.flatMap fun m => toBytes 8 m.toNat) ++ zeroBytes 8 ++
  (hw.flatMap MaskEntry.bytes) ++ zeroBytes (16 * (16 - hw.length)) ++
  vecBytes g.rng ++ (g.regs.s.flatMap fun x => toBytes 8 x.toNat) ++ (g.regs.t.flatMap fun x => toBytes 16 x.toNat) ++
  zeroBytes 64 ++ g.regs.v.flatMap vecBytes
/-- Whether a launch's teams go to core pairs (R251, R367). -/
def Launch.paired (l : Launch) : Bool := l.coresident && l.accs != 0
/-- A team record (R57); a group that has ended leaves zeros. At a save no group of the team is in an ordered section
(R379) and no MMAP of the pair is outstanding (R60, code W), so of the flags only CORESIDENT can be set. -/
def teamRecord (l : Launch) (t : Team) (gs : List Group) : List Byte :=
  let flags := packB [false, false, false, l.coresident]
  let grp (n : Nat) : List Byte := match gs.find? fun g => g.num == n with
    | some g => g.record
    | none => zeroBytes (0x600 + 256 * l.nregs)
  toBytes 4 t.tx ++ toBytes 4 t.ty ++ toBytes 2 t.groups ++ toBytes 2 l.nregs ++ toBytes 4 t.accs.length ++ toBytes 4 t.size ++
  toBytes 4 flags ++ toBytes 8 t.accLive.toNat ++ zeroBytes 32 ++ (t.bcs.flatMap fun b => toBytes 8 b.word) ++
  (t.bars.flatMap fun b => toBytes 4 b.word) ++ ((List.range t.groups).flatMap grp) ++
  (t.accs.zipIdx.flatMap fun (z : Acc × Nat) => if nbit t.accLive.toNat z.2 then z.1.rows.flatMap vecBytes else []) ++
  t.loc.read 0 t.size
/-- A half-space as saved, in 48 bytes: its five coefficients and its strictness, 8 bytes each. R59 gives the size alone:
the order within it is the model's (DESIGN CHOICE, log entry 108). -/
def Half.bytes (h : Half) : List Byte :=
  ([h.a, h.b, h.c, h.d, h.e].flatMap fun x => toBytes 8 (wrapN x 64)) ++ toBytes 8 (b2n h.strict)
/-- A predicate form as saved (R59): 4 bytes of count and 4 of constant before the half-spaces, a split that R59 does not
give (DESIGN CHOICE, log entry 108). -/
def PForm.bytes (p : PForm) : List Byte :=
  match p with
  | .const b => toBytes 4 0 ++ toBytes 4 (b2n b) ++ zeroBytes 248
  | .conj [] => toBytes 4 0 ++ toBytes 4 1 ++ zeroBytes 248
  | .conj hs => toBytes 4 hs.length ++ toBytes 4 0 ++ hs.flatMap Half.bytes ++ zeroBytes (248 - 48 * hs.length)
/-- A span record (R59). -/
def Span.record (x : Span) : List Byte :=
  let b := x.box
  toBytes 4 b.tx0 ++ toBytes 4 b.tx1 ++ toBytes 4 b.ty0 ++ toBytes 4 b.ty1 ++ toBytes 2 b.jx0 ++ toBytes 2 b.jx1 ++
  toBytes 2 b.jy0 ++ toBytes 2 b.jy1 ++ toBytes 8 x.pos.word ++ toBytes 4 x.mode.toNat ++ toBytes 4 x.cc.word ++
  toBytes 4 x.stack.length ++ toBytes 4 (packB [decide (x.park ≠ .run), match x.park with
    | .join _ => true
    | _ => false]) ++
  (x.stack.flatMap fun e => toBytes 4 e.mode.toNat ++ toBytes 4 e.kind.code) ++ zeroBytes (8 * (16 - x.stack.length)) ++
  toBytes 4 x.sticky.toNat ++ zeroBytes 76 ++ (x.s.flatMap fun y => toBytes 8 y.toNat) ++
  (x.t.flatMap fun y => toBytes 16 y.toNat) ++ (x.pforms.flatMap PForm.bytes) ++
  x.forms.flatMap fun f => toBytes 4 f.a.toNat ++ toBytes 4 f.b.toNat ++ toBytes 4 f.c.toNat ++ toBytes 4 f.d.toNat ++ toBytes 4 f.e.toNat
/-- The record of something saved, padded to 256 bytes. -/
def Saved.record (x : Saved) (l : Launch) : List Byte :=
  let r := match x.team, x.span with
    | some t, _ => teamRecord l t x.groups
    | none, some y => y.record
    | none, none => []
  r ++ zeroBytes (rup r.length 256 - r.length)
/-- The stretches of `[va, va+n)` that lie in one 64 KiB page each. -/
def pagesOf (va n : Nat) : List (Nat × Nat) :=
  let first := min n (65536 - va % 65536)
  (va, first) :: (List.range (cdiv (n - first) 65536)).map fun i => (va + first + 65536 * i, min 65536 (n - first - 65536 * i))
/-- A device agent's write of any length, page by page: the status and address of the first fault that it met, if any. -/
def State.devWriteAll (s : State) (die ctx va : Nat) (data : List Byte) : Option (Nat × Nat) × State :=
  (pagesOf va data.length).foldl (fun a p =>
    let r := a.2.devWrite die ctx p.1 ((data.drop (p.1 - va)).take p.2)
    (a.1.or (match r.1 with
      | .ok _ => none
      | .error st => some (st, p.1)), r.2)) (none, s)
/-- Whether every write that has arrived at the lines of a stretch has been performed (R301). -/
def State.settledAt (s : State) (pa n : Nat) : Bool :=
  (List.range (cdiv (pa % 128 + n) 128)).all fun k =>
    let ln := pa / 128 + k
    (s.lineCtl ln).pend.all fun p => decide (p.w ≤ s.gtAt (s.homeDie ln))
/-- Bytes of a stretch with every write that has arrived over them (R302). -/
def State.seeArrived (s : State) (pa n key : Nat) : List Byte :=
  slice ((List.range (cdiv (pa % 128 + n) 128)).flatMap fun k => s.futureLine (pa / 128 + k) key) (pa % 128) n
/-- A record's bytes as they stand in memory, with what has arrived there; none where they cannot be read. -/
def State.recordBytes (s : State) (die ctx va n : Nat) : Option (List Byte) :=
  (pagesOf va n).foldl (fun a p =>
    match a, s.translate (engineCluster die) die ctx p.1 ⟨false, false, false⟩ with
    | some l, (.ok t, s1) =>
      if s1.spaceOf t.pa = some .global ∧ s1.homeUp (t.pa / 128) ∧ s1.keyed t.key ∧ !s1.poisonedAt t.pa p.2 t.key then
        some (l ++ s1.seeArrived t.pa p.2 t.key)
      else none
    | _, _ => none) (some [])
/-- Whether every write to a record that has arrived at its home has been performed. -/
def State.recordSettled (s : State) (die ctx va n : Nat) : Bool :=
  (pagesOf va n).all fun p =>
    match s.translate (engineCluster die) die ctx p.1 ⟨false, false, false⟩ with
    | (.ok t, s1) => s1.settledAt t.pa p.2
    | _ => true
/-- What a context has saved. -/
def State.savedOf (s : State) (c : Nat) : List (Nat × Saved × Launch) :=
  s.saved.filterMap fun x => match tget s.launches x.2.launch with
    | some l => if l.ctx == c then some (x.1, x.2, l) else none
    | none => none
/-- The save area's header, directory and records written (R56), records in directory order on 256-byte boundaries; with the
status and address of the first fault that the writes met. A record that lies in memory already keeps its bytes as they stand
there; one that has not been written whole is kept by the device alone, at offset 0. A span's number in its directory entry is
the key of its record in the model's table: R56 does not say what it is (DESIGN CHOICE, log entry 109). -/
def State.savesTry (s : State) (die c : Nat) : Option (Nat × Nat) × State :=
  match tget s.ctxs c with
  | none => (none, s)
  | some x =>
    let l := s.savedOf c
    let base := rup (0x40 + 16 * l.length) 256
    let lay := l.foldl (fun (acc : List (Nat × Nat × Saved × List Byte) × Nat) y =>
      let old := if y.2.1.image = 0 then none else s.recordBytes die c (x.saveBase + y.2.1.image) y.2.1.bytes
      let r := old.getD (y.2.1.record y.2.2)
      (acc.1 ++ [(y.1, acc.2, y.2.1, r)], acc.2 + r.length)) ([], base)
    let dir := lay.1.flatMap fun y =>
      let lid := y.2.2.1.launch
      let n := match y.2.2.1.team, tget s.launches lid with
        | some t, some k => t.linear k
        | _, _ => y.1
      toBytes 2 (if y.2.2.1.team.isSome then 1 else 2) ++ toBytes 6 n ++ toBytes 8 y.2.1
    let teams := (l.filter fun y => y.2.1.team.isSome).length
    let head := toBytes 4 0x4F4C0001 ++ toBytes 4 teams ++ toBytes 4 (l.length - teams) ++ toBytes 4 0 ++ toBytes 8 lay.2 ++ zeroBytes 40
    lay.1.foldl (fun a y =>
      if y.2.2.1.image = y.2.1 then a
      else
        let r := a.2.devWriteAll die c (x.saveBase + y.2.1) y.2.2.2
        (a.1.or r.1, { r.2 with saved := tmod r.2.saved y.1 fun z =>
          { z with image := if r.1.isNone then y.2.1 else 0, bytes := y.2.2.2.length } })) (s.devWriteAll die c x.saveBase (head ++ dir))
/-- Whether a fault of the device's own access to a save area is one that it waits for: a moving page (R326), or a fault that the
supervisor can resolve (R352). -/
def saveWaits (st : Nat) : Bool := st == stMoving || resolvable st
/-- The save area of a context brought up to date. Writes that must wait leave an operation of no group, which makes them
again; an address that does not exist ends the context (R328). -/
def State.writeSaves (s : State) (die c : Nat) : State :=
  match s.savesTry die c with
  | (none, s1) => s1
  | (some (st, _), s1) =>
    if st = stPhys then s1.enginePhys c
    else if saveWaits st && !(s1.work.ops.any fun o => o.2.gid == 0 && o.2.instr == .pyield && o.2.misc.head? == some c) then
      s1.oweAdd .pyield 0 [c, die]
    else s1
/-- Such an operation's writes are made again: a resolvable fault goes to the fault queue, and they wait for its resolution
(R352). -/
def State.savesAgain (s : State) (o c die : Nat) : State :=
  if s.deviceHeld c o then s
  else match s.savesTry die c with
    | (none, s1) => s1.delOp o
    | (some (st, va), s1) => if st = stPhys then s1.enginePhys c else s.deviceFault s1 c st va o true fun t => t.delOp o
/-- Something saved as its record gives it back (R383), or the status and address of the fault that its read met; a record whose
writes are still on their way is met again, as a moving page is. -/
def State.reloaded (s : State) (x : Saved) (l : Launch) : (Except (Nat × Nat) Saved) × State :=
  if x.image = 0 then (.ok x, s)
  else match tget s.ctxs l.ctx with
    | none => (.error (stMoving, 0), s)
    | some c =>
      if !s.recordSettled x.die l.ctx (c.saveBase + x.image) x.bytes then (.error (stMoving, 0), s)
      else match s.devRead x.die l.ctx (c.saveBase + x.image) x.bytes with
        | (.ok b, s1) => (.ok (x.reload l.nregs b), s1)
        | (.error e, s1) => (.error e, s1)

/-! ### Spans (R41) -/

/-- Of some spans of a launch, those that share a team with the ones named, directly or through others: the pieces of one
team are saved, and resume, together. -/
def kin (l : Launch) (xs : List (Nat × Span)) : Nat → List Nat → List Nat
  | 0, k => k
  | n + 1, k => kin l xs n ((xs.filter fun x => k.contains x.1 ||
      xs.any fun y => k.contains y.1 && (y.2.teams l).any (x.2.teams l).contains).map (·.1))
/-- The placed spans that go with one. -/
def State.kinOf (s : State) (l : Launch) (sid : Nat) : List Nat :=
  match tget s.spans sid with
  | none => []
  | some x =>
    let xs := (s.spansOn x.core).filter fun y => y.2.launch == x.launch
    kin l xs xs.length [sid]
/-- Team-linear indices of the teams that some spans hold. -/
def spanTeams (l : Launch) (xs : List Span) : List Nat := uniq (xs.flatMap fun x => (x.teams l).map fun t => t.2 * l.gx + t.1)
/-- A span as records can hold it: one span for each box that the teams it still has make up (R30, R59). The first keeps its
name; the others' count on from `n`. -/
def Span.pieces (x : Span) (l : Launch) (id n : Nat) : List (Nat × Span) :=
  if x.gone.isEmpty then [(id, x)]
  else (x.leftBoxes l).zipIdx.map fun b => (if b.2 = 0 then id else n + b.2, { x with box := b.1, gone := [] })
/-- The pieces of several spans: each with the name of the span that it comes from. -/
def splitSpans (l : Launch) : Nat → List (Nat × Span) → List (Nat × Nat × Span)
  | _, [] => []
  | n, x :: r =>
    let ps := x.2.pieces l x.1 n
    ps.map (fun p => (x.1, p.1, p.2)) ++ splitSpans l (n + ps.length) r
/-- Spans of a launch taken off their cores and kept as saved, in the pieces that their records can hold; what was reserved for
their teams is free. A piece expands with every piece of the spans that its span would have expanded with. -/
def State.stowSpans (s : State) (lid : Nat) (l : Launch) (ids : List Nat) : State :=
  let xs := s.spans.filter fun x => ids.contains x.1
  let ts := spanTeams l (xs.map (·.2))
  let ps := splitSpans l s.nextId xs
  let act (a : List Nat) : List Nat := a.flatMap fun i => if xs.any fun x => x.1 == i then (ps.filter fun p => p.1 == i).map (·.2.1) else [i]
  let put (t : Tbl Saved) (p : Nat × Nat × Span) : Tbl Saved :=
    tput t p.2.1 ⟨lid, coreDie p.2.2.core, none, [], some { p.2.2 with act := act p.2.2.act }, 0, 0⟩
  ({ s with
    nextId := s.nextId + ps.length + 1
    spans := s.spans.filter fun x => !ids.contains x.1
    saved := ps.foldl put s.saved } : State).modLaunch lid fun k => { k with held := k.held.filter fun h => !ts.contains h.1 }
/-- A span, with those that go with it, goes to span records, with no handler. -/
def State.saveSpan (s : State) (sid : Nat) : State :=
  match tget s.spans sid with
  | none => s
  | some x => match tget s.launches x.launch with
    | none => s
    | some l => (s.stowSpans x.launch l (s.kinOf l sid)).writeSaves (coreDie x.core) l.ctx
/-- A request to pre-empt every team and span of a launch that `p` admits by its core. -/
def State.requestLaunch (s : State) (lid : Nat) (p : Nat → Bool) : State :=
  let s1 := (s.spans.filter fun x => x.2.launch == lid && p x.2.core).foldl (fun a x => a.saveSpan x.1) s
  (s1.teams.filter fun t => t.2.launch == lid && p t.2.core).foldl (fun a t => a.requestTeam t.1) s1

/-! ### The PREEMPT handler (R380) -/

/-- PREEMPT_ENTRY: a group at a clause boundary enters the handler at UVEC once its instructions are complete (R196); a group that
a W instruction or a replayable fault holds counts as yielded. An address that names no clause header is ILLEGAL where the
group stands (R96): a fetch that fails is the group's fault there, which leaves it as before it stood at the boundary. -/
def execPreemptEntry (gid : Nat) (s : State) : Host.Outcome State Fault Refusal :=
  s.event fun s =>
    match s.gi gid .nop with
    | none => s
    | some e =>
      if e.team.pre.isNone then s
      else if e.g.ctl.pre = .entering then
        let back := s.modCtl gid fun c => { c with pre := .run }
        if !e.g.quiet then s
        else match e.fetch s .u (s.uvec e.ctx) with
          | .word w =>
            if isHeader w then
              s.modGroup gid fun g =>
                { g with
                  tags := []
                  latch := { g.latch with valid := false }
                  regs := { (g.regs.setS 59 (BitVec.ofNat 64 g.ctl.pos.h)).setS 58 (BitVec.ofNat 64 g.regs.mode.toNat) with mode := modeEntry }
                  ctl := { g.ctl with pos := ⟨s.uvec e.ctx, 0⟩, pre := .handler } }
            else e.trapHere back .illegal 0 0 0
          | .fault st => e.pageFault back st 1 (s.uvec e.ctx) 0
          | .trap c => e.fetchTrap back c (s.uvec e.ctx)
          | .phys => e.trapHere back .physrange 0 (s.uvec e.ctx) 0
          | .moving => s
      else s.preGroup gid
/-- A group forced out of its ordered section, with a record (R379). -/
def State.forceOut (s : State) (gid : Nat) : State :=
  match s.gi gid .nop with
  | none => s
  | some e =>
    match e.g.sect with
    | none => s
    | some x => (e.eventRecord s .ordabandon e.g.ctl.pos x.lanes).leaveSection gid (BitVec.allOnes 64)
/-- ORD_TIMEOUT_EXPIRE. -/
def execOrdTimeoutExpire (gid : Nat) (s : State) : Host.Outcome State Fault Refusal :=
  s.event fun s =>
    match s.gi gid .nop with
    | none => s
    | some e =>
      match e.team.pre with
      | some p => if p.at_ + 1000 * p.oto ≤ s.gtOf e.g.core then (s.forceOut gid).preGroup gid else s
      | none => s
/-- PREEMPT_TIMEOUT_EXPIRE: the save is forced. -/
def execPreemptTimeoutExpire (team : Nat) (s : State) : Host.Outcome State Fault Refusal :=
  s.event fun s =>
    match tget s.teams team with
    | none => s
    | some t =>
      match t.pre with
      | some p =>
        if p.at_ + 1000 * p.pto ≤ s.gtOf t.core then
          s.modTeam team fun x => { x with pre := some { p with forced := true } }
        else s
      | none => s

/-! ### The save of a team (R381, R382) -/

/-- A forced save stops each group that has not yielded at its next issue point, first forced out of its section;
groups in handlers are awaited. -/
def State.forceStops (s : State) (tid : Nat) : State :=
  (s.groupsOf tid).foldl (fun a g =>
    if g.2.ctl.pre = .yielded ∨ g.2.ctl.level ≠ .u ∨ g.2.ctl.trap.isSome ∨ g.2.ctl.ending then a
    else
      let b := a.forceOut g.1
      let c := match g.2.ctl.hold with
        | some i => if i.cls = IClass.waiting then b else b.dropOpReqs (g.2.ctl.holdArg.headD 0)
        | none => b
      c.modCtl g.1 fun k =>
        { k with pre := .yielded, hold := if g.2.heldW then k.hold else none, holdArg := if g.2.heldW then k.holdArg else [] }) s
/-- The other team of a pair (R251). -/
def State.partnerOf (s : State) (t : Team) (l : Launch) : Option (Nat × Team) :=
  let n := t.linear l
  let m := if n % 2 = 0 then n + 1 else n - 1
  if l.paired then s.teams.find? fun x => x.2.launch == t.launch && x.2.linear l == m else none
/-- Whether a group is stopped for the save of its team: REGROUP's deal, once made, is waited for, and so are the exceptions
of its last instructions (R78). -/
def Group.stopped (g : Group) : Bool :=
  g.ctl.pre == .yielded && g.ctl.level == .u && !g.ctl.ending && g.ctl.trap.isNone && g.ctl.emul.isNone && g.flagsClear && g.late.isEmpty
/-- Whether the team's engine work has drained (R381), what its ended groups handed over included. -/
def State.drained (s : State) (tid : Nat) (t : Team) (l : Launch) : Bool :=
  !(s.work.ops.any fun o => o.2.team == tid) && !(s.work.copies.any fun c => c.2.team == tid && c.2.node.isNone) &&
  t.left.copies.isEmpty && t.left.draws.isEmpty && (s.groupsOf tid).all (fun g => (s.awaitOf g.1 fun _ => false).draws.isEmpty &&
    !(s.work.arrives.any fun a => a.2.gid == g.1) && !(s.work.releases.any fun r => r.2.gid == g.1)) &&
  match s.partnerOf t l with
  | some x => !(t.linear l % 2 == 1 && s.mmapOut x.1)
  | none => true
/-- Whether the condition of a held W instruction counts as met at the save: a barrier's only once its phase has
completed. -/
def Ctl.waitMet (c : Ctl) : Bool :=
  match c.hold with
  | some (.bar _ _) => c.holdArg == [2]
  | some (.barwait _) => c.holdArg == [2]
  | some (.regroup _) => c.holdArg.head? == some 2
  | some _ => true
  | none => false
/-- A yielded group's held instruction at the decision to save: complete when its condition holds, else not issued. -/
def State.settleWait (s : State) (gid : Nat) : State :=
  match tget s.groups gid with
  | none => s
  | some g =>
    match g.ctl.hold with
    | none => s
    | some i =>
      match s.gi gid i with
      | none => s
      | some e =>
        let s1 := match i with
          | .pyield => e.finish s (.done s)
          | _ =>
            if g.ctl.waitMet then
              match heldBody i e s with
              | .done s2 => e.finish s (.done s2)
              | _ => s
            else s
        s1.modCtl gid fun c => { c with hold := none, holdArg := [] }
/-- Whether a dealt REGROUP still waits for its private bytes. -/
def State.dealPending (s : State) (g : Group) : Bool :=
  match g.ctl.hold, g.ctl.holdArg with
  | some (.regroup _), [2, w] => decide (s.gtOf g.core ≤ w + 2)
  | _, _ => false
/-- A group as its team's record keeps it, and what the device keeps beside that (log entry 86): the lanes of a DIEOFF reissue
among it (R374). -/
def Group.saved (g : Group) : Group :=
  { g with
    flags := List.replicate 12 0
    tags := []
    latch := { g.latch with valid := false }
    ctl := { g.ctl with hold := none, holdArg := [], desched := none, pre := .run } }
/-- The team saved and its resources freed. -/
def State.saveTeam (s : State) (tid : Nat) : State :=
  let s0 := (s.groupsOf tid).foldl (fun a g => a.settleWait g.1) s
  match tget s0.teams tid with
  | none => s0
  | some t =>
    match tget s0.launches t.launch with
    | none => s0
    | some l =>
      let gs := (s0.groupsOf tid).map fun g => g.2.saved
      let s1 := s0.dropTeam tid
      let n := s1.fresh
      ({ n.2 with saved := tput n.2.saved n.1 ⟨t.launch, coreDie t.core, some { t with pre := none }, gs, none, 0, 0⟩ }).writeSaves
        (coreDie t.core) l.ctx
/-- TEAM_SAVE: every group has yielded, or the save is forced; once the team's work has drained, its record is
written. -/
def execTeamSave (team : Nat) (s : State) : Host.Outcome State Fault Refusal :=
  s.event fun s =>
    match tget s.teams team with
    | none => s
    | some t =>
      match t.pre, tget s.launches t.launch with
      | some p, some l =>
        let s1 := if p.forced then s.forceStops team else s
        if (s1.groupsOf team).all (fun g => g.2.stopped && !s1.dealPending g.2) && s1.drained team t l then s1.saveTeam team else s1
      | _, _ => s

/-! ### Whose turn on a die's cores it is (R364, R365) -/

/-- Whether a class of a context may be placed now. -/
def State.budgetOk (s : State) (c : Nat) (k : Cls) : Bool :=
  k != .background || (match tget s.ctxs c with
    | some x => x.budget == 0 || decide (0 < (s.run c).remaining)
    | none => false)
/-- Whether a die's distributor may place teams of a launch now: under CORESIDENT, every die that has some is up. -/
def State.eligible (s : State) (l : Launch) (d : Nat) : Bool :=
  !l.stopped && (s.die d).state == 0 && !(s.run l.ctx).suspended && s.budgetOk l.ctx l.cls && decide (l.nextT.getD d 0 < l.endT.getD d 0) &&
  (!l.coresident || (List.range 4).all fun k => decide (l.endT.getD k 0 ≤ l.nextT.getD k 0) || (s.die k).state == 0)
/-- Whether a launch may come back to a die from records saved there. -/
def State.mayResume (s : State) (lid : Nat) (l : Launch) (d : Nat) : Bool :=
  (s.die d).state == 0 && !(s.run l.ctx).suspended && s.budgetOk l.ctx l.cls && !l.expired &&
  s.saved.any fun x => x.2.launch == lid && x.2.die == d
/-- Whether work of a higher class, or of the same class accepted earlier, waits for the die: to be placed, or to resume. -/
def State.outranked (s : State) (l : Launch) (d : Nat) : Bool :=
  s.launches.any fun k => (s.eligible k.2 d || s.mayResume k.1 k.2 d) &&
    (decide (l.cls.rank < k.2.cls.rank) || (l.cls == k.2.cls && decide (k.2.order < l.order)))
/-- The core with the most free vector registers among those that `ok` admits; ties to the lowest number. -/
def State.freest (s : State) (cores : List Nat) (ok : Nat → Bool) : Option Nat := argMin (fun c => (s.coreUse c).regs) (cores.filter ok)

/-! ### The resume (R383) -/

/-- A saved team put on a core, its flags, tags and latches cleared (R383): it takes the granules of its local memory (R282), and
its age counts from now, when it is placed again (R369; DEDUCED, log entry 134). A team that only waited for what ended groups
handed over may be complete by now. -/
def State.placeSaved (s : State) (l : Launch) (x : Saved) (t : Team) (core : Nat) : State :=
  match s.localBase core l.localB with
  | none => s
  | some base =>
    let f := s.fresh
    let accs := t.accs.zipIdx.map fun (z : Acc × Nat) => if nbit t.accLive.toNat z.2 then z.1 else Acc.clear
    let t1 : Team := { t with core := core, base := base, accs := accs, age := f.2.gtOf core, pre := none }
    let s1 := ({ f.2 with teams := tput f.2.teams f.1 t1 } : State).takeGranules core l.localB
    (x.groups.foldl (fun a g =>
      let n := a.fresh
      let y : Group := { g with team := f.1, core := core, quad := a.quadFor core, age := t1.age, lastIssue := a.gtOf core }
      { n.2 with groups := tput n.2.groups n.1 y }) s1).teamCheck f.1
/-- The saved spans that resume with one, itself among them. -/
def State.savedKin (s : State) (l : Launch) (id : Nat) : List (Nat × Saved) :=
  match tget s.saved id with
  | none => []
  | some x =>
    let core := match x.span with
      | some y => y.core
      | none => 0
    let xs := s.saved.filterMap fun z => match z.2.span with
      | some y => if z.2.launch == x.launch && y.core == core then some (z.1, y) else none
      | none => none
    let k := kin l xs xs.length [id]
    s.saved.filter fun z => k.contains z.1
/-- Whether a core has room for a saved team, or for a saved span with those that go with it: entries of the span table
(R24), and of a CORESIDENT launch every team's resources, of another the first team's (R32). -/
def State.canHold (s : State) (l : Launch) (id core : Nat) : Bool :=
  match tget s.saved id with
  | none => false
  | some x => match x.team with
    | some _ => ((s.coreUse core).add l.use).fits && (s.localBase core l.localB).isSome
    | none =>
      let ks := s.savedKin l id
      let ts := spanTeams l (ks.filterMap fun z => z.2.span)
      let bare : State := { s with saved := s.saved.filter fun z => !ks.any fun y => y.1 == z.1 }
      decide ((s.spansOn core).length + ks.length ≤ 64) &&
      if l.coresident then (bare.holdTeams x.launch l (ts.map fun t => (core, t))).isSome else s.canAlloc l core
/-- Several saved things as their records give them back. -/
def State.reloadedAll (s : State) (l : Launch) (xs : List (Nat × Saved)) : (Except (Nat × Nat) (List (Nat × Saved))) × State :=
  xs.foldl (fun (a : (Except (Nat × Nat) (List (Nat × Saved))) × State) x =>
    match a.1 with
    | .error _ => a
    | .ok ys => match a.2.reloaded x.2 l with
      | (.ok y, s1) => (.ok (ys ++ [(x.1, y)]), s1)
      | (.error b, s1) => (.error b, s1)) (.ok [], s)
/-- The core on which the other team of a pair stands, as a team or within a span (R251). -/
def State.partnerCore (s : State) (lid : Nat) (l : Launch) (tl : Nat) : Option Nat :=
  let m := if tl % 2 = 0 then tl + 1 else tl - 1
  ((s.teams.find? fun x => x.2.launch == lid && x.2.linear l == m).map (·.2.core)).or
    ((s.spans.find? fun x => x.2.launch == lid && (spanTeams l [x.2]).contains m).map (·.2.core))
/-- The cores of its die on which something saved may stand: a paired launch keeps its pairing (R251). -/
def State.resumeCores (s : State) (l : Launch) (x : Saved) : List Nat :=
  let all := (List.range 160).map (160 * x.die + ·)
  let tl := match x.team, x.span with
    | some t, _ => t.linear l
    | none, some y => (spanTeams l [y]).headD 0
    | none, none => 0
  if !l.paired then all
  else
    let ok := all.filter fun c => c % 2 == tl % 2
    match s.partnerCore x.launch l tl with
    | some p => ok.filter fun c => c / 2 == p / 2
    | none => ok
/-- What keeps a resume back although there is room: the read of a record of `id` met a fault, by its status and address. -/
structure NoResume where
  id : Nat
  status : Nat
  addr : Nat
  deriving DecidableEq, Repr
/-- Such a fault's consequence: a page that is moving is met again, a resolvable fault goes to the fault queue (R352), an address
that does not exist ends the context (R328), and a record that cannot be read for another reason is waited for. -/
def State.resumeStop (s : State) (l : Launch) (x : NoResume) : State :=
  if x.status = stPhys then s.enginePhys l.ctx else s.deviceFault s l.ctx x.status x.addr x.id false fun t => t
/-- Something saved put on a core from its record, a span with those that go with it; none where it must wait: an access of a
span of its launch that was saved is outstanding, or there is no room. -/
def State.resumeOne (s : State) (l : Launch) (id core : Nat) : Option (Except NoResume State) :=
  match tget s.saved id with
  | none => none
  | some x =>
    if !s.canHold l id core || s.deviceHeld l.ctx id then none
    else match x.team with
      | some _ =>
        (match s.reloaded x l with
         | (.ok y, s1) => (match y.team with
           | some t => some (.ok { s1.placeSaved l y t core with saved := tdel s1.saved id })
           | none => none)
         | (.error e, _) => some (.error ⟨id, e.1, e.2⟩))
      | none =>
        let ks := s.savedKin l id
        if s.saved.any fun z => z.2.launch == x.launch && z.2.span.isSome && s.work.ops.any fun o => o.2.gid == z.1 then none
        else match s.reloadedAll l ks with
          | (.error e, _) => some (.error ⟨id, e.1, e.2⟩)
          | (.ok ys, s1) =>
            let s2 := { s1 with saved := s1.saved.filter fun z => !ks.any fun y => y.1 == z.1 }
            let ts := spanTeams l (ys.filterMap fun z => z.2.span)
            match (if l.coresident then s2.holdTeams x.launch l (ts.map fun t => (core, t)) else some s2) with
            | none => none
            | some s3 =>
              let s4 := ys.foldl (fun a z => match z.2.span with
                | some y =>
                  let back : Span := { y with core := core, flags := List.replicate 12 0, inside := false, age := a.gtOf core }
                  { a with spans := tput a.spans z.1 back }
                | none => a) s3
              some (.ok (s4.settle core))
/-- Everything that a launch has saved, put back one after another on the freest cores; none where not all of it can be
resident at once (R60, codes K and L). -/
def State.resumeRest (s : State) (lid : Nat) (l : Launch) : Nat → Option (Except NoResume State)
  | 0 => some (.ok s)
  | n + 1 =>
    match s.saved.find? fun x => x.2.launch == lid with
    | none => some (.ok s)
    | some x =>
      match s.freest (s.resumeCores l x.2) (s.canHold l x.1) with
      | none => none
      | some core => match s.resumeOne l x.1 core with
        | some (.ok t) => t.resumeRest lid l n
        | r => r
/-- All that a CORESIDENT launch has saved resumes at once, when every die of it is up, nothing outranks it on any of them, and no
team of it is still to be saved; what `first` names goes to its core. -/
def State.resumeAll (s : State) (lid : Nat) (l : Launch) (first : Option (Nat × Nat)) : State :=
  let mine := s.saved.filter fun x => x.2.launch == lid
  if (s.teams.any fun t => t.2.launch == lid && t.2.pre.isSome) || mine.any fun x => (s.die x.2.die).state != 0 || s.outranked l x.2.die then s
  else
    let r := match first with
      | some p => (match s.resumeOne l p.1 p.2 with
        | some (.ok t) => t.resumeRest lid l mine.length
        | x => x)
      | none => s.resumeRest lid l mine.length
    match r with
    | some (.ok t) => (t.modLaunch lid fun k => { k with expired := false }).writeSaves ((mine.map (·.2.die)).headD 0) l.ctx
    | some (.error x) => s.resumeStop l x
    | none => s
/-- TEAM_RESUME: a saved team, or a saved span with those that go with it, resumes from its record on a core of its die,
when nothing outranks it there; it waits while a record cannot be read. Under CORESIDENT all of the launch resumes
together (R60, code L), and a Background launch whose budget ran out only at a tick (code K). -/
def execTeamResume (saved core : Nat) (s : State) : Host.Outcome State Fault Refusal :=
  s.event fun s =>
    match tget s.saved saved with
    | none => s
    | some x =>
      match tget s.launches x.launch with
      | none => s
      | some l =>
        if !s.mayResume x.launch l x.die || s.outranked l x.die || !(s.resumeCores l x).contains core then s
        else if l.coresident then s.resumeAll x.launch l (some (saved, core))
        else match s.resumeOne l saved core with
          | some (.ok t) => t.writeSaves x.die l.ctx
          | some (.error x) => s.resumeStop l x
          | none => s

/-! ### Budgets (R365) -/

/-- A frame tick: the budget starts afresh, less the overrun; CORESIDENT Background launches that it stopped come back,
each all at once, if they can. -/
def State.frameTick (s : State) (c : Nat) : State :=
  match tget s.ctxs c with
  | none => s
  | some x =>
    let s1 := s.modRun c fun r => { r with remaining := 1000 * (x.budget : Int) + min 0 r.remaining }
    (s1.launches.filter fun l => l.2.ctx == c && l.2.expired).foldl (fun a l =>
      if (a.run c).suspended || !a.budgetOk c l.2.cls then a else a.resumeAll l.1 l.2 none) s1
/-- FRAME_TICK: the context's timer. -/
def execFrameTick (ctx : Nat) (s : State) : Host.Outcome State Fault Refusal :=
  s.event fun s =>
    match tget s.ctxs ctx with
    | none => s
    | some x =>
      if x.tick = 0 ∨ s.gt < (s.run ctx).tickAt + 1000 * x.tick then s
      else (s.frameTick ctx).modRun ctx fun r => { r with tickAt := r.tickAt + 1000 * x.tick }
/-- BUDGET_EXPIRE: every Background team of the context is pre-empted. -/
def execBudgetExpire (ctx : Nat) (s : State) : Host.Outcome State Fault Refusal :=
  s.event fun s =>
    match tget s.ctxs ctx with
    | none => s
    | some x =>
      if x.budget = 0 ∨ 0 < (s.run ctx).remaining then s
      else (s.launches.filter fun l => l.2.ctx == ctx && l.2.cls == .background).foldl
        (fun a l => (a.modLaunch l.1 fun k => { k with expired := k.expired || k.coresident }).requestLaunch l.1 fun _ => true) s

end Sys2Proof.Machine
end

