-- ==== Sys2Proof/Machine/Launch.lean ====
section
/-! DEFINITION. Launches: acceptance and refusal (R125 to R127, R363), die shares, placement pieces and cores (R364,
R366 to R368), the carving of scratchpads (R284), pre-emption for a higher class. -/
namespace Sys2Proof.Machine

/-! ### Descriptors (R124, R125) -/

/-- A launch descriptor beside a kernel object's header and code. -/
structure Desc where
  d : List Byte
  o : List Byte
  obj : Nat
  words : List Word
  deriving DecidableEq, Repr
def Desc.flags (x : Desc) : Nat := rdN x.d 4 4
def Desc.gx (x : Desc) : Nat := rdN x.d 0x10 4
def Desc.gy (x : Desc) : Nat := rdN x.d 0x14 4
def Desc.tx (x : Desc) : Nat := rdN x.d 0x18 2
def Desc.ty (x : Desc) : Nat := rdN x.d 0x1A 2
def Desc.priv (x : Desc) : Nat := rdN x.d 0x1C 4
def Desc.coresident (x : Desc) : Bool := nbit x.flags 1
def Desc.quad (x : Desc) : Bool := nbit x.flags 2
/-- What reading a descriptor and its kernel object answers: a fault has its status and address. -/
inductive DescRes where
  | ok (x : Desc)
  | refuse (status : Nat)
  | fault (status addr : Nat)
  deriving DecidableEq, Repr
/-- Bytes read for a launch: what it answers when they cannot be read. -/
def launchRead (r : (Except (Nat × Nat) (List Byte)) × State) (k : List Byte → State → DescRes × State) : DescRes × State :=
  match r with
  | (.ok b, s) => k b s
  | (.error (st, a), s) => (if resolvable st || st == stMoving then .fault st a else .refuse 0x08, s)
/-- A launch descriptor with its object: identifiers and readability (R363). An object whose header size is not 0x80 is
refused as one with a reserved field set: R126 names no status for it (DESIGN CHOICE, log entry 110). -/
def State.readDesc (s : State) (die ctx addr : Nat) : DescRes × State :=
  launchRead (s.devRead die ctx addr 64) fun d s1 =>
    if rdN d 0 4 ≠ 0x4F4C4401 then (.refuse 0x01, s1)
    else if nfld (rdN d 4 4) 6 26 ≠ 0 ∨ rdN d 0x3C 4 ≠ 0 then (.refuse 0x02, s1)
    else
      let obj := rdN d 8 8
      launchRead (s1.devRead die ctx (vaOf obj) 0x80) fun o s2 =>
        if rdN o 0 4 ≠ 0x4F4C4B01 then (.refuse 0x01, s2)
        else if rdN o 4 4 ≠ 0x80 ∨ (slice o 0x60 32).any (· != 0) then (.refuse 0x02, s2)
        else
          let n := rdN o 0x14 4 / 4
          launchRead (s2.devRead die ctx (vaOf obj + rdN o 0x10 4) (4 * n)) fun c s3 =>
            (.ok ⟨d, o, vaOf obj, (List.range n).map fun i => BitVec.ofNat 32 (rdN c (4 * i) 4)⟩, s3)
/-- The launch that a descriptor describes, before it is placed. -/
def Desc.launch (x : Desc) (ctx : Nat) (cls : Cls) (lossx : Int) (src : Source) : Launch :=
  { ctx := ctx, ident := BitVec.ofNat 64 (rdN x.d 0x30 8), gx := x.gx, gy := x.gy, tx := x.tx, ty := x.ty,
    nospan := nbit x.flags 0, coresident := x.coresident, quad := x.quad,
    extent := if nbit x.flags 3 then some (rdN x.d 0x20 4, rdN x.d 0x24 4) else none,
    cls := cls, priv := x.priv, param := BitVec.ofNat 64 (rdN x.d 0x28 8), nregs := rdN x.o 0x1C 2,
    accs := rdN x.o 0x22 2, localB := rdN x.o 0x24 4, csp := rdN x.o 0x28 4,
    entry := x.obj + rdN x.o 0x10 4 + rdN x.o 0x18 4, code := x.obj + rdN x.o 0x10 4, words := x.words, lossx := lossx,
    desc := 0, nextT := [0, 0, 0, 0], endT := [0, 0, 0, 0], held := [], stopped := false, expired := false, source := src, order := 0 }

/-! ### Shares (R366) -/

/-- The teams of a launch that die `d` places; `only` is the spawning die. -/
def Launch.share (l : Launch) (only : Option Nat) (d : Nat) : Nat × Nat :=
  let t := l.gx * l.gy
  match only with
  | some k => if d = k then (0, t) else (0, 0)
  | none =>
    if l.paired then
      let q := cdiv t 2
      (min t (2 * (d * q / 4)), min t (2 * ((d + 1) * q / 4)))
    else (d * t / 4, (d + 1) * t / 4)
/-- A use taken n times. -/
def Use.times (u : Use) (n : Nat) : Use := ⟨u.regs * n, u.groups * n, u.loc * n, u.accs * n⟩
/-- How many teams of a launch an empty core holds. -/
def Launch.perCore (l : Launch) : Nat := ((List.range 65).filter fun n => (l.use.times n).fits).length - 1
/-- Whether all teams of a CORESIDENT launch can be resident at once on dies that hold nothing else (R19, R251). That
residency is judged against what the dies can hold, and not against what stands on them when the launch is submitted, is
read from R364, which makes room for a launch by pre-emption (DEDUCED, log entry 111). -/
def Launch.coresidable (l : Launch) (only : Option Nat) (slots save : Nat) : Bool :=
  let t := l.gx * l.gy
  decide (t * l.groupsPer ≤ slots) && decide (saveBytes t (t * l.saveEach) ≤ save) &&
  (List.range 4).all fun d => let r := l.share only d; decide (r.2 - r.1 ≤ 160 * l.perCore)

/-! ### Refusals (R363) -/

/-- The status of a refusal of a readable descriptor, if there is one, in the table's order. R126 and R363 name no status
for a P that is no multiple of 4 or above 65,536, nor for a parameter address that is no multiple of 8 (here 0x03), nor for
V = 0, a local size that is no multiple of 4 KiB or a scratchpad size that is no multiple of 512 KiB (here 0x06): DESIGN
CHOICE, log entry 110. Nor do they name one for a V that is no multiple of 8, as olasm makes V (R42, R124): such a V is accepted,
and allocated as it stands (DESIGN CHOICE, log entry 110). The worst save of a team is that of its team record or of the span that holds it alone (R363). -/
def Desc.refusal (x : Desc) (l : Launch) (only : Option Nat) (slot slots save : Nat) : Option Nat :=
  let oTx := rdN x.o 0x1E 2
  let oTy := rdN x.o 0x20 2
  let e := rdN x.o 0x18 4
  let quadBad := l.quad && (l.tx % 2 != 0 || l.ty % 2 != 0)
  if !(inRange l.gx 1 (2 ^ 20) && inRange l.gy 1 (2 ^ 20) && decide (1 ≤ l.tx) && decide (1 ≤ l.ty) && decide (l.items ≤ 1024)) || quadBad ||
      (l.extent.isSome && !l.quad) || ((oTx != 0 || oTy != 0) && (oTx != l.tx || oTy != l.ty)) ||
      l.priv % 4 != 0 || decide (65536 < l.priv) || l.param.toNat % 8 != 0 then some 0x03
  else if rdN x.d 0x38 4 < rdN x.o 0x2C 4 then some 0x04
  else if !(e % 4 == 0 && match x.words[e / 4]? with
      | some w => isHeader w.toNat
      | none => false) then some 0x05
  else if !l.use.fits || l.nregs = 0 || decide (128 < l.nregs) || l.localB % 4096 != 0 || l.csp % 524288 != 0 || decide (14 * 524288 < l.csp) then some 0x06
  else if l.coresident && !l.coresidable only slots save then some 0x07
  else if save < saveBytes 1 l.saveEach then some 0x0A
  else if slot < 4096 + 64 * l.priv ∨ slots = 0 then some 0x0C
  else none

/-- A submission answered: its SPAWN completes with the status, or its node fails when refused. -/
def State.answerSub (s : State) (n : Nat) (x : Submit) (st : Nat) : State :=
  let s1 := { s with work := { s.work with subs := tdel s.work.subs n } }
  match x.op with
  | some o => s1.modOp o fun p =>
      { p with
        st := .ready
        writes := match p.instr with
          | .spawn d _ _ _ _ => [.uni d (BitVec.ofNat 64 st)]
          | _ => [] }
  | none =>
    match x.source with
    | .node c k => if st = 0 then s1 else s1.nodeFail c k st x.addr
    | .spawn _ => s1
/-- The class of a launch: forced, named, or the context's (R355, R364). SPAWN's code 0, inherited, of which R219 and R243 do not
say from what, takes what the descriptor names, and then the context's class (DESIGN CHOICE, log entry 135). -/
def Submit.class (x : Submit) (flags : Nat) (own : Cls) : Cls :=
  if x.background then .background
  else match (if x.cls = 0 then nfld flags 4 2 else x.cls) with
    | 1 => .frame
    | 2 => .normal
    | 3 => .background
    | _ => own
/-- LAUNCH_SUBMIT: the descriptor is read once and the launch accepted, with LOSSX frozen (R91), or refused. -/
def execLaunchSubmit (sub : Nat) (s : State) : Host.Outcome State Fault Refusal :=
  s.event fun s =>
    match tget s.work.subs sub with
    | none => s
    | some x =>
      match tget s.ctxs x.ctx with
      | none => { s with work := { s.work with subs := tdel s.work.subs sub } }
      | some c =>
        let run := s.run x.ctx
        if run.suspended || run.releasing then s.answerSub sub x 0x09
        else if 2 ^ 56 ≤ x.addr then s.answerSub sub x 0x08
        else if s.deviceHeld x.ctx sub then s
        else match s.readDesc (x.die.getD 0) x.ctx x.addr with
          | (.fault st a, s1) => s.deviceFault s1 x.ctx st a sub false fun t => t.answerSub sub x 0x08
          | (.refuse st, s1) => s1.answerSub sub x st
          | (.ok d, s1) =>
            let l := d.launch x.ctx (x.class d.flags c.cls) run.lossx x.source
            match d.refusal l x.die run.privSlot run.privSlots c.saveSize with
            | some st => s1.answerSub sub x st
            | none =>
              let n := s1.fresh
              let sh := (List.range 4).map (l.share x.die)
              let l1 := { l with desc := x.addr, nextT := sh.map (·.1), endT := sh.map (·.2), order := n.1 }
              { n.2 with launches := tput n.2.launches n.1 l1 }.answerSub sub x 0

/-! ### Placement (R33, R364, R367, R368) -/

/-- How many teams the next piece holds: up to 8 of one row; of a paired launch an even number, or a pair that crosses
a row. -/
def Launch.pieceLen (l : Launch) (t0 t1 : Nat) : Nat :=
  let row := l.gx - t0 % l.gx
  let n := min 8 (min (t1 - t0) row)
  if !l.paired || n % 2 == 0 then n
  else if n = 1 then min 2 (t1 - t0) else n - 1
/-- Whether each team of a piece has its resources reserved as the piece is placed: under CORESIDENT (R19), and under
NOSPAN, where a piece is a set of groups (R367). -/
def Launch.reserves (l : Launch) : Bool := l.coresident || l.nospan
/-- The teams of a piece, each with its core. -/
def Launch.pieceTeams (l : Launch) (core t0 n : Nat) : List (Nat × Nat) :=
  (List.range n).map fun i => (if l.paired then core + (t0 + i) % 2 else core, t0 + i)
/-- How many spans a piece of `n` teams from `t0` on puts on its core, and on the other core of its pair: one for all of them,
or of a paired launch one for each. -/
def Launch.pieceSpans (l : Launch) (t0 n : Nat) : Nat × Nat :=
  if l.nospan then (0, 0)
  else if !l.paired then (1, 0)
  else
    let even := ((List.range n).filter fun i => (t0 + i) % 2 == 0).length
    (even, n - even)
/-- Whether a piece of `n` teams from `t0` on can go to a core: a span-table entry for each of its spans (R24), the
resources of its first team, or of all of them where they are reserved, and room in the save area (R368). -/
def State.takes (s : State) (lid : Nat) (l : Launch) (core t0 n : Nat) : Bool :=
  let k := l.pieceSpans t0 n
  let room (c m : Nat) : Bool := m == 0 || decide ((s.spansOn c).length + m ≤ 64)
  room core k.1 && room (core + 1) k.2 &&
  if l.reserves then (s.holdTeams lid l (l.pieceTeams core t0 n)).isSome
  else s.canAlloc l core && s.saveRoom l.ctx 1 l.saveEach && (n < 2 || s.saveRoom l.ctx 2 (l.spanBytes + l.teamBytes))
/-- The fewest teams of a piece: one, or of a paired launch a pair. -/
def Launch.leastPiece (l : Launch) (n : Nat) : Nat := if l.paired then min 2 n else min 1 n
/-- The core that the die's next piece of a launch goes to: of a paired launch, the leader's. -/
def State.coreFor (s : State) (lid : Nat) (l : Launch) (d : Nat) : Option Nat :=
  let t0 := l.nextT.getD d 0
  let n := l.leastPiece (l.pieceLen t0 (l.endT.getD d 0))
  s.freest (((List.range 160).map (160 * d + ·)).filter fun c => !l.paired || c % 2 == 0) fun c => s.takes lid l c t0 n
/-- How many teams the next piece holds on a core that takes it: as many as fit, of a paired launch in pairs. -/
def State.pieceOn (s : State) (lid : Nat) (l : Launch) (d core : Nat) : Nat :=
  let t0 := l.nextT.getD d 0
  let n := l.pieceLen t0 (l.endT.getD d 0)
  ((List.range (n + 1)).filter fun k => decide (l.leastPiece n ≤ k) && (!l.paired || k % 2 == n % 2) && s.takes lid l core t0 k).foldl max
    (l.leastPiece n)
/-- A new span over teams `tx0` to `tx1` of a grid row. -/
def Launch.span (l : Launch) (lid core tx0 tx1 ty now : Nat) (park : Park) : Span :=
  { launch := lid, core := core, box := ⟨tx0, tx1, ty, ty, 0, l.tx - 1, 0, l.ty - 1⟩,
    forms := List.replicate l.nregs (Form.const 0), pforms := List.replicate 15 (.const false), s := l.entryS,
    t := List.replicate 16 0, mode := modeEntry, cc := CC.clear, stack := [], pos := ⟨l.entry, 0⟩, seta := 15, setb := 15,
    len := 0, park := park, cuts := [], sticky := 0, age := now, act := [], maxW := List.replicate 7 0, gone := [],
    inside := false, flags := List.replicate 12 0 }
/-- A span of teams of one row placed; under NOSPAN every team materialises at its first instruction (R40). -/
def State.putSpan (s : State) (l : Launch) (lid core tx0 n ty : Nat) : State :=
  let f := s.fresh
  let x := l.span lid core tx0 (tx0 + n - 1) ty (s.gtOf core) (if l.nospan then .expand else .run)
  let s1 := { f.2 with spans := tput f.2.spans f.1 x }
  if l.nospan then s1.expandAll n f.1 else s1
/-- The next piece of a launch placed on a core. -/
def State.putPiece (s : State) (lid : Nat) (l : Launch) (d core n : Nat) : State :=
  let t0 := l.nextT.getD d 0
  let s0 := if l.reserves then (s.holdTeams lid l (l.pieceTeams core t0 n)).getD s else s
  let s1 := if l.paired then
      (List.range n).foldl (fun a i =>
        let t := t0 + i
        a.putSpan l lid (core + t % 2) (t % l.gx) 1 (t / l.gx)) s0
    else s0.putSpan l lid core (t0 % l.gx) n (t0 / l.gx)
  s1.modLaunch lid fun k => { k with nextT := k.nextT.set d (t0 + n) }
/-- A die scratchpad carved out of a die's L2 (R284): lines beyond the ways that remain are evicted. -/
def State.carve (s : State) (lid d : Nat) : State :=
  let s1 := { s with mem := { s.mem with scratch := tput s.mem.scratch (lid * 4 + d) [] } }
  (s1.mem.ways.filter fun w => w.die == d && w.reserved.isNone).foldl (fun a w =>
    let st := l2Set w.line
    let ord := a.mem.ways.filter fun y => y.die == d && y.reserved.isNone && l2Set y.line == st
    if 16 - a.carved d - a.reservedWays d st.1 < ord.length then
      match argMin (fun y : WayEnt => y.age) ord with
      | some v => a.l2Evict d v.line
      | none => a
    else a) s1
/-- A launch's scratchpad on a die (R284): it stands there, it is carved, or there is no room for it. -/
def State.withScratch (s : State) (lid : Nat) (l : Launch) (d : Nat) : Option State :=
  if l.csp == 0 || (tget s.mem.scratch (lid * 4 + d)).isSome then some s
  else if s.waysShort d (l.csp / 524288) (2 ^ 80 - 1) then none
  else some (s.carve lid d)
/-- All that is left of a launch's share of a die placed, piece after piece; none where it does not fit. -/
def State.placeRest (s : State) (lid d : Nat) : Nat → Option State
  | 0 => some s
  | k + 1 =>
    match tget s.launches lid with
    | none => some s
    | some l =>
      if l.endT.getD d 0 ≤ l.nextT.getD d 0 then some s
      else match s.coreFor lid l d with
        | none => none
        | some core => (s.putPiece lid l d core (s.pieceOn lid l d core)).placeRest lid d k
/-- All of a CORESIDENT launch placed on every die that has a share of it, at once (R19). -/
def State.placeWhole (s : State) (lid : Nat) (l : Launch) : Option State :=
  (List.range 4).foldl (fun a d => match a with
    | none => none
    | some t =>
      if l.endT.getD d 0 ≤ l.nextT.getD d 0 then some t
      else if !t.eligible l d || t.outranked l d then none
      else match t.withScratch lid l d with
        | none => none
        | some u => u.placeRest lid d (l.endT.getD d 0 - l.nextT.getD d 0)) (some s)
/-- Whether a die has room for what a launch places there next: a piece, or under CORESIDENT its whole share. -/
def State.hasRoom (s : State) (lid : Nat) (l : Launch) (d : Nat) : Bool :=
  if l.coresident then (s.placeRest lid d (l.endT.getD d 0 - l.nextT.getD d 0)).isSome else (s.coreFor lid l d).isSome
/-- A victim of pre-emption: rank, order and team-linear index of what it is, a team, or a span with those that go with
it. -/
structure Victim where
  rank : Nat
  order : Nat
  lin : Nat
  team : Option Nat
  span : Nat
  deriving DecidableEq, Repr
/-- The victims on a die for a launch, in the order in which they are taken (R364). -/
def State.victims (s : State) (l : Launch) (d : Nat) : List Victim :=
  let of (lid core : Nat) (f : Launch → Victim) : List Victim :=
    match tget s.launches lid with
    | some k => if k.cls.rank < l.cls.rank ∧ coreDie core = d then [f k] else []
    | none => []
  let ts := s.teams.flatMap fun t => of t.2.launch t.2.core fun k => ⟨k.cls.rank, k.order, t.2.linear k, some t.1, 0⟩
  let xs := s.spans.flatMap fun x => (of x.2.launch x.2.core fun k =>
    let ks := s.kinOf k x.1
    let lin := (spanTeams k ((s.spans.filter fun y => ks.contains y.1).map (·.2))).foldl max 0
    ⟨k.cls.rank, k.order, lin, none, ks.foldl min x.1⟩).filter fun v => v.span == x.1
  sortBy (fun v => 2 ^ 120 * v.rank + 2 ^ 60 * (2 ^ 60 - v.order) + (2 ^ 60 - v.lin)) (ts ++ xs)
/-- The machine as it would stand once a victim has been saved. -/
def State.without (s : State) (v : Victim) : State :=
  match v.team with
  | some t =>
    (match tget s.teams t with
     | some x =>
       let gs := (s.groupsOf t).map (·.2)
       let s1 := s.dropTeam t
       { s1 with saved := tput s1.saved s1.nextId ⟨x.launch, coreDie x.core, some x, gs, none, 0, 0⟩, nextId := s1.nextId + 1 }
     | none => s)
  | none => match tget s.spans v.span with
    | some x => (match tget s.launches x.launch with
      | some l => s.stowSpans x.launch l (s.kinOf l v.span)
      | none => s)
    | none => s
/-- The victims that must go so that what a launch places next fits; teams already asked count as gone. -/
def State.needed (s : State) (lid : Nat) (l : Launch) (d : Nat) : List Victim :=
  let vs := s.victims l d
  let asked (v : Victim) : Bool := match v.team with
    | some t => (match tget s.teams t with
      | some x => x.pre.isSome
      | none => false)
    | none => false
  let h0 := (vs.filter asked).foldl State.without s
  ((vs.filter fun v => !asked v).foldl (fun (acc : List Victim × State) v =>
    if acc.2.hasRoom lid l d then acc else (acc.1 ++ [v], acc.2.without v)) ([], h0)).1
/-- Pre-emption for a launch that cannot be placed (R364). -/
def State.preemptFor (s : State) (lid : Nat) (l : Launch) (d : Nat) : State :=
  (s.needed lid l d).foldl (fun a v => match v.team with
    | some t => a.requestTeam t
    | none => a.saveSpan v.span) s
/-- PLACE_PIECE: a die's distributor places the next piece of a launch, or pre-empts lower classes for it. All teams of a
CORESIDENT launch are placed in one step, on every die that has some, so that no team waits for another (R19). -/
def execPlacePiece (launch die : Nat) (s : State) : Host.Outcome State Fault Refusal :=
  s.event fun s =>
    match tget s.launches launch with
    | none => s
    | some l =>
      if !s.eligible l die || s.outranked l die then s
      else if l.coresident then
        match s.placeWhole launch l with
        | some t => t
        | none => if s.hasRoom launch l die then s else s.preemptFor launch l die
      else match s.withScratch launch l die with
        | none => s
        | some t =>
          match s.coreFor launch l die with
          | none => s.preemptFor launch l die
          | some core => t.putPiece launch l die core (t.pieceOn launch l die core)

end Sys2Proof.Machine
end

