-- ==== Sys2Proof/Machine/Graph.lean ====
section
/-! DEFINITION. Contexts (R349, R350, R388), the fault queue (R352), task graphs (R353 to R359), kicks (R360 to
R362). -/
namespace Sys2Proof.Machine

/-! ### Context commands (R350, R388) -/

/-- The result of checking a descriptor's 512 bytes: 0, or 1 wrong identifier, 2 reserved field set, 3 field out of
range. -/
def ctxCheck (b : List Byte) : Nat :=
  let u (o n : Nat) : Nat := rdN b o n
  let lx := sgn (u 0x15 1) 8
  if u 0 4 ≠ 0x4F4C4301 then 1
  else if u 0x06 2 / 1024 ≠ 0 ∨ u 0x10 4 / 32 ≠ 0 ∨ u 0x16 2 ≠ 0 ∨ u 0x84 4 ≠ 0 ∨ (slice b 0x9C 356).any (· != 0) then 2
  else if nbit (u 0x10 4) 0 && inRange (u 0x14 1) 1 3 && decide (-64 ≤ lx) && decide (lx ≤ 64) && u 0x08 8 % 8192 == 0 &&
      decide (u 0x08 8 < 2 ^ 48) && inRange (u 0x48 4) 6 20 && inRange (u 0x60 4) 6 16 && inRange (u 0x78 4) 10 100000 &&
      inRange (u 0x7C 4) 1 100000 && u 0x30 8 % 256 == 0 && u 0x40 8 % 32 == 0 && u 0x58 8 % 32 == 0 &&
      u 0x70 8 % 8192 == 0 && u 0x88 8 % 65536 == 0 && u 0x90 8 % 4096 == 0 then 0
  else 3
/-- The descriptor's fields as the device holds them. -/
def ctxOf (b : List Byte) : Ctx :=
  let u (o n : Nat) : Nat := rdN b o n
  { asid := u 0x04 2, key := u 0x06 2 % 1024, root := u 0x08 8, place := nbit (u 0x10 4) 1, retain := nbit (u 0x10 4) 2,
    fqmsi := nbit (u 0x10 4) 3, logmsi := nbit (u 0x10 4) 4,
    cls := match u 0x14 1 with
      | 1 => .frame
      | 2 => .normal
      | _ => .background
    budget := u 0x18 4, tick := u 0x1C 4, svec := u 0x20 8, uvec := u 0x28 8, saveBase := u 0x30 8, saveSize := u 0x38 8,
    logBase := u 0x40 8, logLog := u 0x48 4, logOvf := u 0x4C 4, logHead := u 0x50 4, fqBase := u 0x58 8, fqLog := u 0x60 4,
    fqHead := u 0x64 4, kickDrop := u 0x6C 4 }
/-- The registers that an enable loads from the descriptor, over what the context had under way. -/
def runOf (b : List Byte) (old : CtxRun) (budget now : Nat) : CtxRun :=
  let u (o n : Nat) : Nat := rdN b o n
  { old with
    graphTab := u 0x70 8, msiFq := u 0x80 2, msiLog := u 0x82 2, privBase := u 0x88 8, privSlot := u 0x90 8, privSlots := u 0x98 4,
    lossx := sgn (u 0x15 1) 8, pto := u 0x78 4, oto := u 0x7C 4, releasing := false, remaining := 1000 * (budget : Int), tickAt := now }
/-- An enable: the result, and the state with the context enabled or left disabled. Kicks that were discarded before it are
counted in KICKDROP now (log entry 136). -/
def State.enable (s : State) (c : Nat) : Nat × State :=
  if s.mgmt.level = 0 then (4, s)
  else
    let b := (s.physRead (s.descAddr c) 512 0).getD []
    match ctxCheck b with
    | 0 =>
      let k := (s.run c).dropped
      let n := (rdN b 0x6C 4 + k) % 2 ^ 32
      let t : State := { s with
        ctxs := tput s.ctxs c { ctxOf b with kickDrop := n }
        runs := tput s.runs c { runOf b (s.run c) (rdN b 0x18 4) s.gt with dropped := 0 } }
      (0, if k = 0 then t else t.descPut c 0x6C n)
    | r => (r, if (tget s.ctxs c).isSome then s.endContext c else s)
/-- A CTXCMD write (R388): ignored with RESULT 4 while BUSY is set. -/
def State.ctxCommand (s : State) (v : Nat) : State :=
  if s.pkg.cmdBusy then s.modPkg fun p => { p with cmdResult := 4 }
  else if nfld v 16 2 = 0 then s.modPkg fun p => { p with cmdCtx := nfld v 0 14, cmdOp := 0, cmdResult := 0 }
  else s.modPkg fun p => { p with cmdCtx := nfld v 0 14, cmdOp := nfld v 16 2, cmdBusy := true, cmdOut := none }
/-- The command of an event: that which is under way, or one written by the host as the event stands for it. -/
def State.ctxEvent (s : State) (op c : Nat) (f : State → Option Nat × State) : State :=
  let s1 := if s.pkg.cmdBusy && s.pkg.cmdOp == op && s.pkg.cmdCtx == c % 16384 && s.pkg.cmdOut.isNone then s
    else s.ctxCommand (c % 16384 + 65536 * op)
  if s1.pkg.cmdOp = op ∧ s1.pkg.cmdCtx = c % 16384 ∧ s1.pkg.cmdBusy ∧ s1.pkg.cmdOut = none then
    let r := f s1
    r.2.modPkg fun p => { p with cmdOut := r.1 }
  else s1
/-- CTX_ENABLE. -/
def execCtxEnable (ctx : Nat) (s : State) : Host.Outcome State Fault Refusal :=
  s.event fun s => s.ctxEvent 1 ctx fun t => let r := t.enable (ctx % 16384); (some r.1, r.2)
/-- CTX_DISABLE. -/
def execCtxDisable (ctx : Nat) (s : State) : Host.Outcome State Fault Refusal :=
  s.event fun s => s.ctxEvent 2 ctx fun t => (some 0, if (tget t.ctxs (ctx % 16384)).isSome then t.endContext (ctx % 16384) else t)
/-- Whether a context has a launch that has not ended. -/
def State.hasLaunch (s : State) (c : Nat) : Bool := s.launches.any (fun l => l.2.ctx == c) || s.work.subs.any fun x => x.2.ctx == c
/-- CTX_RELEASE: the context accepts no further launch, and ends after its last. -/
def execCtxRelease (ctx : Nat) (s : State) : Host.Outcome State Fault Refusal :=
  s.event fun s => s.ctxEvent 3 ctx fun t =>
    let c := ctx % 16384
    if (tget t.ctxs c).isNone then (some 0, t)
    else if t.hasLaunch c then (none, t.modRun c fun r => { r with releasing := true })
    else (some 0, t.endContext c)
/-- CTXCMD_COMPLETE: the command's result is reported. -/
def execCtxcmdComplete (s : State) : Host.Outcome State Fault Refusal :=
  s.event fun s =>
    match s.pkg.cmdOut with
    | some r => if s.pkg.cmdBusy then s.modPkg fun p => { p with cmdBusy := false, cmdResult := r, cmdOut := none } else s
    | none => s

/-! ### The fault queue (R352) -/

/-- An entry's 32 bytes. -/
def FaultRec.bytes (f : FaultRec) (seq : Nat) : List Byte :=
  let eng := f.kind != 1
  toBytes 1 f.kind ++ toBytes 1 (if f.kind = 2 then 0 else f.status) ++ toBytes 2 (if f.kind = 2 ∨ 4 ≤ f.kind then 0xFFFF else f.core) ++ toBytes 4 seq ++
  toBytes 8 (packF [(if f.kind = 2 ∨ 4 ≤ f.kind then 0 else f.team % 2 ^ 40, 0), (if eng then 0 else f.group, 40),
    (b2n f.read, 44), (b2n f.write, 45), (b2n eng, 63)]) ++
  toBytes 8 f.addr ++ toBytes 8 (if eng then 0 else f.lanes.toNat)
/-- FAULT_QUEUE_WRITE: the entry is written once the queue has room and takes the write. -/
def execFaultQueueWrite (fault : Nat) (s : State) : Host.Outcome State Fault Refusal :=
  s.event fun s =>
    match tget s.work.faults fault with
    | none => s
    | some f =>
      match tget s.ctxs f.ctx with
      | none => s
      | some x =>
        if f.seq ≠ 0 || decide (2 ^ x.fqLog ≤ (x.fqHead + 2 ^ 32 - s.descGet f.ctx 0x68) % 2 ^ 32) then s
        else
          let q := (s.run f.ctx).nextSeq
          let k := if f.kind = 5 then s.drawFree 1 else (0, s)
          let b := if f.kind = 5 then Config.freeByte k.1 :: (f.bytes q).drop 1 else f.bytes q
          match k.2.devWrite 0 f.ctx (x.fqBase + 32 * (x.fqHead % 2 ^ x.fqLog)) b with
          | (.error st, s1) => if st = stPhys then s1.enginePhys f.ctx else s
          | (.ok w, s1) =>
            let n := (x.fqHead + 1) % 2 ^ 32
            let h := (s1.modCtx f.ctx fun y => { y with fqHead := n }).descStore f.ctx 0x64 n
            let s2 := (h.2.setFaults (tmod h.2.work.faults fault fun y => { y with seq := q })).modRun f.ctx fun r => { r with nextSeq := q + 1 }
            if x.fqmsi then s2.msi (max w h.1) (s2.run f.ctx).msiFq else s2
/-- The trap of a delivered PAGEFAULT; bit 10 marks an access that the moving bit held (R372, R488). -/
def FaultRec.trap (f : FaultRec) (held : Bool) : TrapRec :=
  ⟨.pagefault, f.status + 256 * b2n f.read + 512 * b2n f.write + 1024 * b2n held, f.addr, f.lanes, ⟨0, 0⟩, false⟩
/-- The number behind which a draw node's holder stands: such a draw has no operation. -/
def drawNodeBase : Nat := 2 ^ 60
/-- The number that stands for the beginning of a context's replay as the holder of a kind 5 fault; its nodes follow. -/
def replayBase : Nat := 2 ^ 61
/-- A kind 0x03 record (R351). -/
def State.graphRecord (s : State) (c status handle node addr : Nat) : State :=
  s.logRecord c (packF [(0x03, 0), (status, 8), (handle, 16), (node, 32)]) addr 0 s.gt
/-- A device access whose resolvable fault a kick delivers: what needs it fails with status 0x08 (DESIGN CHOICE, log
entry 112). -/
def State.deviceDeliver (s : State) (f : FaultRec) : State :=
  if f.holder = replayBase then
    match (s.run f.ctx).kicks with
    | (h, _) :: rest => (s.modRun f.ctx fun x => { x with kicks := rest }).graphRecord f.ctx 0x08 h 0 f.addr
    | [] => s
  else if replayBase < f.holder then
    s.modNode f.ctx (f.holder - replayBase - 1) fun x => { x with st := .failed, status := 0x08, addr := f.addr }
  else match tget s.work.subs f.holder with
    | some x => s.answerSub f.holder x 0x08
    | none => s.delOp f.holder
/-- A group's PAGEFAULT delivered. One met as the group's handler was fetched has no handler to go to: the context ends with its
record (R376; log entry 100). -/
def State.deliverFault (s : State) (f : FaultRec) : State :=
  match s.gi f.holder .nop with
  | none => s
  | some e =>
    if e.g.ctl.trap.isSome then (e.eventRecord s .pagefault e.g.ctl.pos 0).endContext e.ctx else s.owe f.holder (f.trap false)
/-- One waiting fault replayed or delivered (R377, R488, R232, R426); a kind 2 entry is not acted on. -/
def State.resolveFault (s : State) (n : Nat) (f : FaultRec) (deliver : Bool) : State :=
  let s1 := s.setFaults (tdel s.work.faults n)
  match f.kind, f.moving with
  | 1, false =>
    let s2 := s1.modCtl f.holder fun c => { c with desched := none }
    if deliver then s2.deliverFault f else s2
  | 1, true =>
    (match tget s1.work.ops f.holder with
     | none => s1
     | some o =>
       if deliver then (s1.retireOp f.holder).owe o.gid (f.trap true)
       else s1.modOp f.holder fun x => { x with st := .moving none })
  | 3, _ => s1.copyResolve f.holder deliver
  | 4, true =>
    if !deliver then s1
    else if drawNodeBase ≤ f.holder then s1.nodeFail f.ctx (f.holder - drawNodeBase) 0x0F f.addr
    else s1.modOp f.holder fun x => { x with st := .ready, misc := [2] }
  | 4, false =>
    if deliver then s1.abandonQueued (f.holder / 4) (f.holder % 4) else s1
  | 5, _ => if deliver then s1.deviceDeliver f else s1
  | _, _ => s

/-! ### Kicks (R360 to R362) -/

/-- A kick discarded and counted (R360): where the context is not enabled, as at service level 0 (R445), the device keeps the
count until KICKDROP, a field of the context's descriptor, is its own to write (DEDUCED, log entry 136). -/
def State.kickDrop (s : State) (c : Nat) : State :=
  match tget s.ctxs c with
  | none => s.modRun c fun r => { r with dropped := (r.dropped + 1) % 2 ^ 32 }
  | some x =>
    let n := (x.kickDrop + 1) % 2 ^ 32
    (s.modCtx c fun y => { y with kickDrop := n }).descPut c 0x6C n
/-- A kick's effect where the module gives service (R445). -/
def State.kicked (s : State) (c : Nat) (f : State → State) : State :=
  if (tget s.ctxs c).isNone ∨ s.mgmt.level = 0 then s.kickDrop c else f s
def State.kickReplay (s : State) (c handle arg : Nat) : State :=
  s.kicked c fun t =>
    if 64 ≤ (t.run c).kicks.length then t.kickDrop c
    else t.modRun c fun r => { r with kicks := r.kicks ++ [(handle, arg)] }
def State.kickResolve (s : State) (c : Nat) (deliver : Bool) (q : Nat) : State :=
  s.kicked c fun t =>
    (t.work.faults.filter fun f => f.2.ctx == c && f.2.seq != 0 && decide (f.2.seq ≤ q)).foldl (fun a f => a.resolveFault f.1 f.2 deliver) t
def State.kickTick (s : State) (c : Nat) : State := s.kicked c fun t => t.frameTick c
def State.kickSuspend (s : State) (c : Nat) : State :=
  s.kicked c fun t =>
    let t1 := t.modRun c fun r => { r with suspended := true }
    (t1.launches.filter fun l => l.2.ctx == c).foldl (fun a l => a.requestLaunch l.1 fun _ => true) t1
def State.kickResume (s : State) (c : Nat) : State := s.kicked c fun t => t.modRun c fun r => { r with suspended := false }
/-- Whether a kick's word breaks R360. -/
def kickBad (v : Nat) : Bool :=
  match nfld v 61 3 with
  | 0 => nbit v 50
  | 1 => nfld v 51 10 != 0
  | 2 => nfld v 0 61 != 0
  | 3 => nfld v 0 61 != 0
  | 4 => nfld v 0 61 != 0
  | _ => true
/-- A write of a context's kick register. -/
def State.kickWrite (s : State) (c v : Nat) : State :=
  if kickBad v then s.kickDrop c
  else match nfld v 61 3 with
    | 0 => s.kickReplay c (nfld v 51 10) (nfld v 0 50)
    | 1 => s.kickResolve c (nbit v 50) (nfld v 0 50)
    | 2 => s.kickTick c
    | 3 => s.kickSuspend c
    | _ => s.kickResume c
def execKickReplay (ctx handle arg : Nat) (s : State) : Host.Outcome State Fault Refusal := s.event fun s => s.kickReplay ctx handle arg
def execKickResolve (ctx : Nat) (deliver : Bool) (seq : Nat) (s : State) : Host.Outcome State Fault Refusal :=
  s.event fun s => s.kickResolve ctx deliver seq
def execKickFrameTick (ctx : Nat) (s : State) : Host.Outcome State Fault Refusal := s.event fun s => s.kickTick ctx
def execKickSuspend (ctx : Nat) (s : State) : Host.Outcome State Fault Refusal := s.event fun s => s.kickSuspend ctx
def execKickResume (ctx : Nat) (s : State) : Host.Outcome State Fault Refusal := s.event fun s => s.kickResume ctx
/-- KICK_DISCARD: a kick that breaks R360, or that comes at service level 0. -/
def execKickDiscard (ctx word : Nat) (s : State) : Host.Outcome State Fault Refusal :=
  s.event fun s => if kickBad word || s.mgmt.level == 0 then s.kickDrop ctx else s

/-! ### Graph objects (R353 to R359) -/

/-- What beginning a replay answers: `stop` a status and an address. -/
inductive Begin where
  | go (r : Replay) (s : State)
  | stop (status addr : Nat) (s : State)
  /-- a fault that is not final: its status, its address, whether a write met it -/
  | fault (status addr : Nat) (write : Bool) (s : State)
  deriving DecidableEq, Repr
/-- Bytes of a context's memory read for a replay. -/
def graphRead (r : (Except (Nat × Nat) (List Byte)) × State) (k : List Byte → State → Begin) : Begin :=
  match r with
  | (.ok b, s) => k b s
  | (.error (st, a), s) => if resolvable st || st == stMoving then .fault st a false s else .stop 0x08 a s
/-- The offset of a header field that makes an object malformed, if one does. -/
def headerBad (h : List Byte) : Option Nat :=
  if rdN h 0 4 ≠ 0x4F4C4701 then some 0
  else if !inRange (rdN h 4 4) 1 65536 then some 4
  else if 262144 < rdN h 8 4 then some 8
  else if 256 < rdN h 0x0C 4 then some 0x0C
  else if rdN h 0x10 8 % 64 ≠ 0 then some 0x10
  else if rdN h 0x18 8 % 8 ≠ 0 then some 0x18
  else if rdN h 0x20 8 % 16 ≠ 0 then some 0x20
  else if rdN h 0x28 8 % 8 ≠ 0 then some 0x28
  else if nfld (rdN h 0x30 4) 16 15 ≠ 0 then some 0x30
  else if rdN h 0x34 4 ≠ 0 ∨ rdN h 0x38 8 ≠ 0 then some 0x34
  else none
/-- Whether a node's 64 bytes are malformed. -/
def nodeBad (b : List Byte) : Bool :=
  let k := rdN b 0 1
  let x := rdN b 8 8
  let y := rdN b 0x10 8
  let z := rdN b 0x18 8
  decide (5 < k) || decide (4 ≤ rdN b 1 1) || rdN b 4 4 != 0 || (slice b 0x20 32).any (· != 0) ||
  (decide (k ≤ 3) && x % 64 != 0) || (k == 2 && (!inRange y 1 64 || z / 4 != 0)) || (k == 3 && (y / 8 != 0 || z / 4 != 0)) ||
  (decide (4 ≤ k) && x % 8 != 0)
def nodeOf (b : List Byte) : Node :=
  { kind := rdN b 0 1, tick := nbit (rdN b 1 1) 0, msi := if nbit (rdN b 1 1) 1 then some (rdN b 2 2) else none,
    x := rdN b 8 8, y := rdN b 0x10 8, z := rdN b 0x18 8, st := .idle, status := 0, addr := 0, at_ := 0, desc := [] }
/-- Pieces of n bytes each of a list of bytes. -/
def chunks (b : List Byte) (n count : Nat) : List (List Byte) := (List.range count).map fun i => slice b (n * i) n
/-- A device write of at most 64 bytes, cut where it crosses a page: the greatest W, or the fault. -/
def State.patchWrite (s : State) (c va : Nat) (b : List Byte) : (Except (Nat × Nat) Nat) × State :=
  let n := min b.length (65536 - va % 65536)
  match s.devWrite 0 c va (b.take n) with
  | (.error st, s1) => (.error (st, va), s1)
  | (.ok w, s1) =>
    if b.length ≤ n then (.ok w, s1)
    else match s1.devWrite 0 c (va + n) (b.drop n) with
      | (.error st, s2) => (.error (st, va + n), s2)
      | (.ok v, s2) => (.ok (max w v), s2)
/-- The patches applied in ascending order (R357): target, width, offset. -/
def applyPatches (c tab : Nat) (k : Nat → State → Begin) : List (Nat × Nat × Nat) → Nat → State → Begin
  | [], w, s => k w s
  | (t, n, o) :: r, w, s =>
    graphRead (s.devRead 0 c (vaOf (tab + o)) n) fun b s1 =>
      match s1.patchWrite c (vaOf t) b with
      | (.ok v, s2) => applyPatches c tab k r (max w v) s2
      | (.error (st, a), s2) => if resolvable st || st == stMoving then .fault st a true s2 else .stop 0x08 a s2
/-- A graph object read and checked, and its patches applied. -/
def State.beginReplay (s : State) (c handle arg : Nat) : Begin :=
  let ent := (s.run c).graphTab + 8 * handle
  graphRead (s.devRead 0 c ent 8) fun e s0 =>
    let obj := vaOf (ofBytes e)
    if ofBytes e % 256 ≠ 0 ∨ ofBytes e = 0 then .stop 0x0D ent s0
    else graphRead (s0.devRead 0 c obj 64) fun h s1 =>
      match headerBad h with
      | some o => .stop 0x0D (obj + o) s1
      | none =>
        let n := rdN h 4 4
        let m := rdN h 8 4
        let p := rdN h 0x0C 4
        let an := vaOf (obj + rdN h 0x10 8)
        let ae := vaOf (obj + rdN h 0x18 8)
        let ap := vaOf (obj + rdN h 0x20 8)
        graphRead (s1.devRead 0 c an (64 * n)) fun bn s2 =>
          graphRead (if m = 0 then (.ok [], s2) else s2.devRead 0 c ae (8 * m)) fun be s3 =>
            graphRead (if p = 0 then (.ok [], s3) else s3.devRead 0 c ap (16 * p)) fun bp s4 =>
              let ns := chunks bn 64 n
              let es := (chunks be 8 m).map fun x => (rdN x 0 4, rdN x 4 4)
              let ps := (chunks bp 16 p).map fun x => (rdN x 0 8, rdN x 8 4, rdN x 12 4)
              match ns.findIdx? nodeBad, es.findIdx? (fun x => !(decide (x.1 < x.2) && decide (x.2 < n))),
                  ps.findIdx? (fun x => !inRange x.2.1 1 64) with
              | some i, _, _ => .stop 0x0D (an + 64 * i) s4
              | none, some i, _ => .stop 0x0D (ae + 8 * i) s4
              | none, none, some i => .stop 0x0D (ap + 16 * i) s4
              | none, none, none =>
                let go (w : Nat) (t : State) : Begin :=
                  .go { handle := handle, nodes := ns.map nodeOf, edges := es, signal := rdN h 0x28 8,
                        msi := if nbit (rdN h 0x30 4) 31 then some (rdN h 0x30 2) else none, stopped := false, startW := w } t
                if arg = 0 then go 0 s4 else applyPatches c (arg * 64) go ps 0 s4
/-- REPLAY_BEGIN: the oldest queued replay begins when none runs. -/
def execReplayBegin (ctx : Nat) (s : State) : Host.Outcome State Fault Refusal :=
  s.event fun s =>
    match tget s.ctxs ctx, (s.run ctx).replay, (s.run ctx).kicks with
    | some _, none, (h, a) :: rest =>
      if s.deviceHeld ctx replayBase then s
      else (match s.beginReplay ctx h a with
       | .fault st ad w s1 => s.deviceFault s1 ctx st ad replayBase w id
       | .go r s1 => s1.modRun ctx fun x => { x with kicks := rest, replay := some r }
       | .stop st ad s1 => (s1.modRun ctx fun x => { x with kicks := rest }).graphRecord ctx st h 0 ad)
    | _, _, _ => s

/-! ### Nodes (R355, R356) -/

/-- The nodes whose completion a node awaits. -/
def Replay.preds (r : Replay) (n : Nat) : List Node :=
  (r.edges.filter fun e => e.2 == n).filterMap fun e => r.nodes[e.1]?
/-- Whether a node may start: it is idle and all its predecessors have completed. -/
def Replay.ready (r : Replay) (n : Nat) : Bool :=
  (match r.nodes[n]? with
   | some x => x.st == .idle
   | none => false) && (r.preds n).all fun x => x.st == .complete
/-- The node that starts now, of a given kind: the least of those that are ready together (R356), once the patches'
writes are visible (R357). -/
def State.starts (s : State) (c n kind : Nat) : Option Node :=
  match (s.run c).replay with
  | none => none
  | some r =>
    if r.stopped || !(r.startW == 0 || decide (r.startW + 2 < s.gt)) || !r.ready n || (List.range n).any r.ready then none
    else match r.nodes[n]? with
      | some x => if x.kind = kind then some x else none
      | none => none
def Holder.isL2 : Holder → Bool
  | .l2 _ => true
  | _ => false
/-- An acquire on every path, for whatever runs behind it in the package: copies granted up to now go, but for those of the L2s,
which no acquire drops (R240, R355). -/
def State.acquireAll (s : State) : State := { s with mem := { s.mem with copies := s.mem.copies.filter fun c => c.holder.isL2 } }
def State.runNode (s : State) (c n : Nat) (at_ : Nat) : State := s.modNode c n fun x => { x with st := .run, at_ := at_ }
/-- A launch node's submission. -/
def State.submitNode (s : State) (c n kind : Nat) (bg : Bool) : State :=
  match s.starts c n kind with
  | none => s
  | some x =>
    let f := (s.runNode c n 0).fresh
    let sub : Submit := { ctx := c, addr := vaOf x.x, background := bg, cls := 0, source := .node c n, die := none, op := none }
    { f.2 with work := { f.2.work with subs := tput f.2.work.subs f.1 sub } }
def execNodeLaunch (ctx node : Nat) (s : State) : Host.Outcome State Fault Refusal := s.event fun s => s.submitNode ctx node 0 false
def execNodeBackgroundLaunch (ctx node : Nat) (s : State) : Host.Outcome State Fault Refusal := s.event fun s => s.submitNode ctx node 1 true
/-- A request that has not been read. -/
def CopyReq.blank : CopyReq := ⟨0, 0, 0, 0, 0, 0, 0, 0, 0, 0, 0, 0, 0, 0, true⟩
def execNodeCopy (ctx node : Nat) (s : State) : Host.Outcome State Fault Refusal :=
  s.event fun s =>
    match s.starts ctx node 2 with
    | none => s
    | some x =>
      (List.range x.y).foldl (fun a i =>
        a.addCopyReq (Copy.queued (nodeEngine (x.z % 4)) 0 0 (some (ctx, node)) CopyReq.blank (vaOf (x.x + 64 * i)) a.gt)) (s.runNode ctx node 0)
/-- The faults of a draw node, before it is queued: they wait, end the context, or fail the node (R358, R421). -/
def State.nodeDrawFault (s s1 : State) (ctx node st a addr : Nat) : State :=
  s.drawQueueFault s1 (drawNodeBase + node) ctx st a (fun t => t.enginePhys ctx) fun t => t.nodeFail ctx node 0x0F addr
/-- NODE_DRAW: the descriptor is read as the node starts (R420), checked as DRAW's is, and queued when the rasteriser has
room. -/
def execNodeDraw (ctx node : Nat) (s : State) : Host.Outcome State Fault Refusal :=
  s.event fun s =>
    let held := s.work.faults.any fun f => f.2.kind == 4 && f.2.moving && f.2.ctx == ctx && f.2.holder == drawNodeBase + node
    if held then s
    else match s.starts ctx node 3 with
      | some x =>
        (match s.devRead (x.z % 4) ctx (vaOf x.x) 64 with
         | (.ok b, s1) => (s1.runNode ctx node 0).modNode ctx node fun y => { y with desc := b }
         | (.error e, s1) => s.nodeDrawFault s1 ctx node e.1 e.2 (vaOf x.x))
      | none => match ((s.run ctx).replay.bind fun r => r.nodes[node]?) with
        | none => s
        | some x =>
          if x.kind ≠ 3 ∨ x.st ≠ .run ∨ x.desc = [] then s
          else
            let die := x.z % 4
            let id := s.fresh
            match id.2.checkDraw die (drawOf x.desc ctx (vaOf x.x) 0 id.1 (some node) none false) with
            | (.malformed, s1) => s1.nodeFail ctx node 0x0F (vaOf x.x)
            | (.fault st a, s1) => s.nodeDrawFault s1 ctx node st a (vaOf x.x)
            | (.good d, s1) =>
              match s1.queueDraw die (x.y % 4) (nbit x.y 2) d with
              | none => s
              | some s2 => s2.modNode ctx node fun y => { y with desc := [] }
/-- NODE_SIGNAL: the add is made once every write of the predecessors is visible, which makes it a release (R223). -/
def execNodeSignal (ctx node : Nat) (s : State) : Host.Outcome State Fault Refusal :=
  s.event fun s =>
    match s.starts ctx node 4, (s.run ctx).replay with
    | some x, some r =>
      if s.deviceHeld ctx (replayBase + 1 + node) || (r.preds node).any fun p => decide (s.gt ≤ p.at_ + 2) then s
      else match s.devAdd 0 ctx (vaOf x.x) x.y with
        | (.ok _, s1) =>
          let s2 := (s1.runNode ctx node 0).nodeDone ctx node
          if x.tick then s2.frameTick ctx else s2
        | (.error st, s1) =>
          s.deviceFault s1 ctx st (vaOf x.x) (replayBase + 1 + node) true fun t =>
            if st = stPhys then t.enginePhys ctx else t.nodeFail ctx node 0x08 (vaOf x.x)
    | _, _ => s
def execNodeWait (ctx node : Nat) (s : State) : Host.Outcome State Fault Refusal :=
  s.event fun s => match s.starts ctx node 5 with
    | none => s
    | some _ => s.runNode ctx node s.gt
/-- WAIT_NODE_POLL: a running wait node reads its word when its next read is due; the read that succeeds is an acquire on every
path (R355). -/
def execWaitNodePoll (ctx node : Nat) (s : State) : Host.Outcome State Fault Refusal :=
  s.event fun s =>
    match (s.run ctx).replay with
    | none => s
    | some r =>
      match r.nodes[node]? with
      | none => s
      | some x =>
        if x.kind ≠ 5 ∨ x.st ≠ .run ∨ s.gt < x.at_ ∨ s.deviceHeld ctx (replayBase + 1 + node) then s
        else match s.devRead 0 ctx (vaOf x.x) 8 with
          | (.ok b, s1) => if x.y ≤ ofBytes b then s1.acquireAll.nodeDone ctx node else s1.runNode ctx node (s.gt + 256)
          | (.error (st, a), s1) =>
            if st = stMoving then s.runNode ctx node (s.gt + 256)
            else s.deviceFault s1 ctx st a (replayBase + 1 + node) false fun t =>
              if st = stPhys then t.enginePhys ctx else t.nodeFail ctx node 0x08 (vaOf x.x)
/-- A replay that has stopped leaves once nothing of it runs. -/
def State.replayLeaves (s : State) (c : Nat) : State :=
  match (s.run c).replay with
  | some r =>
    if r.stopped && r.nodes.all (fun x => x.st == .idle || x.st == .complete) then s.modRun c fun x => { x with replay := none } else s
  | none => s
/-- A node's own message, behind the writes that it reports (R355, R414). -/
def State.nodeMsi (s : State) (x : Node) : State :=
  match x.msi with
  | some v => s.msi x.at_ v
  | none => s
/-- NODE_COMPLETE: a node's completion lets its successors start, and the last one completes the replay, whose signal
releases every write of it (R361); a failure stops the replay with a record (R358). -/
def execNodeComplete (ctx node : Nat) (s : State) : Host.Outcome State Fault Refusal :=
  s.event fun s =>
    match (s.run ctx).replay with
    | none => s
    | some r =>
      match r.nodes[node]? with
      | none => s
      | some x =>
        let behind (t : State) : State := t.modNode ctx node fun y => { y with st := .complete }
        match x.st with
        | .failed =>
          if s.work.copies.any fun c => c.2.node == some (ctx, node) then s
          else
            let s1 := if r.stopped then s else s.graphRecord ctx x.status r.handle node x.addr
            ((behind s1).modRun ctx fun y => { y with replay := y.replay.map fun p => { p with stopped := true } }).replayLeaves ctx
        | .done =>
          if x.kind = 4 ∧ s.gt < x.at_ then s
          else if r.stopped then ((behind s).nodeMsi x).replayLeaves ctx
          else if !(r.nodes.zipIdx.all fun (y : Node × Nat) => y.2 == node || y.1.st == .complete) then (behind s).nodeMsi x
          else if s.deviceHeld ctx (replayBase + 1 + node) || r.nodes.any fun y => decide (s.gt ≤ y.at_ + 2) then s
          else
            let leave (t : State) : State := ((behind t).nodeMsi x).modRun ctx fun y => { y with replay := none }
            let msi (w : Nat) (t : State) : State := match r.msi with
              | some v => t.msi w v
              | none => t
            if r.signal = 0 then msi 0 (leave s)
            else match s.devAdd 0 ctx (vaOf r.signal) 1 with
              | (.ok w, s1) => msi w (leave s1)
              | (.error st, s1) =>
                s.deviceFault s1 ctx st (vaOf r.signal) (replayBase + 1 + node) true fun t =>
                  if st = stPhys then t.enginePhys ctx else (leave t).graphRecord ctx 0x08 r.handle node (vaOf r.signal)
        | _ => s

end Sys2Proof.Machine
end

