-- ==== Sys2Proof/Machine/WarmReset.lean ====
section
/-! DEFINITION. Flits and links that fail (R385, R386), and the warm reset of a die (R407 to R409). -/
namespace Sys2Proof.Machine

/-! ### Links -/

/-- A die whose compute links are both down cannot be reached on any route from any other compute die: its STATE becomes 6,
and it departs (R386, R403). That a die which some dies still reach keeps its STATE, while requests from the others get
error replies, is the model's reading (DEDUCED, log entry 114). -/
def State.reachCheck (s : State) (d : Nat) : State :=
  let x := s.die d
  if d < 4 ∧ x.state = 0 ∧ x.linksUp.getD 0 false = false ∧ x.linksUp.getD 1 false = false then
    (s.modDie d fun y => { y with state := 6 }).barchanDepart d
  else s
/-- A link goes down at both ends. -/
def State.linkDown (s : State) (a b : Nat) : State := ((s.setLink a b false).reachCheck a).reachCheck b
/-- A flit's send has failed: it and every flit after it are sent again, and after 16 failures in a row the link goes
down. -/
def State.resend (s : State) (n : Nat) (l : Link) : State :=
  if 15 ≤ l.fails then s.linkDown l.src l.dst
  else
    let d := if l.src < 4 then l.src else l.dst
    let o := if l.src < 4 then l.dst else l.src
    (s.modLink n fun x => { x with fails := x.fails + 1, sentAt := s.gt }).modDie d fun x =>
      { x with retry := lmod x.retry (linkBit d o) fun r => min 65535 (r + l.buffer.length) }
/-- A new flit of a link goes into its retry buffer. What flits carry is not modelled: their bytes are free values. -/
def State.sendFlit (s : State) (n : Nat) : State :=
  let f := s.drawFree 256
  f.2.modLink n fun x =>
    { x with
      buffer := x.buffer ++ [(x.nextSeq, (List.range 256).map fun i => Config.freeByte (f.1 + i))]
      nextSeq := x.nextSeq + 1
      sentAt := if x.buffer.isEmpty then s.gt else x.sentAt }
/-- LINK_FLIT_RECEIVE: the oldest flit of a link's buffer, or a new one, arrives; one that passes its CRC is accepted in
order and acknowledged. Behind one that fails its CRC the sender has sent a further one, and both are sent again
(R385). -/
def execLinkFlitReceive (link : Nat) (crcOk : Bool) (s : State) : Host.Outcome State Fault Refusal :=
  s.event fun s =>
    match s.links[link]? with
    | none => s
    | some l =>
      if !l.up then s
      else
        let s1 := if l.buffer.isEmpty then s.sendFlit link else s
        if crcOk then
          s1.modLink link fun x => { x with buffer := x.buffer.tail, expect := x.expect + 1, fails := 0, sentAt := s.gt }
        else
          let s2 := s1.sendFlit link
          match s2.links[link]? with
          | some x => s2.resend link x
          | none => s2
/-- LINK_RETRY_TIMEOUT: no acknowledgement within 1 µs. -/
def execLinkRetryTimeout (link : Nat) (s : State) : Host.Outcome State Fault Refusal :=
  s.event fun s =>
    match s.links[link]? with
    | none => s
    | some l => if l.up && !l.buffer.isEmpty && decide (l.sentAt + 1000 ≤ s.gt) then s.resend link l else s

/-! ### Warm reset of a die (R407, R408) -/

/-- A launch stopped by a reset: its teams and spans on every die go without a save, and its node fails with 0x0B. -/
def State.stopLaunch (s : State) (lid : Nat) : State :=
  match tget s.launches lid with
  | none => s
  | some l =>
    let s1 := (s.teams.filter fun t => t.2.launch == lid).foldl (fun a t => a.dropTeam t.1) s
    let s2 := { s1 with
      spans := s1.spans.filter fun x => x.2.launch != lid
      saved := s1.saved.filter fun x => x.2.launch != lid
      launches := tdel s1.launches lid
      mem := { s1.mem with scratch := s1.mem.scratch.filter fun x => x.1 / 4 != lid }
      work := { s1.work with ops := s1.work.ops.filter fun o => (tget s1.spans o.2.gid).all fun x => x.launch != lid } }
    match l.source with
    | .node c n => s2.nodeFail c n 0x0B l.desc
    | .spawn _ => s2
/-- Whether a warm reset of a die may start: no retirement is copying and every other die is up (R407). -/
def State.resetFree (s : State) (d : Nat) : Bool :=
  s.retire.isNone && (List.range 4).all fun k => k == d || (s.die k).state == 0
/-- Step 1, or step 3 for a die that cannot be reached. Launches with a die scratchpad on the die are stopped, and every
other team and span on it is pre-empted. Where the die cannot be reached, R407 leaves steps 1 and 2 out and does not say what
becomes of those: since they run to completion (R19), their save is forced at once, and step 3 waits for it (DESIGN CHOICE,
log entry 113). -/
def State.warmStart (s : State) (d : Nat) : State :=
  let off := (s.die d).state == 6
  let s1 := s.modDie d fun x => { x with state := if off then 2 else 1, pending := false, quiesced := if off then s.gtAt d else x.quiesced }
  let s2 := if off then s1 else s1.barchanDepart d
  let s3 := ((s.launches.map (·.1)).filter fun l => (tget s.mem.scratch (l * 4 + d)).isSome).foldl State.stopLaunch s2
  let s4 := (s3.launches.map (·.1)).foldl (fun a l => a.requestLaunch l fun c => coreDie c == d) s3
  let force (t : Nat × Team) : Nat × Team :=
    if off && coreDie t.2.core == d then (t.1, { t.2 with pre := t.2.pre.map fun p => { p with forced := true } }) else t
  let s5 := { s4 with teams := s4.teams.map force }
  s5.modDie d fun x => { x with dropped := (x.dropped + x.mbx.length) % 2 ^ 32, mbx := [] }
/-- A write of DIECMD.WRESET (R407). -/
def State.warmRequest (s : State) (d : Nat) : State :=
  if 4 ≤ d ∨ ((s.die d).state ≠ 0 ∧ (s.die d).state ≠ 6) then s
  else if s.resetFree d then s.warmStart d
  else s.modDie d fun x => { x with pending := true }
def execWarmResetRequest (die : Nat) (s : State) : Host.Outcome State Fault Refusal := s.event fun s => s.warmRequest die
/-- WARM_RESET_START: a held request starts. -/
def execWarmResetStart (die : Nat) (s : State) : Host.Outcome State Fault Refusal :=
  s.event fun s => if (s.die die).pending && s.resetFree die then s.warmStart die else s
/-- A die's caches written back and cleared (R408 step 3): every dirty line goes to its unit under its key slot, but for
those of a slot that is discarding (R452). -/
def State.flushDie (s : State) (d : Nat) : State :=
  let mine (ln : Nat) : Bool := s.homeDie ln == d
  let put (a : State) (ln key : Nat) (data : List Byte) (tags : List Nat) (poison : List Bool) : State :=
    match (if a.keyed key then a.unitOf ln else none) with
    | some u => a.unitWrite u key data tags poison
    | none => a
  let s1 := (s.mem.unitq.filter fun q => q.2.write && mine q.2.line).foldl (fun a q => put a q.2.line q.2.key q.2.data q.2.tags q.2.poison) s
  let s2 := (s.mem.home.filter fun h => (h.2.dirty || h.2.mdirty) && mine h.1).foldl (fun a h => put a h.1 h.2.key h.2.data h.2.tags h.2.poison) s1
  let onDie (c : CopyLine) : Bool := match c.holder with
    | .l1 core => coreDie core == d
    | .l2 k => k == d
    | .copyBuf e => if e < 640 then coreDie e == d else e - 640 == d
    | .tex k => k / 20 == d
    | .peer k => k / 20 == d
    | .hash k => k / 20 == d
  { s2 with mem := { s2.mem with
      unitq := s2.mem.unitq.filter fun q => !mine q.2.line
      home := s2.mem.home.filter fun h => !mine h.1
      lines := s2.mem.lines.filter fun l => !mine l.1
      lsTab := s2.mem.lsTab.filter fun l => l.1 / 65536 / 64 != d
      copies := s2.mem.copies.filter fun c => !onDie c
      ways := s2.mem.ways.filter fun w => w.die != d && w.die != 4 + d
      tlb := s2.mem.tlb.filter fun t => clusterDie (behindTlb t.cluster) != d
      walks := s2.mem.walks.filter fun t => t.die != d
      louvre := s2.mem.louvre.filter fun l => l.1 / 64 != d
      grids := s2.mem.grids.filter fun g => g.cluster / 20 != d } }
/-- The neighbours of a compute die. -/
def neighbours (d : Nat) : List Nat := [d ^^^ 1, d ^^^ 2, borderOf d]
/-- Whether every team and span on a die has been saved or removed, and every draw has run to its end (R408, R426). -/
def State.dieIdle (s : State) (d : Nat) : Bool :=
  !(s.teams.any fun t => coreDie t.2.core == d) && !(s.spans.any fun x => coreDie x.2.core == d) &&
  (s.die d).rasters.all fun r => r.queue.isEmpty && r.run.isNone
/-- Whether requests of a die, or writes pending at its homes, are outstanding. -/
def State.dieWaits (s : State) (d : Nat) : Bool :=
  (s.work.reqs.any fun r => r.2.die == d && r.2.open_) ||
  (s.mem.lines.any fun l => !l.2.pend.isEmpty && s.homeDie l.1 == d) ||
  s.work.copies.any fun c => c.2.engine == nodeEngine d && !c.2.flying.isEmpty
/-- WARM_RESET_QUIESCE: step 2 once the die is idle; then, once its outstanding requests have completed, step 3 and the
reset of step 4, in which its links are down. -/
def execWarmResetQuiesce (die : Nat) (s : State) : Host.Outcome State Fault Refusal :=
  s.event fun s =>
    match (s.die die).state with
    | 1 => if s.dieIdle die then s.modDie die fun x => { x with state := 2, quiesced := s.gtAt die } else s
    | 2 =>
      if s.dieWaits die || !s.dieIdle die then s
      else (neighbours die).foldl (fun a n => a.linkDown die n) ((s.flushDie die).modDie die fun x => { x with state := 3 })
    | _ => s
/-- WARM_RESET_RETRAIN: step 5, and its end, when the links are up again and the die's GT is set from a neighbour's, but to no
earlier time than it has shown (R297, R408 step 6). -/
def execWarmResetRetrain (die : Nat) (s : State) : Host.Outcome State Fault Refusal :=
  s.event fun s =>
    match (s.die die).state with
    | 3 => s.modDie die fun x => { x with state := 4 }
    | 4 =>
      let lead := max (s.skew.getD die 0) (s.skew.getD (die ^^^ 1) 0)
      (neighbours die).foldl (fun a n => a.setLink die n true) ({ s with skew := s.skew.set die lead }.modDie die fun x => { x with state := 5 })
    | _ => s
/-- WARM_RESET_ADMIT: no copy leased by the old summaries is valid any more; homes reopen, and work resumes. -/
def execWarmResetAdmit (die : Nat) (s : State) : Host.Outcome State Fault Refusal :=
  s.event fun s =>
    if (s.die die).state = 5 ∧ (s.die die).quiesced + s.pkg.leaseRo + 2 < s.gtAt die then s.modDie die fun x => { x with state := 0 } else s

end Sys2Proof.Machine
end

