-- ==== Sys2Proof/Machine/Mgmt.lean ====
section
/-! DEFINITION. Power-on, cold and warm starts (R442 to R445), firmware images (R446, R447), management commands and
attestation (R448 to R450), health monitors and throttling (R454, R455). -/
namespace Sys2Proof.Machine

/-! ### Starts (R442, R443) -/

/-- The machine as a cold start finds it: everything at reset but the flash, the fuses, memory outside the module, and
what the model keeps for itself. -/
def State.coldStart (s : State) (busy : Bool) : State :=
  { State.reset with
    skew := s.skew, agenda := s.agenda, delays := s.delays, drift := s.drift, freeN := s.freeN, nextId := s.nextId
    mgmt := { Mgmt.reset with flash := s.mgmt.flash, fusedSvn := s.mgmt.fusedSvn, busy := busy, cmd := if busy then s.mgmt.cmd else 0 }
    mem := { Mem.reset with host := s.mem.host, peers := s.mem.peers }
    work := { Work.reset with msi := s.work.msi } }
/-- POWER_ON: power returns, and a cold start begins. -/
def execPowerOn (s : State) : Host.Outcome State Fault Refusal :=
  .next (if s.power then s else s.coldStart false)
/-- A pending store performed without waiting for its W: memory keeps it, and no reader is left who could tell. -/
def State.settleStore (s : State) (ln : Nat) (p : PendW) : State :=
  match tget s.work.reqs p.req with
  | none => s.unpend ln p.req
  | some r =>
    if !s.keyed r.key ∨ s.spaceOf r.pa ≠ some .global then s.unpend ln p.req
    else
      let s1 := if (s.homeLine ln).isNone then s.placeHome ln (s.lineNow ln r.key) r.ctx (some r.va) r.hint else s
      match r.kind with
      | .tagSet t => (s1.unpend ln p.req).setTag r.pa t
      | _ => s1.performPend ln p.req
/-- Every store that has arrived at its home performed, line by line in order of arrival. -/
def State.settleAll (s : State) : State :=
  s.mem.lines.foldl (fun a l => l.2.pend.foldl (fun b p => b.settleStore l.1 p) a) s
/-- The end-of-draw signals that draws of ended contexts owe, each made at once (R426). -/
def State.settleSignals (s : State) : State :=
  s.work.ops.foldl (fun a o => match o.2.gid, o.2.instr, o.2.misc with
    | 0, .draw _ _ _ _, [pa, key] => ((a.devStore pa key (toBytes 8 (ofBytes (a.physFuture pa 8 key) + 1))).2).delOp o.1
    | _, _, _ => a) s
/-- Steps 1 to 4 of a warm start: contexts end, what has arrived at the homes is performed, with the signals that ended draws
owe, dirty lines are written back, and every register but those that R443 keeps returns to its reset value. -/
def State.warmStartModule (s : State) : State :=
  let s0 := (s.ctxs.map (·.1)).foldl (fun a c => a.endContext c) s
  let s1 := s0.settleAll.settleSignals.settleAll
  let s2 := [0, 1, 2, 3].foldl (fun a d => a.flushDie d) s1
  { State.reset with
    gt := s2.gt, skew := s2.skew, agenda := s2.agenda, delays := s2.delays, drift := s2.drift, freeN := s2.freeN, nextId := s2.nextId
    pkg := { Pkg.reset with
      capacity := s2.pkg.capacity, retStatus := s2.pkg.retStatus, retStack := s2.pkg.retStack, retLeft := s2.pkg.retLeft,
      retired := s2.pkg.retired }
    regions := s2.regions.map fun g => { g with sa := List.replicate 12 0, sb := List.replicate 12 0, applying := none }
    retire := s2.retire
    keys := s2.keys
    mgmt := { s2.mgmt with
      starting := some ⟨true, 0⟩, level := 0, warm := true, step := 0, busy := true, result := 0, length := 0, buf := 0, out := none }
    mem := { Mem.reset with units := s2.mem.units, umeta := s2.mem.umeta, bad := s2.mem.bad, host := s2.mem.host, peers := s2.mem.peers }
    work := { Work.reset with msi := s2.work.msi } }

/-! ### Firmware images (R446, R447) -/

/-- The body's length that an image's header gives. -/
def imgBody (m : Memory) : Nat := ofBytes (m.read 8 4)
def imgSvnOf (m : Memory) : Nat := ofBytes (m.read 4 4)
/-- Whether the boot ROM runs an image. -/
def imgGood (m : Memory) (svn : Nat) : Bool :=
  ofBytes (m.read 0 4) == 0x4F4C4601 && imgBody m % 4096 == 0 && decide (imgBody m ≤ 16 * 2 ^ 20) && ofBytes (m.read 0xC 4) == 0 &&
  Config.verifies (m.read 0 0x1263) && sha3 (m.read 0x1400 (imgBody m)) == m.read 0x10 64 && decide (svn ≤ imgSvnOf m)
/-- Whether the start under way is the command under way: commands 4 and 5. A command of another kind may have been accepted since
a power-on start began to run the firmware. -/
def Mgmt.startCmd (m : Mgmt) : Bool := m.busy && (m.cmd % 16 == 4 || m.cmd % 16 == 5)
/-- Step 2: the first image that qualifies runs; without one the module stays at level 0. -/
def State.bootImage (s : State) : State :=
  let flash (k : Nat) : Memory := s.mgmt.flash.getD k []
  match [0, 1].find? fun k => imgGood (flash k) s.mgmt.fusedSvn with
  | some k => s.modMgmt fun m =>
      { m with
        img := k, step := 2, starting := some ⟨false, 2⟩, imgSvn := imgSvnOf (flash k)
        imgDigest := sha3 ((flash k).read 0 (0x1400 + imgBody (flash k))) }
  | none => s.modMgmt fun m => { m with starting := none, busy := m.busy && !m.startCmd }
/-- A start ends, with a result: the report of the command that it is, or of a power-on start that fails. -/
def State.startEnds (s : State) (res : Nat) : State :=
  s.modMgmt fun m =>
    if m.startCmd then { m with starting := none, busy := false, result := res, length := 0 }
    else { m with starting := none, result := if res = 0 then m.result else res }
/-- Slot 0's new key (R442 step 6). -/
def State.keyZero (s : State) : State := { s with keys := tput s.keys 0 ⟨1, s.keyGen 0 + 1⟩ }
/-- The next step of a cold start completes. -/
def State.coldStep (s : State) (n : Nat) : State :=
  let at_ (t : State) (lvl : Nat) : State := t.modMgmt fun m => { m with step := n + 1, level := lvl, starting := some ⟨false, n + 1⟩ }
  match n with
  | 0 => at_ (s.modMgmt fun m => { m with serial := Config.serial % 2 ^ 64 }) 0
  | 1 => s.bootImage
  | 5 => at_ s.keyZero 1
  | 6 => at_ s 2
  | 7 => (at_ s 3).startEnds 0
  | _ => at_ s s.mgmt.level
/-- The next step of a warm start completes: the far tier is back, or the near tier, with full service at once. -/
def State.warmStep (s : State) (n : Nat) : State :=
  match n with
  | 0 => s.modMgmt fun m => { m with level := 1, starting := some ⟨true, 1⟩ }
  | _ => (s.modMgmt fun m => { m with level := 3 }).startEnds 0
/-- START_STEP_COMPLETE: the step under way completes, or fails, which ends the start at the level reached: with RESULT
4 after the MSC self-test, and 5 after training. R445 has R450 report the slice that failed the self-test, and no field of R450
has room for it: RESULT 4 is all that the model reports (DESIGN CHOICE, log entry 137). -/
def execStartStepComplete (ok : Bool) (s : State) : Host.Outcome State Fault Refusal :=
  s.event fun s =>
    match s.mgmt.starting with
    | none => s
    | some x =>
      if !ok then s.startEnds (if !x.warm && x.step == 7 then 4 else 5)
      else if x.warm then s.warmStep x.step else s.coldStep x.step

/-! ### Management commands (R450) -/

/-- Whether firmware runs, so that commands 1 to 4 are carried out: since step 2 of the cold start, and through every warm start
behind it, which does not load it again. -/
def Mgmt.running (m : Mgmt) : Bool := decide (0 < m.level) || decide (2 ≤ m.step) || m.warm
/-- Where the commands' buffer lies: 0 the management controller's, else a physical address; none when it cannot be
reached, as where the home of a line of it gives no service (R386, R408). -/
def State.mgmtBuf (s : State) : Option Nat :=
  let b := s.mgmt.buf
  if b = 0 then some 0
  else if s.mgmt.level = 0 ∨ s.spaceOf b ≠ some .global ∨ s.spaceOf (b + 8191) ≠ some .global ∨ !(inRegion b 5) ∨ !s.keyed 0 ∨
      (List.range 64).any (fun i => !s.homeUp (b / 128 + i)) then none
  else some b
def State.bufRead (s : State) (b o n : Nat) : List Byte :=
  if b = 0 then s.mgmt.buffer.read o n else (s.physRead (b + o) n 0).getD []
def State.bufWrite (s : State) (b o : Nat) (d : List Byte) : State :=
  if b = 0 then s.modMgmt fun m => { m with buffer := m.buffer.write o d } else (s.devStore (b + o) 0 d).2
/-- A command's own fields: CMD, and SLOT and CHUNK of command 6 (R450). -/
def mgmtFields (v : Nat) : Nat := if v % 16 = 6 then 6 + 16 * nfld v 4 1 + 65536 * nfld v 16 16 else v % 16
/-- A write of MGMTCMD: ignored with RESULT 2 while BUSY is set; commands 4 and 5 start at once, but with RESULT 3 at level 0 where
MGMTBUF names a buffer (R450). -/
def State.mgmtCommand (s : State) (v : Nat) : State :=
  let c := nfld v 0 4
  if s.mgmt.busy then s.modMgmt fun m => { m with result := 2 }
  else if c = 0 ∨ 6 < c ∨ (c < 5 ∧ !s.mgmt.running) ∨ (c = 6 ∧ 4098 ≤ nfld v 16 16) then s.modMgmt fun m => { m with result := 1, length := 0 }
  else if 4 ≤ c ∧ c < 6 ∧ s.mgmt.level = 0 ∧ s.mgmt.buf ≠ 0 then s.modMgmt fun m => { m with result := 3, length := 0 }
  else if c = 4 then (s.modMgmt fun m => { m with cmd := v }).warmStartModule
  else if c = 5 then (s.modMgmt fun m => { m with cmd := v }).coldStart true
  else s.modMgmt fun m => { m with busy := true, cmd := mgmtFields v, out := none }
/-- The command of an event: that which is under way, or one that the host writes as the event stands for it. -/
def State.mgmtEvent (s : State) (v : Nat) (f : State → Nat → (Nat × Nat) × State) : State :=
  let s1 := if s.mgmt.busy && s.mgmt.out.isNone && s.mgmt.cmd == v then s else s.mgmtCommand v
  if s1.mgmt.busy && s1.mgmt.out.isNone && s1.mgmt.cmd == v then
    match s1.mgmtBuf with
    | none => s1.modMgmt fun m => { m with out := some (3, 0) }
    | some b =>
      let r := f s1 b
      r.2.modMgmt fun m => { m with out := some r.1 }
  else s1
/-- The report's bytes before its signature (R449). -/
def State.report (s : State) (nonce : List Byte) : List Byte :=
  toBytes 4 0x4F4C4101 ++ toBytes 4 4835 ++ nonce ++ s.mgmt.imgDigest ++ (List.range 64).map Config.romByte ++ toBytes 4 s.mgmt.fusedSvn ++
  toBytes 4 s.svclevel ++ toBytes 8 s.pkg.capacity ++ toBytes 8 s.retirestat ++ toBytes 8 s.gt ++ toBytes 8 s.mgmt.serial
/-- MGMT_ATTEST: the signature is a free value. -/
def execMgmtAttest (s : State) : Host.Outcome State Fault Refusal :=
  s.event fun s => s.mgmtEvent 1 fun t b =>
    let f := t.drawFree 4627
    let sig := (List.range 4627).map fun i => Config.freeByte (f.1 + i)
    ((0, 4835), f.2.bufWrite b 0x100 (t.report (t.bufRead b 0 32) ++ sig))
/-- MGMT_READ_CERT: the chain, as much of it as the buffer holds. -/
def execMgmtReadCert (s : State) : Host.Outcome State Fault Refusal :=
  s.event fun s => s.mgmtEvent 2 fun t b =>
    let n := min Config.certLen 8192
    ((0, n), t.bufWrite b 0 ((List.range n).map Config.certByte))
/-- MGMT_RAISE_SVN. -/
def execMgmtRaiseSvn (s : State) : Host.Outcome State Fault Refusal :=
  s.event fun s => s.mgmtEvent 3 fun t _ => ((0, 0), t.modMgmt fun m => { m with fusedSvn := max m.fusedSvn m.imgSvn })
/-- MGMT_WARM_START: what command 4 does. -/
def execMgmtWarmStart (s : State) : Host.Outcome State Fault Refusal := s.event fun s => s.mgmtCommand 4
/-- MGMT_COLD_START: what command 5 does. -/
def execMgmtColdStart (s : State) : Host.Outcome State Fault Refusal := s.event fun s => s.mgmtCommand 5
/-- MGMT_WRITE_FLASH. -/
def execMgmtWriteFlash (slot chunk : Nat) (s : State) : Host.Outcome State Fault Refusal :=
  s.event fun s => s.mgmtEvent (6 + 16 * (slot % 2) + 65536 * (chunk % 65536)) fun t b =>
    ((0, 0), t.modMgmt fun m => { m with flash := lmod m.flash (slot % 2) fun x => x.write (4096 * (chunk % 65536)) (t.bufRead b 0 4096) })
/-- MGMT_COMMAND_COMPLETE: RESULT and LENGTH are reported. -/
def execMgmtCommandComplete (s : State) : Host.Outcome State Fault Refusal :=
  s.event fun s =>
    match s.mgmt.out with
    | some (r, n) => if s.mgmt.busy then s.modMgmt fun m => { m with busy := false, result := r, length := n, out := none } else s
    | none => s

/-! ### Health monitors (R454, R455) -/

/-- Sensors after a sample. -/
def sampled (l : List Sensor) (vals : List Nat) (w : Nat) : List Sensor :=
  l.zipIdx.map fun (z : Sensor × Nat) => match vals[z.2]? with
    | some v => ⟨v % 2 ^ w, true⟩
    | none => z.1
/-- The clock that a sample sets. -/
def nextClk (d : Die) (level : Nat) (hot : Int) (low : Nat) : Nat :=
  let cap := if level ≤ 1 then 1200 else 1900
  let warn : Int := (nfld d.throtctl 0 8 : Nat)
  let crit : Int := (nfld d.throtctl 8 8 : Nat)
  if 16 * crit ≤ hot ∨ low < nfld d.throtctl 16 16 then 400
  else if 16 * warn ≤ hot then max (d.clk - 100) 400
  else min (d.clk + 100) cap
/-- The greatest of the valid temperatures, and the least of the valid voltages, of a die. -/
def hottest (l : List Sensor) : Int := (l.filter (·.valid)).foldl (fun m x => max m (sgn x.val 16)) (-32768)
def lowest (l : List Sensor) : Nat := (l.filter (·.valid)).foldl (fun m x => min m x.val) 65535
/-- THROTSTAT's causes: the warning and the critical temperature reached, the voltage below its limit, the service level
(R454). -/
def throttleCause (d : Die) (level : Nat) : Nat :=
  packB [decide (16 * (nfld d.throtctl 0 8 : Int) ≤ hottest d.temp), decide (16 * (nfld d.throtctl 8 8 : Int) ≤ hottest d.temp),
    decide (lowest d.volt < nfld d.throtctl 16 16), decide (level ≤ 1)]
/-- MONITOR_SAMPLE: a die samples its sensors and sets its clock; at 125 °C power is removed with no save. -/
def execMonitorSample (die : Nat) (temps volts rings : List Nat) (s : State) : Host.Outcome State Fault Refusal :=
  s.event fun s =>
    let d0 := s.die die
    let d := { d0 with temp := sampled d0.temp temps 16, volt := sampled d0.volt volts 16, ring := sampled d0.ring rings 20 }
    let hot := hottest d.temp
    let low := lowest d.volt
    if 125 * 16 ≤ hot then { s with power := false }
    else
      let clk := nextClk d s.mgmt.level hot low
      s.modDie die fun _ =>
        { d with clk := clk, cause := throttleCause d s.mgmt.level, events := if clk < d.clk then min (d.events + 1) (2 ^ 32 - 1) else d.events }

end Sys2Proof.Machine
end

