-- ==== Sys2Proof/Machine/CaravanMove.lean ====
section
/-! DEFINITION. The Caravan engines (R233, R336 to R338): CLAIM's pages, moves, counting epochs, forwarded counts. -/
namespace Sys2Proof.Machine

def State.caravan (s : State) (e : Nat) : Caravan := s.caravans.getD e Caravan.reset
def State.modCaravan (s : State) (e : Nat) (f : Caravan → Caravan) : State := { s with caravans := lmod s.caravans e f }
/-- The key slot that a line carries: in its home, in a write-back, or in its unit. -/
def State.lineKey (s : State) (ln : Nat) : Nat :=
  match s.homeLine ln, s.queuedWrite ln, (s.unitOf ln).bind s.unitMeta with
  | some h, _, _ => h.key
  | none, some q, _ => q.key
  | none, none, some m => m.slot
  | none, none, none => 0
/-- Eight bytes of a page table or ring as they stand, through the slot that their line carries. -/
def State.entryAt (s : State) (pa : Nat) : Nat := s.physNum pa 8 (s.lineKey (pa / 128))
/-- The entries of the run that a leaf stands in (R318): software writes them alike, and so does the engine. -/
def runOf_ (e pa : Nat) : List Nat :=
  let n := match nfld e 48 2 with
    | 1 => 32
    | 2 => 16
    | _ => 1
  (List.range n).map fun i => pa / (8 * n) * (8 * n) + 8 * i
/-- A leaf stored in every entry of its run: the greatest W. -/
def State.putLeaf (s : State) (old pa leaf : Nat) : Nat × State :=
  (runOf_ old pa).foldl (fun (acc : Nat × State) a =>
    let r := acc.2.devStore a (acc.2.lineKey (a / 128)) (toBytes 8 leaf)
    (max acc.1 r.1, r.2)) (0, s)
/-- A leaf with another frame. -/
def withFrame (leaf frame : Nat) : Nat := leaf - 65536 * nfld leaf 16 32 + 65536 * nfld frame 16 32
/-- The die region that a physical address lies in, as a die number. -/
def dieRegion (pa : Nat) : Option Nat :=
  match regionOf pa with
  | some (r, _) => if 1 ≤ r ∧ r ≤ 4 then some (r - 1) else none
  | none => none

/-! ### CLAIM (R233) -/

/-- What one address of a claimed range asks for. -/
inductive ClaimPage where
  | ask (va leafPa : Nat)
  /-- it lies on the die already, or has no leaf -/
  | none_
  | outside
  | moving
  deriving DecidableEq, Repr
def State.claimPage (s : State) (ctx die va : Nat) : ClaimPage :=
  match tget s.ctxs ctx with
  | none => .none_
  | some c =>
    match (s.walkFrom 4 die c.asid c.root va c.key (some farFuture)).1 with
    | .leaf e pa _ =>
      let f := leafAddr e (va / leafSpan e * leafSpan e)
      (match dieRegion f with
       | some d => if d = die then .none_ else .ask (va / leafSpan e * leafSpan e) pa
       | none => .outside)
    | .moving _ _ => .moving
    | _ => .none_
/-- CLAIM's work begins: its pages are handed to the die's engine; its status if there is nothing to wait for. `misc` of
the operation holds, once it has begun, the pages moved and whether pages were skipped. -/
def State.claimBegin (s : State) (o : Nat) (op : Op) (ctx : Nat) : Option Nat × State :=
  let a := (op.svals.getD 0 0).toNat
  let b := (op.svals.getD 1 0).toNat
  let die := coreDie op.core
  let allowed := match tget s.ctxs ctx with
    | some c => c.place
    | none => false
  if a % 65536 ≠ 0 ∨ b % 65536 ≠ 0 then (some 3, s)
  else if !allowed then (some 2, s)
  else
    let ps := (List.range (b / 65536)).map fun i => s.claimPage ctx die (vaOf (a + 65536 * i))
    if ps.contains .moving then (none, s)
    else
      let asks := (uniq ps).filterMap fun p => match p with
        | .ask va pa => some (⟨ctx, va, pa, some o⟩ : MoveAsk)
        | _ => none
      let skipped := ps.contains .outside
      let s1 := (s.modOp o fun x => { x with misc := [0, b2n skipped] }).modCaravan die fun e => { e with asks := e.asks ++ asks }
      (none, s1)
/-- Whether a CLAIM's pages have all been dealt with. -/
def State.claimOver (s : State) (o : Nat) : Bool :=
  s.caravans.all fun e => (e.asks.all fun a => a.claim != some o) && match e.move with
    | some m => m.claim != some o
    | none => true
/-- CLAIM's result. -/
def claimWord (op : Op) : Nat := op.misc.getD 1 0 + 2 ^ 32 * op.misc.getD 0 0

/-! ### Moves (R337) -/

/-- Bytes of a page of a size code. -/
def sizeBytes (z : Nat) : Nat :=
  match z with
  | 0 => 0x10000
  | 1 => 0x200000
  | _ => 0x40000000
/-- The address of a ring's entry. -/
def ringAddr (base idx log : Nat) : Nat := base + 8 * (idx % 2 ^ log)
/-- Where a frame must lie: the claiming engine's own die region; for a promotion the die that the leaf names, or the
package region. -/
def poolOk (e leaf : Nat) (claim : Bool) (frame : Nat) : Bool :=
  if claim || decide (e < 4) then dieRegion frame == some e
  else if nbit leaf 13 then dieRegion frame == some (nfld leaf 11 2)
  else inRegion frame 0
/-- The place in the free ring of the oldest entry that a page may take. -/
def State.freeEntry (s : State) (e : Nat) (leaf : Nat) (claim : Bool) : Option (Nat × Nat) :=
  let c := s.caravan e
  let n := (c.freeTail + 2 ^ 16 - c.freeHead % 2 ^ c.ringLog) % 2 ^ c.ringLog
  let at_ (i : Nat) : Nat := s.entryAt (ringAddr c.freeBase (c.freeHead + i) c.ringLog)
  (findN n fun i => nfld (at_ i) 0 2 == nfld leaf 48 2 && poolOk e leaf claim (65536 * (at_ i / 65536))).map fun i => (i, 65536 * (at_ i / 65536))
/-- An entry taken: older entries of other sizes move up by one place. -/
def State.takeFree (s : State) (e i : Nat) : State :=
  let c := s.caravan e
  let a (k : Nat) : Nat := ringAddr c.freeBase (c.freeHead + k) c.ringLog
  let s1 := (List.range i).foldl (fun t j =>
    let k := i - j
    (t.devStore (a k) (t.lineKey (a k / 128)) (toBytes 8 (s.entryAt (a (k - 1))))).2) s
  s1.modCaravan e fun x => { x with freeHead := (x.freeHead + 1) % 2 ^ x.ringLog }
/-- Whether an engine works: its die gives service. -/
def State.caravanUp (s : State) (e : Nat) : Bool := 4 ≤ e || decide ((s.die e).state ≤ 1)
/-- Whether an ask still stands: the leaf is valid, not moving, and, for CLAIM, in another die region, or, for a
promotion, a 64 KiB leaf that tier engines may move in the far tier. -/
def askOk (e leaf : Nat) (claim : Bool) : Bool :=
  let f := 65536 * nfld leaf 16 32
  nbit leaf 0 && nbit leaf 1 && !nbit leaf 8 &&
  (if claim then (match dieRegion f with
     | some d => d != e
     | none => false)
   else nfld leaf 48 2 == 0 && decide (nfld leaf 9 2 ≤ 1) && inRegion f 5)
/-- A move begins. -/
def State.moveBegin (s : State) (e : Nat) (a : MoveAsk) (leaf i frame : Nat) : State :=
  let s1 := s.takeFree e i
  let w := s1.putLeaf leaf a.leafPa (setBit leaf 8 true)
  w.2.modCaravan e fun x =>
    { x with
      asks := x.asks.tail, waiting := false
      move := some ⟨a.ctx, a.va, a.leafPa, leaf, frame, sizeBytes (nfld leaf 48 2), a.claim, 0, w.1, 0⟩ }
/-- CARAVAN_MOVE_START: the next page gets a frame, and its leaf's moving bit is set; without a frame the engine writes
an event to the context's fault queue and waits for FREETAIL. -/
def execCaravanMoveStart (engine : Nat) (s : State) : Host.Outcome State Fault Refusal :=
  s.event fun s =>
    let c := s.caravan engine
    match c.move, c.asks with
    | none, a :: rest =>
      if !s.caravanUp engine then s
      else
        let leaf := s.entryAt a.leafPa
        if nbit leaf 0 && nbit leaf 1 && nbit leaf 8 then s
        else if !askOk engine leaf a.claim.isSome then s.modCaravan engine fun x => { x with asks := rest, waiting := false }
        else match s.freeEntry engine leaf a.claim.isSome with
          | some (i, f) => s.moveBegin engine a leaf i f
          | none =>
            if c.waiting then s
            else
              let s1 := s.modCaravan engine fun x => { x with waiting := true }
              if (tget s.ctxs a.ctx).isNone then s1
              else
                let k := s1.fresh
                k.2.setFaults (tput k.2.work.faults k.1
                  { ctx := a.ctx, kind := 2, status := 0, core := 0xFFFF, team := 0, group := 0, write := false, read := false,
                    addr := a.va, lanes := 0, seq := 0, holder := engine, moving := false })
    | _, _ => s
/-- Whether an access translated through the old leaf is still on its way. -/
def State.frameBusy (s : State) (frame size : Nat) : Bool :=
  (s.work.reqs.any fun r => r.2.space == .global && r.2.open_ && decide (frame ≤ r.2.pa) && decide (r.2.pa < frame + size)) ||
  s.mem.lines.any fun l => !l.2.pend.isEmpty && decide (frame ≤ 128 * l.1) && decide (128 * l.1 < frame + size)
/-- One line copied by an engine's die with its tags and poison; it keeps its key slot. Its W, and the state; none while it must
wait. Through a slot that is not keyed neither home gives the line or takes it, and nothing is copied: no later read through
that slot may return what the line held (R453; DEDUCED, log entry 138). -/
def State.copyLine (s : State) (die src dst : Nat) : Option (Nat × State) :=
  if s.reachFor die (128 * src) ≠ .ok ∨ s.reachFor die (128 * dst) ≠ .ok ∨ s.unitStalls src ∨ s.unitStalls dst ∨ s.mem.unitq.any (fun q => q.2.line == src || q.2.line == dst) then none
  else
    let key := s.lineKey src
    if !s.keyed key then some (s.gtAt die, s)
    else match s.bring src key noCtx none .normal with
    | none => none
    | some s1 =>
      let h := s1.lineNow src key
      let w := s1.nextW dst
      let s2 := s1.placeHome dst { h with data := s1.seeLine src key, dirty := true, ls := 0 } noCtx none .normal
      some (w, { s2 with mem := { s2.mem with lines := tput s2.mem.lines dst { s2.lineCtl dst with wprev := w } } })
/-- A move that meets an address that does not exist (R328, R348): the context that claimed the page ends, with a record; the
leaf stands again as it was, and the engine leaves the page (DESIGN CHOICE, log entry 138). -/
def State.movePhys (s : State) (e : Nat) (m : Move) : State :=
  ((s.putLeaf m.oldLeaf m.leafPa m.oldLeaf).2.modCaravan e fun x => { x with move := none }).enginePhys m.ctx
/-- CARAVAN_PAGE_COPY: once no translation or access of the old leaf is left, the page's lines are copied in ascending
order, one an event. -/
def execCaravanPageCopy (engine : Nat) (s : State) : Host.Outcome State Fault Refusal :=
  s.event fun s =>
    match (s.caravan engine).move with
    | none => s
    | some m =>
      let old := leafAddr m.oldLeaf m.va
      let base := 65536 * nfld m.oldLeaf 16 32
      if !s.caravanUp engine then s
      else if m.phase = 0 then
        if s.gt ≤ m.w + 2 || s.frameBusy (old / m.size * m.size) m.size then s
        else s.modCaravan engine fun x => { x with move := some { m with phase := 1, next := 0 } }
      else if m.phase = 1 ∧ 128 * m.next < m.size then
        if s.spaceOf (base + 128 * m.next) = none ∨ s.spaceOf (m.frame + 128 * m.next) = none then s.movePhys engine m
        else match s.copyLine engine (base / 128 + m.next) (m.frame / 128 + m.next) with
        | none => s
        | some (w, s1) => s1.modCaravan engine fun x => { x with move := some { m with next := m.next + 1, w := max m.w w } }
      else s
/-- CARAVAN_MOVE_END: the leaf takes the new frame with MV clear; when that is visible, the old frame goes to the
returned ring. -/
def execCaravanMoveEnd (engine : Nat) (s : State) : Host.Outcome State Fault Refusal :=
  s.event fun s =>
    let c := s.caravan engine
    match c.move with
    | none => s
    | some m =>
      if s.gt ≤ m.w + 2 ∨ !s.caravanUp engine then s
      else if m.phase = 1 ∧ m.size ≤ 128 * m.next then
        let w := s.putLeaf m.oldLeaf m.leafPa (withFrame m.oldLeaf m.frame)
        w.2.modCaravan engine fun x => { x with move := some { m with phase := 2, w := w.1 } }
      else if m.phase = 2 then
        if (c.retTail + 1) % 2 ^ c.ringLog = c.retHead % 2 ^ c.ringLog then s
        else
          let a := ringAddr c.retBase c.retTail c.ringLog
          let s1 := (s.devStore a (s.lineKey (a / 128)) (toBytes 8 (65536 * nfld m.oldLeaf 16 32 + nfld m.oldLeaf 48 2))).2
          let s2 := s1.modCaravan engine fun x =>
            { x with retTail := (x.retTail + 1) % 2 ^ x.ringLog, moves := (x.moves + 1) % 2 ^ 32, move := none }
          match m.claim with
          | some o => s2.modOp o fun x => { x with misc := lmod x.misc 0 (· + 1) }
          | none => s2
      else s
/-- A write of FREETAIL: a move that waits for a frame looks again. -/
def State.freetail (s : State) (e v : Nat) : State := s.modCaravan e fun x => { x with freeTail := v % 2 ^ 32, waiting := false }
def execCaravanFreetailWrite (engine value : Nat) (s : State) : Host.Outcome State Fault Refusal := s.event fun s => s.freetail engine value

/-! ### Counting (R338) -/

/-- The frames of the far tier. -/
def State.farFrames (s : State) : Nat := (s.region 5).depth * 8
/-- One frame at the end of an epoch: a page that reached the threshold is to move, and its count is halved. -/
def State.epochFrame (s : State) (e f : Nat) : State :=
  let c := s.caravan e
  let pa := c.ctrBase + 16 * (f / 2)
  let n := ofBytes (s.physFuture (pa + 8) 2 0)
  if n = 0 then s
  else
    let p := s.physNum pa 8 0
    let s1 := if c.promote ≠ 0 ∧ c.promote ≤ n ∧ p ≠ 0 ∧ askOk e (s.entryAt p) false ∧ !(c.asks.any fun a => a.leafPa == p) then
        s.modCaravan e fun x => { x with asks := x.asks ++ [⟨2 ^ 14, 0, p, none⟩] }
      else s
    (s1.devStore (pa + 8) 0 (toBytes 2 (n / 2))).2
/-- CARAVAN_EPOCH_END: a far-tier engine promotes what reached PROMOTE and halves every COUNT. What CTRBASE = 0, its value
at reset, means R338 does not say: here no table stands there, and the engine counts and promotes nothing (DESIGN CHOICE, log
entry 115). -/
def execCaravanEpochEnd (engine : Nat) (s : State) : Host.Outcome State Fault Refusal :=
  s.event fun s =>
    let c := s.caravan engine
    if engine ≠ 4 ∧ engine ≠ 5 ∨ s.gt < c.epochAt + 1000 * c.epoch then s
    else
      let s1 := s.modCaravan engine fun x => { x with epochAt := s.gt }
      if c.ctrBase = 0 then s1
      else (List.range (s.farFrames / 2)).foldl (fun a i => a.epochFrame engine (2 * i + (engine - 4))) s1
/-- PAGE_COUNT_FORWARD: an engine's die hands a count to the engine that holds the frame. -/
def execPageCountForward (engine : Nat) (s : State) : Host.Outcome State Fault Refusal :=
  s.event fun s =>
    match (s.caravan engine).fwd with
    | [] => s
    | f :: r => (s.modCaravan engine fun x => { x with fwd := r }).countFrame f

end Sys2Proof.Machine
end

