-- ==== Sys2Proof/Machine/Window.lean ====
section
/-! DEFINITION. Writes of the register window (R6, R7, R336, R387 to R389, R411, R417, R444, R450, R451, R454), host
accesses to device memory (R412), and the peer ports (R416, R417). -/
namespace Sys2Proof.Machine

/-! ### Registers by block -/

/-- A write of the package control block. -/
def State.writePkg (s : State) (o v : Nat) : State :=
  match o with
  | 0x000 => s.modPkg fun p => { p with ctxbase := 2 ^ 23 * (v % 2 ^ 48 / 2 ^ 23) }
  | 0x008 => s.ctxCommand v
  | 0x018 => s.modPkg fun p => { p with trctx := v % 2 ^ 14 }
  | 0x020 => s.modPkg fun p => { p with trlid := v }
  | 0x100 => s.mgmtCommand v
  | 0x110 => s.modMgmt fun m => { m with buf := 4096 * (v % 2 ^ 48 / 4096) }
  | 0x140 => s.keyCommand v
  | _ => s
/-- A write of a Caravan engine's block; `touch` says which of the 8 bytes are written. Fields that only far-tier
engines have ignore writes elsewhere. R336 gives RINGLOG and EPOCH their ranges, and FREEBASE and RETBASE their alignment, but
not what a write outside of them does: RINGLOG and EPOCH keep their values, and of a base the low 12 bits are dropped (DESIGN
CHOICE, log entry 116). -/
def State.writeCaravan (s : State) (e o v : Nat) (touch : Nat → Bool) : State :=
  let lo := v % 2 ^ 32
  let hi := v / 2 ^ 32
  match o with
  | 0x00 => s.modCaravan e fun c => { c with freeBase := 4096 * (v % 2 ^ 48 / 4096) }
  | 0x08 => if (List.range 4).any fun i => touch (4 + i) then s.freetail e hi else s
  | 0x10 => s.modCaravan e fun c => { c with retBase := 4096 * (v % 2 ^ 48 / 4096) }
  | 0x18 => s.modCaravan e fun c => { c with retHead := lo }
  | 0x20 => s.modCaravan e fun c =>
      { c with ringLog := if inRange lo 9 16 then lo else c.ringLog
               epoch := if decide (4 ≤ e) && inRange hi 10 1000000 then hi else c.epoch }
  | 0x28 => s.modCaravan e fun c => { c with promote := v % 65536 }
  | 0x30 => if 4 ≤ e then s.modCaravan e fun c => { c with ctrBase := v % 2 ^ 48 } else s
  | _ => s
/-- Whether a THROTCTL value keeps every range. -/
def throtOk (v : Nat) : Bool :=
  let w := nfld v 0 8
  let c := nfld v 8 8
  inRange w 60 110 && decide (w + 5 ≤ c) && decide (c ≤ 115) && inRange (nfld v 16 16) 600 800
/-- A write of a die control block. A DIECMD write with a reserved bit set beside WRESET is ignored as a whole: R7 and R389
leave open whether the field alone or the write is (DESIGN CHOICE, log entry 117). -/
def State.writeDie (s : State) (d o v : Nat) : State :=
  if o = 0x008 then (if v = 1 then s.warmRequest d else s)
  else if o = 0x400 ∧ throtOk v then s.modDie d fun x => { x with throtctl := v % 2 ^ 32 }
  else s
/-- A write of a peer port block. -/
def State.writePort (s : State) (q o v : Nat) : State :=
  let f (g : Port → Port) : State := { s with ports := lmod s.ports q g }
  if o = 0x08 then f fun p => { p with en := nbit v 0, atoms := nbit v 1 }
  else if 0x10 ≤ o ∧ o < 0x50 then
    let i := (o - 0x10) / 16
    if o % 16 = 0 then f fun p => { p with inbase := p.inbase.set i (nfld v 0 2 + 4096 * nfld v 12 36 + 2 ^ 54 * nfld v 54 10) }
    else f fun p => { p with inlen := p.inlen.set i (4096 * nfld v 12 36) }
  else s
/-- One 8-byte word of the window written: `v` is its new value, `touch` says which of its bytes are written. A kick is
one write of 64 bits. -/
def State.writeWord (s : State) (a v : Nat) (touch : Nat → Bool) : State :=
  let o := a - 0xF00000000000
  if o < 0x1000 then s.writePkg o v
  else if 0x4000 ≤ o ∧ o < 0x6000 then s.modMgmt fun m => { m with buffer := m.buffer.write (o - 0x4000) (toBytes 8 v) }
  else if 0x10000 ≤ o ∧ o < 0x10180 then s.writeCaravan ((o - 0x10000) / 64) (o % 64) v touch
  else if 0x20000 ≤ o ∧ o < 0x24000 then s.writeDie ((o - 0x20000) / 0x1000) (o % 0x1000) v
  else if 0x30000 ≤ o ∧ o < 0x31000 then s.writePort ((o - 0x30000) / 0x100) (o % 0x100) v
  else if 0x800000 ≤ o ∧ o < 0x808000 then
    { s with mem := { s.mem with msix := s.mem.msix.write (o - 0x800000) (toBytes 8 v) } }
  else if 0x1000000 ≤ o ∧ o < 0x1000000 + 0x1000 * 16384 ∧ o % 0x1000 = 0 ∧ (List.range 8).all touch then
    s.kickWrite ((o - 0x1000000) / 0x1000) v
  else s
/-- Bytes written to the window: each word that they touch is written once. -/
def State.winWrite (s : State) (a : Nat) (d : List Byte) : State :=
  (List.range (if d.isEmpty then 0 else cdiv (a % 8 + d.length) 8)).foldl (fun t i =>
    let w := a / 8 * 8 + 8 * i
    let touch (k : Nat) : Bool := decide (a ≤ w + k) && decide (w + k < a + d.length)
    let v := ofBytes ((List.range 8).map fun k => if touch k then d.getD (w + k - a) 0 else (toBytes 8 (t.winWord w)).getD k 0)
    t.writeWord w v touch) s
/-- REGISTER_WRITE: a write of the window by the host or by a page that maps it. -/
def execRegisterWrite (addr bytes value : Nat) (s : State) : Host.Outcome State Fault Refusal :=
  s.event fun s =>
    if s.spaceOf addr = some .window ∧ bytes ≤ 8 then s.winWrite addr (toBytes bytes value) else s

/-! ### Accesses from outside (R412, R417) -/

/-- The bytes that an inbound access touches. -/
def inboundBytes : Inbound → Nat
  | .read n => n
  | .write d => d.length
  | .reduce .cas _ d => d.length / 2
  | .reduce _ _ d => d.length
/-- The lines that n bytes from an address touch. -/
def linesFrom (a n : Nat) : List Nat := (List.range (cdiv (a % 128 + n) 128)).map fun i => a / 128 + i
/-- An inbound access performed at the homes of its lines, through a key slot; reads bring their lines there, and touch them. It
comes in at a far-tier die, from which a route leads to each home or does not (R386); one that a home does not answer, or that
must wait there, has had no effect yet. An ATOM.cas carries its operand and, behind it, the number that it compares with. An
atomic or reduction on poisoned bytes is not performed (R201). -/
def State.inbound (s : State) (die a key : Nat) (acc : Inbound) : State :=
  let ls := linesFrom a (inboundBytes acc)
  if (inboundBytes acc) = 0 ∨ s.spaceOf a ≠ some .global ∨ s.spaceOf (a + (inboundBytes acc) - 1) ≠ some .global ∨ !s.keyed key ∨
      ls.any (fun l => s.reachHome die l != .ok || s.topStalls l) then s
  else match acc with
    | .read _ => (s.bringAll noCtx none (ls.map fun l => (l, key, .normal))).getD s
    | .write d => (s.devStoreFor die noCtx 0 .normal a key (d.map (BitVec.ofNat 8))).2
    | .reduce op ty d =>
      let n := inboundBytes acc
      let arg (x : List Nat) : Nat := ofBytes (x.map (BitVec.ofNat 8))
      let new := atomNew op ty (8 * n) (ofBytes (s.physFuture a n key)) (arg (d.take n)) (arg (d.drop n))
      if s.poisonedAt a n key then s else (s.devStoreFor die noCtx 0 .normal a key (toBytes n new)).2
/-- HOST_MEM_ACCESS: a host access to the HDM range, through the platform's key slot 0; at service level 0 it has no
effect (R445). -/
def execHostMemAccess (addr : Nat) (acc : Inbound) (s : State) : Host.Outcome State Fault Refusal :=
  s.event fun s => if s.mgmt.level = 0 ∨ 0x040000000000 ≤ addr then s else s.inbound 4 addr 0 acc
/-- The range of a port that admits an access. -/
def Port.admits (p : Port) (a : Nat) (acc : Inbound) : Option Nat :=
  if !p.up || !p.en then none
  else findN 4 fun i =>
    let b := p.inbase.getD i 0
    let base := 4096 * nfld b 12 36
    let len := p.inlen.getD i 0
    decide (base ≤ a) && decide (a + (inboundBytes acc) ≤ base + len) && len != 0 && match acc with
      | .read _ => nbit b 0
      | .write _ => nbit b 1
      | .reduce _ _ _ => nbit b 1 && p.atoms
/-- PEER_INBOUND_ACCESS: admitted, it is performed at its home with the range's key slot; otherwise it is refused. -/
def execPeerInboundAccess (port addr : Nat) (acc : Inbound) (s : State) : Host.Outcome State Fault Refusal :=
  s.event fun s =>
    let p := s.ports.getD port Port.reset
    match p.admits addr acc with
    | some i => if s.mgmt.level = 0 then s else s.inbound 5 addr (nfld (p.inbase.getD i 0) 54 10) acc
    | none => s
/-- PEER_LINK_TRAIN: what a port's link shows once it has trained, or when it goes down. -/
def execPeerLinkTrain (port : Nat) (up : Bool) (lanes remote : Nat) (s : State) : Host.Outcome State Fault Refusal :=
  s.event fun s =>
    let n := min lanes 4
    { s with ports := lmod s.ports port fun p => { p with up := up, lanes := if up then n else 0, remote := if up then remote % 2 ^ 48 else 0 } }

end Sys2Proof.Machine
end

