-- ==== Sys2Proof/Machine/Homes.lean ====
section
/-! DEFINITION. Memory requests at the homes of their lines (R288, R289, R296, R299 to R304), at the host port and the
peer ports (R307, R416, R487), in the register window, and at the scratchpad banks (R211, R218, R286); the Louvre
filters' swap (R295), page walks ahead of use (R315), and accesses held by the moving bit (R326, R488). -/
namespace Sys2Proof.Machine

/-! ### When a request may be performed (R208, R239, R240) -/

/-- Whether a request writes. -/
def Req.isWrite (r : Req) : Bool :=
  match r.kind with
  | .load => false
  | .tagGet => false
  | _ => true
/-- The bytes that a request concerns, from its physical or virtual address: a tag's whole granule (R237). -/
def Req.extent (r : Req) (a : Nat) : Nat × Nat := if r.kind.isTag then (a / 32 * 32, 32) else (a, r.size)
/-- Whether two ranges of bytes overlap. -/
def rangesMeet (a b : Nat × Nat) : Bool := decide (a.1 < b.1 + b.2) && decide (b.1 < a.1 + a.2)
/-- Whether two requests overlap in bytes. -/
def Req.overlaps (a b : Req) : Bool := a.space == b.space && rangesMeet (a.extent a.pa) (b.extent b.pa)
/-- Whether a request returns what memory holds. -/
def Req.isRead (r : Req) : Bool :=
  match r.kind with
  | .load => true
  | .tagGet => true
  | .atomic _ _ _ => true
  | _ => false
/-- Whether an access that the moving bit holds overlaps a request in one of its lanes. -/
def Op.meets (o : Op) (r : Req) : Bool :=
  match planOf o.instr o.svals o.vvals o.lanes 0 0 0 with
  | some p => p.pieces.any fun x =>
      x.lane == r.lane && rangesMeet (if p.kind.isTag then (vaOf x.addr / 32 * 32, 32) else (vaOf x.addr, p.size)) (r.extent r.va)
  | none => false
/-- The bytes of the descriptor or records that an instruction has still to read: addresses and lengths. -/
def Op.blocks (o : Op) : List (Nat × Nat) :=
  let at_ (r n : Nat) : List (Nat × Nat) := [(vaOf (globalAddr (o.svals.getD r 0) 0), n)]
  match o.st, o.instr with
  | .moving _, .pin _ a => at_ a 32
  | .moving _, .hcfg _ a => at_ a 128
  | .moving _, .hgather _ _ r _ _ => at_ r 128
  | .moving _, .hscatter _ _ r _ _ => at_ r 128
  | .moving _, .tsamp _ _ r x _ _ => (lanesOf o.lanes).map fun l =>
      (vaOf (globalAddr (o.svals.getD r 0) (64 * (laneVal (o.vvals.getD x []) l).toNat)), 64)
  | .moving _, .draw _ a _ _ => at_ a 64
  | .engine, .draw _ _ _ _ => if o.misc.length ≤ 1 then [((o.svals.getD 0 0).toNat, 64)] else []
  | _, _ => []
/-- Whether a request still stands before a later one that overlaps it: not yet arrived, or, before a read, not yet
performed. -/
def Req.before (q r : Req) : Bool :=
  match q.st with
  | .fresh => true
  | .pending _ => !r.isWrite
  | _ => false
/-- Whether an instruction is ACQW. -/
def Instr.isAcqw : Instr → Bool
  | .acqw _ _ => true
  | _ => false
/-- Whether an earlier access of its lane, or of its instruction, or an acquire of its group, holds a request (R208,
R206, R240). Program order is the order of the operations, and within one the order in which its requests set out; so
overlapping element reductions of one AGDRAIN, whose order R92 and R256 leave open, are performed in that order (DESIGN
CHOICE, log entry 103). -/
def State.reqHeld (s : State) (n : Nat) (r : Req) : Bool :=
  r.op != 0 &&
  ((s.work.reqs.any fun q => q.2.gid == r.gid && (decide (q.2.op < r.op) || (q.2.op == r.op && decide (q.1 < n))) &&
     (q.2.lane == r.lane || (q.2.op == r.op && r.isWrite)) && q.2.overlaps r && q.2.before r) ||
   (s.work.ops.any fun o => decide (o.1 < r.op) && o.2.gid == r.gid &&
     ((r.isRead && Instr.isAcqw o.2.instr) || (r.isWrite && o.2.blocks.any fun b => rangesMeet b (r.extent r.va)) || ((match o.2.st with
       | .moving _ => true
       | _ => false) && o.2.meets r))))
/-- Whether a request's operation lets it be performed: one that PUBW or AGDRAIN has not released yet waits. -/
def State.opLets (s : State) (r : Req) : Bool :=
  match tget s.work.ops r.op with
  | some o => o.st == .reqs
  | none => true
/-- A request that may be performed now, by its identifier. -/
def State.reqNow (s : State) (n : Nat) : Option Req :=
  match tget s.work.reqs n with
  | some r => if r.st = .fresh && s.opLets r && !s.reqHeld n r then some r else none
  | none => none
/-- A request answered: nothing waits for it when its operation is gone. -/
def State.answer (s : State) (n : Nat) (st : ReqSt) (val : List Byte) : State :=
  match tget s.work.reqs n with
  | none => s
  | some r =>
    if (tget s.work.ops r.op).isNone then s.delReq n
    else s.modReq n fun x => { x with st := st, val := val }
/-- The greatest W of a group's or span's completed writes on a path raised (R223). -/
def State.noteWrite (s : State) (r : Req) (w : Nat) : State :=
  (s.noteW r.gid r.path w).modSpan r.gid fun x => { x with maxW := lmod x.maxW r.path.code (max w) }

/-! ### Reads (R299 to R303) -/

/-- The caches that a read looks in before it goes to the home: its path's, then its die's L2. -/
def Req.caches (r : Req) : List Holder :=
  match r.path with
  | .core => [.l1 r.core, .l2 r.die]
  | .tex => [.tex (coreCluster r.core), .l2 r.die]
  | .peer => [.peer (coreCluster r.core)]
  | _ => []
/-- A copy that a read may be satisfied from: valid under its lease, and held under the same key slot (R300). -/
def State.copyHit (s : State) (r : Req) : Option CopyLine :=
  r.caches.findSome? fun h => s.mem.copies.find? fun c =>
    c.holder == h && c.space == r.space && c.line == r.pa / 128 && c.key == r.key && s.leaseValid r.die c.expiry
/-- A copy of a line installed in the cache of a read's path, in the position that its hint gives, unless the hint forbids it
(R205). -/
def State.installPath (s : State) (r : Req) (data : List Byte) (expiry : Nat) : State :=
  match r.caches.head? with
  | some h =>
    if r.hint = .na then s
    else s.putCopy ⟨h, r.space, r.pa / 128, data, [], expiry, s.gtAt r.die, r.key, 0⟩ r.hint
  | none => s
/-- The home L2 touched by a request. -/
def State.touchHome (s : State) (r : Req) : State := s.touchAt (r.pa / 128) r.ctx (some r.va) r.hint
/-- Copies that a read at the home leaves on its way back, under a lease if one is granted (R299). -/
def State.leaseOut (s : State) (r : Req) : State :=
  let ln := r.pa / 128
  if r.hint = .na ∨ r.caches = [] ∨ s.poisonedAt (ln * 128) 128 r.key then s
  else
    let data := s.seeLine ln r.key
    match s.grant ln r.lro with
    | (none, s1) => s1
    | (some e, s1) =>
      let s2 :=
        if r.die = s.homeDie ln then s1
        else (s1.l2Alloc r.die ln r.ctx (some r.va) r.hint).addCopy ⟨.l2 r.die, .global, ln, data, [], e, s.gtAt r.die, r.key, 0⟩
      s2.installPath r data e
/-- A read of global memory served at its home. -/
def State.homeServe (s : State) (n : Nat) (r : Req) : State :=
  let ln := r.pa / 128
  if s.topStalls ln then s
  else if s.spaceOf r.pa = none then s.answer n .phys []
  else match s.reachHome r.die ln with
    | .wait => s
    | .broken => s.answer n .error []
    | .ok =>
      if !s.keyed r.key then s.answer n .poisoned []
      else if (s.homeLine ln).isNone then s.askUnit ln r.key
      else if r.kind = .tagGet then (s.touchHome r).answer n (.done 0) [BitVec.ofNat 8 (s.granuleTag r.pa r.key)]
      else if s.poisonedAt r.pa r.size r.key then (s.touchHome r).answer n .poisoned []
      else ((s.leaseOut r).touchHome r).answer n (.done 0) (s.see r.pa r.size r.key)
/-- A read satisfied from a copy: a copy of the die's L2 also fills the path's cache, under its own lease; one in an L1 takes the
position that the hint gives (R205). -/
def State.hitServe (s : State) (n : Nat) (r : Req) (c : CopyLine) : State :=
  let s1 :=
    if c.holder = .l2 r.die then (s.l2Alloc r.die c.line r.ctx (some r.va) r.hint).installPath r c.data c.expiry
    else if c.holder = .l1 r.core then s.touchCopy c r.hint
    else s
  s1.answer n (.done 0) (slice c.data (r.pa % 128) r.size)
def State.peerMem (s : State) (q : Nat) : Memory := (tget s.mem.peers q).getD []
def State.setPeer (s : State) (q : Nat) (m : Memory) : State := { s with mem := { s.mem with peers := tput s.mem.peers q m } }
/-- The offset of an address in its peer window, and in the host window. -/
def peerOff (pa : Nat) : Nat := pa % 0x040000000000
def hostOff (pa : Nat) : Nat := pa - 0x400000000000
/-- HOME_READ: a read is served from a valid copy, or at its home, the host port, a peer port or the register window. -/
def execHomeRead (req : Nat) (useCopy : Bool) (s : State) : Host.Outcome State Fault Refusal :=
  s.event fun s =>
    match s.reqNow req with
    | none => s
    | some r =>
      if r.isWrite then s
      else match (if useCopy && r.kind == .load then s.copyHit r else none) with
        | some c => s.hitServe req r c
        | none =>
          match r.space with
          | .global => s.homeServe req r
          | .host =>
            (match s.reach r.die 4 with
             | .ok => s.answer req (.done 0) (s.mem.host.read (hostOff r.pa) r.size)
             | .wait => s
             | .broken => s.answer req .error [])
          | .peer q =>
            (match s.reach r.die 5 with
             | .wait => s
             | .broken => s.answer req .error []
             | .ok =>
               let t := s.peerTakes q
               if t.1 then
                 let base := peerOff r.pa / 128 * 128
                 let data := (s.peerMem q).read base 128
                 (t.2.installPath r data (s.gtAt r.die + s.pkg.leaseRw)).answer req (.done 0) ((s.peerMem q).read (peerOff r.pa) r.size)
               else t.2.answer req .error [])
          | .window => s.answer req (.done 0) (s.winRead r.pa r.size)
          | .scratch _ => s

/-! ### Stores (R301) -/

/-- A store, atomic or reduction store of global memory on its way to its home: it goes on there, or is answered. -/
def State.atHome (s : State) (n : Nat) (r : Req) (go : State → State) : State :=
  let ln := r.pa / 128
  if s.topStalls ln then s
  else if s.spaceOf r.pa = none then s.answer n .phys []
  else match s.reachHome r.die ln with
    | .wait => s
    | .broken => s.answer n .error []
    | .ok => if s.keyed r.key then go s else s.answer n .error []
/-- A write outside global memory, which takes effect where it arrives: the state with it, its answer from the bytes
that were there (R487). The cluster's copy of a peer's line goes, so that the lane's later loads do not return what was
there before (R208, R305). -/
def State.outside (s : State) (n : Nat) (r : Req) (new : List Byte → List Byte) : State :=
  let w := s.gtAt r.die
  match r.space with
  | .host =>
    (match s.reach r.die 4 with
     | .wait => s
     | .broken => s.answer n .error []
     | .ok =>
       let old := s.mem.host.read (hostOff r.pa) r.size
       (({ s with mem := { s.mem with host := s.mem.host.write (hostOff r.pa) (new old) } }).noteWrite r w).answer n (.done w) old)
  | .peer q =>
    (match s.reach r.die 5 with
     | .wait => s
     | .broken => s.answer n .error []
     | .ok =>
       let t := s.peerTakes q
       if t.1 then
         let old := (s.peerMem q).read (peerOff r.pa) r.size
         (((t.2.setPeer q ((s.peerMem q).write (peerOff r.pa) (new old))).dropCopies (r.pa / 128) fun h => h == .peer (coreCluster r.core)).noteWrite r w).answer n (.done w) old
       else t.2.answer n .error [])
  | .window =>
    let old := s.winRead r.pa r.size
    ((s.winWrite r.pa (new old)).noteWrite r w).answer n (.done w) old
  | _ => s
/-- HOME_STORE_ARRIVE: a store becomes pending at its home, with its W; elsewhere it is performed. -/
def execHomeStoreArrive (req : Nat) (install : Bool) (s : State) : Host.Outcome State Fault Refusal :=
  s.event fun s =>
    match s.reqNow req with
    | none => s
    | some r =>
      let go (data : List Byte) : State :=
        if r.space = .global then
          s.atHome req r fun t =>
            let p := (t.dropPassing r).pend (r.pa / 128) req (r.pa % 128) data
            p.2.modReq req fun x => { x with st := .pending p.1, install := install }
        else s.outside req r fun _ => r.data
      match r.kind with
      | .store => go r.data
      | .tagSet _ => go []
      | _ => s
/-- What the acknowledgement of a store may bring back: the line under a lease that starts at W, for L1 (R283). -/
def State.ackInstall (s : State) (r : Req) (w : Nat) : State :=
  let ln := r.pa / 128
  if !r.install || r.path != .core || r.hint == .na || s.poisonedAt (ln * 128) 128 r.key ||
      ((s.lineCtl ln).pend.any fun p => decide (w < p.w)) then s
  else
    let e := w + (if r.lro then s.pkg.leaseRo else s.pkg.leaseRw)
    (s.raiseLs ln e).putCopy ⟨.l1 r.core, .global, ln, s.seeLine ln r.key, [], e, w, r.key, 0⟩ r.hint
/-- Whether a pending store still stands at its line: a key slot that is destroyed takes it away (R452). -/
def State.stands (s : State) (ln req : Nat) : Bool := (s.lineCtl ln).pend.any fun p => p.req == req
/-- A pending store whose address does not exist any more, since a retirement has given it up (R328, R348): its instruction
raises PHYSRANGE, and an engine's write ends the context that it works for. -/
def State.physStore (s : State) (ln req : Nat) (r : Req) : State :=
  let s1 := (s.unpend ln req).answer req .phys []
  if r.op = 0 ∧ r.ctx ≠ noCtx then s1.enginePhys r.ctx else s1
/-- HOME_STORE_PERFORM: at its W a pending store takes effect, in its order of arrival. -/
def execHomeStorePerform (req : Nat) (s : State) : Host.Outcome State Fault Refusal :=
  s.event fun s =>
    match tget s.work.reqs req with
    | none => s
    | some r =>
      let ln := r.pa / 128
      match r.st with
      | .pending w =>
        if s.gtAt (s.homeDie ln) < w then s
        else if !s.stands ln req then (s.noteWrite r w).answer req (.done w) r.val
        else if ((s.lineCtl ln).pend.head?.map (·.req)) ≠ some req then s
        else if s.spaceOf r.pa = none then s.physStore ln req r
        else if !s.keyed r.key then ((s.unpend ln req).noteWrite r w).answer req (.done w) r.val
        else if (s.homeLine ln).isNone then (if s.topStalls ln then s else s.askUnit ln r.key)
        else
          let s1 := match r.kind with
            | .tagSet t => (s.unpend ln req).setTag r.pa t
            | _ => s.performPend ln req
          let s2 := (s1.noteWrite r w).ackInstall r w
          (if r.kind = .store then s2.touchHome r else s2.leaveHome ln).answer req (.done w) r.val
      | _ => s

/-! ### Atomics (R215 to R217, R296, R302) -/

/-- The bytes that an atomic or reduction leaves, from those that were there. -/
def Req.atomBytes (r : Req) (old : List Byte) : List Byte :=
  let n := r.size
  let go (op : AOp) (ty : AType) (c : Nat) : List Byte := toBytes n (atomNew op ty (8 * n) (ofBytes old) (ofBytes r.data) c)
  match r.kind with
  | .atomic op ty c => go op ty c
  | .reduce op ty => go op ty 0
  | _ => old
/-- HOME_ATOMIC: an atomic or reduction store is performed at the home, on the value that every earlier arrival leaves.
The issuing core's L1 keeps no copy of the line (R221). -/
def execHomeAtomic (req : Nat) (s : State) : Host.Outcome State Fault Refusal :=
  s.event fun s =>
    match s.reqNow req with
    | none => s
    | some r =>
      let go : State :=
        if r.space = .global then
          s.atHome req r fun t =>
            let ln := r.pa / 128
            if (t.homeLine ln).isNone then (t.askUnit ln r.key).modReq req fun x => { x with missed := true }
            else if t.poisonedAt r.pa r.size r.key then t.answer req .poisoned []
            else
              let old := slice (t.futureLine ln r.key) (r.pa % 128) r.size
              let p := (((t.dropPassing r).dropCopies ln fun h => h == .l1 r.core).toMsc ln r.hint r.missed).pend ln req (r.pa % 128) (r.atomBytes old)
              (p.2.noteWrite r p.1).modReq req fun x => { x with st := .pending p.1, val := old }
        else s.outside req r r.atomBytes
      match r.kind with
      | .atomic _ _ _ => go
      | .reduce _ _ => go
      | _ => s

/-! ### Scratchpad banks (R211, R218, R286) -/

/-- Where a byte of a die scratchpad lies: cluster of the die, byte of its carve-out, slice, byte of the slice's carved ways,
bank. -/
structure ScrPlace where
  cl : Nat
  c : Nat
  sl : Nat
  a : Nat
  bank : Nat
  deriving DecidableEq, Repr
/-- The placement of a die-scratchpad offset (R285). No instruction's result depends on it: the model keeps a scratchpad by
offsets. -/
def scrPlace (o : Nat) : ScrPlace :=
  let c := o / 4096 / 20 * 4096 + o % 4096
  let a := c / 512 * 128 + c % 128
  ⟨o / 4096 % 20, c, c / 128 % 4, a, a / 8 % 16⟩
/-- Whether an earlier hash instruction of the group holds a scratchpad access (R208). -/
def State.scratchHeld (s : State) (r : Req) : Bool :=
  s.work.ops.any fun o => decide (o.1 < r.op) && o.2.gid == r.gid && match o.2.instr with
    | .hscatter _ _ _ _ _ => true
    | .hgather _ _ _ _ _ => r.isWrite
    | _ => false
/-- SCRATCHPAD_BANK_OP: an access is performed at its bank when it arrives, and that time is its W. -/
def execScratchpadBankOp (req : Nat) (s : State) : Host.Outcome State Fault Refusal :=
  s.event fun s =>
    match s.reqNow req with
    | none => s
    | some r =>
      match r.space with
      | .scratch lid =>
        if s.scratchHeld r then s
        else
          let m := s.scratchOf lid r.die
          let old := m.read r.pa r.size
          let w := s.gtAt r.die
          let put (b : List Byte) : State := ((s.setScratch lid r.die (m.write r.pa b)).noteWrite r w).answer req (.done w) old
          (match r.kind with
           | .load => s.answer req (.done w) old
           | .store => put r.data
           | .atomic _ _ _ => put (r.atomBytes old)
           | .reduce _ _ => put (r.atomBytes old)
           | _ => s)
      | _ => s

/-! ### Filters and walks -/

/-- LOUVRE_FILTER_SWAP: after 2^18 misses the standby filter is cleared and becomes active (R295); a later miss swaps them
first where this has not. -/
def execLouvreFilterSwap (die slice : Nat) (s : State) : Host.Outcome State Fault Refusal :=
  s.event fun s =>
    if (s.louvreOf die slice).misses < 262144 then s
    else { s with mem := { s.mem with louvre := tput s.mem.louvre (die * 64 + slice) (s.louvreOf die slice).swap } }
/-- PAGE_WALK: a walker of a core's cluster walks for a page ahead of an access (R315, R324). -/
def execPageWalk (core ctx va : Nat) (s : State) : Host.Outcome State Fault Refusal :=
  s.event fun s => (s.walk (coreTlb core) (coreDie core) ctx (vaOf va)).2

/-! ### Accesses held by the moving bit (R326, R488) -/

/-- A held access that ends in a fault is delivered as POISON is, with TARG[10] for the two causes that have it (R372); its
destinations stay as they are. Of the faults that an instruction raises once its held descriptor is read, LAYOUT, ILLEGAL and
DEPMISS, R488 does not speak: they are delivered in the same way (DESIGN CHOICE, log entry 118). -/
def State.heldFault (s : State) (o : Nat) (op : Op) (c : Cause) (arg addr : Nat) (lanes : Mask) : State :=
  let a := if c = .pagefault ∨ c = .tagfault then arg + 1024 else arg
  ((s.unqueue op.core o).retireOp o).owe op.gid ⟨c, a, addr, lanes, op.pos, false⟩
/-- A PAGEFAULT of a held access: a resolvable one makes a kind 1 entry, and the access waits again. -/
def GI.heldPage (e : GI) (s : State) (o : Nat) (op : Op) (st acc addr : Nat) (lanes : Mask) : State :=
  if resolvable st then
    let f := s.fresh
    let x : FaultRec :=
      { ctx := e.ctx, kind := 1, status := st, core := op.core, team := e.team.linear e.launch, group := e.g.num,
        write := nbit acc 1, read := nbit acc 0, addr := addr, lanes := lanes, seq := 0, holder := o, moving := true }
    (f.2.setFaults (tput f.2.work.faults f.1 x)).modOp o fun y => { y with st := .moving (some f.1) }
  else s.heldFault o op .pagefault (st + 256 * acc) addr lanes
/-- The work of an instruction that reads a descriptor or records before it has requests of its own. -/
def heldWork : Instr → Option (GI → State → Fx)
  | .pin _ a => some (pinBody a)
  | .hcfg _ a => some (hcfgBody a)
  | .hgather d a r l n => some fun e s => e.hash s d a r l n false
  | .hscatter g a r l n => some fun e s => e.hash s g a r l n true
  | .tsamp _ c r x l md => some (tsampBody c r x l md)
  | .draw _ a _ _ => some (drawBody a)
  | _ => none
/-- The walker's second look for an access with a plan of its own. -/
def GI.recheckPlan (e : GI) (s : State) (n : Nat) (o : Op) (p : Plan) : State :=
  let r := p.check s (coreTlb o.core) (coreDie o.core) e.ctx o.user
  if p.tags && s.tagsPending o.gid n then s
  else match r.1 with
  | .moving => s
  | .mis a m => r.2.heldFault n o .misalign p.acc a m
  | .tag q g a m => r.2.heldFault n o .tagfault (q + 16 * g + 256 * p.acc) a m
  | .page st a m => e.heldPage r.2 n o st p.acc a m
  | .go ts sp =>
    let st : OpSt := match o.instr with
      | .pubw _ _ => .engine
      | .agdrain _ _ _ => .engine
      | _ => .reqs
    let s1 := r.2.modOp n fun y => { y with st := st, misc := sp }
    s1.sendPieces p o.gid n o.core (coreDie o.core) e.ctx e.team.launch ts
/-- MV_RECHECK: the walker reads the entry again; a page that moves no more lets the access go on or fault. -/
def execMvRecheck (op : Nat) (s : State) : Host.Outcome State Fault Refusal :=
  s.event fun s =>
    match tget s.work.ops op with
    | none => s
    | some o =>
      match s.gi o.gid o.instr with
      | none => s
      | some e =>
        if o.st ≠ .moving none then s
        else match heldWork o.instr with
          | some body =>
            (match e.heldAgain s op o body with
             | .on t => t
             | .wait => s
             | .fault _ c arg addr m => s.heldFault op o c arg addr m
             | .page _ st acc addr m => e.heldPage s op o st acc addr m)
          | none =>
            match planOf o.instr o.svals o.vvals o.lanes e.launch.priv e.team.size e.launch.scrBytes with
            | some p => e.recheckPlan s op o p
            | none => s

end Sys2Proof.Machine
end

