-- ==== Sys2Proof/Machine/Complete.lean ====
section
/-! DEFINITION. The completion of Long instructions (R107): results written, exceptions and completion faults (R76, R201);
the firmware's accesses ended (R311); entry into handlers (R373); the end of groups (R132) and the expansion of parked
spans (R30, R32). -/
namespace Sys2Proof.Machine

/-! ### What an operation's requests have brought -/

/-- Whether a request is answered: an atomic or reduction once the home has performed it, a store once its W has come. An atomic
answered so may have its W still to come: until then no load sees it (R302), and FENCE.team waits for that W (R221; DEDUCED,
log entry 130). -/
def Req.answered (r : Req) : Bool :=
  match r.st, r.kind with
  | .fresh, _ => false
  | .pending _, .atomic _ _ _ => true
  | .pending _, .reduce _ _ => true
  | .pending _, _ => false
  | _, _ => true
/-- Whether a request was performed. -/
def Req.served (r : Req) : Bool :=
  match r.st with
  | .done _ => true
  | .pending _ => true
  | _ => false
/-- W of a request. -/
def Req.w (r : Req) : Nat :=
  match r.st with
  | .done w => w
  | .pending w => w
  | _ => 0
/-- What the requests of one lane brought, in order, when all were performed. -/
def laneVals (q : Tbl Req) (l : Nat) : Option (List (List Byte)) :=
  let m := q.filter fun r => r.2.lane == l
  if m.all fun r => r.2.served then some (m.map fun r => r.2.val) else none
/-- The lanes of requests in a state. -/
def lanesIn (q : Tbl Req) (st : ReqSt) : Mask := maskOf fun l => q.any fun r => r.2.lane == l && decide (r.2.st = st)

/-- What a completed operation leaves: its register writes, its exceptions with their lanes, the lanes that met
poisoned data or error replies, its W, the state. -/
structure Fin where
  writes : List RegWrite
  exc : Exc
  lanes : Mask
  poison : Mask
  off : Mask
  phys : Bool
  w : Nat
  s : State
  deriving DecidableEq, Repr
/-- An operation that leaves writes and a state only. -/
def Fin.plain (w : List RegWrite) (s : State) : Fin := ⟨w, 0, 0, 0, 0, false, 0, s⟩
/-- An operation that its requests complete. -/
def Fin.ofReqs (q : Tbl Req) (w : List RegWrite) (s : State) : Fin :=
  { writes := w, exc := 0, lanes := 0, poison := lanesIn q .poisoned, off := lanesIn q .error,
    phys := q.any fun r => decide (r.2.st = .phys), w := q.foldl (fun a r => max a r.2.w) 0, s := s }

/-! ### Local memory (R210) -/

/-- The plan of an operation from its captured operands. -/
def GI.planFor (e : GI) (op : Op) : Option Plan :=
  planOf op.instr op.svals op.vvals op.lanes e.launch.priv e.team.size e.launch.scrBytes
/-- Whether two plans overlap within a lane. -/
def Plan.meets (p q : Plan) : Bool :=
  p.pieces.any fun x => q.pieces.any fun y =>
    x.lane == y.lane && decide (x.addr < y.addr + q.size) && decide (y.addr < x.addr + p.size)
/-- Whether an earlier access of the group to local memory holds one (R208). -/
def GI.localHeld (e : GI) (s : State) (o : Nat) (p : Plan) : Bool :=
  s.work.ops.any fun x => decide (x.1 < o) && x.2.gid == e.gid && match e.planFor x.2 with
    | some q => q.at_ == .loc && p.meets q
    | none => false
/-- A local access performed: what the lanes read, and the state. -/
def GI.localRun (e : GI) (s : State) (p : Plan) : (Nat → Option (List Byte)) × State :=
  let r := localPieces p.kind p.size e.team.loc p.pieces
  (fun l => (r.1.find? fun x => x.1 == l).map (·.2), s.modTeam e.g.team fun t => { t with loc := r.2 })

/-! ### PREF and CACHEOP (R236, R238) -/

/-- One lane's prefetch; none while its line cannot come yet. At the MSC it is a miss like any other, which the filter answers
under the normal hint and `.ef` (R205, R295). -/
def State.prefOne (s : State) (op : Op) (ctx : Nat) (h : Hint) (lv : PrefLvl) (a : Nat) (canon : Bool) : Option State :=
  let die := coreDie op.core
  if !canon then some s
  else match s.translate (coreTlb op.core) die ctx (vaOf a) ⟨false, false, op.user⟩ with
    | (.ok t, s1) =>
      let ln := t.pa / 128
      if s1.spaceOf t.pa ≠ some .global ∨ !s1.keyed t.key then some s1
      else match s1.reachHome die ln with
        | .broken => some s1
        | .wait => none
        | .ok =>
          let hint := if h = .normal then t.hint else h
          (s1.bring ln t.key ctx (some (vaOf a)) (if lv = .msc then .na else hint)).map fun s2 =>
            let r : Req :=
              { kind := .load, space := .global, path := .core, core := op.core, die := die, ctx := ctx, gid := op.gid, op := 0, lane := 0,
                va := vaOf a, pa := t.pa, size := 1, data := [], hint := hint, lro := t.lro, key := t.key, st := .fresh, val := [],
                seq := 0, install := false, missed := false }
            match lv with
            | .l1 => (s2.leaseOut r).touchHome r
            | .l2 =>
              if die = s2.homeDie ln then s2.touchHome r
              else ((s2.leaseOut { r with path := .tex }).dropCopies ln fun x => x == .tex (coreCluster op.core)).touchHome r
            | .msc =>
              let m := if ((s2.homeLine ln).map (·.inMsc)).getD false then (true, s2) else s2.mscMiss ln hint
              (if m.1 then m.2.mscAlloc ln hint else m.2).leaveHome ln
    | (.moving, _) => none
    | (_, s1) => some s1
/-- Every lane's prefetch. -/
def State.prefAll (s : State) (op : Op) (ctx : Nat) (h : Hint) (lv : PrefLvl) : List Nat → Option State
  | [] => some s
  | l :: r =>
    match s.prefOne op ctx h lv (globalAddr (op.svals.getD 0 0) (laneVal (op.vvals.getD 0 []) l).toNat) (canonical (op.svals.getD 0 0)) with
    | some s1 => s1.prefAll op ctx h lv r
    | none => none
/-- A dirty line written to its unit, its home copy kept. -/
def State.cleanLine (s : State) (ln : Nat) : State :=
  match s.homeLine ln with
  | none => s
  | some h =>
    if !h.dirty && !h.mdirty then s
    else
      let s1 := s.writeBack ln h
      { s1 with mem := { s1.mem with home := tput s1.mem.home ln { h with dirty := false, mdirty := false } } }
/-- A CACHEOP on one line. -/
def State.cacheLine (s : State) (die : Nat) (k : CacheOp) (ln : Nat) : State :=
  match k with
  | .drop =>
    let s1 := s.dropCopies ln fun h => match h with
      | .l1 c => coreDie c == die
      | .l2 d => d == die
      | _ => false
    if (s1.wayOf die ln).isSome then s1.l2Evict die ln else s1
  | .clean => s.cleanLine ln
  | .flush =>
    let s1 := (s.dropCopies ln fun _ => true).dropHome ln
    { s1 with mem := { s1.mem with ways := s1.mem.ways.filter fun w => w.line != ln } }
/-! ### Completion -/

/-- Whether an earlier acquire of the group is outstanding (R240). -/
def State.acqHeld (s : State) (o : Nat) (op : Op) : Bool :=
  s.work.ops.any fun x => decide (x.1 < o) && x.2.gid == op.gid && Instr.isAcqw x.2.instr
/-- An operation that its memory requests complete. -/
def State.reqEnd (s : State) (o : Nat) (op : Op) : Except State Fin :=
  let q := s.reqsOf o
  if op.st ≠ .reqs ∨ !(q.all fun r => r.2.answered) then .error s
  else
    let got (l : Nat) : Option (List Byte) := (laneVals q l).map List.flatten
    let have_ (l : Nat) : Option (List Byte) := if q.any fun r => r.2.lane == l then got l else none
    match op.instr with
    | .acqw _ _ => .ok (Fin.ofReqs q (loadWrites op.instr op.lanes op.misc have_) (s.dropPaths op.core (s.gtOf op.core)))
    | .rbox _ _ _ _ =>
      let w := s.rayWrites op have_
      .ok (Fin.ofReqs q w.1 w.2)
    | .rtri _ _ _ _ _ =>
      let w := s.rayWrites op have_
      .ok (Fin.ofReqs q w.1 w.2)
    | .tsamp d _ _ _ _ md =>
      let w := s.tsampWrites op d md fun l => laneVals q l
      let f := Fin.ofReqs q w.1 w.2
      .ok { f with poison := f.poison ||| op.svals.getD 1 0, off := f.off ||| op.svals.getD 2 0 }
    | .agdrain _ _ _ =>
      let d := s.matrixDone o op
      .ok { Fin.ofReqs q [] d.2.2 with exc := op.exc, lanes := op.excLanes }
    | i => .ok (Fin.ofReqs q (loadWrites i op.lanes op.misc have_) s)
/-- A local access completes. -/
def GI.localEnd (e : GI) (s : State) (o : Nat) (op : Op) : Except State Fin :=
  match e.planFor op with
  | none => .error s
  | some p =>
    if op.st ≠ .ready ∨ e.localHeld s o p then .error s
    else
      let r := e.localRun s p
      .ok (Fin.plain (loadWrites op.instr op.lanes [] r.1) r.2)
/-- A command of the matrix array completes. -/
def State.matrixEnd (s : State) (o : Nat) (op : Op) : Except State Fin :=
  if s.onArray o op then
    let d := s.matrixDone o op
    .ok { Fin.plain [] d.2.2 with exc := d.1, lanes := d.2.1 }
  else .error s
/-- CLAIM: its work begins, and completes when its pages have been dealt with. -/
def State.claimEnd (s : State) (o : Nat) (op : Op) (ctx d : Nat) : Except State Fin :=
  let out (w : Nat) (t : State) : Fin := Fin.plain [.uni d (BitVec.ofNat 64 w)] t
  if !op.await.done then .error s
  else if op.misc.isEmpty then
    match s.claimBegin o op ctx with
    | (some w, s1) => .ok (out w s1)
    | (none, s1) => .error s1
  else if s.claimOver o then .ok (out (claimWord op) s) else .error s
/-- CACHEOP: once its requests are answered its effect is made on the lines that it was given, and is done when what it
wrote has reached memory (R238, R325). A line of a peer window has copies in peer read caches alone, and .flush evicts those. -/
def State.cacheEnd (s : State) (o : Nat) (op : Op) (k : CacheOp) : Except State Fin :=
  let q := s.reqsOf o
  let ls := uniq (q.filterMap fun r => match r.2.space, r.2.st with
    | .global, .done _ => some (r.2.pa / 128)
    | .peer _, .done _ => if k = .flush then some (r.2.pa / 128) else none
    | _, _ => none)
  if op.st ≠ .reqs ∨ !(q.all fun r => r.2.answered) then .error s
  else if op.misc.isEmpty then
    if s.work.reqs.any fun r => decide (r.2.op < o) && r.2.gid == op.gid && r.2.open_ && ls.contains (r.2.pa / 128) then .error s
    else .error ((ls.foldl (fun a l => a.cacheLine (coreDie op.core) k l) s).modOp o fun x => { x with misc := [1] })
  else if s.mem.unitq.any fun u => u.2.write && ls.contains u.2.line then .error s
  else .ok (Fin.ofReqs q [] s)
/-- What an outstanding operation of a group leaves when it completes now, or, where it does not, the state. -/
def GI.opEnd (e : GI) (s : State) (o : Nat) (op : Op) : Except State Fin :=
  let ready (w : List RegWrite) (t : State) : Except State Fin := if op.st = .ready then .ok (Fin.plain w t) else .error s
  match op.instr with
  | .ldl _ _ _ _ => e.localEnd s o op
  | .stl _ _ _ _ => e.localEnd s o op
  | .atoml _ _ _ _ _ _ _ _ => e.localEnd s o op
  | .bcinit _ n => ready [] (s.bcinitDone op n)
  | .cpyk n _ => ready [] (s.cpykDone o op n)
  | .claim d _ _ => s.claimEnd o op e.ctx d
  | .pin d _ =>
    let r := s.pinDone op e.ctx d
    ready [r.1] r.2
  | .unpin d _ =>
    let r := s.unpinDone op e.ctx d
    ready [r.1] r.2
  | .pref h l _ _ =>
    (match s.prefAll op e.ctx h l (lanesOf op.lanes) with
     | some s1 => .ok (Fin.plain [] s1)
     | none => .error s)
  | .cacheop k _ _ => s.cacheEnd o op k
  | .draw d _ _ _ => ready [.uni d (BitVec.ofNat 64 (op.misc.headD 0))] s
  | .hcfg d _ =>
    let r := s.hcfgDone op e.launch d
    ready [r.1] r.2
  | .hgather d _ _ l0 n =>
    if s.hashHeld o op then .error s
    else
      let r := s.hgatherDone op e.team.launch d l0 n
      .ok (Fin.plain r.1 r.2)
  | .hscatter _ _ _ l0 n =>
    if s.hashHeld o op then .error s
    else .ok { Fin.plain [] (s.hscatterDone op e.team.launch l0 n) with w := s.gtOf op.core }
  | .azero _ => s.matrixEnd o op
  | .amov _ _ => s.matrixEnd o op
  | .aload _ _ => s.matrixEnd o op
  | .mma _ _ _ _ => s.matrixEnd o op
  | .mmap _ _ _ _ => s.matrixEnd o op
  | .mmabs _ _ _ _ _ => s.matrixEnd o op
  | .adrain _ _ _ _ => s.matrixEnd o op
  | .astash _ _ _ => s.matrixEnd o op
  | .route n _ d =>
    let r := s.routeDone op e.ctx n d
    ready r.1 r.2
  | .xdone _ => ready [] (s.xdoneDone op e.ctx)
  | _ =>
    if op.st = .ready then .ok { Fin.plain op.writes s with exc := op.exc, lanes := op.excLanes }
    else s.reqEnd o op
/-- The requests of an operation that are answered leave; a write that its home has yet to perform stays. -/
def State.dropAnswered (s : State) (o : Nat) : State :=
  { s with work := { s.work with reqs := s.work.reqs.filter fun r => r.2.op != o || match r.2.st with
      | .pending _ => true
      | _ => false } }
/-- The access bits of an operation's instruction, and the address that a lane's fault reports. -/
def GI.accOf (e : GI) (op : Op) : Nat :=
  match e.planFor op with
  | some p => p.acc
  | none => 1
def State.faultAddr (s : State) (o : Nat) (op : Op) (l : Nat) : Nat :=
  match (s.reqsOf o).find? fun r => r.2.lane == l && (r.2.st == .error) with
  | some r => r.2.va
  | none => vaOf (globalAddr (op.svals.getD 0 0) (64 * (laneVal (op.vvals.getD 0 []) l).toNat))
/-- The completion fault of an operation that has left: POISON, or else DIEOFF, which reissues the failed lanes (R201); of the two
only the first that applies (R105). -/
def State.endFaults (s : State) (f : Fin) (op : Op) (acc addr : Nat) : State :=
  if f.poison ≠ 0 then s.owe op.gid ⟨.poison, 256 * acc, op.pos.word, f.poison, op.pos, false⟩
  else if f.off = 0 then s
  else
    (s.modGroup op.gid fun g => { g with redo := some (op.pos, f.off) }).owe op.gid ⟨.dieoff, 256 * acc, addr, f.off, op.pos, false⟩
/-- An operation of a group completes. -/
def GI.complete (e : GI) (s : State) (o : Nat) (op : Op) (f : Fin) : State :=
  let addr := s.faultAddr o op ((lanesOf f.off).headD 0)
  if f.phys then f.s.raise op.gid ⟨.physrange, 0, 0, op.lanes, op.pos, false⟩
  else
    let s1 := f.s.modRegs op.gid fun r => f.writes.foldl Regs.apply r
    let s2 := s1.arithAt op.gid op.mode op.pos.h f.exc f.lanes (s1.gtOf op.core)
    let s3 := s2.modOp o fun x => { x with w := max x.w f.w }
    ((s3.dropAnswered o).retireOp o).endFaults f op (e.accOf op) addr

/-! ### The firmware's accesses (R311) -/

/-- The routine ends with every access passed: the results are written, and the group goes on behind the instruction. Poison
leaves a load's registers unchanged (R311). After an error reply the lanes that have an answer to every byte are performed, their
registers written, and the reissue performs the others alone (R201; against R311's words on registers, DEDUCED, log entry
104). -/
def GI.emulDone (e : GI) (s : State) (o : Nat) (op : Op) (p : Plan) (all : List EByte) : State :=
  let q := s.reqsOf o
  let f := Fin.ofReqs q [] s
  let s1 := ((s.modOp o fun x => { x with w := max x.w f.w }).dropAnswered o).retireOp o
  let addr := s.faultAddr o op ((lanesOf f.off).headD 0)
  if f.poison ≠ 0 then (s1.emulLeave op.gid op.instr op.pos).endFaults f op p.acc addr
  else
    let good : Mask := op.lanes &&& ~~~f.off
    let read (x : EByte) : List Byte := (localPiece .load x.size e.team.loc x.piece).1
    let bytes (l : Nat) : List Byte :=
      if p.at_ = .loc then (all.filter fun x => x.piece.lane == l).flatMap read
      else (q.filter fun r => r.2.lane == l).flatMap fun r => r.2.val
    let size := (all.filter fun x => x.piece.lane == (lanesOf good).headD 0).foldl (fun n x => n + x.size) 0
    let sparse := (lanesOf good).filter fun l => decide ((bytes l).length < size)
    let w := loadWrites op.instr good sparse fun l => if sparse.contains l then none else some (bytes l)
    let s2 := s1.modRegs op.gid fun r => w.foldl Regs.apply r
    if f.off = 0 then s2.emulLeave op.gid op.instr op.pos
    else (s2.leaveFirmware op.gid op.pos).endFaults f op p.acc addr
/-- The routine goes on (R311): it translates the next access and sends it out, with no wait for the answers to those before it, so
that their effects fall in any order (R313). A fault that it meets is delivered once they are answered; what a store has written
before stays written. Behind its last access it waits for every answer. -/
def GI.emulEnd (e : GI) (s : State) (o : Nat) (op : Op) : State :=
  let q := s.reqsOf o
  match e.planFor op with
  | none => s
  | some p =>
    let all := routineBytes op.instr op.svals op.vvals p
    let k := op.misc.headD 0
    let quiet := q.all fun r => r.2.answered
    if q.any fun r => decide (r.2.st = .phys) then s.raise op.gid ⟨.physrange, 0, 0, op.lanes, op.pos, false⟩
    else match all[k]? with
      | none => if quiet then e.emulDone s o op p all else s
      | some x =>
        let go (t : State) : State := t.modOp o fun y => { y with misc := [k + 1] }
        match p.byteStep (coreTlb op.core) (coreDie op.core) e.ctx op.user s x with
        | (.moving, _) => s
        | (.fault st kind addr lane, s1) => if quiet then ((s1.dropAnswered o).retireOp o).emulFault op.gid p.acc st kind addr lane else s
        | (.go none, s1) => go s1
        | (.go (some tr), s1) =>
          if p.at_ = .loc then
            if p.write then go (s1.modTeam e.g.team fun t => { t with loc := (localPiece p.kind x.size t.loc x.piece).2 }) else go s1
          else go (s1.sendPieces { p with size := x.size } op.gid o op.core (coreDie op.core) e.ctx e.team.launch [(x.piece, tr)])
/-- A span's store completes: every store of it was at its home when it issued (R27). Where the span has been saved meanwhile,
the records of its launch's spans keep the W, since they may be pieces of it (R41). -/
def State.spanEnd (s : State) (o : Nat) (op : Op) : State :=
  let q := s.reqsOf o
  if q.all fun r => r.2.answered then
    let w := q.foldl (fun a r => max a r.2.w) 0
    let s1 := ((s.modOp o fun x => { x with w := max x.w w }).dropAnswered o).retireOp o
    let lid := (tget s1.saved op.gid).map (·.launch)
    let note (x : Saved) : Saved := { x with span := x.span.map fun y => { y with maxW := lmod y.maxW Path.core.code (max w) } }
    { s1 with saved := s1.saved.map fun x => (x.1, if lid = some x.2.launch then note x.2 else x.2) }
  else s
/-- The signal of a child launch: one is added to its word; a fault on it goes to the context's error log ring, whatever its
status (R243). An address beyond the address space is that of a pointer that is not canonical. -/
def State.spawnSignal (s : State) (o va c : Nat) : State :=
  let log (t : State) (st : Nat) : State := (t.logRecord c (packF [(0x03, 0), (st, 8)]) (va % 2 ^ 56) 0 t.gt).delOp o
  if 2 ^ 56 ≤ va then log s 0x06
  else match s.devAdd 0 c va 1 with
    | (.ok _, s1) => s1.delOp o
    | (.error st, s1) => if st = stMoving then s else log s1 st
/-- What the device owes, as an operation of no group. A release is made once GT has passed what it releases by more than 2 ns: a
child launch's signal (R243), or the end-of-draw signal of a draw whose context has ended (R426). A record, or the writes of a
save area, that had to wait are tried again (R326, R352). -/
def State.releaseEnd (s : State) (o : Nat) (op : Op) : State :=
  if s.gt ≤ op.w + 2 then s
  else match op.instr, op.misc with
    | .spawn _ _ _ _ _, [va, c] => s.spawnSignal o va c
    | .trap _, c :: ws => s.recordAgain o c ws
    | .pyield, [c, die] => s.savesAgain o c die
    | _, [pa, key] => (s.devStore pa key (toBytes 8 (ofBytes (s.physFuture pa 8 key) + 1))).2.delOp o
    | _, _ => s.delOp o
/-- LONG_OP_COMPLETE: an outstanding operation completes, if what it waits for has come. -/
def execLongOpComplete (op : Nat) (s : State) : Host.Outcome State Fault Refusal :=
  s.event fun s =>
    match tget s.work.ops op with
    | none => s
    | some p =>
      if p.gid = 0 then s.releaseEnd op p
      else match s.gi p.gid p.instr with
      | none => s.spanEnd op p
      | some e =>
        if p.flag = 15 then (if e.g.ctl.emul = some op then e.emulEnd s op p else s)
        else if s.acqHeld op p then s
        else match e.opEnd s op p with
          | .error s1 => s1
          | .ok f => e.complete s op p f

/-! ### Handlers, groups, spans -/

/-- TRAP_HANDLER_ENTRY: a trapped group whose flags are clear enters its handler; in the firmware's routine, its
accesses set out (R311, R373). -/
def execTrapHandlerEntry (gid : Nat) (s : State) : Host.Outcome State Fault Refusal :=
  s.event fun s =>
    match tget s.groups gid with
    | none => s
    | some g => if g.ctl.emul = some 0 then s.emulStart gid else s.enterTrap gid
/-- GROUP_END: a group without lanes ends once its flags are clear, and its arrivals (R132) and exceptions (R78) have taken
effect. -/
def execGroupEnd (gid : Nat) (s : State) : Host.Outcome State Fault Refusal :=
  s.event fun s =>
    match tget s.groups gid with
    | none => s
    | some g =>
      if g.ctl.ending && g.flagsClear && g.late.isEmpty && g.ctl.trap.isNone && !(s.work.arrives.any fun a => a.2.gid == gid) then
        let w := s.awaitOf gid fun _ => false
        let s1 := s.modTeam g.team fun t =>
          { t with left := { t.left with copies := t.left.copies ++ w.copies, draws := t.left.draws ++ w.draws } }
        ((s1.dropGroup gid).barsCheck g.team).teamCheck g.team
      else s
/-- TEAM_EXPAND: the next team of a parked span is allocated and expands into groups (R30, R32). -/
def execTeamExpand (span : Nat) (s : State) : Host.Outcome State Fault Refusal :=
  s.event fun s =>
    match tget s.spans span with
    | none => s
    | some x =>
      if x.park ≠ .expand then s
      else match s.expandOne span with
        | some s1 => s1.settle x.core
        | none => s

end Sys2Proof.Machine
end

