-- ==== Sys2Proof/Machine/CrossLane.lean ====
section
/-! DEFINITION. Cross-lane instructions (R186 to R196): shuffles, quads, reductions and scans, reading one
lane, ballots, votes and matches. Every one of them materialises a span. -/
namespace Sys2Proof.Machine

/-! ### Sub-groups (R186) -/

/-- G, the lanes of a sub-group. -/
def subG (m : Word) : Nat := 2 ^ mSubg m
/-- The first lane of a lane's sub-group. -/
def subBase (m : Word) (l : Nat) : Nat := l / subG m * subG m
/-- The lanes of a lane's sub-group, ascending. -/
def subLanes (m : Word) (l : Nat) : List Nat := (List.range (subG m)).map (subBase m l + ·)

/-! ### Shuffles (R188) -/

/-- A lane's source: none when it is out of range or does not contribute. `src` gives the source position from
G, the lane's position and the lane, or none when it is out of range below. -/
def shflSource (e : GI) (src : Nat → Nat → Nat → Option Nat) (l : Nat) : Option Nat :=
  let g := subG e.mode
  match src g (l % g) l with
  | none => none
  | some i =>
    if g ≤ i then none
    else if inMask e.g.active (subBase e.mode l + i) then some (subBase e.mode l + i) else none
/-- A shuffle. -/
def shflOp (i : Instr) (d a : Nat) (oob : Bool) (src : GI → Nat → Nat → Nat → Option Nat) (s : State) :
    Host.Outcome State Fault Refusal :=
  s.issue i
    (fun e s =>
      let from_ := shflSource e (src e)
      .done (s.modRegs e.gid fun r =>
        let r1 := r.setV d e.lanes fun l => e.g.regs.vl a ((from_ l).getD l)
        if oob then r1.setPr 13 e.lanes (maskOf fun l => (from_ l).isNone) else r1))
    matSpan
/-- The source position `n` below. -/
def srcUp (n i : Nat) : Option Nat := if n ≤ i then some (i - n) else none
def execShflIdx (d a : Nat) (oob : Bool) (b : Nat) (s : State) : Host.Outcome State Fault Refusal :=
  shflOp (.shflIdx d a oob b) d a oob (fun e _ _ l => some (e.g.regs.vl b l).toNat) s
def execShflUp (d a : Nat) (oob : Bool) (n : Nat) (s : State) : Host.Outcome State Fault Refusal :=
  shflOp (.shflUp d a oob n) d a oob (fun _ _ i _ => srcUp n i) s
def execShflDn (d a : Nat) (oob : Bool) (n : Nat) (s : State) : Host.Outcome State Fault Refusal :=
  shflOp (.shflDn d a oob n) d a oob (fun _ _ i _ => some (i + n)) s
def execShflXor (d a : Nat) (oob : Bool) (n : Nat) (s : State) : Host.Outcome State Fault Refusal :=
  shflOp (.shflXor d a oob n) d a oob (fun _ _ i _ => some (i ^^^ n)) s
def execShflUpw (d a : Nat) (oob : Bool) (k : Nat) (s : State) : Host.Outcome State Fault Refusal :=
  shflOp (.shflUpw d a oob k) d a oob (fun _ g i _ => srcUp (g / 2 ^ k) i) s
def execShflDnw (d a : Nat) (oob : Bool) (k : Nat) (s : State) : Host.Outcome State Fault Refusal :=
  shflOp (.shflDnw d a oob k) d a oob (fun _ g i _ => some (i + g / 2 ^ k)) s
def execShflXorw (d a : Nat) (oob : Bool) (k : Nat) (s : State) : Host.Outcome State Fault Refusal :=
  shflOp (.shflXorw d a oob k) d a oob (fun _ g i _ => some (i ^^^ g / 2 ^ k)) s

/-! ### Quads (R189, R190) -/

/-- QSWAP. -/
def execQswap (d a : Nat) (r : QDir) (s : State) : Host.Outcome State Fault Refusal :=
  s.issue (.qswap d a r)
    (fun e s =>
      let src (l : Nat) : Nat := l / 4 * 4 + (l % 4 ^^^ r.code)
      .done (s.modRegs e.gid fun q => q.setV d e.lanes fun l =>
        e.g.regs.vl a (if inMask e.g.active (src l) then src l else l)))
    matSpan
/-- A difference within quads: `pr` gives the positions subtracted, the first from the second, for a position. -/
def quadDiff (i : Instr) (d a : Nat) (pr : Nat → Nat × Nat) (s : State) : Host.Outcome State Fault Refusal :=
  s.issue i
    (fun e s =>
      let m := e.mode
      let el (l k : Nat) : Nat := nfld (e.g.regs.vl a l).toNat (modeW m * k) (modeW m)
      floatFx (drawsUnder m) (modeW m) (modeN m)
        (fun q val => q.setV d e.lanes fun l => BitVec.ofNat 32 (val l))
        (fun l k x =>
          let lo := l / 4 * 4 + (pr (l % 4)).1
          let hi := l / 4 * 4 + (pr (l % 4)).2
          if inMask e.g.active lo && inMask e.g.active hi then
            fElem (modeFmt m) (mEnv m) .sub (el hi k) (el lo k) 0 x
          else (0, 0)) e s)
    matSpan
def execQddx (d a : Nat) (c : Bool) (s : State) : Host.Outcome State Fault Refusal :=
  quadDiff (.qddx d a c) d a (fun q => if c || decide (q < 2) then (0, 1) else (2, 3)) s
def execQddy (d a : Nat) (c : Bool) (s : State) : Host.Outcome State Fault Refusal :=
  quadDiff (.qddy d a c) d a (fun q => if c || q % 2 == 0 then (0, 2) else (1, 3)) s

/-! ### Reductions and scans (R191, R192) -/

/-- One step of a reduction on lane values, packed elements for the float operations. -/
def redStep (m : Word) (o : RedOp) (a b : Nat) : Nat × Exc :=
  let fl (op : FOp) : Nat × Exc :=
    let w := modeW m
    let r := elemsFrom w false (fun k x => fElem (modeFmt m) (mEnv m) op (nfld a (w * k) w) (nfld b (w * k) w) 0 x) 0 (modeN m) 1
    (r.1, r.2.1)
  match o with
  | .iadd => ((a + b) % 2 ^ 32, 0)
  | .imin => (iElem .smin 32 false false a b 0, 0)
  | .imax => (iElem .smax 32 false false a b 0, 0)
  | .iminn => (min a b, 0)
  | .imaxn => (max a b, 0)
  | .iand => (a &&& b, 0)
  | .ior => (a ||| b, 0)
  | .ixor => (a ^^^ b, 0)
  | .fadd => fl .add
  | .fmin => fl .fmin
  | .fmax => fl .fmax
/-- The identity of an operation (R192), in every element. -/
def redIdentity (m : Word) (o : RedOp) : Nat :=
  let fl (x : Nat) : Nat := (List.range (modeN m)).foldl (fun acc k => acc + x * 2 ^ (modeW m * k)) 0
  match o with
  | .iadd => 0
  | .imin => 0x7FFFFFFF
  | .imax => 0x80000000
  | .iminn => 0xFFFFFFFF
  | .imaxn => 0
  | .iand => 0xFFFFFFFF
  | .ior => 0
  | .ixor => 0
  | .fadd => fl (modeFmt m).signAt
  | .fmin => fl (modeFmt m).infPat
  | .fmax => fl ((modeFmt m).infPat + (modeFmt m).signAt)
/-- A value on its way through the tree, with the exceptions that it carries, and whether a step has formed it; none is the
absent value. -/
abbrev RedVal := Option (Nat × Exc × Bool)
/-- Op over values that may be absent (R191). -/
def redComb (m : Word) (o : RedOp) (x y : RedVal) : RedVal :=
  match x, y with
  | none, b => b
  | a, none => a
  | some a, some b =>
    let r := redStep m o a.1 b.1
    some (r.1, a.2.1 ||| b.2.1 ||| r.2, true)
/-- The values before the first stage. -/
def redStart (e : GI) (a : Nat) : List RedVal :=
  laneIx.map fun l => if inMask e.g.active l then some ((e.g.regs.vl a l).toNat, 0, false) else none
/-- The tree of REDLOG. -/
def redTree (m : Word) (o : RedOp) (v : List RedVal) : List RedVal :=
  (List.range (mSubg m)).foldl (fun v t =>
    laneIx.map fun l => if l % 2 ^ (t + 1) = 0 then redComb m o (v.getD l none) (v.getD (l + 2 ^ t) none) else v.getD l none) v
/-- The stages of SCANLOG. -/
def scanTree (m : Word) (o : RedOp) (v : List RedVal) : List RedVal :=
  (List.range (mSubg m)).foldl (fun v t =>
    laneIx.map fun l => if 2 ^ t ≤ l % subG m then redComb m o (v.getD (l - 2 ^ t) none) (v.getD l none) else v.getD l none) v
/-- Whether an operation works on floating-point elements. -/
def redFloat : RedOp → Bool
  | .fadd => true
  | .fmin => true
  | .fmax => true
  | _ => false
/-- A value that no step has formed, as an arithmetic result: its elements unrounded, but a NaN is the canonical one, and
invalid when it was signalling (R64); an infinity is clamped under SAT (R72). -/
def redAlone (m : Word) (o : RedOp) (x : Nat) : Nat × Exc :=
  if !redFloat o then (x, 0)
  else
    let f := modeFmt m
    let w := modeW m
    let r := elemsFrom w false (fun k _ =>
      let a := nfld x (w * k) w
      match f.value a with
      | .nan s => (f.nanPat, if s then excIV else 0)
      | .inf n => f.round (mEnv m) (.inf n) 0
      | _ => (a, 0)) 0 (modeN m) 1
    (r.1, r.2.1)
/-- What a lane takes from its value: one that op has formed as it is, a lone contributor or the identity as an arithmetic
result (R64, R72, R191). -/
def redLane (m : Word) (o : RedOp) : RedVal → Nat × Exc
  | some (x, c, true) => (x, c)
  | some (x, _, false) => redAlone m o x
  | none => redAlone m o (redIdentity m o)
/-- A reduction or scan's end: every lane's value, or the identity where it is absent, and the exceptions that
the written results carry. -/
def redFx (o : RedOp) (d : Nat) (res : GI → Nat → RedVal) (e : GI) (s : State) : Fx :=
  let out (l : Nat) : Nat × Exc := redLane e.mode o (res e l)
  let x := excOf e.lanes (laneIx.map fun l => ((out l).1, (out l).2, (0 : Word)))
  .done ((s.modRegs e.gid fun r => r.setV d e.lanes fun l => BitVec.ofNat 32 (out l).1).raised e x.1 x.2)
def execRedlog (d a : Nat) (o : RedOp) (s : State) : Host.Outcome State Fault Refusal :=
  s.issue (.redlog d a o)
    (fun e s =>
      let t := redTree e.mode o (redStart e a)
      redFx o d (fun e l => t.getD (subBase e.mode l) none) e s)
    matSpan
def execScanlog (d a : Nat) (excl : Bool) (o : RedOp) (s : State) : Host.Outcome State Fault Refusal :=
  s.issue (.scanlog d a excl o)
    (fun e s =>
      let t := scanTree e.mode o (redStart e a)
      redFx o d (fun e l =>
        if excl then (if l % subG e.mode = 0 then none else t.getD (l - 1) none) else t.getD l none) e s)
    matSpan

/-! ### One lane, ballots, votes (R193, R194) -/

def execRdfirst (d a : Nat) (w : Bool) (s : State) : Host.Outcome State Fault Refusal :=
  s.issue (.rdfirst d a w)
    (fun e s => match (lanesOf e.g.active).head? with
      | some l => .done (s.modRegs e.gid fun r =>
          r.setS d (BitVec.ofNat 64 (if w then e.g.regs.vp a l else (e.g.regs.vl a l).toNat)))
      | none => .done s)
    matSpan
def execRdlane (d a b : Nat) (s : State) : Host.Outcome State Fault Refusal :=
  s.issue (.rdlane d a b)
    (fun e s =>
      let l := (e.g.regs.sr b).toNat
      if l < 64 ∧ inMask e.g.active l then
        .done (s.modRegs e.gid fun r => r.setS d ((e.g.regs.vl a l).setWidth 64))
      else .done s)
    matSpan
/-- The mask of a lane's sub-group: bit i when position i contributes and meets a test of its lane. -/
def subMask (e : GI) (l : Nat) (p : Nat → Bool) : Nat :=
  ((subLanes e.mode l).zipIdx.filter fun x => inMask e.g.active x.1 && p x.1).foldl (fun acc x => acc + 2 ^ x.2) 0
def execBallot (d a : Nat) (s : State) : Host.Outcome State Fault Refusal :=
  s.issue (.ballot d a)
    (fun e s => .done (s.modRegs e.gid fun r =>
      r.setP2 d e.lanes fun l => subMask e l (inMask (e.g.regs.pr a))))
    matSpan
/-- A vote over the contributing lanes of a sub-group. -/
def voteOf (o : VoteOp) (l : List Bool) : Bool :=
  match o with
  | .all => l.all id
  | .any => l.any id
  | .eq => l.all id || l.all not
def execVote (d a : Nat) (o : VoteOp) (s : State) : Host.Outcome State Fault Refusal :=
  s.issue (.vote d a o)
    (predwise d fun e => maskOf fun l =>
      voteOf o (((subLanes e.mode l).filter (inMask e.g.active)).map (inMask (e.g.regs.pr a))))
    matSpan

/-! ### Matches (R195) -/

def execVmatch (d a : Nat) (s : State) : Host.Outcome State Fault Refusal :=
  s.issue (.vmatch d a)
    (fun e s => .done (s.modRegs e.gid fun r =>
      r.setP2 d e.lanes fun l => subMask e l fun k => e.g.regs.vl a k == e.g.regs.vl a l))
    matSpan
def execVmatchf (d a : Nat) (s : State) : Host.Outcome State Fault Refusal :=
  s.issue (.vmatchf d a)
    (fun e s =>
      let ftz := mFtz e.mode
      let x (l : Nat) : Nat := (e.g.regs.vl a l).toNat
      let iv := maskOf fun l => inMask e.lanes l &&
        (subLanes e.mode l).any fun k => inMask e.g.active k && (fmtF32.input ftz (x k)).snan != 0
      let s1 := s.modRegs e.gid fun r => r.setP2 d e.lanes fun l => subMask e l fun k => (fCompare .eq ftz (x k) (x l)).1
      .done (s1.raised e (if iv = 0 then 0 else excIV) iv))
    matSpan

end Sys2Proof.Machine
end

