-- ==== Sys2Proof/Machine/Dispatch.lean ====
section
/-! DEFINITION. Which meaning runs which instruction: one arm per constructor, nothing else. -/
namespace Sys2Proof.Machine

/-- The effect of one instruction or event on the machine. -/
def exec (i : Instr) (s : State) : Host.Outcome State Fault Refusal :=
  match i with
  | .clauseStart a b c d => Sys2Proof.Machine.execClauseStart a b c d s
  | .iadd a b c => Sys2Proof.Machine.execIadd a b c s
  | .isub a b c => Sys2Proof.Machine.execIsub a b c s
  | .imul a b c => Sys2Proof.Machine.execImul a b c s
  | .imulhi a b c => Sys2Proof.Machine.execImulhi a b c s
  | .imulhn a b c => Sys2Proof.Machine.execImulhn a b c s
  | .imad a b c => Sys2Proof.Machine.execImad a b c s
  | .iand a b c => Sys2Proof.Machine.execIand a b c s
  | .ior a b c => Sys2Proof.Machine.execIor a b c s
  | .ixor a b c => Sys2Proof.Machine.execIxor a b c s
  | .ishl a b c => Sys2Proof.Machine.execIshl a b c s
  | .ishr a b c => Sys2Proof.Machine.execIshr a b c s
  | .isra a b c => Sys2Proof.Machine.execIsra a b c s
  | .imin a b c => Sys2Proof.Machine.execImin a b c s
  | .imax a b c => Sys2Proof.Machine.execImax a b c s
  | .iminn a b c => Sys2Proof.Machine.execIminn a b c s
  | .imaxn a b c => Sys2Proof.Machine.execImaxn a b c s
  | .iabs a b => Sys2Proof.Machine.execIabs a b s
  | .clz a b => Sys2Proof.Machine.execClz a b s
  | .popc a b => Sys2Proof.Machine.execPopc a b s
  | .brev a b => Sys2Proof.Machine.execBrev a b s
  | .bfe a b c => Sys2Proof.Machine.execBfe a b c s
  | .bfi a b c => Sys2Proof.Machine.execBfi a b c s
  | .intlv2 a b c => Sys2Proof.Machine.execIntlv2 a b c s
  | .intlv3 a b c => Sys2Proof.Machine.execIntlv3 a b c s
  | .mov a b => Sys2Proof.Machine.execMov a b s
  | .movs a b c => Sys2Proof.Machine.execMovs a b c s
  | .icmp a b c d e => Sys2Proof.Machine.execIcmp a b c d e s
  | .iaddi a b c => Sys2Proof.Machine.execIaddi a b c s
  | .ishli a b c => Sys2Proof.Machine.execIshli a b c s
  | .movi a b => Sys2Proof.Machine.execMovi a b s
  | .movhi a b => Sys2Proof.Machine.execMovhi a b s
  | .idx a b => Sys2Proof.Machine.execIdx a b s
  | .sread a b c => Sys2Proof.Machine.execSread a b c s
  | .mater => Sys2Proof.Machine.execMater s
  | .spanq a => Sys2Proof.Machine.execSpanq a s
  | .setmodeReg a b => Sys2Proof.Machine.execSetmodeReg a b s
  | .setmodeImm a b => Sys2Proof.Machine.execSetmodeImm a b s
  | .getmode a => Sys2Proof.Machine.execGetmode a s
  | .isel a b c d => Sys2Proof.Machine.execIsel a b c d s
  | .pand a b c => Sys2Proof.Machine.execPand a b c s
  | .por a b c => Sys2Proof.Machine.execPor a b c s
  | .pxor a b c => Sys2Proof.Machine.execPxor a b c s
  | .pandn a b c => Sys2Proof.Machine.execPandn a b c s
  | .pcnt a b => Sys2Proof.Machine.execPcnt a b s
  | .pfirst a b => Sys2Proof.Machine.execPfirst a b s
  | .ptos a b c => Sys2Proof.Machine.execPtos a b c s
  | .stop a b c => Sys2Proof.Machine.execStop a b c s
  | .sadd a b c d => Sys2Proof.Machine.execSadd a b c d s
  | .ssub a b c d => Sys2Proof.Machine.execSsub a b c d s
  | .smul a b c d => Sys2Proof.Machine.execSmul a b c d s
  | .smulh a b c d e => Sys2Proof.Machine.execSmulh a b c d e s
  | .sand a b c d => Sys2Proof.Machine.execSand a b c d s
  | .sor a b c d => Sys2Proof.Machine.execSor a b c d s
  | .sxor a b c d => Sys2Proof.Machine.execSxor a b c d s
  | .sshl a b c d => Sys2Proof.Machine.execSshl a b c d s
  | .sshr a b c d => Sys2Proof.Machine.execSshr a b c d s
  | .ssra a b c d => Sys2Proof.Machine.execSsra a b c d s
  | .smin a b c d e => Sys2Proof.Machine.execSmin a b c d e s
  | .smax a b c d e => Sys2Proof.Machine.execSmax a b c d e s
  | .scmp a b => Sys2Proof.Machine.execScmp a b s
  | .ssel a b c d => Sys2Proof.Machine.execSsel a b c d s
  | .smov a b => Sys2Proof.Machine.execSmov a b s
  | .smovi a b => Sys2Proof.Machine.execSmovi a b s
  | .saddImm a b c => Sys2Proof.Machine.execSaddImm a b c s
  | .smovhi a b c => Sys2Proof.Machine.execSmovhi a b c s
  | .fadd a b c => Sys2Proof.Machine.execFadd a b c s
  | .fsub a b c => Sys2Proof.Machine.execFsub a b c s
  | .fmul a b c => Sys2Proof.Machine.execFmul a b c s
  | .fmad a b c => Sys2Proof.Machine.execFmad a b c s
  | .fmsb a b c => Sys2Proof.Machine.execFmsb a b c s
  | .fmin a b c => Sys2Proof.Machine.execFmin a b c s
  | .fmax a b c => Sys2Proof.Machine.execFmax a b c s
  | .fneg a b => Sys2Proof.Machine.execFneg a b s
  | .fabs a b => Sys2Proof.Machine.execFabs a b s
  | .fcmp a b c d => Sys2Proof.Machine.execFcmp a b c d s
  | .fclass a b => Sys2Proof.Machine.execFclass a b s
  | .frndi a b => Sys2Proof.Machine.execFrndi a b s
  | .fscale a b c => Sys2Proof.Machine.execFscale a b c s
  | .fdot2 a b c => Sys2Proof.Machine.execFdot2 a b c s
  | .cvt a b c d => Sys2Proof.Machine.execCvt a b c d s
  | .cvti a b c d => Sys2Proof.Machine.execCvti a b c d s
  | .packb a b c => Sys2Proof.Machine.execPackb a b c s
  | .permb a b c => Sys2Proof.Machine.execPermb a b c s
  | .qcvt a b c => Sys2Proof.Machine.execQcvt a b c s
  | .setseed a b => Sys2Proof.Machine.execSetseed a b s
  | .rcp a b => Sys2Proof.Machine.execRcp a b s
  | .rsq a b => Sys2Proof.Machine.execRsq a b s
  | .sqrt a b => Sys2Proof.Machine.execSqrt a b s
  | .exp2 a b => Sys2Proof.Machine.execExp2 a b s
  | .log2 a b => Sys2Proof.Machine.execLog2 a b s
  | .sint a b => Sys2Proof.Machine.execSint a b s
  | .cost a b => Sys2Proof.Machine.execCost a b s
  | .tanh a b => Sys2Proof.Machine.execTanh a b s
  | .shflIdx a b c d => Sys2Proof.Machine.execShflIdx a b c d s
  | .shflUp a b c d => Sys2Proof.Machine.execShflUp a b c d s
  | .shflDn a b c d => Sys2Proof.Machine.execShflDn a b c d s
  | .shflXor a b c d => Sys2Proof.Machine.execShflXor a b c d s
  | .shflUpw a b c d => Sys2Proof.Machine.execShflUpw a b c d s
  | .shflDnw a b c d => Sys2Proof.Machine.execShflDnw a b c d s
  | .shflXorw a b c d => Sys2Proof.Machine.execShflXorw a b c d s
  | .qswap a b c => Sys2Proof.Machine.execQswap a b c s
  | .qddx a b c => Sys2Proof.Machine.execQddx a b c s
  | .qddy a b c => Sys2Proof.Machine.execQddy a b c s
  | .redlog a b c => Sys2Proof.Machine.execRedlog a b c s
  | .scanlog a b c d => Sys2Proof.Machine.execScanlog a b c d s
  | .rdfirst a b c => Sys2Proof.Machine.execRdfirst a b c s
  | .rdlane a b c => Sys2Proof.Machine.execRdlane a b c s
  | .ballot a b => Sys2Proof.Machine.execBallot a b s
  | .vote a b c => Sys2Proof.Machine.execVote a b c s
  | .vmatch a b => Sys2Proof.Machine.execVmatch a b s
  | .vmatchf a b => Sys2Proof.Machine.execVmatchf a b s
  | .mendl a => Sys2Proof.Machine.execMendl a s
  | .bra a b => Sys2Proof.Machine.execBra a b s
  | .brz a b => Sys2Proof.Machine.execBrz a b s
  | .brnz a b => Sys2Proof.Machine.execBrnz a b s
  | .call a => Sys2Proof.Machine.execCall a s
  | .mif a b => Sys2Proof.Machine.execMif a b s
  | .melse a => Sys2Proof.Machine.execMelse a s
  | .mbrk a b => Sys2Proof.Machine.execMbrk a b s
  | .mcont a b => Sys2Proof.Machine.execMcont a b s
  | .ld a b c d e f => Sys2Proof.Machine.execLd a b c d e f s
  | .st a b c d e => Sys2Proof.Machine.execSt a b c d e s
  | .lds a b c => Sys2Proof.Machine.execLds a b c s
  | .sts a b c => Sys2Proof.Machine.execSts a b c s
  | .ldl a b c d => Sys2Proof.Machine.execLdl a b c d s
  | .stl a b c d => Sys2Proof.Machine.execStl a b c d s
  | .ldc a b c d => Sys2Proof.Machine.execLdc a b c d s
  | .stc a b c d => Sys2Proof.Machine.execStc a b c d s
  | .ldp a b c d e => Sys2Proof.Machine.execLdp a b c d e s
  | .stp a b c d e => Sys2Proof.Machine.execStp a b c d e s
  | .atom a b c d e f g h k => Sys2Proof.Machine.execAtom a b c d e f g h k s
  | .atoml a b c d e f g h => Sys2Proof.Machine.execAtoml a b c d e f g h s
  | .atomc a b c d e f g => Sys2Proof.Machine.execAtomc a b c d e f g s
  | .redst a b c d e f g => Sys2Proof.Machine.execRedst a b c d e f g s
  | .redc a b c d e => Sys2Proof.Machine.execRedc a b c d e s
  | .fence a => Sys2Proof.Machine.execFence a s
  | .xfence a b => Sys2Proof.Machine.execXfence a b s
  | .bar a b => Sys2Proof.Machine.execBar a b s
  | .bararr a b => Sys2Proof.Machine.execBararr a b s
  | .barwait a => Sys2Proof.Machine.execBarwait a s
  | .bcinit a b => Sys2Proof.Machine.execBcinit a b s
  | .bcwait a b => Sys2Proof.Machine.execBcwait a b s
  | .cpyk a b => Sys2Proof.Machine.execCpyk a b s
  | .claim a b c => Sys2Proof.Machine.execClaim a b c s
  | .pin a b => Sys2Proof.Machine.execPin a b s
  | .unpin a b => Sys2Proof.Machine.execUnpin a b s
  | .pref a b c d => Sys2Proof.Machine.execPref a b c d s
  | .tagset a b c => Sys2Proof.Machine.execTagset a b c s
  | .tagget a b c => Sys2Proof.Machine.execTagget a b c s
  | .cacheop a b c => Sys2Proof.Machine.execCacheop a b c s
  | .pubw a b => Sys2Proof.Machine.execPubw a b s
  | .acqw a b => Sys2Proof.Machine.execAcqw a b s
  | .mbxsend a b c => Sys2Proof.Machine.execMbxsend a b c s
  | .mbxrecv a b => Sys2Proof.Machine.execMbxrecv a b s
  | .spawn a b c d e => Sys2Proof.Machine.execSpawn a b c d e s
  | .tdesc a b c => Sys2Proof.Machine.execTdesc a b c s
  | .azero a => Sys2Proof.Machine.execAzero a s
  | .mma a b c d => Sys2Proof.Machine.execMma a b c d s
  | .mmap a b c d => Sys2Proof.Machine.execMmap a b c d s
  | .mmabs a b c d e => Sys2Proof.Machine.execMmabs a b c d e s
  | .aload a b => Sys2Proof.Machine.execAload a b s
  | .amov a b => Sys2Proof.Machine.execAmov a b s
  | .adrain a b c d => Sys2Proof.Machine.execAdrain a b c d s
  | .agdrain a b c => Sys2Proof.Machine.execAgdrain a b c s
  | .astash a b c => Sys2Proof.Machine.execAstash a b c s
  | .matrixCommandStart a => Sys2Proof.Machine.execMatrixCommandStart a s
  | .hcfg a b => Sys2Proof.Machine.execHcfg a b s
  | .hgather a b c d e => Sys2Proof.Machine.execHgather a b c d e s
  | .hscatter a b c d e => Sys2Proof.Machine.execHscatter a b c d e s
  | .draw a b c d => Sys2Proof.Machine.execDraw a b c d s
  | .drawQueue a => Sys2Proof.Machine.execDrawQueue a s
  | .ordent a b => Sys2Proof.Machine.execOrdent a b s
  | .ordentAdmit a => Sys2Proof.Machine.execOrdentAdmit a s
  | .ordexit => Sys2Proof.Machine.execOrdexit s
  | .ordexitRelease a => Sys2Proof.Machine.execOrdexitRelease a s
  | .tsamp a b c d e f => Sys2Proof.Machine.execTsamp a b c d e f s
  | .rbox a b c d => Sys2Proof.Machine.execRbox a b c d s
  | .rtri a b c d e => Sys2Proof.Machine.execRtri a b c d e s
  | .regroup a => Sys2Proof.Machine.execRegroup a s
  | .regroupRoundClose a b => Sys2Proof.Machine.execRegroupRoundClose a b s
  | .route a b c => Sys2Proof.Machine.execRoute a b c s
  | .xdone a => Sys2Proof.Machine.execXdone a s
  | .csrr a b => Sys2Proof.Machine.execCsrr a b s
  | .csrw a b => Sys2Proof.Machine.execCsrw a b s
  | .trap a => Sys2Proof.Machine.execTrap a s
  | .hret => Sys2Proof.Machine.execHret s
  | .pyield => Sys2Proof.Machine.execPyield s
  | .bkpt a => Sys2Proof.Machine.execBkpt a s
  | .nop => Sys2Proof.Machine.execNop s
  | .exit => Sys2Proof.Machine.execExit s
  | .ret => Sys2Proof.Machine.execRet s
  | .jmps a => Sys2Proof.Machine.execJmps a s
  | .trapu a => Sys2Proof.Machine.execTrapu a s
  | .mend => Sys2Proof.Machine.execMend s
  | .mloop => Sys2Proof.Machine.execMloop s
  | .teamExpand a => Sys2Proof.Machine.execTeamExpand a s
  | .longOpComplete a => Sys2Proof.Machine.execLongOpComplete a s
  | .wWaitSatisfied a => Sys2Proof.Machine.execWWaitSatisfied a s
  | .bararrArrive a => Sys2Proof.Machine.execBararrArrive a s
  | .mbxDeliver a => Sys2Proof.Machine.execMbxDeliver a s
  | .mbxrecvTake a => Sys2Proof.Machine.execMbxrecvTake a s
  | .pubwStore a => Sys2Proof.Machine.execPubwStore a s
  | .copyRequestExecute a => Sys2Proof.Machine.execCopyRequestExecute a s
  | .copyElementWrite a b => Sys2Proof.Machine.execCopyElementWrite a b s
  | .homeRead a b => Sys2Proof.Machine.execHomeRead a b s
  | .homeStoreArrive a b => Sys2Proof.Machine.execHomeStoreArrive a b s
  | .homeStorePerform a => Sys2Proof.Machine.execHomeStorePerform a s
  | .homeAtomic a => Sys2Proof.Machine.execHomeAtomic a s
  | .scratchpadBankOp a => Sys2Proof.Machine.execScratchpadBankOp a s
  | .louvreFilterSwap a b => Sys2Proof.Machine.execLouvreFilterSwap a b s
  | .pageWalk a b c => Sys2Proof.Machine.execPageWalk a b c s
  | .mvRecheck a => Sys2Proof.Machine.execMvRecheck a s
  | .faultQueueWrite a => Sys2Proof.Machine.execFaultQueueWrite a s
  | .trapHandlerEntry a => Sys2Proof.Machine.execTrapHandlerEntry a s
  | .groupEnd a => Sys2Proof.Machine.execGroupEnd a s
  | .launchSubmit a => Sys2Proof.Machine.execLaunchSubmit a s
  | .placePiece a b => Sys2Proof.Machine.execPlacePiece a b s
  | .ctxEnable a => Sys2Proof.Machine.execCtxEnable a s
  | .ctxDisable a => Sys2Proof.Machine.execCtxDisable a s
  | .ctxRelease a => Sys2Proof.Machine.execCtxRelease a s
  | .kickReplay a b c => Sys2Proof.Machine.execKickReplay a b c s
  | .kickResolve a b c => Sys2Proof.Machine.execKickResolve a b c s
  | .kickFrameTick a => Sys2Proof.Machine.execKickFrameTick a s
  | .kickSuspend a => Sys2Proof.Machine.execKickSuspend a s
  | .kickResume a => Sys2Proof.Machine.execKickResume a s
  | .kickDiscard a b => Sys2Proof.Machine.execKickDiscard a b s
  | .replayBegin a => Sys2Proof.Machine.execReplayBegin a s
  | .nodeLaunch a b => Sys2Proof.Machine.execNodeLaunch a b s
  | .nodeBackgroundLaunch a b => Sys2Proof.Machine.execNodeBackgroundLaunch a b s
  | .nodeCopy a b => Sys2Proof.Machine.execNodeCopy a b s
  | .nodeDraw a b => Sys2Proof.Machine.execNodeDraw a b s
  | .nodeSignal a b => Sys2Proof.Machine.execNodeSignal a b s
  | .nodeWait a b => Sys2Proof.Machine.execNodeWait a b s
  | .waitNodePoll a b => Sys2Proof.Machine.execWaitNodePoll a b s
  | .nodeComplete a b => Sys2Proof.Machine.execNodeComplete a b s
  | .frameTick a => Sys2Proof.Machine.execFrameTick a s
  | .budgetExpire a => Sys2Proof.Machine.execBudgetExpire a s
  | .preemptEntry a => Sys2Proof.Machine.execPreemptEntry a s
  | .teamSave a => Sys2Proof.Machine.execTeamSave a s
  | .preemptTimeoutExpire a => Sys2Proof.Machine.execPreemptTimeoutExpire a s
  | .ordTimeoutExpire a => Sys2Proof.Machine.execOrdTimeoutExpire a s
  | .teamResume a b => Sys2Proof.Machine.execTeamResume a b s
  | .rasterDrawStart a b => Sys2Proof.Machine.execRasterDrawStart a b s
  | .fragmentRegister a b => Sys2Proof.Machine.execFragmentRegister a b s
  | .rastTestAndWrite a b => Sys2Proof.Machine.execRastTestAndWrite a b s
  | .drawEnd a b => Sys2Proof.Machine.execDrawEnd a b s
  | .linkFlitReceive a b => Sys2Proof.Machine.execLinkFlitReceive a b s
  | .linkRetryTimeout a => Sys2Proof.Machine.execLinkRetryTimeout a s
  | .routeSwitch a b => Sys2Proof.Machine.execRouteSwitch a b s
  | .warmResetRequest a => Sys2Proof.Machine.execWarmResetRequest a s
  | .warmResetStart a => Sys2Proof.Machine.execWarmResetStart a s
  | .warmResetQuiesce a => Sys2Proof.Machine.execWarmResetQuiesce a s
  | .warmResetRetrain a => Sys2Proof.Machine.execWarmResetRetrain a s
  | .warmResetAdmit a => Sys2Proof.Machine.execWarmResetAdmit a s
  | .barchanWindowEnd => Sys2Proof.Machine.execBarchanWindowEnd s
  | .barchanPublish a => Sys2Proof.Machine.execBarchanPublish a s
  | .xtableEnable a => Sys2Proof.Machine.execXtableEnable a s
  | .xtableDisable a => Sys2Proof.Machine.execXtableDisable a s
  | .xtableRefresh a => Sys2Proof.Machine.execXtableRefresh a s
  | .mapStageA a b c => Sys2Proof.Machine.execMapStageA a b c s
  | .mapStageB a b c => Sys2Proof.Machine.execMapStageB a b c s
  | .mapApply a => Sys2Proof.Machine.execMapApply a s
  | .mapApplySwitch a => Sys2Proof.Machine.execMapApplySwitch a s
  | .retireStack a => Sys2Proof.Machine.execRetireStack a s
  | .retireCellStart a => Sys2Proof.Machine.execRetireCellStart a s
  | .retireRowCopy a => Sys2Proof.Machine.execRetireRowCopy a s
  | .retireCellSwitch a => Sys2Proof.Machine.execRetireCellSwitch a s
  | .unitRequest a => Sys2Proof.Machine.execUnitRequest a s
  | .caravanMoveStart a => Sys2Proof.Machine.execCaravanMoveStart a s
  | .caravanPageCopy a => Sys2Proof.Machine.execCaravanPageCopy a s
  | .caravanMoveEnd a => Sys2Proof.Machine.execCaravanMoveEnd a s
  | .caravanFreetailWrite a b => Sys2Proof.Machine.execCaravanFreetailWrite a b s
  | .caravanEpochEnd a => Sys2Proof.Machine.execCaravanEpochEnd a s
  | .pageCountForward a => Sys2Proof.Machine.execPageCountForward a s
  | .hostMemAccess a b => Sys2Proof.Machine.execHostMemAccess a b s
  | .peerInboundAccess a b c => Sys2Proof.Machine.execPeerInboundAccess a b c s
  | .powerOn => Sys2Proof.Machine.execPowerOn s
  | .mgmtAttest => Sys2Proof.Machine.execMgmtAttest s
  | .mgmtReadCert => Sys2Proof.Machine.execMgmtReadCert s
  | .mgmtRaiseSvn => Sys2Proof.Machine.execMgmtRaiseSvn s
  | .mgmtWarmStart => Sys2Proof.Machine.execMgmtWarmStart s
  | .mgmtColdStart => Sys2Proof.Machine.execMgmtColdStart s
  | .mgmtWriteFlash a b => Sys2Proof.Machine.execMgmtWriteFlash a b s
  | .keyGenerate a => Sys2Proof.Machine.execKeyGenerate a s
  | .keyDestroy a => Sys2Proof.Machine.execKeyDestroy a s
  | .keyQuery a => Sys2Proof.Machine.execKeyQuery a s
  | .keyDiscardDone a => Sys2Proof.Machine.execKeyDiscardDone a s
  | .monitorSample a b c d => Sys2Proof.Machine.execMonitorSample a b c d s
  | .registerWrite a b c => Sys2Proof.Machine.execRegisterWrite a b c s
  | .ctxcmdComplete => Sys2Proof.Machine.execCtxcmdComplete s
  | .mgmtCommandComplete => Sys2Proof.Machine.execMgmtCommandComplete s
  | .keyGenerateComplete a => Sys2Proof.Machine.execKeyGenerateComplete a s
  | .startStepComplete a => Sys2Proof.Machine.execStartStepComplete a s
  | .peerLinkTrain a b c d => Sys2Proof.Machine.execPeerLinkTrain a b c d s

end Sys2Proof.Machine
end

