-- ==== Sys2Proof/Machine/Place.lean ====
section
/-! DEFINITION. One instruction placed where the next step fetches: a context with its page tables, a launch, a team and
a group that stands at a clause which holds the instruction, and the group's turn at the head of the agenda. It stands for
what bring-up, a supervisor and a launch would have done before. -/
namespace Sys2Proof.Machine

/-- Addresses of the placed program: its virtual page, its page tables, and the frames of its code and of page 0. -/
def placeVa : Nat := 0x10000
def placeRoot : Nat := 0x100000
def placeFrame : Nat := 0x200000
def placeData : Nat := 0x300000
/-- Bytes written at the start of a physical line, as its unit stores them, through the platform key slot. -/
def State.placeLine (s : State) (pa : Nat) (data : List Byte) : State :=
  match s.unitOf (pa / 128) with
  | some u => s.unitWrite u 0 data [0, 0, 0, 0] [false, false, false, false]
  | none => s
/-- A table entry that points at the next table, and a leaf of 64 KiB that permits reads, writes, fetches and level U
(R317). -/
def placeTable (pa : Nat) : List Byte := toBytes 8 (pa + 1)
def placeLeaf (pa : Nat) : List Byte := toBytes 8 (pa + 0x1F)
/-- The page tables. -/
def State.placeTables (s : State) : State :=
  (((s.placeLine placeRoot (placeTable (placeRoot + 0x2000))).placeLine (placeRoot + 0x2000) (placeTable (placeRoot + 0x4000))).placeLine
    (placeRoot + 0x4000) (placeTable (placeRoot + 0x6000))).placeLine (placeRoot + 0x6000) (placeLeaf placeData ++ placeLeaf placeFrame)
/-- The words of the placed clause: the instruction behind a header of its length, and a clause that ends the group; a
clause header stands first itself. -/
def placeWords (a b : Nat) : List Nat :=
  let stop := encode (.clauseStart 0 0 6 1) ++ encode .exit
  if isHeader a then [a] ++ stop
  else
    let body := if takesExt a then [a, b] else [a]
    encode (.clauseStart 0 0 6 body.length) ++ body ++ stop
/-- The context. -/
def placeCtx : Ctx :=
  { asid := 1, key := 0, root := placeRoot, place := true, retain := true, fqmsi := false, logmsi := false, cls := .normal,
    budget := 0, tick := 0, svec := placeVa, uvec := 0, saveBase := 0, saveSize := 0, logBase := 0, logLog := 0, logOvf := 0,
    logHead := 0, fqBase := 0, fqLog := 0, fqHead := 0, kickDrop := 0 }
/-- The launch: one team of one group. -/
def placeLaunch (words : List Nat) : Launch :=
  { ctx := 0, ident := 0, gx := 1, gy := 1, tx := 64, ty := 1, nospan := true, coresident := false, quad := false,
    extent := none, cls := .normal, priv := 1024, param := 0, nregs := 128, accs := 16, localB := 65536, csp := 524288,
    entry := placeVa, code := placeVa, words := words.map (BitVec.ofNat 32), lossx := 0, nextT := [1, 0, 0, 0],
    endT := [1, 0, 0, 0], held := [], stopped := false, expired := false, source := .spawn none, order := 0, desc := 0 }
/-- The team. -/
def placeTeam (lid : Nat) (l : Launch) : Team :=
  { launch := lid, tx := 0, ty := 0, core := 0, groups := 1, base := 0, size := l.localB, loc := [],
    accs := List.replicate l.accN Acc.clear, accLive := BitVec.ofNat 64 (2 ^ l.accN - 1),
    bcs := List.replicate 16 BcSlot.reset, bars := List.replicate 16 Bar.reset, age := 0, pre := none, left := ⟨[], [], [], 0⟩ }
/-- The group, its clause entered unless a header is to be its next word. -/
def placeGroup (tid : Nat) (l : Launch) (words : List Nat) (header : Bool) : Group :=
  { team := tid, num := 0, core := 0, quad := 0
    regs := { v := List.replicate l.nregs (List.replicate 64 0), s := l.entryS, p := List.replicate 15 0,
              t := List.replicate 16 0, cc := CC.clear, mode := modeEntry }
    ctl := if header then Ctl.start ⟨placeVa, 0⟩ 15 15 0 else Ctl.start ⟨placeVa, 1⟩ 0 6 (words.headD 0 % 64)
    items := l.itemsOf 0 0 0, active := BitVec.allOnes 64, stack := [], rng := (l.itemsOf 0 0 0).map (l.seed l.ident), sticky := 0, late := [],
    texloops := 0, flags := List.replicate 12 0, tags := [], bankS := TrapBank.reset, bankM := TrapBank.reset,
    latch := ⟨false, 0, 0, []⟩, sect := none, slot := 0, age := 0, lastIssue := 0, maxW := List.replicate 7 0, redo := none }
/-- The state with the instruction whose bits are `w` placed where the next step fetches. -/
def State.placeWord (s : State) (nbits w : Nat) : State :=
  let v := if nbits = 0 then w else w % 2 ^ nbits
  let words := placeWords (v % 2 ^ 32) (v / 2 ^ 32 % 2 ^ 32)
  let l := placeLaunch words
  let lid := s.nextId
  let tid := s.nextId + 1
  let gid := s.nextId + 2
  let s1 : State :=
    { s with
      power := true
      keys := tput s.keys 0 ⟨1, s.keyGen 0⟩
      mgmt := { s.mgmt with starting := none, level := 3 }
      ctxs := tput s.ctxs 0 placeCtx
      launches := tput s.launches lid l
      teams := tput s.teams tid (placeTeam lid l)
      groups := tput s.groups gid (placeGroup tid l words (isHeader (v % 2 ^ 32)))
      nextId := s.nextId + 3
      agenda := .group gid :: s.agenda }
  s1.placeTables.placeLine placeFrame (words.flatMap (toBytes 4))

end Sys2Proof.Machine
end

