-- ==== Sys2Proof/Machine/Turns.lean ====
section
/-! DEFINITION. The order of turns: the agenda, and the default order behind it, in which groups, spans and due events go
on (R18, R369). -/
namespace Sys2Proof.Machine

/-- What a step runs: an instruction or event, or one of the due events whose constructors stand beyond what compiled Lean
can build. -/
inductive Run where
  | instr (i : Instr)
  | drawStart (die r : Nat)
  | fragment (die r : Nat)
  | rast (die r : Nat)
  | drawEnd (die r : Nat)
  | flit (link : Nat)
  | resend (link : Nat)
  | reroute (src dst : Nat)
  | warmStart (die : Nat)
  | warmQuiesce (die : Nat)
  | warmRetrain (die : Nat)
  | warmAdmit (die : Nat)
  | window
  | publish (table : Nat)
  | mapSwitch (region : Nat)
  | cellStart (cell : Nat)
  | rowCopy (cell : Nat)
  | cellSwitch (cell : Nat)
  | unit (req : Nat)
  | moveStart (engine : Nat)
  | pageCopy (engine : Nat)
  | moveEnd (engine : Nat)
  | epoch (engine : Nat)
  | forward (engine : Nat)
  | keyDone (slot : Nat)
  | ctxDone
  | mgmtDone
  | mgmtRun (cmd : Nat)
  | keyGenDone (slot : Nat)
  | start
  | late (gid : Nat)
  deriving DecidableEq, Repr

/-! ### What is due -/

/-- The events that take a memory request further. -/
def State.reqDue (s : State) (n : Nat) (r : Req) : List Run :=
  match r.st with
  | .fresh =>
    if (s.reqNow n).isSome && !(s.mem.unitq.any fun q => !q.2.write && q.2.line == r.pa / 128) then
      (match r.space, r.kind with
       | .scratch _, _ => [.instr (.scratchpadBankOp n)]
       | _, .load => [.instr (.homeRead n true)]
       | _, .tagGet => [.instr (.homeRead n true)]
       | _, .store => [.instr (.homeStoreArrive n false)]
       | _, .tagSet _ => [.instr (.homeStoreArrive n false)]
       | _, _ => [.instr (.homeAtomic n)])
    else []
  | .pending w =>
    if w ≤ s.gtAt (s.homeDie (r.pa / 128)) ∧ ((s.lineCtl (r.pa / 128)).pend.head?.map (·.req) = some n ∨ !s.stands (r.pa / 128) n) then [.instr (.homeStorePerform n)]
    else []
  | _ => []
/-- The events of an outstanding operation. -/
def State.opDue (s : State) (n : Nat) (o : Op) : List Run :=
  match o.st, o.instr with
  | .moving none, _ => [.instr (.mvRecheck n)]
  | .moving _, _ => []
  | .engine, .pubw _ _ => [.instr (.pubwStore n)]
  | .engine, .mbxsend _ _ _ => [.instr (.mbxDeliver n)]
  | .engine, .draw _ _ _ _ => [.instr (.drawQueue n)]
  | .reqs, _ => if o.flag == 15 || (s.reqsOf n).all fun r => r.2.answered then [.instr (.longOpComplete n)] else []
  | _, _ => [.instr (.longOpComplete n)]
/-- The events of a group. -/
def State.groupDue (s : State) (n : Nat) (g : Group) : List Run :=
  (if g.ctl.trap.isSome || g.ctl.emul == some 0 then [.instr (.trapHandlerEntry n)] else []) ++
  (if g.ctl.ending then [.instr (.groupEnd n)] else []) ++
  (if g.ctl.pre = .entering then [.instr (.preemptEntry n)] else []) ++
  (match g.ctl.hold with
   | some (.mbxrecv _ _) => [.instr (.mbxrecvTake n)]
   | some (.ordent _ _) => [.instr (.ordentAdmit n)]
   | some (.regroup _) => (match tget s.teams g.team with
     | some t => [.instr (.regroupRoundClose (coreDie g.core) t.launch)]
     | none => [])
   | some _ => [.instr (.wWaitSatisfied n)]
   | none => []) ++
  (if g.sect.isSome && (match tget s.teams g.team with
    | some t => t.pre.isSome
    | none => false) then [.instr (.ordTimeoutExpire n)] else [])
/-- The events of a copy request. -/
def copyDue (n : Nat) (c : Copy) : List Run :=
  if !c.started then [.instr (.copyRequestExecute n)]
  else .instr (.copyElementWrite n c.next) :: c.flying.map fun x => .instr (.copyElementWrite n x.1)
/-- The event of a graph node: its start, its poll, or its completion (R355). -/
def nodeDue (c n : Nat) (x : Node) : List Run :=
  match x.st with
  | .idle => (match x.kind with
    | 0 => [.instr (.nodeLaunch c n)]
    | 1 => [.instr (.nodeBackgroundLaunch c n)]
    | 2 => [.instr (.nodeCopy c n)]
    | 3 => [.instr (.nodeDraw c n)]
    | 4 => [.instr (.nodeSignal c n)]
    | 5 => [.instr (.nodeWait c n)]
    | _ => [])
  | .run => if x.kind = 5 then [.instr (.waitNodePoll c n)] else if x.desc.isEmpty then [] else [.instr (.nodeDraw c n)]
  | .complete => []
  | _ => [.instr (.nodeComplete c n)]
/-- The events of a context. -/
def State.ctxDue (s : State) (c : Nat) (r : CtxRun) : List Run :=
  (if r.kicks.isEmpty then [] else [.instr (.replayBegin c)]) ++
  (match r.replay with
   | some p => p.nodes.zipIdx.flatMap fun (x : Node × Nat) => nodeDue c x.2 x.1
   | none => []) ++
  (match tget s.ctxs c with
   | some x => (if x.tick ≠ 0 ∧ r.tickAt + 1000 * x.tick ≤ s.gt then [.instr (.frameTick c)] else []) ++
     (if x.budget ≠ 0 ∧ r.remaining ≤ 0 ∧ s.bgPlaced c then [.instr (.budgetExpire c)] else [])
   | none => [])
/-- The events of a rasteriser. -/
def rasterDue (d r : Nat) (x : Raster) : List Run :=
  match x.run with
  | none => if x.queue.isEmpty then [] else [.drawStart d r]
  | some y =>
    if y.finishing || decide (y.draw.insts ≤ y.inst) then [.drawEnd d r]
    else if y.pixelDone && y.draw.ord != 2 then [.fragment d r] else [.rast d r]
/-- The events of a die: its arrays, its rasterisers, its warm reset, its filters. -/
def State.dieDue (s : State) (d : Nat) (x : Die) : List Run :=
  (x.mqueue.flatMap fun q => if q.2.isEmpty then [] else [.instr (.matrixCommandStart q.1)]) ++
  (x.rasters.zipIdx.flatMap fun (r : Raster × Nat) => rasterDue d r.2 r.1) ++
  (if x.pending then [.warmStart d] else []) ++
  (if x.state = 0 then [] else [.warmQuiesce d, .warmRetrain d, .warmAdmit d]) ++
  (s.mem.louvre.flatMap fun f => if f.1 / 64 = d ∧ 262144 ≤ f.2.misses then [.instr (.louvreFilterSwap d (f.1 % 64))] else [])
/-- The events of a link: a flit arrives, or is sent again; traffic of its ends takes its other route. -/
def linkDue (n : Nat) (l : Link) : List Run :=
  if l.buffer.isEmpty then [] else [.flit n, .resend n]
/-- Pairs of dies whose traffic should change its route (R386). -/
def State.routeDue (s : State) : List Run :=
  if s.routes.isEmpty && s.links.all (·.up) then []
  else (List.range 4).flatMap fun a => (List.range 6).filterMap fun b =>
    if a = b then none
    else if s.detour a b || !s.pathUp a (hops a b false) then some (.reroute a b) else none
/-- The events of a retirement. -/
def Retire.due (t : Retire) : List Run :=
  (match t.cells.findIdx? fun m => !m.started with
   | some i => [.cellStart i]
   | none => []) ++
  t.cells.zipIdx.flatMap fun (m : MoveCell × Nat) =>
    if m.1.started && !m.1.switched then [if m.1.mark < t.depthOf m.1 then .rowCopy m.2 else .cellSwitch m.2] else []
/-- The events of a Caravan engine. -/
def State.caravanDue (s : State) (e : Nat) (c : Caravan) : List Run :=
  (match c.move with
   | some m => if m.phase = 2 then [.moveEnd e] else [.pageCopy e]
   | none => if c.asks.isEmpty || c.waiting then [] else [.moveStart e]) ++
  (if c.fwd.isEmpty then [] else [.forward e]) ++
  (if 4 ≤ e ∧ c.ctrBase ≠ 0 ∧ c.epochAt + 1000 * c.epoch ≤ s.gt then [.epoch e] else [])
/-- The event of a context command under way: its effect, then its report (R388). -/
def State.cmdDue (s : State) : List Run :=
  if !s.pkg.cmdBusy then []
  else if s.pkg.cmdOut.isSome then [.ctxDone]
  else match s.pkg.cmdOp with
    | 1 => [.instr (.ctxEnable s.pkg.cmdCtx)]
    | 2 => [.instr (.ctxDisable s.pkg.cmdCtx)]
    | _ => [.instr (.ctxRelease s.pkg.cmdCtx)]
/-- The event of a management command under way: its effect, then its report (R450). -/
def State.mgmtDue (s : State) : List Run :=
  if !s.mgmt.busy || s.mgmt.startCmd then []
  else if s.mgmt.out.isSome then [.mgmtDone] else [.mgmtRun s.mgmt.cmd]
/-- Internal events that are due, or may be. -/
def State.due (s : State) : List Run :=
  (s.mem.unitq.map fun q => Run.unit q.1) ++
  (if s.mgmt.starting.isSome then [.start] else []) ++ s.mgmtDue ++ s.cmdDue ++ (if s.keystat.busy then [.keyGenDone s.keystat.slot] else []) ++
  (s.keys.flatMap fun k => if k.2.state = 2 then [.keyDone k.1] else []) ++
  (s.work.reqs.flatMap fun r => s.reqDue r.1 r.2) ++ (s.work.ops.flatMap fun o => s.opDue o.1 o.2) ++
  (s.groups.flatMap fun g => s.groupDue g.1 g.2) ++
  (s.work.arrives.map fun a => Run.instr (.bararrArrive a.1)) ++
  (s.work.releases.map fun a => Run.instr (.ordexitRelease a.1)) ++
  (s.work.faults.flatMap fun f => if f.2.seq = 0 then [Run.instr (.faultQueueWrite f.1)] else []) ++
  (s.work.copies.flatMap fun c => copyDue c.1 c.2) ++
  (s.work.subs.map fun x => Run.instr (.launchSubmit x.1)) ++
  (s.launches.flatMap fun l => (List.range 4).flatMap fun d =>
    if l.2.nextT.getD d 0 < l.2.endT.getD d 0 then [Run.instr (.placePiece l.1 d)] else []) ++
  (s.spans.flatMap fun x => if x.2.park = .expand then [Run.instr (.teamExpand x.1)] else []) ++
  (s.teams.flatMap fun t => if t.2.pre.isSome then [Run.instr (.teamSave t.1), .instr (.preemptTimeoutExpire t.1)] else []) ++
  (s.saved.map fun x => Run.instr (.teamResume x.1 (x.2.die * 160 + s.gt / 3 % 160))) ++
  (s.runs.flatMap fun r => s.ctxDue r.1 r.2) ++
  (s.dies.zipIdx.flatMap fun (d : Die × Nat) => s.dieDue d.2 d.1) ++
  (s.links.zipIdx.flatMap fun (l : Link × Nat) => linkDue l.2 l.1) ++ s.routeDue ++
  (if s.barchan.tables.isEmpty then [] else if s.barchan.windowAt + 1000 * s.barchan.window ≤ s.gt then [.window] else []) ++
  (s.barchan.tables.flatMap fun t => if t.2.publish.isSome then [.publish t.1] else []) ++
  (s.regions.zipIdx.flatMap fun (g : Region × Nat) => if g.1.applying.isSome then [.mapSwitch g.2] else []) ++
  (match s.retire with
   | some t => t.due
   | none => []) ++
  (s.caravans.zipIdx.flatMap fun (c : Caravan × Nat) => s.caravanDue c.2 c.1)

/-! ### The next turn -/

/-- A turn of the default order. -/
inductive DTurn where
  | group (g : Nat)
  | span (n : Nat)
  | run (r : Run)
  deriving DecidableEq, Repr

/-- The turn that the default order gives: a group that a quadrant would choose, a span, or a due event; each
goes first on its own share of the instants, so that none waits for ever. -/
def State.defaultTurn (s : State) : Option DTurn :=
  let gs : List DTurn := (uniq (s.groups.map fun g => (g.2.core, g.2.quad))).filterMap fun q => (s.choose q.1 q.2).map DTurn.group
  let xs : List DTurn := s.spans.filterMap fun x => match s.si x.1 .nop with
    | some e => if e.ready s then some (.span x.1) else none
    | none => none
  let es : List DTurn := s.due.map DTurn.run
  let pickAt (l : List DTurn) : Option DTurn := l[s.gt / 3 % max 1 l.length]?
  match s.gt % 3 with
  | 0 => ((pickAt gs).or (pickAt xs)).or (pickAt es)
  | 1 => ((pickAt xs).or (pickAt es)).or (pickAt gs)
  | _ => ((pickAt es).or (pickAt gs)).or (pickAt xs)

/-- A group's or span's turn as something to run. -/
def asRun (r : Option Instr × State) : Option Run × State := (r.1.map Run.instr, r.2)
/-- What the next step runs: a Short instruction's completion that is due (R77), else the head of the agenda, or the
default turn, with the issuer set; or none, with the state complete. -/
def State.select (s : State) : Option Run × State :=
  match s.lateDue, s.agenda with
  | some g, _ => (some (.late g), { s with issuer := .none })
  | none, .event i :: r => (some (.instr i), { s with agenda := r, issuer := .none })
  | none, .group g :: r => asRun ({ s with agenda := r }.groupTurn g)
  | none, .span n :: r => asRun ({ s with agenda := r }.spanTurn n)
  | none, [] =>
    match s.defaultTurn with
    | none => (none, s)
    | some (.run x) => (some x, { s with issuer := .none })
    | some (.group g) => asRun (s.groupIssue g)
    | some (.span n) => asRun (s.spanTurn n)
/-- An overdue group's turn: no time passes before it, and it counts as having issued (R18). -/
def State.forced (s : State) (gid : Nat) : Option Run × State :=
  asRun ((s.modGroup gid fun g => { g with lastIssue := s.gtOf g.core }).groupIssue gid)
/-- What a due event beyond an instruction does: the meaning of its constructor. -/
def Run.go (x : Run) (s : State) : Host.Outcome State Fault Refusal :=
  match x with
  | .instr _ => .next s
  | .drawStart d r => execRasterDrawStart d r s
  | .fragment d r => execFragmentRegister d r s
  | .rast d r => execRastTestAndWrite d r s
  | .drawEnd d r => execDrawEnd d r s
  | .flit l => execLinkFlitReceive l true s
  | .resend l => execLinkRetryTimeout l s
  | .reroute a b => execRouteSwitch a b s
  | .warmStart d => execWarmResetStart d s
  | .warmQuiesce d => execWarmResetQuiesce d s
  | .warmRetrain d => execWarmResetRetrain d s
  | .warmAdmit d => execWarmResetAdmit d s
  | .window => execBarchanWindowEnd s
  | .publish t => execBarchanPublish t s
  | .mapSwitch r => execMapApplySwitch r s
  | .cellStart c => execRetireCellStart c s
  | .rowCopy c => execRetireRowCopy c s
  | .cellSwitch c => execRetireCellSwitch c s
  | .unit q => execUnitRequest q s
  | .moveStart e => execCaravanMoveStart e s
  | .pageCopy e => execCaravanPageCopy e s
  | .moveEnd e => execCaravanMoveEnd e s
  | .epoch e => execCaravanEpochEnd e s
  | .forward e => execPageCountForward e s
  | .keyDone k => execKeyDiscardDone k s
  | .ctxDone => execCtxcmdComplete s
  | .mgmtDone => execMgmtCommandComplete s
  | .mgmtRun v =>
    (match v % 16 with
     | 1 => execMgmtAttest s
     | 2 => execMgmtReadCert s
     | 3 => execMgmtRaiseSvn s
     | _ => execMgmtWriteFlash (nfld v 4 1) (nfld v 16 16) s)
  | .keyGenDone k => execKeyGenerateComplete k s
  | .start => execStartStepComplete true s
  | .late g => s.event fun s => s.lateTurn g

end Sys2Proof.Machine
end

