-- ==== Sys2Proof/Machine/Step.lean ====
section
/-! DEFINITION. One step of the machine, and the placing of one instruction where the next step runs it. -/
namespace Sys2Proof.Machine

/-- What a selected turn does. -/
def State.runTurn (r : Option Run × State) : Host.Outcome State Fault Refusal :=
  match r with
  | (some (.instr i), s) => exec i s
  | (some x, s) => x.go s
  | (none, s) => .next s
/-- One step: time passes, the next turn is taken, and its instruction or event runs; a group that cannot wait any longer
goes first (R18). Without power only POWER_ON happens (R455). -/
def step (s : State) : Host.Outcome State Fault Refusal :=
  if !s.power && s.agenda.head? != some (.event .powerOn) then .fault .noPower
  else match (if s.power then s.overdue else none) with
    | some g => State.runTurn (s.forced g)
    | none => State.runTurn s.tick.select

/-- The state with the instruction whose bits are `w` stored where the next step fetches its next instruction. -/
def State.withFetchWord (s : State) (nbits w : Nat) : State := s.placeWord nbits w

end Sys2Proof.Machine
end

