-- ==== Sys2Proof/Safety.lean ====
section
/-! DEFINITION. The terms in which claims are stated: a group that issues an instruction, the record that it is left with,
the position where control may go, and what it means for nothing else to change. -/
namespace Sys2Proof.Machine

/-- A group issues an instruction: the machine has power, the turn is the group's, nothing holds it, no completion fault
waits, every check of R105 passes, and no interlock stalls it (R107, R110). -/
structure Issues (s : State) (i : Instr) (e : GI) : Prop where
  power : s.power = true
  turn : s.issuer = .group e.gid
  gi : s.gi e.gid i = some e
  ready : e.g.ready i = true
  hold : e.g.ctl.hold = none
  owed : e.g.ctl.owed = []
  check : e.check s = none
  flows : e.stalls s = false

/-- A group that a W instruction holds comes back to it (R219). -/
structure Resumes (s : State) (i : Instr) (e : GI) : Prop where
  power : s.power = true
  turn : s.issuer = .group e.gid
  gi : s.gi e.gid i = some e
  ready : e.g.ready i = true
  hold : e.g.ctl.hold = some i

/-- Whether what a fetch answers is a clause header. -/
def Fetched.header : Fetched → Bool
  | .word w => isHeader w
  | _ => false
/-- Whether a position lies inside the clause under way, or a clause header stands there that the group may fetch
(R96, R319). -/
def GI.canGo (e : GI) (s : State) (p : Pos) : Bool :=
  p.k != 0 || (e.fetch s e.g.ctl.level p.h).header

/-- The record of a group that control has taken to a position. -/
def GI.at (e : GI) (s : State) (g : Group) (p : Pos) : Group :=
  { g with ctl := { g.ctl with pos := p, hold := none, holdArg := [] }, lastIssue := s.gtOf e.g.core }
/-- Pending tags without those of the registers that the instruction itself writes (R109). -/
def GI.tagsLeft (e : GI) : List Tag := e.g.tags.filter fun t => !(e.i.defs e.mode).contains t.reg
/-- The record of a group that has executed a Short instruction which leaves it the registers `r`, one word on. -/
def GI.moved (e : GI) (s : State) (r : Regs) : Group := e.at s { e.g with regs := r, tags := e.tagsLeft } e.after
/-- The state with a group's record replaced: every other field, and every other group, is as it was. -/
def State.putGroup (s : State) (gid : Nat) (g : Group) : State := { s with groups := tput s.groups gid g }

/-- The state in which an instruction that writes registers alone leaves the machine: its group has the registers `r`, and
stands one word on. -/
def GI.wrote (e : GI) (s : State) (r : Regs) : State := s.putGroup e.gid (e.moved s r)
/-- The group's record without the pending tags of the registers that a Short instruction writes (R109). -/
def GI.untagged (e : GI) (g : Group) : Group :=
  if e.i.cls = .longA ∨ e.i.cls = .longB then g
  else { g with tags := g.tags.filter fun t => !(e.i.defs e.mode).contains t.reg }
/-- The state in which control goes on one word after an instruction whose work left the state `s1`. -/
def GI.goOn (e : GI) (s s1 : State) : State := s1.modGroup e.gid fun g => e.at s (e.untagged g) e.after
/-- The state in which control goes to the clause header at `h` after an instruction whose work left the state `s1`. -/
def GI.jumpTo (e : GI) (s s1 : State) (h : Nat) : State := s1.modGroup e.gid fun g => e.at s (e.untagged g) ⟨h, 0⟩
/-- A group's record once the issuing instruction has started an operation (R107, R109). -/
def GI.started (e : GI) (s : State) (g : Group) : Group :=
  { g with
    flags := lmod g.flags e.flag (· + 1)
    tags := (g.tags.filter fun t => !(e.i.defs e.mode).contains t.reg) ++
      (e.i.defs e.mode).map fun r => ⟨r, e.flag, s.nextId⟩ }

/-- Control can go on behind the issuing instruction. -/
def GoesOn (s : State) (e : GI) : Prop := e.canGo s e.after = true
/-- An instruction completes: wherever a group issues it under a condition, it answers the next state named. -/
def Completes (i : Instr) (p : State → GI → Prop) (t : State → GI → State) : Prop :=
  ∀ s e, Issues s i e → p s e → exec i s = .next (t s e)
/-- An instruction writes registers alone: wherever a group issues it and control can go on, the group is left with the
registers named, one word on, and nothing else of the machine changes. -/
def WritesRegs (i : Instr) (r : State → GI → Regs) : Prop := Completes i GoesOn fun s e => e.wrote s (r s e)

/-- The group's registers with register `d` written lane by lane in the lanes that write (R49). -/
def GI.lanewise (e : GI) (d : Nat) (f : Regs → Nat → Word) : Regs := e.g.regs.setV d e.lanes (f e.g.regs)
/-- The group's registers with a unit of the ETYPE written lane by lane: `f` takes MODE's ETYPE and SAT and the units `a`,
`b` and `d` of the lane (R156). -/
def GI.unitE (e : GI) (f : Nat → Bool → Nat → Nat → Nat → Nat) (d a b : Nat) : Regs :=
  e.g.regs.setU (mPair e.mode) d e.lanes fun l =>
    f (mEtype e.mode) (mSat e.mode) (e.g.regs.vu (mPair e.mode) a l) (e.g.regs.vu (mPair e.mode) b l) (e.g.regs.vu (mPair e.mode) d l)
/-- The group's registers after a uniform instruction: the result of two uniform registers, and CC where it writes it
(R152, R153). -/
def GI.uniform (e : GI) (d a b : Nat) (f : DWord → DWord → DWord) (cc : Option (DWord → DWord → CC)) : Regs :=
  let r := e.g.regs.setS d (f (e.g.regs.sr a) (e.g.regs.sr b))
  match cc with
  | some c => { r with cc := c (e.g.regs.sr a) (e.g.regs.sr b) }
  | none => r

/-- The state after a Short instruction that rounds: the registers with the packed results put in place, the generators after
their draws where it draws, the exceptions of the lanes that write raised (R75 to R78). -/
def GI.rounded (e : GI) (s : State) (sr : Bool) (w n : Nat) (put : Regs → (Nat → Nat) → Regs)
    (g : Nat → Nat → Nat → Nat × Exc) : State :=
  let outs := laneElems e sr w n g
  let x := excOf e.lanes outs
  (s.modGroup e.gid fun gr =>
    { gr with
      regs := put gr.regs fun l => (outs.getD l (0, 0, 1)).1
      rng := if sr then outs.map fun o => o.2.2 else gr.rng }).raised e x.1 x.2
/-- Element `k` of a lane's register under MODE's float format. -/
def GI.elem (e : GI) (n l k : Nat) : Nat := nfld (e.g.regs.vl n l).toNat (modeW e.mode * k) (modeW e.mode)
/-- The state after a float instruction on registers of elements (R169 to R175): `f` takes the format, the environment, the
elements of `a`, `b` and `d` and the draw. -/
def GI.floats (e : GI) (s : State) (rounds : Bool) (d a b : Nat) (f : Fmt → FEnv → Nat → Nat → Nat → Nat → Nat × Exc) : State :=
  e.rounded s (rounds && drawsUnder e.mode) (modeW e.mode) (modeN e.mode)
    (fun q val => q.setV d e.lanes fun l => BitVec.ofNat 32 (val l))
    fun l k x => f (modeFmt e.mode) (mEnv e.mode) (e.elem a l k) (e.elem b l k) (e.elem d l k) x
/-- The state after a Long B float instruction issues: draws made, results and exceptions held by the operation until it
completes (R107, R108). -/
def GI.longElems (e : GI) (s : State) (d : Nat) (sr : Bool) (w n : Nat) (g : Nat → Nat → Nat → Nat × Exc) : State :=
  let outs := laneElems e sr w n g
  let x := excOf e.lanes outs
  (e.startOp (s.modGroup e.gid fun gr => if sr then { gr with rng := outs.map fun o => o.2.2 } else gr) fun o =>
    { o with writes := [.vec d e.lanes (outs.map fun o => BitVec.ofNat 32 o.1)], exc := x.1, excLanes := x.2 }).2
/-- The state after a special function issues (R185). -/
def GI.special (e : GI) (s : State) (fn : SFun) (d a : Nat) : State :=
  e.longElems s d (fn = .sqrt && drawsUnder e.mode) (modeW e.mode) (modeN e.mode) fun l k x =>
    sElem fn (modeFmt e.mode) (mEnv e.mode) (e.elem a l k) x

/-- The state after CVT or CVTI into element type `t` under an environment (R178 to R180). -/
def GI.converted (e : GI) (s : State) (d a k : Nat) (t : EType) (v : FEnv) : State :=
  let src := mEt e.mode
  let sh := cvtShape src t k
  e.rounded s (convDraws src t && v.rnd == .sr) t.width sh.1
    (fun q val => q.setU (t.width == 64) d e.lanes fun l => cvtPlace t sh.1 sh.2.2.1 sh.2.2.2 (q.vu (t.width == 64) d l) (val l))
    fun l j x => conv src t v (nfld (e.g.regs.vu (src.width == 64) a l) (src.width * (sh.2.1 + j)) src.width) x
/-- The group's registers after a shuffle; `src` gives a lane's source position from G, its position and its number (R188). -/
def GI.shuffled (e : GI) (d a : Nat) (oob : Bool) (src : Nat → Nat → Nat → Option Nat) : Regs :=
  let r := e.g.regs.setV d e.lanes fun l => e.g.regs.vl a ((shflSource e src l).getD l)
  if oob then r.setPr 13 e.lanes (maskOf fun l => (shflSource e src l).isNone) else r
/-- The state after a difference within quads; `pr` gives the positions subtracted, the first from the second (R190). -/
def GI.quadSub (e : GI) (s : State) (d a : Nat) (pr : Nat → Nat × Nat) : State :=
  e.rounded s (drawsUnder e.mode) (modeW e.mode) (modeN e.mode)
    (fun q val => q.setV d e.lanes fun l => BitVec.ofNat 32 (val l))
    fun l k x =>
      if inMask e.g.active (l / 4 * 4 + (pr (l % 4)).1) && inMask e.g.active (l / 4 * 4 + (pr (l % 4)).2) then
        fElem (modeFmt e.mode) (mEnv e.mode) .sub (e.elem a (l / 4 * 4 + (pr (l % 4)).2) k)
          (e.elem a (l / 4 * 4 + (pr (l % 4)).1) k) 0 x
      else (0, 0)
/-- The state after a reduction or scan; `out` gives a lane's value, none where it is absent (R191, R192). -/
def GI.reduced (e : GI) (s : State) (o : RedOp) (d : Nat) (out : Nat → RedVal) : State :=
  let v (l : Nat) : Nat × Exc := redLane e.mode o (out l)
  let x := excOf e.lanes (laneIx.map fun l => ((v l).1, (v l).2, (0 : Word)))
  (s.modRegs e.gid fun r => r.setV d e.lanes fun l => BitVec.ofNat 32 (v l).1).raised e x.1 x.2
/-- The lanes for which VMATCHF.f raises invalid: a signalling NaN in their sub-group (R195). -/
def GI.matchInvalid (e : GI) (a : Nat) : Mask :=
  maskOf fun l => inMask e.lanes l && (subLanes e.mode l).any fun k =>
    inMask e.g.active k && (fmtF32.input (mFtz e.mode) (e.g.regs.vl a k).toNat).snan != 0

/-- The state with the group's mask stack, active mask and MODE replaced (R139). -/
def GI.masked (e : GI) (s : State) (stack : List MaskEntry) (active : Mask) (mode : Word) : State :=
  s.modGroup e.gid fun g => { g with stack := stack, active := active, regs := { g.regs with mode := mode } }
/-- Control can go to the clause header at `h`. -/
def GoesTo (s : State) (e : GI) (h : Nat) : Prop := e.canGo s ⟨h, 0⟩ = true
/-- The bank that taking a trap writes (R371, R373). -/
def GI.bankFor (e : GI) (t : TrapRec) : TrapBank where
  cause := t.cause.code
  plev := e.g.ctl.level
  mode := e.g.regs.mode
  arg := BitVec.ofNat 64 t.arg
  resume := BitVec.ofNat 64 t.resume.word
  addr := BitVec.ofNat 64 t.addr
  lanes := t.lanes
  scratch := if t.toM then e.g.bankM.scratch else e.g.bankS.scratch
/-- A group's record as it stands at a handler's header after taking a trap (R373). -/
def GI.entered (e : GI) (t : TrapRec) (vec : Nat) : Group :=
  { e.g with
    tags := []
    latch := { e.g.latch with valid := false }
    bankS := if t.toM then e.g.bankS else e.bankFor t
    bankM := if t.toM then e.bankFor t else e.g.bankM
    regs := { e.g.regs with mode := modeEntry }
    ctl := { e.g.ctl with
      trap := none
      hold := none
      holdArg := []
      level := if t.toM then .m else .s
      pos := ⟨vec, 0⟩
      emul := if t.toM ∧ t.cause = .misalign then some 0 else none } }
/-- The S handler of the group's context stands at a clause header that level S may fetch. -/
def GI.handlerOk (e : GI) (s : State) : Bool :=
  match tget s.ctxs e.ctx with
  | some c => (e.fetch s .s c.svec).header
  | none => false
/-- The S handler's address. -/
def GI.svec (e : GI) (s : State) : Nat :=
  match tget s.ctxs e.ctx with
  | some c => c.svec
  | none => 0
/-- The state in which a trap has been raised and not yet taken. -/
def GI.withTrap (e : GI) (s : State) (t : TrapRec) : State :=
  s.putGroup e.gid { e.g with ctl := { e.g.ctl with trap := some t, hold := none, holdArg := [] } }
/-- A trap to level S is taken at once (R196, R370, R373): the group was at level U and is not descheduled, its flags are clear
and its instructions complete, and its handler stands. -/
def TakesTrap (s : State) (e : GI) (t : TrapRec) : Prop :=
  e.g.ctl.level = .u ∧ e.g.quiet = true ∧ e.g.ctl.desched = none ∧ e.handlerOk (e.withTrap s t) = true
/-- The state after a trap to level S. -/
def GI.trapTaken (e : GI) (s : State) (t : TrapRec) : State := s.putGroup e.gid (e.entered t (e.svec s))

/-! ### Memory and engines -/

/-- The checks of an access by an issuing group (R201). -/
def GI.checked (e : GI) (s : State) (p : Plan) : PlanRes × State :=
  p.check s (coreTlb e.g.core) e.die e.ctx (e.g.ctl.level == .u)
/-- The bytes that a lane stores from register `d` on (R204). -/
def GI.dataOf (e : GI) (z : Size) (d l : Nat) : List Byte := storeBytes z ((List.range (zCount z)).map fun k => e.g.regs.vl (d + k) l)
/-- The operand and the comparison operand of an atomic, as its request carries them (R213). -/
def GI.atomData (e : GI) (z : Size) (b c l : Nat) : List Byte := e.dataOf z b l ++ toBytes z.bytes (ofBytes (e.dataOf z c l))
/-- The state after an access has issued whose lanes go to memory: an operation, and one request a piece. -/
def GI.sent (e : GI) (p : Plan) (m : Mask) (ts : List (Piece × Trans)) (sp : List Nat) (s1 : State) : State :=
  e.clearRedo ((e.startOp s1 (e.memOp m .reqs sp)).2.sendPieces p e.gid s1.nextId e.g.core e.die e.ctx e.team.launch ts)
/-- The state after an access has issued that is made when its operation completes. -/
def GI.deferred (e : GI) (m : Mask) (sp : List Nat) (s1 : State) : State := e.clearRedo (e.startOp s1 (e.memOp m .ready sp)).2
/-- An access may begin: no TAGSET of the group is outstanding that its tag checks must come behind (R237), no reissue after a
DIEOFF narrows its lanes (R374), and its checks answer as named. -/
def GI.mayAccess (e : GI) (s : State) (p : Plan) (r : PlanRes × State) : Prop :=
  (p.tags && s.tagsPending e.gid s.nextId) = false ∧ e.g.redo = none ∧ e.checked s p = r
/-- An instruction goes to memory: where the checks of its plan pass, its operation and requests set out and the group goes
on. -/
def Accesses (i : Instr) (m : GI → Mask) (p : GI → Plan) : Prop :=
  ∀ ts sp s1, Completes i (fun s e => GoesOn s e ∧ e.mayAccess s (p e) (.go ts sp, s1))
    fun s e => e.goOn s (e.sent (p e) (m e) ts sp s1)
/-- An instruction whose access is made when its operation completes: where the checks pass, the operation waits and the
group goes on. -/
def Defers (i : Instr) (m : GI → Mask) (p : GI → Plan) : Prop :=
  ∀ ts sp s1, Completes i (fun s e => GoesOn s e ∧ e.mayAccess s (p e) (.go ts sp, s1))
    fun s e => e.goOn s (e.deferred (m e) sp s1)
/-- The trap that a misaligned access of kind `acc` takes: the lowest misaligned lane's address, and every such lane (R199,
R201). -/
def GI.misTrap (e : GI) (acc : Nat) (p : Plan) (lane : Nat) : TrapRec :=
  ⟨.misalign, acc, p.addrOf lane, maskList (p.misaligned.map (·.1)), e.g.ctl.pos, false⟩
/-- An access that the firmware does not emulate traps with MISALIGN before any lane of it is performed, wherever a lane of its
plan is misaligned and the trap can be taken at once. -/
def Misaligns (i : Instr) (acc : Nat) (p : GI → Plan) : Prop :=
  ∀ x r, Completes i
    (fun s e => e.g.redo = none ∧ ((p e).tags && s.tagsPending e.gid s.nextId) = false ∧ (p e).misaligned = x :: r ∧
      TakesTrap s e (e.misTrap acc (p e) x.1))
    fun s e => e.trapTaken s (e.misTrap acc (p e) x.1)
/-- The lane that performs an access made once per group, for loads and for stores (R200). -/
def GI.once (e : GI) : Mask := lowLane e.g.active
def GI.onceStore (e : GI) : Mask := if (e.g.active &&& ~~~e.g.helpers) != 0 then lowLane e.g.active else 0

/-! ### Instructions that wait, and commands to units -/

/-- A pointer as SPAWN carries it: one that is not canonical names an address beyond the address space (R198, R243). -/
def spawnAddr (b : DWord) : Nat := vaOf (globalAddr b 0) + (if canonical b then 0 else 2 ^ 56)
/-- The state in which a W instruction has begun to hold its group (R219); `arg` is what the model keeps of its wait. Where its
team is to be pre-empted and nothing defers that, the group counts as yielded at once (R379). -/
def GI.held (e : GI) (s : State) (arg : List Nat) : State :=
  s.modCtl e.gid fun c => { c with
    hold := some e.i, holdAt := s.gtOf e.g.core, holdArg := arg
    pre := if e.team.pre.isSome ∧ c.pre = .run ∧ c.level = .u ∧ e.g.sect.isNone ∧ s.mmapOut e.g.team = false then .yielded else c.pre }
/-- An instruction that holds its group comes to an end: wherever the group comes back to it under a condition, it answers the
next state named. -/
def Continues (i : Instr) (p : State → GI → Prop) (t : State → GI → State) : Prop :=
  ∀ s e, Resumes s i e → p s e → exec i s = .next (t s e)
/-- An instruction issues and goes on with a new operation; `f` gives the operation's record. -/
def Starts (i : Instr) (p : State → GI → Prop) (f : State → GI → Op → Op) : Prop :=
  Completes i (fun s e => GoesOn s e ∧ p s e) fun s e => e.goOn s (e.startOp s (f s e)).2
/-- A matrix command issues: it is queued at its core's array (R249). -/
def Commands (i : Instr) (p : State → GI → Prop) (f : GI → Op → Op) : Prop :=
  Completes i (fun s e => GoesOn s e ∧ p s e) fun s e => e.goOn s (e.command s .engine (f e)).2
/-- The state after a product is queued: the command with its captured operands, and the A latch as ReadA leaves it (R250). -/
def GI.productDone (e : GI) (s : State) (t : Nat) (x : List (List Word) × Latch) : State :=
  (e.command s .engine fun o => { o with lanes := e.g.active, tile := [e.g.regs.tr t], vvals := x.1 }).2.modGroup e.gid
    fun g => { g with latch := x.2 }
/-- A product's tile has the shape and the format that MODE asks for, and lies in the team's allocation (R248). -/
def GI.tileOk (e : GI) (t : Nat) : Prop :=
  bTileOk (mMfmt e.mode) (e.g.regs.tr t) = true ∧ Tile.inside (e.g.regs.tr t) e.team.size = true
/-- The state after a drain into tiles is queued: its draws are taken at issue (R255). -/
def GI.drained (e : GI) (s : State) (fmt : Nat) (tiles : List Tile) (sv : List DWord) : State :=
  let o := (e.command s .engine fun o =>
    { o with lanes := e.g.active, wlanes := e.storeLanes, tile := tiles, svals := sv, vvals := [e.g.rng] }).2
  if drainDraws e.mode fmt then o.modGroup e.gid fun g =>
    { g with rng := vecOf fun l => if inMask g.active l then drawn64 (g.rng.getD l 1) else g.rng.getD l 1 }
  else o
/-- A descriptor that a hash instruction may use: no level, register or dependency of it is refused (R260, R261). -/
structure GI.GridOk (e : GI) (s : State) (d a sr l0 n : Nat) (scatter : Bool) (b : List Byte) (s1 : State) : Prop where
  aligned : (e.g.regs.sr sr).toNat % 128 = 0
  read : e.grid s (e.g.regs.sr sr) = (.ok b, s1)
  status : gridStatus b e.launch.scrBytes = 0
  levels : l0 + n ≤ (Grid.ofBytes b).levels
  inputs : a + (Grid.ofBytes b).dim ≤ e.g.nregs
  outputs : d + n * (Grid.ofBytes b).f ≤ e.g.nregs
  waited : (hashReads d a n (Grid.ofBytes b) scatter).any (fun r => e.g.tags.any fun t => t.reg == r) = false
  free : (hashWrites d n (Grid.ofBytes b) scatter).any (fun r => e.g.tags.any fun t => t.reg == r && (tget s1.work.ops t.op).isSome) = false
/-- The state after a hash instruction issues: its operation holds the coordinates, and HSCATTER's values, as they stood. -/
def GI.hashed (e : GI) (d a n : Nat) (scatter : Bool) (b : List Byte) (s1 : State) : State :=
  let g := Grid.ofBytes b
  let vv := ((List.range g.dim).map fun k => e.g.regs.vr (a + k)) ++
    (if scatter then (List.range (n * g.f)).map fun k => e.g.regs.vr (d + k) else [])
  let o := e.startOp s1 fun o =>
    { o with st := .engine, lanes := if scatter then e.storeLanes else e.lanes, vvals := vv, misc := b.map (·.toNat) }
  o.2.modGroup e.gid fun gr =>
    { gr with
      tags := (gr.tags.filter fun t => !(hashWrites d n g scatter).contains t.reg) ++
        (hashWrites d n g scatter).map fun r => ⟨r, e.flag, o.1⟩ }
/-- TSAMP may read its texels: its records translate to memory, its registers exist and wait for nothing, and its texels
translate. -/
structure GI.TexOk (e : GI) (s : State) (c sr x l : Nat) (md : TMode) (ts : List (Piece × Trans)) (s1 : State)
    (us : List (Piece × Trans)) (s2 : State) : Prop where
  records : ∃ sp, e.checked s (e.recPlan sr x) = (.go ts sp, s1)
  mapped : ts.any (fun t => s1.spaceOf t.2.pa == none) = false
  reached : ts.any (fun t => s1.reachFor e.die t.2.pa == .wait) = false
  inputs : c + recNeed (s1.readRecs e.g.core e.ctx ts).1 ≤ e.g.nregs
  steady : (s1.readRecs e.g.core e.ctx ts).1.any (fun t => t.2 == .waits) = false
  waited : (vRegs c (recNeed (s1.readRecs e.g.core e.ctx ts).1)).any (fun y => e.g.tags.any fun t => t.reg == y) = false
  texels : ∃ sp, e.checked (s1.readRecs e.g.core e.ctx ts).2 (texPlan (e.texels (s1.readRecs e.g.core e.ctx ts).1 c l md)) = (.go us sp, s2)
/-- The state after TSAMP issues: its operation holds what its lanes sample with, and one request a texel sets out. -/
def GI.sampled (e : GI) (c sr x l : Nat) (md : TMode) (rs : List (Nat × RecRead)) (us : List (Piece × Trans)) (s2 : State) : State :=
  let ps := e.texels rs c l md
  let bad (z : RecRead) : Mask := maskList ((rs.filter fun t => t.2 == z).map (·.1))
  let recs : List Nat := laneIx.flatMap fun i => match rs.find? fun t => t.1 == i with
    | some (_, .bytes b) => b.map (·.toNat)
    | _ => List.replicate 64 0
  let o := e.startOp s2 fun o =>
    { o with
      st := .reqs, lanes := e.lanes, wlanes := e.g.active, svals := [e.g.regs.sr sr, bad .poisoned, bad .error],
      vvals := e.g.regs.vr x :: e.g.regs.vr l :: (List.range (recNeed rs)).map fun j => e.g.regs.vr (c + j), misc := recs }
  (us.zip ps).foldl (fun a z =>
    a.sendPieces { texPlan ps with size := z.2.2 } e.gid o.1 e.g.core e.die e.ctx e.team.launch [z.1]) o.2
/-- DRAW's descriptor may be read: a lane that is no helper is active, its address is a multiple of 64, and its 64 bytes pass
the checks of a load (R264). -/
structure GI.DrawOk (e : GI) (s : State) (a : Nat) (ts : List (Piece × Trans)) (sp : List Nat) (s1 : State) : Prop where
  lanes : e.g.active &&& ~~~e.g.helpers ≠ 0
  aligned : vaOf (globalAddr (e.g.regs.sr a) 0) % 64 = 0
  tags : s.tagsPending e.gid s.nextId = false
  checks : e.checked s (blockPlan (e.g.regs.sr a) 64 ((lanesOf (lowLane e.g.active)).headD 0) true) = (.go ts sp, s1)
/-- The operation of a DRAW that issued in `s`; `b` is its descriptor, or nothing where it is yet to be read (R420). -/
def GI.drew (e : GI) (s s1 : State) (a : Nat) (b : List Byte) : State :=
  (e.startOp s1 fun o => { o with
    st := .engine, svals := [BitVec.ofNat 64 (vaOf (globalAddr (e.g.regs.sr a) 0))], await := s.awaitOf e.gid Instr.writesMem
    misc := 0 :: b.map (·.toNat) }).2
/-- The group's newest operation. -/
def State.newestOp (s : State) (gid : Nat) : Nat := s.work.ops.foldl (fun k o => if o.2.gid == gid then max k o.1 else k) 0
/-- The state after PUBW issues, once its access is under way in `s1`: the store is held back until every earlier write of the
group has completed (R239). -/
def GI.published (e : GI) (s s1 : State) : State :=
  s1.modOp (s1.newestOp e.gid) fun o =>
    if o.st = .reqs then { o with st := .engine, await := s.awaitOf e.gid Instr.writesMem }
    else { o with await := s.awaitOf e.gid Instr.writesMem }

/-! ### Events -/

/-- An event happens: with power, under a condition, it answers the next state named. -/
def Happens (ev : Instr) (p : State → Prop) (t : State → State) : Prop := ∀ s, s.power = true → p s → exec ev s = .next (t s)
/-- The scoreboard without one pixel and key of a context (R267). -/
def boardWithout (ctx : Nat) (b : List ScoreEnt) (x : Nat × Nat) : List ScoreEnt :=
  match b.findIdx? fun y => y.ctx == ctx && y.pixel == x.1 && y.key == x.2 with
  | some i => b.eraseIdx i
  | none => b
/-- The bytes of a matrix command's first tile, as a team's local memory holds them when the command starts (R258). -/
def State.tileNow (s : State) (tid : Nat) (o : Op) : List Nat :=
  match tget s.teams tid, o.tile with
  | some t, x :: _ => Tile.snap x t.loc
  | _, _ => []
/-- The oldest command of a core's queue may start: the array is free, and what R258 orders before the command is done. -/
def State.startsNext (s : State) (core n : Nat) (o : Op) : Prop :=
  (s.arrayQueue core).head? = some n ∧ tget s.work.ops n = some o ∧ s.arrayRun core = none ∧ o.st = .engine ∧ o.await.ops = []
/-- A request of global memory can be performed at its home now: the address is mapped, its home can be reached, no retirement
holds the line, and its key slot is keyed. -/
def State.homeReady (s : State) (r : Req) : Bool :=
  r.space == .global && !s.topStalls (r.pa / 128) && (s.spaceOf r.pa).isSome && s.reachHome r.die (r.pa / 128) == .ok && s.keyed r.key
/-- A context command is under way and has no result yet (R388). -/
def State.commands (s : State) (op c : Nat) : Prop :=
  s.pkg.cmdBusy = true ∧ s.pkg.cmdOp = op ∧ s.pkg.cmdCtx = c ∧ s.pkg.cmdOut = none
/-- A kick of an enabled context takes effect: the module gives service (R360, R445). -/
def State.serves (s : State) (c : Nat) : Prop := (tget s.ctxs c).isSome = true ∧ s.mgmt.level ≠ 0
/-- The state after a launch node has been submitted (R355). -/
def State.submits (s : State) (c n : Nat) (x : Node) (background : Bool) : State :=
  let t := s.runNode c n 0
  let sub : Submit :=
    { ctx := c, addr := vaOf x.x, background := background, cls := 0, source := .node c n, die := none, op := none }
  { t with nextId := t.nextId + 1, work := { t.work with subs := tput t.work.subs t.nextId sub } }
/-- A draw as it begins, with its fragment list (R418, R422). -/
def Draw.begun (d : Draw) (base cap : Nat) : Running :=
  { draw := d, fragBase := base, fragCap := cap, frags := 0, fragOvf := 0, inst := 0, prim := 0, todo := [], setUp := false,
    passed := [], err := 0, fault := none, finishing := false, lastW := 0 }
/-- A management command is under way and its buffer can be reached (R450). -/
def State.manages (s : State) (v b : Nat) : Prop :=
  s.mgmt.busy = true ∧ s.mgmt.out = none ∧ s.mgmt.cmd = v ∧ s.mgmtBuf = some b
/-- The state with the free values of the next `n` draws passed over. -/
def State.freeDrawn (s : State) (n : Nat) : State := (s.drawFree n).2
/-- The state after a management command's work, its result and length ready to be reported (R450). -/
def State.answers (s : State) (r : Nat × Nat) (f : State → State) : State := (f s).modMgmt fun m => { m with out := some r }

/-- A span issues an instruction: the machine has power, it is the span's turn, no other piece of a cut runs before it, and
no check of R105 would trap (R25, R37). -/
structure SpanIssues (s : State) (i : Instr) (e : SI) : Prop where
  power : s.power = true
  turn : s.issuer = .span e.sid
  si : s.si e.sid i = some e
  ready : e.ready s = true
  clean : e.trapped s = false
/-- Whether a position lies inside the clause under way, or a clause header stands there that the span may fetch (R96). -/
def SI.canGo (e : SI) (s : State) (p : Pos) : Bool := p.k != 0 || e.header s p.h
/-- The state in which a span with the record `x` has gone to the position `p`, its instruction's work having left `s`. -/
def SI.goesTo (e : SI) (s : State) (x : Span) (p : Pos) : State :=
  s.modSpan e.sid fun _ => { x with pos := p, inside := p.k != 0 || x.inside }
/-- An instruction executes once for all items of a span, and control goes to the position that `dst` names: wherever it can go
there and GUARD, where the instruction is gated, is constant true (R25, R28). -/
def SpanGoes (i : Instr) (p : State → SI → Prop) (x : State → SI → Span) (dst : SI → Pos) : Prop :=
  ∀ s e, SpanIssues s i e → (i.gated = true → e.x.pf (mGuard e.x.mode) = .const true) → e.canGo s (dst e) = true → p s e →
    exec i s = .next (e.goesTo s (x s e) (dst e))
/-- An instruction executes once for all items of a span, which goes on one word. -/
def SpanRuns (i : Instr) (p : SI → Prop) (x : SI → Span) : Prop := SpanGoes i (fun _ e => p e) (fun _ e => x e) SI.after
/-- An instruction materialises the span that issues it, at itself: at once where the span's flags are clear, and else the span
waits for them (R29, R30, R112). -/
def SpanMaterialises (i : Instr) (p : State → SI → Prop) : Prop :=
  ∀ s e, SpanIssues s i e → p s e →
    exec i s = .next (if (e.x.flags.all fun n => n == 0) = true then s.materialise e.sid e.x.pos else s)
/-- The value that a vector register's uniform form has. -/
def SI.uni (e : SI) (n : Nat) : Word := (e.x.vf n).a
/-- The sources named have uniform forms (R25). -/
def SI.uniforms (e : SI) (l : List Nat) : Prop := ∀ n ∈ l, (e.x.vf n).uniform = true
/-- The span's record with register `d` constant. -/
def SI.puts (e : SI) (d : Nat) (w : Word) : Span := e.x.setVF d (Form.const w)
/-- The span's record after an instruction marked E whose sources are uniform, on elements of at most 32 bits (R156). -/
def SI.putsE (e : SI) (op : IOp) (d a b : Nat) : Span :=
  e.puts d (BitVec.ofNat 32 (iUnit op (mEtype e.x.mode) (mSat e.x.mode) (e.uni a).toNat (e.uni b).toNat (e.uni d).toNat))
/-- MODE gives 32-bit elements and leaves SAT clear. -/
def SI.affine (e : SI) : Prop := mSat e.x.mode = false ∧ wide32 e.x.mode = true
/-- The span's record after a uniform instruction (R152, R153). -/
def SI.putsS (e : SI) (d a b : Nat) (f : DWord → DWord → DWord) (cc : Option (DWord → DWord → CC)) : Span :=
  { e.x with
    s := e.x.s.set d (f (e.x.s.getD a 0) (e.x.s.getD b 0))
    cc := match cc with
      | some c => c (e.x.s.getD a 0) (e.x.s.getD b 0)
      | none => e.x.cc }
/-- The elements, exceptions and generator that a float instruction on uniform sources gives (R25, R75). -/
def SI.floats (e : SI) (f : Fmt → FEnv → Nat → Nat → Nat → Nat → Nat × Exc) (d a b : Nat) : Nat × Exc × Word :=
  let el (n k : Nat) : Nat := nfld (e.uni n).toNat (modeW e.x.mode * k) (modeW e.x.mode)
  elemsFrom (modeW e.x.mode) false (fun k x => f (modeFmt e.x.mode) (mEnv e.x.mode) (el a k) (el b k) (el d k) x) 0 (modeN e.x.mode) 1
/-- A float instruction on uniform sources executes once where RND is not SR: the result is a constant form, and its exceptions
join the span's sticky status (R25, R78). -/
def SpanFloats (i : Instr) (srcs : List Nat) (d a b : Nat) (f : Fmt → FEnv → Nat → Nat → Nat → Nat → Nat × Exc) : Prop :=
  ∀ s e, SpanIssues s i e → e.x.pf (mGuard e.x.mode) = .const true → e.canGo s e.after = true → mRnd e.x.mode ≠ .sr →
    e.uniforms srcs →
    exec i s = .next (e.goesTo (e.arith s (e.floats f d a b).2.1)
      { e.puts d (BitVec.ofNat 32 (e.floats f d a b).1) with sticky := e.x.sticky ||| (e.floats f d a b).2.1 } e.after)

/-- The memories that the module and the host hold have their canonical form. -/
def State.Canonical (s : State) : Prop := s.mem.units.wf = true ∧ s.mem.host.wf = true
/-- A write of `n` bytes at `a` reaches MGMTCMD, the register whose command 5 is a cold start (R450). -/
def hitsMgmtCmd (a n : Nat) : Bool := decide (a < 0xF00000000108) && decide (0xF00000000100 < a + n)
/-- A request is a group's write of the window that reaches MGMTCMD. -/
def State.writesMgmtCmd (s : State) (n : Nat) : Bool :=
  match tget s.work.reqs n with
  | some r => r.space == .window && hitsMgmtCmd r.pa (max r.size r.data.length)
  | none => false
/-- Whether an instruction's turn may begin a cold start: power returns, the command is given, or a write reaches MGMTCMD. -/
def State.mayStartCold (s : State) : Instr → Bool
  | .powerOn => !s.power
  | .mgmtColdStart => true
  | .registerWrite a n _ => hitsMgmtCmd a n
  | .homeStoreArrive n _ => s.writesMgmtCmd n
  | .homeAtomic n => s.writesMgmtCmd n
  | _ => false
/-- The byte that every store and atomic which has arrived leaves at a physical address of global memory: the line at its home
with all that is pending there over it, in order of arrival (R302). A reader sees a pending one only from its W on (R301,
R304). -/
def State.byteAt (s : State) (pa key : Nat) : Byte := (s.futureLine (pa / 128) key).getD (pa % 128) 0

end Sys2Proof.Machine
end

