-- ==== Sys2Proof/Certificates/Slice0/Obligations.lean ====
section
/-! DEFINITION. The claims about the machine that are stated for proof. -/
open Sys2Proof Sys2Proof.Machine

/-- R93 to R102 and the encoding tables of the instructions: words written out from the spec's fields decode to the
instructions that they stand for, and words that break a rule of encoding are refused by name. -/
def Obligations.DecodesSpecWords : Prop :=
  decode 0x0400C205 none = .instr (.iadd 3 4 5) 1 ∧
  decode 0x07488307 none = .instr (.icmp false .lt 2 6 7) 1 ∧
  decode 0x4000C205 none = .instr (.fadd 3 4 5) 1 ∧
  decode 0x48100081 none = .instr (.setseed 2 1) 1 ∧
  decode 0x802041E2 none = .instr (.ld 4 2 7 .b32 .ef false) 1 ∧
  decode 0x84284050 none = .instr (.st 5 2 1 .n16 .normal) 1 ∧
  decode 0xA82841A0 (some 0xF8000007) = .instr (.atom 5 2 6 .b32 .normal 7 0 .add .int) 2 ∧
  decode 0xBC000002 none = .instr (.fence .die) 1 ∧
  decode 0xC0224404 none = .instr (.mma true 2 16 4) 1 ∧
  decode 0xCC00460A none = .instr (.route 1 12 10) 1 ∧
  decode 0xD0200007 none = .instr (.trap 7) 1 ∧
  decode 0xD4100000 none = .instr .exit 1 ∧
  decode 0xA82841A0 none = .reject .extensionMissing ∧
  decode 0xF8000007 none = .reject .strayExtension

/-- R93 to R104: decoding the words of a well-formed instruction gives that instruction back, whatever its operands, and
takes just its words. -/
def Obligations.EncodeDecodeAgree : Prop :=
  ∀ (i : Instr) (w : Nat) (ws : List Nat), i.wf = true → encode i = w :: ws → decode w ws.head? = .instr i (ws.length + 1)

/-- R7, R98, R100, R105: what the decoder answers is a well-formed instruction, whose encoding is the words that it took. -/
def Obligations.DecodedWordsAreExact : Prop :=
  ∀ (w : Nat) (x : Option Nat) (i : Instr) (n : Nat), decode w x = .instr i n →
    i.wf = true ∧ ((n = 1 ∧ encode i = [w]) ∨ ∃ v, n = 2 ∧ x = some v ∧ encode i = [w, v])

/-- R18, R93, R98, R369, with the model's order of turns, of which the spec says nothing (assumption log 1: the agenda names
the turn, and an overdue group goes first, without time passing; 126: a Short instruction's exceptions that are due join before
that; 9: every other step takes the time at the head of the machine's list). A group that its quadrant's scheduler chooses fetches
at its position: the instruction that stands there is executed by that group, a clause header or one of two words among them; an
event is executed as one of no group. An overdue group executes the one-word instruction at which it stands inside its clause (its
clause headers and two-word instructions have no clause here). -/
def Obligations.StepRunsDecoded : Prop :=
  ∀ (s : State) (r : List Turn) (gid w n : Nat) (i : Instr) (e : GI) (x : Option Nat),
    let u : State := { s.tick with agenda := r }
    let v : State := s.modGroup gid fun g => { g with lastIssue := s.gtOf g.core }
    s.power = true →
    (s.overdue = none → s.tick.lateDue = none → s.agenda = .group gid :: r → u.gi gid .nop = some e → u.choose e.g.core e.g.quad = some gid →
      e.g.free = true → 0 < e.g.ctl.pos.k → e.fetchIn u (e.g.ctl.pos.h + 4 * e.g.ctl.pos.k) = .word w → decode w x = .instr i n →
      (takesExt w = true → e.g.ctl.pos.k < e.g.ctl.len ∧ ∃ y, x = some y ∧ e.fetchIn u (e.g.ctl.pos.h + 4 * (e.g.ctl.pos.k + 1)) = .word y) →
      step s = exec i { u with issuer := .group gid }) ∧
    (s.overdue = none → s.tick.lateDue = none → s.agenda = .group gid :: r → u.gi gid .nop = some e → u.choose e.g.core e.g.quad = some gid →
      e.g.free = true → e.g.ctl.pos.k = 0 → e.fetch u e.g.ctl.level e.g.ctl.pos.h = .word w → isHeader w = true →
      decode w none = .instr i n →
      step s = exec i { u with issuer := .group gid }) ∧
    (s.overdue = none → s.tick.lateDue = none → s.agenda = .event i :: r → step s = exec i { u with issuer := .none }) ∧
    (s.overdue = some gid → v.gi gid .nop = some e → e.g.free = true → 0 < e.g.ctl.pos.k →
      e.fetchIn v (e.g.ctl.pos.h + 4 * e.g.ctl.pos.k) = .word w → takesExt w = false → decode w none = .instr i n →
      step s = exec i { v with issuer := .group gid }) ∧
    s.tick.gt = s.gt + s.delays.headD 1

/-- R455, with the model's own name for it (assumption log 97: a step without power is the fault noPower): without power
nothing happens but POWER_ON. -/
def Obligations.NothingRunsWithoutPower : Prop :=
  ∀ (s : State) (i : Instr), s.power = false → i ≠ .powerOn →
    exec i s = .fault .noPower ∧ (s.agenda.head? ≠ some (.event .powerOn) → step s = .fault .noPower)

/-- R18, R297, R442 (assumption log 1: an overdue group goes first and no time passes before its turn; 9: the time that a step
takes is drawn from a list of the machine's): in every step GT advances by the time that the step takes, which is never negative,
or, where an overdue group goes first, stays; it returns to 0 only in a turn that may begin a cold start. R316, R328: the memories
of the module and of the host keep their canonical form. -/
def Obligations.StepKeepsTimeAndMemoryForm : Prop :=
  ∀ (s s' : State), step s = .next s' →
    (s.power = true → s.overdue.isSome = true → s'.gt = s.gt) ∧
    (¬ (s.power = true ∧ s.overdue.isSome = true) →
      s'.gt = s.gt + s.delays.headD 1 ∨
        (s'.gt = 0 ∧ ∃ i u, s.tick.select = (some (.instr i), u) ∧ u.mayStartCold i = true)) ∧
    (s.Canonical → s'.Canonical)

/-- What reset leaves: the registers that the spec gives a reset value (R340, R389, R395, R417, R442, R446, R451), no
context, no work, every memory in its canonical form with nothing listed. The step counter of the cold start and the
free-value counter are the model's choice (assumption log). -/
def Obligations.ResetLeaves : Prop :=
  State.reset.mgmt.level = 0 ∧ State.reset.mgmt.busy = false ∧
  State.reset.pkg.captarget = State.reset.pkg.capacity ∧
  State.reset.dies = List.replicate 4 Die.reset ∧ State.reset.caravans = List.replicate 6 Caravan.reset ∧
  State.reset.ports = List.replicate 16 Port.reset ∧
  State.reset.barchan = Barchan.reset ∧ State.reset.retire = none ∧ State.reset.keys = [] ∧
  State.reset.ctxs = [] ∧ State.reset.launches = [] ∧ State.reset.teams = [] ∧ State.reset.spans = [] ∧ State.reset.groups = [] ∧
  State.reset.mem = Mem.reset ∧ State.reset.work = Work.reset ∧
  Memory.wf State.reset.mem.units = true ∧ Memory.wf State.reset.mem.host = true ∧
  (∀ d ∈ State.reset.dies, d.state = 0 ∧ d.pending = false ∧ (∀ r ∈ d.retain, r.valid = false)) ∧
  (∀ p ∈ State.reset.ports, p.up = false ∧ p.lanes = 0)

/-- What an instruction that writes registers alone leaves as it was (R49, R109): for the integer, predicate, uniform,
identity and move instructions named, when a group's issue answers a next state, every other group, every byte of memory and
every field of the machine beside the groups is as before, and so are the group's own mask stack, sticky status and what is
still to join it, trap registers, accumulators and generators. -/
def Obligations.FrameOfRegisterWrites : Prop :=
  ∀ (s t : State) (e : GI) (i : Instr) (d a b p : Nat) (f : Bool) (imm : Int) (k : IdxSel) (c : ICond),
    i ∈ [.iadd d a b, .isub d a b, .imul d a b, .imad d a b, .iand d a b, .ior d a b, .ixor d a b, .ishl d a b, .ishr d a b,
      .isra d a b, .imin d a b, .imax d a b, .iabs d a, .clz d a, .popc d a, .brev d a, .bfe d a b, .bfi d a b, .mov d a,
      .movs d a f, .icmp f c p a b, .iaddi d a imm, .movi d imm, .idx d k, .getmode d, .isel d a f p, .pand d a b, .por d a b,
      .pxor d a b, .pandn d a b, .pcnt d a, .sadd d a b f, .ssub d a b f, .smul d a b f, .scmp a b, .smov d a, .smovi d imm] →
    Issues s i e → GoesOn s e → exec i s = .next t →
    (∀ g, g ≠ e.gid → tget t.groups g = tget s.groups g) ∧
    (∀ pa key, t.byteAt pa key = s.byteAt pa key) ∧
    t = { s with groups := t.groups } ∧
    ∃ g, tget t.groups e.gid = some g ∧ g.stack = e.g.stack ∧ g.active = e.g.active ∧ g.sticky = e.g.sticky ∧ g.late = e.g.late ∧
      g.bankS = e.g.bankS ∧ g.bankM = e.g.bankM ∧ g.rng = e.g.rng ∧ g.flags = e.g.flags ∧ g.regs.mode = e.g.regs.mode ∧
      g.regs.t = e.g.regs.t ∧ g.ctl.level = e.g.ctl.level ∧ g.ctl.pos = e.after

/-- R204, R301, R302: a store that arrives at the home that holds its line is pending there. The byte that every earlier
arrival leaves, which atomics see and readers from the store's W on (assumption log 139 names this view of memory, 12 the bytes
that a slot shows of a line kept under another), is then the store's at its own addresses and as before at every other, of that
line and of every other line, whatever the slot it is asked through. -/
def Obligations.StoresWriteTheirBytes : Prop :=
  ∀ (s : State) (n : Nat) (r : Req) (h : HomeLine) (inst : Bool),
    s.power = true → s.reqNow n = some r → r.kind = .store → s.homeReady r = true → s.homeLine (r.pa / 128) = some h →
    h.data.length = 128 → r.pa % 128 + r.data.length ≤ 128 →
    ∃ t, exec (.homeStoreArrive n inst) s = .next t ∧
      ∀ a key, t.byteAt a key = if r.pa ≤ a ∧ a < r.pa + r.data.length then r.data.getD (a - r.pa) 0 else s.byteAt a key

/-- R44: p15 reads as all ones and writes to it are discarded; every other predicate register, p14 among them, is an
ordinary one: a gated write gives it the written bits in its lanes, keeps the others, and leaves the other predicates. -/
def Obligations.PredicateRegisters : Prop :=
  ∀ (r : Regs) (n k : Nat) (m bits : Mask),
    r.pr 15 = BitVec.allOnes 64 ∧ r.setPr 15 m bits = r ∧
    (r.p.length = 15 → n < 15 → (r.setPr n m bits).pr n = ((bits &&& m) ||| (r.pr n &&& ~~~m))) ∧
    (k ≠ n → (r.setPr n m bits).pr k = r.pr k)

/-- R95, R97: a clause header with LEN 0, or with SETA or SETB in 12 to 14, raises ILLEGAL at its own position, with k = 0,
when it is reached; an instruction that must be the last word of its clause, or its only word, raises ILLEGAL where it is
not. -/
def Obligations.ClauseRules : Prop :=
  ∀ (s : State) (e : GI) (i : Instr) (r : List Turn) (w p : Nat) (o : Int) (c : Cond) (imm : Nat),
    (s.power = true → s.overdue = none → s.tick.lateDue = none → s.agenda = .group e.gid :: r → ({ s.tick with agenda := r } : State).gi e.gid .nop = some e →
      ({ s.tick with agenda := r } : State).choose e.g.core e.g.quad = some e.gid →
      e.g.free = true → e.g.ctl.pos.k = 0 → e.fetch { s.tick with agenda := r } e.g.ctl.level e.g.ctl.pos.h = .word w →
      isHeader w = true →
      (w % 64 = 0 ∨ (12 ≤ w / 1024 % 16 ∧ w / 1024 % 16 ≤ 14) ∨ (12 ≤ w / 64 % 16 ∧ w / 64 % 16 ≤ 14)) →
      step s = .next (({ s.tick with agenda := r } : State).raise e.gid ⟨.illegal, w, 0, 0, ⟨e.g.ctl.pos.h, 0⟩, false⟩)) ∧
    (s.power = true → s.issuer = .group e.gid → s.gi e.gid i = some e → e.g.ready i = true → e.g.ctl.hold = none →
      e.g.ctl.owed = [] →
      ((i ∈ [.bra c o, .brz p o, .brnz p o, .call o, .jmps p, .ret, .exit, .trapu imm, .mif p o, .mbrk p o, .mcont p o] ∧
          e.g.ctl.pos.k ≠ e.g.ctl.len) ∨
        (i ∈ [.melse o, .mend, .mloop, .mendl o] ∧ e.g.ctl.len ≠ 1)) →
      exec i s = .next (s.raise e.gid ⟨.illegal, (encode i).headD 0, 0, 0, e.g.ctl.pos, false⟩))

/-- R90: LOSSX keeps the exponent that CSRW writes when it lies in −64 to +64, and ignores the write otherwise; its other
bits read as zero, and it is 0 in the registers of a context that nothing has written. -/
def Obligations.LossScaleRegister : Prop :=
  ∀ (s : State) (g : Group) (k : CtxRun) (c d gid tid v : Nat), tget s.runs c = some k →
    let x := sgn (v % 256) 8
    (s.csrWrite .lossx gid c tid v).csrValue .lossx g d c =
      (if -64 ≤ x ∧ x ≤ 64 then v % 256 else s.csrValue .lossx g d c) ∧
    s.csrValue .lossx g d c < 256 ∧
    ({ s with runs := [] } : State).csrValue .lossx g d c = 0

/-- R457: the register that PIN grants is the lowest-numbered one of the issuing die that no context holds, and the handle
in PIN's value is that register's number. -/
def Obligations.PinTakesLowestRegister : Prop :=
  ∀ (s : State) (op : Op) (ctx d i : Nat),
    (s.pinStatus (coreDie op.core) ctx (op.misc.map fun n => BitVec.ofNat 8 n)).2 = some i →
    let x := s.die (coreDie op.core)
    i < 4 ∧ (x.retain.getD i Retain.reset).valid = false ∧ (∀ j < i, (x.retain.getD j Retain.reset).valid = true) ∧
    (s.pinDone op ctx d).1 = .uni d (BitVec.ofNat 64 (256 * i))

/-- R15: the index that IDX gives under `lin` is ((ty·GX + tx)·TY + jy)·TX + jx. -/
def Obligations.LaunchIndex : Prop :=
  ∀ (d : Nat), WritesRegs (.idx d .lin) (fun _ e => e.lanewise d fun _ l => match e.g.items.getD l none with
    | some it => BitVec.ofNat 32 (((it.ty * e.launch.gx + it.tx) * e.launch.ty + it.jy) * e.launch.tx + it.jx)
    | none => 0)

/-- R23, R25, R26, R28, R29, R128, R146 to R148, R150, R152, R156: a span executes an instruction that R25 admits once for all
its items, on the forms, the predicate forms and the uniform registers, and goes on or transfers control as a span. A gated
instruction under a GUARD that is constant false writes nothing. It materialises at a gated instruction under a GUARD that is
not constant, at an operand form that R25, R23 or R26 does not admit, and at an instruction that R25 does not name, once its
flags are clear. -/
def Obligations.SpansExecuteForms : Prop :=
   (∀ (d a b : Nat) (imm : Int) (hi : Bool) (z : IdxSel) (y : Form) (n : Nat),
      SpanRuns (.mov d a) (fun _ => True) (fun e => e.x.setVF d (e.x.vf a)) ∧
      SpanRuns (.movi d imm) (fun _ => True) (fun e => e.puts d (BitVec.ofInt 32 imm)) ∧
      SpanRuns (.movhi d n) (fun _ => True)
        (fun e => e.x.setVF d (Form.map2 (· + ·) (e.x.vf d) (Form.const (BitVec.ofNat 32 (n * 8192))))) ∧
      SpanRuns (.movs d a hi) (fun _ => True)
        (fun e => e.puts d (BitVec.ofNat 32 (if hi then (e.x.s.getD a 0).toNat / 2 ^ 32 else (e.x.s.getD a 0).toNat))) ∧
      SpanRuns (.idx d z) (fun e => idxForm e.launch z = some y) (fun e => e.x.setVF d y) ∧
      SpanRuns (.iadd d a b) SI.affine (fun e => e.x.setVF d (Form.map2 (· + ·) (e.x.vf a) (e.x.vf b))) ∧
      SpanRuns (.isub d a b) SI.affine (fun e => e.x.setVF d (Form.map2 (· - ·) (e.x.vf a) (e.x.vf b))) ∧
      SpanRuns (.iaddi d a imm) SI.affine
        (fun e => e.x.setVF d (Form.map2 (· + ·) (e.x.vf a) (Form.const (BitVec.ofInt 32 imm)))) ∧
      SpanRuns (.imul d a b) (fun e => e.affine ∧ (e.x.vf b).uniform = true)
        (fun e => e.x.setVF d (Form.scale (e.uni b) (e.x.vf a))) ∧
      SpanRuns (.imul d a b) (fun e => e.affine ∧ (e.x.vf b).uniform = false ∧ (e.x.vf a).uniform = true)
        (fun e => e.x.setVF d (Form.scale (e.uni a) (e.x.vf b))) ∧
      SpanRuns (.imad d a b) (fun e => e.affine ∧ (e.x.vf b).uniform = true)
        (fun e => e.x.setVF d (Form.map2 (· + ·) (Form.scale (e.uni b) (e.x.vf a)) (e.x.vf d))) ∧
      SpanRuns (.imad d a b) (fun e => e.affine ∧ (e.x.vf b).uniform = false ∧ (e.x.vf a).uniform = true)
        (fun e => e.x.setVF d (Form.map2 (· + ·) (Form.scale (e.uni a) (e.x.vf b)) (e.x.vf d))) ∧
      SpanRuns (.ishl d a b) (fun e => wide32 e.x.mode = true ∧ (e.x.vf b).uniform = true)
        (fun e => e.x.setVF d (if 32 ≤ (e.uni b).toNat then Form.const 0
          else Form.scale (BitVec.ofNat 32 (2 ^ (e.uni b).toNat)) (e.x.vf a))) ∧
      SpanRuns (.ishli d a n) (fun e => wide32 e.x.mode = true)
        (fun e => e.x.setVF d (if 32 ≤ n then Form.const 0 else Form.scale (BitVec.ofNat 32 (2 ^ n)) (e.x.vf a)))) ∧
   (∀ (d a b p : Nat) (u : Bool) (c : ICond) (y : PForm),
      SpanRuns (.icmp u c p a b) (fun e => mPair e.x.mode = false ∧ cmpForms c u e.x.box (e.x.vf a) (e.x.vf b) = some y)
        (fun e => e.x.setPF p y) ∧
      SpanRuns (.pand d a b) (fun e => (e.x.pf a).and (e.x.pf b) = some y) (fun e => e.x.setPF d y) ∧
      SpanRuns (.por d a b) (fun e => (e.x.pf a).or (e.x.pf b) = some y) (fun e => e.x.setPF d y) ∧
      SpanRuns (.pxor d a b) (fun e => (e.x.pf a).xor (e.x.pf b) = some y) (fun e => e.x.setPF d y) ∧
      SpanRuns (.pandn d a b) (fun e => (e.x.pf a).andn (e.x.pf b) = some y) (fun e => e.x.setPF d y)) ∧
   (∀ (d a b k : Nat) (n v : Bool),
      SpanRuns (.iand d a b) (fun e => e.uniforms [a, b]) (fun e => e.puts d (e.uni a &&& e.uni b)) ∧
      SpanRuns (.ior d a b) (fun e => e.uniforms [a, b]) (fun e => e.puts d (e.uni a ||| e.uni b)) ∧
      SpanRuns (.ixor d a b) (fun e => e.uniforms [a, b]) (fun e => e.puts d (e.uni a ^^^ e.uni b)) ∧
      SpanRuns (.popc d a) (fun e => e.uniforms [a]) (fun e => e.puts d (BitVec.ofNat 32 (popN 32 (e.uni a).toNat))) ∧
      SpanRuns (.ishr d a b) (fun e => mPair e.x.mode = false ∧ e.uniforms [a, b]) (fun e => e.putsE .shr d a b) ∧
      SpanRuns (.isra d a b) (fun e => mPair e.x.mode = false ∧ e.uniforms [a, b]) (fun e => e.putsE .sra d a b) ∧
      SpanRuns (.imin d a b) (fun e => mPair e.x.mode = false ∧ e.uniforms [a, b]) (fun e => e.putsE .smin d a b) ∧
      SpanRuns (.imax d a b) (fun e => mPair e.x.mode = false ∧ e.uniforms [a, b]) (fun e => e.putsE .smax d a b) ∧
      SpanRuns (.imulhi d a b) (fun e => mPair e.x.mode = false ∧ e.uniforms [a, b]) (fun e => e.putsE .mulhi d a b) ∧
      SpanRuns (.iadd d a b) (fun e => mSat e.x.mode = true ∧ mPair e.x.mode = false ∧ e.uniforms [a, b]) (fun e => e.putsE .add d a b) ∧
      SpanRuns (.isub d a b) (fun e => mSat e.x.mode = true ∧ mPair e.x.mode = false ∧ e.uniforms [a, b]) (fun e => e.putsE .sub d a b) ∧
      SpanRuns (.imul d a b) (fun e => mSat e.x.mode = true ∧ mPair e.x.mode = false ∧ e.uniforms [a, b]) (fun e => e.putsE .mul d a b) ∧
      SpanRuns (.imad d a b) (fun e => mSat e.x.mode = true ∧ mPair e.x.mode = false ∧ e.uniforms [a, b, d]) (fun e => e.putsE .mad d a b) ∧
      SpanRuns (.isel d a n k) (fun e => e.x.pf k = .const v ∧ e.uniforms [a, d]) (fun e => if v != n then e.x.setVF d (e.x.vf a) else e.x) ∧
      SpanFloats (.fadd d a b) [a, b] d a b (fun f v x y z r => fElem f v .add x y z r) ∧
      SpanFloats (.fsub d a b) [a, b] d a b (fun f v x y z r => fElem f v .sub x y z r) ∧
      SpanFloats (.fmul d a b) [a, b] d a b (fun f v x y z r => fElem f v .mul x y z r) ∧
      SpanFloats (.fmad d a b) [a, b, d] d a b (fun f v x y z r => fElem f v .mad x y z r)) ∧
   (∀ (d a b : Nat) (f n : Bool) (c : SCond) (imm : Int) (k m : Nat) (q : SrSel) (v : DWord) (w : Word),
      SpanRuns (.sadd d a b f) (fun _ => True) (fun e => e.putsS d a b (· + ·) (if f then some ccAdd else none)) ∧
      SpanRuns (.ssub d a b f) (fun _ => True) (fun e => e.putsS d a b (· - ·) (if f then some ccSub else none)) ∧
      SpanRuns (.smul d a b f) (fun _ => True) (fun e => e.putsS d a b (· * ·) (if f then some ccMul else none)) ∧
      SpanRuns (.smulh d a b n f) (fun _ => True)
        (fun e => e.putsS d a b (if n then mulhU else mulhS) (ccIf f (if n then mulhU else mulhS))) ∧
      SpanRuns (.sand d a b f) (fun _ => True) (fun e => e.putsS d a b (· &&& ·) (ccIf f (· &&& ·))) ∧
      SpanRuns (.sor d a b f) (fun _ => True) (fun e => e.putsS d a b (· ||| ·) (ccIf f (· ||| ·))) ∧
      SpanRuns (.sxor d a b f) (fun _ => True) (fun e => e.putsS d a b (· ^^^ ·) (ccIf f (· ^^^ ·))) ∧
      SpanRuns (.sshl d a b f) (fun _ => True) (fun e => e.putsS d a b shlU (ccIf f shlU)) ∧
      SpanRuns (.sshr d a b f) (fun _ => True) (fun e => e.putsS d a b shrU (ccIf f shrU)) ∧
      SpanRuns (.ssra d a b f) (fun _ => True) (fun e => e.putsS d a b sraU (ccIf f sraU)) ∧
      SpanRuns (.smin d a b n f) (fun _ => True) (fun e => e.putsS d a b (minU n) (ccIf f (minU n))) ∧
      SpanRuns (.smax d a b n f) (fun _ => True) (fun e => e.putsS d a b (maxU n) (ccIf f (maxU n))) ∧
      SpanRuns (.scmp a b) (fun _ => True) (fun e => { e.x with cc := ccSub (e.x.s.getD a 0) (e.x.s.getD b 0) }) ∧
      SpanRuns (.ssel d a b c) (fun _ => True)
        (fun e => { e.x with s := e.x.s.set d (if c.holds e.x.cc then e.x.s.getD a 0 else e.x.s.getD b 0) }) ∧
      SpanRuns (.smov d a) (fun _ => True) (fun e => { e.x with s := e.x.s.set d (e.x.s.getD a 0) }) ∧
      SpanRuns (.smovi d imm) (fun _ => True) (fun e => { e.x with s := e.x.s.set d (BitVec.ofInt 64 imm) }) ∧
      SpanRuns (.saddImm d a imm) (fun _ => True) (fun e => { e.x with s := e.x.s.set d (e.x.s.getD a 0 + BitVec.ofInt 64 imm) }) ∧
      SpanRuns (.smovhi d a k) (fun _ => True)
        (fun e => { e.x with s := e.x.s.set d (e.x.s.getD a 0 <<< 14 ||| BitVec.ofNat 64 k) }) ∧
      SpanRuns (.getmode d) (fun _ => True) (fun e => { e.x with s := e.x.s.set d (e.x.mode.setWidth 64) }) ∧
      SpanRuns (.setmodeReg m a) (fun e => setModeTo e.x.mode m (nfld (e.x.s.getD a 0).toNat 0 32) = some w)
        (fun e => { e.x with mode := w }) ∧
      SpanRuns (.setmodeImm m k) (fun e => (modeImage m k).bind (setModeTo e.x.mode m) = some w) (fun e => { e.x with mode := w }) ∧
      SpanGoes (.sread d false q) (fun s e => s.sreadShared e.launch e.x.core q = some v)
        (fun _ e => { e.x with s := e.x.s.set d v }) SI.after ∧
      SpanRuns (.bar k m) (fun e => e.x.whole e.launch = true ∧ k ≤ e.launch.groupsPer) (fun e => e.x) ∧
      SpanRuns .nop (fun _ => True) (fun e => e.x)) ∧
   (∀ (c : Cond) (o : Int) (p a : Nat),
      SpanGoes (.bra c o) (fun _ e => c.holds e.x.cc = true) (fun _ e => e.x) (fun e => ⟨e.target o, 0⟩) ∧
      SpanRuns (.bra c o) (fun e => c.holds e.x.cc = false) (fun e => e.x) ∧
      SpanGoes (.brz p o) (fun _ e => e.x.box.someTrue e.launch (e.x.pf p) = some false) (fun _ e => e.x) (fun e => ⟨e.target o, 0⟩) ∧
      SpanRuns (.brz p o) (fun e => e.x.box.someTrue e.launch (e.x.pf p) = some true) (fun e => e.x) ∧
      SpanGoes (.brnz p o) (fun _ e => e.x.box.someTrue e.launch (e.x.pf p) = some true) (fun _ e => e.x) (fun e => ⟨e.target o, 0⟩) ∧
      SpanRuns (.brnz p o) (fun e => e.x.box.someTrue e.launch (e.x.pf p) = some false) (fun e => e.x) ∧
      SpanGoes (.call o) (fun _ e => addrOk (BitVec.ofNat 64 (e.target o)) = true)
        (fun _ e => { e.x with s := e.x.s.set 63 (BitVec.ofNat 64 e.next) }) (fun e => ⟨e.target o, 0⟩) ∧
      SpanGoes .ret (fun _ e => addrOk (e.x.s.getD 63 0) = true) (fun _ e => e.x) (fun e => ⟨(e.x.s.getD 63 0).toNat, 0⟩) ∧
      SpanGoes (.jmps a) (fun _ e => addrOk (e.x.s.getD a 0) = true) (fun _ e => e.x) (fun e => ⟨(e.x.s.getD a 0).toNat, 0⟩) ∧
      (∀ s e, SpanIssues s .exit e → (e.x.flags.all fun n => n == 0) = true →
        exec .exit s = .next (s.removeSpan e.sid e.x.core e.x.launch)) ∧
      (∀ s e, SpanIssues s .mater e → e.canGo s e.after = true → (e.x.flags.all fun n => n == 0) = true →
        exec .mater s = .next ((e.goesTo s e.x e.after).materialise e.sid e.after))) ∧
   (∀ (d a b p m n k sr o : Nat) (imm : Int) (hi u w : Bool) (c : ICond) (x : IdxSel) (l : List Half) (q : SrSel) (g : RedOp)
      (sz : Size) (h : Hint) (op : AOp) (ty : AType) (sc : Scope) (csr : Csr) (j : Instr),
      (∀ s e, j ∈ [.mov d a, .movi d imm, .movhi d n, .movs d a hi] → SpanIssues s j e → e.x.pf (mGuard e.x.mode) = .const false →
        e.canGo s e.after = true → exec j s = .next (e.goesTo s e.x e.after)) ∧
      (j ∈ [.mov d a, .movi d imm, .movs d a hi, .idx d x, .iadd d a b, .isub d a b, .imul d a b, .iaddi d a imm, .ishl d a b,
          .icmp u c p a b, .iand d a b, .isel d a u p, .pand d a b, .por d a b, .fadd d a b, .fmul d a b, .st d sr o sz h] →
        SpanMaterialises j fun _ e => e.x.pf (mGuard e.x.mode) = .conj l) ∧
      SpanMaterialises (.imul d a b) (fun _ e => e.affine ∧ (e.x.vf a).uniform = false ∧ (e.x.vf b).uniform = false) ∧
      SpanMaterialises (.ishl d a b) (fun _ e => (e.x.vf b).uniform = false) ∧
      SpanMaterialises (.icmp u c p a b) (fun _ e => mPair e.x.mode = false ∧ cmpForms c u e.x.box (e.x.vf a) (e.x.vf b) = none) ∧
      SpanMaterialises (.pand d a b) (fun _ e => (e.x.pf a).and (e.x.pf b) = none) ∧
      SpanMaterialises (.iand d a b) (fun _ e => (e.x.vf a).uniform = false) ∧
      SpanMaterialises (.iadd d a b) (fun _ e => mSat e.x.mode = true ∧ (e.x.vf a).uniform = false) ∧
      SpanMaterialises (.fadd d a b) (fun _ e => mRnd e.x.mode = .sr ∨ (e.x.vf a).uniform = false) ∧
      SpanMaterialises (.sread d w q) (fun s e => s.sreadShared e.launch e.x.core q = none) ∧
      SpanMaterialises (.brz p imm) (fun _ e => e.x.box.someTrue e.launch (e.x.pf p) = none) ∧
      SpanMaterialises (.brnz p imm) (fun _ e => e.x.box.someTrue e.launch (e.x.pf p) = none) ∧
      (j ∈ [.setseed a b, .pcnt d a, .pfirst d a, .ptos d a hi, .stop d a hi, .rcp d a, .tanh d a, .shflIdx d a hi b, .qswap d a .h,
          .redlog d a g, .ballot d a, .ld d sr o sz h hi, .lds d sr imm, .sts d sr imm, .ldl d sr o sz, .stl d sr o sz,
          .ldc d sr o sz, .ldp d sr o sz h, .atom d sr o sz h b m op ty, .redst d sr o sz h op ty] →
        SpanMaterialises j fun _ _ => True) ∧
      (j ∈ [.fence sc, .bararr n k, .barwait k, .bcwait d n, .cpyk n a, .claim d b a, .acqw d a, .pubw b a, .mbxsend a n hi, .mbxrecv d a,
          .spawn d a b hi k, .azero d, .mma hi m a d, .hgather d a sr n k, .rbox d a sr n, .draw d a n hi, .ordent k p, .regroup k,
          .csrr csr d, .csrw csr a, .route n o d, .xdone a, .trapu k, .bkpt k, .pyield] →
        SpanMaterialises j fun _ _ => True))

/-- R156 to R162, R164: the instructions marked E write the destination unit of every lane that GUARD and the mask let them
write, element by element under MODE's ETYPE and SAT, and nothing else. -/
def Obligations.VectorIntegerByElements : Prop :=
  ∀ (d a b : Nat) (imm : Int) (k : Nat),
    WritesRegs (.iadd d a b) (fun _ e => e.unitE (iUnit .add) d a b) ∧
    WritesRegs (.isub d a b) (fun _ e => e.unitE (iUnit .sub) d a b) ∧
    WritesRegs (.imul d a b) (fun _ e => e.unitE (iUnit .mul) d a b) ∧
    WritesRegs (.imulhi d a b) (fun _ e => e.unitE (iUnit .mulhi) d a b) ∧
    WritesRegs (.imulhn d a b) (fun _ e => e.unitE (iUnit .mulhn) d a b) ∧
    WritesRegs (.imad d a b) (fun _ e => e.unitE (iUnit .mad) d a b) ∧
    WritesRegs (.ishl d a b) (fun _ e => e.unitE (iUnit .shl) d a b) ∧
    WritesRegs (.ishr d a b) (fun _ e => e.unitE (iUnit .shr) d a b) ∧
    WritesRegs (.isra d a b) (fun _ e => e.unitE (iUnit .sra) d a b) ∧
    WritesRegs (.imin d a b) (fun _ e => e.unitE (iUnit .smin) d a b) ∧
    WritesRegs (.imax d a b) (fun _ e => e.unitE (iUnit .smax) d a b) ∧
    WritesRegs (.iminn d a b) (fun _ e => e.unitE (iUnit .umin) d a b) ∧
    WritesRegs (.imaxn d a b) (fun _ e => e.unitE (iUnit .umax) d a b) ∧
    WritesRegs (.iabs d a) (fun _ e => e.unitE (iUnit .abs) d a a) ∧
    WritesRegs (.iaddi d a imm) (fun _ e => e.unitE (fun et sat x _ _ => iUnit .add et sat x (immUnit et imm) 0) d a a) ∧
    WritesRegs (.ishli d a k) (fun _ e => e.unitE (fun et _ x _ _ =>
      packElems (if (intShape et).1 = 64 then 1 else 32 / (intShape et).1) (intShape et).1
        (fun y _ _ => iElem .shl (intShape et).1 false false y k 0) x 0 0) d a a)

/-- R157, R161 to R166, R181: bitwise, bit-counting, field, interleave, move, immediate and byte-permutation instructions
write the destination register lane by lane; ICMP and ISEL likewise (R160, R165). -/
def Obligations.VectorBitsAndMoves : Prop :=
  ∀ (d a b p : Nat) (hi n neg : Bool) (c : ICond) (imm : Int) (k : Nat),
    WritesRegs (.iand d a b) (fun _ e => e.lanewise d fun r l => r.vl a l &&& r.vl b l) ∧
    WritesRegs (.ior d a b) (fun _ e => e.lanewise d fun r l => r.vl a l ||| r.vl b l) ∧
    WritesRegs (.ixor d a b) (fun _ e => e.lanewise d fun r l => r.vl a l ^^^ r.vl b l) ∧
    WritesRegs (.clz d a) (fun _ e => e.lanewise d fun r l => BitVec.ofNat 32 (clz32 (r.vl a l).toNat)) ∧
    WritesRegs (.popc d a) (fun _ e => e.lanewise d fun r l => BitVec.ofNat 32 (popN 32 (r.vl a l).toNat)) ∧
    WritesRegs (.brev d a) (fun _ e => e.lanewise d fun r l => BitVec.ofNat 32 (brevN 32 (r.vl a l).toNat)) ∧
    WritesRegs (.bfe d a b) (fun _ e => e.lanewise d fun r l => BitVec.ofNat 32 (bfe32 (r.vl a l).toNat (r.vl b l).toNat)) ∧
    WritesRegs (.bfi d a b) (fun _ e => e.lanewise d fun r l =>
      BitVec.ofNat 32 (bfi32 (r.vl a l).toNat (r.vl b l).toNat (r.vl d l).toNat)) ∧
    WritesRegs (.intlv2 d a b) (fun _ e => e.lanewise d fun r l =>
      BitVec.ofNat 32 (intlvTwo 16 (r.vl a l).toNat (r.vl b l).toNat)) ∧
    WritesRegs (.intlv3 d a b) (fun _ e => e.lanewise d fun r l =>
      BitVec.ofNat 32 (intlvThree 10 (r.vl a l).toNat (r.vl b l).toNat (r.vl d l).toNat)) ∧
    WritesRegs (.mov d a) (fun _ e => e.lanewise d fun r l => r.vl a l) ∧
    WritesRegs (.movs d a hi) (fun _ e => e.lanewise d fun r _ =>
      BitVec.ofNat 32 (if hi then (r.sr a).toNat / 2 ^ 32 else (r.sr a).toNat)) ∧
    WritesRegs (.movi d imm) (fun _ e => e.lanewise d fun _ _ => BitVec.ofInt 32 imm) ∧
    WritesRegs (.movhi d k) (fun _ e => e.lanewise d fun r l => r.vl d l + BitVec.ofNat 32 (k * 8192)) ∧
    WritesRegs (.packb d a b) (fun _ e => e.lanewise d fun r l =>
      BitVec.ofNat 32 (packbW (mEtype e.mode) (r.vl a l).toNat (r.vl b l).toNat)) ∧
    WritesRegs (.permb d a b) (fun _ e => e.lanewise d fun r l =>
      BitVec.ofNat 32 (permbW (r.vl a l).toNat (r.vl b l).toNat (r.vl d l).toNat)) ∧
    WritesRegs (.isel d a neg p) (fun _ e => e.lanewise d fun r l => if inMask (r.pr p) l != neg then r.vl a l else r.vl d l) ∧
    WritesRegs (.icmp n c p a b) (fun _ e => e.g.regs.setPr p e.lanes (maskOf fun l =>
      iCompare c n (intShape (mEtype e.mode)).1 (e.g.regs.vu (mPair e.mode) a l) (e.g.regs.vu (mPair e.mode) b l)))

/-- R167, R168, R194: predicate instructions write their predicate in the lanes that write, or a uniform register with what
they count, VOTE what the contributing lanes of a sub-group agree on; writes to p15 are discarded (R44), and a .hi form reads zero
or writes nothing on this part (R11; that STOP.hi is a gated instruction all the same is the model's choice, assumption log
119). -/
def Obligations.PredicateInstructions : Prop :=
  ∀ (d a b : Nat) (o : VoteOp),
    WritesRegs (.pand d a b) (fun _ e => e.g.regs.setPr d e.lanes (e.g.regs.pr a &&& e.g.regs.pr b)) ∧
    WritesRegs (.por d a b) (fun _ e => e.g.regs.setPr d e.lanes (e.g.regs.pr a ||| e.g.regs.pr b)) ∧
    WritesRegs (.pxor d a b) (fun _ e => e.g.regs.setPr d e.lanes (e.g.regs.pr a ^^^ e.g.regs.pr b)) ∧
    WritesRegs (.pandn d a b) (fun _ e => e.g.regs.setPr d e.lanes (e.g.regs.pr a &&& ~~~(e.g.regs.pr b))) ∧
    WritesRegs (.pcnt d a) (fun _ e => e.g.regs.setS d (BitVec.ofNat 64 (popN 64 (e.g.regs.pr a &&& e.g.active).toNat))) ∧
    WritesRegs (.pfirst d a) (fun _ e => e.g.regs.setPr d e.lanes
      (match (lanesOf (e.g.regs.pr a &&& e.g.active)).head? with
       | some l => BitVec.ofNat 64 (2 ^ l)
       | none => 0)) ∧
    WritesRegs (.ptos d a false) (fun _ e => e.g.regs.setS d (e.g.regs.pr a &&& e.g.active)) ∧
    WritesRegs (.ptos d a true) (fun _ e => e.g.regs.setS d 0) ∧
    WritesRegs (.stop d a false) (fun _ e => e.g.regs.setPr d e.lanes (e.g.regs.sr a)) ∧
    WritesRegs (.stop d a true) (fun _ e => e.g.regs) ∧
    WritesRegs (.vote d a o) (fun _ e => e.g.regs.setPr d e.lanes (maskOf fun l =>
      voteOf o (((subLanes e.mode l).filter (inMask e.g.active)).map (inMask (e.g.regs.pr a)))))

/-- R146, R147, R148, R151, R276: IDX, SREAD, SPANQ, GETMODE and CSRR read what identifies a lane, a group, the launch and
the machine into a register. R150: MATER has no effect in a group. R76, R148, R149: SREAD with clearing leaves the group with its
sticky status zero, and its value is the status before. R77: what a Short instruction has raised joins the sticky status once its
latency has passed, and not before (assumption log 126). R144, R145: SETMODE replaces exactly the fields of MODE that its mask
names, where the fields are legal (R48). -/
def Obligations.IdentityAndMode : Prop :=
   (∀ (d : Nat) (k : IdxSel) (q : SrSel) (r : Csr),
      WritesRegs (.idx d k) (fun _ e => e.lanewise d fun _ l => match e.g.items.getD l none with
        | some it => idxValue e.launch it l k
        | none => 0) ∧
      WritesRegs (.sread d false q) (fun s e => e.g.regs.setS d ((s.sreadShared e.launch e.g.core q).getD (e.sreadOwn q))) ∧
      WritesRegs (.spanq d) (fun _ e => e.g.regs.setS d 0) ∧
      WritesRegs .mater (fun _ e => e.g.regs) ∧
      WritesRegs (.getmode d) (fun _ e => e.g.regs.setS d (e.mode.setWidth 64)) ∧
      WritesRegs (.csrr r d) (fun s e => e.g.regs.setS d (BitVec.ofNat 64 (s.csrValue r e.g e.die e.ctx)))) ∧
   (∀ (d : Nat) (q : SrSel),
      Completes (.sread d true q) GoesOn fun s e =>
        e.goOn s ((s.modRegs e.gid fun r => r.setS d ((s.sreadShared e.launch e.g.core q).getD (e.sreadOwn q))).modGroup e.gid
          fun g => { g with sticky := 0 })) ∧
   (∀ (s : State) (gid core : Nat) (g : Group) (l : Late), tget s.groups gid = some g → g.late = [l] →
      (s.gtOf core < l.due → s.lateOf gid core [l] = s) ∧
      (l.due ≤ s.gtOf core → tget (s.lateOf gid core [l]).groups gid = some { g with sticky := g.sticky ||| l.exc, late := [] })) ∧
   (∀ (m a imm : Nat) (w : Word),
      Completes (.setmodeReg m a) (fun s e => GoesOn s e ∧ setModeTo e.mode m (nfld (e.g.regs.sr a).toNat 0 32) = some w)
        (fun s e => e.wrote s { e.g.regs with mode := w }) ∧
      Completes (.setmodeImm m imm) (fun s e => GoesOn s e ∧ (modeImage m imm).bind (setModeTo e.mode m) = some w)
        (fun s e => e.wrote s { e.g.regs with mode := w }) ∧
      (∀ (old : Word) (k : Nat), k < 32 → ∀ image, setModeTo old m image = some w →
        w.getLsbD k = if nbit (modeBits m) k then nbit image k else old.getLsbD k))

/-- R152 to R155: the uniform instructions write one uniform register, ungated, and CC under .f, as R153 and R154 give each
its flags; SCMP writes CC alone. -/
def Obligations.UniformInstructions : Prop :=
  ∀ (d a b : Nat) (f n : Bool) (c : SCond) (imm : Int) (k : Nat),
    WritesRegs (.sadd d a b f) (fun _ e => e.uniform d a b (· + ·) (if f then some ccAdd else none)) ∧
    WritesRegs (.ssub d a b f) (fun _ e => e.uniform d a b (· - ·) (if f then some ccSub else none)) ∧
    WritesRegs (.smul d a b f) (fun _ e => e.uniform d a b (· * ·) (if f then some ccMul else none)) ∧
    WritesRegs (.smulh d a b n f) (fun _ e => e.uniform d a b (if n then mulhU else mulhS) (ccIf f (if n then mulhU else mulhS))) ∧
    WritesRegs (.sand d a b f) (fun _ e => e.uniform d a b (· &&& ·) (ccIf f (· &&& ·))) ∧
    WritesRegs (.sor d a b f) (fun _ e => e.uniform d a b (· ||| ·) (ccIf f (· ||| ·))) ∧
    WritesRegs (.sxor d a b f) (fun _ e => e.uniform d a b (· ^^^ ·) (ccIf f (· ^^^ ·))) ∧
    WritesRegs (.sshl d a b f) (fun _ e => e.uniform d a b shlU (ccIf f shlU)) ∧
    WritesRegs (.sshr d a b f) (fun _ e => e.uniform d a b shrU (ccIf f shrU)) ∧
    WritesRegs (.ssra d a b f) (fun _ e => e.uniform d a b sraU (ccIf f sraU)) ∧
    WritesRegs (.smin d a b n f) (fun _ e => e.uniform d a b (minU n) (ccIf f (minU n))) ∧
    WritesRegs (.smax d a b n f) (fun _ e => e.uniform d a b (maxU n) (ccIf f (maxU n))) ∧
    WritesRegs (.scmp a b) (fun _ e => { e.g.regs with cc := ccSub (e.g.regs.sr a) (e.g.regs.sr b) }) ∧
    WritesRegs (.ssel d a b c) (fun _ e => e.g.regs.setS d (if c.holds e.g.regs.cc then e.g.regs.sr a else e.g.regs.sr b)) ∧
    WritesRegs (.smov d a) (fun _ e => e.g.regs.setS d (e.g.regs.sr a)) ∧
    WritesRegs (.smovi d imm) (fun _ e => e.g.regs.setS d (BitVec.ofInt 64 imm)) ∧
    WritesRegs (.saddImm d a imm) (fun _ e => e.g.regs.setS d (e.g.regs.sr a + BitVec.ofInt 64 imm)) ∧
    WritesRegs (.smovhi d a k) (fun _ e => e.g.regs.setS d (e.g.regs.sr a <<< 14 ||| BitVec.ofNat 64 k))

/-- R169 to R175: the float instructions on registers of elements compute every active lane's elements in ascending order
under MODE, write the lanes that write, and raise those lanes' exceptions. R172, R176, R178 to R180: FCMP writes a
predicate, FDOT2 one F32 sum, CVT and CVTI convert between element types. -/
def Obligations.FloatInstructions : Prop :=
   (∀ (d a b : Nat),
      Completes (.fadd d a b) GoesOn (fun s e => e.goOn s (e.floats s true d a b fun f v x y z r => fElem f v .add x y z r)) ∧
      Completes (.fsub d a b) GoesOn (fun s e => e.goOn s (e.floats s true d a b fun f v x y z r => fElem f v .sub x y z r)) ∧
      Completes (.fmul d a b) GoesOn (fun s e => e.goOn s (e.floats s true d a b fun f v x y z r => fElem f v .mul x y z r)) ∧
      Completes (.fmad d a b) GoesOn (fun s e => e.goOn s (e.floats s true d a b fun f v x y z r => fElem f v .mad x y z r)) ∧
      Completes (.fmsb d a b) GoesOn (fun s e => e.goOn s (e.floats s true d a b fun f v x y z r => fElem f v .msb x y z r)) ∧
      Completes (.fmin d a b) GoesOn (fun s e => e.goOn s (e.floats s false d a b fun f v x y z r => fElem f v .fmin x y z r)) ∧
      Completes (.fmax d a b) GoesOn (fun s e => e.goOn s (e.floats s false d a b fun f v x y z r => fElem f v .fmax x y z r)) ∧
      Completes (.fneg d a) GoesOn (fun s e => e.goOn s (e.floats s false d a a fun f _ x _ _ _ =>
        ((x + f.signAt) % (2 * f.signAt), 0))) ∧
      Completes (.fabs d a) GoesOn (fun s e => e.goOn s (e.floats s false d a a fun f _ x _ _ _ => (x % f.signAt, 0))) ∧
      Completes (.fclass d a) GoesOn (fun s e => e.goOn s (e.floats s false d a a fun f _ x _ _ _ => (fClass f x, 0))) ∧
      Completes (.frndi d a) GoesOn (fun s e => e.goOn s (e.floats s true d a a fun f v x _ _ r => fRndi f v x r)) ∧
      Completes (.fscale d a b) GoesOn (fun s e => e.goOn s (e.floats s true d a b fun f v x y _ r => fScale f v x (sgn y f.width) r))) ∧
   (∀ (c : FCond) (d a b p k : Nat) (t : EType) (r : Rnd),
      Completes (.fcmp c p a b) GoesOn (fun s e => e.goOn s
        (e.rounded s false 32 1 (fun q val => q.setPr p e.lanes (maskOf fun l => val l == 1)) fun l _ _ =>
          (b2n (fCompare c (mFtz e.mode) (e.g.regs.vl a l).toNat (e.g.regs.vl b l).toNat).1,
           (fCompare c (mFtz e.mode) (e.g.regs.vl a l).toNat (e.g.regs.vl b l).toNat).2))) ∧
      Completes (.fdot2 d a b) GoesOn (fun s e => e.goOn s
        (e.rounded s (drawsUnder e.mode) 32 1 (fun q val => q.setV d e.lanes fun l => BitVec.ofNat 32 (val l)) fun l _ x =>
          fDot2 (modeFmt e.mode) (mEnv e.mode) (e.g.regs.vl a l).toNat (e.g.regs.vl b l).toNat (e.g.regs.vl d l).toNat x)) ∧
      Completes (.cvt d a k t) GoesOn (fun s e => e.goOn s (e.converted s d a k t (mEnv e.mode))) ∧
      Completes (.cvti d a r t) GoesOn (fun s e => e.goOn s (e.converted s d a 0 t { mEnv e.mode with rnd := r })))

/-- R182 to R185: QCVT and the special functions read their operands and draw at issue, and their results land at
completion; SETSEED seeds the generators of the lanes that write. -/
def Obligations.LongFloatAndSeed : Prop :=
  ∀ (d a c : Nat),
    Completes (.qcvt d a c) GoesOn (fun s e => e.goOn s
      (e.longElems s d (drawsUnder e.mode) (modeW e.mode) (modeN e.mode) fun l k x =>
        qElem (modeFmt e.mode) (mEnv e.mode) (e.g.regs.vl (a + k) l).toNat (nfld (e.g.regs.sr c).toNat 0 32) x)) ∧
    Completes (.rcp d a) GoesOn (fun s e => e.goOn s (e.special s .rcp d a)) ∧
    Completes (.rsq d a) GoesOn (fun s e => e.goOn s (e.special s .rsq d a)) ∧
    Completes (.sqrt d a) GoesOn (fun s e => e.goOn s (e.special s .sqrt d a)) ∧
    Completes (.exp2 d a) GoesOn (fun s e => e.goOn s (e.special s .exp2 d a)) ∧
    Completes (.log2 d a) GoesOn (fun s e => e.goOn s (e.special s .log2 d a)) ∧
    Completes (.sint d a) GoesOn (fun s e => e.goOn s (e.special s .sint d a)) ∧
    Completes (.cost d a) GoesOn (fun s e => e.goOn s (e.special s .cost d a)) ∧
    Completes (.tanh d a) GoesOn (fun s e => e.goOn s (e.special s .tanh d a)) ∧
    Completes (.setseed a c) GoesOn (fun s e => e.goOn s (s.modGroup e.gid fun g =>
      { g with rng := laneIx.map fun l => if inMask e.lanes l then seedOf (e.g.regs.vl a l ^^^ (e.g.regs.sr c).setWidth 32)
        else e.g.rng.getD l 1 }))

/-- R186 to R189: a shuffle gives each lane that writes the value of its source lane, or its own where the source is out of
range or does not contribute; .oob names those lanes in p13. R190 to R195: quad differences, reductions, scans, reads of one
lane, ballots and matches. -/
def Obligations.CrossLaneInstructions : Prop :=
   (∀ (d a b n k : Nat) (oob : Bool) (q : QDir),
      WritesRegs (.shflIdx d a oob b) (fun _ e => e.shuffled d a oob fun _ _ l => some (e.g.regs.vl b l).toNat) ∧
      WritesRegs (.shflUp d a oob n) (fun _ e => e.shuffled d a oob fun _ i _ => if n ≤ i then some (i - n) else none) ∧
      WritesRegs (.shflDn d a oob n) (fun _ e => e.shuffled d a oob fun _ i _ => some (i + n)) ∧
      WritesRegs (.shflXor d a oob n) (fun _ e => e.shuffled d a oob fun _ i _ => some (i ^^^ n)) ∧
      WritesRegs (.shflUpw d a oob k) (fun _ e => e.shuffled d a oob fun g i _ => if g / 2 ^ k ≤ i then some (i - g / 2 ^ k) else none) ∧
      WritesRegs (.shflDnw d a oob k) (fun _ e => e.shuffled d a oob fun g i _ => some (i + g / 2 ^ k)) ∧
      WritesRegs (.shflXorw d a oob k) (fun _ e => e.shuffled d a oob fun g i _ => some (i ^^^ g / 2 ^ k)) ∧
      WritesRegs (.qswap d a q) (fun _ e => e.g.regs.setV d e.lanes fun l =>
        e.g.regs.vl a (if inMask e.g.active (l / 4 * 4 + (l % 4 ^^^ q.code)) then l / 4 * 4 + (l % 4 ^^^ q.code) else l))) ∧
   (∀ (d a b : Nat) (c w x : Bool) (o : RedOp),
      Completes (.qddx d a c) GoesOn (fun s e => e.goOn s (e.quadSub s d a fun q => if c || decide (q < 2) then (0, 1) else (2, 3))) ∧
      Completes (.qddy d a c) GoesOn (fun s e => e.goOn s (e.quadSub s d a fun q => if c || q % 2 == 0 then (0, 2) else (1, 3))) ∧
      Completes (.redlog d a o) GoesOn (fun s e => e.goOn s (e.reduced s o d fun l =>
        (redTree e.mode o (redStart e a)).getD (subBase e.mode l) none)) ∧
      Completes (.scanlog d a x o) GoesOn (fun s e => e.goOn s (e.reduced s o d fun l =>
        if x then (if l % subG e.mode = 0 then none else (scanTree e.mode o (redStart e a)).getD (l - 1) none)
        else (scanTree e.mode o (redStart e a)).getD l none)) ∧
      WritesRegs (.rdfirst d a w) (fun _ e => match (lanesOf e.g.active).head? with
        | some l => e.g.regs.setS d (BitVec.ofNat 64 (if w then e.g.regs.vp a l else (e.g.regs.vl a l).toNat))
        | none => e.g.regs) ∧
      WritesRegs (.rdlane d a b) (fun _ e =>
        if (e.g.regs.sr b).toNat < 64 ∧ inMask e.g.active (e.g.regs.sr b).toNat then
          e.g.regs.setS d ((e.g.regs.vl a (e.g.regs.sr b).toNat).setWidth 64)
        else e.g.regs) ∧
      WritesRegs (.ballot d a) (fun _ e => e.g.regs.setP2 d e.lanes fun l => subMask e l (inMask (e.g.regs.pr a))) ∧
      WritesRegs (.vmatch d a) (fun _ e => e.g.regs.setP2 d e.lanes fun l => subMask e l fun k => e.g.regs.vl a k == e.g.regs.vl a l) ∧
      Completes (.vmatchf d a) GoesOn (fun s e => e.goOn s
        ((s.modRegs e.gid fun r => r.setP2 d e.lanes fun l => subMask e l fun k =>
          (fCompare .eq (mFtz e.mode) (e.g.regs.vl a k).toNat (e.g.regs.vl a l).toNat).1).raised e
            (if e.matchInvalid a = 0 then 0 else excIV) (e.matchInvalid a))))

/-- R94, R95, R107, R109: a clause header whose WAIT names only clear flags sets SETA, SETB and LEN, removes the pending
tags of the flags that it waits on, and leaves the group at the first word of its clause. -/
def Obligations.ClauseHeaderEnters : Prop :=
  ∀ (w a b l : Nat),
    Completes (.clauseStart w a b l)
      (fun s e => e.g.ctl.pos.k = 0 ∧ e.preDue s = false ∧ ∀ k, k < 12 → nbit w k = true → e.g.flags.getD k 0 = 0)
      (fun s e => s.putGroup e.gid { e.g with
        tags := e.g.tags.filter fun t => !(decide (t.flag < 12) && nbit w t.flag)
        ctl := { e.g.ctl with pos := ⟨e.g.ctl.pos.h, 1⟩, seta := a, setb := b, len := l } })

/-- R128 to R131: branches take their target exactly when their condition holds; CALL leaves the next header in s63; RET and
JMPS go where their register says; NOP only goes on. -/
def Obligations.BranchesAndCalls : Prop :=
  ∀ (c : Cond) (o : Int) (p a : Nat),
    Completes (.bra c o) (fun s e => c.holds e.g.regs.cc = true ∧ GoesTo s e (e.target o)) (fun s e => e.jumpTo s s (e.target o)) ∧
    Completes (.bra c o) (fun s e => c.holds e.g.regs.cc = false ∧ GoesOn s e) (fun s e => e.goOn s s) ∧
    Completes (.brz p o) (fun s e => e.g.regs.pr p &&& e.g.active = 0 ∧ GoesTo s e (e.target o)) (fun s e => e.jumpTo s s (e.target o)) ∧
    Completes (.brz p o) (fun s e => e.g.regs.pr p &&& e.g.active ≠ 0 ∧ GoesOn s e) (fun s e => e.goOn s s) ∧
    Completes (.brnz p o) (fun s e => e.g.regs.pr p &&& e.g.active ≠ 0 ∧ GoesTo s e (e.target o)) (fun s e => e.jumpTo s s (e.target o)) ∧
    Completes (.brnz p o) (fun s e => e.g.regs.pr p &&& e.g.active = 0 ∧ GoesOn s e) (fun s e => e.goOn s s) ∧
    Completes (.call o) (fun s e => addrOk (BitVec.ofNat 64 (e.target o)) = true ∧ GoesTo s e (e.target o))
      (fun s e => e.jumpTo s (s.modRegs e.gid fun r => r.setS 63 (BitVec.ofNat 64 e.g.ctl.nextHeader)) (e.target o)) ∧
    Completes .ret (fun s e => addrOk (e.g.regs.sr 63) = true ∧ GoesTo s e (e.g.regs.sr 63).toNat)
      (fun s e => e.jumpTo s s (e.g.regs.sr 63).toNat) ∧
    Completes (.jmps a) (fun s e => addrOk (e.g.regs.sr a) = true ∧ GoesTo s e (e.g.regs.sr a).toNat)
      (fun s e => e.jumpTo s s (e.g.regs.sr a).toNat) ∧
    Completes .nop GoesOn (fun s e => e.goOn s s)

/-- R136 to R139: MIF, MELSE and MEND push, turn and pop an entry of the mask stack, below the depth at which entries spill.
R136 to R139: MLOOP pushes a pair of entries; MENDL goes back while lanes continue, and pops the pair when none does; MBRK
and MCONT take the lanes of their predicate out of the loop body, and leave it once no lane is left in it. -/
def Obligations.MaskInstructions : Prop :=
   (∀ (p : Nat) (o : Int) (st : List MaskEntry) (x : MaskEntry),
      Completes (.mif p o) (fun s e => e.g.stack.length < 16 ∧ e.g.active &&& e.g.regs.pr p ≠ 0 ∧ GoesOn s e)
        (fun s e => e.goOn s (e.masked s (e.g.stack ++ [⟨e.g.active, e.mode, .ifK, 0⟩]) (e.g.active &&& e.g.regs.pr p) e.mode)) ∧
      Completes (.mif p o) (fun s e => e.g.stack.length < 16 ∧ e.g.active &&& e.g.regs.pr p = 0 ∧ GoesTo s e (e.target o))
        (fun s e => e.jumpTo s (e.masked s (e.g.stack ++ [⟨e.g.active, e.mode, .ifK, 0⟩]) 0 e.mode) (e.target o)) ∧
      Completes (.melse o) (fun s e => e.g.stack = st ++ [x] ∧ st.length < 16 ∧ x.kind = .ifK ∧
          x.mask &&& ~~~e.g.active &&& ~~~x.atEnd ≠ 0 ∧ GoesOn s e)
        (fun s e => e.goOn s (e.masked s (st ++ [{ x with kind := .elseK, atEnd := 0 }]) (x.mask &&& ~~~e.g.active &&& ~~~x.atEnd) x.mode)) ∧
      Completes (.melse o) (fun s e => e.g.stack = st ++ [x] ∧ st.length < 16 ∧ x.kind = .ifK ∧
          x.mask &&& ~~~e.g.active &&& ~~~x.atEnd = 0 ∧ GoesTo s e (e.target o))
        (fun s e => e.jumpTo s (e.masked s (st ++ [{ x with kind := .elseK, atEnd := 0 }]) 0 x.mode) (e.target o)) ∧
      Completes .mend (fun s e => e.g.stack = st ++ [x] ∧ st.length < 16 ∧ (x.kind = .ifK ∨ x.kind = .elseK) ∧ GoesOn s e)
        (fun s e => e.goOn s (e.masked s st x.mask x.mode))) ∧
   (∀ (p : Nat) (o : Int) (st : List MaskEntry) (x y : MaskEntry),
      Completes .mloop (fun s e => e.g.stack.length < 15 ∧ GoesOn s e)
        (fun s e => e.goOn s (e.masked s (e.g.stack ++ [⟨e.g.active, e.mode, .loopB, 0⟩, ⟨e.g.active, e.mode, .loopC, 0⟩]) e.g.active e.mode)) ∧
      Completes (.mendl o) (fun s e => e.g.stack = st ++ [x, y] ∧ st.length < 15 ∧ x.kind = .loopB ∧ y.kind = .loopC ∧ y.mask ≠ 0 ∧
          GoesTo s e (e.target o))
        (fun s e => e.jumpTo s (e.masked s (st ++ [x, y]) y.mask y.mode) (e.target o)) ∧
      Completes (.mendl o) (fun s e => e.g.stack = st ++ [x, y] ∧ st.length < 15 ∧ x.kind = .loopB ∧ y.kind = .loopC ∧ y.mask = 0 ∧
          GoesOn s e)
        (fun s e => e.goOn s (e.masked s st x.mask x.mode)) ∧
      Completes (.mbrk p o) (fun s e => e.g.stack = st ++ [x, y] ∧ st.length < 15 ∧ x.kind = .loopB ∧ y.kind = .loopC ∧
          e.g.active &&& ~~~(e.g.regs.pr p) ≠ 0 ∧ GoesOn s e)
        (fun s e => e.goOn s (e.masked s (st ++ [x, { y with mask := y.mask &&& ~~~(e.g.active &&& e.g.regs.pr p) }])
          (e.g.active &&& ~~~(e.g.active &&& e.g.regs.pr p)) e.mode)) ∧
      Completes (.mbrk p o) (fun s e => e.g.stack = st ++ [x, y] ∧ st.length < 15 ∧ x.kind = .loopB ∧ y.kind = .loopC ∧
          e.g.active &&& ~~~(e.g.regs.pr p) = 0 ∧ y.mask &&& ~~~e.g.active = 0 ∧ GoesTo s e (e.target o))
        (fun s e => e.jumpTo s (e.masked s st x.mask x.mode) (e.target o)) ∧
      Completes (.mcont p o) (fun s e => e.g.stack = st ++ [x, y] ∧ st.length < 15 ∧ x.kind = .loopB ∧ y.kind = .loopC ∧
          e.g.active &&& ~~~(e.g.regs.pr p) ≠ 0 ∧ GoesOn s e)
        (fun s e => e.goOn s (e.masked s (st ++ [x, y]) (e.g.active &&& ~~~(e.g.active &&& e.g.regs.pr p)) e.mode)) ∧
      Completes (.mcont p o) (fun s e => e.g.stack = st ++ [x, y] ∧ st.length < 15 ∧ x.kind = .loopB ∧ y.kind = .loopC ∧
          e.g.active &&& ~~~(e.g.regs.pr p) = 0 ∧ GoesTo s e (e.target o))
        (fun s e => e.jumpTo s (e.masked s (st ++ [x, y]) (e.g.active &&& ~~~(e.g.active &&& e.g.regs.pr p)) e.mode) (e.target o)))

/-- R132: EXIT takes the active lanes out; where no entry of the mask stack holds another lane, the group has begun to end,
and GROUP_END ends it. -/
def Obligations.ExitEndsLanes : Prop :=
  Completes .exit (fun _ e => e.g.stack = [] ∧ e.g.sect = none)
    (fun s e => (e.masked s [] 0 e.mode).modCtl e.gid fun c => { c with ending := true, hold := none, holdArg := [] }) ∧
  ∀ (st : List MaskEntry) (x : MaskEntry),
    Completes .exit (fun s e => e.g.stack = st ++ [x] ∧ st.length < 16 ∧ x.mask &&& ~~~e.g.active ≠ 0 ∧ e.g.sect = none ∧ GoesOn s e)
      (fun s e => e.goOn s (e.masked s ((st ++ [x]).map fun y => { y with mask := y.mask &&& ~~~e.g.active }) 0 e.mode))

/-- R133, R278, R279, R372, R373: TRAPU and BKPT take their trap to level S with the trap position that their rules give,
and TRAP takes its trap to level M. R111, R196, R373: a trap raised while some flag of the group is set, or while the exceptions of
one of its instructions are still to come, waits: nothing but the group's pending trap changes, and the group issues nothing. -/
def Obligations.TrapInstructionsTrap : Prop :=
   (∀ (imm : Nat),
      Completes (.trapu imm) (fun s e => TakesTrap s e ⟨.user, imm, 0, 0, ⟨e.g.ctl.nextHeader, 0⟩, false⟩)
        (fun s e => e.trapTaken s ⟨.user, imm, 0, 0, ⟨e.g.ctl.nextHeader, 0⟩, false⟩) ∧
      Completes (.bkpt imm) (fun s e => TakesTrap s e ⟨.bkpt, imm, 0, 0, e.g.ctl.pos, false⟩)
        (fun s e => e.trapTaken s ⟨.bkpt, imm, 0, 0, e.g.ctl.pos, false⟩) ∧
      Completes (.trap imm) (fun _ e => e.g.quiet = true ∧ e.g.ctl.desched = none)
        (fun s e => s.putGroup e.gid (e.entered ⟨.user, imm, 0, 0, e.after, true⟩ Config.mvec))) ∧
   (∀ (s : State) (e : GI) (t : TrapRec), s.gi e.gid .nop = some e → e.g.ctl.level = .u → t.cause ≠ .physrange →
      e.g.quiet = false →
      s.raise e.gid t = e.withTrap s t ∧ ∀ i g, tget (e.withTrap s t).groups e.gid = some g → g.ready i = false)

/-- R105, R372, R373: an instruction that a check refuses is not executed: at level U with clear flags and a handler, the
group takes the check's trap at the instruction, whose word the trap argument holds. -/
def Obligations.RefusedInstructionTraps : Prop :=
  ∀ (i : Instr) (s : State) (e : GI) (c : Cause), encode i ≠ [] →
    s.power = true → s.issuer = .group e.gid → s.gi e.gid i = some e → e.g.ready i = true → e.g.ctl.hold = none →
    e.g.ctl.owed = [] → e.check s = some c → TakesTrap s e ⟨c, e.word, 0, 0, e.g.ctl.pos, false⟩ →
    exec i s = .next (e.trapTaken s ⟨c, e.word, 0, 0, e.g.ctl.pos, false⟩)

/-- R374: HRET gives the group the level, MODE and position of its trap bank, and SETA, SETB and LEN of the clause that the
position lies in; no tag survives it (R111). -/
def Obligations.HretReturns : Prop :=
  ∀ (w : Nat),
    Completes .hret
      (fun s e => e.fetch s e.bank.plev (Pos.ofWord e.bank.resume.toNat).h = .word w ∧ isHeader w = true ∧
        (Pos.ofWord e.bank.resume.toNat).k ≤ nfld w 0 6 ∧ e.g.redo = none ∧ e.g.flagsClear = true)
      (fun s e => s.putGroup e.gid { e.g with
        regs := { e.g.regs with mode := e.bank.mode }
        tags := []
        lastIssue := s.gtOf e.g.core
        ctl := { e.g.ctl with
          level := e.bank.plev, pos := Pos.ofWord e.bank.resume.toNat, seta := nfld w 10 4, setb := nfld w 6 4, len := nfld w 0 6 } })

/-- R280, R380: PYIELD in the PREEMPT handler, which runs at level U, yields the group and holds it; at any other time, in a
handler that has interrupted that one too, it does nothing. -/
def Obligations.PyieldYields : Prop :=
  Completes .pyield (fun s e => (e.g.ctl.pre = .run ∨ e.g.ctl.level ≠ .u) ∧ GoesOn s e) (fun s e => e.goOn s s) ∧
  Completes .pyield (fun _ e => e.g.ctl.pre = .handler ∧ e.g.ctl.level = .u)
    (fun s e => s.putGroup e.gid { e.g with
      ctl := { e.g.ctl with pre := .yielded, hold := some .pyield, holdAt := s.gtOf e.g.core, holdArg := [] } })

/-- R197 to R206, R209: loads and stores of global memory check every lane at `Global(s[S], v[O])` and set out with one
request a lane. -/
def Obligations.GlobalLoadsAndStores : Prop :=
  ∀ (d sr o : Nat) (z : Size) (h : Hint) (nr : Bool) (imm : Int),
    Accesses (.ld d sr o z h nr) GI.lanes (fun e =>
      planGlobal z false nr true 1 h .load (e.g.regs.sr sr) (e.g.regs.vr o) (fun _ => []) e.lanes) ∧
    Accesses (.st d sr o z h) GI.storeLanes (fun e =>
      planGlobal z true false true 2 h .store (e.g.regs.sr sr) (e.g.regs.vr o) (e.dataOf z d) e.storeLanes) ∧
    Accesses (.lds d sr imm) GI.once (fun e =>
      planOnce false 1 .load (globalAddr (e.g.regs.sr sr) (imm % 2 ^ 56).toNat) (canonical (e.g.regs.sr sr)) [] e.once) ∧
    Accesses (.sts d sr imm) GI.onceStore (fun e =>
      planOnce true 2 .store (globalAddr (e.g.regs.sr sr) (imm % 2 ^ 56).toNat) (canonical (e.g.regs.sr sr))
        (toBytes 8 (e.g.regs.sr d).toNat) e.onceStore)

/-- R54, R197, R211 to R214, R218, R285: accesses to private memory become pieces of at most four bytes at the addresses of
R54; accesses to the die scratchpad, ATOMC and REDC among them, go to their offset in it. -/
def Obligations.PrivateAndScratchpad : Prop :=
  ∀ (d sr o b c : Nat) (z : Size) (h : Hint) (op : AOp) (ty : AType),
    Accesses (.ldp d sr o z h) GI.lanes (fun e =>
      planPriv z false 1 h .load (e.g.regs.sr sr) (e.g.regs.sr 60) (e.g.regs.vr o) e.launch.priv (fun _ => []) e.lanes) ∧
    Accesses (.stp d sr o z h) GI.storeLanes (fun e =>
      planPriv z true 2 h .store (e.g.regs.sr sr) (e.g.regs.sr 60) (e.g.regs.vr o) e.launch.priv (e.dataOf z d) e.storeLanes) ∧
    Accesses (.ldc d sr o z) GI.lanes (fun e =>
      planFlat .scr z false 1 .load (e.g.regs.sr sr) (e.g.regs.vr o) e.launch.scrBytes (fun _ => []) e.lanes) ∧
    Accesses (.stc d sr o z) GI.storeLanes (fun e =>
      planFlat .scr z true 2 .store (e.g.regs.sr sr) (e.g.regs.vr o) e.launch.scrBytes (e.dataOf z d) e.storeLanes) ∧
    Accesses (.atomc d sr o b c op ty) GI.storeLanes (fun e =>
      planFlat .scr .b32 true 3 (.atomic op ty 0) (e.g.regs.sr sr) (e.g.regs.vr o) e.launch.scrBytes (e.atomData .b32 b c) e.storeLanes) ∧
    Accesses (.redc d sr o op ty) GI.storeLanes (fun e =>
      planFlat .scr .b32 true 3 (.reduce op ty) (e.g.regs.sr sr) (e.g.regs.vr o) e.launch.scrBytes (e.dataOf .b32 d) e.storeLanes)

/-- R197, R200, R213 to R216, R237, R240: atomics, reductions and tag instructions on global memory set out with one
request a lane; ACQW with one load for the group, whatever the masks. -/
def Obligations.GlobalAtomicsAndTags : Prop :=
  ∀ (d sr o b c : Nat) (z : Size) (h : Hint) (op : AOp) (ty : AType),
    Accesses (.atom d sr o z h b c op ty) GI.storeLanes (fun e =>
      planGlobal z true false true 3 h (.atomic op ty 0) (e.g.regs.sr sr) (e.g.regs.vr o) (e.atomData z b c) e.storeLanes) ∧
    Accesses (.redst d sr o z h op ty) GI.storeLanes (fun e =>
      planGlobal z true false true 3 h (.reduce op ty) (e.g.regs.sr sr) (e.g.regs.vr o) (e.dataOf z d) e.storeLanes) ∧
    Accesses (.tagset d o sr) GI.storeLanes (fun e =>
      planGlobal .i8 true false false 2 .normal (.tagSet 0) (e.g.regs.sr sr) (e.g.regs.vr o)
        (fun l => [BitVec.ofNat 8 ((e.g.regs.vl d l).toNat % 16)]) e.storeLanes) ∧
    Accesses (.tagget d o sr) GI.lanes (fun e =>
      planGlobal .i8 false false false 1 .normal .tagGet (e.g.regs.sr sr) (e.g.regs.vr o) (fun _ => []) e.lanes) ∧
    Accesses (.acqw d sr) GI.once (fun e =>
      planOnce false 1 .load (globalAddr (e.g.regs.sr sr) 0) (canonical (e.g.regs.sr sr)) [] e.once)

/-- R210, R213 to R215, R218, R236, R238: local loads, stores and atomics are checked at issue and made when their operation
completes. A cache operation requests its lines as a load does (assumption log 46), and a prefetch is not checked (assumption log
45). -/
def Obligations.LocalAndCacheOperations : Prop :=
  ∀ (d sr o b c : Nat) (z : Size) (op : AOp) (ty : AType) (k : CacheOp) (h : Hint) (l : PrefLvl),
    Defers (.ldl d sr o z) GI.lanes (fun e =>
      planFlat .loc z false 1 .load (e.g.regs.sr sr) (e.g.regs.vr o) e.team.size (fun _ => []) e.lanes) ∧
    Defers (.stl d sr o z) GI.storeLanes (fun e =>
      planFlat .loc z true 2 .store (e.g.regs.sr sr) (e.g.regs.vr o) e.team.size (e.dataOf z d) e.storeLanes) ∧
    Defers (.atoml d sr o z b c op ty) GI.storeLanes (fun e =>
      planFlat .loc z true 3 (.atomic op ty 0) (e.g.regs.sr sr) (e.g.regs.vr o) e.team.size (e.atomData z b c) e.storeLanes) ∧
    Accesses (.cacheop k o sr) GI.storeLanes (fun e =>
      planGlobal .i8 false false true 1 .na .load (e.g.regs.sr sr) (e.g.regs.vr o) (fun _ => []) e.storeLanes) ∧
    Completes (.pref h l o sr) GoesOn (fun s e => e.goOn s (e.startOp s (e.memOp e.lanes .ready [])).2)

/-- R199, R201, R268, R270, R271: a misaligned lane of an access that the firmware does not emulate traps with MISALIGN before any
lane is performed; the trap names the lowest such lane's address and every such lane. DRAW's descriptor, whose address one uniform
register gives, traps likewise (R264). -/
def Obligations.MisalignedAccessTraps : Prop :=
  ∀ (d sr o b c x l a n : Nat) (z : Size) (h : Hint) (op : AOp) (ty : AType) (md : TMode) (cull : Cull) (any : Bool),
    Misaligns (.atom d sr o z h b c op ty) 3 (fun e =>
      planGlobal z true false true 3 h (.atomic op ty 0) (e.g.regs.sr sr) (e.g.regs.vr o) (e.atomData z b c) e.storeLanes) ∧
    Misaligns (.atoml d sr o z b c op ty) 3 (fun e =>
      planFlat .loc z true 3 (.atomic op ty 0) (e.g.regs.sr sr) (e.g.regs.vr o) e.team.size (e.atomData z b c) e.storeLanes) ∧
    Misaligns (.atomc d sr o b c op ty) 3 (fun e =>
      planFlat .scr .b32 true 3 (.atomic op ty 0) (e.g.regs.sr sr) (e.g.regs.vr o) e.launch.scrBytes (e.atomData .b32 b c) e.storeLanes) ∧
    Misaligns (.redst d sr o z h op ty) 3 (fun e =>
      planGlobal z true false true 3 h (.reduce op ty) (e.g.regs.sr sr) (e.g.regs.vr o) (e.dataOf z d) e.storeLanes) ∧
    Misaligns (.redc d sr o op ty) 3 (fun e =>
      planFlat .scr .b32 true 3 (.reduce op ty) (e.g.regs.sr sr) (e.g.regs.vr o) e.launch.scrBytes (e.dataOf .b32 d) e.storeLanes) ∧
    Misaligns (.pubw b a) 2 (fun e =>
      planOnce true 2 .store (globalAddr (e.g.regs.sr a) 0) (canonical (e.g.regs.sr a)) (toBytes 8 (e.g.regs.sr b).toNat) e.onceStore) ∧
    Misaligns (.acqw d a) 1 (fun e =>
      planOnce false 1 .load (globalAddr (e.g.regs.sr a) 0) (canonical (e.g.regs.sr a)) [] e.once) ∧
    Misaligns (.rbox d a sr n) 1 (fun e => planRecs (e.g.regs.sr sr) (fun l => (e.g.regs.vl n l).toNat) e.lanes) ∧
    Misaligns (.rtri d a sr n cull) 1 (fun e => planRecs (e.g.regs.sr sr) (fun l => (e.g.regs.vl n l).toNat) e.lanes) ∧
    Misaligns (.tsamp d c sr x l md) 1 (fun e => e.recPlan sr x) ∧
    Completes (.draw d a n any)
      (fun s e => e.g.active &&& ~~~e.g.helpers ≠ 0 ∧ vaOf (globalAddr (e.g.regs.sr a) 0) % 64 ≠ 0 ∧
        TakesTrap s e ⟨.misalign, 1, vaOf (globalAddr (e.g.regs.sr a) 0), lowLane e.g.active, e.g.ctl.pos, false⟩)
      (fun s e => e.trapTaken s ⟨.misalign, 1, vaOf (globalAddr (e.g.regs.sr a) 0), lowLane e.g.active, e.g.ctl.pos, false⟩)

/-- R219 to R222: FENCE and XFENCE go on once the writes that they name are done, XFENCE dropping the copies of path `b`;
before that they hold the group, and they go on when the group comes back to find them done. R225: BAR, once the group's memory
instructions have completed, its atomics with their W passed (assumption log 130), and no arrival of its BARARR is outstanding,
arrives and waits for its phase; the arrival that completes the phase goes on at once. BARARR's arrival waits for the group's
earlier accesses, and the group goes on. BARWAIT waits for the current phase. -/
def Obligations.FencesAndBarriers : Prop :=
   (∀ (sc : Scope) (b a : Path),
      Completes (.fence sc) (fun s e => GoesOn s e ∧ e.fenced s sc = true) (fun s e => e.goOn s s) ∧
      Completes (.fence sc) (fun s e => e.fenced s sc = false) (fun s e => e.held s []) ∧
      Continues (.fence sc) (fun s e => GoesOn s e ∧ e.fenced s sc = true) (fun s e => e.goOn s s) ∧
      Completes (.xfence b a) (fun s e => GoesOn s e ∧ e.fenced s .package = true ∧ e.pathDone s a = true)
        (fun s e => e.goOn s (s.dropPath e.g.core b (s.gtOf e.g.core))) ∧
      Completes (.xfence b a) (fun s e => e.fenced s .package = false ∨ e.pathDone s a = false) (fun s e => e.held s []) ∧
      Continues (.xfence b a) (fun s e => GoesOn s e ∧ e.fenced s .package = true ∧ e.pathDone s a = true)
        (fun s e => e.goOn s (s.dropPath e.g.core b e.g.ctl.holdAt))) ∧
   (∀ (c n : Nat),
      Completes (.bar c n)
        (fun s e => c ≤ e.team.groups ∧ e.fenced s .team = true ∧ (s.work.arrives.any fun a => a.2.gid == e.gid) = false ∧
          s.barAgrees e.g.team (e.barOf s n) c = true ∧ e.arrived s n = false ∧ e.arrived (s.barArrive e.g.team e.g.num n c) n = true)
        (fun s e => e.held (s.barArrive e.g.team e.g.num n c) [1]) ∧
      Completes (.bar c n)
        (fun s e => c ≤ e.team.groups ∧ e.fenced s .team = true ∧ (s.work.arrives.any fun a => a.2.gid == e.gid) = false ∧
          s.barAgrees e.g.team (e.barOf s n) c = true ∧ e.arrived s n = false ∧ e.arrived (s.barArrive e.g.team e.g.num n c) n = false ∧ GoesOn s e)
        (fun s e => e.goOn s (s.barArrive e.g.team e.g.num n c)) ∧
      Continues (.bar c n) (fun s e => GoesOn s e ∧ e.g.ctl.holdArg = [2]) (fun s e => e.goOn s s) ∧
      Completes (.bararr c n)
        (fun s e => GoesOn s e ∧ c ≤ e.team.groups ∧ e.arrived s n = false ∧ s.barAgrees e.g.team (e.barOf s n) c = true)
        (fun s e => e.goOn s { s with
          nextId := s.nextId + 1
          work := { s.work with arrives := tput s.work.arrives s.nextId ⟨e.gid, n, c, s.awaitOf e.gid Instr.touchesMem⟩ } }) ∧
      Completes (.barwait n) (fun _ _ => True) (fun s e => e.held s [1]) ∧
      Continues (.barwait n) (fun s e => GoesOn s e ∧ e.g.ctl.holdArg = [2]) (fun s e => e.goOn s s))

/-- R227 to R229: BCINIT and CPYK start an operation with the register that they read. BCWAIT goes on once its byte count
has come down to zero: the barrier is free again and `d` holds its error status. R233 to R235, R239: CLAIM, PIN and UNPIN
start an operation with what they read at issue; PUBW's store sets out as an access of its own. -/
def Obligations.CountsPlacementPublication : Prop :=
   (∀ (a n d count : Nat),
      Starts (.bcinit a n) (fun _ e => -(2 ^ 39 : Int) ≤ (e.g.regs.sr a).toInt ∧ (e.g.regs.sr a).toInt < (2 ^ 39 : Int))
        (fun _ e o => { o with svals := [e.g.regs.sr a] }) ∧
      Starts (.cpyk count a) (fun _ e => e.localOk (e.g.regs.sr a).toNat (64 * count) = true)
        (fun _ e o => { o with svals := [e.g.regs.sr a] }) ∧
      (∀ t : Team, Completes (.bcwait d n)
        (fun s e => GoesOn s e ∧ tget s.teams e.g.team = some t ∧ (t.bc n).init = true ∧ (t.bc n).count ≤ 0)
        (fun s e => e.goOn s ((s.modBc e.g.team n fun x => { x with init := false }).modRegs e.gid fun r =>
          r.setS d (BitVec.ofNat 64 (t.bc n).err)))) ∧
      (∀ t : Team, Completes (.bcwait d n)
        (fun s e => tget s.teams e.g.team = some t ∧ ((t.bc n).init = false ∨ 0 < (t.bc n).count)) (fun s e => e.held s []))) ∧
   (∀ (d a b : Nat),
      Starts (.claim d b a) (fun _ _ => True)
        (fun s e o => { o with svals := [e.g.regs.sr a, e.g.regs.sr b], await := s.awaitOf e.gid Instr.touchesMem }) ∧
      (∀ (x : List Byte) (s1 : State), Completes (.pin d a) (fun s e => GoesOn s e ∧ e.readBlock s (e.g.regs.sr a) 32 true = (.ok x, s1))
        (fun s e => e.goOn s (e.startOp s1 fun o => { o with misc := x.map (·.toNat) }).2)) ∧
      Starts (.unpin d a) (fun _ _ => True) (fun _ e o => { o with svals := [e.g.regs.sr a] }) ∧
      (∀ (ts : List (Piece × Trans)) (sp : List Nat) (s1 : State), Completes (.pubw b a)
        (fun s e => GoesOn s e ∧ e.mayAccess s (planOnce true 2 .store (globalAddr (e.g.regs.sr a) 0) (canonical (e.g.regs.sr a))
            (toBytes 8 (e.g.regs.sr b).toNat) e.onceStore) (.go ts sp, s1))
        (fun s e => e.goOn s (e.published s (e.sent (planOnce true 2 .store (globalAddr (e.g.regs.sr a) 0) (canonical (e.g.regs.sr a))
            (toBytes 8 (e.g.regs.sr b).toNat) e.onceStore) e.onceStore ts sp s1)))))

/-- R241 to R243: MBXSEND takes its packet from local memory, which the model has it read at issue, and sends it whatever the
masks are (assumption log 41); MBXRECV holds the group for a packet; SPAWN submits the descriptor at its address, with the context,
class and signal named, an address that is not canonical among them, which the submission answers. -/
def Obligations.MailboxesAndChildren : Prop :=
  ∀ (a d sg die cls : Nat) (fwd sig : Bool),
    Starts (.mbxsend a die fwd) (fun _ e => e.localOk (e.g.regs.sr a).toNat 64 = true)
      (fun s e o => { o with
        st := .engine, await := s.awaitOf e.gid Instr.onCore
        misc := (e.team.loc.read (e.g.regs.sr a).toNat 64).map (·.toNat) }) ∧
    Completes (.mbxrecv d a) (fun _ e => e.localOk (e.g.regs.sr a).toNat 64 = true) (fun s e => e.held s []) ∧
    Completes (.spawn d a sg sig cls)
      (fun s e => GoesOn s e ∧ spawnAddr (e.g.regs.sr a) % 64 = 0 ∧ (sig = true → spawnAddr (e.g.regs.sr sg) % 8 = 0))
      (fun s e =>
        let o := e.startOp s fun o => { o with st := .engine }
        let sub : Submit :=
          { ctx := e.ctx, addr := spawnAddr (e.g.regs.sr a), background := false, cls := cls
            source := .spawn (if sig then some (spawnAddr (e.g.regs.sr sg)) else none)
            die := some e.die, op := some o.1 }
        e.goOn s { o.2 with
          nextId := o.2.nextId + 1
          work := { o.2.work with subs := tput o.2.work.subs o.2.nextId sub } })

/-- R246 to R254: TDESC forms a descriptor that it accepts; products, moves, clears and loads of accumulators are queued at
the core's array with the operands that they captured. R255 to R257: drains into tiles of 64 by 64 are queued, their draws taken at
issue (assumption log 60); AGDRAIN's rows are checked at issue as an access. -/
def Obligations.MatrixInstructions : Prop :=
   (∀ (a b d t sc : Nat) (r : Bool),
      (∀ x : Tile, Completes (.tdesc b a d)
        (fun s e => GoesOn s e ∧ x = BitVec.ofNat 128 ((e.g.regs.sr a).toNat + 2 ^ 64 * (e.g.regs.sr b).toNat) ∧
          Tile.bad x = false ∧ ¬ (Tile.fmt x = 4 ∧ Tile.tr x = true))
        (fun s e => e.wrote s (e.g.regs.setT d x))) ∧
      Commands (.azero d) (fun _ _ => True) (fun _ o => o) ∧
      Commands (.amov a d) (fun _ _ => True) (fun _ o => o) ∧
      Commands (.aload t d)
        (fun _ e => Tile.fmt (e.g.regs.tr t) = 6 ∧ Tile.rows (e.g.regs.tr t) = 64 ∧ Tile.cols (e.g.regs.tr t) = 64 ∧
          Tile.inside (e.g.regs.tr t) e.team.size = true)
        (fun e o => { o with tile := [e.g.regs.tr t] }) ∧
      Completes (.mma r t a d) (fun s e => GoesOn s e ∧ e.tileOk t)
        (fun s e => e.goOn s (e.productDone s t (e.readA r a none))) ∧
      Completes (.mmap r t a d)
        (fun s e => GoesOn s e ∧ e.tileOk t ∧ e.g.core % 2 = 0 ∧ e.launch.coresident = true ∧ e.team.linear e.launch % 2 = 0 ∧
          (e.partner s).isSome = true)
        (fun s e => e.goOn s (e.productDone s t (e.readA r a none))) ∧
      Completes (.mmabs r t a d sc)
        (fun s e => GoesOn s e ∧ e.tileOk t ∧ Tile.scale (e.g.regs.tr t) + 1024 ≤ e.team.size)
        (fun s e => e.goOn s (e.productDone s t (e.readA r a (some sc))))) ∧
   (∀ (band : Bool) (sr a t q o b : Nat),
      Completes (.adrain band sr a t)
        (fun s e => GoesOn s e ∧ Tile.rows (e.g.regs.tr t) = 64 ∧ Tile.cols (e.g.regs.tr t) = 64 ∧
          Tile.fmt (e.g.regs.tr t) ≠ 4 ∧ Tile.fmt (e.g.regs.tr t) ≤ 6 ∧ Tile.inside (e.g.regs.tr t) e.team.size = true)
        (fun s e => e.goOn s (e.drained s (Tile.fmt (e.g.regs.tr t)) [e.g.regs.tr t] (if band then [e.g.regs.sr sr] else []))) ∧
      Completes (.astash a q t)
        (fun s e => GoesOn s e ∧ Tile.fmt (e.g.regs.tr t) = Tile.fmt (e.g.regs.tr q) ∧
          [6, 0, 1, 2, 3].contains (Tile.fmt (e.g.regs.tr t)) = true ∧ Tile.tr (e.g.regs.tr t) = false ∧ Tile.tr (e.g.regs.tr q) = true ∧
          Tile.rows (e.g.regs.tr t) = 64 ∧ Tile.cols (e.g.regs.tr t) = 64 ∧ Tile.rows (e.g.regs.tr q) = 64 ∧
          Tile.cols (e.g.regs.tr q) = 64 ∧ Tile.inside (e.g.regs.tr t) e.team.size = true ∧
          Tile.inside (e.g.regs.tr q) e.team.size = true)
        (fun s e => e.goOn s (e.drained s (Tile.fmt (e.g.regs.tr t)) [e.g.regs.tr t, e.g.regs.tr q] [])) ∧
      (∀ (ts : List (Piece × Trans)) (sp : List Nat) (s1 : State), Completes (.agdrain o b a)
        (fun s e => GoesOn s e ∧ e.g.redo = none ∧
          e.checked s (planRows (e.g.regs.sr b) (e.g.regs.vr o) e.storeLanes) = (.go ts sp, s1))
        (fun s e =>
          let n := e.command s1 .engine (e.memOp e.storeLanes .engine sp)
          e.goOn s (e.clearRedo (n.2.sendPieces (planRows (e.g.regs.sr b) (e.g.regs.vr o) e.storeLanes) e.gid n.1 e.g.core e.die e.ctx
            e.team.launch ts)))))

/-- R260 to R263: HCFG reads its descriptor; HGATHER and HSCATTER read it and capture the registers that it calls for. -/
def Obligations.HashGridInstructions : Prop :=
  ∀ (d a sr l0 n : Nat) (x : List Byte) (s1 : State),
    Completes (.hcfg d a)
      (fun s e => GoesOn s e ∧ (e.g.regs.sr a).toNat % 128 = 0 ∧ e.readBlock s (e.g.regs.sr a) 128 false = (.ok x, s1))
      (fun s e => e.goOn s (e.startOp s1 fun o => { o with svals := [e.g.regs.sr a], misc := x.map (·.toNat) }).2) ∧
    Completes (.hgather d a sr l0 n) (fun s e => GoesOn s e ∧ e.GridOk s d a sr l0 n false x s1)
      (fun s e => e.goOn s (e.hashed d a n false x s1)) ∧
    Completes (.hscatter d a sr l0 n) (fun s e => GoesOn s e ∧ e.GridOk s d a sr l0 n true x s1)
      (fun s e => e.goOn s (e.hashed d a n true x s1))

/-- R264, R265, R268, R270, R271, R420: DRAW's descriptor is checked and its operation waits for the group's writes; it is
read as DRAW issues where those writes are done, and otherwise later (assumption log 71 settles that time); TSAMP and the ray
instructions read their records as accesses, TSAMP's as it issues (assumption log 64). -/
def Obligations.DrawsTexturesAndRays : Prop :=
  ∀ (d a n c sr x l : Nat) (any : Bool) (md : TMode) (cull : Cull) (ts us : List (Piece × Trans)) (sp : List Nat) (s1 s2 : State) (b : List Byte)
    (x0 : Nat × Nat),
    Completes (.draw d a n any)
      (fun s e => GoesOn s e ∧ e.DrawOk s a ts sp s1 ∧
        (s1.released e.die (s.awaitOf e.gid Instr.writesMem) = false ∨
          (s1.readVia (some (.l1 e.g.core)) (coreTlb e.g.core) e.die e.ctx (e.g.ctl.level == .u)
            (vaOf (globalAddr (e.g.regs.sr a) 0)) 64).1 = .error x0))
      (fun s e => e.goOn s (e.drew s s1 a [])) ∧
    Completes (.draw d a n any)
      (fun s e => GoesOn s e ∧ e.DrawOk s a ts sp s1 ∧
        s1.released e.die (s.awaitOf e.gid Instr.writesMem) = true ∧
        s1.readVia (some (.l1 e.g.core)) (coreTlb e.g.core) e.die e.ctx (e.g.ctl.level == .u)
          (vaOf (globalAddr (e.g.regs.sr a) 0)) 64 = (.ok b, s2))
      (fun s e => e.goOn s (e.drew s s2 a b)) ∧
    Completes (.draw d a n any) (fun s e => GoesOn s e ∧ e.g.active &&& ~~~e.g.helpers = 0) (fun s e => e.goOn s s) ∧
    Completes (.tsamp d c sr x l md) (fun s e => GoesOn s e ∧ e.TexOk s c sr x l md ts s1 us s2)
      (fun s e => e.goOn s (e.sampled c sr x l md (s1.readRecs e.g.core e.ctx ts).1 us s2)) ∧
    Accesses (.rbox d a sr n) GI.lanes (fun e => planRecs (e.g.regs.sr sr) (fun l => (e.g.regs.vl n l).toNat) e.lanes) ∧
    Accesses (.rtri d a sr n cull) GI.lanes (fun e => planRecs (e.g.regs.sr sr) (fun l => (e.g.regs.vl n l).toNat) e.lanes)

/-- R266, R267, R272: ORDENT and REGROUP hold their group; ORDEXIT leaves the section, its pixels waiting for the group's
writes; a REGROUP that has been dealt goes on once its writes are visible, with an acquire on every path (R240). -/
def Obligations.OrderedSectionsAndRegroup : Prop :=
  ∀ (k p : Nat),
    Completes (.ordent k p) (fun _ e => e.g.sect = none) (fun s e => e.held s []) ∧
    Completes .ordexit GoesOn (fun s e => e.goOn s (s.leaveSection e.gid (BitVec.allOnes 64))) ∧
    Completes (.regroup k) (fun _ e => e.g.stack = [] ∧ e.g.helpers = 0 ∧ e.g.sect = none) (fun s e => e.held s []) ∧
    Continues (.regroup k) (fun s e => GoesOn s e ∧ ∃ w, e.g.ctl.holdArg = [2, w] ∧ w + 2 < s.gtOf e.g.core)
      (fun s e => e.goOn s (s.dropPaths e.g.core (s.gtOf e.g.core)))

/-- R273 to R275: ROUTE and XDONE start an operation of the expert engine with the registers that they read; CSRW writes the
value of its register to a control register. -/
def Obligations.ExpertsAndControlRegisters : Prop :=
  ∀ (n e d t a : Nat) (r : Csr),
    Starts (.route n e d) (fun _ _ => True) (fun _ g o => { o with lanes := g.storeLanes, wlanes := g.storeLanes, vvals := [g.g.regs.vr e] }) ∧
    Starts (.xdone t) (fun _ _ => True) (fun _ g o => { o with lanes := g.storeLanes, vvals := [g.g.regs.vr t, g.g.regs.vr (t + 1)] }) ∧
    Completes (.csrw r a) GoesOn
      (fun s g => g.goOn s (s.csrWrite r g.gid g.ctx g.g.team (g.g.regs.sr a).toNat))

/-- R107, R219, R242, R266, R267, R272, R429: an instruction that holds its group ends when what it waits for has come: a
fence whose writes are done, ORDENT when the scoreboard admits its lanes, MBXRECV when a packet is there for the oldest waiting
group; a round of REGROUP closes, and is dealt, whole (assumption log 133), once its groups' waits have ended. R225, R239, R241,
R267, R391: what waits for a group's earlier writes acts once they have completed: BARARR's arrival, a packet queued at its die,
PUBW's store, the pixels of an ordered section. -/
def Obligations.HeldGroupsAndDeliveries : Prop :=
   (∀ (gid k p d a die l : Nat) (sc : Scope) (e : GI) (m : Member) (r : List Member) (x : Packet) (xs : List Packet),
      Happens (.wWaitSatisfied gid)
        (fun s => s.gi gid (.fence sc) = some e ∧ e.g.ctl.hold = some (.fence sc) ∧ e.g.ready (.fence sc) = true ∧
          e.fenced s sc = true ∧ GoesOn s e)
        (fun s => e.goOn s s) ∧
      Happens (.ordentAdmit gid)
        (fun s => s.gi gid (.ordent k p) = some e ∧ e.g.ctl.hold = some (.ordent k p) ∧ e.g.ctl.pre = .run ∧ GoesOn s e ∧
          ∀ l ∈ lanesOf (e.g.active &&& ~~~e.g.helpers),
            s.admits e.die e.ctx ((lanesOf (e.g.active &&& ~~~e.g.helpers)).map (e.ordLane k p)) (e.ordLane k p l).1 (e.ordLane k p l).2 = true)
        (fun s =>
          let sect : Section := ⟨e.g.active, (lanesOf (e.g.active &&& ~~~e.g.helpers)).map fun l => (l, e.ordLane k p l)⟩
          e.goOn s ((s.modGroup gid fun g => { g with sect := some sect }).dropPath e.g.core .core (s.gtOf e.g.core))) ∧
      Happens (.mbxrecvTake gid)
        (fun s => s.gi gid (.mbxrecv d a) = some e ∧ e.g.ctl.hold = some (.mbxrecv d a) ∧ (s.die e.die).mbx = x :: xs ∧
          s.oldestRecv gid e.g = true ∧ s.mayTake e.g = true ∧ GoesOn s e)
        (fun s => e.goOn s ((((s.modDie e.die fun y => { y with mbx := xs }).modTeam e.g.team fun t =>
          { t with loc := t.loc.write (e.g.regs.sr a).toNat (s.receive x) }).modRegs gid fun y =>
            y.setS d (BitVec.ofNat 64 (rdN (s.receive x) 0 8))).dropPath e.g.core .core (s.gtOf e.g.core))) ∧
      Happens (.regroupRoundClose die l) (fun s => s.dealing die l = m :: r ∧ s.deviceHeld m.e.ctx m.round = false) (fun s => s.deal (m :: r)) ∧
      Happens (.regroupRoundClose die l) (fun s => s.dealing die l = [])
        (fun s => (s.closing die l).foldl (fun a m => a.modCtl m.e.gid fun c => { c with holdArg := [1, s.nextId] }) s.fresh.2)) ∧
   (∀ (n d k c : Nat) (fwd : Bool) (e : GI) (a : Arrive) (o : Op) (r : Release),
      Happens (.bararrArrive n)
        (fun s => tget s.work.arrives n = some a ∧ s.gi a.gid .nop = some e ∧ a.await.ops = [] ∧ s.atomicsPending a.gid = false ∧ e.arrived s a.bar = false ∧
          s.barAgrees e.g.team (e.barOf s a.bar) a.c = true)
        (fun s => ({ s with work := { s.work with arrives := tdel s.work.arrives n } } : State).barArrive e.g.team e.g.num a.bar a.c) ∧
      Happens (.mbxDeliver n)
        (fun s => tget s.work.ops n = some o ∧ o.instr = .mbxsend k d fwd ∧ o.st = .engine ∧ s.gi o.gid .nop = some e ∧
          (∀ p ∈ s.work.ops, p.1 < n → p.2.gid = o.gid → p.2.st = .engine → ∀ x f, p.2.instr ≠ .mbxsend x d f) ∧
          s.released (coreDie o.core) { o.await with copies := [], draws := [] } = true ∧ (s.die d).state = 0 ∧
          s.reach (coreDie o.core) d = .ok ∧ (s.die d).mbx.length < 1024)
        (fun s =>
          let x : Packet := ⟨packetFor (o.misc.map fun n => BitVec.ofNat 8 n) fwd o.core e.ctx⟩
          (s.modDie d fun y => { y with mbx := y.mbx ++ [x] }).modOp n fun x => { x with st := .ready }) ∧
      Happens (.pubwStore n)
        (fun s => tget s.work.ops n = some o ∧ o.instr = .pubw c k ∧ o.st = .engine ∧ s.released (coreDie o.core) o.await = true)
        (fun s => s.modOp n fun x => { x with st := .reqs }) ∧
      Happens (.ordexitRelease n)
        (fun s => tget s.work.releases n = some r ∧ s.released r.die r.await = true)
        (fun s => { s.modDie r.die fun y => { y with board := r.entries.foldl (boardWithout r.ctx) y.board } with
          work := { s.work with releases := tdel s.work.releases n } }))

/-- R107, R249, R252, R254 to R256: an operation completes with what it leaves; the oldest command of a free array starts on it,
with its tile's bytes as they stand then, MMAP on both arrays, AGDRAIN with the rows of its accumulator. R264, R265, R420 (that a
held descriptor is read as soon as the group's writes are done is the model's reading: assumption log 71): a draw's descriptor is
read once the group's writes are done, if it has not been, and a good one is queued. R326, R488: an access that the moving bit held
goes on once its page has moved, whatever its instruction, size and hint, and waits while the page still moves. -/
def Obligations.OperationsCompleteAndStart : Prop :=
  ∀ (n m d a b c q t sc sr : Nat) (r any : Bool) (z : Size) (h : Hint) (e : GI) (o : Op) (f : Fin) (x : Draw) (p : Plan)
    (ts : List (Piece × Trans)) (sp : List Nat) (bs : List Byte) (w0 w1 : Nat) (ws : List Nat) (s1 s2 : State),
    Happens (.longOpComplete n)
      (fun s => tget s.work.ops n = some o ∧ s.gi o.gid o.instr = some e ∧ o.gid ≠ 0 ∧ o.flag ≠ 15 ∧ s.acqHeld n o = false ∧ e.opEnd s n o = .ok f)
      (fun s => e.complete s n o f) ∧
    Happens (.matrixCommandStart m)
      (fun s => s.startsNext m n o ∧
        o.instr ∈ [.azero d, .amov a d, .aload t d, .mma r t a d, .mmabs r t a d sc, .adrain r sr a t, .astash a q t])
      (fun s => ((s.unqueue m n).setArray m (some n)).modOp n fun y => { y with misc := (s.tileNow o.team o).length :: s.tileNow o.team o }) ∧
    Happens (.matrixCommandStart m)
      (fun s => s.startsNext m n o ∧ o.instr = .mmap r t a d ∧ s.arrayRun (m + 1) = none ∧ s.gi o.gid o.instr = some e ∧ e.partner s = some q)
      (fun s => (((s.unqueue m n).setArray m (some n)).setArray (m + 1) (some n)).modOp n fun y =>
        { y with misc := (s.tileNow o.team o).length :: (s.tileNow o.team o ++ s.tileNow q o) }) ∧
    Happens (.matrixCommandStart m)
      (fun s => s.startsNext m n o ∧ o.instr = .agdrain c b a)
      (fun s => (s.unqueue m n).agdrainStart n o a) ∧
    Happens (.drawQueue n)
      (fun s => tget s.work.ops n = some o ∧ o.instr = .draw d a q any ∧ s.gi o.gid o.instr = some e ∧ o.st = .engine ∧
        (∀ y ∈ s.work.faults, ¬ (y.2.kind = 4 ∧ y.2.moving = true ∧ y.2.holder = n)) ∧ s.released e.die o.await = true ∧
        o.misc = [w0] ∧
        s.readVia (some (.l1 o.core)) (coreTlb o.core) e.die e.ctx o.user (o.svals.getD 0 0).toNat 64 = (.ok bs, s1))
      (fun _ => s1.modOp n fun y => { y with misc := 0 :: bs.map (·.toNat) }) ∧
    Happens (.drawQueue n)
      (fun s => tget s.work.ops n = some o ∧ o.instr = .draw d a q any ∧ s.gi o.gid o.instr = some e ∧ o.st = .engine ∧
        (∀ y ∈ s.work.faults, ¬ (y.2.kind = 4 ∧ y.2.moving = true ∧ y.2.holder = n)) ∧ s.released e.die o.await = true ∧
        o.misc = w0 :: w1 :: ws ∧
        s.fresh.2.checkDraw e.die (drawOf ((w1 :: ws).map fun y => BitVec.ofNat 8 y) e.ctx (o.svals.getD 0 0).toNat o.gid s.nextId none
          (some o.core) o.user) = (.good x, s1) ∧
        s1.queueDraw e.die q any x = some s2)
      (fun s => (s2.modOp n fun y => { y with st := .ready, misc := [0] }).modAwaits fun w =>
        if w.ops.contains n then { w with draws := w.draws ++ [s.nextId] } else w) ∧
    Happens (.mvRecheck n)
      (fun s => tget s.work.ops n = some o ∧ s.gi o.gid o.instr = some e ∧ o.instr = .ld d sr q z h r ∧ o.st = .moving none ∧
        p = planGlobal z false r true 1 h .load (o.svals.getD 0 0) (o.vvals.getD 0 []) (fun _ => []) o.lanes ∧
        s.tagsPending o.gid n = false ∧ p.check s (coreTlb o.core) (coreDie o.core) e.ctx o.user = (.go ts sp, s1))
      (fun _ => (s1.modOp n fun y => { y with st := .reqs, misc := sp }).sendPieces p o.gid n o.core (coreDie o.core) e.ctx
        e.team.launch ts) ∧
    Happens (.mvRecheck n)
      (fun s => tget s.work.ops n = some o ∧ s.gi o.gid o.instr = some e ∧ o.instr = .st d sr q z h ∧ o.st = .moving none ∧
        p = planGlobal z true false true 2 h .store (o.svals.getD 0 0) (o.vvals.getD 0 [])
          (fun l => storeBytes z (capLane o.vvals 1 (zCount z) l)) o.lanes ∧
        s.tagsPending o.gid n = false ∧ p.check s (coreTlb o.core) (coreDie o.core) e.ctx o.user = (.go ts sp, s1))
      (fun _ => (s1.modOp n fun y => { y with st := .reqs, misc := sp }).sendPieces p o.gid n o.core (coreDie o.core) e.ctx
        e.team.launch ts) ∧
    Happens (.mvRecheck n)
      (fun s => tget s.work.ops n = some o ∧ s.gi o.gid o.instr = some e ∧ heldWork o.instr = none ∧ o.st = .moving none ∧
        planOf o.instr o.svals o.vvals o.lanes e.launch.priv e.team.size e.launch.scrBytes = some p ∧
        (p.tags && s.tagsPending o.gid n) = false ∧ p.check s (coreTlb o.core) (coreDie o.core) e.ctx o.user = (.go ts sp, s1))
      (fun _ => (s1.modOp n fun y => { y with
          st := match o.instr with
            | .pubw _ _ => .engine
            | .agdrain _ _ _ => .engine
            | _ => .reqs
          misc := sp }).sendPieces p o.gid n o.core (coreDie o.core) e.ctx e.team.launch ts) ∧
    Happens (.mvRecheck n)
      (fun s => tget s.work.ops n = some o ∧ s.gi o.gid o.instr = some e ∧ heldWork o.instr = none ∧ o.st = .moving none ∧
        planOf o.instr o.svals o.vvals o.lanes e.launch.priv e.team.size e.launch.scrBytes = some p ∧
        p.check s (coreTlb o.core) (coreDie o.core) e.ctx o.user = (.moving, s1))
      (fun s => s) ∧
    (∀ work : GI → State → Fx,
      Happens (.mvRecheck n)
        (fun s => tget s.work.ops n = some o ∧ s.gi o.gid o.instr = some e ∧ heldWork o.instr = some work ∧ o.st = .moving none ∧
          e.heldAgain s n o work = .on s1)
        (fun _ => s1) ∧
      Happens (.mvRecheck n)
        (fun s => tget s.work.ops n = some o ∧ s.gi o.gid o.instr = some e ∧ heldWork o.instr = some work ∧ o.st = .moving none ∧
          e.heldAgain s n o work = .wait)
        (fun s => s))

/-- R30, R96, R132, R243, R373, R380: a group whose flags are clear and whose exceptions have joined its status (R196) enters
the handler of its trap, or the PREEMPT handler at a clause header; a group without lanes ends, and leaves to its team the
copies and draws that are under way; the next team of a parked span expands. -/
def Obligations.GroupsEnterExpandAndEnd : Prop :=
  ∀ (gid n : Nat) (e : GI) (t : TrapRec) (x : Span) (s1 : State),
    Happens (.trapHandlerEntry gid)
      (fun s => s.gi gid .nop = some e ∧ e.g.ctl.trap = some t ∧ t.toM = false ∧ e.g.ctl.level = .u ∧ e.g.ctl.emul ≠ some 0 ∧
        e.g.quiet = true ∧ e.g.ctl.desched = none ∧ e.handlerOk s = true)
      (fun s => e.trapTaken s t) ∧
    Happens (.preemptEntry gid)
      (fun s => s.gi gid .nop = some e ∧ e.team.pre.isSome = true ∧ e.g.ctl.pre = .entering ∧ e.g.quiet = true ∧
        (e.fetch s .u (s.uvec e.ctx)).header = true)
      (fun s => s.putGroup gid { e.g with
        tags := []
        latch := { e.g.latch with valid := false }
        regs := { (e.g.regs.setS 59 (BitVec.ofNat 64 e.g.ctl.pos.h)).setS 58 (BitVec.ofNat 64 e.g.regs.mode.toNat) with mode := modeEntry }
        ctl := { e.g.ctl with pos := ⟨s.uvec e.ctx, 0⟩, pre := .handler } }) ∧
    Happens (.groupEnd gid)
      (fun s => tget s.groups gid = some e.g ∧ e.g.ctl.ending = true ∧ e.g.flagsClear = true ∧ e.g.late = [] ∧
        e.g.ctl.trap = none ∧ ∀ a ∈ s.work.arrives, a.2.gid ≠ gid)
      (fun s =>
        let w := s.awaitOf gid fun _ => false
        let s1 := s.modTeam e.g.team fun t =>
          { t with left := { t.left with copies := t.left.copies ++ w.copies, draws := t.left.draws ++ w.draws } }
        ((s1.dropGroup gid).barsCheck e.g.team).teamCheck e.g.team) ∧
    Happens (.teamExpand n) (fun s => tget s.spans n = some x ∧ x.park = .expand ∧ s.expandOne n = some s1) (fun _ => s1.settle x.core)

/-- R289, R296, R299 to R303, R211: a request that may be performed is: a read at a home that holds the line, or from a
valid copy; a store becomes pending at its home and takes effect at its W; an atomic is performed on what every earlier
arrival leaves; a scratchpad access where it arrives. -/
def Obligations.HomesServeRequests : Prop :=
  ∀ (n w lid c : Nat) (inst : Bool) (op : AOp) (ty : AType) (r : Req) (x : CopyLine),
    Happens (.homeRead n true) (fun s => s.reqNow n = some r ∧ r.kind = .load ∧ s.copyHit r = some x) (fun s => s.hitServe n r x) ∧
    Happens (.homeRead n false)
      (fun s => s.reqNow n = some r ∧ r.kind = .load ∧ s.homeReady r = true ∧ (s.homeLine (r.pa / 128)).isSome = true ∧
        s.poisonedAt r.pa r.size r.key = false)
      (fun s => ((s.leaseOut r).touchHome r).answer n (.done 0) (s.see r.pa r.size r.key)) ∧
    Happens (.homeStoreArrive n inst)
      (fun s => s.reqNow n = some r ∧ r.kind = .store ∧ s.homeReady r = true)
      (fun s =>
        let p := (s.dropPassing r).pend (r.pa / 128) n (r.pa % 128) r.data
        p.2.modReq n fun y => { y with st := .pending p.1, install := inst }) ∧
    Happens (.homeStorePerform n)
      (fun s => tget s.work.reqs n = some r ∧ r.st = .pending w ∧ r.kind = .store ∧ w ≤ s.gtAt (s.homeDie (r.pa / 128)) ∧
        (s.lineCtl (r.pa / 128)).pend.head?.map (·.req) = some n ∧ (s.spaceOf r.pa).isSome = true ∧ s.keyed r.key = true ∧ (s.homeLine (r.pa / 128)).isSome = true)
      (fun s => ((((s.performPend (r.pa / 128) n).noteWrite r w).ackInstall r w).touchHome r).answer n (.done w) r.val) ∧
    Happens (.homeAtomic n)
      (fun s => s.reqNow n = some r ∧ r.kind = .atomic op ty c ∧ s.homeReady r = true ∧ (s.homeLine (r.pa / 128)).isSome = true ∧
        s.poisonedAt r.pa r.size r.key = false)
      (fun s =>
        let old := slice (s.futureLine (r.pa / 128) r.key) (r.pa % 128) r.size
        let p := (((s.dropPassing r).dropCopies (r.pa / 128) fun h => h == .l1 r.core).toMsc (r.pa / 128) r.hint r.missed).pend (r.pa / 128) n (r.pa % 128) (r.atomBytes old)
        (p.2.noteWrite r p.1).modReq n fun y => { y with st := .pending p.1, val := old }) ∧
    Happens (.scratchpadBankOp n)
      (fun s => s.reqNow n = some r ∧ r.space = .scratch lid ∧ r.kind = .store ∧ s.scratchHeld r = false)
      (fun s => ((s.setScratch lid r.die ((s.scratchOf lid r.die).write r.pa r.data)).noteWrite r (s.gtAt r.die)).answer n
        (.done (s.gtAt r.die)) ((s.scratchOf lid r.die).read r.pa r.size))

/-- R228, R230, R231, R295, R315, R352: a well-formed copy request starts; an element goes where it belongs, and counts once
its write is visible; the filters of a slice swap after 2^18 misses; a walk fills what it reads; a fault's entry is written to
the fault queue that has room. -/
def Obligations.CopiesWalksAndFaults : Prop :=
  ∀ (n el die sl core ctx va w : Nat) (c : Copy) (f : CopyFor) (t : Team) (b : List Byte) (x : FaultRec) (y : Ctx) (s1 : State),
    Happens (.copyRequestExecute n)
      (fun s => tget s.work.copies n = some c ∧ s.copyFor c = some f ∧ c.node = none ∧ tget s.teams c.team = some t ∧
        c.started = false ∧ c.stopped = false ∧ s.engineFree c f.die = true ∧ c.req.malformed f t.loc = false)
      (fun s => s.modCopy n fun _ => { c with started := true }) ∧
    Happens (.copyElementWrite n el)
      (fun s => tget s.work.copies n = some c ∧ s.copyFor c = some f ∧ tget s.teams c.team = some t ∧
        (∀ z ∈ c.flying, z.1 ≠ el) ∧ c.started = true ∧ c.stopped = false ∧ s.engineFree c f.die = true ∧ c.next ≤ el ∧ el ∉ c.early ∧
        el < c.req.count ∧ s.copyRead f c.req t.loc el = (.bytes b, s1))
      (fun _ => s1.copyWrite n c f el b) ∧
    Happens (.copyElementWrite n el)
      (fun s => tget s.work.copies n = some c ∧ s.copyFor c = some f ∧ c.flying.find? (fun z => z.1 == el) = some (el, w) ∧
        w + 2 < s.gtAt f.die)
      (fun s => ((s.copyCount c c.req.e 0).modCopy n fun z =>
        { z with flying := z.flying.filter (fun q => q.1 != el), counted := z.counted + c.req.e }).copyCheck n) ∧
    Happens (.louvreFilterSwap die sl) (fun s => 262144 ≤ (s.louvreOf die sl).misses)
      (fun s =>
        let f := s.louvreOf die sl
        { s with mem := { s.mem with louvre := tput s.mem.louvre (die * 64 + sl) ⟨0, f.active, f.misses - 262144⟩ } }) ∧
    Happens (.pageWalk core ctx va) (fun _ => True) (fun s => (s.walk (coreTlb core) (coreDie core) ctx (vaOf va)).2) ∧
    Happens (.faultQueueWrite n)
      (fun s => tget s.work.faults n = some x ∧ tget s.ctxs x.ctx = some y ∧ x.seq = 0 ∧ x.kind ≠ 5 ∧ y.fqmsi = false ∧
        (y.fqHead + 2 ^ 32 - s.descGet x.ctx 0x68) % 2 ^ 32 < 2 ^ y.fqLog ∧
        s.devWrite 0 x.ctx (y.fqBase + 32 * (y.fqHead % 2 ^ y.fqLog)) (x.bytes (s.run x.ctx).nextSeq) = (.ok w, s1))
      (fun s =>
        let h := (y.fqHead + 1) % 2 ^ 32
        let s2 := (s1.modCtx x.ctx fun z => { z with fqHead := h }).descPut x.ctx 0x64 h
        (s2.setFaults (tmod s2.work.faults n fun z => { z with seq := (s.run x.ctx).nextSeq })).modRun x.ctx fun z =>
          { z with nextSeq := (s.run x.ctx).nextSeq + 1 })

/-- R243, R350, R363, R364, R366, R388: a launch descriptor that no rule refuses becomes a launch with a share for each die;
another answers its status, as one whose address is not canonical does. A die places the next piece of an eligible launch as a
span, or pre-empts for it. R19, R367: a CORESIDENT launch is placed whole, in the model all of it in one step (assumption log
111). Context commands report their result when they complete. -/
def Obligations.LaunchesAndContexts : Prop :=
  ∀ (n die core c st : Nat) (x : Submit) (k : Ctx) (d : Desc) (l : Launch) (s1 : State),
    Happens (.launchSubmit n)
      (fun s => tget s.work.subs n = some x ∧ tget s.ctxs x.ctx = some k ∧ (s.run x.ctx).suspended = false ∧
        (s.run x.ctx).releasing = false ∧ x.addr < 2 ^ 56 ∧ s.deviceHeld x.ctx n = false ∧
        s.readDesc (x.die.getD 0) x.ctx x.addr = (.ok d, s1) ∧
        l = d.launch x.ctx (x.class d.flags k.cls) (s.run x.ctx).lossx x.source ∧
        d.refusal l x.die (s.run x.ctx).privSlot (s.run x.ctx).privSlots k.saveSize = none)
      (fun _ =>
        let sh := (List.range 4).map (l.share x.die)
        let l1 := { l with desc := x.addr, nextT := sh.map (·.1), endT := sh.map (·.2), order := s1.nextId }
        ({ s1 with nextId := s1.nextId + 1, launches := tput s1.launches s1.nextId l1 } : State).answerSub n x 0) ∧
    Happens (.launchSubmit n)
      (fun s => tget s.work.subs n = some x ∧ tget s.ctxs x.ctx = some k ∧ (s.run x.ctx).suspended = false ∧
        (s.run x.ctx).releasing = false ∧ x.addr < 2 ^ 56 ∧ s.deviceHeld x.ctx n = false ∧
        s.readDesc (x.die.getD 0) x.ctx x.addr = (.refuse st, s1))
      (fun _ => s1.answerSub n x st) ∧
    Happens (.launchSubmit n)
      (fun s => tget s.work.subs n = some x ∧ tget s.ctxs x.ctx = some k ∧ (s.run x.ctx).suspended = false ∧
        (s.run x.ctx).releasing = false ∧ 2 ^ 56 ≤ x.addr)
      (fun s => s.answerSub n x 0x08) ∧
    Happens (.placePiece n die)
      (fun s => tget s.launches n = some l ∧ s.eligible l die = true ∧ s.outranked l die = false ∧ l.csp = 0 ∧ l.paired = false ∧
        l.coresident = false ∧ l.nospan = false ∧ s.coreFor n l die = some core)
      (fun s =>
        let t := l.nextT.getD die 0
        let m := s.pieceOn n l die core
        (s.putSpan l n core (t % l.gx) m (t / l.gx)).modLaunch n fun y => { y with nextT := y.nextT.set die (t + m) }) ∧
    Happens (.placePiece n die)
      (fun s => tget s.launches n = some l ∧ s.eligible l die = true ∧ s.outranked l die = false ∧ l.csp = 0 ∧ l.coresident = false ∧
        s.coreFor n l die = none)
      (fun s => s.preemptFor n l die) ∧
    Happens (.placePiece n die)
      (fun s => tget s.launches n = some l ∧ s.eligible l die = true ∧ s.outranked l die = false ∧ l.coresident = true ∧
        s.placeWhole n l = some s1)
      (fun _ => s1) ∧
    Happens (.ctxEnable c) (fun s => c < 16384 ∧ s.commands 1 c)
      (fun s => (s.enable c).2.modPkg fun p => { p with cmdOut := some (s.enable c).1 }) ∧
    Happens (.ctxDisable c) (fun s => c < 16384 ∧ s.commands 2 c ∧ (tget s.ctxs c).isSome = true)
      (fun s => (s.endContext c).modPkg fun p => { p with cmdOut := some 0 }) ∧
    Happens (.ctxRelease c) (fun s => c < 16384 ∧ s.commands 3 c ∧ (tget s.ctxs c).isSome = true ∧ s.hasLaunch c = false)
      (fun s => (s.endContext c).modPkg fun p => { p with cmdOut := some 0 }) ∧
    Happens .ctxcmdComplete (fun s => s.pkg.cmdBusy = true ∧ s.pkg.cmdOut = some st)
      (fun s => s.modPkg fun p => { p with cmdBusy := false, cmdResult := st, cmdOut := none })

/-- R360 to R362: what each kick of an enabled context does where the module gives service; one that breaks R360, or that
comes at service level 0 (R445), is discarded and counted in KICKDROP. That the device keeps the count of a context that is not
enabled until it is enabled is the model's reading (assumption log 136). -/
def Obligations.KicksOfContexts : Prop :=
  ∀ (c h a q v : Nat) (dl : Bool),
    Happens (.kickReplay c h a) (fun s => s.serves c ∧ (s.run c).kicks.length < 64)
      (fun s => s.modRun c fun r => { r with kicks := r.kicks ++ [(h, a)] }) ∧
    Happens (.kickReplay c h a) (fun s => s.serves c ∧ 64 ≤ (s.run c).kicks.length) (fun s => s.kickDrop c) ∧
    Happens (.kickResolve c dl q) (fun s => s.serves c)
      (fun s => (s.work.faults.filter fun f => f.2.ctx == c && f.2.seq != 0 && decide (f.2.seq ≤ q)).foldl
        (fun t f => t.resolveFault f.1 f.2 dl) s) ∧
    Happens (.kickFrameTick c) (fun s => s.serves c) (fun s => s.frameTick c) ∧
    Happens (.kickSuspend c) (fun s => s.serves c)
      (fun s =>
        let t := s.modRun c fun r => { r with suspended := true }
        (t.launches.filter fun l => l.2.ctx == c).foldl (fun y l => y.requestLaunch l.1 fun _ => true) t) ∧
    Happens (.kickResume c) (fun s => s.serves c) (fun s => s.modRun c fun r => { r with suspended := false }) ∧
    Happens (.kickDiscard c v) (fun _ => kickBad v = true) (fun s => s.kickDrop c) ∧
    Happens (.kickDiscard c v) (fun s => s.mgmt.level = 0) (fun s => s.kickDrop c) ∧
    (∀ (s : State) (x : Ctx), tget s.ctxs c = some x → s.kickDrop c =
      (s.modCtx c fun y => { y with kickDrop := (x.kickDrop + 1) % 2 ^ 32 }).descPut c 0x6C ((x.kickDrop + 1) % 2 ^ 32)) ∧
    (∀ s : State, tget s.ctxs c = none → s.kickDrop c = s.modRun c fun r => { r with dropped := (r.dropped + 1) % 2 ^ 32 })

/-- R353 to R359, R420: a queued replay begins; the node that starts next is submitted, copies, draws, adds or waits as its
kind says, a draw node's descriptor being read as it starts and the draw queued from it; a wait ends when its word is
reached, with an acquire on every path; a node that is done, and is not the last, completes. -/
def Obligations.GraphNodesRun : Prop :=
  ∀ (c n h a w : Nat) (rest : List (Nat × Nat)) (r : Replay) (x : Node) (d : Draw) (b : List Byte) (s1 s2 : State),
    Happens (.replayBegin c)
      (fun s => (tget s.ctxs c).isSome = true ∧ (s.run c).replay = none ∧ (s.run c).kicks = (h, a) :: rest ∧
        s.deviceHeld c replayBase = false ∧ s.beginReplay c h a = .go r s1)
      (fun _ => s1.modRun c fun y => { y with kicks := rest, replay := some r }) ∧
    Happens (.nodeLaunch c n) (fun s => s.starts c n 0 = some x) (fun s => s.submits c n x false) ∧
    Happens (.nodeBackgroundLaunch c n) (fun s => s.starts c n 1 = some x) (fun s => s.submits c n x true) ∧
    Happens (.nodeCopy c n) (fun s => s.starts c n 2 = some x)
      (fun s => (List.range x.y).foldl (fun t i => t.addCopyReq
        (Copy.queued (nodeEngine (x.z % 4)) 0 0 (some (c, n)) CopyReq.blank (vaOf (x.x + 64 * i)) t.gt)) (s.runNode c n 0)) ∧
    Happens (.nodeDraw c n)
      (fun s => s.starts c n 3 = some x ∧ s.work.faults = [] ∧ s.devRead (x.z % 4) c (vaOf x.x) 64 = (.ok b, s1))
      (fun _ => (s1.runNode c n 0).modNode c n fun y => { y with desc := b }) ∧
    Happens (.nodeDraw c n)
      (fun s => s.starts c n 3 = none ∧ s.work.faults = [] ∧ (s.run c).replay = some r ∧ r.nodes[n]? = some x ∧ x.kind = 3 ∧
        x.st = .run ∧ x.desc ≠ [] ∧
        s.fresh.2.checkDraw (x.z % 4) (drawOf x.desc c (vaOf x.x) 0 s.nextId (some n) none false) = (.good d, s1) ∧
        s1.queueDraw (x.z % 4) (x.y % 4) (nbit x.y 2) d = some s2)
      (fun _ => s2.modNode c n fun y => { y with desc := [] }) ∧
    Happens (.nodeSignal c n)
      (fun s => s.starts c n 4 = some x ∧ (s.run c).replay = some r ∧ s.deviceHeld c (replayBase + 1 + n) = false ∧ (∀ p ∈ r.preds n, p.at_ + 2 < s.gt) ∧
        s.devAdd 0 c (vaOf x.x) x.y = (.ok w, s1) ∧ x.tick = false)
      (fun _ => (s1.runNode c n 0).nodeDone c n) ∧
    Happens (.nodeWait c n) (fun s => s.starts c n 5 = some x) (fun s => s.runNode c n s.gt) ∧
    Happens (.waitNodePoll c n)
      (fun s => (s.run c).replay = some r ∧ r.nodes[n]? = some x ∧ x.kind = 5 ∧ x.st = .run ∧ x.at_ ≤ s.gt ∧
        s.deviceHeld c (replayBase + 1 + n) = false ∧ s.devRead 0 c (vaOf x.x) 8 = (.ok b, s1))
      (fun s => if x.y ≤ ofBytes b then s1.acquireAll.nodeDone c n else s1.runNode c n (s.gt + 256)) ∧
    Happens (.nodeComplete c n)
      (fun s => (s.run c).replay = some r ∧ r.nodes[n]? = some x ∧ x.st = .done ∧ x.kind ≠ 4 ∧ r.stopped = false ∧
        ¬ (∀ y ∈ r.nodes.zipIdx, y.2 = n ∨ y.1.st = .complete))
      (fun s => (s.modNode c n fun y => { y with st := .complete }).nodeMsi x)

/-- R60, R365, R379 to R383: frame ticks, and spent budgets, which a CORESIDENT launch remembers by a mark of the model's
(assumption log 122); the two timeouts; a team whose groups have all stopped and whose work has drained is saved; a saved team
resumes from its record (assumption log 86: what the record holds and what the device keeps beside it) on a core that can hold it,
and of a CORESIDENT launch all that it has saved. -/
def Obligations.PreemptionAndBudgets : Prop :=
  ∀ (c n core gid : Nat) (k : Ctx) (t : Team) (p : PreReq) (l : Launch) (e : GI) (x y : Saved) (s1 : State),
    Happens (.frameTick c)
      (fun s => tget s.ctxs c = some k ∧ k.tick ≠ 0 ∧ (s.run c).tickAt + 1000 * k.tick ≤ s.gt)
      (fun s => (s.frameTick c).modRun c fun r => { r with tickAt := r.tickAt + 1000 * k.tick }) ∧
    Happens (.budgetExpire c)
      (fun s => tget s.ctxs c = some k ∧ k.budget ≠ 0 ∧ (s.run c).remaining ≤ 0)
      (fun s => (s.launches.filter fun y => y.2.ctx == c && y.2.cls == .background).foldl
        (fun a y => (a.modLaunch y.1 fun z => { z with expired := z.expired || z.coresident }).requestLaunch y.1 fun _ => true) s) ∧
    Happens (.preemptTimeoutExpire n)
      (fun s => tget s.teams n = some t ∧ t.pre = some p ∧ p.at_ + 1000 * p.pto ≤ s.gtOf t.core)
      (fun s => s.modTeam n fun y => { y with pre := some { p with forced := true } }) ∧
    Happens (.ordTimeoutExpire gid)
      (fun s => s.gi gid .nop = some e ∧ e.team.pre = some p ∧ p.at_ + 1000 * p.oto ≤ s.gtOf e.g.core)
      (fun s => (s.forceOut gid).preGroup gid) ∧
    Happens (.teamSave n)
      (fun s => tget s.teams n = some t ∧ t.pre = some p ∧ tget s.launches t.launch = some l ∧ p.forced = false ∧
        (∀ g ∈ s.groupsOf n, g.2.stopped = true ∧ s.dealPending g.2 = false) ∧ s.drained n t l = true)
      (fun s => s.saveTeam n) ∧
    Happens (.teamResume n core)
      (fun s => tget s.saved n = some x ∧ tget s.launches x.launch = some l ∧ x.team.isSome = true ∧
        s.mayResume x.launch l x.die = true ∧ s.outranked l x.die = false ∧ core ∈ s.resumeCores l x ∧ l.coresident = false ∧
        s.canHold l n core = true ∧ s.deviceHeld l.ctx n = false ∧ s.reloaded x l = (.ok y, s1) ∧ y.team = some t)
      (fun _ => ({ s1.placeSaved l y t core with saved := tdel s1.saved n } : State).writeSaves x.die l.ctx) ∧
    Happens (.teamResume n core)
      (fun s => tget s.saved n = some x ∧ tget s.launches x.launch = some l ∧ s.mayResume x.launch l x.die = true ∧
        s.outranked l x.die = false ∧ core ∈ s.resumeCores l x ∧ l.coresident = true)
      (fun s => s.resumeAll x.launch l (some (n, core)))

/-- R418, R422 to R428: a queued draw starts with its fragment list; the next covered sample is tested at its slot and
written when it passes, in one step that takes a W either way; a pixel becomes a fragment with its record and its scoreboard
entry; a draw whose instances are done writes its counts and ERR, and signals when its writes are visible. -/
def Obligations.RasterisersDraw : Prop :=
  ∀ (die r w : Nat) (x : Running) (d : Draw) (rest : List Draw) (b : List Byte) (q : Nat × Nat × Nat × Nat)
    (qs : List (Nat × Nat × Nat × Nat)) (y : Nat × Nat × Nat) (ys : List (Nat × Nat × Nat)) (t : Trans) (w2 : Nat) (s1 s2 : State),
    Happens (.rasterDrawStart die r)
      (fun s => (s.raster die r).run = none ∧ (s.raster die r).queue = d :: rest ∧ s.rasterHeld die r = false ∧
        s.drawRead die d d.status 32 = (.ok b, s1))
      (fun _ => s1.modRaster die r fun z => { z with queue := rest, run := some (d.begun (rdN b 0x10 8) (rdN b 0x18 4)) }) ∧
    Happens (.rastTestAndWrite die r)
      (fun s => (s.raster die r).run = some x ∧ x.finishing = false ∧ x.inst < x.draw.insts ∧ s.rasterHeld die r = false ∧
        (x.draw.ord = 2 ∨ x.pixelDone = false) ∧ x.setUp = true ∧ x.todo = q :: qs ∧
        s.translate (engineCluster die) die x.draw.ctx (x.draw.slot q.1 q.2.1 q.2.2.1) ⟨true, false, x.draw.user⟩ = (.ok t, s1) ∧
        s1.spaceOf t.pa = some .global ∧ s1.writeRefused die t = false ∧ s1.reachFor die t.pa = .ok ∧
        s1.poisonedAt t.pa 16 t.key = false)
      (fun _ =>
        let pass := depthPass x.draw.flags q.2.2.2 (rdN (s1.physFuture t.pa 16 t.key) 8 4)
        let v := s1.devStoreFor die x.draw.ctx (x.draw.slot q.1 q.2.1 q.2.2.1) t.hint t.pa t.key
          (if pass then toBytes 8 x.key ++ (if nbit x.draw.flags 8 then toBytes 4 q.2.2.2 else []) else [])
        v.2.modRunning die r fun z => { z with
          todo := qs, lastW := max z.lastW v.1
          passed := if pass && decide (x.draw.ord ≠ 2) then z.passed ++ [(q.1, q.2.1, q.2.2.1)] else z.passed }) ∧
    Happens (.fragmentRegister die r)
      (fun s => (s.raster die r).run = some x ∧ x.pixelDone = true ∧ s.rasterHeld die r = false ∧ x.draw.ord ≠ 2 ∧
        x.passed = y :: ys ∧ x.frags < x.fragCap ∧ (s.die die).board.length < 262144 ∧
        s.writeAs die x.draw.ctx x.draw.user (x.fragBase + 16 * x.frags) (toBytes 4 (y.1 + 65536 * y.2.1) ++
          toBytes 4 (x.passed.foldl (fun m z => setBit m z.2.2 true) 0) ++ toBytes 8 x.key) = (.ok w, s1))
      (fun _ => (s1.modDie die fun z => { z with board := z.board ++ [⟨x.draw.ctx, y.1 + 65536 * y.2.1, x.key, x.draw.ord == 1⟩] }).modRunning
        die r fun z => { z with frags := z.frags + 1, passed := [], lastW := max z.lastW w }) ∧
    Happens (.drawEnd die r)
      (fun s => (s.raster die r).run = some x ∧ x.draw.insts ≤ x.inst ∧ s.rasterHeld die r = false ∧ x.finishing = false ∧
        s.writeAs die x.draw.ctx x.draw.user (x.draw.status + 8) (toBytes 4 x.frags ++ toBytes 4 x.fragOvf) = (.ok w, s1) ∧
        s1.writeAs die x.draw.ctx x.draw.user (x.draw.status + 0x1C) (toBytes 4 x.err) = (.ok w2, s2))
      (fun _ => s2.modRunning die r fun z => { z with finishing := true, lastW := max z.lastW (max w w2) }) ∧
    Happens (.drawEnd die r)
      (fun s => (s.raster die r).run = some x ∧ x.draw.insts ≤ x.inst ∧ s.rasterHeld die r = false ∧ x.finishing = true ∧
        x.lastW + 2 < s.gtAt die ∧ x.draw.node = none ∧ s.addAs die x.draw.ctx x.draw.user x.draw.status 1 = (.ok w, s1))
      (fun _ => (s1.modRaster die r fun z => { z with run := none }).drawGone x.draw x.lastW)

/-- R385, R386, R407 to R409: a flit that passes its CRC leaves its buffer, one that does not is sent again with the flit
sent behind it, a free one (assumption log 90), as is one that nothing acknowledges for 1 µs; a route switches when its other path
is up; the steps of a die's warm reset in their order, its GT set from its neighbour's and never back (assumption log 10). -/
def Obligations.LinksAndWarmReset : Prop :=
  ∀ (n a b d : Nat) (l k : Link) (f : Nat × List Byte) (fs : List (Nat × List Byte)),
    Happens (.linkFlitReceive n true) (fun s => s.links[n]? = some l ∧ l.up = true ∧ l.buffer = f :: fs)
      (fun s => s.modLink n fun _ => { l with buffer := fs, expect := l.expect + 1, fails := 0, sentAt := s.gt }) ∧
    Happens (.linkFlitReceive n false)
      (fun s => s.links[n]? = some l ∧ l.up = true ∧ l.buffer = f :: fs ∧ (s.sendFlit n).links[n]? = some k)
      (fun s => (s.sendFlit n).resend n k) ∧
    Happens (.linkRetryTimeout n)
      (fun s => s.links[n]? = some l ∧ l.up = true ∧ l.buffer ≠ [] ∧ l.sentAt + 1000 ≤ s.gt) (fun s => s.resend n l) ∧
    Happens (.routeSwitch a b)
      (fun s => a ≠ b ∧ s.routeBusy a b = false ∧ s.detour a b = false ∧ s.pathUp a (hops a b false) = false ∧
        s.pathUp a (hops a b true) = true)
      (fun s => { s with routes := tput s.routes (a * 8 + b) 1 }) ∧
    Happens (.warmResetRequest d) (fun s => d < 4 ∧ (s.die d).state = 0 ∧ s.resetFree d = true) (fun s => s.warmStart d) ∧
    Happens (.warmResetRequest d) (fun s => d < 4 ∧ (s.die d).state = 0 ∧ s.resetFree d = false)
      (fun s => s.modDie d fun x => { x with pending := true }) ∧
    Happens (.warmResetStart d) (fun s => (s.die d).pending = true ∧ s.resetFree d = true) (fun s => s.warmStart d) ∧
    Happens (.warmResetQuiesce d) (fun s => (s.die d).state = 1 ∧ s.dieIdle d = true)
      (fun s => s.modDie d fun x => { x with state := 2, quiesced := s.gtAt d }) ∧
    Happens (.warmResetQuiesce d) (fun s => (s.die d).state = 2 ∧ s.dieWaits d = false ∧ s.dieIdle d = true)
      (fun s => (neighbours d).foldl (fun t n => t.linkDown d n) ((s.flushDie d).modDie d fun x => { x with state := 3 })) ∧
    Happens (.warmResetRetrain d) (fun s => (s.die d).state = 3) (fun s => s.modDie d fun x => { x with state := 4 }) ∧
    Happens (.warmResetRetrain d) (fun s => (s.die d).state = 4)
      (fun s => (neighbours d).foldl (fun t n => t.setLink d n true)
        ({ s with skew := s.skew.set d (max (s.skew.getD d 0) (s.skew.getD (d ^^^ 1) 0)) }.modDie d fun x => { x with state := 5 })) ∧
    Happens (.warmResetAdmit d) (fun s => (s.die d).state = 5 ∧ (s.die d).quiesced + s.pkg.leaseRo + 2 < s.gtAt d)
      (fun s => s.modDie d fun x => { x with state := 0 })

/-- R395 to R405, R482: a window ends for every enabled table once XWINDOW has passed and the writes of the last window end
are visible, and the next window begins when every table has finished; a written image is published in one step once it is
visible; enabling, disabling and refreshing a table. -/
def Obligations.ExpertTables : Prop :=
  ∀ (n : Nat) (t : XTable) (p : PubVer),
    Happens .barchanWindowEnd
      (fun s => s.barchan.tables ≠ [] ∧ s.publishing = false ∧ s.barchan.windowAt + 1000 * s.barchan.window ≤ s.gt ∧
        s.barchan.lastW + 2 < s.gt)
      (fun s =>
        let s1 := (List.range 4).foldl (fun a n => a.tableWindow n) s
        if s1.windowing then s1 else s1.modBarchan fun b => { b with windowAt := s1.gt }) ∧
    Happens (.barchanPublish n)
      (fun s => s.xtab n = some t ∧ t.publish = some p ∧ p.w + 2 < s.gt ∧ p.written = true)
      (fun s =>
        let s1 := s.modTable n fun u => { u with cur := t.nextVer, images := tput u.images t.nextVer p.image }
        let s2 := s1.modBarchan fun b => { b with ver := b.ver.set n t.nextVer }
        ((s2.xPut (s.xBase n + 8) (toBytes 4 t.nextVer)).2).xPublished n p) ∧
    Happens (.xtableEnable n) (fun s => n < 4 ∧ s.barchan.en.getD n false = false)
      (fun s => match s.xFind n with
        | none => s.xLog 7 0xFFFF n 0 0 0
        | some u => ((s.modBarchan fun b =>
            { b with
              windowAt := if b.en.any id then b.windowAt else s.gt
              en := b.en.set n true
              ver := b.ver.set n u.cur
              tables := tput b.tables n u }).xPut (s.xBase n + 0x0C) (toBytes 4 u.cur)).2) ∧
    Happens (.xtableDisable n) (fun _ => True)
      (fun s => s.windowOver (s.modBarchan fun b => { b with en := b.en.set n false, tables := tdel b.tables n })) ∧
    Happens (.xtableRefresh n) (fun _ => True) (fun s => s.modBarchan fun b => { b with refresh := b.refresh.set n true })

/-- R331 to R333, R340 to R347, R348: rows staged and applied; a region switches to the rows that MAPAPPLY captured
(assumption log 79) when it is quiet; a retirement accepted; its cells start, are copied row by row and switch; a unit serves a
write. -/
def Obligations.InterleaveAndRetirement : Prop :=
  ∀ (r row data v c u n : Nat) (a b : List Nat) (t : Retire) (m : MoveCell) (q : UnitReq),
    Happens (.mapStageA r row data) (fun _ => r ≤ 5 ∧ row ≤ 11 ∧ data < 2 ^ 12) (fun s => s.modRegion r fun g => { g with sa := g.sa.set row data }) ∧
    Happens (.mapStageB r row data) (fun _ => r ≤ 5 ∧ row ≤ 11 ∧ data < 2 ^ bWidth r) (fun s => s.modRegion r fun g => { g with sb := g.sb.set row data }) ∧
    Happens (.mapApply r) (fun s => r ≤ 5 ∧ s.retire = none ∧ invertible (s.region r).sa = true)
      (fun s => s.modRegion r fun g => { g with applying := some (g.sa, g.sb) }) ∧
    Happens (.mapApply r) (fun s => r ≤ 5 ∧ s.retire = none ∧ invertible (s.region r).sa = false)
      (fun s => s.modPkg fun p => { p with errSingular := true, errRegion := r }) ∧
    Happens (.mapApplySwitch r) (fun s => (s.region r).applying = some (a, b) ∧ s.linesBusy (fun ln => inRegion (ln * 128) r) = false)
      (fun s => (s.modRegion r fun g => { g with a := a, b := b, moved := [], applying := none }).modPkg
        fun p => { p with migphase := (p.migphase + 1) % 2 ^ 32 }) ∧
    Happens (.retireStack v) (fun s => s.retireRefusal v = none) (fun s => s.retireAccept v) ∧
    Happens (.retireCellStart c)
      (fun s => s.retire = some t ∧ (t.cells.filter fun m => m.started && !m.switched).length < 64 ∧
        t.cells.findIdx? (fun m => !m.started) = some c)
      (fun s => s.modMoving c fun m => { m with started := true }) ∧
    Happens (.retireRowCopy c)
      (fun s => s.retire = some t ∧ t.cells[c]? = some m ∧ m.started = true ∧ m.switched = false ∧ m.mark < t.depthOf m ∧
        s.unitMeta (s.oldPlace m m.mark) = none)
      (fun s =>
        let o := s.oldPlace m m.mark
        let w := newPlace m m.mark
        let s1 := { s with mem := { s.mem with
          units := s.mem.units.write (w * 128) (s.mem.units.read (o * 128) 128), umeta := tdel s.mem.umeta w
          bad := s.mem.bad.filter fun b => b != w } }
        s1.modMoving c fun x => { x with mark := x.mark + 1 }) ∧
    Happens (.retireCellSwitch c)
      (fun s => s.retire = some t ∧ t.cells[c]? = some m ∧ m.started = true ∧ m.switched = false ∧ t.depthOf m ≤ m.mark ∧
        1 < s.pkg.retLeft)
      (fun s => ((s.modMoving c fun x => { x with switched := true }).modRegion m.region fun g =>
        { g with moved := tput g.moved m.cell (m.stack, m.base, 1) }).modPkg fun p =>
          { p with migphase := (p.migphase + 1) % 2 ^ 32, retLeft := p.retLeft - 1 }) ∧
    Happens (.unitRequest n)
      (fun s => tget s.mem.unitq n = some q ∧ s.unitStalls q.line = false ∧ (∀ x ∈ s.mem.unitq, x.1 < n → x.2.line ≠ q.line) ∧
        q.phase = s.pkg.migphase ∧ s.keyed q.key = true ∧ s.unitOf q.line = some u ∧
        s.reach (s.homeDie q.line) (unitDie (u / 2 ^ 30)) = .ok ∧ q.write = true)
      (fun s => ({ s with mem := { s.mem with unitq := tdel s.mem.unitq n } } : State).unitWrite u q.key q.data q.tags q.poison)

/-- R326, R336 to R338: a page's move begins with a free frame and its leaf's moving bit, copies its lines in order, takes
the new frame when they are visible and gives the old one back; counters are forwarded and looked at at the end of an epoch. R328:
a move that meets an address that does not exist ends the context that claimed the page, the leaf standing again as it was (that
much is the model's choice: assumption log 138); a line under a key slot that is not keyed
(R453) is passed over (138 too). -/
def Obligations.PageMoves : Prop :=
  ∀ (g i f v w : Nat) (a : MoveAsk) (as : List MoveAsk) (m : Move) (fs : List Nat) (s1 : State),
    Happens (.caravanMoveStart g)
      (fun s => (s.caravan g).move = none ∧ (s.caravan g).asks = a :: as ∧ s.caravanUp g = true ∧
        (nbit (s.entryAt a.leafPa) 0 && nbit (s.entryAt a.leafPa) 1 && nbit (s.entryAt a.leafPa) 8) = false ∧
        askOk g (s.entryAt a.leafPa) a.claim.isSome = true ∧ s.freeEntry g (s.entryAt a.leafPa) a.claim.isSome = some (i, f))
      (fun s => s.moveBegin g a (s.entryAt a.leafPa) i f) ∧
    Happens (.caravanPageCopy g)
      (fun s => (s.caravan g).move = some m ∧ s.caravanUp g = true ∧ m.phase = 1 ∧ 128 * m.next < m.size ∧
        s.spaceOf (65536 * nfld m.oldLeaf 16 32 + 128 * m.next) ≠ none ∧ s.spaceOf (m.frame + 128 * m.next) ≠ none ∧
        s.copyLine g (65536 * nfld m.oldLeaf 16 32 / 128 + m.next) (m.frame / 128 + m.next) = some (w, s1))
      (fun _ => s1.modCaravan g fun x => { x with move := some { m with next := m.next + 1, w := max m.w w } }) ∧
    Happens (.caravanPageCopy g)
      (fun s => (s.caravan g).move = some m ∧ s.caravanUp g = true ∧ m.phase = 1 ∧ 128 * m.next < m.size ∧
        (s.spaceOf (65536 * nfld m.oldLeaf 16 32 + 128 * m.next) = none ∨ s.spaceOf (m.frame + 128 * m.next) = none))
      (fun s => s.movePhys g m) ∧
    Happens (.caravanMoveEnd g)
      (fun s => (s.caravan g).move = some m ∧ s.caravanUp g = true ∧ m.w + 2 < s.gt ∧ m.phase = 1 ∧ m.size ≤ 128 * m.next)
      (fun s => (s.putLeaf m.oldLeaf m.leafPa (withFrame m.oldLeaf m.frame)).2.modCaravan g fun x =>
        { x with move := some { m with phase := 2, w := (s.putLeaf m.oldLeaf m.leafPa (withFrame m.oldLeaf m.frame)).1 } }) ∧
    Happens (.caravanFreetailWrite g v) (fun _ => True)
      (fun s => s.modCaravan g fun x => { x with freeTail := v % 2 ^ 32, waiting := false }) ∧
    Happens (.caravanEpochEnd g)
      (fun s => (g = 4 ∨ g = 5) ∧ (s.caravan g).epochAt + 1000 * (s.caravan g).epoch ≤ s.gt ∧ (s.caravan g).ctrBase ≠ 0)
      (fun s => (List.range (s.farFrames / 2)).foldl (fun t i => t.epochFrame g (2 * i + (g - 4)))
        (s.modCaravan g fun x => { x with epochAt := s.gt })) ∧
    Happens (.pageCountForward g) (fun s => (s.caravan g).fwd = f :: fs)
      (fun s => (s.modCaravan g fun x => { x with fwd := fs }).countFrame f)

/-- R387, R412, R417, R442, R445, R454, R455: host and peer accesses are performed at the homes of their lines, the host's
through slot 0 and a peer's through the slot of its window; a register is written; a port's link shows what it trained to; power
returns with a cold start, the flash, the fuses and outer memory kept (assumption log 97); a sample of a die's sensors sets its
clock and the causes that it shows while they hold (assumption log 92), and counts a step down; a die too hot loses power. -/
def Obligations.OutsideWorld : Prop :=
  ∀ (a q i n v up rem : Nat) (b : Bool) (acc : Inbound) (t vs rs : List Nat),
    Happens (.hostMemAccess a acc) (fun s => s.mgmt.level ≠ 0 ∧ a < 0x040000000000) (fun s => s.inbound 4 a 0 acc) ∧
    Happens (.peerInboundAccess q a acc)
      (fun s => s.mgmt.level ≠ 0 ∧ (s.ports.getD q Port.reset).admits a acc = some i)
      (fun s => s.inbound 5 a (nfld ((s.ports.getD q Port.reset).inbase.getD i 0) 54 10) acc) ∧
    Happens (.registerWrite a n v) (fun s => s.spaceOf a = some .window ∧ n ≤ 8) (fun s => s.winWrite a (toBytes n v)) ∧
    Happens (.peerLinkTrain q b up rem) (fun _ => True)
      (fun s => { s with ports := lmod s.ports q fun p =>
                    { p with up := b, lanes := if b then min up 4 else 0, remote := if b then rem % 2 ^ 48 else 0 } }) ∧
    (∀ s : State, s.power = false → exec .powerOn s = .next (s.coldStart false)) ∧
    Happens (.monitorSample q t vs rs)
      (fun s => hottest (sampled (s.die q).temp t 16) < 125 * 16)
      (fun s =>
        let d : Die := { s.die q with
          temp := sampled (s.die q).temp t 16, volt := sampled (s.die q).volt vs 16, ring := sampled (s.die q).ring rs 20 }
        let clk := nextClk d s.mgmt.level (hottest d.temp) (lowest d.volt)
        s.modDie q fun _ => { d with
          clk := clk, cause := throttleCause d s.mgmt.level
          events := if clk < d.clk then min (d.events + 1) (2 ^ 32 - 1) else d.events }) ∧
    Happens (.monitorSample q t vs rs)
      (fun s => ∃ x ∈ sampled (s.die q).temp t 16, x.valid = true ∧ 125 * 16 ≤ sgn x.val 16)
      (fun s => { s with power := false })

/-- R442 to R450: a management command under way answers with its result and length, ATTEST's signature in free bytes
(assumption log 12); a report is completed; warm and cold starts begin at once. Each step of a start that completes leads to the
next: of a cold start the memory comes back with slot 0's key at level 1, the far tier at 2, the near at 3; of a warm start at 1
and 3 (R442 to R444). Without an image that qualifies the module stays at level 0 (R446); a step that fails ends the start at the
level reached, with RESULT 4 at the self-test and 5 elsewhere (R445; that the failing slice is not reported is the model's choice:
assumption log 137). R451, R452: generating, destroying and querying a key slot, with the result of each; a generated slot is
keyed when the command completes, a destroyed one is empty when its discard is done. -/
def Obligations.ManagementAndKeys : Prop :=
   (∀ (slot chunk r n b : Nat),
      Happens .mgmtAttest (fun s => s.manages 1 b)
        (fun s => (s.freeDrawn 4627).answers (0, 4835) fun t => t.bufWrite b 0x100
          (s.report (s.bufRead b 0 32) ++ (List.range 4627).map fun i => Config.freeByte (s.freeN + i))) ∧
      Happens .mgmtReadCert (fun s => s.manages 2 b)
        (fun s => s.answers (0, min Config.certLen 8192) fun t => t.bufWrite b 0 ((List.range (min Config.certLen 8192)).map Config.certByte)) ∧
      Happens .mgmtRaiseSvn (fun s => s.manages 3 b)
        (fun s => s.answers (0, 0) fun t => t.modMgmt fun m => { m with fusedSvn := max m.fusedSvn m.imgSvn }) ∧
      Happens (.mgmtWriteFlash slot chunk) (fun s => slot < 2 ∧ chunk < 65536 ∧ s.manages (6 + 16 * slot + 65536 * chunk) b)
        (fun s => s.answers (0, 0) fun t => t.modMgmt fun m =>
          { m with flash := lmod m.flash slot fun x => x.write (4096 * chunk) (s.bufRead b 0 4096) }) ∧
      Happens .mgmtWarmStart (fun s => s.mgmt.busy = false ∧ s.mgmt.running = true ∧ (s.mgmt.level ≠ 0 ∨ s.mgmt.buf = 0))
        (fun s => (s.modMgmt fun m => { m with cmd := 4 }).warmStartModule) ∧
      Happens .mgmtColdStart (fun s => s.mgmt.busy = false ∧ (s.mgmt.level ≠ 0 ∨ s.mgmt.buf = 0))
        (fun s => (s.modMgmt fun m => { m with cmd := 5 }).coldStart true) ∧
      Happens .mgmtCommandComplete (fun s => s.mgmt.busy = true ∧ s.mgmt.out = some (r, n))
        (fun s => s.modMgmt fun m => { m with busy := false, result := r, length := n, out := none }) ∧
      Happens .mgmtWarmStart (fun s => s.mgmt.busy = false ∧ s.mgmt.running = true ∧ s.mgmt.level = 0 ∧ s.mgmt.buf ≠ 0)
        (fun s => s.modMgmt fun m => { m with result := 3, length := 0 })) ∧
   (∀ (k : Nat),
      Happens (.startStepComplete true) (fun s => s.mgmt.starting = some ⟨false, 0⟩)
        (fun s => s.modMgmt fun m =>
          { m with serial := Config.serial % 2 ^ 64, step := 1, level := 0, starting := some ⟨false, 1⟩ }) ∧
      Happens (.startStepComplete true)
        (fun s => s.mgmt.starting = some ⟨false, 1⟩ ∧ k < 2 ∧ imgGood (s.mgmt.flash.getD k []) s.mgmt.fusedSvn = true ∧
          (k = 1 → imgGood (s.mgmt.flash.getD 0 []) s.mgmt.fusedSvn = false))
        (fun s => s.modMgmt fun m =>
          { m with
            img := k, step := 2, starting := some ⟨false, 2⟩, imgSvn := imgSvnOf (s.mgmt.flash.getD k [])
            imgDigest := sha3 ((s.mgmt.flash.getD k []).read 0 (0x1400 + imgBody (s.mgmt.flash.getD k []))) }) ∧
      Happens (.startStepComplete true)
        (fun s => s.mgmt.starting = some ⟨false, 1⟩ ∧ ∀ j < 2, imgGood (s.mgmt.flash.getD j []) s.mgmt.fusedSvn = false)
        (fun s => s.modMgmt fun m => { m with starting := none, busy := m.busy && !m.startCmd }) ∧
      Happens (.startStepComplete true) (fun s => s.mgmt.starting = some ⟨false, k⟩ ∧ 2 ≤ k ∧ k ≤ 4)
        (fun s => s.modMgmt fun m => { m with step := k + 1, starting := some ⟨false, k + 1⟩ }) ∧
      Happens (.startStepComplete true) (fun s => s.mgmt.starting = some ⟨false, 5⟩)
        (fun s => s.keyZero.modMgmt fun m => { m with step := 6, level := 1, starting := some ⟨false, 6⟩ }) ∧
      Happens (.startStepComplete true) (fun s => s.mgmt.starting = some ⟨false, 6⟩)
        (fun s => s.modMgmt fun m => { m with step := 7, level := 2, starting := some ⟨false, 7⟩ }) ∧
      Happens (.startStepComplete true) (fun s => s.mgmt.starting = some ⟨false, 7⟩)
        (fun s => (s.modMgmt fun m => { m with step := 8, level := 3, starting := some ⟨false, 8⟩ }).startEnds 0) ∧
      Happens (.startStepComplete true) (fun s => s.mgmt.starting = some ⟨true, 0⟩)
        (fun s => s.modMgmt fun m => { m with level := 1, starting := some ⟨true, 1⟩ }) ∧
      Happens (.startStepComplete true) (fun s => s.mgmt.starting = some ⟨true, 1⟩)
        (fun s => (s.modMgmt fun m => { m with level := 3 }).startEnds 0) ∧
      Happens (.startStepComplete false) (fun s => s.mgmt.starting = some ⟨false, 7⟩) (fun s => s.startEnds 4) ∧
      Happens (.startStepComplete false)
        (fun s => ∃ x, s.mgmt.starting = some x ∧ (x.warm = true ∨ x.step ≠ 7))
        (fun s => s.startEnds 5) ∧
      (∀ (s : State) (r : Nat), (s.startEnds r).mgmt.starting = none ∧ (s.startEnds r).mgmt.level = s.mgmt.level ∧
        (s.mgmt.startCmd = true → (s.startEnds r).mgmt.busy = false ∧ (s.startEnds r).mgmt.result = r))) ∧
   (∀ (k : Nat),
      Happens (.keyGenerate k) (fun s => k < 1024 ∧ s.keystat.busy = false ∧ s.keyState k = 0)
        (fun s => { s with keystat := ⟨k, 0, true⟩ }) ∧
      Happens (.keyDestroy k) (fun s => 0 < k ∧ k < 1024 ∧ s.keystat.busy = false ∧ s.keyState k = 1)
        (fun s => ({ s.keyResult k 0 with keys := tmod s.keys k fun e => { e with state := 2 } } : State).dropKey k) ∧
      Happens (.keyDestroy k) (fun s => k = 0 ∧ s.keystat.busy = false ∧ s.keyState k = 1) (fun s => s.keyResult 0 4) ∧
      Happens (.keyQuery k) (fun s => k < 1024 ∧ s.keystat.busy = false) (fun s => s.keyResult k 0) ∧
      Happens (.keyGenerateComplete k) (fun s => s.keystat.busy = true ∧ s.keystat.slot = k)
        (fun s => { s with keys := tput s.keys k ⟨1, s.keyGen k + 1⟩, keystat := { s.keystat with busy := false } }) ∧
      Happens (.keyDiscardDone k) (fun s => s.keyState k = 2)
        (fun s => { s.dropKey k with keys := tmod s.keys k fun e => { e with state := 0 } }))
end

