-- ==== Sys2Proof/Laws/Tables.lean ====
section
/-! SUPPORT. The small lemmas of tables: reading back, writing twice, writing elsewhere. -/
namespace Sys2Proof.Machine

@[simp] theorem tget_tput {α : Type} (t : Tbl α) (k : Nat) (v : α) : tget (tput t k v) k = some v := by
  induction t with
  | nil => simp [tput, tget]
  | cons a r ih =>
    obtain ⟨j, u⟩ := a
    unfold tput
    by_cases h : j = k
    · simp [h, tget]
    · by_cases g : k < j
      · simp [h, g, tget]
      · simp [h, g, tget, ih]

theorem tget_tput_ne {α : Type} (t : Tbl α) (k m : Nat) (v : α) (hm : m ≠ k) : tget (tput t k v) m = tget t m := by
  induction t with
  | nil => simp [tput, tget, Ne.symm hm]
  | cons a r ih =>
    obtain ⟨j, u⟩ := a
    unfold tput
    by_cases h : j = k
    · subst h
      simp [tget, Ne.symm hm]
    · by_cases g : k < j
      · simp [h, g, tget, Ne.symm hm]
      · simp only [h, g, if_false, tget]
        rw [ih]

@[simp] theorem tput_tput {α : Type} (t : Tbl α) (k : Nat) (v w : α) : tput (tput t k v) k w = tput t k w := by
  induction t with
  | nil => simp [tput]
  | cons a r ih =>
    obtain ⟨j, u⟩ := a
    by_cases h : j = k
    · subst h
      simp [tput]
    · by_cases g : k < j
      · simp [tput, h, g]
      · simp [tput, h, g, ih]

theorem tmod_eq {α : Type} (t : Tbl α) (k : Nat) (f : α → α) (v : α) (h : tget t k = some v) : tmod t k f = tput t k (f v) := by
  simp [tmod, h]

end Sys2Proof.Machine
end

