-- ==== Sys2Proof/Laws/State.lean ====
section
/-! SUPPORT. One lemma per field and per update of the state that group instructions make: what a replaced group record
leaves as it was, and what the record changes compose to. -/
namespace Sys2Proof.Machine

@[simp] theorem putGroup_power (s : State) (k : Nat) (g : Group) : (s.putGroup k g).power = s.power := rfl
@[simp] theorem putGroup_gt (s : State) (k : Nat) (g : Group) : (s.putGroup k g).gt = s.gt := rfl
@[simp] theorem putGroup_skew (s : State) (k : Nat) (g : Group) : (s.putGroup k g).skew = s.skew := rfl
@[simp] theorem putGroup_issuer (s : State) (k : Nat) (g : Group) : (s.putGroup k g).issuer = s.issuer := rfl
@[simp] theorem putGroup_pkg (s : State) (k : Nat) (g : Group) : (s.putGroup k g).pkg = s.pkg := rfl
@[simp] theorem putGroup_mgmt (s : State) (k : Nat) (g : Group) : (s.putGroup k g).mgmt = s.mgmt := rfl
@[simp] theorem putGroup_dies (s : State) (k : Nat) (g : Group) : (s.putGroup k g).dies = s.dies := rfl
@[simp] theorem putGroup_ctxs (s : State) (k : Nat) (g : Group) : (s.putGroup k g).ctxs = s.ctxs := rfl
@[simp] theorem putGroup_launches (s : State) (k : Nat) (g : Group) : (s.putGroup k g).launches = s.launches := rfl
@[simp] theorem putGroup_teams (s : State) (k : Nat) (g : Group) : (s.putGroup k g).teams = s.teams := rfl
@[simp] theorem putGroup_spans (s : State) (k : Nat) (g : Group) : (s.putGroup k g).spans = s.spans := rfl
@[simp] theorem putGroup_mem (s : State) (k : Nat) (g : Group) : (s.putGroup k g).mem = s.mem := rfl
@[simp] theorem putGroup_work (s : State) (k : Nat) (g : Group) : (s.putGroup k g).work = s.work := rfl
@[simp] theorem putGroup_agenda (s : State) (k : Nat) (g : Group) : (s.putGroup k g).agenda = s.agenda := rfl
@[simp] theorem putGroup_delays (s : State) (k : Nat) (g : Group) : (s.putGroup k g).delays = s.delays := rfl
@[simp] theorem putGroup_drift (s : State) (k : Nat) (g : Group) : (s.putGroup k g).drift = s.drift := rfl
@[simp] theorem putGroup_freeN (s : State) (k : Nat) (g : Group) : (s.putGroup k g).freeN = s.freeN := rfl
@[simp] theorem putGroup_nextId (s : State) (k : Nat) (g : Group) : (s.putGroup k g).nextId = s.nextId := rfl
@[simp] theorem putGroup_regions (s : State) (k : Nat) (g : Group) : (s.putGroup k g).regions = s.regions := rfl
@[simp] theorem putGroup_retire (s : State) (k : Nat) (g : Group) : (s.putGroup k g).retire = s.retire := rfl
@[simp] theorem putGroup_keys (s : State) (k : Nat) (g : Group) : (s.putGroup k g).keys = s.keys := rfl
@[simp] theorem putGroup_keystat (s : State) (k : Nat) (g : Group) : (s.putGroup k g).keystat = s.keystat := rfl
@[simp] theorem putGroup_barchan (s : State) (k : Nat) (g : Group) : (s.putGroup k g).barchan = s.barchan := rfl
@[simp] theorem putGroup_caravans (s : State) (k : Nat) (g : Group) : (s.putGroup k g).caravans = s.caravans := rfl
@[simp] theorem putGroup_ports (s : State) (k : Nat) (g : Group) : (s.putGroup k g).ports = s.ports := rfl
@[simp] theorem putGroup_links (s : State) (k : Nat) (g : Group) : (s.putGroup k g).links = s.links := rfl
@[simp] theorem putGroup_routes (s : State) (k : Nat) (g : Group) : (s.putGroup k g).routes = s.routes := rfl
@[simp] theorem putGroup_runs (s : State) (k : Nat) (g : Group) : (s.putGroup k g).runs = s.runs := rfl
@[simp] theorem putGroup_saved (s : State) (k : Nat) (g : Group) : (s.putGroup k g).saved = s.saved := rfl
@[simp] theorem putGroup_groups (s : State) (k : Nat) (g : Group) : (s.putGroup k g).groups = tput s.groups k g := rfl
@[simp] theorem putGroup_putGroup (s : State) (k : Nat) (g h : Group) : (s.putGroup k g).putGroup k h = s.putGroup k h := by
  simp [State.putGroup]

/-- A changed record of a group that exists is that record put in its place. -/
theorem modGroup_eq (s : State) (k : Nat) (f : Group → Group) (g : Group) (h : tget s.groups k = some g) :
    s.modGroup k f = s.putGroup k (f g) := by
  simp [State.modGroup, State.putGroup, tmod_eq _ _ _ _ h]
@[simp] theorem modGroup_putGroup (s : State) (k : Nat) (f : Group → Group) (g : Group) :
    (s.putGroup k g).modGroup k f = s.putGroup k (f g) := by
  simp [State.modGroup, State.putGroup, tmod, tget_tput]
theorem modRegs_eq (s : State) (k : Nat) (f : Regs → Regs) (g : Group) (h : tget s.groups k = some g) :
    s.modRegs k f = s.putGroup k { g with regs := f g.regs } := by
  simp [State.modRegs, modGroup_eq _ _ _ _ h]
theorem modCtl_eq (s : State) (k : Nat) (f : Ctl → Ctl) (g : Group) (h : tget s.groups k = some g) :
    s.modCtl k f = s.putGroup k { g with ctl := f g.ctl } := by
  simp [State.modCtl, modGroup_eq _ _ _ _ h]
@[simp] theorem modRegs_putGroup (s : State) (k : Nat) (f : Regs → Regs) (g : Group) :
    (s.putGroup k g).modRegs k f = s.putGroup k { g with regs := f g.regs } := by
  simp [State.modRegs]
@[simp] theorem modCtl_putGroup (s : State) (k : Nat) (f : Ctl → Ctl) (g : Group) :
    (s.putGroup k g).modCtl k f = s.putGroup k { g with ctl := f g.ctl } := by
  simp [State.modCtl]

/-- What the records of an issuing group say of the state. -/
theorem gi_spec {s : State} {k : Nat} {i : Instr} {e : GI} (h : s.gi k i = some e) :
    e.gid = k ∧ e.i = i ∧ tget s.groups k = some e.g ∧ tget s.teams e.g.team = some e.team ∧
      tget s.launches e.team.launch = some e.launch := by
  unfold State.gi at h
  split at h
  · cases h
  · rename_i g hg
    split at h
    · cases h
    · rename_i t ht
      split at h
      · cases h
      · rename_i l hl
        cases h
        exact ⟨rfl, rfl, hg, ht, hl⟩
theorem gi_gid {s : State} {k : Nat} {i : Instr} {e : GI} (h : s.gi k i = some e) : e.gid = k := (gi_spec h).1
theorem gi_i {s : State} {k : Nat} {i : Instr} {e : GI} (h : s.gi k i = some e) : e.i = i := (gi_spec h).2.1
theorem gi_group {s : State} {k : Nat} {i : Instr} {e : GI} (h : s.gi k i = some e) : tget s.groups k = some e.g := (gi_spec h).2.2.1

end Sys2Proof.Machine
end

