-- ==== Sys2Proof/Laws/Issue.lean ====
section
/-! SUPPORT. What the issue of an instruction by a group comes to: each outcome of its own work once, for every
instruction. -/
namespace Sys2Proof.Machine

/-- The group's record as the state holds it. -/
theorem Issues.group {s : State} {i : Instr} {e : GI} (h : Issues s i e) : tget s.groups e.gid = some e.g := gi_group h.gi
theorem Issues.instr {s : State} {i : Instr} {e : GI} (h : Issues s i e) : e.i = i := gi_i h.gi
/-- An instruction that issues is the end of its own work. -/
theorem issue_group {s : State} {i : Instr} {e : GI} {f : GI → State → Fx} {p : SI → State → SFx} (h : Issues s i e) :
    s.issue i f p = .next (e.finish s (f e s)) := by
  have h1 := h.hold
  simp [State.issue, h.power, h.turn, State.runGroup, h.gi, h.ready, h1, h.owed, h.check, h.flows]
/-- An instruction that holds the group comes back to its own work. -/
theorem issue_resume {s : State} {i : Instr} {e : GI} {f : GI → State → Fx} {p : SI → State → SFx} (h : Resumes s i e) :
    s.issue i f p = .next (e.finish s (f e s)) := by
  simp [State.issue, h.power, h.turn, State.runGroup, h.gi, h.ready, h.hold]

/-- Control goes on to a position where it can. -/
theorem enter_go {e : GI} {s : State} {g : Group} {p : Pos} (hl : g.ctl.level = e.g.ctl.level) (hp : e.canGo s p = true) :
    e.enter s (s.putGroup e.gid g) p = s.putGroup e.gid (e.at s g p) := by
  unfold GI.enter
  by_cases hk : p.k = 0
  · have hq : (e.fetch s e.g.ctl.level p.h).header = true := by simpa [GI.canGo, hk] using hp
    simp only [hk, ne_eq, not_true_eq_false, if_false, putGroup_groups, tget_tput, Option.isNone_some, hl]
    cases hf : e.fetch s e.g.ctl.level p.h with
    | word w =>
      rw [hf] at hq
      simp only [Fetched.header] at hq
      simp [hq, GI.at]
    | fault st => rw [hf] at hq; cases hq
    | moving => rw [hf] at hq; cases hq
    | trap c => rw [hf] at hq; cases hq
    | phys => rw [hf] at hq; cases hq
  · simp [hk, GI.at]
/-- Control goes on to a position where it can, from any state that has kept the group's level. -/
theorem enter_any {e : GI} {s s1 : State} {g : Group} {p : Pos} (hg : tget s1.groups e.gid = some g)
    (hl : g.ctl.level = e.g.ctl.level) (hp : e.canGo s p = true) : e.enter s s1 p = s1.modGroup e.gid fun x => e.at s x p := by
  unfold GI.enter
  by_cases hk : p.k = 0
  · have hq : (e.fetch s e.g.ctl.level p.h).header = true := by simpa [GI.canGo, hk] using hp
    simp only [hk, ne_eq, not_true_eq_false, if_false, hg, Option.isNone_some, hl]
    cases hf : e.fetch s e.g.ctl.level p.h with
    | word w =>
      rw [hf] at hq
      simp only [Fetched.header] at hq
      simp [hq, GI.at]
    | fault st => rw [hf] at hq; cases hq
    | moving => rw [hf] at hq; cases hq
    | trap c => rw [hf] at hq; cases hq
    | phys => rw [hf] at hq; cases hq
  · simp [hk, GI.at]
/-- The tags of a Short instruction's results go from the group's record. -/
theorem untag_eq (e : GI) (s1 : State) : e.untag s1 = s1.modGroup e.gid e.untagged := rfl
/-- Control goes on to a position where it can, with the tags of the results gone. -/
theorem enter_untagged {e : GI} {s s1 : State} {g : Group} {p : Pos} (hg : tget s1.groups e.gid = some g)
    (hl : g.ctl.level = e.g.ctl.level) (hp : e.canGo s p = true) :
    e.enter s (s1.modGroup e.gid e.untagged) p = s1.modGroup e.gid fun x => e.at s (e.untagged x) p := by
  rw [enter_any (g := e.untagged g) (by rw [modGroup_eq _ _ _ _ hg, putGroup_groups, tget_tput]) (by
    unfold GI.untagged; split <;> exact hl) hp]
  rw [modGroup_eq _ _ _ _ hg, modGroup_putGroup, modGroup_eq _ _ _ _ hg]
/-- An instruction whose work is done goes on one word. -/
theorem finish_goOn {e : GI} {s s1 : State} {g : Group} (hg : tget s1.groups e.gid = some g)
    (hl : g.ctl.level = e.g.ctl.level) (hp : GoesOn s e) : e.finish s (.done s1) = e.goOn s s1 := by
  simp only [GI.finish, untag_eq]
  rw [enter_untagged hg hl hp]
  rfl
/-- An instruction that sends control to a clause header. -/
theorem finish_jumpTo {e : GI} {s s1 : State} {g : Group} {t : Nat} (hg : tget s1.groups e.gid = some g)
    (hl : g.ctl.level = e.g.ctl.level) (hp : e.canGo s ⟨t, 0⟩ = true) : e.finish s (.jump s1 t) = e.jumpTo s s1 t := by
  simp only [GI.finish, untag_eq]
  rw [enter_untagged hg hl hp]
  rfl
/-- A Short instruction whose work is the group's record changed. -/
theorem finish_done {e : GI} {s : State} {g : Group} (hc : e.i.cls ≠ .longA ∧ e.i.cls ≠ .longB)
    (hl : g.ctl.level = e.g.ctl.level) (hp : e.canGo s e.after = true) :
    e.finish s (.done (s.putGroup e.gid g)) =
      s.putGroup e.gid (e.at s { g with tags := g.tags.filter fun t => !(e.i.defs e.mode).contains t.reg } e.after) := by
  simp only [GI.finish, GI.untag, modGroup_putGroup, hc.1, hc.2, or_self, if_false]
  exact enter_go hl hp
/-- A Long instruction whose work is done leaves the group one word on. -/
theorem finish_long {e : GI} {s s1 : State} (hc : e.i.cls = .longA ∨ e.i.cls = .longB) :
    e.finish s (.done s1) = e.enter s (s1.modGroup e.gid fun g => g) e.after := by
  simp [GI.finish, GI.untag, hc]
/-- Control that jumps. -/
theorem finish_jump {e : GI} {s : State} {g : Group} {t : Nat} (hl : g.ctl.level = e.g.ctl.level) (hp : e.canGo s ⟨t, 0⟩ = true) :
    e.finish s (.jump (s.putGroup e.gid g) t) = s.putGroup e.gid (e.at s (e.untagged g) ⟨t, 0⟩) := by
  simp only [GI.finish, untag_eq, modGroup_putGroup]
  exact enter_go (by unfold GI.untagged; split <;> exact hl) hp
/-- An instruction that issues and goes on. -/
theorem issue_goOn {s s1 : State} {i : Instr} {e : GI} {f : GI → State → Fx} {p : SI → State → SFx} {g : Group}
    (h : Issues s i e) (hf : f e s = .done s1) (hg : tget s1.groups e.gid = some g) (hl : g.ctl.level = e.g.ctl.level)
    (hp : GoesOn s e) : s.issue i f p = .next (e.goOn s s1) := by
  rw [issue_group h, hf, finish_goOn hg hl hp]
/-- An instruction that writes registers alone. -/
theorem issue_regs {s : State} {i : Instr} {e : GI} {f : GI → State → Fx} {p : SI → State → SFx} {r : Regs → Regs}
    (h : Issues s i e) (hf : f e s = .done (s.modRegs e.gid r)) (hc : i.cls = .short)
    (hp : e.canGo s e.after = true) : s.issue i f p = .next (s.putGroup e.gid (e.moved s (r e.g.regs))) := by
  rw [issue_group h, hf, modRegs_eq _ _ _ _ h.group]
  have hi := h.instr
  rw [finish_done (g := { e.g with regs := r e.g.regs }) (by rw [hi, hc]; exact ⟨nofun, nofun⟩) rfl hp]
  rfl

/-- An instruction whose own work writes registers alone. -/
theorem writesRegs {i : Instr} {f : GI → State → Fx} {p : SI → State → SFx} {q : State → GI → Regs → Regs}
    (hx : ∀ s, exec i s = s.issue i f p) (hc : i.cls = .short)
    (hf : ∀ e s, f e s = .done (s.modRegs e.gid (q s e))) : WritesRegs i fun s e => q s e e.g.regs := fun s e h hp => by
  rw [hx, issue_regs h (hf e s) hc hp]
  rfl

end Sys2Proof.Machine
end

