-- ==== Sys2Proof/Laws/Groups.lean ====
section
/-! SUPPORT. The shared operations on memory, translation and requests leave every group's record as it was; what starting
an operation makes of the state. -/
namespace Sys2Proof.Machine

theorem raiseLs_groups (s : State) (ln e : Nat) : (s.raiseLs ln e).groups = s.groups := by
  unfold State.raiseLs; split <;> rfl
theorem grant_groups (s : State) (ln : Nat) (r : Bool) : (s.grant ln r).2.groups = s.groups := by
  unfold State.grant
  simp only
  split
  · rfl
  · exact raiseLs_groups _ _ _
theorem devLine_groups (s : State) (pa key : Nat) (d : List Byte) : (s.devLine pa key d).2.groups = s.groups := rfl
theorem devLineFor_groups (s : State) (die c va : Nat) (h : Hint) (pa key : Nat) (d : List Byte) :
    (s.devLineFor die c va h pa key d).2.groups = s.groups := rfl
theorem devStoreFor_groups (s : State) (die c va : Nat) (h : Hint) (pa key : Nat) (d : List Byte) :
    (s.devStoreFor die c va h pa key d).2.groups = s.groups := by
  unfold State.devStoreFor
  split
  · generalize linePieces pa d = l
    suffices h : ∀ (l : List (Nat × List Byte)) (a : Nat × State), (l.foldl (fun acc p =>
        if acc.2.homeUp (p.1 / 128) then (max acc.1 (acc.2.devLineFor die c (va + p.1 - pa) h p.1 key p.2).1,
          (acc.2.devLineFor die c (va + p.1 - pa) h p.1 key p.2).2) else acc) a).2.groups
        = a.2.groups from h l (0, s)
    intro l
    induction l with
    | nil => intro a; rfl
    | cons p r ih =>
      intro a
      rw [List.foldl_cons, ih]
      split
      · exact devLineFor_groups _ _ _ _ _ _ _ _
      · rfl
  · rfl
  · rfl
  · rfl
theorem devStore_groups (s : State) (pa key : Nat) (d : List Byte) : (s.devStore pa key d).2.groups = s.groups :=
  devStoreFor_groups _ _ _ _ _ _ _ _
theorem taken_groups (s : State) (pa : Nat) : (s.taken pa).2.groups = s.groups := by
  unfold State.taken State.peerTakes
  split
  · rfl
  · rfl
theorem countFrame_groups (s : State) (f : Nat) : (s.countFrame f).groups = s.groups := by
  unfold State.countFrame
  simp only
  split
  · rfl
  · exact devStore_groups _ _ _ _
theorem countRead_groups (s : State) (ln : Nat) : (s.countRead ln).groups = s.groups := by
  unfold State.countRead
  repeat' split
  all_goals first | rfl | (simp only; split <;> first | rfl | exact countFrame_groups _ _)
/-! ### Lines at their homes -/

theorem writeBack_groups (s : State) (ln : Nat) (hl : HomeLine) : (s.writeBack ln hl).groups = s.groups := rfl
theorem dropHome_groups (s : State) (ln : Nat) : (s.dropHome ln).groups = s.groups := by
  unfold State.dropHome
  split
  · rfl
  · dsimp only
    split
    · exact raiseLs_groups _ _ _
    · exact raiseLs_groups _ _ _
/-- A line's allocation in an MSC leaves every group's record as it was. -/
theorem mscAlloc_groups (s : State) (ln : Nat) (h : Hint) : (s.mscAlloc ln h).groups = s.groups := by
  unfold State.mscAlloc
  repeat' split
  all_goals first | rfl | (dsimp only [State.addWay]; repeat' split)
  all_goals first | rfl | exact writeBack_groups _ _ _ | exact dropHome_groups _ _
/-- A line that leaves an L2 slice leaves every group's record as it was. -/
theorem l2Evict_groups (s : State) (d ln : Nat) : (s.l2Evict d ln).groups = s.groups := by
  unfold State.l2Evict
  dsimp only
  repeat' split
  all_goals first | rfl | exact mscAlloc_groups _ _ _ | exact dropHome_groups _ _
theorem makeRoom_groups (s : State) (d : Nat) (st : Nat × Nat) : (s.makeRoom d st).groups = s.groups := by
  unfold State.makeRoom
  dsimp only
  repeat' split
  all_goals first | rfl | exact l2Evict_groups _ _ _
theorem l2Alloc_groups (s : State) (d ln ctx : Nat) (va : Option Nat) (h : Hint) : (s.l2Alloc d ln ctx va h).groups = s.groups := by
  unfold State.l2Alloc
  dsimp only
  repeat' split
  all_goals first | rfl | exact l2Evict_groups _ _ _ | exact makeRoom_groups _ _ _
theorem louvreMiss_groups (s : State) (d ln : Nat) : (s.louvreMiss d ln).2.groups = s.groups := rfl
theorem mscMiss_groups (s : State) (ln : Nat) (h : Hint) : (s.mscMiss ln h).2.groups = s.groups := by
  unfold State.mscMiss
  repeat' split
  all_goals rfl
/-- A line placed at its home leaves every group's record as it was. -/
theorem placeHome_groups (s : State) (ln : Nat) (hl : HomeLine) (ctx : Nat) (va : Option Nat) (h : Hint) :
    (s.placeHome ln hl ctx va h).groups = s.groups := by
  unfold State.placeHome
  dsimp only
  generalize hx : (if h = .na then _ else _ : State) = s2
  have h2 : s2.groups = s.groups := by
    subst hx
    split
    · rfl
    · exact l2Alloc_groups _ _ _ _ _ _
  split
  · exact (mscAlloc_groups _ _ _).trans ((mscMiss_groups _ _ _).trans h2)
  · exact (mscMiss_groups _ _ _).trans h2
theorem leaveHome_groups (s : State) (ln : Nat) : (s.leaveHome ln).groups = s.groups := by
  unfold State.leaveHome
  repeat' split
  all_goals first | rfl | exact dropHome_groups _ _
/-- An access that touches a line at its home leaves every group's record as it was. -/
theorem touchAt_groups (s : State) (ln ctx : Nat) (va : Option Nat) (h : Hint) : (s.touchAt ln ctx va h).groups = s.groups := by
  unfold State.touchAt
  split
  · exact leaveHome_groups _ _
  · exact l2Alloc_groups _ _ _ _ _ _
/-- A line brought to its home for a device leaves every group's record as it was. -/
theorem bring_groups {s t : State} {ln key ctx : Nat} {va : Option Nat} {h : Hint} (hb : s.bring ln key ctx va h = some t) :
    t.groups = s.groups := by
  unfold State.bring at hb
  split at hb
  · cases hb; rfl
  · split at hb
    · cases hb
    · cases hb
      exact (placeHome_groups _ _ _ _ _ _).trans (countRead_groups _ _)
theorem readEntry_groups (s : State) (die asid pa key : Nat) : (s.readEntry die asid pa key).2.groups = s.groups := by
  unfold State.readEntry
  split
  · rfl
  · split
    · rfl
    · dsimp only
      split
      · rfl
      · split
        · rfl
        · rename_i s0 hb
          have h1 : ((s0.grant (pa / 128) false).2.touchAt (pa / 128) noCtx none .normal).groups = s.groups :=
            (touchAt_groups _ _ _ _ _).trans ((grant_groups _ _ _).trans (bring_groups hb))
          repeat' split
          all_goals exact h1
    all_goals rfl

theorem walkFrom_groups (n : Nat) (s : State) (die asid t va key : Nat) (x : Option Nat) :
    (State.walkFrom n s die asid t va key x).2.groups = s.groups := by
  induction n generalizing s t x with
  | zero => rfl
  | succ n ih =>
    have h := readEntry_groups s die asid (t + 8 * vaIx va n) key
    unfold State.walkFrom
    simp only
    split
    · rename_i s1 e
      rw [e] at h
      exact h
    · rename_i s1 e
      rw [e] at h
      exact h
    · rename_i s1 e
      rw [e] at h
      simp only at h
      repeat' split
      all_goals first | exact h | exact (ih _ _ _).trans h
theorem walk_groups (s : State) (t d x va : Nat) : (s.walk t d x va).2.groups = s.groups := by
  unfold State.walk
  split
  · rfl
  · rename_i y hy
    have h := walkFrom_groups 4 s d y.asid y.root va y.key (some farFuture)
    split
    · rename_i e
      rw [e] at h
      simp only
      split <;> exact h
    · exact h
theorem leafFor_groups (s : State) (c d x va : Nat) : (s.leafFor c d x va).2.groups = s.groups := by
  unfold State.leafFor
  split
  · rfl
  · split
    · rfl
    · rfl
    · exact walk_groups _ _ _ _ _
/-- A translation leaves every group's record as it was. -/
theorem translate_groups (s : State) (c d x va : Nat) (w : Want) : (s.translate c d x va w).2.groups = s.groups := by
  have h := leafFor_groups s c d x va
  unfold State.translate
  split <;> rename_i e <;> rw [e] at h
  · split <;> exact h
  all_goals exact h
/-- A write of a device agent leaves every group's record as it was. -/
theorem devWrite_groups (s : State) (d c va : Nat) (b : List Byte) : (s.devWrite d c va b).2.groups = s.groups := by
  have h := translate_groups s (engineCluster d) d c va ⟨true, false, false⟩
  unfold State.devWrite State.writeAs
  split <;> rename_i e <;> rw [e] at h
  · split
    · exact h
    · split
      · exact h
      · split
        · exact h
        · simp only
          split
          · exact (taken_groups _ _).trans h
          · exact (devStoreFor_groups _ _ _ _ _ _ _ _).trans ((taken_groups _ _).trans h)
  all_goals exact h
theorem msi_groups (s : State) (w : Nat) (n : Nat) : (s.msi w n).groups = s.groups := by
  unfold State.msi
  simp only
  try split
  all_goals rfl
/-- A log record, written or left to wait, leaves every group's record as it was. -/
theorem logTry_groups (s : State) (c : Nat) (ws : List Nat) : (s.logTry c ws).2.groups = s.groups := by
  unfold State.logTry
  split
  · rfl
  · split
    · exact devStore_groups _ _ _ _
    · rename_i x _ _
      have h1 := devWrite_groups s 0 c (x.logBase + 32 * (x.logHead % 2 ^ x.logLog)) (ws.flatMap (toBytes 8))
      dsimp only
      repeat' split
      all_goals first
        | exact h1
        | exact (msi_groups _ _ _).trans ((devStore_groups _ _ _ _).trans h1)
        | exact (devStore_groups _ _ _ _).trans h1
theorem logRecord_groups (s : State) (c w0 w1 w2 w3 : Nat) : (s.logRecord c w0 w1 w2 w3).groups = s.groups := by
  have h := logTry_groups s c [w0, w1, w2, w3]
  unfold State.logRecord
  dsimp only
  split
  · rfl
  · split <;> rename_i e <;> rw [e] at h <;> exact h
/-- Arithmetic exceptions of a group set its sticky bits and leave its record otherwise as it was (R76, R78). -/
theorem arithAt_group {s : State} {gid : Nat} {g : Group} (h : tget s.groups gid = some g) (m : Word) (p : Nat) (x : Exc) (l : Mask) (w : Nat) :
    tget (s.arithAt gid m p x l w).groups gid = some { g with sticky := g.sticky ||| x } := by
  unfold State.arithAt
  split
  · rename_i hx
    rw [h, hx]
    congr
    simp
  · simp only
    split
    · split
      · rw [logRecord_groups, modGroup_eq _ _ _ _ h, putGroup_groups, tget_tput]
      · rw [modGroup_eq _ _ _ _ h, putGroup_groups, tget_tput]
    · rw [modGroup_eq _ _ _ _ h, putGroup_groups, tget_tput]
/-- A Short instruction's exceptions join those of its group that are still to take effect, and leave its record otherwise
as it was (R77). -/
theorem raised_group {s : State} {e : GI} {g : Group} (h : tget s.groups e.gid = some g) (x : Exc) (l : Mask) :
    tget (s.raised e x l).groups e.gid = some { g with late := g.late ++
      if x = 0 then [] else [⟨e.dueAt s, x, l, e.g.ctl.pos.h, e.mode, e.i.defs e.mode⟩] } := by
  unfold State.raised
  split
  · simpa using h
  · rw [modGroup_eq _ _ _ _ h, putGroup_groups, tget_tput]
theorem transLanes_groups (s : State) (c d x : Nat) (w : Want) (nr : Bool) (l : List LaneAcc) :
    (s.transLanes c d x w nr l).2.groups = s.groups := by
  induction l generalizing s with
  | nil => rfl
  | cons a r ih =>
    unfold State.transLanes
    simp only
    rw [ih]
    split
    · rfl
    · have h := translate_groups s c d x (vaOf a.addr) w
      split <;> rename_i e <;> rw [e] at h <;> exact h
theorem checkLanes_groups (s : State) (c d x : Nat) (w : Want) (nr tags : Bool) (z : Nat) (l : List LaneAcc) :
    (s.checkLanes c d x w nr tags z l).2.groups = s.groups := by
  have h := transLanes_groups s c d x w nr l
  unfold State.checkLanes
  simp only
  split
  · exact h
  · split
    · exact h
    · split <;> exact h
theorem planTranslate_groups (p : Plan) (s : State) (c d x : Nat) (u : Bool) : (p.translate s c d x u).2.groups = s.groups := by
  unfold Plan.translate
  split
  · exact checkLanes_groups _ _ _ _ _ _ _ _ _
  · rfl
/-- The checks of an access leave every group's record as it was. -/
theorem check_groups (p : Plan) (s : State) (c d x : Nat) (u : Bool) : (p.check s c d x u).2.groups = s.groups := by
  unfold Plan.check
  split
  · rfl
  · split
    · split
      · rfl
      · simp only
        split <;> rename_i e
        · split <;> simpa [e] using congrArg State.groups (congrArg Prod.snd e).symm ▸ planTranslate_groups _ s c d x u
        · exact congrArg State.groups (congrArg Prod.snd e).symm ▸ planTranslate_groups _ s c d x u
    · exact planTranslate_groups _ _ _ _ _ _
/-- Requests put into flight leave every group's record as it was. -/
theorem sendPieces_groups (s : State) (p : Plan) (g o k d c l : Nat) (ts : List (Piece × Trans)) :
    (s.sendPieces p g o k d c l ts).groups = s.groups := by
  unfold State.sendPieces
  induction ts generalizing s with
  | nil => rfl
  | cons t r ih =>
    rw [List.foldl_cons, ih]
    simp only
    split <;> rfl

/-- The group of an issuing instruction after an operation is started: its flag has risen, and the registers that the
operation writes carry its tag (R107, R109). -/
theorem startOp_group {e : GI} {s : State} {f : Op → Op} {g : Group} (h : tget s.groups e.gid = some g) :
    tget (e.startOp s f).2.groups e.gid = some (e.started s g) := by
  have h1 : (e.startOp s f).2.groups = tmod s.groups e.gid fun g => e.started s g := rfl
  rw [h1, tmod_eq _ _ _ _ h, tget_tput]

/-- A Short instruction that rounds leaves its group where it was, at its level. -/
theorem rounded_group {e : GI} {s : State} (h : tget s.groups e.gid = some e.g) (sr : Bool) (w n : Nat)
    (put : Regs → (Nat → Nat) → Regs) (g : Nat → Nat → Nat → Nat × Exc) :
    ∃ g1, tget (e.rounded s sr w n put g).groups e.gid = some g1 ∧ g1.ctl.level = e.g.ctl.level := by
  unfold GI.rounded
  simp only [modGroup_eq _ _ _ _ h]
  refine ⟨_, raised_group (tget_tput _ _ _) _ _, ?_⟩
  rfl
/-- A conversion likewise. -/
theorem converted_group {e : GI} {s : State} (h : tget s.groups e.gid = some e.g) (d a k : Nat) (t : EType) (v : FEnv) :
    ∃ g1, tget (e.converted s d a k t v).groups e.gid = some g1 ∧ g1.ctl.level = e.g.ctl.level := by
  unfold GI.converted
  exact rounded_group h _ _ _ _ _
/-- A Long B float instruction likewise. -/
theorem longElems_group {e : GI} {s : State} (h : tget s.groups e.gid = some e.g) (d : Nat) (sr : Bool) (w n : Nat)
    (g : Nat → Nat → Nat → Nat × Exc) :
    ∃ g1, tget (e.longElems s d sr w n g).groups e.gid = some g1 ∧ g1.ctl.level = e.g.ctl.level := by
  unfold GI.longElems
  simp only [modGroup_eq _ _ _ _ h]
  exact ⟨_, startOp_group (tget_tput _ _ _), by cases sr <;> rfl⟩
/-- A reduction or scan likewise. -/
theorem reduced_group {e : GI} {s : State} (h : tget s.groups e.gid = some e.g) (o : RedOp) (d : Nat) (out : Nat → RedVal) :
    ∃ g1, tget (e.reduced s o d out).groups e.gid = some g1 ∧ g1.ctl.level = e.g.ctl.level := by
  unfold GI.reduced
  simp only [modRegs_eq _ _ _ _ h]
  refine ⟨_, raised_group (tget_tput _ _ _) _ _, ?_⟩
  rfl

end Sys2Proof.Machine
end

