-- ==== Sys2Proof/Laws/Access.lean ====
section
/-! SUPPORT. The access of a group, said once for each way it can go on: requests sent, or deferred to its operation. -/
namespace Sys2Proof.Machine

/-- The checks of an access leave every group's record as it was. -/
theorem checked_groups {e : GI} {s s1 : State} {p : Plan} {r : PlanRes} (h : e.checked s p = (r, s1)) : s1.groups = s.groups := by
  have h1 := check_groups p s (coreTlb e.g.core) e.die e.ctx (e.g.ctl.level == .u)
  have h2 : p.check s (coreTlb e.g.core) e.die e.ctx (e.g.ctl.level == .u) = (r, s1) := h
  rw [h2] at h1
  exact h1
/-- The lanes that take part are those of its kind where no reissue after a DIEOFF narrows them (R374). -/
theorem redo_none {e : GI} (h : e.g.redo = none) (m : Mask) : e.redo m = m := by
  unfold GI.redo
  rw [h]
/-- An access whose checks pass sends its requests. -/
theorem access_go {s s1 : State} {e : GI} {p : Plan} {ts : List (Piece × Trans)} {sp : List Nat}
    (hp : e.plan e.takePart = some p) (hn : (p.at_ == .loc) = false) (ht : (p.tags && s.tagsPending e.gid s.nextId) = false)
    (hc : e.checked s p = (.go ts sp, s1)) : e.access s = .done (e.sent p e.takePart ts sp s1) := by
  have h2 : p.check s (coreTlb e.g.core) e.die e.ctx (e.g.ctl.level == .u) = (.go ts sp, s1) := hc
  simp only [GI.access, hp, h2, hn, ht, Bool.false_eq_true, if_false]
  rfl
/-- An access whose checks pass and that its operation makes. -/
theorem access_deferred {s s1 : State} {e : GI} {p : Plan} {ts : List (Piece × Trans)} {sp : List Nat}
    (hp : e.plan e.takePart = some p) (hn : (p.at_ == .loc) = true) (ht : (p.tags && s.tagsPending e.gid s.nextId) = false)
    (hc : e.checked s p = (.go ts sp, s1)) : e.access s = .done (e.deferred e.takePart sp s1) := by
  have h2 : p.check s (coreTlb e.g.core) e.die e.ctx (e.g.ctl.level == .u) = (.go ts sp, s1) := hc
  simp only [GI.access, hp, h2, hn, ht, if_true, Bool.false_eq_true, if_false]
  rfl
/-- The group of an access that has set out. -/
theorem sent_group {e : GI} {s1 : State} (h : tget s1.groups e.gid = some e.g) (p : Plan) (m : Mask) (ts : List (Piece × Trans))
    (sp : List Nat) : ∃ g, tget (e.sent p m ts sp s1).groups e.gid = some g ∧ g.ctl.level = e.g.ctl.level := by
  have h1 : tget ((e.startOp s1 (e.memOp m .reqs sp)).2.sendPieces p e.gid s1.nextId e.g.core e.die e.ctx e.team.launch ts).groups
      e.gid = some (e.started s1 e.g) := by
    rw [sendPieces_groups]
    exact startOp_group h
  unfold GI.sent GI.clearRedo
  rw [modGroup_eq _ _ _ _ h1]
  refine ⟨_, tget_tput _ _ _, ?_⟩
  rfl
/-- The group of an access that its operation makes. -/
theorem deferred_group {e : GI} {s1 : State} (h : tget s1.groups e.gid = some e.g) (m : Mask) (sp : List Nat) :
    ∃ g, tget (e.deferred m sp s1).groups e.gid = some g ∧ g.ctl.level = e.g.ctl.level := by
  have h1 : tget (e.startOp s1 (e.memOp m .ready sp)).2.groups e.gid = some (e.started s1 e.g) := startOp_group h
  unfold GI.deferred GI.clearRedo
  rw [modGroup_eq _ _ _ _ h1]
  refine ⟨_, tget_tput _ _ _, ?_⟩
  rfl
/-- An instruction that accesses memory, from what its plan is. -/
theorem accesses_of {i : Instr} {m : GI → Mask} {p : GI → Plan} (q : SI → State → SFx)
    (hx : ∀ s, exec i s = s.issue i GI.access q)
    (hm : ∀ e, e.i = i → e.g.redo = none → e.takePart = m e)
    (hp : ∀ e, e.i = i → e.plan (m e) = some (p e))
    (hn : ∀ e, ((p e).at_ == .loc) = false) : Accesses i m p := by
  rintro ts sp s1 s e h ⟨h1, h0, h2, h3⟩
  have hi := h.instr
  have hg : tget s1.groups e.gid = some e.g := by rw [checked_groups h3]; exact h.group
  obtain ⟨g, k1, k2⟩ := sent_group hg (p e) (m e) ts sp
  rw [hx]
  refine issue_goOn h ?_ k1 k2 h1
  rw [access_go (by rw [hm e hi h2]; exact hp e hi) (hn e) h0 h3, hm e hi h2]
/-- An instruction whose operation makes its access, likewise. -/
theorem defers_of {i : Instr} {m : GI → Mask} {p : GI → Plan} (q : SI → State → SFx)
    (hx : ∀ s, exec i s = s.issue i GI.access q)
    (hm : ∀ e, e.i = i → e.g.redo = none → e.takePart = m e)
    (hp : ∀ e, e.i = i → e.plan (m e) = some (p e))
    (hn : ∀ e, ((p e).at_ == .loc) = true) : Defers i m p := by
  rintro ts sp s1 s e h ⟨h1, h0, h2, h3⟩
  have hi := h.instr
  have hg : tget s1.groups e.gid = some e.g := by rw [checked_groups h3]; exact h.group
  obtain ⟨g, k1, k2⟩ := deferred_group hg (m e) sp
  rw [hx]
  refine issue_goOn h ?_ k1 k2 h1
  rw [access_deferred (by rw [hm e hi h2]; exact hp e hi) (hn e) h0 h3, hm e hi h2]

end Sys2Proof.Machine
end

