-- ==== Sys2Proof/Laws/Traps.lean ====
section
/-! SUPPORT. Taking a trap: the one shared operation said once, for a trap to level S from level U. -/
namespace Sys2Proof.Machine

/-- The records of an issuing group, as no instruction in particular. -/
theorem gi_nop {s : State} {e : GI} {i : Instr} (h : s.gi e.gid i = some e) : s.gi e.gid .nop = some { e with i := .nop } := by
  obtain ⟨_, _, k3, k4, k5⟩ := gi_spec h
  unfold State.gi
  simp [k3, k4, k5]
/-- The records of a group whose trap has been raised. -/
theorem withTrap_gi {s : State} {e : GI} {i : Instr} {t : TrapRec} (h : s.gi e.gid i = some e) :
    (e.withTrap s t).gi e.gid .nop = some { e with g := { e.g with ctl := { e.g.ctl with trap := some t, hold := none, holdArg := [] } }, i := .nop } := by
  obtain ⟨_, _, _, h4, h5⟩ := gi_spec h
  unfold State.gi GI.withTrap
  simp [h4, h5]
/-- A trap to level S that can be taken is taken: the bank is written, and the group stands at its handler (R370 to R373). -/
theorem raise_takes {s : State} {e : GI} {i : Instr} {t : TrapRec} (h : s.gi e.gid i = some e) (hm : t.toM = false)
    (hc : t.cause ≠ .physrange) (ht : TakesTrap s e t) : s.raise e.gid t = e.trapTaken s t := by
  obtain ⟨h1, h2, h6, h3⟩ := ht
  obtain ⟨_, _, k3, _, _⟩ := gi_spec h
  have hw : (s.modCtl e.gid fun c => { c with trap := some t, hold := none, holdArg := [] }) = e.withTrap s t := by
    rw [modCtl_eq _ _ _ _ k3]; rfl
  unfold State.raise
  simp only [gi_nop h, hc, if_false, h1, true_or, if_true, hw]
  unfold State.enterTrap
  rw [withTrap_gi h]
  have hf : Group.quiet { e.g with ctl := { e.g.ctl with trap := some t, hold := none, holdArg := [] } } = true := h2
  dsimp only at hf ⊢
  rw [if_neg (by rw [hf, h6]; decide)]
  simp only [hm, Bool.false_eq_true, if_false, false_and]
  unfold GI.handlerOk at h3
  simp only [GI.ctx] at *
  cases hx : tget (e.withTrap s t).ctxs e.launch.ctx with
  | none => rw [hx] at h3; cases h3
  | some c =>
    rw [hx] at h3
    have hx2 : tget s.ctxs e.launch.ctx = some c := hx
    have h4 : (GI.fetch { e with g := { e.g with ctl := { e.g.ctl with trap := some t, hold := none, holdArg := [] } }, i := .nop } (e.withTrap s t) .s c.svec) =
      e.fetch (e.withTrap s t) .s c.svec := rfl
    have h5 : (e.fetch (e.withTrap s t) .s c.svec).header = true := h3
    dsimp only at h4 ⊢
    rw [h4]
    cases hq : e.fetch (e.withTrap s t) .s c.svec with
    | word w =>
      rw [hq] at h5
      simp only [Fetched.header] at h5
      simp only [h5, if_true]
      unfold GI.trapTaken GI.withTrap GI.svec
      rw [modGroup_putGroup]
      simp only [GI.ctx, hx2]
      congr 1
      simp [GI.entered, hm, GI.bankFor, h1]
    | fault st => rw [hq] at h5; cases h5
    | moving => rw [hq] at h5; cases h5
    | phys => rw [hq] at h5; cases h5
    | trap c => rw [hq] at h5; cases h5

end Sys2Proof.Machine
end

