-- ==== Sys2Proof/Laws/Exec.lean ====
section
/-! SUPPORT. What the execution of an instruction with words comes to, whichever it is: the common issue with work of its
own. -/
namespace Sys2Proof.Machine

/-- Every instruction that has words goes through the common issue (R105 to R111). -/
theorem exec_issue (i : Instr) (h : encode i ≠ []) : ∃ f p, ∀ s, exec i s = s.issue i f p := by
  cases i
  all_goals first
    | exact ⟨_, _, fun _ => rfl⟩
    | exact absurd rfl h

end Sys2Proof.Machine
end

