-- ==== Sys2Proof/Laws/Memory.lean ====
section
/-! SUPPORT. Memories: the canonical form that every operation keeps, and reading back what was written. -/
namespace Sys2Proof.Machine

/-- Every listed address of a memory lies at or above a bound. -/
def Memory.above (n : Nat) (m : Memory) : Bool := m.all fun c => decide (n ≤ c.1)

theorem Memory.above_mono {a b : Nat} {m : Memory} (h : a ≤ b) (hm : m.above b = true) : m.above a = true := by
  simp only [Memory.above, List.all_eq_true, decide_eq_true_eq] at *
  exact fun c hc => Nat.le_trans h (hm c hc)
/-- The canonical form, one entry at a time. -/
theorem Memory.wf_cons {c : Host.Cell} {r : Memory} :
    Memory.wf (c :: r) = true ↔ c.2 ≠ Memory.unlisted ∧ Memory.above (c.1 + 1) r = true ∧ Memory.wf r = true := by
  induction r generalizing c with
  | nil => simp [Memory.wf, Memory.above]
  | cons d r ih =>
    have h : Memory.wf (c :: d :: r) = true ↔ c.2 ≠ Memory.unlisted ∧ c.1 < d.1 ∧ Memory.wf (d :: r) = true := by
      simp [Memory.wf, and_assoc]
    rw [h, ih]
    have ha : ∀ k, Memory.above k (d :: r) = true ↔ k ≤ d.1 ∧ Memory.above k r = true := by
      intro k
      simp [Memory.above]
    rw [ha]
    constructor
    · rintro ⟨h1, h2, h3, h4, h5⟩
      exact ⟨h1, ⟨by omega, Memory.above_mono (by omega) h4⟩, h3, h4, h5⟩
    · rintro ⟨h1, ⟨h2, _⟩, h3, h4, h5⟩
      exact ⟨h1, by omega, h3, h4, h5⟩
theorem Memory.above_put {n a : Nat} {m : Memory} {b : Byte} (h : n ≤ a) (hm : m.above n = true) : (m.put a b).above n = true := by
  induction m with
  | nil => unfold Memory.put; split <;> simp [Memory.above, h]
  | cons c r ih =>
    have h1 : n ≤ c.1 ∧ Memory.above n r = true := by simpa [Memory.above] using hm
    have h2 := ih h1.2
    simp only [Memory.above] at h2 hm
    unfold Memory.put
    split
    · split
      · exact hm
      · simp [Memory.above, h]; simpa [Memory.above] using h1
    · split
      · split
        · exact h1.2
        · simp [Memory.above, h]; simpa [Memory.above] using h1.2
      · simp [Memory.above, h1.1]; simpa using h2
/-- A byte written keeps the canonical form. -/
theorem Memory.wf_put {m : Memory} {a : Nat} {b : Byte} (h : m.wf = true) : (m.put a b).wf = true := by
  induction m with
  | nil => unfold Memory.put; split <;> simp [Memory.wf, *]
  | cons c r ih =>
    obtain ⟨h1, h2, h3⟩ := Memory.wf_cons.1 h
    unfold Memory.put
    split
    · rename_i hlt
      split
      · exact h
      · refine Memory.wf_cons.2 ⟨by assumption, ?_, h⟩
        simp only [Memory.above, List.all_cons, Bool.and_eq_true, decide_eq_true_eq]
        exact ⟨hlt, Memory.above_mono (by omega) h2⟩
    · split
      · rename_i he
        split
        · exact h3
        · exact Memory.wf_cons.2 ⟨by assumption, by simpa [← he] using h2, h3⟩
      · rename_i hlt hne
        exact Memory.wf_cons.2 ⟨h1, Memory.above_put (by omega) h2, ih h3⟩
/-- Bytes written keep the canonical form. -/
theorem Memory.wf_write {m : Memory} {a : Nat} {l : List Byte} (h : m.wf = true) : (m.write a l).wf = true := by
  induction l generalizing m a with
  | nil => exact h
  | cons b r ih => exact ih (Memory.wf_put h)
/-- Bytes cleared keep the canonical form. -/
theorem Memory.wf_clear {m : Memory} {a n : Nat} (h : m.wf = true) : (m.clear a n).wf = true := by
  unfold Memory.clear
  induction m with
  | nil => rfl
  | cons c r ih =>
    obtain ⟨h1, h2, h3⟩ := Memory.wf_cons.1 h
    rw [List.filter_cons]
    split
    · refine Memory.wf_cons.2 ⟨h1, ?_, ih h3⟩
      simp only [Memory.above, List.all_eq_true, List.mem_filter] at *
      exact fun x hx => h2 x hx.1
    · exact ih h3
/-- The memories of the machine at reset are canonical. -/
theorem reset_memories_wf :
    (State.reset.mem.units.wf && State.reset.mem.host.wf && State.reset.mem.msix.wf && State.reset.mgmt.buffer.wf &&
      State.reset.mgmt.flash.all Memory.wf && (State.reset.mem.peers.all fun p => p.2.wf) &&
      (State.reset.mem.scratch.all fun p => p.2.wf) && (State.reset.teams.all fun t => t.2.loc.wf)) = true := by decide

theorem Memory.get_above {m : Memory} {a : Nat} (h : m.above (a + 1) = true) : m.get a = Memory.unlisted := by
  induction m with
  | nil => rfl
  | cons c r ih =>
    have h1 : a + 1 ≤ c.1 ∧ Memory.above (a + 1) r = true := by simpa [Memory.above] using h
    simp [Memory.get, show c.1 ≠ a by omega, ih h1.2]
/-- A byte reads back as it was written. -/
theorem Memory.get_put {m : Memory} {a : Nat} {b : Byte} (h : m.wf = true) : (m.put a b).get a = b := by
  induction m with
  | nil => unfold Memory.put; split <;> simp [Memory.get, *]
  | cons c r ih =>
    obtain ⟨h1, h2, h3⟩ := Memory.wf_cons.1 h
    unfold Memory.put
    split
    · rename_i hlt
      split
      · rename_i hb
        rw [hb]
        refine Memory.get_above ?_
        simp only [Memory.above, List.all_cons, Bool.and_eq_true, decide_eq_true_eq]
        exact ⟨hlt, Memory.above_mono (by omega) h2⟩
      · simp [Memory.get]
    · split
      · rename_i he
        split
        · rename_i hb
          rw [hb, ← he]
          exact Memory.get_above h2
        · simp [Memory.get]
      · rename_i hne
        simp [Memory.get, hne, ih h3]
/-- Every other byte reads as it did. -/
theorem Memory.get_put_ne {m : Memory} {a x : Nat} {b : Byte} (h : m.wf = true) (hx : x ≠ a) : (m.put a b).get x = m.get x := by
  induction m with
  | nil => unfold Memory.put; split <;> simp [Memory.get, Ne.symm hx]
  | cons c r ih =>
    obtain ⟨h1, h2, h3⟩ := Memory.wf_cons.1 h
    unfold Memory.put
    split
    · split
      · rfl
      · simp [Memory.get, Ne.symm hx]
    · split
      · rename_i he
        split
        · simp [Memory.get, show c.1 ≠ x by omega]
        · simp [Memory.get, Ne.symm hx, show c.1 ≠ x by omega]
      · simp only [Memory.get, ih h3]
/-- Bytes outside a write read as they did. -/
theorem Memory.get_write_out {m : Memory} {a x : Nat} {l : List Byte} (h : m.wf = true) (hx : x < a ∨ a + l.length ≤ x) :
    (m.write a l).get x = m.get x := by
  induction l generalizing m a with
  | nil => rfl
  | cons b r ih =>
    simp only [List.length_cons] at hx
    have e : (m.write a (b :: r)) = (m.put a b).write (a + 1) r := rfl
    rw [e, ih (Memory.wf_put h) (by omega), Memory.get_put_ne h (by omega)]
/-- Bytes written read back. -/
theorem Memory.get_write_in {m : Memory} {a k : Nat} {l : List Byte} (h : m.wf = true) (hk : k < l.length) :
    (m.write a l).get (a + k) = l.getD k 0 := by
  induction l generalizing m a k with
  | nil => simp at hk
  | cons b r ih =>
    have e : (m.write a (b :: r)) = (m.put a b).write (a + 1) r := rfl
    rw [e]
    cases k with
    | zero => rw [Memory.get_write_out (Memory.wf_put h) (by omega)]; simp [Memory.get_put h]
    | succ k =>
      simp only [List.length_cons] at hk
      have := ih (m := m.put a b) (a := a + 1) (k := k) (Memory.wf_put h) (by omega)
      rw [show a + (k + 1) = a + 1 + k by omega, this]
      simp

end Sys2Proof.Machine
end

