-- ==== Sys2Proof/Laws/Spans.lean ====
section
/-! SUPPORT. What the issue of an instruction by a span comes to. -/
namespace Sys2Proof.Machine

/-- A span's issue record is that of the instruction. -/
theorem si_instr {s : State} {n : Nat} {i : Instr} {e : SI} (h : s.si n i = some e) : e.i = i := by
  unfold State.si at h
  split at h
  · cases h
  · split at h
    · cases h
    · cases h; rfl
/-- Where no gated instruction stands under a GUARD that is not constant true, a span's issue ends as its span form says. -/
theorem runSpan_of_issues {s : State} {i : Instr} {e : SI} (h : SpanIssues s i e)
    (hg : i.gated = true → e.x.pf (mGuard e.x.mode) = .const true) (body : SI → State → SFx) :
    s.runSpan i e.sid body = e.finish s (body e s) := by
  unfold State.runSpan
  rw [h.si]
  cases hi : i.gated
  · simp [h.ready, h.clean]
  · simp [h.ready, h.clean, hg hi]
theorem issue_of_spanIssues {s : State} {i : Instr} {e : SI} (h : SpanIssues s i e)
    (hg : i.gated = true → e.x.pf (mGuard e.x.mode) = .const true) (grp : GI → State → Fx) (spn : SI → State → SFx) :
    s.issue i grp spn = .next (e.finish s (spn e s)) := by
  unfold State.issue
  rw [h.power, h.turn]
  simp [runSpan_of_issues h hg]
/-- A GUARD that is constant false: a span's gated instruction writes nothing where its span form would go on. -/
theorem issue_of_guard_false {s : State} {i : Instr} {e : SI} {x : Span} (h : SpanIssues s i e) (hi : i.gated = true)
    (hg : e.x.pf (mGuard e.x.mode) = .const false) (grp : GI → State → Fx) (spn : SI → State → SFx)
    (hb : spn e s = .done x) : s.issue i grp spn = .next (e.finish s (.done e.x)) := by
  unfold State.issue State.runSpan
  rw [h.power, h.turn]
  simp [h.si, h.ready, h.clean, hi, hg, hb]
/-- A GUARD that is not constant: a span's gated instruction materialises it (R28). -/
theorem issue_of_guard_conj {s : State} {i : Instr} {e : SI} {l : List Half} (h : SpanIssues s i e) (hi : i.gated = true)
    (hg : e.x.pf (mGuard e.x.mode) = .conj l) (grp : GI → State → Fx) (spn : SI → State → SFx) :
    s.issue i grp spn = .next (e.mat s e.x.pos) := by
  unfold State.issue State.runSpan
  rw [h.power, h.turn]
  simp [h.si, h.ready, h.clean, hi, hg]
/-- An instruction whose span form asks for it materialises the span, whatever its GUARD. -/
theorem issue_of_mat {s : State} {i : Instr} {e : SI} (h : SpanIssues s i e) (grp : GI → State → Fx) (spn : SI → State → SFx)
    (hb : spn e s = .mat) : s.issue i grp spn = .next (e.mat s e.x.pos) := by
  unfold State.issue State.runSpan
  rw [h.power, h.turn]
  simp only [h.si, h.ready, h.clean]
  cases i.gated <;> cases e.x.pf (mGuard e.x.mode) with
  | const b => cases b <;> simp [hb, SI.finish]
  | conj l => simp [hb, SI.finish]
/-- An instruction without a span form materialises the span, whatever its GUARD. -/
theorem issue_of_matSpan {s : State} {i : Instr} {e : SI} (h : SpanIssues s i e) (grp : GI → State → Fx) :
    s.issue i grp matSpan = .next (e.mat s e.x.pos) := issue_of_mat h grp matSpan rfl
/-- Control goes where the span may go. -/
theorem span_enter {s s1 : State} {e : SI} {x : Span} {p : Pos} (h : e.canGo s p = true) :
    e.enter s s1 x p = e.goesTo s1 x p := by
  unfold SI.enter SI.goesTo
  by_cases hk : p.k = 0
  · simp only [SI.canGo, SI.header, hk] at h
    revert h
    cases hf : e.fetch s p.h <;> simp_all
  · have hb : (p.k != 0) = true := by simpa using hk
    simp [hk, hb]
theorem span_finish_done {s : State} {e : SI} (x : Span) (h : e.canGo s e.after = true) :
    e.finish s (.done x) = e.goesTo s x e.after := span_enter h
theorem span_finish_doneS {s s1 : State} {e : SI} (x : Span) (h : e.canGo s e.after = true) :
    e.finish s (.doneS s1 x) = e.goesTo s1 x e.after := span_enter h
theorem span_finish_jump {s : State} {e : SI} (x : Span) (a : Nat) (h : e.canGo s ⟨a, 0⟩ = true) :
    e.finish s (.jump x a) = e.goesTo s x ⟨a, 0⟩ := span_enter h
/-- Materialisation takes place where the span's flags are clear. -/
theorem span_mat {s : State} {e : SI} :
    e.finish s .mat = if (e.x.flags.all fun n => n == 0) = true then s.materialise e.sid e.x.pos else s := rfl

end Sys2Proof.Machine
end

