-- ==== Sys2Proof/Laws/Units.lean ====
section
/-! SUPPORT. Instructions that wait and commands to units: what resuming comes to, and that queueing a command, an arrival at a
barrier, or a write of a control register leaves the issuing group at its level. -/
namespace Sys2Proof.Machine

/-- A group's record is there, at a level. -/
def State.HasLevel (s : State) (gid : Nat) (l : Level) : Prop := ∃ g, tget s.groups gid = some g ∧ g.ctl.level = l

theorem State.HasLevel.of_groups {s t : State} {gid : Nat} {l : Level} (h : s.HasLevel gid l) (e : t.groups = s.groups) : t.HasLevel gid l := by
  obtain ⟨g, h1, h2⟩ := h
  exact ⟨g, by rw [e]; exact h1, h2⟩
theorem State.HasLevel.mod {s : State} {gid : Nat} {l : Level} (h : s.HasLevel gid l) (f : Group → Group)
    (hf : ∀ g, (f g).ctl.level = g.ctl.level) : (s.modGroup gid f).HasLevel gid l := by
  obtain ⟨g, h1, h2⟩ := h
  rw [modGroup_eq _ _ _ _ h1]
  exact ⟨_, tget_tput _ _ _, (hf g).trans h2⟩
theorem Issues.level {s : State} {i : Instr} {e : GI} (h : Issues s i e) : s.HasLevel e.gid e.g.ctl.level := ⟨e.g, h.group, rfl⟩
theorem Resumes.level {s : State} {i : Instr} {e : GI} (h : Resumes s i e) : s.HasLevel e.gid e.g.ctl.level := ⟨e.g, gi_group h.gi, rfl⟩
theorem tget_tmod_ne {α : Type} (t : List (Nat × α)) (i j : Nat) (f : α → α) (h : i ≠ j) : tget (tmod t i f) j = tget t j := by
  unfold tmod
  split
  · exact tget_tput_ne _ _ _ _ (Ne.symm h)
  · rfl
theorem State.HasLevel.modCtl_any {s : State} {gid k : Nat} {l : Level} (h : s.HasLevel gid l) (f : Ctl → Ctl)
    (hf : ∀ c, (f c).level = c.level) : (s.modCtl k f).HasLevel gid l := by
  by_cases hk : k = gid
  · subst hk
    exact h.mod _ fun g => hf g.ctl
  · obtain ⟨g, h1, h2⟩ := h
    exact ⟨g, (tget_tmod_ne _ _ _ _ hk).trans h1, h2⟩

/-- An instruction that issues and goes on, by its group's level alone. -/
theorem issue_goesOn {s s1 : State} {i : Instr} {e : GI} {f : GI → State → Fx} {p : SI → State → SFx}
    (h : Issues s i e) (hf : f e s = .done s1) (hg : s1.HasLevel e.gid e.g.ctl.level) (hp : GoesOn s e) :
    s.issue i f p = .next (e.goOn s s1) := by
  obtain ⟨g, h1, h2⟩ := hg
  exact issue_goOn h hf h1 h2 hp
/-- An instruction that holds its group and goes on. -/
theorem resume_goesOn {s s1 : State} {i : Instr} {e : GI} {f : GI → State → Fx} {p : SI → State → SFx}
    (h : Resumes s i e) (hf : f e s = .done s1) (hg : s1.HasLevel e.gid e.g.ctl.level) (hp : GoesOn s e) :
    s.issue i f p = .next (e.goOn s s1) := by
  obtain ⟨g, h1, h2⟩ := hg
  rw [issue_resume h, hf, finish_goOn h1 h2 hp]
/-- An instruction that begins to hold its group. -/
theorem issue_held {s : State} {i : Instr} {e : GI} {f : GI → State → Fx} {p : SI → State → SFx} {s1 : State} {arg : List Nat}
    (h : Issues s i e) (hf : f e s = e.wait s1 arg) : s.issue i f p = .next (e.held s1 arg) := by
  rw [issue_group h, hf]
  unfold GI.wait
  simp only [h.hold, reduceCtorEq, if_false]
  rfl

theorem startOp_level {e : GI} {s : State} {f : Op → Op} {l : Level} (h : s.HasLevel e.gid l) : (e.startOp s f).2.HasLevel e.gid l := by
  obtain ⟨g, h1, h2⟩ := h
  exact ⟨_, startOp_group h1, h2⟩
theorem command_level {e : GI} {s : State} {st : OpSt} {f : Op → Op} {l : Level} (h : s.HasLevel e.gid l) :
    (e.command s st f).2.HasLevel e.gid l :=
  (startOp_level (f := fun o => f { o with st := st, await := s.awaitOf e.gid Instr.writesLocal }) h).of_groups rfl
/-- Requests that set out leave every group's record as it was. -/
theorem State.HasLevel.send {s : State} {gid : Nat} {l : Level} (h : s.HasLevel gid l) (p : Plan) (g o k d c n : Nat)
    (ts : List (Piece × Trans)) : (s.sendPieces p g o k d c n ts).HasLevel gid l := h.of_groups (sendPieces_groups _ _ _ _ _ _ _ _ _)
theorem State.HasLevel.checked {s s1 : State} {e : GI} {p : Plan} {r : PlanRes} {gid : Nat} {l : Level} (h : s.HasLevel gid l)
    (hc : e.checked s p = (r, s1)) : s1.HasLevel gid l := h.of_groups (checked_groups hc)
theorem foldl_groups {α : Type} (f : State → α → State) (hf : ∀ s x, (f s x).groups = s.groups) (l : List α) (s : State) :
    (l.foldl f s).groups = s.groups := by
  induction l generalizing s with
  | nil => rfl
  | cons a r ih => rw [List.foldl_cons, ih, hf]
/-- Lines brought to their homes leave every group's record as it was. -/
theorem bringAll_groups {ctx : Nat} {va : Option Nat} {l : List (Nat × Nat × Hint)} {s t : State} (h : s.bringAll ctx va l = some t) :
    t.groups = s.groups := by
  induction l generalizing s with
  | nil => cases h; rfl
  | cons a r ih =>
    unfold State.bringAll at h
    split at h
    · cases h
    · rename_i u hu
      exact (ih h).trans ((touchAt_groups _ _ _ _ _).trans (bring_groups hu))
/-- A block read at issue leaves every group's record as it was. -/
theorem readBlock_groups (e : GI) (s : State) (base : DWord) (n : Nat) (tags : Bool) :
    (e.readBlock s base n tags).2.groups = s.groups := by
  have h1 := check_groups (blockPlan base n ((lanesOf (lowLane e.g.active)).headD 0) tags) s (coreTlb e.g.core) e.die e.ctx
    (e.g.ctl.level == .u)
  unfold GI.readBlock
  dsimp only
  generalize (blockPlan base n ((lanesOf (lowLane e.g.active)).headD 0) tags).check s (coreTlb e.g.core) e.die e.ctx
    (e.g.ctl.level == .u) = q at h1 ⊢
  obtain ⟨q1, q2⟩ := q
  split
  · rfl
  · cases q1 with
    | go ts sp =>
      dsimp only at h1 ⊢
      repeat' split
      all_goals first | exact h1 | rfl | exact (bringAll_groups (by assumption)).trans h1
    | moving => rfl
    | _ => exact h1
theorem readBlock_level {e : GI} {s s1 : State} {base : DWord} {n : Nat} {tags : Bool} {b : Except Fx (List Byte)} {gid : Nat} {l : Level}
    (h : s.HasLevel gid l) (hr : e.readBlock s base n tags = (b, s1)) : s1.HasLevel gid l := by
  have h1 := readBlock_groups e s base n tags
  rw [hr] at h1
  exact h.of_groups h1
/-- A grid descriptor's read, likewise. -/
theorem grid_groups (e : GI) (s : State) (base : DWord) : (e.grid s base).2.groups = s.groups := by
  unfold GI.grid
  dsimp only
  split
  · have h := readBlock_groups e s base 128 false
    generalize e.readBlock s base 128 false = q at h
    obtain ⟨q1, q2⟩ := q
    cases q1 <;> exact h
  · split
    · rfl
    · have h := readBlock_groups e (s.drawFree 1).2 base 128 false
      generalize e.readBlock (s.drawFree 1).2 base 128 false = q at h
      obtain ⟨q1, q2⟩ := q
      cases q1 <;> exact h
theorem grid_level {e : GI} {s s1 : State} {base : DWord} {b : Except Fx (List Byte)} {gid : Nat} {l : Level}
    (h : s.HasLevel gid l) (hr : e.grid s base = (b, s1)) : s1.HasLevel gid l := by
  have h1 := grid_groups e s base
  rw [hr] at h1
  exact h.of_groups h1
theorem ite_level {c : Prop} [Decidable c] {a b : State} {gid : Nat} {l : Level} (ha : a.HasLevel gid l) (hb : b.HasLevel gid l) :
    (if c then a else b).HasLevel gid l := by
  split <;> assumption
theorem foldl_level {α : Type} {f : State → α → State} {gid : Nat} {l : Level}
    (hf : ∀ s x, State.HasLevel s gid l → (f s x).HasLevel gid l) (q : List α) (s : State) (h : s.HasLevel gid l) :
    (q.foldl f s).HasLevel gid l := by
  induction q generalizing s with
  | nil => exact h
  | cons a r ih => exact ih _ (hf _ _ h)
/-- An arrival at a barrier leaves every group at its level. -/
theorem barArrive_level {s : State} {gid : Nat} {l : Level} (h : s.HasLevel gid l) (tid num n c : Nat) :
    (s.barArrive tid num n c).HasLevel gid l := by
  unfold State.barArrive
  generalize hx : s.modTeam tid _ = s1
  have h1 : s1.HasLevel gid l := by subst hx; exact h.of_groups rfl
  unfold State.barCheck
  split
  · exact h1
  · simp only
    split
    · exact h1.of_groups rfl
    · refine foldl_level ?_ _ _ (h1.of_groups rfl)
      intro a g ha
      exact ite_level (ha.modCtl_any _ fun _ => rfl) ha
/-- Copies dropped leave every group's record as it was. -/
theorem dropPath_groups (s : State) (core t : Nat) (p : Path) : (s.dropPath core p t).groups = s.groups := by
  unfold State.dropPath
  split <;> rfl
theorem dropPaths_groups (s : State) (core t : Nat) : (s.dropPaths core t).groups = s.groups := by
  simp only [State.dropPaths, List.foldl_cons, List.foldl_nil, dropPath_groups]
/-- A group that leaves its section keeps its level. -/
theorem leaveSection_level {s : State} {gid : Nat} {l : Level} (h : s.HasLevel gid l) (m : Mask) : (s.leaveSection gid m).HasLevel gid l := by
  unfold State.leaveSection
  split
  · exact h
  · split
    · exact h
    · simp only
      refine State.HasLevel.mod ?_ _ fun _ => rfl
      split
      · exact h
      · exact h.of_groups rfl
theorem keyResult_groups (s : State) (k r : Nat) : (s.keyResult k r).groups = s.groups := rfl
theorem xPut_groups (s : State) (pa : Nat) (d : List Byte) : (s.xPut pa d).2.groups = s.groups := devStore_groups _ _ _ _
theorem xEnable_groups (s : State) (n : Nat) : (s.xEnable n).groups = s.groups := by
  unfold State.xEnable
  split
  · rfl
  · split
    · exact logRecord_groups _ _ _ _ _ _
    · exact xPut_groups _ _ _
theorem xDisable_groups (s : State) (n : Nat) : (s.xDisable n).groups = s.groups := by
  unfold State.xDisable State.windowOver
  split <;> rfl
theorem writePolicy_groups (s : State) (v : Nat) : (s.writePolicy v).groups = s.groups := by
  unfold State.writePolicy
  simp only
  rw [foldl_groups, foldl_groups]
  · rfl
  · intro s n
    split <;> rfl
  · intro s n
    split
    · exact xEnable_groups _ _
    · split
      · exact xDisable_groups _ _
      · rfl
theorem keyCommand_groups (s : State) (v : Nat) : (s.keyCommand v).groups = s.groups := by
  unfold State.keyCommand State.keyGenerate State.keyDestroy
  simp only
  repeat' split
  all_goals rfl
theorem mapctl_groups (s : State) (v : Nat) : (s.mapctl v).groups = s.groups := by
  unfold State.mapctl State.mapStage State.mapApply State.mapBad
  simp only
  repeat' split
  all_goals rfl
theorem retireWrite_groups (s : State) (v : Nat) : (s.retireWrite v).groups = s.groups := by
  unfold State.retireWrite State.retireAccept
  simp only
  repeat' split
  all_goals rfl
theorem writeLossx_groups (s : State) (c v : Nat) : (s.writeLossx c v).groups = s.groups := by
  unfold State.writeLossx
  simp only
  split <;> rfl
theorem modBank_level (g : Group) (f : TrapBank → TrapBank) : (g.modBank f).ctl.level = g.ctl.level := by
  unfold Group.modBank
  split <;> rfl
/-- A write of a control register leaves the writing group at its level. -/
theorem csrWrite_level {s : State} {gid : Nat} {l : Level} (h : s.HasLevel gid l) (r : Csr) (ctx tid v : Nat) :
    (s.csrWrite r gid ctx tid v).HasLevel gid l := by
  cases r <;> simp only [State.csrWrite] <;> (repeat' split) <;>
    first
    | exact h
    | exact h.of_groups rfl
    | exact h.of_groups (writeLossx_groups _ _ _)
    | exact h.of_groups (retireWrite_groups _ _)
    | exact h.of_groups (writePolicy_groups _ _)
    | exact h.of_groups (mapctl_groups _ _)
    | exact h.of_groups (keyCommand_groups _ _)
    | exact h.mod _ fun g => modBank_level _ _

/-! ### Reads of engines through their caches -/

theorem addCopy_groups (s : State) (c : CopyLine) : (s.addCopy c).groups = s.groups := rfl
/-- A copy installed or used leaves every group's record as it was. -/
theorem putCopy_groups (s : State) (c : CopyLine) (h : Hint) : (s.putCopy c h).groups = s.groups := by
  unfold State.putCopy
  split <;> rfl
theorem touchCopy_groups (s : State) (c : CopyLine) (h : Hint) : (s.touchCopy c h).groups = s.groups := by
  unfold State.touchCopy
  split <;> rfl
/-- An engine's read of a line through its own cache leaves every group's record as it was. -/
theorem leasedLine_groups (s : State) (h : Holder) (die ln key ctx va : Nat) (lro : Bool) (hint : Hint) :
    (s.leasedLine h die ln key ctx va lro hint).2.groups = s.groups := by
  have hg := grant_groups s ln lro
  unfold State.leasedLine
  dsimp only
  split
  · rfl
  · dsimp only
    split
    · exact l2Alloc_groups _ _ _ _ _ _
    · exact (putCopy_groups _ _ _).trans (l2Alloc_groups _ _ _ _ _ _)
  · split
    · exact touchAt_groups _ _ _ _ _
    · generalize s.grant ln lro = q at hg ⊢
      obtain ⟨q1, q2⟩ := q
      cases q1 with
      | none => exact (touchAt_groups _ _ _ _ _).trans hg
      | some e =>
        refine (touchAt_groups _ _ _ _ _).trans ((putCopy_groups _ _ _).trans ?_)
        split
        · exact hg
        · exact (putCopy_groups _ _ _).trans ((l2Alloc_groups _ _ _ _ _ _).trans hg)
/-- A fold that carries a state beside a value, and whose steps leave the groups' records, leaves them. -/
theorem foldl_groups_snd {α β : Type} (f : β × State → α → β × State) (hf : ∀ a x, (f a x).2.groups = a.2.groups) (l : List α)
    (a : β × State) : (l.foldl f a).2.groups = a.2.groups := by
  induction l generalizing a with
  | nil => rfl
  | cons x r ih => rw [List.foldl_cons, ih, hf]
theorem readLine_groups {s : State} {cache : Option Holder} {die ctx va : Nat} {tr : Trans} {ln : Nat} {r : List Byte × State}
    (h : s.readLine cache die ctx va tr ln = some r) : r.2.groups = s.groups := by
  unfold State.readLine at h
  split at h
  · split at h
    · cases h; exact leasedLine_groups _ _ _ _ _ _ _ _ _
    · obtain ⟨t, ht, rfl⟩ := Option.map_eq_some_iff.mp h
      exact (leasedLine_groups _ _ _ _ _ _ _ _ _).trans (bring_groups ht)
  · obtain ⟨t, ht, rfl⟩ := Option.map_eq_some_iff.mp h
    exact (touchAt_groups _ _ _ _ _).trans (bring_groups ht)
theorem readLinesFrom_groups {s : State} {cache : Option Holder} {die ctx va : Nat} {tr : Trans} {ln n : Nat} {r : List Byte × State}
    (h : s.readLinesFrom cache die ctx va tr ln n = some r) : r.2.groups = s.groups := by
  induction n generalizing s va ln r with
  | zero => cases h; rfl
  | succ n ih =>
    unfold State.readLinesFrom at h
    split at h
    · cases h
    · rename_i x hx
      obtain ⟨y, hy, rfl⟩ := Option.map_eq_some_iff.mp h
      exact (ih hy).trans (readLine_groups hx)
theorem readLines_groups {s : State} {cache : Option Holder} {die ctx va : Nat} {tr : Trans} {n : Nat} {r : List Byte × State}
    (h : s.readLines cache die ctx va tr n = some r) : r.2.groups = s.groups := by
  unfold State.readLines at h
  obtain ⟨y, hy, rfl⟩ := Option.map_eq_some_iff.mp h
  exact readLinesFrom_groups (r := y) hy
/-- An engine's read of virtual memory leaves every group's record as it was. -/
theorem readVia_groups (s : State) (cache : Option Holder) (cluster die ctx : Nat) (user : Bool) (va n : Nat) :
    (s.readVia cache cluster die ctx user va n).2.groups = s.groups := by
  unfold State.readVia
  refine foldl_groups_snd _ (fun a p => ?_) _ _
  obtain ⟨a1, a2⟩ := a
  cases a1 with
  | error e => rfl
  | ok b =>
    have ht := translate_groups a2 cluster die ctx p.1 ⟨false, false, user⟩
    dsimp only
    generalize a2.translate cluster die ctx p.1 ⟨false, false, user⟩ = q at ht ⊢
    obtain ⟨q1, q2⟩ := q
    cases q1 with
    | ok tr =>
      dsimp only
      have hk := (taken_groups q2 tr.pa).trans ht
      repeat' split
      all_goals first | exact ht | exact hk | exact (readLines_groups (by assumption)).trans ht
    | _ => exact ht
/-- The reads of texture records leave every group's record as it was. -/
theorem readRecs_groups (ts : List (Piece × Trans)) (s : State) (core ctx : Nat) : (s.readRecs core ctx ts).2.groups = s.groups := by
  induction ts generalizing s with
  | nil => rfl
  | cons x r ih =>
    unfold State.readRecs
    dsimp only
    rw [ih]
    repeat' split
    all_goals first | rfl | exact readLines_groups (by assumption)

/-! ### The die scratchpad's placement (R285) -/

/-- Two offsets of a scratchpad have two places. -/
theorem scrPlace_inj {o p : Nat} (h : scrPlace o = scrPlace p) : o = p := by
  simp only [scrPlace, ScrPlace.mk.injEq] at h
  omega
/-- A byte of a cluster's carve-out lies in the slice and the byte of its ways that the placement names. -/
theorem scrPlace_slice (o : Nat) :
    (scrPlace o).c = (scrPlace o).a / 128 * 512 + (scrPlace o).sl * 128 + (scrPlace o).a % 128 := by
  simp only [scrPlace]
  omega

end Sys2Proof.Machine
end

