-- ==== Sys2Proof/Tests/Slice0.lean ====
section
/-! SUPPORT. Tests of the model's own: the well-formedness smoke, words written out from the spec's encodings, single steps on
small states, and states that meet the hypotheses of the statements. Expected results come from the spec's examples and
tables, or are worked out by hand from its rules. -/
open Sys2Proof Sys2Proof.Machine
namespace Sys2Proof.Tests
set_option Elab.async false

/-! ### Helpers -/

/-- The placed machine with its one group to issue the last word of its clause: launch 1, team 2, group 3, context 0. -/
def last : State := { State.reset.withFetchWord 32 0xD4000000 with agenda := [], issuer := .group 3 }
/-- The same in a longer clause, so that the group stays inside it. -/
def ready : State := last.modCtl 3 fun c => { c with len := 10 }
/-- The placed machine with its group changed. -/
def readyG (f : Group → Group) : State := ready.modGroup 3 f
/-- The placed machine with its group's registers changed. -/
def readyR (f : Regs → Regs) : State := ready.modRegs 3 f
/-- The placed machine under another MODE. -/
def readyM (m : Word) : State := readyR fun r => { r with mode := m }
/-- The placed machine with its team changed. -/
def readyT (f : Team → Team) : State := ready.modTeam 2 f
/-- A vector register with one value in every lane. -/
def vset (n x : Nat) (r : Regs) : Regs := r.setV n (BitVec.allOnes 64) fun _ => BitVec.ofNat 32 x
/-- A uniform register set. -/
def sset (n x : Nat) (r : Regs) : Regs := r.setS n (BitVec.ofNat 64 x)
/-- What an outcome's group 3 satisfies. -/
def left (o : Host.Outcome State Fault Refusal) (p : Group → Bool) : Bool :=
  match o with
  | .next s => (tget s.groups 3).any p
  | _ => false
/-- What a next state satisfies. -/
def next (o : Host.Outcome State Fault Refusal) (p : State → Bool) : Bool :=
  match o with
  | .next s => p s
  | _ => false

/-- Whether group 3 issues an instruction under a condition. -/
def issues (s : State) (i : Instr) (p : State → GI → Bool) : Bool :=
  (s.gi 3 i).any fun e => s.power && s.issuer == .group 3 && e.g.ready i && e.g.ctl.hold == none && e.g.ctl.owed == [] &&
    e.check s == none && !e.stalls s && p s e
/-- Whether group 3 comes back to an instruction under a condition. -/
def resumes (s : State) (i : Instr) (p : State → GI → Bool) : Bool :=
  (s.gi 3 i).any fun e => s.power && s.issuer == .group 3 && e.g.ready i && e.g.ctl.hold == some i && p s e
theorem some_of {α : Type} {o : Option α} {p : α → Bool} (h : o.any p = true) : ∃ x, o = some x ∧ p x = true := by
  cases o with
  | none => cases h
  | some x => exact ⟨x, rfl, h⟩
theorem issues_of {s : State} {i : Instr} {P : State → GI → Prop} [∀ s e, Decidable (P s e)]
    (h : issues s i (fun s e => decide (P s e)) = true) : ∃ e, Issues s i e ∧ P s e := by
  obtain ⟨e, hg, h⟩ := some_of h
  simp only [Bool.and_eq_true, beq_iff_eq, Bool.not_eq_true', decide_eq_true_eq] at h
  obtain ⟨⟨⟨⟨⟨⟨⟨h1, h2⟩, h3⟩, h4⟩, h5⟩, h6⟩, h7⟩, h8⟩ := h
  have hk : e.gid = 3 := gi_gid hg
  exact ⟨e, ⟨h1, by rw [h2, hk], by rw [hk]; exact hg, h3, h4, h5, h6, h7⟩, h8⟩
theorem resumes_of {s : State} {i : Instr} {P : State → GI → Prop} [∀ s e, Decidable (P s e)]
    (h : resumes s i (fun s e => decide (P s e)) = true) : ∃ e, Resumes s i e ∧ P s e := by
  obtain ⟨e, hg, h⟩ := some_of h
  simp only [Bool.and_eq_true, beq_iff_eq, decide_eq_true_eq] at h
  obtain ⟨⟨⟨⟨h1, h2⟩, h3⟩, h4⟩, h5⟩ := h
  have hk : e.gid = 3 := gi_gid hg
  exact ⟨e, ⟨h1, by rw [h2, hk], by rw [hk]; exact hg, h3, h4⟩, h5⟩
/-- Every instruction of a list issues on the placed machine, with control going on behind it. -/
theorem all_issue {s : State} {l : List Instr} (h : l.all (fun i => issues s i fun s e => decide (e.canGo s e.after = true)) = true) :
    ∀ i ∈ l, ∃ e, Issues s i e ∧ GoesOn s e := fun i hi =>
  issues_of (P := fun s e => e.canGo s e.after = true) (List.all_eq_true.mp h i hi)
/-- Instructions, the states in which they issue, and conditions. -/
abbrev Case := Instr × State × (State → GI → Bool)
theorem all_cases {l : List Case} (h : l.all (fun x => issues x.2.1 x.1 fun s e => decide (x.2.2 s e = true)) = true) :
    ∀ x ∈ l, ∃ e, Issues x.2.1 x.1 e ∧ x.2.2 x.2.1 e = true := fun x hx =>
  issues_of (P := fun s e => x.2.2 s e = true) (List.all_eq_true.mp h x hx)
theorem all_resume {l : List Case} (h : l.all (fun x => resumes x.2.1 x.1 fun s e => decide (x.2.2 s e = true)) = true) :
    ∀ x ∈ l, ∃ e, Resumes x.2.1 x.1 e ∧ x.2.2 x.2.1 e = true := fun x hx =>
  resumes_of (P := fun s e => x.2.2 s e = true) (List.all_eq_true.mp h x hx)
/-- The checks of a plan pass. -/
def passes (r : PlanRes × State) : Bool :=
  match r.1 with
  | .go _ _ => true
  | _ => false
theorem passes_go {r : PlanRes × State} (h : passes r = true) : ∃ ts sp s1, r = (.go ts sp, s1) := by
  obtain ⟨r, s⟩ := r
  cases r with
  | go ts sp => exact ⟨ts, sp, s, rfl⟩
  | _ => cases h

/-- An access of group 3 passes its checks, and control can go on behind it. -/
def accesses (s : State) (i : Instr) (p : GI → Plan) : Bool :=
  issues s i fun s e => decide (e.canGo s e.after = true ∧
    ((p e).tags && s.tagsPending e.gid s.nextId) = false ∧ e.g.redo = none ∧ passes (e.checked s (p e)) = true)
theorem accesses_of {s : State} {i : Instr} {p : GI → Plan} (h : accesses s i p = true) :
    ∃ e ts sp s1, Issues s i e ∧ GoesOn s e ∧ e.mayAccess s (p e) (.go ts sp, s1) := by
  obtain ⟨e, h1, h2, h3, h4, h5⟩ := issues_of
    (P := fun s e => e.canGo s e.after = true ∧ ((p e).tags && s.tagsPending e.gid s.nextId) = false ∧ e.g.redo = none ∧
      passes (e.checked s (p e)) = true) h
  obtain ⟨ts, sp, s1, h6⟩ := passes_go h5
  exact ⟨e, ts, sp, s1, h1, h2, h3, h4, h6⟩
/-- The placed machine with one active lane. -/
def oneLane : State := readyG fun g => { g with active := 1 }


/-! ### Well-formedness: a term for each check, which the check refuses (R98 to R104) -/

theorem test_refuses_integers_1 :
    ([.clauseStart 4096 4 4 4, .clauseStart 4 16 4 4, .clauseStart 4 4 16 4, .clauseStart 4 4 4 64, .clauseStart 4 4 4 0, .clauseStart 4 12 4 4,
     .clauseStart 4 4 14 4, .iadd 128 4 4, .iadd 4 128 4, .iadd 4 4 128, .isub 128 4 4, .isub 4 128 4, .isub 4 4 128, .imul 128 4 4, .imul 4 128 4,
     .imul 4 4 128, .imulhi 128 4 4, .imulhi 4 128 4, .imulhi 4 4 128, .imulhn 128 4 4, .imulhn 4 128 4, .imulhn 4 4 128, .imad 128 4 4, .imad 4 128 4,
     .imad 4 4 128, .iand 128 4 4, .iand 4 128 4, .iand 4 4 128, .ior 128 4 4, .ior 4 128 4, .ior 4 4 128, .ixor 128 4 4, .ixor 4 128 4, .ixor 4 4 128,
     .ishl 128 4 4, .ishl 4 128 4, .ishl 4 4 128, .ishr 128 4 4, .ishr 4 128 4, .ishr 4 4 128, .isra 128 4 4, .isra 4 128 4, .isra 4 4 128,
     .imin 128 4 4, .imin 4 128 4, .imin 4 4 128, .imax 128 4 4, .imax 4 128 4, .imax 4 4 128, .iminn 128 4 4].all fun i : Instr => !i.wf) = true := by decide
theorem test_refuses_integers_2 :
    ([.iminn 4 128 4, .iminn 4 4 128, .imaxn 128 4 4, .imaxn 4 128 4, .imaxn 4 4 128, .iabs 128 4, .iabs 4 128, .clz 128 4, .clz 4 128, .popc 128 4,
     .popc 4 128, .brev 128 4, .brev 4 128, .bfe 128 4 4, .bfe 4 128 4, .bfe 4 4 128, .bfi 128 4 4, .bfi 4 128 4, .bfi 4 4 128, .intlv2 128 4 4,
     .intlv2 4 128 4, .intlv2 4 4 128, .intlv3 128 4 4, .intlv3 4 128 4, .intlv3 4 4 128, .mov 128 4, .mov 4 128, .movs 128 4 false, .movs 4 64 false,
     .icmp false .lt 16 4 4, .icmp false .lt 4 128 4, .icmp false .lt 4 4 128, .iaddi 128 4 1, .iaddi 4 128 1, .iaddi 4 4 2048, .iaddi 4 4 (-2049),
     .ishli 128 4 4, .ishli 4 128 4, .ishli 4 4 4096, .movi 128 1, .movi 4 262144, .movi 4 (-262145), .movhi 128 4, .movhi 4 524288, .idx 128 .lin,
     .sread 64 true .astat, .sread 4 true .gt, .spanq 64, .setmodeReg 256 4, .setmodeReg 0 4].all fun i : Instr => !i.wf) = true := by decide
theorem test_refuses_integers_3 :
    ([.setmodeReg 4 64, .setmodeImm 256 4, .setmodeImm 0 4, .setmodeImm 1 2048, .setmodeImm 9 4, .setmodeImm 8 1024, .getmode 64, .isel 128 4 false 4,
     .isel 4 128 false 4, .isel 4 4 false 16].all fun i : Instr => !i.wf) = true := by decide
theorem test_refuses_predicates_and_uniforms_1 :
    ([.pand 16 4 4, .pand 4 16 4, .pand 4 4 16, .por 16 4 4, .por 4 16 4, .por 4 4 16, .pxor 16 4 4, .pxor 4 16 4, .pxor 4 4 16, .pandn 16 4 4,
     .pandn 4 16 4, .pandn 4 4 16, .pcnt 64 4, .pcnt 4 16, .pfirst 16 4, .pfirst 4 16, .ptos 64 4 false, .ptos 4 16 false, .stop 16 4 false,
     .stop 4 64 false, .sadd 64 4 4 false, .sadd 4 64 4 false, .sadd 4 4 64 false, .ssub 64 4 4 false, .ssub 4 64 4 false, .ssub 4 4 64 false,
     .smul 64 4 4 false, .smul 4 64 4 false, .smul 4 4 64 false, .smulh 64 4 4 false false, .smulh 4 64 4 false false, .smulh 4 4 64 false false,
     .sand 64 4 4 false, .sand 4 64 4 false, .sand 4 4 64 false, .sor 64 4 4 false, .sor 4 64 4 false, .sor 4 4 64 false, .sxor 64 4 4 false,
     .sxor 4 64 4 false, .sxor 4 4 64 false, .sshl 64 4 4 false, .sshl 4 64 4 false, .sshl 4 4 64 false, .sshr 64 4 4 false, .sshr 4 64 4 false,
     .sshr 4 4 64 false, .ssra 64 4 4 false, .ssra 4 64 4 false, .ssra 4 4 64 false].all fun i : Instr => !i.wf) = true := by decide
theorem test_refuses_predicates_and_uniforms_2 :
    ([.smin 64 4 4 false false, .smin 4 64 4 false false, .smin 4 4 64 false false, .smax 64 4 4 false false, .smax 4 64 4 false false,
     .smax 4 4 64 false false, .scmp 64 4, .scmp 4 64, .ssel 64 4 4 .lo, .ssel 4 64 4 .lo, .ssel 4 4 64 .lo, .smov 64 4, .smov 4 64, .smovi 64 1,
     .smovi 4 8192, .smovi 4 (-8193), .saddImm 64 4 1, .saddImm 4 64 1, .saddImm 4 4 8192, .saddImm 4 4 (-8193), .smovhi 64 4 4, .smovhi 4 64 4,
     .smovhi 4 4 16384].all fun i : Instr => !i.wf) = true := by decide
theorem test_refuses_floats_1 :
    ([.fadd 128 4 4, .fadd 4 128 4, .fadd 4 4 128, .fsub 128 4 4, .fsub 4 128 4, .fsub 4 4 128, .fmul 128 4 4, .fmul 4 128 4, .fmul 4 4 128,
     .fmad 128 4 4, .fmad 4 128 4, .fmad 4 4 128, .fmsb 128 4 4, .fmsb 4 128 4, .fmsb 4 4 128, .fmin 128 4 4, .fmin 4 128 4, .fmin 4 4 128,
     .fmax 128 4 4, .fmax 4 128 4, .fmax 4 4 128, .fneg 128 4, .fneg 4 128, .fabs 128 4, .fabs 4 128, .fcmp .lt 16 4 4, .fcmp .lt 4 128 4,
     .fcmp .lt 4 4 128, .fclass 128 4, .fclass 4 128, .frndi 128 4, .frndi 4 128, .fscale 128 4 4, .fscale 4 128 4, .fscale 4 4 128, .fdot2 128 4 4,
     .fdot2 4 128 4, .fdot2 4 4 128, .cvt 128 4 4 .i32, .cvt 4 128 4 .i32, .cvt 4 4 8 .i32, .cvti 128 4 .rz .i32, .cvti 4 128 .rz .i32, .packb 128 4 4,
     .packb 4 128 4, .packb 4 4 128, .permb 128 4 4, .permb 4 128 4, .permb 4 4 128, .qcvt 128 4 4].all fun i : Instr => !i.wf) = true := by decide
theorem test_refuses_floats_2 :
    ([.qcvt 4 128 4, .qcvt 4 4 64, .setseed 128 4, .setseed 4 64, .rcp 128 4, .rcp 4 128, .rsq 128 4, .rsq 4 128, .sqrt 128 4, .sqrt 4 128, .exp2 128 4,
     .exp2 4 128, .log2 128 4, .log2 4 128, .sint 128 4, .sint 4 128, .cost 128 4, .cost 4 128, .tanh 128 4, .tanh 4 128].all fun i : Instr => !i.wf) = true := by decide
theorem test_refuses_lanes_and_control_1 :
    ([.shflIdx 128 4 false 4, .shflIdx 4 128 false 4, .shflIdx 4 4 false 64, .shflUp 128 4 false 4, .shflUp 4 128 false 4, .shflUp 4 4 false 64,
     .shflDn 128 4 false 4, .shflDn 4 128 false 4, .shflDn 4 4 false 64, .shflXor 128 4 false 4, .shflXor 4 128 false 4, .shflXor 4 4 false 64,
     .shflUpw 128 4 false 4, .shflUpw 4 128 false 4, .shflUpw 4 4 false 8, .shflUpw 4 4 false 0, .shflDnw 128 4 false 4, .shflDnw 4 128 false 4,
     .shflDnw 4 4 false 8, .shflDnw 4 4 false 0, .shflXorw 128 4 false 4, .shflXorw 4 128 false 4, .shflXorw 4 4 false 8, .shflXorw 4 4 false 0,
     .qswap 128 4 .d, .qswap 4 128 .d, .qddx 128 4 false, .qddx 4 128 false, .qddy 128 4 false, .qddy 4 128 false, .redlog 128 4 .fadd,
     .redlog 4 128 .fadd, .scanlog 128 4 false .fadd, .scanlog 4 128 false .fadd, .rdfirst 64 4 false, .rdfirst 4 128 false, .rdfirst 4 5 true,
     .rdlane 64 4 4, .rdlane 4 128 4, .rdlane 4 4 64, .ballot 128 4, .ballot 5 4, .ballot 4 16, .vote 16 4 .all, .vote 4 16 .all, .vmatch 128 4,
     .vmatch 5 4, .vmatch 4 128, .vmatchf 128 4, .vmatchf 5 4].all fun i : Instr => !i.wf) = true := by decide
theorem test_refuses_lanes_and_control_2 :
    ([.vmatchf 4 128, .mendl 2097152, .mendl (-2097153), .bra .al 2097152, .bra .al (-2097153), .brz 16 1, .brz 4 2097152, .brz 4 (-2097153), .brnz 16 1,
     .brnz 4 2097152, .brnz 4 (-2097153), .call 2097152, .call (-2097153), .mif 16 1, .mif 4 2097152, .mif 4 (-2097153), .melse 2097152,
     .melse (-2097153), .mbrk 16 1, .mbrk 4 2097152, .mbrk 4 (-2097153), .mcont 16 1, .mcont 4 2097152, .mcont 4 (-2097153)].all fun i : Instr => !i.wf) = true := by decide
theorem test_refuses_memory_1 :
    ([.ld 128 4 4 .b32 .normal false, .ld 4 64 4 .b32 .normal false, .ld 4 4 128 .b32 .normal false, .ld 5 4 4 .b64 .normal false,
     .ld 6 4 4 .b128 .normal false, .st 128 4 4 .b32 .normal, .st 4 64 4 .b32 .normal, .st 4 4 128 .b32 .normal, .st 5 4 4 .b64 .normal,
     .st 6 4 4 .b128 .normal, .st 4 4 4 .i8 .normal, .lds 64 4 1, .lds 4 64 1, .lds 4 4 8192, .lds 4 4 (-8193), .sts 64 4 1, .sts 4 64 1,
     .sts 4 4 8192, .sts 4 4 (-8193), .ldl 128 4 4 .b32, .ldl 4 64 4 .b32, .ldl 4 4 128 .b32, .ldl 5 4 4 .b64, .ldl 6 4 4 .b128, .stl 128 4 4 .b32,
     .stl 4 64 4 .b32, .stl 4 4 128 .b32, .stl 5 4 4 .b64, .stl 6 4 4 .b128, .stl 4 4 4 .i8, .ldc 128 4 4 .b32, .ldc 4 64 4 .b32, .ldc 4 4 128 .b32,
     .ldc 5 4 4 .b64, .ldc 6 4 4 .b128, .stc 128 4 4 .b32, .stc 4 64 4 .b32, .stc 4 4 128 .b32, .stc 5 4 4 .b64, .stc 6 4 4 .b128, .stc 4 4 4 .i8,
     .ldp 128 4 4 .b32 .normal, .ldp 4 64 4 .b32 .normal, .ldp 4 4 128 .b32 .normal, .ldp 5 4 4 .b64 .normal, .ldp 6 4 4 .b128 .normal,
     .stp 128 4 4 .b32 .normal, .stp 4 64 4 .b32 .normal, .stp 4 4 128 .b32 .normal, .stp 5 4 4 .b64 .normal].all fun i : Instr => !i.wf) = true := by decide
theorem test_refuses_memory_2 :
    ([.stp 6 4 4 .b128 .normal, .stp 4 4 4 .i8 .normal, .atom 4 64 4 .b32 .normal 4 0 .add .int, .atom 4 4 128 .b32 .normal 4 0 .add .int,
     .atom 5 4 4 .b64 .normal 4 0 .add .int, .atom 128 4 4 .b32 .normal 4 0 .add .int, .atom 4 4 4 .b64 .normal 5 0 .add .int,
     .atom 4 4 4 .b32 .normal 128 0 .add .int, .atom 4 4 4 .b64 .normal 4 5 .cas .int, .atom 4 4 4 .b32 .normal 4 128 .add .int,
     .atom 4 4 4 .n16 .normal 4 0 .add .int, .atom 4 4 4 .b32 .normal 4 6 .add .int, .atom 4 4 4 .b32 .normal 4 0 .and .f32,
     .atom 4 4 4 .b32 .normal 4 0 .min .bf16, .atoml 4 64 4 .b32 4 0 .add .int, .atoml 4 4 128 .b32 4 0 .add .int, .atoml 5 4 4 .b64 4 0 .add .int,
     .atoml 128 4 4 .b32 4 0 .add .int, .atoml 4 4 4 .b64 5 0 .add .int, .atoml 4 4 4 .b32 128 0 .add .int, .atoml 4 4 4 .b64 4 5 .cas .int,
     .atoml 4 4 4 .b32 4 128 .add .int, .atoml 4 4 4 .n16 4 0 .add .int, .atoml 4 4 4 .b32 4 6 .add .int, .atoml 4 4 4 .b32 4 0 .and .f32,
     .atoml 4 4 4 .b32 4 0 .min .bf16, .atomc 4 64 4 4 0 .add .int, .atomc 4 4 128 4 0 .add .int, .atomc 128 4 4 4 0 .add .int,
     .atomc 4 4 4 128 0 .add .int, .atomc 4 4 4 4 128 .cas .int, .atomc 4 4 4 4 6 .add .int, .atomc 4 4 4 4 0 .and .f32, .atomc 4 4 4 4 0 .min .bf16,
     .redst 128 4 4 .b32 .normal .add .int, .redst 4 64 4 .b32 .normal .add .int, .redst 4 4 128 .b32 .normal .add .int,
     .redst 5 4 4 .b64 .normal .add .int, .redst 6 4 4 .b128 .normal .add .int, .redst 4 4 4 .n16 .normal .add .int,
     .redst 4 4 4 .b32 .normal .and .f32, .redst 4 4 4 .b32 .normal .min .bf16, .redst 4 4 4 .b32 .normal .exch .int, .redc 128 4 4 .add .int,
     .redc 4 64 4 .add .int, .redc 4 4 128 .add .int, .redc 4 4 4 .and .f32, .redc 4 4 4 .min .bf16, .redc 4 4 4 .exch .int].all fun i : Instr => !i.wf) = true := by decide
theorem test_refuses_synchronisation :
    ([.bar 17 4, .bar 4 16, .bararr 17 4, .bararr 4 16, .barwait 16, .bcinit 64 4, .bcinit 4 16, .bcwait 64 4, .bcwait 4 16, .cpyk 65 4, .cpyk 0 4,
     .cpyk 4 64, .claim 64 4 4, .claim 4 64 4, .claim 4 4 64, .pin 64 4, .pin 4 64, .unpin 64 4, .unpin 4 64, .pref .normal .l1 128 4,
     .pref .normal .l1 4 64, .tagset 128 4 4, .tagset 4 128 4, .tagset 4 4 64, .tagget 128 4 4, .tagget 4 128 4, .tagget 4 4 64, .cacheop .clean 128 4,
     .cacheop .clean 4 64, .pubw 64 4, .pubw 4 64, .acqw 64 4, .acqw 4 64, .mbxsend 64 1 false, .mbxsend 4 4 false, .mbxrecv 64 4, .mbxrecv 4 64,
     .spawn 64 4 4 false 1, .spawn 4 64 4 false 1, .spawn 4 4 64 false 1, .spawn 4 4 4 false 4].all fun i : Instr => !i.wf) = true := by decide
theorem test_refuses_units_1 :
    ([.tdesc 64 4 4, .tdesc 4 64 4, .tdesc 4 4 16, .azero 64, .mma false 16 8 4, .mma false 4 128 4, .mma false 4 12 4, .mma false 4 8 64,
     .mmap false 16 8 4, .mmap false 4 128 4, .mmap false 4 12 4, .mmap false 4 8 64, .mmabs false 16 8 4 4, .mmabs false 4 128 4 4,
     .mmabs false 4 12 4 4, .mmabs false 4 8 64 4, .mmabs false 4 8 4 128, .mmabs false 4 8 4 6, .aload 16 4, .aload 4 64, .amov 64 4, .amov 4 64,
     .adrain false 64 4 4, .adrain false 0 64 4, .adrain false 0 4 16, .adrain false 1 4 4, .agdrain 128 4 4, .agdrain 4 64 4, .agdrain 4 4 64,
     .astash 64 4 4, .astash 4 16 4, .astash 4 4 16, .matrixCommandStart 640, .hcfg 64 4, .hcfg 4 64, .hgather 128 4 4 4 4, .hgather 4 128 4 4 4,
     .hgather 4 4 64 4 4, .hgather 4 4 4 16 4, .hgather 4 4 4 4 17, .hgather 4 4 4 4 0, .hscatter 128 4 4 4 4, .hscatter 4 128 4 4 4,
     .hscatter 4 4 64 4 4, .hscatter 4 4 4 16 4, .hscatter 4 4 4 4 17, .hscatter 4 4 4 4 0, .draw 64 4 1 false, .draw 4 64 1 false, .draw 4 4 4 false].all fun i : Instr => !i.wf) = true := by decide
theorem test_refuses_units_2 :
    ([.draw 4 4 1 true, .ordent 128 4, .ordent 5 4, .ordent 4 128, .tsamp 128 4 4 4 4 .b, .tsamp 4 128 4 4 4 .b, .tsamp 4 4 64 4 4 .b,
     .tsamp 4 4 4 128 4 .b, .tsamp 4 4 4 4 128 .b, .tsamp 4 4 4 4 4 .q, .rbox 128 4 4 4, .rbox 4 128 4 4, .rbox 4 4 64 4, .rbox 4 4 4 128,
     .rtri 128 4 4 4 .none, .rtri 4 128 4 4 .none, .rtri 4 4 64 4 .none, .rtri 4 4 4 128 .none, .regroup 128, .regroupRoundClose 4 4, .route 4 4 4,
     .route 1 128 4, .route 1 4 128, .route 1 4 5, .xdone 128, .xdone 5, .csrr .lossx 64, .csrw .lossx 64, .trap 65536, .bkpt 65536, .jmps 64,
     .trapu 65536].all fun i : Instr => !i.wf) = true := by decide
theorem test_refuses_events_1 :
    ([.copyRequestExecute 644, .louvreFilterSwap 4 4, .louvreFilterSwap 1 64, .pageWalk 640 4 1, .pageWalk 4 16384 1, .pageWalk 4 4 72057594037927936,
     .placePiece 4 4, .ctxEnable 16384, .ctxDisable 16384, .ctxRelease 16384, .kickReplay 16384 4 1, .kickReplay 4 1024 1,
     .kickReplay 4 4 1125899906842624, .kickResolve 16384 false 1, .kickResolve 4 false 1125899906842624, .kickDiscard 16384 1,
     .kickDiscard 4 18446744073709551616, .teamResume 4 640, .rasterDrawStart 4 1, .rasterDrawStart 1 4, .fragmentRegister 4 1, .fragmentRegister 1 4,
     .rastTestAndWrite 4 1, .rastTestAndWrite 1 4, .drawEnd 4 1, .drawEnd 1 4, .warmResetRequest 4, .warmResetStart 4, .warmResetQuiesce 4,
     .warmResetRetrain 4, .warmResetAdmit 4, .barchanPublish 4, .xtableEnable 4, .xtableDisable 4, .xtableRefresh 4, .mapStageA 6 4 4,
     .mapStageA 1 12 4, .mapStageA 1 4 4096, .mapStageB 6 4 4, .mapStageB 1 12 4, .mapStageB 0 4 1048576, .mapStageB 5 4 4194304,
     .mapStageB 1 4 262144, .mapApply 6, .mapApplySwitch 6, .caravanMoveStart 6, .caravanPageCopy 6, .caravanMoveEnd 6, .caravanFreetailWrite 6 1,
     .caravanFreetailWrite 1 4294967296].all fun i : Instr => !i.wf) = true := by decide
theorem test_refuses_events_2 :
    ([.caravanEpochEnd 6, .pageCountForward 6, .peerInboundAccess 16 4 (.read 4), .mgmtWriteFlash 2 1, .mgmtWriteFlash 1 65536, .keyGenerate 1024,
     .keyDestroy 1024, .keyQuery 1024, .keyDiscardDone 1024, .keyGenerateComplete 1024, .monitorSample 4 [] [] [], .registerWrite 4 3 4,
     .peerLinkTrain 16 false 4 4, .peerLinkTrain 4 false 5 4, .kickFrameTick 16384, .kickSuspend 16384, .kickResume 16384, .replayBegin 16384,
     .nodeLaunch 16384 4, .nodeBackgroundLaunch 16384 4, .nodeCopy 16384 4, .nodeDraw 16384 4, .nodeSignal 16384 4, .nodeWait 16384 4,
     .waitNodePoll 16384 4, .nodeComplete 16384 4, .frameTick 16384, .budgetExpire 16384, .retireStack 18446744073709551616].all fun i : Instr => !i.wf) = true := by decide

/-! ### Words written out from the encoding tables of the spec -/

def decodesTo (l : List (Nat × Option Nat × Instr)) : Bool :=
  l.all fun x => decide (decode x.1 x.2.1 = .instr x.2.2 (if x.2.1.isSome then 2 else 1)) && decide (encode x.2.2 = x.1 :: x.2.1.toList)
theorem test_decodes_integers_and_modes : decodesTo
    [(0x0400C205, none, .iadd 3 4 5), (0x07488307, none, .icmp false .lt 2 6 7), (0x41284103, none, .fcmp .lt 1 2 3),
     (0x18406960, none, .setmodeImm 6 0x160), (0x06E2048A, none, .intlv3 8 9 10)] = true := by decide
theorem test_decodes_memory : decodesTo
    [(0x80204060, none, .ld 4 2 1 .b32 .normal false), (0x802041E2, none, .ld 4 2 7 .b32 .ef false), (0x80306269, none, .ld 6 3 9 .b64 .normal true),
     (0x84284050, none, .st 5 2 1 .n16 .normal), (0x944000F0, none, .stl 8 0 3 .b128), (0x88200010, none, .lds 2 0 16),
     (0xA82841A0, some 0xF8000007, .atom 5 2 6 .b32 .normal 7 0 .add .int), (0xB43841A0, some 0xF8080000, .redst 7 2 6 .b32 .normal .add .f32)] = true := by
  decide
theorem test_decodes_synchronisation : decodesTo
    [(0xBC000002, none, .fence .die), (0xBC10000C, none, .xfence .copy .rast), (0xBC600093, none, .bcwait 9 3), (0xBC500042, none, .bcinit 4 2),
     (0xBC700005, none, .cpyk 1 5), (0xBD100004, some 0xF8000002, .mbxsend 4 2 false), (0xBD203005, none, .mbxrecv 3 5)] = true := by decide
theorem test_decodes_floats_and_lanes : decodesTo
    [(0x4000C205, none, .fadd 3 4 5), (0x4400C212, none, .cvt 3 4 1 .bf16), (0x48010405, none, .qcvt 8 16 5), (0x48100081, none, .setseed 2 1),
     (0x4C014300, none, .rcp 5 6), (0x50204041, none, .shflUp 1 0 true 1), (0x50C18381, none, .shflXorw 6 7 false 1),
     (0x51624488, none, .redlog 9 9 .fadd)] = true := by decide
theorem test_decodes_control_and_system : decodesTo
    [(0xD4500000, none, .mend), (0xD4600000, none, .mloop), (0xD4100000, none, .exit), (0xD0300000, none, .hret), (0xD0400000, none, .pyield),
     (0xD0200007, none, .trap 7), (0xD0500000, none, .bkpt 0), (0xD0000003, none, .csrr .acclive 3), (0xD0110884, none, .csrw .retirestk 4)] = true := by decide
theorem test_decodes_units : decodesTo
    [(0xC0001442, none, .tdesc 5 4 2), (0xC0224404, none, .mma true 2 16 4), (0xC0711C45, none, .adrain true 7 4 5), (0xC0809204, none, .agdrain 9 8 4),
     (0xC0406808, some 0xF8000030, .mmabs false 3 32 8 48), (0xC4118114, some 0xF8000001, .hgather 20 2 6 1 1),
     (0xC4218118, some 0xF8000001, .hscatter 24 2 6 1 1), (0xC8100304, none, .ordent 6 4), (0xC8600008, none, .regroup 8),
     (0xC8318214, some 0xF800858A, .tsamp 20 4 6 10 11 .b), (0xCC00460A, none, .route 1 12 10), (0xCC10000A, none, .xdone 10)] = true := by decide
theorem test_decodes_header : decodesTo [(0xFC0048CA, none, .clauseStart 1 2 3 10)] = true := by decide
/-- Words of reserved majors, a missing and a stray extension, a field out of its range. -/
theorem test_rejects_words : ([(0xA82841A0, none), (0xF8000007, none), (0x00000000, none), (0x18400000, none)].all fun (x : Nat × Option Nat) =>
    match decode x.1 x.2 with
    | .instr _ _ => false
    | _ => true) = true := by decide
/-! ### States that meet the hypotheses: registers -/

theorem witness_VectorIntegerByElements :
    ∀ i ∈ [Instr.iadd 3 4 5, .isub 3 4 5, .imul 3 4 5, .imulhi 3 4 5, .imulhn 3 4 5, .imad 3 4 5, .ishl 3 4 5, .ishr 3 4 5,
      .isra 3 4 5, .imin 3 4 5, .imax 3 4 5, .iminn 3 4 5, .imaxn 3 4 5, .iabs 3 4, .iaddi 3 4 (-1), .ishli 3 4 5],
      ∃ e, Issues ready i e ∧ GoesOn ready e := all_issue (by decide +kernel)
theorem witness_VectorBitsAndMoves :
    ∀ i ∈ [Instr.iand 3 4 5, .ior 3 4 5, .ixor 3 4 5, .clz 3 4, .popc 3 4, .brev 3 4, .bfe 3 4 5, .bfi 3 4 5, .intlv2 3 4 5,
      .intlv3 3 4 5, .mov 3 4, .movs 3 4 true, .movi 3 (-1), .movhi 3 1, .isel 3 4 true 2, .icmp true .lt 2 6 7],
      ∃ e, Issues ready i e ∧ GoesOn ready e := all_issue (by decide +kernel)
/-- PACKB and PERMB, under ETYPE I8, to which they belong. -/
theorem witness_BytesPackAndPermute :
    ∀ i ∈ [Instr.packb 3 4 5, .permb 3 4 5],
      ∃ e, Issues (readyM 0x000C00AF) i e ∧ GoesOn (readyM 0x000C00AF) e :=
  all_issue (by decide +kernel)
theorem witness_PredicateInstructions :
    ∀ i ∈ [Instr.pand 1 2 3, .por 15 2 3, .pxor 1 2 3, .pandn 1 2 3, .pcnt 4 2, .pfirst 1 2, .ptos 4 2 false, .ptos 4 2 true,
      .stop 1 4 false, .stop 1 4 true, .vote 1 2 .all], ∃ e, Issues ready i e ∧ GoesOn ready e := all_issue (by decide +kernel)
theorem witness_IdentityAndMode :
    (∀ i ∈ [Instr.idx 3 .lin, .sread 3 false .gt, .spanq 3, .mater, .getmode 3, .csrr .acclive 3, .sread 3 true .astat],
      ∃ e, Issues ready i e ∧ GoesOn ready e) ∧
    (∃ e, Issues ready (.setmodeReg 1 4) e ∧ e.canGo ready e.after = true ∧
      (setModeTo e.mode 1 (nfld (e.g.regs.sr 4).toNat 0 32)).isSome = true) ∧
    ∃ e, Issues ready (.setmodeImm 3 0x16) e ∧ e.canGo ready e.after = true ∧
      ((modeImage 3 0x16).bind (setModeTo e.mode 3)).isSome = true :=
  ⟨all_issue (by decide +kernel),
    issues_of (P := fun s e => e.canGo s e.after = true ∧
      (setModeTo e.mode 1 (nfld (e.g.regs.sr 4).toNat 0 32)).isSome = true) (by decide +kernel),
    issues_of (P := fun s e => e.canGo s e.after = true ∧
      ((modeImage 3 0x16).bind (setModeTo e.mode 3)).isSome = true) (by decide +kernel)⟩
/-- The state above with exceptions to take effect at a GT. -/
def lateAt (due : Nat) : State := ready.modGroup 3 fun g => { g with late := [⟨due, excIV, 1, 0, 0, []⟩] }
theorem witness_LateExceptions :
    ((tget (lateAt ready.gt).groups 3).any fun g => g.late.length == 1 && g.late.all fun l => decide (l.due ≤ (lateAt ready.gt).gtOf g.core)) = true ∧
    ((tget (lateAt (ready.gt + 1)).groups 3).any fun g =>
      g.late.length == 1 && g.late.all fun l => decide ((lateAt (ready.gt + 1)).gtOf g.core < l.due)) = true := by
  decide +kernel
theorem witness_LaunchIndex : ∃ e, Issues ready (.idx 3 .lin) e ∧ GoesOn ready e :=
  all_issue (l := [.idx 3 .lin]) (by decide +kernel) _ (List.mem_singleton_self _)
theorem witness_UniformInstructions :
    ∀ i ∈ [Instr.sadd 3 4 5 true, .ssub 3 4 5 false, .smul 3 4 5 true, .smulh 3 4 5 true true, .sand 3 4 5 true, .sor 3 4 5 true,
      .sxor 3 4 5 true, .sshl 3 4 5 true, .sshr 3 4 5 true, .ssra 3 4 5 true, .smin 3 4 5 true true, .smax 3 4 5 false true,
      .scmp 4 5, .ssel 3 4 5 .lo, .smov 3 4, .smovi 3 (-1), .saddImm 3 4 (-1), .smovhi 3 4 1],
      ∃ e, Issues ready i e ∧ GoesOn ready e := all_issue (by decide +kernel)
theorem witness_FrameOfRegisterWrites : ∃ e t, Issues ready (.iadd 3 4 5) e ∧ GoesOn ready e ∧ exec (.iadd 3 4 5) ready = .next t := by
  obtain ⟨e, h, g⟩ := all_issue (s := ready) (l := [.iadd 3 4 5]) (by decide +kernel) _ (List.mem_singleton_self _)
  exact ⟨e, ready.runGroup (.iadd 3 4 5) 3 _, h, g, rfl⟩
theorem witness_FloatInstructions :
    ∀ i ∈ [Instr.fadd 3 4 5, .fsub 3 4 5, .fmul 3 4 5, .fmad 3 4 5, .fmsb 3 4 5, .fmin 3 4 5, .fmax 3 4 5, .fneg 3 4, .fabs 3 4,
      .fclass 3 4, .frndi 3 4, .fscale 3 4 5, .fcmp .lt 2 4 5, .cvt 3 4 0 .bf16, .cvti 3 4 .rz .i32],
      ∃ e, Issues ready i e ∧ GoesOn ready e := all_issue (by decide +kernel)
/-- FDOT2, under a 16-bit float ETYPE, to which it belongs. -/
theorem witness_DotOfPairs : ∀ i ∈ [Instr.fdot2 3 4 5],
    ∃ e, Issues (readyM 0x000C001F) i e ∧ GoesOn (readyM 0x000C001F) e :=
  all_issue (by decide +kernel)
theorem witness_LongFloatAndSeed :
    ∀ i ∈ [Instr.rcp 3 4, .rsq 3 4, .sqrt 3 4, .exp2 3 4, .log2 3 4, .sint 3 4, .cost 3 4, .tanh 3 4, .setseed 4 5],
      ∃ e, Issues ready i e ∧ GoesOn ready e := all_issue (by decide +kernel)
/-- QCVT, under an 8-bit float ETYPE, to which it belongs. -/
theorem witness_QcvtIssues : ∀ i ∈ [Instr.qcvt 8 16 5],
    ∃ e, Issues (readyM 0x000C003F) i e ∧ GoesOn (readyM 0x000C003F) e :=
  all_issue (by decide +kernel)
theorem witness_CrossLaneInstructions :
    ∀ i ∈ [Instr.shflIdx 3 4 true 5, .shflUp 3 4 true 1, .shflDn 3 4 false 1, .shflXor 3 4 true 1, .shflUpw 3 4 true 1,
      .shflDnw 3 4 true 1, .shflXorw 3 4 true 1, .qswap 3 4 .d, .qddx 3 4 true, .qddy 3 4 false, .redlog 3 4 .fadd,
      .scanlog 3 4 true .iadd, .rdfirst 3 4 true, .rdlane 3 4 5, .ballot 4 2, .vmatch 4 6, .vmatchf 4 6],
      ∃ e, Issues ready i e ∧ GoesOn ready e := all_issue (by decide +kernel)
/-! ### States that meet the hypotheses: control and traps -/

/-- The last word of its clause, with registers changed. -/
def lastR (f : Regs → Regs) : State := last.modRegs 3 f
/-- The last word of its clause, with a mask stack, and active lanes 0 to 31. -/
def lastS (l : List MaskEntry) : State := last.modGroup 3 fun g => { g with stack := l, active := 0xFFFFFFFF }
def goesTo (s : State) (e : GI) (h : Nat) : Bool := e.canGo s ⟨h, 0⟩
def half : Mask := 0xFFFFFFFF
def full : Mask := 0xFFFFFFFFFFFFFFFF

/-- At its header, with flag 0 clear. -/
def atHeader : State := readyG fun g => { g with ctl := { g.ctl with pos := ⟨0x10000, 0⟩ } }
theorem witness_ClauseHeaderEnters :
    ∃ e, Issues atHeader (.clauseStart 1 0 6 10) e ∧ e.g.ctl.pos.k = 0 ∧ e.preDue atHeader = false ∧
      ∀ k < 12, nbit 1 k = true → e.g.flags.getD k 0 = 0 := by
  obtain ⟨e, h, h1, h2, h3⟩ := issues_of (i := .clauseStart 1 0 6 10)
    (P := fun s e => e.g.ctl.pos.k = 0 ∧ e.preDue s = false ∧ ∀ k ∈ List.range 12, nbit 1 k = true → e.g.flags.getD k 0 = 0)
    (by decide +kernel : issues atHeader _ _ = true)
  exact ⟨e, h, h1, h2, fun k hk => h3 k (List.mem_range.mpr hk)⟩
/-- Both ways of each branch: the list gives the instruction, its state, and whether its target is taken. -/
def branchCases : List Case :=
  [(.bra .al 2, last, fun s e => Cond.al.holds e.g.regs.cc && goesTo s e (e.target 2)),
   (.bra .eq 2, last, fun s e => !Cond.eq.holds e.g.regs.cc && e.canGo s e.after),
   (.brz 2 2, last, fun s e => e.g.regs.pr 2 &&& e.g.active == 0 && goesTo s e (e.target 2)),
   (.brz 15 2, last, fun s e => e.g.regs.pr 15 &&& e.g.active != 0 && e.canGo s e.after),
   (.brnz 15 0, last, fun s e => e.g.regs.pr 15 &&& e.g.active != 0 && goesTo s e (e.target 0)),
   (.brnz 2 0, last, fun s e => e.g.regs.pr 2 &&& e.g.active == 0 && e.canGo s e.after),
   (.call 0, last, fun s e => addrOk (BitVec.ofNat 64 (e.target 0)) && goesTo s e (e.target 0)),
   (.ret, lastR (sset 63 0x10008), fun s e => addrOk (e.g.regs.sr 63) && goesTo s e (e.g.regs.sr 63).toNat),
   (.jmps 4, lastR (sset 4 0x10008), fun s e => addrOk (e.g.regs.sr 4) && goesTo s e (e.g.regs.sr 4).toNat),
   (.nop, ready, fun s e => e.canGo s e.after)]
theorem witness_BranchesAndCalls : ∀ x ∈ branchCases, ∃ e, Issues x.2.1 x.1 e ∧ x.2.2 x.2.1 e = true :=
  all_cases (by decide +kernel)
/-- Each case of the mask instructions. -/
def maskCases : List Case :=
  [(.mif 15 2, last, fun s e => decide (e.g.stack.length < 16) && e.g.active &&& e.g.regs.pr 15 != 0 && e.canGo s e.after),
   (.mif 2 2, last, fun s e => decide (e.g.stack.length < 16) && e.g.active &&& e.g.regs.pr 2 == 0 && goesTo s e (e.target 2)),
   (.melse 2, lastS [⟨full, modeEntry, .ifK, 0⟩], fun s e => full &&& ~~~e.g.active != 0 && e.canGo s e.after),
   (.melse 2, lastS [⟨half, modeEntry, .ifK, 0⟩], fun s e => half &&& ~~~e.g.active == 0 && goesTo s e (e.target 2)),
   (.mend, lastS [⟨full, modeEntry, .elseK, 0⟩], fun s e => e.canGo s e.after),
   (.mloop, last, fun s e => decide (e.g.stack.length < 15) && e.canGo s e.after),
   (.mendl 0, lastS [⟨full, modeEntry, .loopB, 0⟩, ⟨half, modeEntry, .loopC, 0⟩], fun s e => half != 0 && goesTo s e (e.target 0)),
   (.mendl 0, lastS [⟨full, modeEntry, .loopB, 0⟩, ⟨0, modeEntry, .loopC, 0⟩], fun s e => e.canGo s e.after),
   (.mbrk 2 2, lastS [⟨full, modeEntry, .loopB, 0⟩, ⟨half, modeEntry, .loopC, 0⟩], fun s e => e.g.active &&& ~~~(e.g.regs.pr 2) != 0 && e.canGo s e.after),
   (.mbrk 15 2, lastS [⟨full, modeEntry, .loopB, 0⟩, ⟨half, modeEntry, .loopC, 0⟩], fun s e =>
     e.g.active &&& ~~~(e.g.regs.pr 15) == 0 && half &&& ~~~e.g.active == 0 && goesTo s e (e.target 2)),
   (.mcont 2 2, lastS [⟨full, modeEntry, .loopB, 0⟩, ⟨half, modeEntry, .loopC, 0⟩], fun s e => e.g.active &&& ~~~(e.g.regs.pr 2) != 0 && e.canGo s e.after),
   (.mcont 15 2, lastS [⟨full, modeEntry, .loopB, 0⟩, ⟨half, modeEntry, .loopC, 0⟩], fun s e =>
     e.g.active &&& ~~~(e.g.regs.pr 15) == 0 && goesTo s e (e.target 2))]
theorem witness_MaskInstructions : ∀ x ∈ maskCases, ∃ e, Issues x.2.1 x.1 e ∧ x.2.2 x.2.1 e = true :=
  all_cases (by decide +kernel)
/-- Whether a trap to level S would be taken at once. -/
def takes (s : State) (e : GI) (t : TrapRec) : Bool :=
  e.g.ctl.level == .u && e.g.quiet && e.g.ctl.desched == none && e.handlerOk (e.withTrap s t)
/-- EXIT, traps, HRET and PYIELD. -/
def systemCases : List Case :=
  [(.exit, last, fun _ e => e.g.stack == [] && e.g.sect == none),
   (.exit, lastS [⟨full, modeEntry, .ifK, 0⟩], fun s e => full &&& ~~~e.g.active != 0 && e.g.sect == none && e.canGo s e.after),
   (.trapu 7, last, fun s e => takes s e ⟨.user, 7, 0, 0, ⟨e.g.ctl.nextHeader, 0⟩, false⟩),
   (.bkpt 7, ready, fun s e => takes s e ⟨.bkpt, 7, 0, 0, e.g.ctl.pos, false⟩),
   (.trap 7, readyG fun g => { g with ctl := { g.ctl with level := .s } }, fun _ e => e.g.quiet && e.g.ctl.desched == none),
   (.hret, readyG fun g => { g with ctl := { g.ctl with level := .s }, bankS := { g.bankS with plev := .u, resume := BitVec.ofNat 64 (0x10000 * 64 + 1) } },
     fun s e => e.g.redo == none && e.g.flagsClear && match e.fetch s e.bank.plev (Pos.ofWord e.bank.resume.toNat).h with
       | .word w => isHeader w && decide ((Pos.ofWord e.bank.resume.toNat).k ≤ nfld w 0 6)
       | _ => false),
   (.pyield, ready, fun s e => e.g.ctl.pre == .run && e.canGo s e.after),
   (.pyield, readyG fun g => { g with ctl := { g.ctl with pre := .handler } }, fun _ e => e.g.ctl.pre == .handler && e.g.ctl.level == .u)]
theorem witness_ExitTrapsAndReturns : ∀ x ∈ systemCases, ∃ e, Issues x.2.1 x.1 e ∧ x.2.2 x.2.1 e = true :=
  all_cases (by decide +kernel)
/-- TRAP at level U is refused as privileged, and the handler takes the trap; a header of LEN 0; RET before its clause's end. -/
theorem witness_RefusedInstructionTraps :
    ((ready.gi 3 (.trap 7)).any fun e => e.g.ready (.trap 7) && e.g.ctl.hold == none && e.g.ctl.owed == [] && e.check ready == some .priv &&
      takes ready e ⟨.priv, e.word, 0, 0, e.g.ctl.pos, false⟩) = true := by decide +kernel
theorem witness_TrapWaitsForFlags :
    (((readyG fun g => { g with flags := g.flags.set 0 1 }).gi 3 .nop).any fun e => e.g.ctl.level == .u && !e.g.quiet) = true ∧
    (((readyG fun g => { g with late := [⟨ready.gt + 4, excIV, 1, 0x10000, 0, []⟩] }).gi 3 .nop).any fun e => e.g.ctl.level == .u && !e.g.quiet) = true := by
  decide +kernel
theorem witness_ClauseRules :
    ((State.reset.withFetchWord 32 0xFC000000).tick.gi 3 .nop).any (fun e => e.g.free && decide (e.g.ctl.pos = ⟨0x10000, 0⟩) &&
      decide (e.fetch (State.reset.withFetchWord 32 0xFC000000).tick .u 0x10000 = .word 0xFC000000)) = true ∧
    (ready.gi 3 .ret).any (fun e => e.g.ready .ret && e.g.ctl.hold == none && e.g.ctl.owed == [] &&
      decide (e.g.ctl.pos.k ≠ e.g.ctl.len)) = true := by decide +kernel

/-! ### States that meet the hypotheses: memory, waits and commands -/

/-- Instructions with the plans of their accesses. -/
abbrev AccessCase := Instr × (GI → Plan)
theorem all_access {s : State} {l : List AccessCase} (h : l.all (fun x => accesses s x.1 x.2) = true) :
    ∀ x ∈ l, ∃ e ts sp s1, Issues s x.1 e ∧ GoesOn s e ∧ e.mayAccess s (x.2 e) (.go ts sp, s1) :=
  fun x hx => accesses_of (List.all_eq_true.mp h x hx)
theorem witness_GlobalLoadsAndStores :
    ∀ x ∈ ([(.ld 4 2 1 .b32 .normal false, fun e => planGlobal .b32 false false true 1 .normal .load (e.g.regs.sr 2) (e.g.regs.vr 1) (fun _ => []) e.lanes),
      (.ld 4 2 1 .b64 .ef true, fun e => planGlobal .b64 false true true 1 .ef .load (e.g.regs.sr 2) (e.g.regs.vr 1) (fun _ => []) e.lanes),
      (.st 5 2 1 .n16 .normal, fun e => planGlobal .n16 true false true 2 .normal .store (e.g.regs.sr 2) (e.g.regs.vr 1) (e.dataOf .n16 5) e.storeLanes),
      (.lds 3 2 16, fun e => planOnce false 1 .load (globalAddr (e.g.regs.sr 2) ((16 : Int) % 2 ^ 56).toNat) (canonical (e.g.regs.sr 2)) [] e.once),
      (.sts 3 2 16, fun e => planOnce true 2 .store (globalAddr (e.g.regs.sr 2) ((16 : Int) % 2 ^ 56).toNat) (canonical (e.g.regs.sr 2)) (toBytes 8 (e.g.regs.sr 3).toNat) e.onceStore)]
      : List AccessCase), ∃ e ts sp s1, Issues oneLane x.1 e ∧ GoesOn oneLane e ∧ e.mayAccess oneLane (x.2 e) (.go ts sp, s1) :=
  all_access (by decide +kernel)
theorem witness_GlobalAtomicsAndTags :
    ∀ x ∈ ([(.atom 5 2 6 .b32 .normal 7 0 .add .int, fun e => planGlobal .b32 true false true 3 .normal (.atomic .add .int 0) (e.g.regs.sr 2) (e.g.regs.vr 6) (e.atomData .b32 7 0) e.storeLanes),
      (.redst 5 2 6 .b32 .normal .add .f32, fun e => planGlobal .b32 true false true 3 .normal (.reduce .add .f32) (e.g.regs.sr 2) (e.g.regs.vr 6) (e.dataOf .b32 5) e.storeLanes),
      (.tagset 4 1 2, fun e => planGlobal .i8 true false false 2 .normal (.tagSet 0) (e.g.regs.sr 2) (e.g.regs.vr 1) (fun l => [BitVec.ofNat 8 ((e.g.regs.vl 4 l).toNat % 16)]) e.storeLanes),
      (.tagget 4 1 2, fun e => planGlobal .i8 false false false 1 .normal .tagGet (e.g.regs.sr 2) (e.g.regs.vr 1) (fun _ => []) e.lanes),
      (.acqw 3 2, fun e => planOnce false 1 .load (globalAddr (e.g.regs.sr 2) 0) (canonical (e.g.regs.sr 2)) [] e.once)]
      : List AccessCase), ∃ e ts sp s1, Issues oneLane x.1 e ∧ GoesOn oneLane e ∧ e.mayAccess oneLane (x.2 e) (.go ts sp, s1) :=
  all_access (by decide +kernel)
theorem witness_PrivateAndScratchpad :
    ∀ x ∈ ([(.ldp 4 2 1 .b32 .normal, fun e => planPriv .b32 false 1 .normal .load (e.g.regs.sr 2) (e.g.regs.sr 60) (e.g.regs.vr 1) e.launch.priv (fun _ => []) e.lanes),
      (.stp 4 2 1 .b32 .normal, fun e => planPriv .b32 true 2 .normal .store (e.g.regs.sr 2) (e.g.regs.sr 60) (e.g.regs.vr 1) e.launch.priv (e.dataOf .b32 4) e.storeLanes),
      (.ldc 4 2 1 .b32, fun e => planFlat .scr .b32 false 1 .load (e.g.regs.sr 2) (e.g.regs.vr 1) e.launch.scrBytes (fun _ => []) e.lanes),
      (.stc 4 2 1 .b32, fun e => planFlat .scr .b32 true 2 .store (e.g.regs.sr 2) (e.g.regs.vr 1) e.launch.scrBytes (e.dataOf .b32 4) e.storeLanes),
      (.atomc 5 2 6 7 0 .add .int, fun e => planFlat .scr .b32 true 3 (.atomic .add .int 0) (e.g.regs.sr 2) (e.g.regs.vr 6) e.launch.scrBytes (e.atomData .b32 7 0) e.storeLanes),
      (.redc 5 2 6 .add .int, fun e => planFlat .scr .b32 true 3 (.reduce .add .int) (e.g.regs.sr 2) (e.g.regs.vr 6) e.launch.scrBytes (e.dataOf .b32 5) e.storeLanes)]
      : List AccessCase), ∃ e ts sp s1, Issues oneLane x.1 e ∧ GoesOn oneLane e ∧ e.mayAccess oneLane (x.2 e) (.go ts sp, s1) :=
  all_access (by decide +kernel)
theorem witness_LocalAndCacheOperations :
    (∀ x ∈ ([(.ldl 4 2 1 .b32, fun e => planFlat .loc .b32 false 1 .load (e.g.regs.sr 2) (e.g.regs.vr 1) e.team.size (fun _ => []) e.lanes),
      (.stl 4 2 1 .b32, fun e => planFlat .loc .b32 true 2 .store (e.g.regs.sr 2) (e.g.regs.vr 1) e.team.size (e.dataOf .b32 4) e.storeLanes),
      (.atoml 5 2 6 .b32 7 0 .add .int, fun e => planFlat .loc .b32 true 3 (.atomic .add .int 0) (e.g.regs.sr 2) (e.g.regs.vr 6) e.team.size (e.atomData .b32 7 0) e.storeLanes),
      (.cacheop .clean 1 2, fun e => planGlobal .i8 false false true 1 .na .load (e.g.regs.sr 2) (e.g.regs.vr 1) (fun _ => []) e.storeLanes)]
      : List AccessCase), ∃ e ts sp s1, Issues oneLane x.1 e ∧ GoesOn oneLane e ∧ e.mayAccess oneLane (x.2 e) (.go ts sp, s1)) ∧
    ∀ i ∈ [Instr.pref .normal .l1 1 2], ∃ e, Issues oneLane i e ∧ GoesOn oneLane e :=
  ⟨all_access (by decide +kernel), all_issue (by decide +kernel)⟩
/-- One lane at an odd address. -/
def oddLane : State := oneLane.modRegs 3 (sset 2 1)
/-- A misaligned plan whose trap can be taken at once. -/
def misIssues (i : Instr) (acc : Nat) (p : GI → Plan) : Case :=
  (i, oddLane, fun s e => e.g.redo == none && !((p e).tags && s.tagsPending e.gid s.nextId) && match (p e).misaligned with
    | x :: _ => takes s e (e.misTrap acc (p e) x.1)
    | [] => false)
def misCases : List Case :=
  [misIssues (.atom 4 2 6 .b64 .normal 8 0 .add .int) 3 fun e =>
      planGlobal .b64 true false true 3 .normal (.atomic .add .int 0) (e.g.regs.sr 2) (e.g.regs.vr 6) (e.atomData .b64 8 0) e.storeLanes,
   misIssues (.atoml 5 2 6 .b32 7 0 .add .int) 3 fun e =>
      planFlat .loc .b32 true 3 (.atomic .add .int 0) (e.g.regs.sr 2) (e.g.regs.vr 6) e.team.size (e.atomData .b32 7 0) e.storeLanes,
   misIssues (.atomc 5 2 6 7 0 .add .int) 3 fun e =>
      planFlat .scr .b32 true 3 (.atomic .add .int 0) (e.g.regs.sr 2) (e.g.regs.vr 6) e.launch.scrBytes (e.atomData .b32 7 0) e.storeLanes,
   misIssues (.redst 5 2 6 .b32 .normal .add .f32) 3 fun e =>
      planGlobal .b32 true false true 3 .normal (.reduce .add .f32) (e.g.regs.sr 2) (e.g.regs.vr 6) (e.dataOf .b32 5) e.storeLanes,
   misIssues (.redc 5 2 6 .add .int) 3 fun e =>
      planFlat .scr .b32 true 3 (.reduce .add .int) (e.g.regs.sr 2) (e.g.regs.vr 6) e.launch.scrBytes (e.dataOf .b32 5) e.storeLanes,
   misIssues (.pubw 4 2) 2 fun e =>
      planOnce true 2 .store (globalAddr (e.g.regs.sr 2) 0) (canonical (e.g.regs.sr 2)) (toBytes 8 (e.g.regs.sr 4).toNat) e.onceStore,
   misIssues (.acqw 3 2) 1 fun e => planOnce false 1 .load (globalAddr (e.g.regs.sr 2) 0) (canonical (e.g.regs.sr 2)) [] e.once,
   misIssues (.rbox 20 4 2 10) 1 fun e => planRecs (e.g.regs.sr 2) (fun l => (e.g.regs.vl 10 l).toNat) e.lanes,
   misIssues (.rtri 20 4 2 10 .none) 1 fun e => planRecs (e.g.regs.sr 2) (fun l => (e.g.regs.vl 10 l).toNat) e.lanes,
   misIssues (.tsamp 20 4 2 10 11 .b) 1 fun e => e.recPlan 2 10,
   (.draw 3 2 0 true, oddLane, fun s e => e.g.active &&& ~~~e.g.helpers != 0 && vaOf (globalAddr (e.g.regs.sr 2) 0) % 64 != 0 &&
      takes s e ⟨.misalign, 1, vaOf (globalAddr (e.g.regs.sr 2) 0), lowLane e.g.active, e.g.ctl.pos, false⟩)]
theorem witness_MisalignedAccessTraps : ∀ x ∈ misCases, ∃ e, Issues x.2.1 x.1 e ∧ x.2.2 x.2.1 e = true :=
  all_cases (by decide +kernel)
/-- What an outcome of a read is. -/
def reads {α β : Type} (r : (Except β α) × State) : Bool :=
  match r.1 with
  | .ok _ => true
  | _ => false
/-- The placed machine at a time when nothing is recent. -/
def late : State := { ready with gt := 100 }
/-- The placed machine whose team has two groups. -/
def pair : State := { readyT (fun t => { t with groups := 2 }) with gt := 100 }
/-- Fences and barriers: going on at once, and being held. -/
def fenceCases : List Case :=
  [(.fence .package, late, fun s e => e.canGo s e.after && e.fenced s .package),
   (.fence .die, readyG fun g => { g with maxW := g.maxW.set 0 50 }, fun s e => !e.fenced s .die),
   (.xfence .copy .tex, late, fun s e => e.canGo s e.after && e.fenced s .package && e.pathDone s .tex),
   (.xfence .copy .tex, ready, fun s e => !e.fenced s .package || !e.pathDone s .tex),
   (.bar 2 1, pair, fun s e => decide (2 ≤ e.team.groups) && e.fenced s .team && !(s.work.arrives.any fun a => a.2.gid == e.gid) && s.barAgrees e.g.team (e.barOf s 1) 2 &&
     !e.arrived s 1 && e.arrived (s.barArrive e.g.team e.g.num 1 2) 1),
   (.bar 1 15, late, fun s e => decide (1 ≤ e.team.groups) && e.fenced s .team && !(s.work.arrives.any fun a => a.2.gid == e.gid) && s.barAgrees e.g.team (e.barOf s 15) 1 &&
     !e.arrived s 15 && !e.arrived (s.barArrive e.g.team e.g.num 15 1) 15 && e.canGo s e.after),
   (.bararr 2 1, pair, fun s e => e.canGo s e.after && decide (2 ≤ e.team.groups) && !e.arrived s 1 && s.barAgrees e.g.team (e.barOf s 1) 2),
   (.barwait 1, pair, fun _ _ => true)]
/-- The group held by an instruction, with what the model keeps of its wait. -/
def heldBy (i : Instr) (arg : List Nat) : State := late.modCtl 3 fun c => { c with hold := some i, holdArg := arg }
def resumeCases : List Case :=
  [(.fence .package, heldBy (.fence .package) [], fun s e => e.canGo s e.after && e.fenced s .package),
   (.xfence .copy .tex, heldBy (.xfence .copy .tex) [], fun s e => e.canGo s e.after && e.fenced s .package && e.pathDone s .tex),
   (.bar 2 1, heldBy (.bar 2 1) [2], fun s e => e.canGo s e.after && e.g.ctl.holdArg == [2]),
   (.barwait 1, heldBy (.barwait 1) [2], fun s e => e.canGo s e.after && e.g.ctl.holdArg == [2])]
theorem witness_FencesAndBarriers :
    (∀ x ∈ fenceCases, ∃ e, Issues x.2.1 x.1 e ∧ x.2.2 x.2.1 e = true) ∧
    ∀ x ∈ resumeCases, ∃ e, Resumes x.2.1 x.1 e ∧ x.2.2 x.2.1 e = true :=
  ⟨all_cases (by decide +kernel), all_resume (by decide +kernel)⟩
/-- Byte-count barriers, copies, placement, publication, mailboxes and children. -/
def queueCases : List Case :=
  [(.bcinit 4 2, ready, fun s e => e.canGo s e.after && decide (-(2 ^ 39 : Int) ≤ (e.g.regs.sr 4).toInt ∧ (e.g.regs.sr 4).toInt < (2 ^ 39 : Int))),
   (.cpyk 4 5, ready, fun s e => e.canGo s e.after && e.localOk (e.g.regs.sr 5).toNat (64 * 4)),
   (.bcwait 9 3, readyT fun t => { t with bcs := t.bcs.set 3 { BcSlot.reset with init := true } }, fun s e => e.canGo s e.after &&
     (tget s.teams e.g.team).any fun t => (t.bc 3).init && decide ((t.bc 3).count ≤ 0)),
   (.bcwait 9 3, ready, fun s e => (tget s.teams e.g.team).any fun t => !(t.bc 3).init),
   (.claim 3 4 5, ready, fun s e => e.canGo s e.after),
   (.pin 3 4, ready, fun s e => e.canGo s e.after && reads (e.readBlock s (e.g.regs.sr 4) 32 true)),
   (.unpin 3 4, ready, fun s e => e.canGo s e.after),
   (.pubw 4 5, oneLane, fun s e => e.canGo s e.after && e.g.redo == none && !s.tagsPending e.gid s.nextId &&
     passes (e.checked s (planOnce true 2 .store (globalAddr (e.g.regs.sr 5) 0) (canonical (e.g.regs.sr 5)) (toBytes 8 (e.g.regs.sr 4).toNat) e.onceStore))),
   (.mbxsend 4 2 true, ready, fun s e => e.canGo s e.after && e.localOk (e.g.regs.sr 4).toNat 64),
   (.mbxrecv 3 5, ready, fun _ e => e.localOk (e.g.regs.sr 5).toNat 64),
   (.spawn 3 4 5 true 1, ready, fun s e => e.canGo s e.after && spawnAddr (e.g.regs.sr 4) % 64 == 0 && spawnAddr (e.g.regs.sr 5) % 8 == 0),
   (.spawn 3 4 5 false 0, readyR (sset 4 (2 ^ 60)), fun s e => e.canGo s e.after && spawnAddr (e.g.regs.sr 4) % 64 == 0)]
theorem witness_QueuedInstructions : ∀ x ∈ queueCases, ∃ e, Issues x.2.1 x.1 e ∧ x.2.2 x.2.1 e = true :=
  all_cases (by decide +kernel)
/-- A tile descriptor's first word (R245): base, rows, columns, stride, format, transposition. -/
def tileLo (base rows cols stride fmt tr : Nat) : Nat :=
  base + 2 ^ 20 * (rows - 1) + 2 ^ 28 * (cols - 1) + 2 ^ 36 * stride + 2 ^ 52 * fmt + 2 ^ 56 * tr
def tset (n lo hi : Nat) (r : Regs) : Regs := r.setT n (BitVec.ofNat 128 (lo + 2 ^ 64 * hi))
def oTile (fmt : Nat) (tr : Nat) : Nat := tileLo 0 64 64 256 fmt tr
/-- The A tile's registers and a B tile of BF16 for MODE's reset MFMT, and one with a scale vector behind it. -/
def readyB : State := readyR (tset 2 (tileLo 0 64 32 64 0 0) 0)
def readyP : State :=
  let s := readyB.modLaunch 1 fun l => { l with gx := 2, coresident := true }
  match tget s.teams 2 with
  | some t => { s with teams := tput s.teams 9 { t with tx := 1, core := 1 } }
  | none => s
def readyQ : State := readyR fun r => { tset 2 (tileLo 0 64 128 64 4 0) 4096 r with mode := 0x000C800F }
def matrixCases : List Case :=
  [(.tdesc 5 4 2, readyR (sset 4 (oTile 6 0)), fun s e => e.canGo s e.after &&
      (let x : Tile := BitVec.ofNat 128 ((e.g.regs.sr 4).toNat + 2 ^ 64 * (e.g.regs.sr 5).toNat)
       !Tile.bad x && !(Tile.fmt x == 4 && Tile.tr x))),
   (.azero 4, ready, fun s e => e.canGo s e.after),
   (.amov 3 4, ready, fun s e => e.canGo s e.after),
   (.aload 2 4, readyR (tset 2 (oTile 6 0) 0), fun s e => e.canGo s e.after && Tile.fmt (e.g.regs.tr 2) == 6 &&
      Tile.rows (e.g.regs.tr 2) == 64 && Tile.cols (e.g.regs.tr 2) == 64 && Tile.inside (e.g.regs.tr 2) e.team.size),
   (.mma true 2 16 4, readyB, fun s e => e.canGo s e.after && bTileOk (mMfmt e.mode) (e.g.regs.tr 2) && Tile.inside (e.g.regs.tr 2) e.team.size),
   (.mmap false 2 16 4, readyP, fun s e => e.canGo s e.after && bTileOk (mMfmt e.mode) (e.g.regs.tr 2) && Tile.inside (e.g.regs.tr 2) e.team.size &&
      e.g.core % 2 == 0 && e.launch.coresident && e.team.linear e.launch % 2 == 0 && (e.partner s).isSome),
   (.mmabs true 2 16 4 32, readyQ, fun s e => e.canGo s e.after && bTileOk (mMfmt e.mode) (e.g.regs.tr 2) &&
      Tile.inside (e.g.regs.tr 2) e.team.size && decide (Tile.scale (e.g.regs.tr 2) + 1024 ≤ e.team.size)),
   (.adrain true 7 4 5, readyR (tset 5 (oTile 1 0) 0), fun s e => e.canGo s e.after && Tile.rows (e.g.regs.tr 5) == 64 &&
      Tile.cols (e.g.regs.tr 5) == 64 && Tile.fmt (e.g.regs.tr 5) == 1 && Tile.inside (e.g.regs.tr 5) e.team.size),
   (.astash 4 6 5, readyR fun r => tset 6 (oTile 0 1) 0 (tset 5 (oTile 0 0) 0 r), fun s e => e.canGo s e.after && Tile.fmt (e.g.regs.tr 5) == 0 &&
      Tile.fmt (e.g.regs.tr 6) == 0 && !Tile.tr (e.g.regs.tr 5) && Tile.tr (e.g.regs.tr 6) && Tile.rows (e.g.regs.tr 5) == 64 &&
      Tile.cols (e.g.regs.tr 5) == 64 && Tile.rows (e.g.regs.tr 6) == 64 && Tile.cols (e.g.regs.tr 6) == 64 &&
      Tile.inside (e.g.regs.tr 5) e.team.size && Tile.inside (e.g.regs.tr 6) e.team.size),
   (.agdrain 9 8 4, oneLane, fun s e => e.canGo s e.after && e.g.redo == none &&
      passes (e.checked s (planRows (e.g.regs.sr 8) (e.g.regs.vr 9) e.storeLanes)))]
theorem witness_MatrixInstructions : ∀ x ∈ matrixCases, ∃ e, Issues x.2.1 x.1 e ∧ x.2.2 x.2.1 e = true :=
  all_cases (by decide +kernel)
/-- A grid descriptor of one level in two dimensions, of one feature and two entries, at resolution 1.0 (R259). -/
def gridBytes : List Byte := [1, 2, 0, 0, 1, 0, 0, 0] ++ toBytes 8 0 ++ toBytes 8 0 ++ toBytes 8 0 ++ toBytes 4 0x3F800000 ++ List.replicate 92 0
/-- The placed machine with that descriptor at address 0. -/
def gridded : State := ready.placeLine placeData gridBytes
/-- Whether a hash instruction may issue. -/
def gridOk (s : State) (e : GI) (d a sr l0 n : Nat) (scatter : Bool) : Bool :=
  match e.grid s (e.g.regs.sr sr) with
  | (.ok b, _) => (e.g.regs.sr sr).toNat % 128 == 0 && gridStatus b e.launch.scrBytes == 0 && decide (l0 + n ≤ (Grid.ofBytes b).levels) &&
      decide (a + (Grid.ofBytes b).dim ≤ e.g.nregs) && decide (d + n * (Grid.ofBytes b).f ≤ e.g.nregs) && e.g.tags == [] &&
      !(hashReads d a n (Grid.ofBytes b) scatter).isEmpty
  | _ => false
def texOk (s : State) (e : GI) (c sr x l : Nat) (md : TMode) : Bool :=
  match e.checked s (e.recPlan sr x) with
  | (.go ts _, s1) =>
      let z := s1.readRecs e.g.core e.ctx ts
      !(ts.any fun t => s1.spaceOf t.2.pa == none) && !(ts.any fun t => s1.reachFor e.die t.2.pa == .wait) &&
      decide (c + recNeed z.1 ≤ e.g.nregs) && !(z.1.any fun t => t.2 == .waits) && e.g.tags == [] && passes (e.checked z.2 (texPlan (e.texels z.1 c l md)))
  | _ => false
def none4 : Await := ⟨[], [], [], 0⟩
/-- An operation of group 3. -/
def opOf (i : Instr) (st : OpSt) : Op :=
  { gid := 3, team := 2, core := 0, instr := i, flag := 0, pos := ⟨0x10000, 1⟩, mode := modeEntry, lanes := 0, wlanes := 0, svals := [],
    vvals := [], tile := [], writes := [], exc := 0, excLanes := 0, st := st, at_ := 0, w := 0, await := none4, misc := [], user := true }
/-- Whether DRAW's descriptor may be read, and then a condition. -/
def drawOk (s : State) (e : GI) (a : Nat) (p : State → Bool) : Bool :=
  e.g.active &&& ~~~e.g.helpers != 0 && vaOf (globalAddr (e.g.regs.sr a) 0) % 64 == 0 && !s.tagsPending e.gid s.nextId &&
  match e.checked s (blockPlan (e.g.regs.sr a) 64 ((lanesOf (lowLane e.g.active)).headD 0) true) with
  | (.go _ _, s1) => p s1
  | _ => false
def unitCases : List Case :=
  [(.hcfg 4 5, gridded, fun s e => e.canGo s e.after && (e.g.regs.sr 5).toNat % 128 == 0 && reads (e.readBlock s (e.g.regs.sr 5) 128 false)),
   (.hgather 20 2 6 0 1, gridded, fun s e => e.canGo s e.after && gridOk s e 20 2 6 0 1 false),
   (.hscatter 24 2 6 0 1, gridded, fun s e => e.canGo s e.after && gridOk s e 24 2 6 0 1 true),
   (.draw 3 4 0 true, { oneLane with gt := 100 }, fun s e => e.canGo s e.after && drawOk s e 4 fun s1 => s1.released e.die (s.awaitOf e.gid Instr.writesMem) &&
     reads (s1.readVia (some (.l1 e.g.core)) (coreTlb e.g.core) e.die e.ctx (e.g.ctl.level == .u) (vaOf (globalAddr (e.g.regs.sr 4) 0)) 64)),
   (.draw 3 4 0 true, { oneLane with work := { oneLane.work with ops := [(50, opOf (.st 5 2 1 .n16 .normal) .reqs)] } }, fun s e =>
     e.canGo s e.after && drawOk s e 4 fun s1 => !s1.released e.die (s.awaitOf e.gid Instr.writesMem)),
   (.draw 3 4 0 true, lastS [⟨half, modeEntry, .ifK, 0⟩] |>.modGroup 3 fun g => { g with active := 0 },
     fun s e => e.canGo s e.after && e.g.active &&& ~~~e.g.helpers == 0),
   (.tsamp 20 4 6 10 11 .b, oneLane, fun s e => e.canGo s e.after && texOk s e 4 6 10 11 .b),
   (.rbox 20 4 6 10, oneLane, fun s e => e.canGo s e.after && e.g.redo == none &&
     passes (e.checked s (planRecs (e.g.regs.sr 6) (fun l => (e.g.regs.vl 10 l).toNat) e.lanes))),
   (.rtri 20 4 6 10 .none, oneLane, fun s e => e.canGo s e.after && e.g.redo == none &&
     passes (e.checked s (planRecs (e.g.regs.sr 6) (fun l => (e.g.regs.vl 10 l).toNat) e.lanes))),
   (.ordent 4 6, ready, fun _ e => e.g.sect == none),
   (.ordexit, ready, fun s e => e.canGo s e.after),
   (.regroup 8, ready, fun _ e => e.g.stack == [] && e.g.helpers == 0 && e.g.sect == none),
   (.route 1 12 10, ready, fun s e => e.canGo s e.after),
   (.xdone 10, ready, fun s e => e.canGo s e.after),
   (.csrw .lossx 4, readyG fun g => { g with ctl := { g.ctl with level := .s } }, fun s e => e.canGo s e.after)]
theorem witness_UnitInstructions :
    (∀ x ∈ unitCases, ∃ e, Issues x.2.1 x.1 e ∧ x.2.2 x.2.1 e = true) ∧
    ∃ e, Resumes (heldBy (.regroup 8) [2, 0]) (.regroup 8) e ∧
      (e.canGo (heldBy (.regroup 8) [2, 0]) e.after && e.g.ctl.holdArg == [2, 0] && decide (0 + 2 < (heldBy (.regroup 8) [2, 0]).gtOf e.g.core)) = true :=
  ⟨all_cases (by decide +kernel), resumes_of (P := fun s e => (e.canGo s e.after && e.g.ctl.holdArg == [2, 0] && decide (0 + 2 < s.gtOf e.g.core)) = true)
    (by decide +kernel)⟩

/-! ### States that meet the hypotheses: events -/

/-- States with power that meet their conditions. -/
abbrev EventCase := State × (State → Bool)
def occur (l : List EventCase) : Prop := ∀ x ∈ l, x.1.power = true ∧ x.2 x.1 = true
theorem occur_of {l : List EventCase} (h : l.all (fun x => x.1.power && x.2 x.1) = true) : occur l := fun x hx => by
  simpa using List.all_eq_true.mp h x hx
def withOp (i : Instr) (st : OpSt) : State := { late with work := { late.work with ops := [(50, opOf i st)] } }
def hasOp (s : State) (p : Op → Bool) : Bool := (tget s.work.ops 50).any p
/-- A condition on group 3 as it holds or issues an instruction. -/
def gi3 (s : State) (i : Instr) (p : GI → Bool) : Bool := (s.gi 3 i).any p
theorem witness_HeldGroupsAndDeliveries : occur
    [(heldBy (.fence .package) [], fun s => gi3 s (.fence .package) fun e => e.g.ctl.hold == some (.fence .package) &&
        e.g.ready (.fence .package) && e.fenced s .package && e.canGo s e.after),
     (heldBy (.ordent 4 6) [], fun s => gi3 s (.ordent 4 6) fun e => e.g.ctl.hold == some (.ordent 4 6) && e.g.ctl.pre == .run && e.canGo s e.after &&
        (lanesOf (e.g.active &&& ~~~e.g.helpers)).all fun l => s.admits e.die e.ctx ((lanesOf (e.g.active &&& ~~~e.g.helpers)).map (e.ordLane 4 6))
          (e.ordLane 4 6 l).1 (e.ordLane 4 6 l).2),
     ((heldBy (.mbxrecv 3 5) []).modDie 0 fun d => { d with mbx := [⟨List.replicate 64 0⟩] }, fun s => gi3 s (.mbxrecv 3 5) fun e =>
        e.g.ctl.hold == some (.mbxrecv 3 5) && (s.die e.die).mbx.length == 1 && s.oldestRecv 3 e.g && s.mayTake e.g && e.canGo s e.after),
     (heldBy (.regroup 8) [1, 77], fun s => (s.dealing 0 1).length == 1 && (s.dealing 0 1).all fun m => !s.deviceHeld m.e.ctx m.round),
     (heldBy (.regroup 8) [], fun s => s.dealing 0 1 == [] && (s.closing 0 1).length == 1),
     ({ late with work := { late.work with arrives := [(50, ⟨3, 1, 1, none4⟩)] } }, fun s => (tget s.work.arrives 50).any fun a =>
        gi3 s .nop fun e => a.await.ops == [] && !s.atomicsPending a.gid && !e.arrived s a.bar && s.barAgrees e.g.team (e.barOf s a.bar) a.c),
     (withOp (.mbxsend 4 2 true) .engine, fun s => hasOp s fun o => o.st == .engine && (s.gi o.gid .nop).isSome &&
        s.released (coreDie o.core) { o.await with copies := [], draws := [] } && (s.die 2).state == 0 && s.reach (coreDie o.core) 2 == .ok && decide ((s.die 2).mbx.length < 1024)),
     (withOp (.pubw 4 5) .engine, fun s => hasOp s fun o => o.instr == .pubw 4 5 && o.st == .engine && s.released (coreDie o.core) o.await),
     ({ late with work := { late.work with releases := [(50, ⟨3, 0, 0, [], none4⟩)] } }, fun s =>
        (tget s.work.releases 50).any fun r => s.released r.die r.await)] := occur_of (by decide +kernel)

/-- A draw of one triangle on die 0, ordered by sample as `flags` says. -/
def drawOf (flags insts : Nat) : Draw :=
  { ctx := 0, addr := 0, flags := flags, num := 1, prims := 1, width := 8, height := 8, insts := insts, vbase := 0, ibase := 0, istride := 0,
    vcount := 3, target := 0, status := 0, node := none, gid := 3, id := 7, core := none, user := false }
/-- A matrix command alone in the queue of core 0. -/
def queued (s : State) (i : Instr) : State :=
  { s with work := { s.work with ops := [(50, opOf i .engine)] } }.modDie 0 fun d => { d with mqueue := [(0, [50])] }
def startsNow (s : State) (i : Instr) (p : Op → Bool) : Bool := s.arrayQueue 0 == [50] && s.arrayRun 0 == none &&
  hasOp s fun o => o.st == .engine && o.await.ops == [] && o.instr == i && p o
def startsCase (i : Instr) : EventCase := (queued late i, fun s => startsNow s i fun _ => true)
/-- An access that the moving bit holds, and what its second look finds. -/
def movingOp (i : Instr) : State := (withOp i (.moving none)).modOp 50 fun o => { o with lanes := 1 }
def movesAgain (i : Instr) (p : GI → Op → Option Plan) (q : State → Op → GI → Plan → Bool) : EventCase :=
  (movingOp i, fun s => hasOp s fun o => o.instr == i && o.st == .moving none && (s.gi o.gid o.instr).any fun e => (p e o).any (q s o e))
def goesNow (s : State) (o : Op) (e : GI) (p : Plan) : Bool :=
  !(p.tags && s.tagsPending o.gid 50) && passes (p.check s (coreTlb o.core) (coreDie o.core) e.ctx o.user)
/-- The same while the placed data page is moved: its leaf's moving bit is set (R317). -/
def shifting (c : EventCase) : State := c.1.placeLine (placeRoot + 0x6000) (toBytes 8 (placeData + 0x11F) ++ placeLeaf placeFrame)
def isMoving (r : PlanRes × State) : Bool :=
  match r.1 with
  | .moving => true
  | _ => false
/-- The second look of a held instruction that reads a block, PIN, with what its work answers. -/
def pinAgain (s : State) (p : HeldRes → Bool) : Bool := hasOp s fun o => o.instr == .pin 3 4 && o.st == .moving none &&
  (s.gi o.gid o.instr).any fun e => (heldWork o.instr).any fun w => p (e.heldAgain s 50 o w)
def acqMoving (q : State → Op → GI → Plan → Bool) : EventCase :=
  movesAgain (.acqw 3 2) (fun e o => planOf o.instr o.svals o.vvals o.lanes e.launch.priv e.team.size e.launch.scrBytes)
    fun s o e p => (heldWork o.instr).isNone && q s o e p
theorem witness_OperationsCompleteAndStart : occur
    [(withOp (.rcp 5 6) .ready, fun s => hasOp s fun o => (s.gi o.gid o.instr).any fun e => o.gid != 0 && o.flag != 15 && !s.acqHeld 50 o &&
        match e.opEnd s 50 o with
        | .ok _ => true
        | _ => false),
     startsCase (.azero 4), startsCase (.amov 3 4), startsCase (.aload 2 4), startsCase (.mma true 2 16 4), startsCase (.mmabs true 2 16 4 32),
     startsCase (.adrain true 7 4 5), startsCase (.astash 4 6 5), startsCase (.agdrain 9 8 4),
     (queued { readyP with gt := 100 } (.mmap false 2 16 4), fun s => startsNow s (.mmap false 2 16 4) fun o => s.arrayRun 1 == none &&
        (s.gi o.gid o.instr).any fun e => (e.partner s).isSome),
     movesAgain (.ld 4 2 1 .b64 .ef true) (fun _ o => some (planGlobal .b64 false true true 1 .ef .load (o.svals.getD 0 0) (o.vvals.getD 0 [])
        (fun _ => []) o.lanes)) goesNow,
     movesAgain (.st 5 2 1 .n16 .normal) (fun _ o => some (planGlobal .n16 true false true 2 .normal .store (o.svals.getD 0 0) (o.vvals.getD 0 [])
        (fun l => storeBytes .n16 (capLane o.vvals 1 (zCount .n16) l)) o.lanes)) goesNow,
     acqMoving goesNow,
     (shifting (acqMoving goesNow), (acqMoving fun s o e p => isMoving (p.check s (coreTlb o.core) (coreDie o.core) e.ctx o.user)).2),
     (movingOp (.pin 3 4), fun s => pinAgain s fun r => match r with
        | .on _ => true
        | _ => false),
     (shifting (movingOp (.pin 3 4), fun _ => true), fun s => pinAgain s (· == .wait))] :=
  occur_of (by decide +kernel)
/-- A span of the placed launch, and the placed group as it ends. -/
def trapping : State := late.modCtl 3 fun c => { c with trap := some ⟨.user, 7, 0, 0, ⟨0x10000, 1⟩, false⟩ }
def ending : State := late.modCtl 3 fun c => { c with ending := true }
def preempting : State :=
  ((late.modTeam 2 fun t => { t with pre := some ⟨0, 100, 0, false⟩ }).modCtl 3 fun c => { c with pre := .entering }).modCtx 0 fun c => { c with uvec := 0x10000 }
theorem witness_GroupsEnterExpandAndEnd : occur
    [(trapping, fun s => gi3 s .nop fun e => (e.g.ctl.trap.any fun t => !t.toM) && e.g.ctl.level == .u && e.g.ctl.emul != some 0 &&
        e.g.quiet && e.g.ctl.desched == none && e.handlerOk s),
     (preempting, fun s => gi3 s .nop fun e => e.team.pre.isSome && e.g.ctl.pre == .entering && e.g.quiet &&
        (e.fetch s .u (s.uvec e.ctx)).header),
     (ending, fun s => (tget s.groups 3).any fun g => g.ctl.ending && g.flagsClear && g.late == [] && g.ctl.trap == none && s.work.arrives == [])] :=
  occur_of (by decide +kernel)
/-- Bytes at an offset of the data page, which a context finds at virtual address `a`. -/
def poke (s : State) (a : Nat) (b : List Byte) : State := s.placeLine (placeData + a) b
def zeros (n : Nat) : List Byte := List.replicate n 0
/-- A well-formed descriptor of an unordered draw, whose status block lies behind it (R420). -/
def drawBytes : List Byte :=
  toBytes 4 0x4F4C5201 ++ toBytes 4 2 ++ toBytes 4 1 ++ toBytes 4 1 ++ toBytes 2 8 ++ toBytes 2 8 ++ toBytes 4 0 ++ toBytes 8 0x400 ++
    toBytes 8 0 ++ toBytes 4 16 ++ toBytes 4 3 ++ toBytes 8 0 ++ toBytes 8 0x80
def drawing : State :=
  let o := { opOf (.draw 3 4 0 true) .engine with svals := [0], misc := [0] }
  poke (poke { late with work := { late.work with ops := [(50, o)] } } 0 drawBytes) 0x80 (zeros 32)
/-- The placed context with room for its teams. -/
def ranR (f : CtxRun → CtxRun) : State := { late with runs := [(0, f (late.run 0))] }
def roomy : State := ((ranR fun r => { r with privSlot := 2 ^ 17, privSlots := 4 }).modCtx 0 fun c => { c with saveSize := 2 ^ 22 }).modLaunch 1
  fun l => { l with csp := 0, localB := 4096 }
theorem witness_DrawQueues : occur
    [(drawing, fun s => hasOp s fun o => (s.gi o.gid o.instr).any fun e => o.st == .engine && s.work.faults == [] && s.released e.die o.await &&
        o.misc == [0] && reads (s.readVia (some (.l1 o.core)) (coreTlb o.core) e.die e.ctx o.user (o.svals.getD 0 0).toNat 64)),
     (drawing.modOp 50 fun o => { o with misc := 0 :: drawBytes.map (·.toNat) }, fun s => hasOp s fun o => (s.gi o.gid o.instr).any fun e =>
        o.st == .engine && s.work.faults == [] && s.released e.die o.await && decide (1 < o.misc.length) &&
        match s.fresh.2.checkDraw e.die (Machine.drawOf ((o.misc.drop 1).map fun y => BitVec.ofNat 8 y) e.ctx (o.svals.getD 0 0).toNat o.gid s.nextId none
          (some o.core) o.user) with
        | (.good x, s1) => (s1.queueDraw e.die 0 true x).isSome
        | _ => false),
     ((match tget roomy.launches 1 with
       | some l => { roomy with teams := [], groups := [], spans := [(9, l.span 1 0 0 0 0 0 .expand)] }
       | none => roomy), fun s => (tget s.spans 9).any fun x => x.park == .expand && (s.expandOne 9).isSome)] := occur_of (by decide +kernel)

/-- A request of global memory at its physical address, on the CORE path of core 0. -/
def reqOf (k : ReqKind) (st : ReqSt) : Req :=
  { kind := k, space := .global, path := .core, core := 0, die := 0, ctx := 0, gid := 3, op := 99, lane := 0, va := 0, pa := placeData, size := 4,
    data := [1, 2, 3, 4], hint := .normal, lro := false, key := 0, st := st, val := [], seq := 0, install := false, missed := false }
def homeOf : HomeLine :=
  { data := List.replicate 128 0, tags := [0, 0, 0, 0], poison := [false, false, false, false], dirty := false, key := 0, inL2 := true, inMsc := true, mdirty := false, ls := 0 }
def asking (r : Req) : State :=
  { late with work := { late.work with reqs := [(70, r)] }, mem := { late.mem with home := [(placeData / 128, homeOf)] } }
def askAt (r : Req) (c : LineCtl) : State := { asking r with mem := { (asking r).mem with lines := [(placeData / 128, c)] } }
def ready70 (s : State) (p : Req → Bool) : Bool := (s.reqNow 70).any p
theorem witness_HomesServeRequests : occur
    [({ asking (reqOf .load .fresh) with mem := { late.mem with
          copies := [⟨.l1 0, .global, placeData / 128, zeros 128, [], 10000, 0, 0, 0⟩] } },
        fun s => ready70 s fun r => r.kind == .load && (s.copyHit r).isSome),
     (asking (reqOf .load .fresh), fun s => ready70 s fun r => r.kind == .load && s.homeReady r && (s.homeLine (r.pa / 128)).isSome &&
        !s.poisonedAt r.pa r.size r.key),
     (asking (reqOf .store .fresh), fun s => ready70 s fun r => r.kind == .store && s.homeReady r),
     (askAt (reqOf .store (.pending 50)) ⟨50, [⟨70, 50, 0, [1, 2, 3, 4]⟩]⟩, fun s => (tget s.work.reqs 70).any fun r => r.st == .pending 50 && r.kind == .store &&
        decide (50 ≤ s.gtAt (s.homeDie (r.pa / 128))) && (s.lineCtl (r.pa / 128)).pend.head?.map (·.req) == some 70 && (s.spaceOf r.pa).isSome && s.keyed r.key &&
        (s.homeLine (r.pa / 128)).isSome),
     (asking (reqOf (.atomic .add .int 0) .fresh), fun s => ready70 s fun r => r.kind == .atomic .add .int 0 && s.homeReady r &&
        (s.homeLine (r.pa / 128)).isSome && !s.poisonedAt r.pa r.size r.key),
     (asking { reqOf .store .fresh with space := .scratch 1, pa := 0 }, fun s => ready70 s fun r => r.space == .scratch 1 && r.kind == .store && !s.scratchHeld r)] :=
  occur_of (by decide +kernel)
theorem witness_StoresWriteTheirBytes : occur
    [(asking (reqOf .store .fresh), fun s => ready70 s fun r => r.kind == .store && s.homeReady r && (s.homeLine (r.pa / 128)).any (fun h => h.data.length == 128) &&
        decide (r.pa % 128 + r.data.length ≤ 128))] := occur_of (by decide +kernel)

/-- A copy of four bytes within the team's local memory (R230). -/
def copyOf (started : Bool) (flying : List (Nat × Nat)) : Copy :=
  { engine := 0, gid := 3, team := 2, node := none
    req := { CopyReq.blank with kind := 0, flags := 0, elem := 2, space := 5, rsvd := false, d0 := 1, d1 := 1, d2 := 1, src := 0, dst := 64 }
    addr := 0, started := started, stopped := false, fault := none, next := 0, early := [], flying := flying, counted := 0, err := 0, at_ := 0, w := 0 }
def copying (c : Copy) : State := { late with work := { late.work with copies := [(60, c)] } }
def fault1 : FaultRec :=
  { ctx := 0, kind := 1, status := 1, core := 0, team := 0, group := 0, write := false, read := true, addr := 0, lanes := 1, seq := 0, holder := 3, moving := false }
def faulting : State := { (late.modCtx 0 fun c => { c with fqLog := 6 }) with work := { late.work with faults := [(80, fault1)] } }
theorem witness_CopiesWalksAndFaults : occur
    [(copying (copyOf false []), fun s => (tget s.work.copies 60).any fun c => c.node == none && !c.started && !c.stopped && (tget s.teams c.team).any fun t =>
        (s.copyFor c).any fun f => s.engineFree c f.die && !c.req.malformed f t.loc),
     (copying (copyOf true []), fun s => (tget s.work.copies 60).any fun c => c.started && !c.stopped && c.flying == [] && decide (c.next ≤ 0) &&
        !(c.early.contains 0) && decide (0 < c.req.count) && (tget s.teams c.team).any fun t => (s.copyFor c).any fun f => s.engineFree c f.die &&
          match s.copyRead f c.req t.loc 0 with
          | (.bytes _, _) => true
          | _ => false),
     (copying (copyOf true [(0, 5)]), fun s => (tget s.work.copies 60).any fun c => c.flying.find? (fun z => z.1 == 0) == some (0, 5) &&
        (s.copyFor c).any fun f => decide (5 + 2 < s.gtAt f.die)),
     ({ late with mem := { late.mem with louvre := [(5, ⟨0, 0, 262144⟩)] } }, fun s => decide (262144 ≤ (s.louvreOf 0 5).misses)),
     (faulting, fun s => (tget s.work.faults 80).any fun x => (tget s.ctxs x.ctx).any fun y => x.seq == 0 && x.kind != 5 && !y.fqmsi &&
        decide ((y.fqHead + 2 ^ 32 - s.descGet x.ctx 0x68) % 2 ^ 32 < 2 ^ y.fqLog) &&
        reads (s.devWrite 0 x.ctx (y.fqBase + 32 * (y.fqHead % 2 ^ y.fqLog)) (x.bytes (s.run x.ctx).nextSeq)))] := occur_of (by decide +kernel)
/-- A launch descriptor, a kernel object and its one word (R362, R363). -/
def launchBytes : List Byte :=
  toBytes 4 0x4F4C4401 ++ toBytes 4 0 ++ toBytes 8 0x80 ++ toBytes 4 1 ++ toBytes 4 1 ++ toBytes 2 1 ++ toBytes 2 1 ++ zeros 36
def objectBytes : List Byte :=
  toBytes 4 0x4F4C4B01 ++ toBytes 4 0x80 ++ zeros 8 ++ toBytes 4 0x80 ++ toBytes 4 4 ++ toBytes 4 0 ++ toBytes 2 16 ++ zeros 98
def subOf : Submit := { ctx := 0, addr := 0, background := false, cls := 0, source := .node 0 0, die := none, op := none }
def submitted : State := { poke (poke (poke { late with runs := roomy.runs, ctxs := roomy.ctxs, launches := [], work := { late.work with subs := [(90, subOf)] } }
  0 launchBytes) 0x80 objectBytes) 0x100 ((encode (.clauseStart 0 0 6 1)).flatMap (toBytes 4)) with teams := [], groups := [] }
/-- The placed launch with a team to place on die 0. -/
def placing (save : Nat) : State := { (roomy.modLaunch 1 fun l => { l with nextT := [0, 0, 0, 0], nospan := false }).modCtx 0 fun c => { c with saveSize := save } with
  teams := [], groups := [] }
def commanding (op : Nat) : State := ({ late with launches := [] } : State).modPkg fun p => { p with cmdBusy := true, cmdOp := op, cmdCtx := 0, cmdOut := none }
def cmdOf (s : State) (op : Nat) : Bool := s.pkg.cmdBusy && s.pkg.cmdOp == op && s.pkg.cmdCtx == 0 && s.pkg.cmdOut == none
theorem witness_LaunchesAndContexts : occur
    [(submitted, fun s => (tget s.work.subs 90).any fun x => (tget s.ctxs x.ctx).any fun k => !(s.run x.ctx).suspended && !(s.run x.ctx).releasing && decide (x.addr < 2 ^ 56) && !s.deviceHeld x.ctx 90 &&
        match s.readDesc (x.die.getD 0) x.ctx x.addr with
        | (.ok d, _) => d.refusal (d.launch x.ctx (x.class d.flags k.cls) (s.run x.ctx).lossx x.source) x.die (s.run x.ctx).privSlot
            (s.run x.ctx).privSlots k.saveSize == none
        | _ => false),
     ({ late with work := { late.work with subs := [(90, subOf)] } }, fun s => (tget s.work.subs 90).any fun x => !(s.run x.ctx).suspended && !(s.run x.ctx).releasing && decide (x.addr < 2 ^ 56) && !s.deviceHeld x.ctx 90 &&
        match s.readDesc (x.die.getD 0) x.ctx x.addr with
        | (.refuse _, _) => true
        | _ => false),
     ({ late with work := { late.work with subs := [(90, { subOf with addr := 2 ^ 56 })] } }, fun s => (tget s.work.subs 90).any fun x =>
        (tget s.ctxs x.ctx).isSome && !(s.run x.ctx).suspended && !(s.run x.ctx).releasing && decide (2 ^ 56 ≤ x.addr)),
     (placing (2 ^ 22), fun s => (tget s.launches 1).any fun l => s.eligible l 0 && !s.outranked l 0 && l.csp == 0 && !l.paired && !l.coresident &&
        !l.nospan && (s.coreFor 1 l 0).isSome),
     (placing 0, fun s => (tget s.launches 1).any fun l => s.eligible l 0 && !s.outranked l 0 && l.csp == 0 && !l.coresident && (s.coreFor 1 l 0).isNone),
     ((placing (2 ^ 22)).modLaunch 1 fun l => { l with coresident := true, accs := 0 }, fun s => (tget s.launches 1).any fun l =>
        s.eligible l 0 && !s.outranked l 0 && l.coresident && (s.placeWhole 1 l).isSome),
     (commanding 1, fun s => cmdOf s 1),
     (commanding 2, fun s => cmdOf s 2 && (tget s.ctxs 0).isSome),
     (commanding 3, fun s => cmdOf s 3 && (tget s.ctxs 0).isSome && !s.hasLaunch 0),
     ((commanding 1).modPkg fun p => { p with cmdOut := some 0 }, fun s => s.pkg.cmdBusy && s.pkg.cmdOut == some 0)] := occur_of (by decide +kernel)
theorem witness_KicksOfContexts : occur
    [(late, fun s => (tget s.ctxs 0).isSome && s.mgmt.level != 0 && decide ((s.run 0).kicks.length < 64)),
     (ranR fun r => { r with kicks := List.replicate 64 (1, 0) }, fun s => (tget s.ctxs 0).isSome && s.mgmt.level != 0 && decide (64 ≤ (s.run 0).kicks.length)),
     (late, fun _ => kickBad (5 * 2 ^ 61)),
     (late.modMgmt fun m => { m with level := 0 }, fun s => s.mgmt.level == 0 && (tget s.ctxs 0).isSome && (tget s.ctxs 1).isNone)] := occur_of (by decide +kernel)

/-- A node, and a replay of two whose second follows the first. -/
def nodeAt (kind x y : Nat) (st : NodeSt) : Node := { kind := kind, tick := false, msi := none, x := x, y := y, z := 0, st := st, status := 0, addr := 0, at_ := 0, desc := [] }
def replaying (n : Node) : State := 
  let p : Replay := { handle := 1, nodes := [n, nodeAt 5 0 1 .idle], edges := [(0, 1)], signal := 0, msi := none, stopped := false, startW := 0 }
  ranR fun r => { r with replay := some p }
/-- A graph object of one node at address 0x100, its table at address 0 (R353). -/
def graphBytes : List Byte := toBytes 4 0x4F4C4701 ++ toBytes 4 1 ++ zeros 8 ++ toBytes 8 0x80 ++ zeros 40 ++ zeros 64
def kicked : State := poke (poke (ranR fun r => { r with kicks := [(0, 0)] }) 0 (toBytes 8 0x100)) 0x100 graphBytes
def startsAs (n : Node) : EventCase := (replaying n, fun s => (s.starts 0 0 n.kind).isSome)
def drawNode : State := poke (poke (replaying (nodeAt 3 0 0 .idle)) 0 drawBytes) 0x80 (zeros 32)
theorem witness_GraphNodesRun : occur
    [(kicked, fun s => (tget s.ctxs 0).isSome && (s.run 0).replay == none && (s.run 0).kicks == [(0, 0)] && !s.deviceHeld 0 replayBase && match s.beginReplay 0 0 0 with
        | .go _ _ => true
        | _ => false),
     startsAs (nodeAt 0 0 0 .idle), startsAs (nodeAt 1 0 0 .idle), startsAs (nodeAt 2 0 1 .idle), startsAs (nodeAt 5 0 1 .idle),
     (drawNode, fun s => (s.starts 0 0 3).isSome && s.work.faults == [] && reads (s.devRead 0 0 0 64)),
     (poke (replaying { nodeAt 3 0 0 .run with desc := drawBytes }) 0x80 (zeros 32), fun s => s.starts 0 0 3 == none && s.work.faults == [] &&
        (s.run 0).replay.any fun r => r.nodes[0]?.any fun x => x.kind == 3 && x.st == .run && x.desc != [] &&
        match s.fresh.2.checkDraw 0 (Machine.drawOf x.desc 0 0 0 s.nextId (some 0) none false) with
        | (.good d, s1) => (s1.queueDraw 0 0 false d).isSome
        | _ => false),
     (replaying (nodeAt 4 8 1 .idle), fun s => (s.starts 0 0 4).any fun x => !x.tick && !s.deviceHeld 0 (replayBase + 1 + 0) && ((s.run 0).replay.any fun r => (r.preds 0).isEmpty) &&
        reads (s.devAdd 0 0 (vaOf x.x) x.y)),
     (replaying (nodeAt 5 8 1 .run), fun s => (s.run 0).replay.any fun r => r.nodes[0]?.any fun x => x.kind == 5 && x.st == .run && decide (x.at_ ≤ s.gt) &&
        !s.deviceHeld 0 (replayBase + 1 + 0) && reads (s.devRead 0 0 (vaOf x.x) 8)),
     (replaying (nodeAt 0 0 0 .done), fun s => (s.run 0).replay.any fun r => !r.stopped && r.nodes[0]?.any fun x => x.st == .done && x.kind != 4 &&
        r.nodes.zipIdx.any fun y => y.2 != 0 && y.1.st != .complete)] := occur_of (by decide +kernel)
/-- A team asked to yield, and the same team saved. -/
def askedBy (forced : Bool) (pto oto : Nat) : State := { (late.modTeam 2 fun t => { t with pre := some ⟨0, pto, oto, forced⟩ }) with gt := 1000000 }
def yielded : State := (askedBy false 200 50).modCtl 3 fun c => { c with pre := .yielded }
def saved : State :=
  { roomy with teams := [], groups := [], saved := match tget roomy.teams 2 with
      | some t => [(5, { launch := 1, die := 0, team := some t, groups := [], span := none, image := 0x100, bytes := 32 })]
      | none => [] }
theorem witness_PreemptionAndBudgets : occur
    [({ (late.modCtx 0 fun c => { c with tick := 1 }) with gt := 5000 }, fun s => (tget s.ctxs 0).any fun k => k.tick != 0 && decide ((s.run 0).tickAt + 1000 * k.tick ≤ s.gt)),
     (late.modCtx 0 fun c => { c with budget := 5 }, fun s => (tget s.ctxs 0).any fun k => k.budget != 0 && decide ((s.run 0).remaining ≤ 0)),
     (askedBy false 200 50, fun s => (tget s.teams 2).any fun t => t.pre.any fun p => decide (p.at_ + 1000 * p.pto ≤ s.gtOf t.core)),
     (askedBy false 200 50, fun s => gi3 s .nop fun e => e.team.pre.any fun p => decide (p.at_ + 1000 * p.oto ≤ s.gtOf e.g.core)),
     (yielded, fun s => (tget s.teams 2).any fun t => (tget s.launches t.launch).any fun l => (t.pre.any fun p => !p.forced) &&
        ((s.groupsOf 2).all fun g => g.2.stopped && !s.dealPending g.2) && s.drained 2 t l),
     (saved, fun s => (tget s.saved 5).any fun x => (tget s.launches x.launch).any fun l => x.team.isSome && s.mayResume x.launch l x.die &&
        !s.outranked l x.die && (s.resumeCores l x).contains 0 && s.canHold l 5 0 && !s.deviceHeld l.ctx 5 && !l.coresident &&
        match s.reloaded x l with
        | (.ok y, _) => y.team.isSome
        | _ => false),
     (saved.modLaunch 1 fun l => { l with coresident := true, accs := 0 }, fun s => (tget s.saved 5).any fun x => (tget s.launches x.launch).any fun l =>
        s.mayResume x.launch l x.die && !s.outranked l x.die && (s.resumeCores l x).contains 0 && l.coresident)] := occur_of (by decide +kernel)
/-- A rasteriser of die 0 with a draw that runs. -/
def runningOf (d : Draw) (todo : List (Nat × Nat × Nat × Nat)) (passed : List (Nat × Nat × Nat)) (finishing : Bool) (inst : Nat) : Running :=
  { d.begun 0x200 4 with todo := todo, passed := passed, setUp := true, finishing := finishing, inst := inst }
def rastering (q : List Draw) (r : Option Running) : State := late.modDie 0 fun d => { d with rasters := d.rasters.set 1 ⟨q, r⟩ }
def runs1 (s : State) (p : Running → Bool) : Bool := (s.raster 0 1).run.any p
theorem witness_RasterisersDraw : occur
    [(rastering [drawOf 2 1] none, fun s => (s.raster 0 1).run == none && !s.rasterHeld 0 1 && (s.raster 0 1).queue.head?.any fun d =>
        reads (s.drawRead 0 d d.status 32)),
     (rastering [] (some (runningOf (drawOf 2 1) [(1, 1, 0, 0)] [] false 0)), fun s => runs1 s fun x => !x.finishing && decide (x.inst < x.draw.insts) &&
        !s.rasterHeld 0 1 && (x.draw.ord == 2 || !x.pixelDone) && x.setUp && x.todo == [(1, 1, 0, 0)] &&
        match s.translate (engineCluster 0) 0 x.draw.ctx (x.draw.slot 1 1 0) ⟨true, false, x.draw.user⟩ with
        | (.ok t, s1) => s1.spaceOf t.pa == some .global && !s1.writeRefused 0 t && s1.reachFor 0 t.pa == .ok && !s1.poisonedAt t.pa 16 t.key
        | _ => false),
     (rastering [] (some (runningOf (drawOf 0 1) [] [(1, 1, 0)] false 0)), fun s => runs1 s fun x => x.pixelDone && !s.rasterHeld 0 1 && x.draw.ord != 2 &&
        x.passed == [(1, 1, 0)] && decide (x.frags < x.fragCap) && decide ((s.die 0).board.length < 262144) &&
        reads (s.writeAs 0 x.draw.ctx x.draw.user (x.fragBase + 16 * x.frags) (toBytes 4 (1 + 65536 * 1) ++
          toBytes 4 (x.passed.foldl (fun m z => setBit m z.2.2 true) 0) ++ toBytes 8 x.key))),
     (rastering [] (some (runningOf (drawOf 2 1) [] [] false 1)), fun s => runs1 s fun x => decide (x.draw.insts ≤ x.inst) && !s.rasterHeld 0 1 && !x.finishing &&
        match s.writeAs 0 x.draw.ctx x.draw.user (x.draw.status + 8) (toBytes 4 x.frags ++ toBytes 4 x.fragOvf) with
        | (.ok _, s1) => reads (s1.writeAs 0 x.draw.ctx x.draw.user (x.draw.status + 0x1C) (toBytes 4 x.err))
        | _ => false),
     (rastering [] (some (runningOf (drawOf 2 1) [] [] true 1)), fun s => runs1 s fun x => decide (x.draw.insts ≤ x.inst) && !s.rasterHeld 0 1 && x.finishing &&
        decide (x.lastW + 2 < s.gtAt 0) && x.draw.node == none && reads (s.addAs 0 x.draw.ctx x.draw.user x.draw.status 1))] := occur_of (by decide +kernel)

/-- The first link with a flit, and a die in a state of its warm reset (R407). -/
def linked (up : Bool) : State := { late with gt := 2000, links := late.links.set 0 { (late.links.getD 0 (Link.reset (0, 1))) with up := up, buffer := [(0, [])] } }
def die1 (st : Nat) (pend : Bool) : State := { late with teams := [], dies := late.dies.set 1 { Die.reset with state := st, pending := pend }, gt := 200000 }
theorem witness_LinksAndWarmReset : occur
    [(linked true, fun s => (s.links[0]?).any fun l => l.up && l.buffer == [(0, [])] && decide (l.sentAt + 1000 ≤ s.gt)),
     (linked false, fun s => !s.routeBusy 0 3 && !s.detour 0 3 && !s.pathUp 0 (hops 0 3 false) && s.pathUp 0 (hops 0 3 true)),
     (die1 0 false, fun s => (s.die 1).state == 0 && s.resetFree 1),
     ((die1 0 false).modDie 2 fun d => { d with state := 1 }, fun s => (s.die 1).state == 0 && !s.resetFree 1),
     (die1 0 true, fun s => (s.die 1).pending && s.resetFree 1),
     (die1 1 false, fun s => (s.die 1).state == 1 && s.dieIdle 1),
     (die1 2 false, fun s => (s.die 1).state == 2 && !s.dieWaits 1 && s.dieIdle 1),
     (die1 3 false, fun s => (s.die 1).state == 3), (die1 4 false, fun s => (s.die 1).state == 4),
     (die1 5 false, fun s => (s.die 1).state == 5 && decide ((s.die 1).quiesced + s.pkg.leaseRo + 2 < s.gtAt 1))] := occur_of (by decide +kernel)

/-- A table of one expert with one replica, which has left with its die. -/
def tableOf (p : Option PubVer) : XTable :=
  { experts := 1, expBytes := 4096, poolBase := [0, 0, 0, 0], poolSlots := [0, 0, 0, 0], windows := 0, cur := 0,
    images := [(0, [⟨0, 0, [⟨1, 0, true⟩]⟩])], load := [0], dieload := [0, 0, 0, 0], repcount := [], inflight := [], retiring := [],
    departed := [], publish := p }
def tabled (p : Option PubVer) : State := { late with gt := 2000000, barchan := { Barchan.reset with
  base := 0x400000, en := [true, false, false, false], refresh := [true, false, false, false], tables := [(0, tableOf p)] } }
theorem witness_ExpertTables : occur
    [(tabled none, fun s => s.barchan.tables.length == 1 && !s.publishing && decide (s.barchan.windowAt + 1000 * s.barchan.window ≤ s.gt) &&
        decide (s.barchan.lastW + 2 < s.gt)),
     (tabled (some ⟨[], 0, [], true, 0, true⟩), fun s => (s.xtab 0).any fun t => t.publish.any fun p => decide (p.w + 2 < s.gt) && p.written),
     (late, fun s => !s.barchan.en.getD 0 false)] := occur_of (by decide +kernel)
/-- A retirement of stack 0 to depth 1 with one moving cell; and a region that takes up a new map. -/
def movingCell (started : Bool) (mark : Nat) : MoveCell := { region := 0, cell := 0, stack := 1, base := 0, started := started, mark := mark, switched := false }
def retiring (m : MoveCell) : State := ({ late with retire := some { stack := 0, pkgDepth := 1, dieDepth := 1, cells := [m] } } : State).modPkg fun p => { p with retLeft := 9 }
def cellIs (s : State) (p : Retire → MoveCell → Bool) : Bool := s.retire.any fun t => t.cells[0]?.any (p t)
def quiet : State := ({ late with teams := [], groups := [] } : State).modPkg fun p => { p with captarget := 0x0008020080000000 }
def unitQ : UnitReq := { line := placeData / 128, write := true, data := zeros 128, tags := [0, 0, 0, 0], poison := [false, false, false, false], key := 0, phase := 0 }
theorem witness_InterleaveAndRetirement : occur
    [(late.modRegion 0 fun g => { g with sa := g.a }, fun s => s.retire == none && invertible (s.region 0).sa),
     (late, fun s => s.retire == none && !invertible (s.region 0).sa),
     (late.modRegion 0 fun g => { g with applying := some (g.a, g.b) }, fun s => (s.region 0).applying.isSome && !s.linesBusy (fun ln => inRegion (ln * 128) 0)),
     (quiet, fun s => s.retireRefusal 0 == none),
     (retiring (movingCell false 0), fun s => s.retire.any fun t => decide ((t.cells.filter fun m => m.started && !m.switched).length < 64) &&
        t.cells.findIdx? (fun m => !m.started) == some 0),
     (retiring (movingCell true 0), fun s => cellIs s fun t m => m.started && !m.switched && decide (m.mark < t.depthOf m) && s.unitMeta (s.oldPlace m m.mark) == none),
     (retiring (movingCell true 1), fun s => cellIs s fun t m => m.started && !m.switched && decide (t.depthOf m ≤ m.mark) && decide (1 < s.pkg.retLeft)),
     ({ late with mem := { late.mem with unitq := [(6, unitQ)] } }, fun s => (tget s.mem.unitq 6).any fun q => !s.unitStalls q.line && q.phase == s.pkg.migphase &&
        s.keyed q.key && q.write && (s.unitOf q.line).any fun u => s.reach (s.homeDie q.line) (unitDie (u / 2 ^ 30)) == .ok)] := occur_of (by decide +kernel)
/-- A page of die 1 that engine 0 is to move to a frame of its own, and the move in a phase. -/
def askingMove : State := poke (poke { late with caravans := late.caravans.set 0 { Caravan.reset with
  freeBase := placeData + 0x100, freeTail := 1, asks := [⟨0, 0, placeData, some 50⟩] } } 0 (toBytes 8 0x00A000000003)) 0x100 (toBytes 8 0x008000000000)
def moveOf (next phase : Nat) : Move :=
  { ctx := 0, va := 0, leafPa := placeData, oldLeaf := 0x30001F, frame := 0x310000, size := 65536, claim := none, phase := phase, w := 0, next := next }
def movingPage (next phase : Nat) : State := { late with caravans := late.caravans.set 0 { Caravan.reset with move := some (moveOf next phase) } }
theorem witness_PageMoves : occur
    [(askingMove, fun s => (s.caravan 0).move == none && s.caravanUp 0 && (s.caravan 0).asks.head?.any fun a =>
        !(nbit (s.entryAt a.leafPa) 0 && nbit (s.entryAt a.leafPa) 1 && nbit (s.entryAt a.leafPa) 8) &&
        askOk 0 (s.entryAt a.leafPa) a.claim.isSome && (s.freeEntry 0 (s.entryAt a.leafPa) a.claim.isSome).isSome),
     (movingPage 0 1, fun s => s.caravanUp 0 && (s.caravan 0).move.any fun m => m.phase == 1 && decide (128 * m.next < m.size) &&
        (s.spaceOf (65536 * nfld m.oldLeaf 16 32 + 128 * m.next)).isSome && (s.spaceOf (m.frame + 128 * m.next)).isSome &&
        (s.copyLine 0 (65536 * nfld m.oldLeaf 16 32 / 128 + m.next) (m.frame / 128 + m.next)).isSome),
     ({ late with caravans := late.caravans.set 0 { Caravan.reset with move := some { moveOf 0 1 with frame := 0x0F0000000000 } } }, fun s =>
        s.caravanUp 0 && (s.caravan 0).move.any fun m => m.phase == 1 && decide (128 * m.next < m.size) && (s.spaceOf (m.frame + 128 * m.next)).isNone),
     (movingPage 512 1, fun s => s.caravanUp 0 && (s.caravan 0).move.any fun m => decide (m.w + 2 < s.gt) && m.phase == 1 && decide (m.size ≤ 128 * m.next)),
     ({ late with gt := 2000000, caravans := late.caravans.set 4 { Caravan.reset with ctrBase := 0x20000 } }, fun s =>
        decide ((s.caravan 4).epochAt + 1000 * (s.caravan 4).epoch ≤ s.gt) && (s.caravan 4).ctrBase != 0),
     ({ late with caravans := late.caravans.set 4 { Caravan.reset with fwd := [1] } }, fun s => (s.caravan 4).fwd == [1])] := occur_of (by decide +kernel)
theorem witness_OutsideWorld : occur
    [(late, fun s => s.mgmt.level != 0),
     ({ late with ports := late.ports.set 0 { Port.reset with up := true, en := true, inbase := [1, 0, 0, 0], inlen := [0x1000, 0, 0, 0] } }, fun s =>
        s.mgmt.level != 0 && ((s.ports.getD 0 Port.reset).admits 0 (.read 4)).isSome),
     (late, fun s => s.spaceOf 0xF00000000000 == some .window),
     (late, fun s => decide (hottest (sampled (s.die 0).temp [640, 641] 16) < 125 * 16)),
     (late, fun s => (sampled (s.die 0).temp [2000] 16).any fun x => x.valid && decide (125 * 16 ≤ sgn x.val 16))] := occur_of (by decide +kernel)
/-- A management command under way, and a key slot in a state. -/
def managing (f : Mgmt → Mgmt) : State := late.modMgmt f
def busyWith (v : Nat) : State := managing fun m => { m with busy := true, cmd := v }
def managesNow (s : State) (v : Nat) : Bool := s.mgmt.busy && s.mgmt.out == none && s.mgmt.cmd == v && s.mgmtBuf == some 0
def slotAs (st : Nat) : State := { late with keys := [(7, ⟨st, 0⟩)] }
def startingAt (x : Starting) : EventCase := (managing fun m => { m with starting := some x }, fun s => s.mgmt.starting == some x)
theorem witness_ManagementAndKeys : occur
    [(busyWith 1, fun s => managesNow s 1), (busyWith 2, fun s => managesNow s 2), (busyWith 3, fun s => managesNow s 3),
     (busyWith (6 + 16 * 1 + 65536 * 3), fun s => managesNow s (6 + 16 * 1 + 65536 * 3)),
     (late, fun s => !s.mgmt.busy && s.mgmt.running && s.mgmt.level != 0),
     (managing fun m => { m with busy := true, out := some (0, 0) }, fun s => s.mgmt.busy && s.mgmt.out == some (0, 0)),
     (managing fun m => { m with level := 0, step := 8, buf := 0x1000 }, fun s => !s.mgmt.busy && s.mgmt.running && s.mgmt.level == 0 && s.mgmt.buf != 0),
     startingAt ⟨false, 0⟩, startingAt ⟨false, 2⟩, startingAt ⟨false, 3⟩, startingAt ⟨false, 4⟩, startingAt ⟨false, 5⟩, startingAt ⟨false, 6⟩,
     startingAt ⟨false, 7⟩, startingAt ⟨true, 0⟩, startingAt ⟨true, 1⟩,
     (managing fun m => { m with starting := some ⟨false, 1⟩ }, fun s => s.mgmt.starting == some ⟨false, 1⟩ &&
        !imgGood (s.mgmt.flash.getD 0 []) s.mgmt.fusedSvn && !imgGood (s.mgmt.flash.getD 1 []) s.mgmt.fusedSvn),
     (managing fun m => { m with starting := some ⟨false, 7⟩, busy := true, cmd := 5 }, fun s => s.mgmt.startCmd),
     (slotAs 0, fun s => !s.keystat.busy && s.keyState 7 == 0), (slotAs 1, fun s => !s.keystat.busy && s.keyState 7 == 1),
     (late, fun s => !s.keystat.busy && s.keyState 0 == 1),
     ({ late with keystat := ⟨7, 0, true⟩ }, fun s => s.keystat.busy && s.keystat.slot == 7),
     (slotAs 2, fun s => s.keyState 7 == 2)] := occur_of (by decide +kernel)

/-- An image without a body, of version 1, qualifies where its signature does (R446); its digest is the SHA3-512 of nothing, as
FIPS 202 gives it. -/
def imageBytes : List Byte :=
  toBytes 4 0x4F4C4601 ++ toBytes 4 1 ++ zeros 8 ++ ([0xA69F73CCA23A9AC5, 0xC8B567DC185A756E, 0x97C982164FE25859, 0xE0D1DCC1475C80A6,
    0x15B2123AF1F5F94C, 0x11E3E9402C3AC558, 0xF500199D95B6D3E3, 0x01758586281DCD26].flatMap fun n => (toBytes 8 n).reverse)
theorem witness_ImageQualifies (h : Config.verifies (Memory.read (Memory.write [] 0 imageBytes) 0 0x1263) = true) :
    (managing fun m => { m with starting := some ⟨false, 1⟩, flash := [Memory.write [] 0 imageBytes, []] }).mgmt.starting = some ⟨false, 1⟩ ∧
    imgGood (Memory.write [] 0 imageBytes) 0 = true := by
  refine ⟨rfl, ?_⟩
  unfold imgGood
  rw [h]
  decide +kernel

/-! ### States that meet the hypotheses: the step, the encoding, registers of the machine -/

theorem witness_EncodeDecodeAgree : (Instr.iadd 3 4 5).wf = true ∧ encode (.iadd 3 4 5) = [0x0400C205] ∧
    (Instr.mbxsend 4 2 false).wf = true ∧ encode (.mbxsend 4 2 false) = [0xBD100004, 0xF8000002] := by decide
theorem witness_DecodedWordsAreExact : decode 0x0400C205 none = .instr (.iadd 3 4 5) 1 ∧
    decode 0xBD100004 (some 0xF8000002) = .instr (.mbxsend 4 2 false) 2 := by decide
/-- The machine whose next turn is that of a group which stands at an instruction, at an extended one, or at a header. -/
def turnAt (w nbits : Nat) : State := { State.reset.withFetchWord nbits w with power := true }
def stands (s : State) (w : Nat) (i : Instr) (x : Option Nat) : Bool :=
  s.power && s.overdue == none && s.tick.lateDue == none && match s.agenda with
    | .group gid :: r =>
      let t : State := { s.tick with agenda := r }
      (t.gi gid .nop).any fun e => e.g.free && t.choose e.g.core e.g.quad == some gid && decide (decode w x = .instr i (if x.isSome then 2 else 1)) &&
        (if e.g.ctl.pos.k = 0 then x.isNone && isHeader w && decide (e.fetch t e.g.ctl.level e.g.ctl.pos.h = .word w)
         else decide (e.fetchIn t (e.g.ctl.pos.h + 4 * e.g.ctl.pos.k) = .word w) && (takesExt w == x.isSome) &&
          (!takesExt w || (decide (e.g.ctl.pos.k < e.g.ctl.len) &&
            x.any fun v => decide (e.fetchIn t (e.g.ctl.pos.h + 4 * (e.g.ctl.pos.k + 1)) = .word v))))
    | _ => false
/-- The placed machine long after its group last issued. -/
def waited : State := { turnAt 0x0400C205 32 with gt := 100000 }
theorem witness_StepRunsDecoded : stands (turnAt 0x0400C205 32) 0x0400C205 (.iadd 3 4 5) none = true ∧
    stands (turnAt 0xF8000002BD100004 64) 0xBD100004 (.mbxsend 4 2 false) (some 0xF8000002) = true ∧
    stands (turnAt 0xFC0048CA 32) 0xFC0048CA (.clauseStart 1 2 3 10) none = true ∧
    (let s : State := { ready with agenda := [.event .ctxcmdComplete] }; s.overdue = none ∧ s.tick.lateDue = none ∧ s.agenda.head?.isSome = true) ∧
    (waited.overdue == some 3 && (waited.gi 3 .nop).any fun e => e.g.free && decide (0 < e.g.ctl.pos.k ∧
      e.fetchIn (waited.modGroup 3 fun g => { g with lastIssue := waited.gtOf g.core }) (e.g.ctl.pos.h + 4 * e.g.ctl.pos.k) = .word 0x0400C205)) = true := by
  refine ⟨?_, ?_, ?_, ?_, ?_⟩ <;> decide +kernel
theorem witness_NothingRunsWithoutPower : ({ ready with power := false } : State).power = false ∧ Instr.nop ≠ .powerOn ∧
    ({ ready with power := false } : State).agenda.head? ≠ some (.event .powerOn) := by decide +kernel
theorem witness_StepKeepsTimeAndMemoryForm :
    (waited.power && waited.overdue.isSome && next (step waited) fun s => s.gt == waited.gt) = true ∧
    ((turnAt 0x0400C205 32).overdue.isNone && next (step (turnAt 0x0400C205 32)) fun s => s.gt == (turnAt 0x0400C205 32).gt +
      (turnAt 0x0400C205 32).delays.headD 1) = true ∧
    (match ({ State.reset with power := false, agenda := [.event .powerOn] } : State).tick.select with
     | (some (.instr i), u) => u.mayStartCold i
     | _ => false) = true ∧
    State.reset.Canonical := by
  refine ⟨?_, ?_, ?_, ?_, ?_⟩ <;> decide +kernel
theorem witness_PredicateRegisters : ((tget ready.groups 3).any fun g => g.regs.p.length == 15) = true ∧ 14 < 15 ∧ 3 ≠ 14 := by decide +kernel
theorem witness_LossScaleRegister : (tget (ranR id).runs 0).isSome = true ∧ (∃ g, tget (ranR id).groups 3 = some g) := by
  refine ⟨by decide +kernel, Option.isSome_iff_exists.mp (by decide +kernel)⟩
/-- PIN's operation with a request for two ways of a range (R234), in a context that may retain, register 0 being held. -/
def pinning : State := (withOp (.pin 3 4) .ready).modDie 0 fun d => { d with retain := d.retain.set 0 { Retain.reset with valid := true } }
def pinBytes : List Byte := toBytes 8 0x10000 ++ toBytes 8 0x1000 ++ toBytes 1 2 ++ toBytes 1 0 ++ toBytes 10 3 ++ toBytes 4 0
theorem witness_PinTakesLowestRegister : (pinning.pinStatus 0 0 pinBytes).2 = some 1 := by decide +kernel
/-- A span of the placed launch inside its clause, with its turn. -/
def spanning : State :=
  match tget roomy.launches 1 with
  | some l => { roomy with teams := [], groups := [], issuer := .span 9, spans := [(9, { l.span 1 0 0 0 0 0 .run with pos := ⟨0x10000, 1⟩, len := 10, seta := 0, setb := 6 })] }
  | none => roomy
/-- The same span changed, and the same at the last word of its clause. -/
def spanWith (f : Span → Span) : State := spanning.modSpan 9 f
def spanLast (f : Span → Span) : State := spanWith fun x => f { x with len := 1 }
/-- An instruction issues in a span mode, as a condition says. -/
abbrev SpanCase := Instr × State × (State → SI → Bool)
def spanIssues (c : SpanCase) : Bool :=
  c.2.1.power && c.2.1.issuer == .span 9 && (c.2.1.si 9 c.1).any fun e => e.sid == 9 && e.ready c.2.1 && !e.trapped c.2.1 && c.2.2 c.2.1 e
def guardIs (i : Instr) (e : SI) (v : Bool) : Bool := !i.gated || e.x.pf (mGuard e.x.mode) == .const v
def spanRuns (i : Instr) : SpanCase := (i, spanning, fun s e => guardIs i e true && e.canGo s e.after)
def spanRunsAs (i : Instr) (f : Span → Span) (p : SI → Bool) : SpanCase := (i, spanWith f, fun s e => guardIs i e true && e.canGo s e.after && p e)
def spanEnds (i : Instr) (f : Span → Span) (dst : SI → Pos) (p : SI → Bool) : SpanCase := (i, spanLast f, fun s e => e.canGo s (dst e) && p e)
def spanMats (i : Instr) (f : Span → Span) (p : State → SI → Bool) : SpanCase := (i, spanWith f, fun s e => (e.x.flags.all fun n => n == 0) && p s e)
/-- A form that no uniform value gives, a half-space along tx, and MODE with SAT. -/
def slope : Form := ⟨0, 1, 0, 0, 0⟩
def halfSpace : PForm := .conj [⟨-1, 2, 0, 0, 0, true⟩]
def saturating : Word := modeEntry ||| BitVec.ofNat 32 0x1000
def spanCases : List SpanCase :=
  ([.mov 3 4, .movi 3 1, .movhi 3 1, .movs 3 4 true, .sadd 3 4 5 true, .ssub 3 4 5 true, .smul 3 4 5 true, .smulh 3 4 5 true true, .sand 3 4 5 true,
    .sor 3 4 5 true, .sxor 3 4 5 true, .sshl 3 4 5 true, .sshr 3 4 5 true, .ssra 3 4 5 true, .smin 3 4 5 true true, .smax 3 4 5 true true,
    .scmp 4 5, .ssel 3 4 5 .lo, .smov 3 4, .smovi 3 1, .saddImm 3 4 1, .smovhi 3 4 1, .getmode 3, .nop].map spanRuns) ++
  ([.iadd 3 4 5, .isub 3 4 5, .iaddi 3 4 1].map fun i => spanRunsAs i id fun e => !mSat e.x.mode && wide32 e.x.mode) ++
  ([.imul 3 4 5, .imad 3 4 5].map fun i => spanRunsAs i (fun x => x.setVF 4 slope) fun e =>
    !mSat e.x.mode && wide32 e.x.mode && (e.x.vf 5).uniform) ++
  ([.imul 3 4 5, .imad 3 4 5].map fun i => spanRunsAs i (fun x => x.setVF 5 slope) fun e =>
    !mSat e.x.mode && wide32 e.x.mode && !(e.x.vf 5).uniform && (e.x.vf 4).uniform) ++
  ([.iand 3 4 5, .ior 3 4 5, .ixor 3 4 5, .popc 3 4, .ishr 3 4 5, .isra 3 4 5, .imin 3 4 5, .imax 3 4 5, .imulhi 3 4 5].map fun i =>
    spanRunsAs i id fun e => !mPair e.x.mode && (e.x.vf 4).uniform && (e.x.vf 5).uniform) ++
  ([.iadd 3 4 5, .isub 3 4 5, .imul 3 4 5, .imad 3 4 5].map fun i => spanRunsAs i (fun x => { x with mode := saturating }) fun e =>
    mSat e.x.mode && !mPair e.x.mode && (e.x.vf 4).uniform && (e.x.vf 5).uniform && (e.x.vf 3).uniform) ++
  ([.fadd 3 4 5, .fsub 3 4 5, .fmul 3 4 5, .fmad 3 4 5].map fun i => spanRunsAs i id fun e =>
    mRnd e.x.mode != .sr && (e.x.vf 4).uniform && (e.x.vf 5).uniform && (e.x.vf 3).uniform) ++
  [spanRunsAs (.idx 3 .lin) id (fun e => (idxForm e.launch .lin).isSome),
   spanRunsAs (.ishl 3 4 5) id (fun e => wide32 e.x.mode && (e.x.vf 5).uniform), spanRunsAs (.ishli 3 4 5) id (fun e => wide32 e.x.mode),
   spanRunsAs (.icmp false .lt 2 4 5) (fun x => x.setVF 4 slope) fun e =>
     !mPair e.x.mode && (cmpForms .lt false e.x.box (e.x.vf 4) (e.x.vf 5)).isSome,
   spanRunsAs (.pand 2 3 4) id (fun e => ((e.x.pf 3).and (e.x.pf 4)).isSome), spanRunsAs (.por 2 3 4) id (fun e => ((e.x.pf 3).or (e.x.pf 4)).isSome),
   spanRunsAs (.pxor 2 3 4) id (fun e => ((e.x.pf 3).xor (e.x.pf 4)).isSome), spanRunsAs (.pandn 2 3 4) id (fun e => ((e.x.pf 3).andn (e.x.pf 4)).isSome),
   spanRunsAs (.isel 3 4 true 2) id (fun e => e.x.pf 2 == .const false && (e.x.vf 4).uniform && (e.x.vf 3).uniform),
   spanRunsAs (.setmodeReg 0xF 4) id (fun e => (setModeTo e.x.mode 0xF (nfld (e.x.s.getD 4 0).toNat 0 32)).isSome),
   spanRunsAs (.setmodeImm 6 0x160) id (fun e => ((modeImage 6 0x160).bind (setModeTo e.x.mode 6)).isSome),
   (.sread 3 false .gridx, spanning, fun s e => e.canGo s e.after && (s.sreadShared e.launch e.x.core .gridx).isSome),
   spanRunsAs (.bar 1 2) id (fun e => e.x.whole e.launch && decide (1 ≤ e.launch.groupsPer)),
   spanEnds (.bra .al 2) id (fun e => ⟨e.target 2, 0⟩) (fun e => Cond.al.holds e.x.cc), spanEnds (.bra .eq 2) id SI.after (fun e => !Cond.eq.holds e.x.cc),
   spanEnds (.brz 2 2) id (fun e => ⟨e.target 2, 0⟩) (fun e => e.x.box.someTrue e.launch (e.x.pf 2) == some false),
   spanEnds (.brz 15 2) id SI.after (fun e => e.x.box.someTrue e.launch (e.x.pf 15) == some true),
   spanEnds (.brnz 15 2) id (fun e => ⟨e.target 2, 0⟩) (fun e => e.x.box.someTrue e.launch (e.x.pf 15) == some true),
   spanEnds (.brnz 2 2) id SI.after (fun e => e.x.box.someTrue e.launch (e.x.pf 2) == some false),
   spanEnds (.call 2) id (fun e => ⟨e.target 2, 0⟩) (fun e => addrOk (BitVec.ofNat 64 (e.target 2))),
   spanEnds .ret (fun x => { x with s := x.s.set 63 0x10008 }) (fun e => ⟨(e.x.s.getD 63 0).toNat, 0⟩) (fun e => addrOk (e.x.s.getD 63 0)),
   spanEnds (.jmps 4) (fun x => { x with s := x.s.set 4 0x10008 }) (fun e => ⟨(e.x.s.getD 4 0).toNat, 0⟩) (fun e => addrOk (e.x.s.getD 4 0)),
   (.exit, spanLast id, fun _ e => e.x.flags.all fun n => n == 0),
   (.mater, spanning, fun s e => e.canGo s e.after && e.x.flags.all fun n => n == 0)]
/-- Under a GUARD that is constant false; a GUARD, operand forms and instructions that make a span materialise. -/
def spanStops : List SpanCase :=
  ([.mov 3 4, .movi 3 1, .movhi 3 1, .movs 3 4 true].map fun i =>
    (i, spanWith fun x => { x with mode := 0x000C0002 }, fun s e => e.x.pf (mGuard e.x.mode) == .const false && e.canGo s e.after)) ++
  ([.mov 3 4, .movi 3 1, .movs 3 4 true, .idx 3 .lin, .iadd 3 4 5, .isub 3 4 5, .imul 3 4 5, .iaddi 3 4 1, .ishl 3 4 5, .icmp false .lt 3 4 5,
    .iand 3 4 5, .isel 3 4 true 4, .pand 3 4 5, .por 3 4 5, .fadd 3 4 5, .fmul 3 4 5, .st 4 2 1 .b32 .normal].map fun i =>
    spanMats i (fun x => { x.setPF 2 halfSpace with mode := 0x000C0002 }) fun _ e => e.x.pf (mGuard e.x.mode) == halfSpace) ++
  [spanMats (.imul 3 4 5) (fun x => (x.setVF 4 slope).setVF 5 slope) (fun _ e => !mSat e.x.mode && wide32 e.x.mode && !(e.x.vf 4).uniform && !(e.x.vf 5).uniform),
   spanMats (.ishl 3 4 5) (fun x => x.setVF 5 slope) (fun _ e => !(e.x.vf 5).uniform),
   spanMats (.icmp false .eq 2 4 5) (fun x => x.setVF 4 ⟨0, 0x40000000, 0, 0x40000000, 0⟩ |>.setVF 5 ⟨0, 0xC0000000, 0, 0, 0⟩) (fun _ e => !mPair e.x.mode &&
     (cmpForms .eq false e.x.box (e.x.vf 4) (e.x.vf 5)).isNone),
   spanMats (.pand 2 3 4) (fun x => (x.setPF 3 (.conj [⟨1, 1, 0, 0, 0, true⟩, ⟨2, 1, 0, 0, 0, true⟩, ⟨3, 1, 0, 0, 0, true⟩])).setPF 4
     (.conj [⟨4, 1, 0, 0, 0, true⟩, ⟨5, 1, 0, 0, 0, true⟩])) (fun _ e => ((e.x.pf 3).and (e.x.pf 4)).isNone),
   spanMats (.iand 3 4 5) (fun x => x.setVF 4 slope) (fun _ e => !(e.x.vf 4).uniform),
   spanMats (.iadd 3 4 5) (fun x => { x.setVF 4 slope with mode := saturating }) (fun _ e => mSat e.x.mode && !(e.x.vf 4).uniform),
   spanMats (.fadd 3 4 5) (fun x => x.setVF 4 slope) (fun _ e => !(e.x.vf 4).uniform),
   spanMats (.sread 3 false .astat) id (fun s e => (s.sreadShared e.launch e.x.core .astat).isNone),
   (.brz 2 2, spanLast fun x => x.setPF 2 (.conj [⟨0, 1, 0, 1, 1, true⟩]), fun _ e => (e.x.box.someTrue e.launch (e.x.pf 2)).isNone),
   (.brnz 2 2, spanLast fun x => x.setPF 2 (.conj [⟨0, 1, 0, 1, 1, true⟩]), fun _ e => (e.x.box.someTrue e.launch (e.x.pf 2)).isNone),
   (.trapu 1, spanLast id, fun _ _ => true)] ++
  ([.setseed 4 5, .pcnt 3 4, .pfirst 3 4, .ptos 3 4 true, .stop 3 4 true, .rcp 3 4, .tanh 3 4, .shflIdx 3 4 true 5, .qswap 3 4 .h, .redlog 3 4 .fadd,
    .ballot 4 2, .ld 4 2 1 .b32 .normal false, .lds 3 2 16, .sts 3 2 16, .ldl 4 2 1 .b32, .stl 4 2 1 .b32, .ldc 4 2 1 .b32, .ldp 4 2 1 .b32 .normal,
    .atom 5 2 6 .b32 .normal 7 0 .add .int, .redst 5 2 6 .b32 .normal .add .f32, .fence .die, .bararr 1 2, .barwait 2, .bcwait 9 3, .cpyk 4 5, .claim 3 4 5,
    .acqw 3 2, .pubw 4 5, .mbxsend 4 2 true, .mbxrecv 3 5, .spawn 3 4 5 true 1, .azero 4, .mma true 2 16 4, .hgather 20 2 6 0 1, .rbox 20 4 6 10,
    .draw 3 4 0 true, .ordent 4 6, .regroup 8, .csrr .acclive 3, .csrw .acclive 4, .route 1 12 10, .xdone 10, .bkpt 1, .pyield].map fun i =>
    spanMats i id fun _ _ => true)
theorem witness_SpansExecuteForms : spanCases.all spanIssues = true ∧ spanStops.all spanIssues = true := by
  refine ⟨?_, ?_⟩ <;> decide +kernel
/-- R285, by hand: offset 0x15234 is byte 0x234 of the second 4 KiB round, in cluster 1, slice 0, bank 6. -/
theorem test_scr_place : scrPlace 0x15234 = ⟨1, 0x1234, 0, 0x4B4, 6⟩ := by decide

/-! ### Single steps, with results from the spec's examples and tables or worked out by hand from its rules -/

/-- What group 3 satisfies after an instruction that it issues with registers changed. -/
def after (i : Instr) (f : Regs → Regs) (p : Group → Bool) : Bool := left (exec i (readyR f)) p
/-- The value of lane `l` of a register. -/
def lane (g : Group) (n l : Nat) : Nat := (g.regs.vl n l).toNat
def sval (g : Group) (n : Nat) : Nat := (g.regs.sr n).toNat
/-- A register with values in its first lanes. -/
def vlist (n : Nat) (l : List Nat) (r : Regs) : Regs := r.setV n (BitVec.allOnes 64) fun k => BitVec.ofNat 32 (l.getD k 0)
/-- R157: addition wraps, and moves the group one word on. -/
theorem test_iadd_wraps : after (.iadd 3 4 5) (fun r => vset 4 0xFFFFFFFF (vset 5 2 r)) (fun g =>
    lane g 3 0 == 1 && lane g 3 63 == 1 && g.ctl.pos == ⟨0x10000, 2⟩) = true := by decide +kernel
/-- R49: GUARD p2 lets lane 1 write alone. -/
theorem test_guard_gates : after (.movi 3 (-1)) (fun r => { r.setPr 2 (BitVec.allOnes 64) 2 with mode := 0x000C0002 }) (fun g =>
    lane g 3 0 == 0 && lane g 3 1 == 0xFFFFFFFF && lane g 3 2 == 0) = true := by decide +kernel
/-- R161's example. -/
theorem test_bfe_example : after (.bfe 3 4 5) (fun r => vset 4 0xDEADBEEF (vset 5 0x00010C08 r)) (fun g => lane g 3 7 == 0xFFFFFDBE) = true := by
  decide +kernel
/-- R162's example. -/
theorem test_intlv3_example : after (.intlv3 8 9 10) (fun r => vset 9 5 (vset 10 3 (vset 8 6 r))) (fun g => lane g 8 1 == 0x173) = true := by
  decide +kernel
/-- R164's example. -/
theorem test_movhi_example : after (.movhi 2 0x6F56D) (vset 2 0x1EEF) (fun g => lane g 2 5 == 0xDEADBEEF) = true := by decide +kernel
/-- R163: CLZ of zero is 32. -/
theorem test_clz_of_zero : after (.clz 3 4) id (fun g => lane g 3 0 == 32) = true := by decide +kernel
/-- R160: −1 < 1 for signed elements. -/
theorem test_icmp_signed : after (.icmp false .lt 2 6 7) (fun r => { vset 6 0xFFFFFFFF (vset 7 1 r) with mode := 0x000C006F }) (fun g =>
    g.regs.pr 2 == BitVec.allOnes 64) = true := by decide +kernel
/-- R155's example, and the last of its words. -/
theorem test_smovhi_example : after (.smovhi 8 8 0x0DEF) (sset 8 0x48D159E26AF) (fun g => sval g 8 == 0x123456789ABCDEF) = true := by decide +kernel
/-- R153, R154: 2^63 − 1 + 1 overflows without a carry. -/
theorem test_sadd_flags : after (.sadd 3 4 5 true) (fun r => sset 4 0x7FFFFFFFFFFFFFFF (sset 5 1 r)) (fun g =>
    sval g 3 == 0x8000000000000000 && g.regs.cc.n && !g.regs.cc.z && !g.regs.cc.c && g.regs.cc.v) = true := by decide +kernel
/-- R167: PCNT counts active lanes only. -/
theorem test_pcnt_active : left (exec (.pcnt 4 15) oneLane) (fun g => sval g 4 == 1) = true := by decide +kernel
/-- 1.0 + 2.0 = 3.0. -/
theorem test_fadd : after (.fadd 3 4 5) (fun r => vset 4 0x3F800000 (vset 5 0x40000000 r)) (fun g => lane g 3 0 == 0x40400000) = true := by
  decide +kernel
/-- R72, R77, R106: the sum of opposite infinities is a NaN, and raises invalid in the sticky status once 4 cycles of
1,200 MHz have passed, not before. -/
theorem test_fadd_invalid : left (exec (.fadd 3 4 5) ((oneLane.modRegs 3 fun r => vset 4 0x7F800000 (vset 5 0xFF800000 r)))) (fun g =>
    lane g 3 0 == 0x7FC00000 && g.sticky == 0 && g.late.map (fun l => (l.due, l.exc)) == [(oneLane.gt + 4, excIV)]) = true := by
  decide +kernel
/-- R179's example. -/
theorem test_cvt_example : after (.cvt 3 4 1 .bf16) (fun r => vset 4 0x3DCCCCCD (vset 3 0x1234 r)) (fun g => lane g 3 9 == 0x3DCD1234) = true := by
  decide +kernel
/-- R188's example: SUBG 2, v0 = the lane's number. -/
theorem test_shfl_example : after (.shflUp 1 0 true 1) (fun r => { vlist 0 (List.range 64) r with mode := 0x0004000F }) (fun g =>
    lane g 1 4 == 4 && lane g 1 5 == 4 && lane g 1 7 == 6 && g.regs.pr 13 == 0x1111111111111111) = true := by decide +kernel
/-- R192's example. -/
theorem test_redlog_example : after (.redlog 9 9 .fadd) (fun r =>
    { vlist 9 [0x4B800000, 0x3F800000, 0x3F800000, 0x3F800000] r with mode := 0x0004000F }) (fun g => lane g 9 0 == 0x4B800001 && lane g 9 3 == 0x4B800001) =
    true := by decide +kernel
theorem test_scanlog_example : after (.scanlog 9 9 false .fadd) (fun r =>
    { vlist 9 [0x4B800000, 0x3F800000, 0x3F800000, 0x3F800000] r with mode := 0x0004000F }) (fun g =>
    lane g 9 1 == 0x4B800000 && lane g 9 2 == 0x4B800001 && lane g 9 3 == 0x4B800001) = true := by decide +kernel
/-- R195's example. -/
theorem test_match_example : after (.vmatchf 4 6) (fun r => { vlist 6 [0, 0x80000000, 0x7FC00000, 0x7FC00000] r with mode := 0x0004000F }) (fun g =>
    lane g 4 0 == 3 && lane g 4 1 == 3 && lane g 4 2 == 0 && lane g 4 3 == 0) = true := by decide +kernel
/-- R145's example: I32 and round to zero. -/
theorem test_setmode_example : after (.setmodeImm 6 0x160) id (fun g => g.regs.mode == 0x000C016F) = true := by decide +kernel
/-- R15: lane 5 of a team of 64 by 1. -/
theorem test_idx_lin : after (.idx 3 .lin) id (fun g => lane g 3 5 == 5) = true := by decide +kernel
/-- R129: a branch that is taken goes to its target's header. -/
theorem test_branch_taken : left (exec (.bra .al 2) last) (fun g => g.ctl.pos.k == 0 && g.ctl.pos.h == 0x10008) = true := by decide +kernel
/-- R137: MIF keeps the lanes whose predicate is set, and pushes the others. -/
theorem test_mif_splits : left (exec (.mif 2 2) (last.modRegs 3 fun r => r.setPr 2 (BitVec.allOnes 64) 0xF)) (fun g =>
    g.active == 0xF && g.stack.map (·.mask) == [BitVec.allOnes 64]) = true := by decide +kernel
/-- R142's table, the first pass: MBRK takes lane 0 out of the body and of LOOPC. -/
theorem test_mbrk_first_pass : left (exec (.mbrk 1 2) ((lastS [⟨0xFF, modeEntry, .loopB, 0⟩, ⟨0xFF, modeEntry, .loopC, 0⟩] |>.modGroup 3 fun g =>
    { g with active := 0xFF }).modRegs 3 fun r => r.setPr 1 (BitVec.allOnes 64) 1)) (fun g =>
    g.active == 0xFE && g.stack.map (·.mask) == [0xFF, 0xFE]) = true := by decide +kernel
/-- R132: EXIT takes the lanes out, and the group begins to end. -/
theorem test_exit_ends : left (exec .exit last) (fun g => g.active == 0 && g.ctl.ending) = true := by decide +kernel
/-- R133, R373: TRAPU enters the S handler with its immediate in the argument. -/
theorem test_trapu_enters : left (exec (.trapu 7) last) (fun g =>
    g.ctl.level == .s && g.bankS.arg == 7 && g.bankS.plev == .u && g.regs.mode == modeEntry && g.ctl.pos == ⟨0x10000, 0⟩) = true := by decide +kernel
/-- R105: TRAP at level U is refused as privileged. -/
theorem test_trap_privileged : left (exec (.trap 7) ready) (fun g => g.ctl.level == .s && g.bankS.cause == Cause.priv.code) = true := by decide +kernel
/-- R374: HRET restores level, MODE and position. -/
theorem test_hret_returns : left (exec .hret (readyG fun g => { g with
      ctl := { g.ctl with level := .s }, bankS := { g.bankS with plev := .u, mode := 0x000C001F, resume := BitVec.ofNat 64 (0x10000 * 64 + 1) } })) (fun g =>
    g.ctl.level == .u && g.regs.mode == 0x000C001F && g.ctl.pos == ⟨0x10000, 1⟩) = true := by decide +kernel
/-- R107: a load counts on flag SETA and leaves a pending tag on its register. -/
theorem test_load_is_outstanding : left (exec (.ld 4 2 1 .b32 .normal false) oneLane) (fun g =>
    g.flags.getD 0 0 == 1 && g.tags.any fun t => t.reg == .v 4) = true := by decide +kernel
/-- R199: the lowest misaligned lane is named. -/
theorem test_misaligned_traps : left (exec (.redst 5 2 6 .b32 .normal .add .f32) oddLane) (fun g =>
    g.ctl.level == .s && g.bankS.cause == Cause.misalign.code && g.bankS.lanes == 1) = true := by decide +kernel
/-- R301, R302: a store that has arrived is seen at its home by what arrives later. -/
theorem test_store_is_pending : next (exec (.homeStoreArrive 70 false) (asking (reqOf .store .fresh))) (fun s =>
    s.byteAt placeData 0 == 1 && s.byteAt (placeData + 3) 0 == 4 && s.byteAt (placeData + 4) 0 == 0) = true := by decide +kernel
/-- R442: without power nothing happens. -/
theorem test_no_power : exec .nop { ready with power := false } = .fault .noPower := rfl
/-- R25: a span moves a form. -/
theorem test_span_moves : next (exec (.movi 3 7) spanning) (fun s => (tget s.spans 9).any fun x => x.vf 3 == Form.const 7 && x.pos == ⟨0x10000, 2⟩) = true := by
  decide +kernel
/-- R59, R227: a predicate form and a byte-count slot read back from a record as they were written. -/
theorem test_record_reads_back : (PForm.ofBytes (PForm.bytes (.conj [⟨-1, 2, 0, 0, 7, true⟩])) == .conj [⟨-1, 2, 0, 0, 7, true⟩] &&
    BcSlot.ofWord (BcSlot.word ⟨-3, true, 5⟩) == ⟨-3, true, 5⟩ && PForm.ofBytes (PForm.bytes (.const true)) == .const true) = true := by decide +kernel

end Sys2Proof.Tests
end

section
/-! SUPPORT. What the decoder's answer says: a candidate is admitted exactly when it is well-formed and encodes to the words
it was read from (R7, R105), and `decode` hands it one word, or two where the opcode tables mark the instruction E (R98). -/
namespace Sys2Proof

/-- R7, R105: a word is accepted for the candidate's operands and for all its bits, reserved fields among them. -/
theorem checkCand_eq_instr_iff {ws : List Nat} {c : Cand} {i : Instr} {n : Nat} :
    checkCand ws c = .instr i n ↔ c = .ok i ∧ i.wf = true ∧ encode i = ws ∧ n = ws.length := by
  cases c with
  | error r => simp [checkCand]
  | ok j =>
    constructor
    · intro h
      simp only [checkCand] at h
      split at h
      case isTrue hwf =>
        split at h
        case isTrue henc =>
          cases h
          exact ⟨rfl, hwf, henc, rfl⟩
        case isFalse => cases h
      case isFalse => cases h
    · rintro ⟨hc, hwf, henc, rfl⟩
      cases hc
      simp [checkCand, hwf, henc]

/-- R98: which words an accepted instruction is read from, the extension word taken by the instructions marked E alone. -/
theorem decode_eq_instr_iff {w : Nat} {x : Option Nat} {i : Instr} {n : Nat} :
    decode w x = .instr i n ↔ w < 4294967296 ∧
      ((takesExt w = false ∧ checkCand [w] (decFields w 0) = .instr i n) ∨
        ∃ v, takesExt w = true ∧ x = some v ∧ v / 67108864 = 0x3E ∧
          checkCand [w, v] (decFields w (fld v 1 67108864)) = .instr i n) := by
  unfold decode
  by_cases hw : 4294967296 ≤ w
  · simp [hw]
  · cases hext : takesExt w with
    | false => simp [hw, Nat.lt_of_not_le hw]
    | true =>
      cases x with
      | none => simp [hw]
      | some v => by_cases hv : v / 67108864 = 0x3E <;> simp [hw, hv, Nat.lt_of_not_le hw]

/-- Settles O3: either way the decoder takes, one word or two, its answer is an admitted candidate of just those words. -/
theorem decodedWordsAreExact : Obligations.DecodedWordsAreExact := by
  unfold Obligations.DecodedWordsAreExact
  intro w x i n h
  obtain ⟨-, ⟨-, hone⟩ | ⟨v, -, hx, -, htwo⟩⟩ := decode_eq_instr_iff.mp h
  · obtain ⟨-, hwf, henc, hn⟩ := checkCand_eq_instr_iff.mp hone
    exact ⟨hwf, .inl ⟨hn, henc⟩⟩
  · obtain ⟨-, hwf, henc, hn⟩ := checkCand_eq_instr_iff.mp htwo
    exact ⟨hwf, .inr ⟨v, hn, hx, henc⟩⟩

end Sys2Proof
end

section
/-! SUPPORT. Predicate registers, the launch-linear index, and the frame of the instructions that write registers alone. -/
namespace Sys2Proof.Machine

/-! ### Predicate registers (R44) -/

@[simp] theorem Regs.pr_fifteen (r : Regs) : r.pr 15 = BitVec.allOnes 64 := by simp [Regs.pr]
@[simp] theorem Regs.setPr_fifteen (r : Regs) (m bits : Mask) : r.setPr 15 m bits = r := by simp [Regs.setPr]
/-- An ordinary predicate takes the written bits in the lanes of the mask and keeps the others. -/
theorem Regs.pr_setPr_same {r : Regs} {n : Nat} (hp : r.p.length = 15) (hn : n < 15) (m bits : Mask) :
    (r.setPr n m bits).pr n = ((bits &&& m) ||| (r.pr n &&& ~~~m)) := by
  have h15 : n ≠ 15 := by omega
  simp [Regs.setPr, Regs.pr, h15, List.getD_eq_getElem?_getD, hp, hn]
theorem Regs.pr_setPr_ne {r : Regs} {n k : Nat} (h : k ≠ n) (m bits : Mask) : (r.setPr n m bits).pr k = r.pr k := by
  by_cases hn : n = 15
  · subst hn
    rw [Regs.setPr_fifteen]
  · simp [Regs.setPr, Regs.pr, hn, List.getD_eq_getElem?_getD, Ne.symm h]

/-- Settles O10, from what a predicate reads after a write to itself and to another. -/
theorem predicateRegisters : Obligations.PredicateRegisters := by
  unfold Obligations.PredicateRegisters
  intro r n k m bits
  exact ⟨r.pr_fifteen, r.setPr_fifteen m bits, fun hp hn => Regs.pr_setPr_same hp hn m bits, fun hk => Regs.pr_setPr_ne hk m bits⟩

/-! ### The launch-linear index (R15) -/

/-- Settles O14: IDX writes its value lane by lane, and under `lin` that is the launch-linear index of the lane's item. -/
theorem launchIndex : Obligations.LaunchIndex := by
  unfold Obligations.LaunchIndex
  intro d
  exact writesRegs (q := fun _ e r => r.setV d e.lanes fun lane => match e.g.items.getD lane none with
    | some it => idxValue e.launch it lane .lin
    | none => 0) (fun _ => rfl) rfl (fun _ _ => rfl)

/-! ### Instructions that write registers alone (R49, R109) -/

/-- Neither MODE nor a tile register differs between two records of registers. -/
def Regs.SameModeTiles (r q : Regs) : Prop := q.mode = r.mode ∧ q.t = r.t

theorem Regs.sameModeTiles_setV (r : Regs) (n : Nat) (m : Mask) (f : Nat → Word) : r.SameModeTiles (r.setV n m f) := ⟨rfl, rfl⟩
theorem Regs.sameModeTiles_setS (r : Regs) (n : Nat) (x : DWord) : r.SameModeTiles (r.setS n x) := ⟨rfl, rfl⟩
theorem Regs.sameModeTiles_setU (r : Regs) (pair : Bool) (n : Nat) (m : Mask) (f : Nat → Nat) : r.SameModeTiles (r.setU pair n m f) := by
  cases pair <;> exact ⟨rfl, rfl⟩
theorem Regs.sameModeTiles_setPr (r : Regs) (n : Nat) (m bits : Mask) : r.SameModeTiles (r.setPr n m bits) := by
  unfold Regs.setPr
  split <;> exact ⟨rfl, rfl⟩

/-- A Short instruction whose own work, in a group, is a change of its registers that leaves MODE and the tile registers. -/
def RegWriter (i : Instr) : Prop :=
  i.cls = .short ∧ ∃ (q : State → GI → Regs → Regs) (p : SI → State → SFx),
    (∀ s, exec i s = s.issue i (fun e s => .done (s.modRegs e.gid (q s e))) p) ∧ ∀ s e r, Regs.SameModeTiles r (q s e r)

theorem regWriter_lanewise {i : Instr} {p : SI → State → SFx} {d : Nat} {f : GI → Regs → Nat → Word} (hc : i.cls = .short)
    (hx : ∀ s, exec i s = s.issue i (fun e s => lanewise d (f e) e s) p) : RegWriter i :=
  ⟨hc, _, p, hx, fun _ _ _ => Regs.sameModeTiles_setV _ _ _ _⟩
theorem regWriter_lanewiseE {i : Instr} {p : SI → State → SFx} {d a b : Nat} {f : Nat → Bool → Nat → Nat → Nat → Nat}
    (hc : i.cls = .short) (hx : ∀ s, exec i s = s.issue i (lanewiseE d a b f) p) : RegWriter i :=
  ⟨hc, _, p, hx, fun _ _ _ => Regs.sameModeTiles_setU _ _ _ _ _⟩
theorem regWriter_setPr {i : Instr} {p : SI → State → SFx} {d : Nat} {f : GI → Mask} (hc : i.cls = .short)
    (hx : ∀ s, exec i s = s.issue i (predwise d f) p) : RegWriter i :=
  ⟨hc, _, p, hx, fun _ _ _ => Regs.sameModeTiles_setPr _ _ _ _⟩
theorem regWriter_setS {i : Instr} {p : SI → State → SFx} {d : Nat} {f : GI → DWord} (hc : i.cls = .short)
    (hx : ∀ s, exec i s = s.issue i (fun e s => .done (s.modRegs e.gid fun r => r.setS d (f e))) p) : RegWriter i :=
  ⟨hc, _, p, hx, fun _ _ _ => Regs.sameModeTiles_setS _ _ _⟩
/-- A uniform instruction writes its result, and CC where it gives flags (R152, R153). -/
theorem regWriter_uniOp {i : Instr} {d a b : Nat} {f : DWord → DWord → DWord} {cc : Option (DWord → DWord → CC)}
    (hc : i.cls = .short) (hx : ∀ s, exec i s = uniOp i d a b f cc s) : RegWriter i :=
  ⟨hc, _, _, hx, fun _ _ _ => by cases cc <;> exact ⟨rfl, rfl⟩⟩

/-- What R49 and R109 let an instruction that writes registers alone change: its own group's registers, tags and position. -/
def FrameOfGroup (s t : State) (e : GI) : Prop :=
  (∀ g, g ≠ e.gid → tget t.groups g = tget s.groups g) ∧
  (∀ pa key, t.byteAt pa key = s.byteAt pa key) ∧
  t = { s with groups := t.groups } ∧
  ∃ g, tget t.groups e.gid = some g ∧ g.stack = e.g.stack ∧ g.active = e.g.active ∧ g.sticky = e.g.sticky ∧ g.late = e.g.late ∧
    g.bankS = e.g.bankS ∧ g.bankM = e.g.bankM ∧ g.rng = e.g.rng ∧ g.flags = e.g.flags ∧ g.regs.mode = e.g.regs.mode ∧
    g.regs.t = e.g.regs.t ∧ g.ctl.level = e.g.ctl.level ∧ g.ctl.pos = e.after

theorem frameOfGroup_wrote (s : State) (e : GI) {r : Regs} (h : e.g.regs.SameModeTiles r) : FrameOfGroup s (e.wrote s r) e :=
  ⟨fun _ hg => tget_tput_ne _ _ _ _ hg, fun _ _ => rfl, rfl,
    ⟨_, tget_tput _ _ _, rfl, rfl, rfl, rfl, rfl, rfl, rfl, rfl, h.1, h.2, rfl, rfl⟩⟩
/-- A register writer's next state is the one in which it has written its group's registers. -/
theorem RegWriter.frame {i : Instr} (h : RegWriter i) {s t : State} {e : GI} (hi : Issues s i e) (hg : GoesOn s e)
    (ht : exec i s = .next t) : FrameOfGroup s t e := by
  obtain ⟨hc, q, p, hx, hq⟩ := h
  have hw : exec i s = .next (e.wrote s (q s e e.g.regs)) := writesRegs hx hc (fun _ _ => rfl) s e hi hg
  rw [ht] at hw
  cases hw
  exact frameOfGroup_wrote s e (hq s e e.g.regs)

section
variable (d a b p : Nat) (f : Bool) (imm : Int) (k : IdxSel) (c : ICond)

theorem regWriter_iadd : RegWriter (.iadd d a b) := regWriter_lanewiseE rfl fun _ => rfl
theorem regWriter_isub : RegWriter (.isub d a b) := regWriter_lanewiseE rfl fun _ => rfl
theorem regWriter_imul : RegWriter (.imul d a b) := regWriter_lanewiseE rfl fun _ => rfl
theorem regWriter_imad : RegWriter (.imad d a b) := regWriter_lanewiseE rfl fun _ => rfl
theorem regWriter_iand : RegWriter (.iand d a b) := regWriter_lanewise rfl fun _ => rfl
theorem regWriter_ior : RegWriter (.ior d a b) := regWriter_lanewise rfl fun _ => rfl
theorem regWriter_ixor : RegWriter (.ixor d a b) := regWriter_lanewise rfl fun _ => rfl
theorem regWriter_ishl : RegWriter (.ishl d a b) := regWriter_lanewiseE rfl fun _ => rfl
theorem regWriter_ishr : RegWriter (.ishr d a b) := regWriter_lanewiseE rfl fun _ => rfl
theorem regWriter_isra : RegWriter (.isra d a b) := regWriter_lanewiseE rfl fun _ => rfl
theorem regWriter_imin : RegWriter (.imin d a b) := regWriter_lanewiseE rfl fun _ => rfl
theorem regWriter_imax : RegWriter (.imax d a b) := regWriter_lanewiseE rfl fun _ => rfl
theorem regWriter_iabs : RegWriter (.iabs d a) := regWriter_lanewiseE rfl fun _ => rfl
theorem regWriter_clz : RegWriter (.clz d a) := regWriter_lanewise rfl fun _ => rfl
theorem regWriter_popc : RegWriter (.popc d a) := regWriter_lanewise rfl fun _ => rfl
theorem regWriter_brev : RegWriter (.brev d a) := regWriter_lanewise rfl fun _ => rfl
theorem regWriter_bfe : RegWriter (.bfe d a b) := regWriter_lanewise rfl fun _ => rfl
theorem regWriter_bfi : RegWriter (.bfi d a b) := regWriter_lanewise rfl fun _ => rfl
theorem regWriter_mov : RegWriter (.mov d a) := regWriter_lanewise rfl fun _ => rfl
theorem regWriter_movs : RegWriter (.movs d a f) := regWriter_lanewise rfl fun _ => rfl
theorem regWriter_icmp : RegWriter (.icmp f c p a b) := regWriter_setPr rfl fun _ => rfl
theorem regWriter_iaddi : RegWriter (.iaddi d a imm) := regWriter_lanewiseE rfl fun _ => rfl
theorem regWriter_movi : RegWriter (.movi d imm) := regWriter_lanewise rfl fun _ => rfl
theorem regWriter_idx : RegWriter (.idx d k) := regWriter_lanewise rfl fun _ => rfl
theorem regWriter_getmode : RegWriter (.getmode d) := regWriter_setS rfl fun _ => rfl
theorem regWriter_isel : RegWriter (.isel d a f p) := regWriter_lanewise rfl fun _ => rfl
theorem regWriter_pand : RegWriter (.pand d a b) := regWriter_setPr rfl fun _ => rfl
theorem regWriter_por : RegWriter (.por d a b) := regWriter_setPr rfl fun _ => rfl
theorem regWriter_pxor : RegWriter (.pxor d a b) := regWriter_setPr rfl fun _ => rfl
theorem regWriter_pandn : RegWriter (.pandn d a b) := regWriter_setPr rfl fun _ => rfl
theorem regWriter_pcnt : RegWriter (.pcnt d a) := regWriter_setS rfl fun _ => rfl
theorem regWriter_sadd : RegWriter (.sadd d a b f) := regWriter_uniOp rfl fun _ => rfl
theorem regWriter_ssub : RegWriter (.ssub d a b f) := regWriter_uniOp rfl fun _ => rfl
theorem regWriter_smul : RegWriter (.smul d a b f) := regWriter_uniOp rfl fun _ => rfl
theorem regWriter_scmp : RegWriter (.scmp a b) := ⟨rfl, _, _, fun _ => rfl, fun _ _ _ => ⟨rfl, rfl⟩⟩
theorem regWriter_smov : RegWriter (.smov d a) :=
  regWriter_uniOp (d := d) (a := a) (b := a) (f := fun x _ => x) (cc := none) rfl fun _ => rfl
theorem regWriter_smovi : RegWriter (.smovi d imm) :=
  regWriter_uniOp (d := d) (a := d) (b := d) (f := fun _ _ => BitVec.ofInt 64 imm) (cc := none) rfl fun _ => rfl

end

/-- The instructions of O8 write registers alone. -/
theorem regWriter_of_listed {i : Instr} {d a b p : Nat} {f : Bool} {imm : Int} {k : IdxSel} {c : ICond}
    (h : i ∈ [.iadd d a b, .isub d a b, .imul d a b, .imad d a b, .iand d a b, .ior d a b, .ixor d a b, .ishl d a b, .ishr d a b,
      .isra d a b, .imin d a b, .imax d a b, .iabs d a, .clz d a, .popc d a, .brev d a, .bfe d a b, .bfi d a b, .mov d a,
      .movs d a f, .icmp f c p a b, .iaddi d a imm, .movi d imm, .idx d k, .getmode d, .isel d a f p, .pand d a b, .por d a b,
      .pxor d a b, .pandn d a b, .pcnt d a, .sadd d a b f, .ssub d a b f, .smul d a b f, .scmp a b, .smov d a, .smovi d imm]) :
    RegWriter i := by
  revert i
  simp only [List.forall_mem_cons, List.not_mem_nil, IsEmpty.forall_iff, implies_true, and_true]
  exact ⟨regWriter_iadd .., regWriter_isub .., regWriter_imul .., regWriter_imad .., regWriter_iand .., regWriter_ior ..,
    regWriter_ixor .., regWriter_ishl .., regWriter_ishr .., regWriter_isra .., regWriter_imin .., regWriter_imax ..,
    regWriter_iabs .., regWriter_clz .., regWriter_popc .., regWriter_brev .., regWriter_bfe .., regWriter_bfi ..,
    regWriter_mov .., regWriter_movs .., regWriter_icmp .., regWriter_iaddi .., regWriter_movi .., regWriter_idx ..,
    regWriter_getmode .., regWriter_isel .., regWriter_pand .., regWriter_por .., regWriter_pxor ..,
    regWriter_pandn .., regWriter_pcnt .., regWriter_sadd .., regWriter_ssub .., regWriter_smul ..,
    regWriter_scmp .., regWriter_smov .., regWriter_smovi ..⟩

/-- Settles O8: each of the instructions named is a register writer, whose frame is said once. -/
theorem frameOfRegisterWrites : Obligations.FrameOfRegisterWrites := by
  unfold Obligations.FrameOfRegisterWrites
  intro s t e i d a b p f imm k c hmem hi hg ht
  exact (regWriter_of_listed hmem).frame hi hg ht

end Sys2Proof.Machine
end

section
/-! SUPPORT. Private and scratchpad accesses: the operands that a store captures at issue are its data registers' bytes. -/
namespace Sys2Proof.Machine

/-- The data registers captured behind the offset are read back in each lane as they stand at issue (R108). -/
theorem capLane_data (r : Regs) (o d n l : Nat) :
    capLane (r.vr o :: (List.range n).map fun k => r.vr (d + k)) 1 n l = (List.range n).map fun k => r.vl (d + k) l := by
  refine List.map_congr_left fun k hk => ?_
  have hk : k < n := List.mem_range.mp hk
  simp [Nat.add_comm 1 k, Regs.vl, hk]
/-- What a store has captured is what it stores (R204). -/
theorem storeBytes_captured (e : GI) (z : Size) (o d l : Nat) :
    storeBytes z (capLane (e.g.regs.vr o :: (List.range (zCount z)).map fun k => e.g.regs.vr (d + k)) 1 (zCount z) l) =
      e.dataOf z d l := by
  rw [capLane_data]
  rfl
/-- An instruction of the common access, from the lanes and the plan that it has of itself: no reissue after a DIEOFF narrows
the lanes (R374). -/
theorem accesses_of_planOf {i : Instr} {m : GI → Mask} {p : GI → Plan} (hx : ∀ s, exec i s = s.issue i GI.access matSpan)
    (hm : ∀ e : GI, ({ e with i := i } : GI).takePart = e.redo (m e))
    (hp : ∀ e : GI, planOf i (capS i e.g.regs) (capV i e.g.regs) (m e) e.launch.priv e.team.size e.launch.scrBytes = some (p e))
    (hn : ∀ e, ((p e).at_ == .loc) = false) : Accesses i m p := by
  refine accesses_of matSpan hx (fun e hi hr => ?_) (fun e hi => ?_) hn
  · subst hi
    exact (hm e).trans (redo_none hr _)
  · subst hi
    exact hp e

/-- Settles O33: the plans of private memory and of the scratchpad, over the lanes that the instruction gates and the operands
that it captures. -/
theorem privateAndScratchpad : Obligations.PrivateAndScratchpad := by
  unfold Obligations.PrivateAndScratchpad
  intro d sr o b c z h op ty
  refine ⟨?ldp, ?stp, ?ldc, ?stc, ?atomc, ?redc⟩
  case ldp | ldc => exact accesses_of_planOf (fun _ => rfl) (fun _ => rfl) (fun _ => rfl) fun _ => rfl
  case atomc | redc => exact accesses_of_planOf (fun _ => rfl) (fun _ => rfl) (fun _ => rfl) fun _ => rfl
  case stp | stc =>
    refine accesses_of_planOf (fun _ => rfl) (fun _ => rfl) (fun e => ?_) fun _ => rfl
    rw [← funext (storeBytes_captured e z o d)]
    rfl

end Sys2Proof.Machine
end

section
/-! SUPPORT. What a turn issues: the fetched word's instruction, of a group that may issue. -/
namespace Sys2Proof.Machine

/-! ### The instruction at a group's position (R93, R98) -/

theorem decodeNext_of_decode {w n : Nat} {x : Option Nat} {i : Instr} (h : decode w x = .instr i n) : decodeNext w x = .run i := by
  simp [decodeNext, h, Decoded.toOption]
/-- A word that takes no extension decodes alike whatever follows it. -/
theorem decodeNext_none_of_decode {w n : Nat} {x : Option Nat} {i : Instr} (h : decode w x = .instr i n) (ht : takesExt w = false) :
    decodeNext w none = .run i := by
  refine decodeNext_of_decode (n := n) (decode_eq_instr_iff.mpr ?_)
  obtain ⟨hw, ⟨-, hone⟩ | ⟨v, hv, -⟩⟩ := decode_eq_instr_iff.mp h
  · exact ⟨hw, .inl ⟨ht, hone⟩⟩
  · rw [ht] at hv
    cases hv
/-- Inside a clause the next instruction is that of the word at the position, with the word behind it where it takes one. -/
theorem nextInstr_inside {s : State} {e : GI} {w n : Nat} {x : Option Nat} {i : Instr} (hk : 0 < e.g.ctl.pos.k)
    (hw : e.fetchIn s (e.g.ctl.pos.h + 4 * e.g.ctl.pos.k) = .word w) (hd : decode w x = .instr i n)
    (hx : takesExt w = true → e.g.ctl.pos.k < e.g.ctl.len ∧
      ∃ y, x = some y ∧ e.fetchIn s (e.g.ctl.pos.h + 4 * (e.g.ctl.pos.k + 1)) = .word y) : e.nextInstr s = .run i := by
  have hk0 : e.g.ctl.pos.k ≠ 0 := by omega
  simp only [GI.nextInstr, nextOf, hk0, if_false, hw]
  cases ht : takesExt w with
  | false => simpa using decodeNext_none_of_decode hd ht
  | true =>
    obtain ⟨hlen, y, rfl, hy⟩ := hx ht
    simpa [hlen, hy] using decodeNext_of_decode hd
/-- At a clause boundary it is the clause header that stands there. -/
theorem nextInstr_header {s : State} {e : GI} {w n : Nat} {i : Instr} (hk : e.g.ctl.pos.k = 0)
    (hw : e.fetch s e.g.ctl.level e.g.ctl.pos.h = .word w) (hh : isHeader w = true) (hd : decode w none = .instr i n) :
    e.nextInstr s = .run i := by
  simpa [GI.nextInstr, nextOf, hk, hw, hh] using decodeNext_of_decode hd

/-! ### Turns (R18, R369) -/

/-- A free group issues its next instruction. -/
theorem groupIssue_run {s : State} {gid : Nat} {e : GI} {i : Instr} (hg : s.gi gid .nop = some e) (hf : e.g.free = true)
    (hn : e.nextInstr s = .run i) : s.groupIssue gid = (some i, { s with issuer := .group gid }) := by
  simp [State.groupIssue, hg, hf, hn]
/-- A group's turn is its issue where its quadrant's scheduler chooses it. -/
theorem groupTurn_chosen {s : State} {gid : Nat} {e : GI} (hg : s.gi gid .nop = some e) (hc : s.choose e.g.core e.g.quad = some gid) :
    s.groupTurn gid = s.groupIssue gid := by
  simp [State.groupTurn, gi_group hg, hc]
/-- Where no group is overdue, a step takes the next turn once time has passed. -/
theorem step_select {s : State} (hp : s.power = true) (ho : s.overdue = none) : step s = State.runTurn s.tick.select := by
  simp [step, hp, ho]
/-- Where a group is overdue, a step is its turn. -/
theorem step_forced {s : State} {gid : Nat} (hp : s.power = true) (ho : s.overdue = some gid) :
    step s = State.runTurn (s.forced gid) := by
  simp [step, hp, ho]
/-- A turn that issues an instruction executes it. -/
theorem runTurn_issued {p : Option Instr × State} {i : Instr} {u : State} (h : p = (some i, u)) : State.runTurn (asRun p) = exec i u := by
  rw [h]
  rfl
/-- A turn of a group that may issue, at the head of the agenda. -/
theorem step_groupTurn {s : State} {gid : Nat} {r : List Turn} {e : GI} {i : Instr} (hp : s.power = true) (ho : s.overdue = none)
    (hl : s.tick.lateDue = none) (ha : s.agenda = .group gid :: r) (hg : ({ s.tick with agenda := r } : State).gi gid .nop = some e)
    (hc : ({ s.tick with agenda := r } : State).choose e.g.core e.g.quad = some gid) (hf : e.g.free = true)
    (hn : e.nextInstr { s.tick with agenda := r } = .run i) :
    step s = exec i { s.tick with agenda := r, issuer := .group gid } := by
  have ht : s.tick.agenda = .group gid :: r := ha
  have hs : s.tick.select = asRun (({ s.tick with agenda := r } : State).groupTurn gid) := by
    simp only [State.select, hl, ht]
  rw [step_select hp ho, hs]
  exact runTurn_issued ((groupTurn_chosen hg hc).trans (groupIssue_run hg hf hn))

/-- Settles O4: the turn that the agenda, or an overdue group, takes, and the instruction that its fetch gives. -/
theorem stepRunsDecoded : Obligations.StepRunsDecoded := by
  unfold Obligations.StepRunsDecoded
  intro s r gid w n i e x u v hp
  refine ⟨?inside, ?header, ?event, ?overdue, rfl⟩
  case inside =>
    intro ho hl ha hg hc hf hk hw hd hx
    exact step_groupTurn hp ho hl ha hg hc hf (nextInstr_inside hk hw hd hx)
  case header =>
    intro ho hl ha hg hc hf hk hw hh hd
    exact step_groupTurn hp ho hl ha hg hc hf (nextInstr_header hk hw hh hd)
  case event =>
    intro ho hl ha
    have ht : s.tick.agenda = .event i :: r := ha
    rw [step_select hp ho]
    simp only [State.select, hl, ht, State.runTurn]
    rfl
  case overdue =>
    intro ho hg hf hk hw ht hd
    have hn := nextInstr_inside hk hw hd fun h => by rw [ht] at h; cases h
    exact (step_forced hp ho).trans (runTurn_issued (groupIssue_run hg hf hn))

/-! ### Handlers, groups, spans -/

theorem Fetched.header_iff {f : Fetched} : f.header = true ↔ ∃ w, f = .word w ∧ isHeader w = true := by
  cases f <;> simp [Fetched.header]
/-- A trap to level S whose handler stands is taken: the bank is written, and the group stands at the handler (R371, R373). -/
theorem enterTrap_takes {s : State} {gid : Nat} {e : GI} {t : TrapRec} (hg : s.gi gid .nop = some e) (ht : e.g.ctl.trap = some t)
    (hm : t.toM = false) (hq : e.g.quiet = true) (hd : e.g.ctl.desched = none) (hh : e.handlerOk s = true) :
    s.enterTrap gid = e.trapTaken s t := by
  obtain ⟨hgid, -, hgrp, -, -⟩ := gi_spec hg
  subst hgid
  unfold GI.handlerOk at hh
  cases hc : tget s.ctxs e.ctx with
  | none => rw [hc] at hh; cases hh
  | some c =>
    rw [hc] at hh
    obtain ⟨w, hf, hw⟩ := Fetched.header_iff.mp hh
    simp only [State.enterTrap, hg, ht, hq, hd, hm, hc, hf, hw, Bool.not_true, Option.isSome_none, Bool.or_self, Bool.false_eq_true,
      if_false, if_true, false_and, modGroup_eq _ _ _ _ hgrp, GI.trapTaken, GI.entered, GI.bankFor, GI.svec]

/-- With power an event's answer is its work on the state. -/
theorem event_next {s : State} (h : s.power = true) (f : State → State) : s.event f = .next (f s) := by
  simp [State.event, h]

/-- Settles O47: the handler of a trap, the PREEMPT handler, the end of a group, and the expansion of a span. -/
theorem groupsEnterExpandAndEnd : Obligations.GroupsEnterExpandAndEnd := by
  unfold Obligations.GroupsEnterExpandAndEnd
  intro gid n e t x s1
  refine ⟨?trap, ?preempt, ?ends, ?expand⟩
  case trap =>
    rintro s hp ⟨hg, ht, hm, -, he, hq, hd, hh⟩
    have hw := enterTrap_takes hg ht hm hq hd hh
    change execTrapHandlerEntry gid s = _
    simp only [execTrapHandlerEntry, event_next hp, gi_group hg, he, if_false, hw]
  case preempt =>
    rintro s hp ⟨hg, hpre, hen, hq, hh⟩
    obtain ⟨w, hf, hw⟩ := Fetched.header_iff.mp hh
    change execPreemptEntry gid s = _
    simp only [execPreemptEntry, event_next hp, hg, Option.isNone_iff_eq_none, Option.ne_none_iff_isSome.mpr hpre, hen, hq, hf, hw,
      Bool.not_true, Bool.false_eq_true, if_false, if_true, modGroup_eq _ _ _ _ (gi_group hg)]
  case ends =>
    rintro s hp ⟨hg, he, hfl, hl, ht, ha⟩
    have harr : (s.work.arrives.any fun a => a.2.gid == gid) = false := by simpa using ha
    change execGroupEnd gid s = _
    simp [execGroupEnd, event_next hp, hg, he, hfl, hl, ht, harr]
  case expand =>
    rintro s hp ⟨hx, hpark, hs⟩
    change execTeamExpand n s = _
    simp only [execTeamExpand, event_next hp, hx, hpark, hs, ne_eq, not_true_eq_false, if_false]

end Sys2Proof.Machine
end

section
/-! SUPPORT. Launches and contexts: submission, placement, and the context commands. -/
namespace Sys2Proof.Machine

/-! ### Placement (R364, R367) -/

/-- A launch without a die scratchpad needs none carved. -/
theorem withScratch_none {s : State} {n die : Nat} {l : Launch} (h : l.csp = 0) : s.withScratch n l die = some s := by
  simp [State.withScratch, h]
/-- The next piece of an unpaired launch that holds nothing back is one span. -/
theorem putPiece_span {s : State} {n die core m : Nat} {l : Launch} (hr : l.reserves = false) (hq : l.paired = false) :
    s.putPiece n l die core m =
      (s.putSpan l n core (l.nextT.getD die 0 % l.gx) m (l.nextT.getD die 0 / l.gx)).modLaunch n fun y =>
        { y with nextT := y.nextT.set die (l.nextT.getD die 0 + m) } := by
  simp [State.putPiece, hr, hq]

/-! ### Context commands (R388) -/

/-- The command under way is the event's own. -/
theorem ctxEvent_commands {s : State} {op c : Nat} {f : State → Option Nat × State} (hc : c < 16384) (h : s.commands op c) :
    s.ctxEvent op c f = (f s).2.modPkg fun p => { p with cmdOut := (f s).1 } := by
  obtain ⟨hb, ho, hx, hn⟩ := h
  simp [State.ctxEvent, hb, ho, hx, hn, Nat.mod_eq_of_lt hc]

/-- Settles O50: a descriptor's answer, the next piece of an eligible launch, and the command under way. -/
theorem launchesAndContexts : Obligations.LaunchesAndContexts := by
  unfold Obligations.LaunchesAndContexts
  intro n die core c st x k d l s1
  refine ⟨?accepted, ?refused, ?address, ?piece, ?preempt, ?whole, ?enable, ?disable, ?release, ?complete⟩
  case accepted =>
    rintro s hp ⟨hx, hk, hs, hr, ha, hh, hd, hl, hn⟩
    subst hl
    change execLaunchSubmit n s = _
    simp only [execLaunchSubmit, event_next hp, hx, hk, hs, hr, Nat.not_le.mpr ha, hh, hd, hn, Bool.or_self, Bool.false_eq_true,
      if_false, State.fresh]
  case refused =>
    rintro s hp ⟨hx, hk, hs, hr, ha, hh, hd⟩
    change execLaunchSubmit n s = _
    simp only [execLaunchSubmit, event_next hp, hx, hk, hs, hr, Nat.not_le.mpr ha, hh, hd, Bool.or_self, Bool.false_eq_true, if_false]
  case address =>
    rintro s hp ⟨hx, hk, hs, hr, ha⟩
    change execLaunchSubmit n s = _
    simp only [execLaunchSubmit, event_next hp, hx, hk, hs, hr, ha, Bool.or_self, Bool.false_eq_true, if_false, if_true]
  case piece =>
    rintro s hp ⟨hl, he, ho, hc, hq, hco, hns, hcore⟩
    have hr : l.reserves = false := by simp [Launch.reserves, hco, hns]
    change execPlacePiece n die s = _
    simp only [execPlacePiece, event_next hp, hl, he, ho, hco, withScratch_none hc, hcore, Bool.not_true, Bool.or_self,
      Bool.false_eq_true, if_false, putPiece_span hr hq]
  case preempt =>
    rintro s hp ⟨hl, he, ho, hc, hco, hcore⟩
    change execPlacePiece n die s = _
    simp only [execPlacePiece, event_next hp, hl, he, ho, hco, withScratch_none hc, hcore, Bool.not_true, Bool.or_self,
      Bool.false_eq_true, if_false]
  case whole =>
    rintro s hp ⟨hl, he, ho, hco, hw⟩
    change execPlacePiece n die s = _
    simp only [execPlacePiece, event_next hp, hl, he, ho, hco, hw, Bool.not_true, Bool.or_self, Bool.false_eq_true, if_false, if_true]
  case enable =>
    rintro s hp ⟨hc, hcmd⟩
    change execCtxEnable c s = _
    simp only [execCtxEnable, event_next hp, ctxEvent_commands hc hcmd, Nat.mod_eq_of_lt hc]
  case disable =>
    rintro s hp ⟨hc, hcmd, hx⟩
    change execCtxDisable c s = _
    simp only [execCtxDisable, event_next hp, ctxEvent_commands hc hcmd, Nat.mod_eq_of_lt hc, hx, if_true]
  case release =>
    rintro s hp ⟨hc, hcmd, hx, hl⟩
    have hx' : (tget s.ctxs c).isNone = false := by simpa [Option.isSome_iff_ne_none] using hx
    change execCtxRelease c s = _
    simp only [execCtxRelease, event_next hp, ctxEvent_commands hc hcmd, Nat.mod_eq_of_lt hc, hx', hl, Bool.false_eq_true, if_false]
  case complete =>
    rintro s hp ⟨hb, ho⟩
    change execCtxcmdComplete s = _
    simp only [execCtxcmdComplete, event_next hp, ho, hb, if_true]

end Sys2Proof.Machine
end

section
/-! SUPPORT. Pre-emption: the timers, the save of a drained team, and the resume of a saved one. -/
namespace Sys2Proof.Machine

/-- A team whose groups have all stopped and whose work has drained is saved, no save of it being forced (R381). -/
theorem execTeamSave_drained {s : State} {n : Nat} {t : Team} {p : PreReq} {l : Launch} (hp : s.power = true)
    (ht : tget s.teams n = some t) (hq : t.pre = some p) (hl : tget s.launches t.launch = some l) (hf : p.forced = false)
    (hg : ∀ g ∈ s.groupsOf n, g.2.stopped = true ∧ s.dealPending g.2 = false) (hd : s.drained n t l = true) :
    execTeamSave n s = .next (s.saveTeam n) := by
  have hall : ((s.groupsOf n).all fun g => g.2.stopped && !s.dealPending g.2) = true :=
    List.all_eq_true.mpr fun g h => by simp [hg g h]
  simp only [execTeamSave, event_next hp, ht, hq, hl, hf, hall, hd, Bool.false_eq_true, Bool.and_self, if_false, if_true]
/-- A saved team whose record reads back stands on the core that it resumes on (R383). -/
theorem resumeOne_team {s s1 : State} {l : Launch} {n core : Nat} {x y : Saved} {t : Team} (hx : tget s.saved n = some x)
    (hteam : x.team.isSome = true) (hc : s.canHold l n core = true) (hh : s.deviceHeld l.ctx n = false)
    (hr : s.reloaded x l = (.ok y, s1)) (ht : y.team = some t) :
    s.resumeOne l n core = some (.ok { s1.placeSaved l y t core with saved := tdel s1.saved n }) := by
  obtain ⟨u, hu⟩ := Option.isSome_iff_exists.mp hteam
  simp only [State.resumeOne, hx, hc, hh, hu, hr, ht, Bool.not_true, Bool.or_self, Bool.false_eq_true, if_false]

/-- Settles O53: each timer's event where it is due, the save of a drained team, and the resume of what was saved. -/
theorem preemptionAndBudgets : Obligations.PreemptionAndBudgets := by
  unfold Obligations.PreemptionAndBudgets
  intro c n core gid k t p l e x y s1
  refine ⟨?tick, ?budget, ?timeout, ?ordTimeout, ?save, ?resume, ?resumeAll⟩
  case tick =>
    rintro s hp ⟨hk, ht, hd⟩
    change execFrameTick c s = _
    simp only [execFrameTick, event_next hp, hk, ht, Nat.not_lt.mpr hd, or_self, if_false]
  case budget =>
    rintro s hp ⟨hk, hb, hr⟩
    change execBudgetExpire c s = _
    simp only [execBudgetExpire, event_next hp, hk, hb, Int.not_lt.mpr hr, or_self, if_false]
  case timeout =>
    rintro s hp ⟨ht, hq, hd⟩
    change execPreemptTimeoutExpire n s = _
    simp only [execPreemptTimeoutExpire, event_next hp, ht, hq, hd, if_true]
  case ordTimeout =>
    rintro s hp ⟨hg, hq, hd⟩
    change execOrdTimeoutExpire gid s = _
    simp only [execOrdTimeoutExpire, event_next hp, hg, hq, hd, if_true]
  case save =>
    rintro s hp ⟨ht, hq, hl, hf, hg, hd⟩
    exact execTeamSave_drained hp ht hq hl hf hg hd
  case resume =>
    rintro s hp ⟨hx, hl, hteam, hm, ho, hcore, hco, hc, hh, hr, ht⟩
    change execTeamResume n core s = _
    simp only [execTeamResume, event_next hp, hx, hl, hm, ho, List.contains_iff_mem.mpr hcore, hco, resumeOne_team hx hteam hc hh hr ht,
      Bool.not_true, Bool.or_self, Bool.false_eq_true, if_false]
  case resumeAll =>
    rintro s hp ⟨hx, hl, hm, ho, hcore, hco⟩
    change execTeamResume n core s = _
    simp only [execTeamResume, event_next hp, hx, hl, hm, ho, List.contains_iff_mem.mpr hcore, hco,
      Bool.not_true, Bool.or_self, Bool.false_eq_true, if_false, if_true]

end Sys2Proof.Machine
end

section
/-! SUPPORT. Instructions in span mode, said once for each way a span form can answer. -/
namespace Sys2Proof.Machine

/-! ### What a span form's answer makes of the issue (R25, R28) -/

theorem spanGoes_done {i : Instr} {p : State → SI → Prop} {x : State → SI → Span} {grp : GI → State → Fx} {spn : SI → State → SFx}
    (hx : ∀ s, exec i s = s.issue i grp spn) (hb : ∀ s e, p s e → spn e s = .done (x s e)) : SpanGoes i p x SI.after :=
  fun s e h hg hc hp => by rw [hx, issue_of_spanIssues h hg, hb s e hp, span_finish_done _ hc]
theorem spanRuns_done {i : Instr} {p : SI → Prop} {x : SI → Span} {grp : GI → State → Fx} {spn : SI → State → SFx}
    (hx : ∀ s, exec i s = s.issue i grp spn) (hb : ∀ s e, p e → spn e s = .done (x e)) : SpanRuns i p x :=
  spanGoes_done hx hb
theorem spanGoes_jump {i : Instr} {p : SI → Prop} {x : SI → Span} {a : SI → Nat} {grp : GI → State → Fx} {spn : SI → State → SFx}
    (hx : ∀ s, exec i s = s.issue i grp spn) (hb : ∀ s e, p e → spn e s = .jump (x e) (a e)) :
    SpanGoes i (fun _ e => p e) (fun _ e => x e) fun e => ⟨a e, 0⟩ :=
  fun s e h hg hc hp => by rw [hx, issue_of_spanIssues h hg, hb s e hp, span_finish_jump _ _ hc]
theorem spanMaterialises_mat {i : Instr} {p : State → SI → Prop} {grp : GI → State → Fx} {spn : SI → State → SFx}
    (hx : ∀ s, exec i s = s.issue i grp spn) (hb : ∀ s e, p s e → spn e s = .mat) : SpanMaterialises i p :=
  fun s e h hp => by rw [hx, issue_of_mat h grp spn (hb s e hp)]; rfl
/-- An instruction that R25 does not name has no span form. -/
theorem spanMaterialises_matSpan {i : Instr} {grp : GI → State → Fx} (hx : ∀ s, exec i s = s.issue i grp matSpan) :
    SpanMaterialises i fun _ _ => True := spanMaterialises_mat hx fun _ _ _ => rfl
theorem spanMaterialises_guard {i : Instr} {l : List Half} {grp : GI → State → Fx} {spn : SI → State → SFx}
    (hx : ∀ s, exec i s = s.issue i grp spn) (hi : i.gated = true) :
    SpanMaterialises i fun _ e => e.x.pf (mGuard e.x.mode) = .conj l :=
  fun s e h hg => by rw [hx, issue_of_guard_conj h hi hg]; rfl
/-- Under a GUARD that is constant false an instruction that would go on leaves the span's record as it was. -/
theorem exec_guard_false {i : Instr} {s : State} {e : SI} {x : Span} {grp : GI → State → Fx} {spn : SI → State → SFx}
    (hx : ∀ s, exec i s = s.issue i grp spn) (hi : i.gated = true) (hb : spn e s = .done x) (h : SpanIssues s i e)
    (hg : e.x.pf (mGuard e.x.mode) = .const false) (hc : e.canGo s e.after = true) :
    exec i s = .next (e.goesTo s e.x e.after) := by
  rw [hx, issue_of_guard_false h hi hg grp spn hb, span_finish_done _ hc]

/-! ### Uniform sources (R25) -/

theorem uniSpan_uniforms {srcs : List Nat} {out : (Nat → Word) → List (Nat × Word)} {e : SI} {s : State} (h : e.uniforms srcs) :
    uniSpan srcs out e s = .done ((out e.uni).foldl (fun x p => x.setVF p.1 (Form.const p.2)) e.x) := by
  rw [uniSpan, if_pos (List.all_eq_true.mpr h)]
  rfl
theorem uniSpan_not_uniform {srcs : List Nat} {out : (Nat → Word) → List (Nat × Word)} {e : SI} {s : State} {n : Nat}
    (hn : n ∈ srcs) (h : (e.x.vf n).uniform = false) : uniSpan srcs out e s = .mat := by
  rw [uniSpan, if_neg fun hall => by simpa [h] using List.all_eq_true.mp hall n hn]
/-- An instruction marked E on elements of at most 32 bits, whose sources are uniform. -/
theorem uniSpanE_uniforms {srcs : List Nat} {d a b : Nat} {op : IOp} {e : SI} {s : State} (hp : mPair e.x.mode = false)
    (h : e.uniforms srcs) : uniSpanE srcs d a b (iUnit op) e s = .done (e.putsE op d a b) := by
  have hs : srcs.flatMap (fun n => if mPair e.x.mode then [n, n + 1] else [n]) = srcs := by simp [hp]
  simp only [uniSpanE, hs, uniSpan_uniforms h]
  simp [uWr, uRd, hp, SI.putsE, SI.puts]
theorem uniSpanE_not_uniform {srcs : List Nat} {d a b n : Nat} {f : Nat → Bool → Nat → Nat → Nat → Nat} {e : SI} {s : State}
    (hn : n ∈ srcs) (h : (e.x.vf n).uniform = false) : uniSpanE srcs d a b f e s = .mat := by
  have hm : n ∈ srcs.flatMap fun n => if mPair e.x.mode then [n, n + 1] else [n] :=
    List.mem_flatMap.mpr ⟨n, hn, by split <;> simp⟩
  unfold uniSpanE
  exact uniSpan_not_uniform hm h
theorem affSpan_affine {srcs : List Nat} {d a b : Nat} {op : IOp} {f : Span → Option Form} {e : SI} {s : State} {y : Form}
    (h : e.affine) (hy : f e.x = some y) : affSpan srcs d a b op f e s = .done (e.x.setVF d y) := by
  simp [affSpan, h.1, h.2, hy]
theorem affSpan_none {srcs : List Nat} {d a b : Nat} {op : IOp} {f : Span → Option Form} {e : SI} {s : State}
    (h : e.affine) (hy : f e.x = none) : affSpan srcs d a b op f e s = .mat := by
  simp [affSpan, h.1, h.2, hy]
theorem affSpan_sat {srcs : List Nat} {d a b : Nat} {op : IOp} {f : Span → Option Form} {e : SI} {s : State}
    (h : mSat e.x.mode = true) : affSpan srcs d a b op f e s = uniSpanE srcs d a b (iUnit op) e s := by
  simp [affSpan, h]
theorem mulForms_right {x y : Form} (h : y.uniform = true) : mulForms x y = some (Form.scale y.a x) := by simp [mulForms, h]
theorem mulForms_left {x y : Form} (hy : y.uniform = false) (hx : x.uniform = true) : mulForms x y = some (Form.scale x.a y) := by
  simp [mulForms, hx, hy]
theorem mulForms_none {x y : Form} (hx : x.uniform = false) (hy : y.uniform = false) : mulForms x y = none := by
  simp [mulForms, hx, hy]

/-! ### Families of instructions -/

theorem spanRuns_uniforms {i : Instr} {srcs : List Nat} {x : SI → Span} {out : (Nat → Word) → List (Nat × Word)} {grp : GI → State → Fx}
    (hx : ∀ s, exec i s = s.issue i grp (uniSpan srcs out))
    (ho : ∀ e : SI, x e = (out e.uni).foldl (fun x p => x.setVF p.1 (Form.const p.2)) e.x) :
    SpanRuns i (fun e => e.uniforms srcs) x :=
  spanRuns_done hx fun _ e h => by rw [ho e, uniSpan_uniforms h]
theorem spanRuns_elements {i : Instr} {srcs : List Nat} {d a b : Nat} {op : IOp} {grp : GI → State → Fx}
    (hx : ∀ s, exec i s = s.issue i grp (uniSpanE srcs d a b (iUnit op))) :
    SpanRuns i (fun e => mPair e.x.mode = false ∧ e.uniforms srcs) fun e => e.putsE op d a b :=
  spanRuns_done hx fun _ _ h => uniSpanE_uniforms h.1 h.2
theorem spanRuns_saturated {i : Instr} {srcs : List Nat} {d a b : Nat} {op : IOp} {f : Span → Option Form} {grp : GI → State → Fx}
    (hx : ∀ s, exec i s = s.issue i grp (affSpan srcs d a b op f)) :
    SpanRuns i (fun e => mSat e.x.mode = true ∧ mPair e.x.mode = false ∧ e.uniforms srcs) fun e => e.putsE op d a b :=
  spanRuns_done hx fun _ _ h => (affSpan_sat h.1).trans (uniSpanE_uniforms h.2.1 h.2.2)
theorem spanRuns_affine {i : Instr} {srcs : List Nat} {d a b : Nat} {op : IOp} {f : Span → Option Form} {grp : GI → State → Fx}
    {p : SI → Prop} {y : SI → Form} (hx : ∀ s, exec i s = s.issue i grp (affSpan srcs d a b op f))
    (hp : ∀ e, p e → e.affine) (hy : ∀ e, p e → f e.x = some (y e)) : SpanRuns i p fun e => e.x.setVF d (y e) :=
  spanRuns_done hx fun _ e h => affSpan_affine (hp e h) (hy e h)
theorem spanRuns_predicate {i : Instr} {d a b : Nat} {f : PForm → PForm → Option PForm} {y : PForm} {grp : GI → State → Fx}
    (hx : ∀ s, exec i s = s.issue i grp (predSpan d a b f)) :
    SpanRuns i (fun e => f (e.x.pf a) (e.x.pf b) = some y) fun e => e.x.setPF d y :=
  spanRuns_done hx fun _ _ h => by rw [predSpan, h]
/-- A uniform instruction works on the span's own uniform registers (R152). -/
theorem spanRuns_uniOp {i : Instr} {d a b : Nat} {f : DWord → DWord → DWord} {cc : Option (DWord → DWord → CC)}
    (hx : ∀ s, exec i s = uniOp i d a b f cc s) : SpanRuns i (fun _ => True) fun e => e.putsS d a b f cc :=
  spanRuns_done hx fun _ _ _ => rfl
/-- A float instruction on uniform sources, its exceptions logged and joined to the span's status (R25, R78). -/
theorem spanFloats_floatOp {i : Instr} {rounds : Bool} {srcs : List Nat} {d a b : Nat}
    {f : Fmt → FEnv → Nat → Nat → Nat → Nat → Nat × Exc} (hx : ∀ s, exec i s = floatOp i rounds srcs d a b f s) :
    SpanFloats i srcs d a b f := fun s e h hg hc hr hu => by
  have hm : ¬ (mRnd e.x.mode = .sr ∨ (srcs.any fun k => !(e.x.vf k).uniform) = true) := by
    rintro (hs | hn)
    · exact hr hs
    · obtain ⟨k, hk, hku⟩ := List.any_eq_true.mp hn
      simp [hu k hk] at hku
  rw [hx, floatOp, issue_of_spanIssues h fun _ => hg]
  simp only [floatSpan, hm, if_false]
  exact congrArg _ (span_finish_doneS _ hc)
/-- BRZ and BRNZ take the branch where what their predicate form says of the box's items is the value that they want (R39, R128). -/
theorem brzSpan_some {want v : Bool} {p : Nat} {o : Int} {e : SI} {s : State} (h : e.x.box.someTrue e.launch (e.x.pf p) = some v) :
    brzSpan want p o e s = if v = want then .jump e.x (e.target o) else .done e.x := by
  simp [brzSpan, h]
theorem brzSpan_none {want : Bool} {p : Nat} {o : Int} {e : SI} {s : State} (h : e.x.box.someTrue e.launch (e.x.pf p) = none) :
    brzSpan want p o e s = .mat := by
  simp [brzSpan, h]
/-- A span that may issue runs (R37). -/
theorem SpanIssues.park {s : State} {i : Instr} {e : SI} (h : SpanIssues s i e) : e.x.park = .run := by
  have hr := h.ready
  simp only [SI.ready, SI.runs, Bool.and_eq_true, decide_eq_true_eq] at hr
  exact hr.1.1
theorem si_span {s : State} {n : Nat} {i : Instr} {e : SI} (h : s.si n i = some e) : tget s.spans n = some e.x ∧ e.sid = n := by
  unfold State.si at h
  split at h
  · cases h
  · rename_i x hx
    split at h
    · cases h
    · cases h
      exact ⟨hx, rfl⟩
/-- MATER moves the span one word on and materialises it there (R150). -/
theorem exec_mater {s : State} {e : SI} (h : SpanIssues s .mater e) (hc : e.canGo s e.after = true)
    (hf : (e.x.flags.all fun n => n == 0) = true) : exec .mater s = .next ((e.goesTo s e.x e.after).materialise e.sid e.after) := by
  have hg : (e.goesTo s e.x e.after).spans =
      tput s.spans e.sid { e.x with pos := e.after, inside := e.after.k != 0 || e.x.inside } := tmod_eq _ _ _ _ (si_span h.si).1
  change execMater s = _
  rw [execMater, issue_of_spanIssues h fun hm => by cases hm]
  simp only [hf, Bool.not_true, Bool.false_eq_true, if_false, span_enter hc, hg, tget_tput, h.park, and_self, if_true]
  rfl

/-- Settles O15: each instruction's span form, where R25 admits it and where it does not. -/
theorem spansExecuteForms : Obligations.SpansExecuteForms := by
  unfold Obligations.SpansExecuteForms
  refine ⟨?forms, ?predicates, ?uniforms, ?scalars, ?control, ?stops⟩
  case forms =>
    intro d a b imm hi z y n
    refine ⟨spanRuns_done (fun _ => rfl) fun _ _ _ => rfl, spanRuns_done (fun _ => rfl) fun _ _ _ => rfl,
      spanRuns_done (fun _ => rfl) fun _ _ _ => rfl, spanRuns_done (fun _ => rfl) fun _ _ _ => rfl,
      spanRuns_done (fun _ => rfl) fun _ _ h => by simp only [h],
      spanRuns_affine (fun _ => rfl) (fun _ h => h) fun _ _ => rfl, spanRuns_affine (fun _ => rfl) (fun _ h => h) fun _ _ => rfl,
      spanRuns_done (fun _ => rfl) fun _ _ h => by simp [h.1, h.2],
      spanRuns_affine (fun _ => rfl) (fun _ h => h.1) fun _ h => mulForms_right h.2,
      spanRuns_affine (fun _ => rfl) (fun _ h => h.1) fun _ h => mulForms_left h.2.1 h.2.2,
      spanRuns_affine (fun _ => rfl) (fun _ h => h.1) fun _ h => congrArg (Option.map _) (mulForms_right h.2),
      spanRuns_affine (fun _ => rfl) (fun _ h => h.1) fun _ h => congrArg (Option.map _) (mulForms_left h.2.1 h.2.2),
      spanRuns_done (fun _ => rfl) fun _ _ h => by simp only [h.1, h.2, Bool.and_self, if_true]; rfl,
      spanRuns_done (fun _ => rfl) fun _ _ h => by simp only [h, if_true]; rfl⟩
  case predicates =>
    intro d a b p u c y
    refine ⟨spanRuns_done (fun _ => rfl) fun _ _ h => by simp [h.1, h.2], spanRuns_predicate fun _ => rfl, spanRuns_predicate fun _ => rfl,
      spanRuns_predicate fun _ => rfl, spanRuns_predicate fun _ => rfl⟩
  case uniforms =>
    intro d a b k n v
    refine ⟨spanRuns_uniforms (fun _ => rfl) fun _ => rfl, spanRuns_uniforms (fun _ => rfl) fun _ => rfl, spanRuns_uniforms (fun _ => rfl) fun _ => rfl, spanRuns_uniforms (fun _ => rfl) fun _ => rfl,
      spanRuns_elements fun _ => rfl, spanRuns_elements fun _ => rfl, spanRuns_elements fun _ => rfl, spanRuns_elements fun _ => rfl,
      spanRuns_elements fun _ => rfl, spanRuns_saturated fun _ => rfl, spanRuns_saturated fun _ => rfl, spanRuns_saturated fun _ => rfl,
      spanRuns_saturated fun _ => rfl, spanRuns_done (fun _ => rfl) fun _ e h => ?_, spanFloats_floatOp fun _ => rfl,
      spanFloats_floatOp fun _ => rfl, spanFloats_floatOp fun _ => rfl, spanFloats_floatOp fun _ => rfl⟩
    obtain ⟨hk, hu⟩ := h
    simp [hk, hu a (by simp), hu d (by simp)]
  case scalars =>
    intro d a b f n c imm k m q v w
    refine ⟨spanRuns_uniOp fun _ => rfl, spanRuns_uniOp fun _ => rfl, spanRuns_uniOp fun _ => rfl, spanRuns_uniOp fun _ => rfl,
      spanRuns_uniOp fun _ => rfl, spanRuns_uniOp fun _ => rfl, spanRuns_uniOp fun _ => rfl, spanRuns_uniOp fun _ => rfl,
      spanRuns_uniOp fun _ => rfl, spanRuns_uniOp fun _ => rfl, spanRuns_uniOp fun _ => rfl, spanRuns_uniOp fun _ => rfl,
      spanRuns_done (fun _ => rfl) fun _ _ _ => rfl, spanRuns_done (fun _ => rfl) fun _ _ _ => rfl,
      spanRuns_done (fun _ => rfl) fun _ _ _ => rfl, spanRuns_done (fun _ => rfl) fun _ _ _ => rfl,
      spanRuns_done (fun _ => rfl) fun _ _ _ => rfl, spanRuns_done (fun _ => rfl) fun _ _ _ => rfl,
      spanRuns_done (fun _ => rfl) fun _ _ _ => rfl, spanRuns_done (fun _ => rfl) fun _ _ h => by simp only [modeFx, Option.bind_some, h],
      spanRuns_done (fun _ => rfl) fun _ _ h => by simp only [modeFx, h], spanGoes_done (fun _ => rfl) fun _ _ h => by simp only [h],
      spanRuns_done (fun _ => rfl) fun _ _ h => by simp [barSpan, h.1, h.2], spanRuns_done (fun _ => rfl) fun _ _ _ => rfl⟩
  case control =>
    intro c o p a
    refine ⟨spanGoes_jump (fun _ => rfl) fun _ _ h => by simp only [h, if_true],
      spanRuns_done (fun _ => rfl) fun _ _ h => by simp [h],
      spanGoes_jump (fun _ => rfl) fun _ _ h => brzSpan_some h, spanRuns_done (fun _ => rfl) fun _ _ h => brzSpan_some h,
      spanGoes_jump (fun _ => rfl) fun _ _ h => brzSpan_some h, spanRuns_done (fun _ => rfl) fun _ _ h => brzSpan_some h,
      spanGoes_jump (fun _ => rfl) fun _ _ h => by simp only [h, if_true],
      spanGoes_jump (fun _ => rfl) fun _ _ h => by simp only [h, if_true],
      spanGoes_jump (fun _ => rfl) fun _ _ h => by simp only [h, if_true], fun s e h hf => ?_, fun s e => exec_mater⟩
    change execExit s = _
    rw [execExit, issue_of_spanIssues h fun hm => by cases hm]
    simp only [exitSpan, hf, if_true]
    rfl
  case stops =>
    intro d a b p m n k sr o imm hi u w c x l q g sz h op ty sc csr j
    refine ⟨?guardFalse, ?guardConj, ?product, ?shift, ?compare, ?pand, ?iand, ?iadd, ?fadd, ?sread, ?brz, ?brnz, ?unnamed, ?engines⟩
    case guardFalse =>
      intro s e hj hs hg hc
      simp only [List.mem_cons, List.not_mem_nil, or_false] at hj
      obtain rfl | rfl | rfl | rfl := hj
      all_goals exact exec_guard_false (fun _ => rfl) rfl rfl hs hg hc
    case guardConj =>
      intro hj
      simp only [List.mem_cons, List.not_mem_nil, or_false] at hj
      obtain rfl | rfl | rfl | rfl | rfl | rfl | rfl | rfl | rfl | rfl | rfl | rfl | rfl | rfl | rfl | rfl | rfl := hj
      all_goals exact spanMaterialises_guard (fun _ => rfl) rfl
    case product => exact spanMaterialises_mat (fun _ => rfl) fun _ _ h => affSpan_none h.1 (mulForms_none h.2.1 h.2.2)
    case shift => exact spanMaterialises_mat (fun _ => rfl) fun _ _ h => by simp [h]
    case compare => exact spanMaterialises_mat (fun _ => rfl) fun _ _ h => by simp [h.1, h.2]
    case pand => exact spanMaterialises_mat (fun _ => rfl) fun _ _ h => by rw [predSpan, h]
    case iand => exact spanMaterialises_mat (fun _ => rfl) fun _ _ h => uniSpan_not_uniform (by simp) h
    case iadd =>
      exact spanMaterialises_mat (fun _ => rfl) fun _ _ h => (affSpan_sat h.1).trans (uniSpanE_not_uniform (by simp) h.2)
    case fadd =>
      refine spanMaterialises_mat (fun _ => rfl) fun _ e h => if_pos (h.imp_right fun hu => ?_)
      simp [hu]
    case sread => exact spanMaterialises_mat (fun _ => rfl) fun _ _ h => by simp only [h]
    case brz | brnz => exact spanMaterialises_mat (fun _ => rfl) fun _ _ h => brzSpan_none h
    case unnamed =>
      intro hj
      simp only [List.mem_cons, List.not_mem_nil, or_false] at hj
      obtain rfl | rfl | rfl | rfl | rfl | rfl | rfl | rfl | rfl | rfl | rfl | rfl | rfl | rfl | rfl | rfl | rfl | rfl | rfl | rfl := hj
      all_goals exact spanMaterialises_matSpan fun _ => rfl
    case engines =>
      intro hj
      simp only [List.mem_cons, List.not_mem_nil, or_false] at hj
      obtain rfl | rfl | rfl | rfl | rfl | rfl | rfl | rfl | rfl | rfl | rfl | rfl | rfl | rfl | rfl | rfl | rfl | rfl | rfl | rfl |
        rfl | rfl | rfl | rfl | rfl := hj
      all_goals exact spanMaterialises_matSpan fun _ => rfl

end Sys2Proof.Machine
end

section
/-! SUPPORT. What every operation of the machine keeps (R18, R297, R316, R328): GT stays as it is, and canonical memories stay
canonical. Each operation's lemma carries the fact through it from an earlier state, so that they compose as the operations do. -/
namespace Sys2Proof.Machine

/-- From one state to another GT has not moved, and memories in canonical form still are. -/
structure State.Keeps (s t : State) : Prop where
  gt : t.gt = s.gt
  form : s.mem.units.wf = true ∧ s.mem.host.wf = true → t.mem.units.wf = true ∧ t.mem.host.wf = true

/-- The state that an instruction's own work leaves. -/
@[reducible] def Fx.state : Fx → State
  | .done s | .jump s _ | .stay s | .trap s _ _ _ _ | .page s _ _ _ _ => s
/-- The state that a span form leaves, where it leaves one, keeps time and form. -/
@[reducible] def State.KeepsSpan (s : State) : SFx → Prop
  | .doneS t _ | .stay t => s.Keeps t
  | .done _ | .jump _ _ | .mat => True

namespace State.Keeps
variable {s x t : State}

theorem refl (s : State) : s.Keeps s := ⟨rfl, fun h => h⟩
theorem trans (h : s.Keeps x) (g : x.Keeps t) : s.Keeps t := ⟨g.gt.trans h.gt, fun c => g.form (h.form c)⟩
/-- A state whose GT and whose memories of units and host are another's. -/
theorem same (h : s.Keeps x) (hg : t.gt = x.gt := by with_reducible rfl) (hu : t.mem.units = x.mem.units := by rfl)
    (hh : t.mem.host = x.mem.host := by rfl) : s.Keeps t :=
  ⟨hg.trans h.gt, fun c => by rw [hu, hh]; exact h.form c⟩
/-- A state that differs by a write of the module's units. -/
theorem writeUnits (h : s.Keeps x) {a : ℕ} {l : List Byte} (hg : t.gt = x.gt := by with_reducible rfl)
    (hu : t.mem.units = x.mem.units.write a l := by with_reducible rfl) (hh : t.mem.host = x.mem.host := by with_reducible rfl) :
    s.Keeps t :=
  ⟨hg.trans h.gt, fun c => by rw [hu, hh]; exact ⟨Memory.wf_write (h.form c).1, (h.form c).2⟩⟩
/-- A state that differs by a write of the host's memory. -/
theorem writeHost (h : s.Keeps x) {a : ℕ} {l : List Byte} (hg : t.gt = x.gt := by with_reducible rfl)
    (hu : t.mem.units = x.mem.units := by with_reducible rfl) (hh : t.mem.host = x.mem.host.write a l := by with_reducible rfl) :
    s.Keeps t :=
  ⟨hg.trans h.gt, fun c => by rw [hu, hh]; exact ⟨(h.form c).1, Memory.wf_write (h.form c).2⟩⟩
theorem of_eq {α : Type} {p : α × State} {r : α} (e : p = (r, t)) (h : s.Keeps p.2) : s.Keeps t := by
  rw [e] at h
  exact h
theorem ite {c : Prop} [Decidable c] (h : s.Keeps x) (g : s.Keeps t) : s.Keeps (if c then x else t) := by
  split
  · exact h
  · exact g
theorem iteSnd {α : Type} {c : Prop} [Decidable c] {p q : α × State} (h : s.Keeps p.2) (g : s.Keeps q.2) :
    s.Keeps (if c then p else q).2 := by
  split
  · exact h
  · exact g
theorem foldl {α : Type} {l : List α} {f : State → α → State} (hf : ∀ y a, s.Keeps y → s.Keeps (f y a)) (h : s.Keeps x) :
    s.Keeps (l.foldl f x) := by
  induction l generalizing x with
  | nil => exact h
  | cons a r ih => exact ih (hf x a h)
/-- The state beside what a loop collects. -/
theorem foldlSnd {α β : Type} {l : List α} {f : β × State → α → β × State} {p : β × State}
    (hf : ∀ y a, s.Keeps y.2 → s.Keeps (f y a).2) (h : s.Keeps p.2) : s.Keeps (l.foldl f p).2 := by
  induction l generalizing p with
  | nil => exact h
  | cons a r ih => exact ih (hf p a h)

end State.Keeps
end Sys2Proof.Machine
end

section
/-! SUPPORT. Every operation on the state keeps GT and the form of the memories; in the order of the model. -/
namespace Sys2Proof.Machine
-- One declaration at a time: the joined text elaborates hundreds of short proofs here, and a worker thread for each is more
-- memory than the check allows.
set_option Elab.async false
variable {s x : State}

/-! ### Operations of `Machine/Memory.lean` -/

theorem State.Keeps.modDie {d : ℕ} {f : Die → Die} (h : s.Keeps x) : s.Keeps (x.modDie d f) := h.same rfl rfl rfl
theorem State.Keeps.fresh (h : s.Keeps x) : s.Keeps (x.fresh).2 := h.same rfl rfl rfl
theorem State.Keeps.drawFree {n : ℕ} (h : s.Keeps x) : s.Keeps (x.drawFree n).2 := h.same rfl rfl rfl
theorem State.Keeps.unitWrite {u key : ℕ} {data : List Byte} {tags : List ℕ} {poison : List Bool} (h : s.Keeps x) :
    s.Keeps (x.unitWrite u key data tags poison) := by
  unfold State.unitWrite
  split
  · exact h
  · exact h.writeUnits
theorem State.Keeps.raiseLs {ln e : ℕ} (h : s.Keeps x) : s.Keeps (x.raiseLs ln e) := by
  unfold State.raiseLs
  split <;> exact h.same
theorem State.Keeps.grant {ln : ℕ} {lro : Bool} (h : s.Keeps x) : s.Keeps (x.grant ln lro).2 := by
  unfold State.grant
  split <;> exact State.Keeps.iteSnd h h.raiseLs
theorem State.Keeps.writeBack {ln : ℕ} {h1 : HomeLine} (h : s.Keeps x) : s.Keeps (x.writeBack ln h1) :=
  h.fresh.same rfl rfl rfl
theorem State.Keeps.dropHome {ln : ℕ} (h : s.Keeps x) : s.Keeps (x.dropHome ln) := by
  unfold State.dropHome
  split
  · exact h
  split
  · exact h.same.raiseLs.writeBack
  · exact h.same.raiseLs
theorem State.Keeps.louvreMiss {d ln : ℕ} (h : s.Keeps x) : s.Keeps (x.louvreMiss d ln).2 := h.same rfl rfl rfl
theorem State.Keeps.mscMiss {ln : ℕ} {h1 : Hint} (h : s.Keeps x) : s.Keeps (x.mscMiss ln h1).2 := by
  unfold State.mscMiss
  split
  · exact h
  · exact h
  split
  · exact h
  · exact h.louvreMiss
theorem State.Keeps.delWay {d ln : ℕ} (h : s.Keeps x) : s.Keeps (x.delWay d ln) := h.same rfl rfl rfl
theorem State.Keeps.addWay {w : WayEnt} (h : s.Keeps x) : s.Keeps (x.addWay w) := h.same rfl rfl rfl
theorem State.Keeps.mscAlloc {ln : ℕ} {h1 : Hint} (h : s.Keeps x) : s.Keeps (x.mscAlloc ln h1) := by
  unfold State.mscAlloc
  split
  · exact h
  split
  · exact h
  split
  · exact h
  split
  · dsimp only
    split
    · exact h.delWay.addWay
    · exact h
  · extract_lets d set s1 _ s3
    have hs : s.Keeps s1 := by
      unfold s1
      split
      · exact h
      split
      · exact h
      extract_lets s2
      have h2 : s.Keeps s2 := h.delWay
      split
      · split
        · extract_lets s4
          have h4 : s.Keeps s4 := h2.same
          exact State.Keeps.ite h4.writeBack h4
        · exact h2.dropHome
      · exact h2
    exact (hs.same : s.Keeps s3).addWay
theorem State.Keeps.l2Evict {d ln : ℕ} (h : s.Keeps x) : s.Keeps (x.l2Evict d ln) := by
  unfold State.l2Evict
  extract_lets s1 _ put
  have h1 : s.Keeps s1 := h.delWay
  have hp (y : HomeLine) : s.Keeps (put y) := h1.same
  split
  · split
    · exact h1
    · exact State.Keeps.ite (hp _) (State.Keeps.ite (hp _).mscAlloc (hp _).dropHome)
  · exact h1.same
theorem State.Keeps.makeRoom {d : ℕ} {st : ℕ × ℕ} (h : s.Keeps x) : s.Keeps (x.makeRoom d st) := by
  unfold State.makeRoom
  dsimp only
  split
  · exact h
  split
  · exact h.l2Evict
  · exact h
theorem State.Keeps.l2Alloc {d ln ctx : ℕ} {va : Option ℕ} {h1 : Hint} (h : s.Keeps x) :
    s.Keeps (x.l2Alloc d ln ctx va h1) := by
  unfold State.l2Alloc
  split
  · exact h
  split
  · split
    · exact h.delWay.addWay
    dsimp only
    split
    · split
      · exact h.delWay.addWay
      split
      · exact h.l2Evict.delWay.addWay
      · exact h.delWay.addWay
    · exact h.delWay.addWay
  · dsimp only
    split
    · split
      · exact h.l2Evict.addWay
      · exact h.addWay
    · split
      · exact h.modDie.makeRoom.addWay
      · exact h.makeRoom.addWay
theorem State.Keeps.placeHome {ln : ℕ} {hl : HomeLine} {ctx : ℕ} {va : Option ℕ} {h1 : Hint} (h : s.Keeps x) :
    s.Keeps (x.placeHome ln hl ctx va h1) := by
  unfold State.placeHome
  split
  · exact State.Keeps.ite h.same.mscMiss.mscAlloc h.same.mscMiss
  · exact State.Keeps.ite h.same.l2Alloc.mscMiss.mscAlloc h.same.l2Alloc.mscMiss
theorem State.Keeps.leaveHome {ln : ℕ} (h : s.Keeps x) : s.Keeps (x.leaveHome ln) := by
  unfold State.leaveHome
  split
  · split
    · exact h
    · exact h.dropHome
  · exact h
theorem State.Keeps.touchAt {ln ctx : ℕ} {va : Option ℕ} {h1 : Hint} (h : s.Keeps x) :
    s.Keeps (x.touchAt ln ctx va h1) := by
  unfold State.touchAt
  split
  · exact h.leaveHome
  · exact h.l2Alloc.same
theorem State.Keeps.toMsc {ln : ℕ} {h1 : Hint} {missed : Bool} (h : s.Keeps x) : s.Keeps (x.toMsc ln h1 missed) := by
  unfold State.toMsc
  split
  · exact h
  extract_lets t s1 s2
  have ht : s.Keeps t.2 :=
    State.Keeps.iteSnd h (State.Keeps.iteSnd h (State.Keeps.iteSnd h (State.Keeps.iteSnd h h.mscMiss)))
  have hs : s.Keeps s1 := State.Keeps.ite ht.mscAlloc ht
  split
  · exact State.Keeps.ite (hs.delWay : s.Keeps s2).same hs
  · exact hs
theorem State.Keeps.dropCopies {ln : ℕ} {p : Holder → Bool} (h : s.Keeps x) : s.Keeps (x.dropCopies ln p) :=
  h.same rfl rfl rfl
theorem State.Keeps.addCopy {c : CopyLine} (h : s.Keeps x) : s.Keeps (x.addCopy c) := h.same rfl rfl rfl
theorem State.Keeps.pend {ln req off : ℕ} {data : List Byte} (h : s.Keeps x) : s.Keeps (x.pend ln req off data).2 :=
  h.same rfl rfl rfl
theorem State.Keeps.performPend {ln req : ℕ} (h : s.Keeps x) : s.Keeps (x.performPend ln req) := by
  unfold State.performPend
  dsimp only
  split
  · exact h
  · exact h.same
theorem State.Keeps.unpend {ln req : ℕ} (h : s.Keeps x) : s.Keeps (x.unpend ln req) := h.same rfl rfl rfl
theorem State.Keeps.setTag {pa tag : ℕ} (h : s.Keeps x) : s.Keeps (x.setTag pa tag) := h.same rfl rfl rfl
theorem State.Keeps.modReq {r1 : ℕ} {f : Req → Req} (h : s.Keeps x) : s.Keeps (x.modReq r1 f) := h.same rfl rfl rfl
theorem State.Keeps.addReq {r1 : Req} (h : s.Keeps x) : s.Keeps (x.addReq r1).2 := h.fresh.same rfl rfl rfl
theorem State.Keeps.devLineFor {die ctx va : ℕ} {h1 : Hint} {pa key : ℕ} {data : List Byte} (h : s.Keeps x) :
    s.Keeps (x.devLineFor die ctx va h1 pa key data).2 :=
  h.addReq.pend.modReq
theorem State.Keeps.devStoreFor {die ctx va : ℕ} {h1 : Hint} {pa key : ℕ} {data : List Byte} (h : s.Keeps x) :
    s.Keeps (x.devStoreFor die ctx va h1 pa key data).2 := by
  unfold State.devStoreFor
  split
  · exact State.Keeps.foldlSnd (fun _ _ hy => State.Keeps.iteSnd hy.devLineFor hy) h
  · exact h.writeHost
  · exact h.same
  · exact h
theorem State.Keeps.devStore {pa key : ℕ} {data : List Byte} (h : s.Keeps x) : s.Keeps (x.devStore pa key data).2 :=
  h.devStoreFor
theorem State.Keeps.peerTakes {q : ℕ} (h : s.Keeps x) : s.Keeps (x.peerTakes q).2 := h.drawFree
theorem State.Keeps.taken {pa : ℕ} (h : s.Keeps x) : s.Keeps (x.taken pa).2 := by
  unfold State.taken
  split
  · exact h.peerTakes
  · exact h
theorem State.Keeps.trimL1 {core : ℕ} (h : s.Keeps x) : s.Keeps (x.trimL1 core) := h.same rfl rfl rfl
theorem State.Keeps.putCopy {c : CopyLine} {h1 : Hint} (h : s.Keeps x) : s.Keeps (x.putCopy c h1) := by
  unfold State.putCopy
  split
  · exact h.addCopy.same.trimL1
  · exact h.addCopy
theorem State.Keeps.touchCopy {c : CopyLine} {h1 : Hint} (h : s.Keeps x) : s.Keeps (x.touchCopy c h1) := by
  unfold State.touchCopy
  split
  · exact h
  · exact h.same
theorem State.Keeps.leasedLine {h1 : Holder} {die ln key ctx va : ℕ} {lro : Bool} {hint : Hint} (h : s.Keeps x) :
    s.Keeps (x.leasedLine h1 die ln key ctx va lro hint).2 := by
  unfold State.leasedLine
  split
  · exact h
  · exact State.Keeps.ite h.l2Alloc h.l2Alloc.putCopy
  split
  · exact h.touchAt
  split
  · exact (State.Keeps.of_eq ‹_› h.grant).touchAt
  · exact ((State.Keeps.ite (State.Keeps.of_eq ‹_› h.grant) (((State.Keeps.of_eq ‹_› h.grant).l2Alloc).putCopy)).putCopy).touchAt

/-! ### Operations of `Machine/Translate.lean` -/

theorem State.Keeps.countFrame {f : ℕ} (h : s.Keeps x) : s.Keeps (x.countFrame f) := State.Keeps.ite h h.devStore
theorem State.Keeps.countRead {ln : ℕ} (h : s.Keeps x) : s.Keeps (x.countRead ln) := by
  unfold State.countRead
  split
  · repeat' split
    all_goals exact State.Keeps.ite h.countFrame h.same
  · exact h
theorem State.Keeps.bring {ln key ctx : ℕ} {va : Option ℕ} {h1 : Hint} {t : State}
    (q : x.bring ln key ctx va h1 = some t)
    (h : s.Keeps x) : s.Keeps t := by
  unfold State.bring at q
  split at q
  · cases q
    exact h
  split at q
  · cases q
  · cases q
    exact h.drawFree.countRead.placeHome
theorem State.Keeps.readEntry {die asid pa key : ℕ} (h : s.Keeps x) : s.Keeps (x.readEntry die asid pa key).2 := by
  unfold State.readEntry
  split
  · exact h
  split
  · exact h
  · extract_lets ln
    split
    · exact h
    split
    · exact h
    · have hb := h.bring ‹_›
      extract_lets g e p s1
      have h1 : s.Keeps s1 := hb.grant.touchAt
      dsimp only
      split
      · exact State.Keeps.ite h1.same h1
      · exact h1
  · exact h
  · exact h
  · exact h
theorem State.Keeps.walkFrom {lvl die asid t va key : ℕ} {exp : Option ℕ} (h : s.Keeps x) :
    s.Keeps (State.walkFrom lvl x die asid t va key exp).2 := by
  induction lvl generalizing x t exp with
  | zero => exact h
  | succ l ih =>
    unfold State.walkFrom
    extract_lets pa
    split
    · exact State.Keeps.of_eq ‹_› h.readEntry
    · exact State.Keeps.of_eq ‹_› h.readEntry
    · have h1 := State.Keeps.of_eq ‹_› h.readEntry
      extract_lets exp1
      split
      · exact h1
      split
      · exact h1
      split
      · split
        · exact h1
        · exact ih h1
      split
      · exact h1
      · split <;> exact h1
theorem State.Keeps.tlbPut {x1 : TlbEnt} (h : s.Keeps x) : s.Keeps (x.tlbPut x1) := h.same rfl rfl rfl
theorem State.Keeps.walk {tlb die ctx va : ℕ} (h : s.Keeps x) : s.Keeps (x.walk tlb die ctx va).2 := by
  unfold State.walk
  split
  · exact h
  split
  · have h1 := State.Keeps.of_eq ‹_› h.walkFrom
    exact State.Keeps.iteSnd h1 h1.tlbPut.tlbPut
  · exact h.walkFrom
theorem State.Keeps.leafFor {tlb die ctx va : ℕ} (h : s.Keeps x) : s.Keeps (x.leafFor tlb die ctx va).2 := by
  unfold State.leafFor
  split
  · exact h
  split
  · exact h
  · exact h.tlbPut
  · exact h.walk
theorem State.Keeps.translate {cluster die ctx va : ℕ} {w : Want} (h : s.Keeps x) :
    s.Keeps (x.translate cluster die ctx va w).2 := by
  unfold State.translate
  repeat' split
  all_goals exact State.Keeps.of_eq ‹_› h.leafFor
theorem State.Keeps.readLine {cache : Option Holder} {die ctx va : ℕ} {tr : Trans} {ln : ℕ} {t : List Byte × State}
    (q : x.readLine cache die ctx va tr ln = some t) (h : s.Keeps x) : s.Keeps t.2 := by
  unfold State.readLine at q
  split at q
  · split at q
    · cases q
      exact h.leasedLine
    · obtain ⟨y, hy, rfl⟩ := Option.map_eq_some_iff.mp q
      exact (h.bring hy).leasedLine
  · obtain ⟨y, hy, rfl⟩ := Option.map_eq_some_iff.mp q
    exact (h.bring hy).touchAt
theorem State.Keeps.readLinesFrom {cache : Option Holder} {die ctx va : ℕ} {tr : Trans} {ln n : ℕ}
    {t : List Byte × State}
    (q : x.readLinesFrom cache die ctx va tr ln n = some t) (h : s.Keeps x) : s.Keeps t.2 := by
  induction n generalizing x va ln t with
  | zero =>
    cases q
    exact h
  | succ n ih =>
    unfold State.readLinesFrom at q
    split at q
    · cases q
    · obtain ⟨y, hy, rfl⟩ := Option.map_eq_some_iff.mp q
      exact (ih hy (h.readLine ‹_›) : s.Keeps y.2)
theorem State.Keeps.readLines {cache : Option Holder} {die ctx va : ℕ} {tr : Trans} {n : ℕ} {t : List Byte × State}
    (q : x.readLines cache die ctx va tr n = some t) (h : s.Keeps x) : s.Keeps t.2 := by
  obtain ⟨y, hy, rfl⟩ := Option.map_eq_some_iff.mp q
  exact (h.readLinesFrom hy : s.Keeps y.2)
theorem State.Keeps.readVia {cache : Option Holder} {cluster die ctx : ℕ} {user : Bool} {va n : ℕ} (h : s.Keeps x) :
    s.Keeps (x.readVia cache cluster die ctx user va n).2 := by
  refine State.Keeps.foldlSnd (fun y p hy => ?_) h
  obtain ⟨e | l, y⟩ := y
  · exact hy
  dsimp only at hy ⊢
  have ht : s.Keeps (y.translate cluster die ctx p.1 ⟨false, false, user⟩).2 := hy.translate
  split
  · have h1 := State.Keeps.of_eq ‹_› ht
    split
    · exact h1
    · exact h1
    · split
      · exact h1.taken
      split
      · split
        · exact h1
        split
        · exact h1.readLines ‹_›
        · exact h1
      · exact h1.taken
    · exact h1
  · exact State.Keeps.of_eq ‹_› ht
  · exact State.Keeps.of_eq ‹_› ht
  · exact State.Keeps.of_eq ‹_› ht
  · exact State.Keeps.of_eq ‹_› ht
theorem State.Keeps.readAs {cluster die ctx : ℕ} {user : Bool} {va n : ℕ} (h : s.Keeps x) :
    s.Keeps (x.readAs cluster die ctx user va n).2 :=
  h.readVia
theorem State.Keeps.devRead {die ctx va n : ℕ} (h : s.Keeps x) : s.Keeps (x.devRead die ctx va n).2 := h.readAs
theorem State.Keeps.writeAs {die ctx : ℕ} {user : Bool} {va : ℕ} {data : List Byte} (h : s.Keeps x) :
    s.Keeps (x.writeAs die ctx user va data).2 := by
  unfold State.writeAs
  split
  · split
    · exact State.Keeps.of_eq ‹_› h.translate
    split
    · exact State.Keeps.of_eq ‹_› h.translate
    split
    · exact State.Keeps.of_eq ‹_› h.translate
    · exact State.Keeps.iteSnd ((State.Keeps.of_eq ‹_› h.translate).taken) (((State.Keeps.of_eq ‹_› h.translate).taken).devStoreFor)
  · exact State.Keeps.of_eq ‹_› h.translate
  · exact State.Keeps.of_eq ‹_› h.translate
  · exact State.Keeps.of_eq ‹_› h.translate
  · exact State.Keeps.of_eq ‹_› h.translate
theorem State.Keeps.devWrite {die ctx va : ℕ} {data : List Byte} (h : s.Keeps x) :
    s.Keeps (x.devWrite die ctx va data).2 :=
  h.writeAs
theorem State.Keeps.addAs {die ctx : ℕ} {user : Bool} {va n : ℕ} (h : s.Keeps x) :
    s.Keeps (x.addAs die ctx user va n).2 := by
  unfold State.addAs
  split
  · split
    · exact State.Keeps.of_eq ‹_› h.translate
    split
    · exact State.Keeps.of_eq ‹_› h.translate
    split
    · exact State.Keeps.of_eq ‹_› h.translate
    · exact State.Keeps.iteSnd ((State.Keeps.of_eq ‹_› h.translate).taken) (((State.Keeps.of_eq ‹_› h.translate).taken).devStoreFor)
  · exact State.Keeps.of_eq ‹_› h.translate
  · exact State.Keeps.of_eq ‹_› h.translate
  · exact State.Keeps.of_eq ‹_› h.translate
  · exact State.Keeps.of_eq ‹_› h.translate
theorem State.Keeps.devAdd {die ctx va n : ℕ} (h : s.Keeps x) : s.Keeps (x.devAdd die ctx va n).2 := h.addAs
theorem State.Keeps.transLanes {cluster die ctx : ℕ} {w : Want} {nr : Bool} {l : List LaneAcc} (h : s.Keeps x) :
    s.Keeps (x.transLanes cluster die ctx w nr l).2 := by
  induction l generalizing x with
  | nil => exact h
  | cons a r ih =>
    refine ih ?_
    split
    · exact h
    · have h1 : s.Keeps (x.translate cluster die ctx (vaOf a.addr) w).2 := h.translate
      split <;> exact State.Keeps.of_eq ‹_› h1
theorem State.Keeps.checkLanes {cluster die ctx : ℕ} {w : Want} {nr tags : Bool} {size : ℕ} {l : List LaneAcc}
    (h : s.Keeps x) :
    s.Keeps (x.checkLanes cluster die ctx w nr tags size l).2 := by
  unfold State.checkLanes
  split
  · dsimp only
    repeat' split
    all_goals exact h.transLanes
  · dsimp only
    repeat' split
    all_goals exact h.transLanes

/-! ### Operations of `Machine/Ops.lean` -/

theorem State.Keeps.modGroup {g : ℕ} {f : Group → Group} (h : s.Keeps x) : s.Keeps (x.modGroup g f) :=
  h.same rfl rfl rfl
theorem State.Keeps.modCtl {g : ℕ} {f : Ctl → Ctl} (h : s.Keeps x) : s.Keeps (x.modCtl g f) := h.modGroup
theorem State.Keeps.modRegs {g : ℕ} {f : Regs → Regs} (h : s.Keeps x) : s.Keeps (x.modRegs g f) := h.modGroup
theorem State.Keeps.modTeam {t1 : ℕ} {f : Team → Team} (h : s.Keeps x) : s.Keeps (x.modTeam t1 f) := h.same rfl rfl rfl
theorem State.Keeps.modSpan {n : ℕ} {f : Span → Span} (h : s.Keeps x) : s.Keeps (x.modSpan n f) := h.same rfl rfl rfl
theorem State.Keeps.modLaunch {l : ℕ} {f : Launch → Launch} (h : s.Keeps x) : s.Keeps (x.modLaunch l f) :=
  h.same rfl rfl rfl
theorem State.Keeps.modRun {c : ℕ} {f : CtxRun → CtxRun} (h : s.Keeps x) : s.Keeps (x.modRun c f) := h.same rfl rfl rfl
theorem State.Keeps.modOp {o : ℕ} {f : Op → Op} (h : s.Keeps x) : s.Keeps (x.modOp o f) := h.same rfl rfl rfl
theorem State.Keeps.delOp {o : ℕ} (h : s.Keeps x) : s.Keeps (x.delOp o) := h.same rfl rfl rfl
theorem State.Keeps.delReq {r1 : ℕ} (h : s.Keeps x) : s.Keeps (x.delReq r1) := h.same rfl rfl rfl
theorem State.Keeps.modCtx {c : ℕ} {f : Ctx → Ctx} (h : s.Keeps x) : s.Keeps (x.modCtx c f) := h.same rfl rfl rfl
theorem State.Keeps.setFaults {t1 : Tbl FaultRec} (h : s.Keeps x) : s.Keeps (x.setFaults t1) := h.same rfl rfl rfl
theorem State.Keeps.modPkg {f : Pkg → Pkg} (h : s.Keeps x) : s.Keeps (x.modPkg f) := h.same rfl rfl rfl
theorem State.Keeps.modMgmt {f : Mgmt → Mgmt} (h : s.Keeps x) : s.Keeps (x.modMgmt f) := h.same rfl rfl rfl
theorem State.Keeps.msi {w v : ℕ} (h : s.Keeps x) : s.Keeps (x.msi w v) := by
  unfold State.msi
  split
  · exact h.same
  · exact h
theorem State.Keeps.descStore {c off v : ℕ} (h : s.Keeps x) : s.Keeps (x.descStore c off v).2 := h.devStore
theorem State.Keeps.descPut {c off v : ℕ} (h : s.Keeps x) : s.Keeps (x.descPut c off v) := h.descStore
theorem State.Keeps.dropGroup {gid : ℕ} (h : s.Keeps x) : s.Keeps (x.dropGroup gid) := h.same rfl rfl rfl
theorem State.Keeps.dropTeam {tid : ℕ} (h : s.Keeps x) : s.Keeps (x.dropTeam tid) :=
  ((State.Keeps.foldl (fun _ _ hy => hy.dropGroup) h).same).modDie
theorem State.Keeps.releaseScratch {lid : ℕ} (h : s.Keeps x) : s.Keeps (x.releaseScratch lid) :=
  State.Keeps.foldl (fun _ _ hy => State.Keeps.ite hy hy.same) h
theorem State.Keeps.modNode {c n : ℕ} {f : Node → Node} (h : s.Keeps x) : s.Keeps (x.modNode c n f) := h.modRun
theorem State.Keeps.oweAdd {i : Instr} {w : ℕ} {misc : List ℕ} (h : s.Keeps x) : s.Keeps (x.oweAdd i w misc) :=
  h.fresh.same rfl rfl rfl
theorem State.Keeps.deviceFault {y : State} {ctx st addr holder : ℕ} {w : Bool} {bad : State → State}
    (hb : ∀ z, s.Keeps z → s.Keeps (bad z))
    (h : s.Keeps x) (hy : s.Keeps y) : s.Keeps (x.deviceFault y ctx st addr holder w bad) :=
  State.Keeps.ite h (State.Keeps.ite hy.fresh.setFaults (hb _ hy))
theorem State.Keeps.nodeDone {c n : ℕ} (h : s.Keeps x) : s.Keeps (x.nodeDone c n) := h.modNode
theorem State.Keeps.nodeFail {c n status addr : ℕ} (h : s.Keeps x) : s.Keeps (x.nodeFail c n status addr) := h.modNode
theorem State.Keeps.launchCheck {lid : ℕ} (h : s.Keeps x) : s.Keeps (x.launchCheck lid) := by
  unfold State.launchCheck
  split
  · exact h
  split
  · exact State.Keeps.ite h.releaseScratch h.releaseScratch.same
  split
  · exact State.Keeps.ite h.releaseScratch h.releaseScratch.same.nodeDone
  · exact State.Keeps.ite h.releaseScratch h.releaseScratch.same
  · exact State.Keeps.ite h.releaseScratch h.releaseScratch.same.oweAdd
theorem State.Keeps.teamCheck {tid : ℕ} (h : s.Keeps x) : s.Keeps (x.teamCheck tid) := by
  unfold State.teamCheck
  split
  · exact h
  split
  · exact h.dropTeam.launchCheck
  · exact h
theorem State.Keeps.teamsCheck (h : s.Keeps x) : s.Keeps (x.teamsCheck) :=
  State.Keeps.foldl (fun _ _ hy => hy.teamCheck) h
theorem State.Keeps.unpin {d i : ℕ} (h : s.Keeps x) : s.Keeps (x.unpin d i) := h.modDie.same rfl rfl rfl
theorem State.Keeps.abandonDraws {c : ℕ} (h : s.Keeps x) : s.Keeps (x.abandonDraws c) := by
  unfold State.abandonDraws
  refine State.Keeps.foldl (fun y a hy => ?_) h
  extract_lets d put p
  have hput (q : ℕ × State) (off : ℕ) (b : List Byte) (hq : s.Keeps q.2) : s.Keeps (put q off b).2 := by
    unfold put
    split <;> exact State.Keeps.of_eq ‹_› hq.devWrite
  have hp : s.Keeps p.2 := hput _ _ _ (hput _ _ _ hy)
  split
  · exact (State.Keeps.of_eq ‹_› hp.translate).oweAdd
  · exact State.Keeps.of_eq ‹_› hp.translate
theorem State.Keeps.endContext {c : ℕ} (h : s.Keeps x) : s.Keeps (x.endContext c) :=
  State.Keeps.foldl (fun _ _ hy => State.Keeps.foldl (fun _ _ hy => State.Keeps.ite hy.unpin hy) hy) ((State.Keeps.foldl (fun _ _ hy => hy.dropTeam) h.abandonDraws).same)
theorem State.Keeps.logTry {c : ℕ} {ws : List ℕ} (h : s.Keeps x) : s.Keeps (x.logTry c ws).2 := by
  unfold State.logTry
  split
  · exact h
  split
  · exact h.modCtx.descPut
  split
  · dsimp only
    split
    · exact h.devWrite.modCtx.descStore.msi
    split
    · exact h.devWrite
    · exact h.devWrite.modCtx.descStore.msi
  · dsimp only
    split
    · exact h.devWrite.modCtx.descStore
    split
    · exact h.devWrite
    · exact h.devWrite.modCtx.descStore
theorem State.Keeps.logRecord {c w0 w1 w2 w3 : ℕ} (h : s.Keeps x) : s.Keeps (x.logRecord c w0 w1 w2 w3) := by
  unfold State.logRecord
  split
  · exact h.oweAdd
  dsimp only
  split
  · exact State.Keeps.of_eq ‹_› h.logTry
  · exact (State.Keeps.of_eq ‹_› h.logTry).oweAdd
theorem State.Keeps.recordAgain {o c : ℕ} {ws : List ℕ} (h : s.Keeps x) : s.Keeps (x.recordAgain o c ws) := by
  unfold State.recordAgain
  split
  · exact h
  split
  · exact (State.Keeps.of_eq ‹_› h.logTry).delOp
  · have h1 := State.Keeps.of_eq ‹_› h.logTry
    exact State.Keeps.ite h1.endContext (State.Keeps.deviceFault (fun _ hz => hz.delOp) h h1)
theorem State.Keeps.enginePhys {c : ℕ} (h : s.Keeps x) : s.Keeps (x.enginePhys c) := h.logRecord.endContext
theorem State.Keeps.arithAt {gid : ℕ} {mode : Word} {h1 : ℕ} {exc : Exc} {lanes : Mask} {at_ : ℕ} (h : s.Keeps x) :
    s.Keeps (x.arithAt gid mode h1 exc lanes at_) := by
  unfold State.arithAt
  split
  · exact h
  split
  · dsimp only
    split
    · exact h.modGroup.logRecord
    · exact h.modGroup
  · exact h.modGroup
theorem State.Keeps.raised {e : GI} {exc : Exc} {lanes : Mask} (h : s.Keeps x) : s.Keeps (x.raised e exc lanes) := by
  unfold State.raised
  split
  · exact h
  · exact h.modGroup
theorem State.Keeps.lateOf {gid core : ℕ} {l : List Late} (h : s.Keeps x) : s.Keeps (x.lateOf gid core l) := by
  induction l generalizing x with
  | nil => exact h
  | cons l r ih => exact State.Keeps.ite (ih h.modGroup.arithAt) h
theorem State.Keeps.lateTurn {gid : ℕ} (h : s.Keeps x) : s.Keeps (x.lateTurn gid) := by
  unfold State.lateTurn
  split
  · exact h.lateOf
  · exact h
theorem State.Keeps.lateAll {gid : ℕ} (h : s.Keeps x) : s.Keeps (x.lateAll gid) := by
  unfold State.lateAll
  split
  · exact State.Keeps.foldl (fun _ _ hy => hy.arithAt) h.modGroup
  · exact h
theorem State.Keeps.giEventRecord {e : GI} {c : Cause} {pos : Pos} {lanes : Mask} (h : s.Keeps x) :
    s.Keeps (e.eventRecord x c pos lanes) :=
  h.logRecord
theorem State.Keeps.giDesched {e : GI} {st acc addr : ℕ} {lanes : Mask} (h : s.Keeps x) :
    s.Keeps (e.desched x st acc addr lanes) := by
  unfold GI.desched
  exact h.fresh.setFaults.modCtl
theorem State.Keeps.enterTrap {gid : ℕ} (h : s.Keeps x) : s.Keeps (x.enterTrap gid) := by
  unfold State.enterTrap
  split
  · exact h
  split
  · exact h
  split
  · exact h
  extract_lets lv vec old bank enter
  have he : s.Keeps enter := h.modGroup
  split
  · exact he
  split
  · exact State.Keeps.ite he h.giEventRecord.endContext
  · exact State.Keeps.ite h.giDesched h.giEventRecord.endContext
  · exact h.giEventRecord.endContext
  · exact h.giEventRecord.endContext
  · exact h
theorem State.Keeps.raise {gid : ℕ} {t1 : TrapRec} (h : s.Keeps x) : s.Keeps (x.raise gid t1) := by
  unfold State.raise
  split
  · exact h
  split
  · exact h.lateAll.giEventRecord.endContext
  split
  · exact h.modCtl.enterTrap
  · exact h.lateAll.giEventRecord.endContext
theorem State.Keeps.owe {gid : ℕ} {t1 : TrapRec} (h : s.Keeps x) : s.Keeps (x.owe gid t1) := by
  unfold State.owe
  split
  · exact h
  split
  · exact h.raise
  split
  · exact h
  split
  · exact h.raise
  · exact h.modCtl
theorem State.Keeps.giPageFault {e : GI} {st acc addr : ℕ} {lanes : Mask} (h : s.Keeps x) :
    s.Keeps (e.pageFault x st acc addr lanes) := by
  unfold GI.pageFault
  split
  · exact h.giDesched.modCtl
  · exact h.raise
theorem State.Keeps.giTrapHere {e : GI} {c : Cause} {arg addr : ℕ} {lanes : Mask} (h : s.Keeps x) :
    s.Keeps (e.trapHere x c arg addr lanes) :=
  h.raise
theorem State.Keeps.giFetchTrap {e : GI} {c : Cause} {a : ℕ} (h : s.Keeps x) : s.Keeps (e.fetchTrap x c a) :=
  h.giTrapHere
theorem State.Keeps.giEnter {e : GI} {y : State} {p : Pos} (h : s.Keeps x) (hy : s.Keeps y) :
    s.Keeps (e.enter x y p) := by
  unfold GI.enter
  extract_lets arrive
  have ha : s.Keeps arrive := hy.modGroup
  split
  · exact ha
  split
  · exact hy
  split
  · exact State.Keeps.ite ha h.giTrapHere
  · exact h.giPageFault
  · exact h.giTrapHere
  · exact h.giFetchTrap
  · exact h
theorem State.Keeps.giUntag {e : GI} (h : s.Keeps x) : s.Keeps (e.untag x) := h.modGroup
theorem State.Keeps.giFinish {e : GI} {f : Fx} (h : s.Keeps x) (hf : s.Keeps f.state) : s.Keeps (e.finish x f) := by
  cases f with
  | done y => exact h.giEnter hf.giUntag
  | jump y a =>
    show s.Keeps (e.enter x (e.untag y) ⟨a, 0⟩)
    exact h.giEnter hf.giUntag
  | stay y => exact hf
  | trap y c arg addr lanes => exact hf.giTrapHere
  | page y st acc addr lanes => exact hf.giPageFault
theorem State.Keeps.runGroup {i : Instr} {gid : ℕ} {body : GI → State → Fx}
    (hb : ∀ e y, s.Keeps y → s.Keeps (body e y).state)
    (h : s.Keeps x) : s.Keeps (x.runGroup i gid body) := by
  unfold State.runGroup
  split
  · exact h
  · have hf (e : GI) : s.Keeps (e.finish x (body e x)) := h.giFinish (hb e x h)
    split
    · exact h
    split
    · exact hf _
    split
    · exact h.modCtl.raise
    split
    · exact h.giTrapHere
    · exact State.Keeps.ite h (hf _)
theorem State.Keeps.giStartOp {e : GI} {f : Op → Op} (h : s.Keeps x) : s.Keeps (e.startOp x f).2 :=
  h.fresh.same.modGroup
theorem State.Keeps.modAwaits {f : Await → Await} (h : s.Keeps x) : s.Keeps (x.modAwaits f) := h.same rfl rfl rfl
theorem State.Keeps.handedDone {f : Await → Await} (h : s.Keeps x) : s.Keeps (x.handedDone f) := h.same.teamsCheck
theorem State.Keeps.noteW {gid : ℕ} {p : Path} {w : ℕ} (h : s.Keeps x) : s.Keeps (x.noteW gid p w) := h.modGroup
theorem State.Keeps.leaveSection {gid : ℕ} {m : Mask} (h : s.Keeps x) : s.Keeps (x.leaveSection gid m) := by
  unfold State.leaveSection
  split
  · exact h
  split
  · exact h
  · exact (State.Keeps.ite h h.fresh.same).modGroup
theorem State.Keeps.retireOp {o : ℕ} (h : s.Keeps x) : s.Keeps (x.retireOp o) := by
  unfold State.retireOp
  split
  · exact h
  · exact h.delOp.modAwaits.modGroup.modSpan

/-! ### Operations of `Machine/Span.lean` -/

theorem State.Keeps.hold {lid core tl : ℕ} (h : s.Keeps x) : s.Keeps (x.hold lid core tl) := by
  unfold State.hold
  split
  · exact h
  · exact h.modLaunch
theorem State.Keeps.holdTeams {lid : ℕ} {l : Launch} {ts : List (ℕ × ℕ)} {t : State} (q : x.holdTeams lid l ts = some t)
    (h : s.Keeps x) : s.Keeps t := by
  induction ts generalizing x with
  | nil =>
    cases q
    exact h
  | cons a r ih =>
    unfold State.holdTeams at q
    split at q
    · exact ih q h.hold
    · cases q
theorem State.Keeps.takeGranules {core size : ℕ} (h : s.Keeps x) : s.Keeps (x.takeGranules core size) := by
  unfold State.takeGranules
  split
  · exact h
  · exact h.same
theorem State.Keeps.newTeam {lid core tx ty age : ℕ} {t : ℕ × State} (q : x.newTeam lid core tx ty age = some t)
    (h : s.Keeps x) :
    s.Keeps t.2 := by
  unfold State.newTeam at q
  split at q
  · cases q
  dsimp only at q
  split at q
  · cases q
  · cases q
    exact h.modLaunch.fresh.same.takeGranules
theorem State.Keeps.newGroup {l : Launch} {tid : ℕ} {t1 : Team} {num : ℕ} {r1 : Regs} {active : Mask}
    {stack : List MaskEntry} {sticky : Exc} {c : Ctl} {maxW : List ℕ} (h : s.Keeps x) :
    s.Keeps (x.newGroup l tid t1 num r1 active stack sticky c maxW) :=
  h.fresh.same rfl rfl rfl
theorem State.Keeps.formGroup {l : Launch} {tid : ℕ} {t1 : Team} {num : ℕ} {x1 : Span} {active others : List Span}
    {pos : Pos} (h : s.Keeps x) :
    s.Keeps (x.formGroup l tid t1 num x1 active others pos) :=
  h.newGroup
theorem State.Keeps.dropEmptySpans {l : Launch} {lid : ℕ} (h : s.Keeps x) : s.Keeps (x.dropEmptySpans l lid) :=
  h.same rfl rfl rfl
theorem State.Keeps.expandOne {sid : ℕ} {t : State} (q : x.expandOne sid = some t) (h : s.Keeps x) : s.Keeps t := by
  unfold State.expandOne at q
  split at q
  · cases q
  split at q
  · cases q
  split at q
  · cases q
  split at q
  · cases q
  split at q
  · cases q
  split at q
  · cases q
  · have h1 := h.newTeam ‹_›
    extract_lets mates act oth s2 tl mark s3 s4 at q
    have h2 : s.Keeps s2 := State.Keeps.foldl (fun _ _ hy => hy.formGroup) h1
    have h3 : s.Keeps s3 := State.Keeps.foldl (fun _ _ hy => hy.modSpan) h2
    split at q
    · cases q
      exact h3.dropEmptySpans.teamCheck
    · cases q
theorem State.Keeps.expandAll {n sid : ℕ} (h : s.Keeps x) : s.Keeps (State.expandAll n x sid) := by
  induction n generalizing x with
  | zero => exact h
  | succ k ih =>
    unfold State.expandAll
    split
    · exact ih (h.expandOne ‹_›)
    · exact h
theorem State.Keeps.rejoin {core c : ℕ} (h : s.Keeps x) : s.Keeps (x.rejoin core c) := by
  unfold State.rejoin
  dsimp only
  split
  · exact h
  split
  · exact h
  split
  · exact h
  · exact State.Keeps.foldl (fun _ _ hy => hy.expandAll) (State.Keeps.foldl (fun _ _ hy => hy.same) h.same)
theorem State.Keeps.releaseMendl {core c : ℕ} (h : s.Keeps x) : s.Keeps (x.releaseMendl core c) :=
  State.Keeps.ite h (State.Keeps.foldl (fun _ _ hy => State.Keeps.ite hy.modSpan hy) h)
theorem State.Keeps.settle {core : ℕ} (h : s.Keeps x) : s.Keeps (x.settle core) :=
  State.Keeps.foldl (fun _ _ hy => hy.rejoin.releaseMendl) h
theorem State.Keeps.materialise {sid : ℕ} {pos : Pos} (h : s.Keeps x) : s.Keeps (x.materialise sid pos) := by
  unfold State.materialise
  split
  · exact h
  split
  · exact h
  · exact h.modSpan.expandAll.settle
theorem State.Keeps.siMat {e : SI} {p : Pos} (h : s.Keeps x) : s.Keeps (e.mat x p) := by
  unfold SI.mat
  split
  · exact h.materialise
  · exact h
theorem State.Keeps.siEnter {e : SI} {y : State} {z : Span} {p : Pos} (h : s.Keeps x) (hy : s.Keeps y) :
    s.Keeps (e.enter x y z p) := by
  unfold SI.enter
  split
  · exact hy.modSpan
  split
  · exact State.Keeps.ite hy.modSpan h.siMat
  · exact h
  · exact h.siMat
theorem State.Keeps.siFinish {e : SI} {f : SFx} (h : s.Keeps x) (hf : s.KeepsSpan f) : s.Keeps (e.finish x f) := by
  cases f with
  | done z => exact h.siEnter h
  | doneS y z => exact h.siEnter hf
  | jump z a => exact h.siEnter h
  | mat => exact h.siMat
  | stay y => exact hf
theorem State.Keeps.runSpan {i : Instr} {sid : ℕ} {body : SI → State → SFx}
    (hb : ∀ e y, s.Keeps y → s.KeepsSpan (body e y))
    (h : s.Keeps x) : s.Keeps (x.runSpan i sid body) := by
  unfold State.runSpan
  split
  · exact h
  split
  · exact h
  split
  · exact h.siMat
  split
  · split
    · exact h.siFinish (hb _ x h)
    · refine h.siFinish ?_
      split <;> exact trivial
    · exact h.siMat
  · exact h.siFinish (hb _ x h)
theorem State.Keeps.issue {i : Instr} {grp : GI → State → Fx} {spn : SI → State → SFx} {t : State}
    (q : x.issue i grp spn = .next t) (hg : ∀ e y, s.Keeps y → s.Keeps (grp e y).state)
    (hs : ∀ e y, s.Keeps y → s.KeepsSpan (spn e y)) (h : s.Keeps x) : s.Keeps t := by
  unfold State.issue at q
  split at q
  · cases q
  split at q
  · cases q
  · cases q
    exact State.Keeps.runGroup hg h
  · cases q
    exact State.Keeps.runSpan hs h
theorem matSpan_keeps {a0 : SI} : s.KeepsSpan (matSpan a0 x) := trivial

/-! ### Operations of `Machine/Access.lean` -/

theorem State.Keeps.planTranslate {p : Plan} {cluster die ctx : ℕ} {user : Bool} (h : s.Keeps x) :
    s.Keeps (p.translate x cluster die ctx user).2 := by
  unfold Plan.translate
  split
  · exact h.checkLanes
  · exact h
theorem State.Keeps.planCheck {p : Plan} {cluster die ctx : ℕ} {user : Bool} (h : s.Keeps x) :
    s.Keeps (p.check x cluster die ctx user).2 := by
  unfold Plan.check
  split
  · exact h
  split
  · split
    · exact h
    dsimp only
    repeat' split
    all_goals exact State.Keeps.of_eq ‹_› h.planTranslate
  · exact h.planTranslate
theorem State.Keeps.sendPieces {p : Plan} {gid op core die ctx lid : ℕ} {l : List (Piece × Trans)} (h : s.Keeps x) :
    s.Keeps (x.sendPieces p gid op core die ctx lid l) :=
  State.Keeps.foldl (fun _ _ hy => State.Keeps.ite hy.addReq.dropCopies hy.addReq) h
theorem State.Keeps.dropPassing {r1 : Req} (h : s.Keeps x) : s.Keeps (x.dropPassing r1) :=
  State.Keeps.ite h h.delWay.dropCopies
theorem State.Keeps.arriveAll {o : ℕ} (h : s.Keeps x) : s.Keeps (x.arriveAll o) := by
  unfold State.arriveAll
  refine State.Keeps.foldl (fun y r hy => ?_) h
  extract_lets done
  have hd (t : State) (ht : s.Keeps t) : s.Keeps (done t) := ht.modReq
  split
  · exact hy.dropPassing.pend.modReq
  · exact hd _ (State.Keeps.writeHost hy)
  · exact hd _ (State.Keeps.dropCopies hy.same)
  · exact hy
theorem State.Keeps.takenAll {l : List (Piece × Trans)} (h : s.Keeps x) : s.Keeps (x.takenAll l).2 := by
  induction l generalizing x with
  | nil => exact h
  | cons a r ih => exact ih h.taken
theorem State.Keeps.giMisalign {e : GI} {acc addr : ℕ} {lanes : Mask} (h : s.Keeps x) :
    s.Keeps (e.misalign x acc addr lanes).state := by
  unfold GI.misalign
  split
  · exact h.raise
  · exact h
theorem State.Keeps.giClearRedo {e : GI} (h : s.Keeps x) : s.Keeps (e.clearRedo x) := h.modGroup
theorem State.Keeps.giAccess {e : GI} (h : s.Keeps x) : s.Keeps (e.access x).state := by
  unfold GI.access
  dsimp only
  split
  · exact h
  split
  · exact h
  split
  · exact h.giMisalign
  · exact h.planCheck
  · exact h.planCheck
  · exact h.planCheck.giStartOp.giClearRedo
  · exact (State.Keeps.ite h.planCheck.giStartOp h.planCheck.giStartOp.sendPieces).giClearRedo
theorem State.Keeps.planByteStep {p : Plan} {cluster die ctx : ℕ} {user : Bool} {x1 : EByte} (h : s.Keeps x) :
    s.Keeps (p.byteStep cluster die ctx user x x1).2 := by
  unfold Plan.byteStep
  dsimp only
  split <;> exact State.Keeps.of_eq ‹_› h.planCheck
theorem State.Keeps.leaveFirmware {gid : ℕ} {p : Pos} (h : s.Keeps x) : s.Keeps (x.leaveFirmware gid p) := h.modGroup
theorem State.Keeps.emulLeave {gid : ℕ} {i : Instr} {p : Pos} (h : s.Keeps x) : s.Keeps (x.emulLeave gid i p) := by
  unfold State.emulLeave
  split
  · exact h
  dsimp only
  split
  · exact h.leaveFirmware
  split
  · split
    · exact h.leaveFirmware
    · exact h.leaveFirmware.raise
  · exact h.leaveFirmware
theorem State.Keeps.emulFault {gid acc status kind addr lane : ℕ} (h : s.Keeps x) :
    s.Keeps (x.emulFault gid acc status kind addr lane) := by
  unfold State.emulFault
  split
  · exact h
  split
  · dsimp only
    split
    · exact h.leaveFirmware
    · exact h.leaveFirmware.giPageFault
  · dsimp only
    split
    · exact h.leaveFirmware
    · exact h.leaveFirmware.raise
theorem State.Keeps.emulStart {gid : ℕ} (h : s.Keeps x) : s.Keeps (x.emulStart gid) := by
  unfold State.emulStart
  split
  · exact h
  split
  · exact h
  split
  · exact h.leaveFirmware
  dsimp only
  split
  · exact h.leaveFirmware
  · exact h.fresh.same.giClearRedo.modCtl

/-! ### Operations of `Machine/Control.lean` -/

theorem brzSpan_keeps {want : Bool} {p : ℕ} {o : ℤ} {e : SI} : s.KeepsSpan (brzSpan want p o e x) := by
  unfold brzSpan
  repeat' split
  all_goals exact trivial
theorem State.Keeps.giMaskApply {e : GI} {o : MaskOut} (h : s.Keeps x) : s.Keeps (e.maskApply x o).state := by
  unfold GI.maskApply
  split
  · exact h.modGroup.modCtl
  split <;> exact h.modGroup
theorem State.Keeps.dropOpReqs {o : ℕ} (h : s.Keeps x) : s.Keeps (x.dropOpReqs o) := h.same rfl rfl rfl
theorem State.Keeps.giSpillOp {e : GI} {st : OpSt} (h : s.Keeps x) : s.Keeps (e.spillOp x st).2 := by
  unfold GI.spillOp
  dsimp only
  exact h.fresh.same.modCtl
theorem State.Keeps.giSpillSend {e : GI} {old new : List MaskEntry} {held : Option ℕ} (h : s.Keeps x) :
    s.Keeps (e.spillSend x old new held).state := by
  unfold GI.spillSend
  extract_lets pw pr cw cr free wait n
  have hw : s.Keeps cw.2 := h.planCheck
  have hr : s.Keeps cr.2 := hw.planCheck
  have hfree (t : State) (ht : s.Keeps t) : s.Keeps (free t) := by
    unfold free
    split
    · exact ht.dropOpReqs.modCtl
    · exact ht
  have hwait : s.Keeps wait.state := State.Keeps.ite h hr.giSpillOp
  have hn : s.Keeps n.2 := by
    unfold n
    split
    · exact hr.modOp
    · exact hr.giSpillOp
  split
  · exact hn.sendPieces.sendPieces
  · exact hwait
  · exact hwait
  · exact hfree _ hw
  · exact hfree _ hw
  · exact hfree _ hw
  · exact hfree _ hr
  · exact hfree _ hr
  · exact hfree _ hr
theorem State.Keeps.giMaskFx {e : GI} {o : MaskOut} (h : s.Keeps x) : s.Keeps (e.maskFx x o).state := by
  unfold GI.maskFx
  extract_lets ws rs id q s60 back
  split
  · exact h.giMaskApply
  split
  · split
    · exact h.giSpillSend
    split
    · exact h.dropOpReqs
    split
    · exact h.dropOpReqs
    split
    · exact h.dropOpReqs
    split
    · exact h.dropOpReqs.giMaskApply
    · exact h
  split
  · exact h
  split
  · split <;> exact h
  · exact h.giSpillSend
theorem maskGroup_keeps {f : GI → Option MaskOut} {e : GI} (h : s.Keeps x) : s.Keeps (maskGroup f e x).state := by
  unfold maskGroup
  split
  · exact h.giMaskFx
  · exact h
theorem State.Keeps.removeSpan {sid core lid : ℕ} (h : s.Keeps x) : s.Keeps (x.removeSpan sid core lid) :=
  h.same.settle.launchCheck
theorem State.Keeps.putPieces {sid cut : ℕ} {x1 : Span} {ps : List (Box × Bool)} {f : Span → Bool → Span}
    (h : s.Keeps x) :
    s.Keeps (x.putPieces sid cut x1 ps f) := by
  unfold State.putPieces
  exact State.Keeps.foldl (fun _ _ hy => hy.fresh.same) h.same
theorem State.Keeps.siCut {e : SI} {p cutId falseTo trueTo : ℕ} {f : Span → Bool → Span} (h : s.Keeps x) :
    s.KeepsSpan (e.cut x p cutId falseTo trueTo f) := by
  unfold SI.cut
  split
  · exact trivial
  dsimp only
  split
  · exact trivial
  · split
    · split
      · exact h.modSpan.settle
      · exact trivial
    · split
      · exact h.modSpan.settle
      · exact trivial
  split
  · exact trivial
  split
  · exact trivial
  split
  · exact h
  · exact h.putPieces.settle
theorem State.Keeps.siMif {e : SI} {p t1 : ℕ} (h : s.Keeps x) : s.KeepsSpan (e.mif x p t1) := by
  unfold SI.mif
  split
  · exact trivial
  · exact h.fresh.siCut
theorem State.Keeps.siMelse {e : SI} {t1 : ℕ} : s.KeepsSpan (e.melse x t1) := by
  unfold SI.melse
  repeat' split
  all_goals exact trivial
theorem State.Keeps.siPark {e : SI} {f : Span → Span} (h : s.Keeps x) : s.KeepsSpan (e.park x f) := by
  unfold SI.park
  split
  · exact h.modSpan.settle
  · exact h
theorem State.Keeps.siMend {e : SI} (h : s.Keeps x) : s.KeepsSpan (e.mend x) := by
  unfold SI.mend
  split
  · split
    · exact trivial
    split
    · split
      · exact trivial
      · exact h.siPark
    · exact trivial
  · exact trivial
theorem State.Keeps.siMloop {e : SI} (h : s.Keeps x) : s.KeepsSpan (e.mloop x) := by
  unfold SI.mloop
  split
  · exact trivial
  · exact h.fresh.fresh
theorem State.Keeps.markLoop {core id : ℕ} (h : s.Keeps x) : s.Keeps (x.markLoop core id) := h.same rfl rfl rfl
theorem State.Keeps.siLeaveLoop {e : SI} {i : ℕ} {b : SpanEntry} {t1 : ℕ} (h : s.Keeps x) :
    s.KeepsSpan (e.leaveLoop x i b t1) := by
  unfold SI.leaveLoop
  split
  · split
    · exact trivial
    · exact h.markLoop.siPark
  · exact trivial
theorem State.Keeps.siMbrk {e : SI} {p t1 : ℕ} (h : s.Keeps x) : s.KeepsSpan (e.mbrk x p t1) := by
  unfold SI.mbrk
  split
  · exact trivial
  split
  · exact h.siLeaveLoop
  · exact trivial
  split
  · exact h.siLeaveLoop
  · exact trivial
  · exact h.fresh.markLoop.siCut
theorem State.Keeps.siMcont {e : SI} {p t1 : ℕ} (h : s.Keeps x) : s.KeepsSpan (e.mcont x p t1) := by
  unfold SI.mcont
  split
  · extract_lets on marked whole n
    have hm (t : State) (ht : s.Keeps t) : s.Keeps (marked t) := by
      unfold marked
      split
      · exact ht.markLoop
      · exact ht
    have hw : s.KeepsSpan whole := by
      unfold whole
      split
      · exact trivial
      split
      · exact trivial
      · exact (hm _ h).siPark
    split
    · exact hw
    · exact trivial
    split
    · exact hw
    · exact trivial
    · exact (hm _ h.fresh).siCut
  · exact trivial
theorem State.Keeps.siMendl {e : SI} {t1 : ℕ} (h : s.Keeps x) : s.KeepsSpan (e.mendl x t1) := by
  unfold SI.mendl
  split
  · split
    · split
      · exact (State.Keeps.foldl (fun _ _ hy => State.Keeps.ite hy.modSpan hy) h).modSpan
      · exact trivial
    · exact trivial
  · exact trivial
theorem exitBody_keeps {e : GI} (h : s.Keeps x) : s.Keeps (exitBody e x).state := by
  have hm : s.Keeps (e.maskFx x e.exit).state := h.giMaskFx
  unfold exitBody
  generalize e.maskFx x e.exit = f at hm
  cases f with
  | done y => exact hm.leaveSection
  | stay y =>
    dsimp only
    split
    · exact State.Keeps.ite hm.leaveSection hm
    · exact hm
  | jump y a => exact hm
  | trap y c arg addr lanes => exact hm
  | page y st acc addr lanes => exact hm
theorem exitSpan_keeps {e : SI} (h : s.Keeps x) : s.KeepsSpan (exitSpan e x) := by
  unfold exitSpan
  split
  · exact h.removeSpan
  · exact h

/-! ### Operations of `Machine/LoadStore.lean` -/

theorem State.Keeps.siStore {e : SI} {d sr o : ℕ} {z : Size} {h1 : Hint} (h : s.Keeps x) :
    s.KeepsSpan (e.store x d sr o z h1) := by
  unfold SI.store
  split
  · dsimp only
    split
    · split
      · exact trivial
      split <;> exact h
    · exact h
    · exact trivial
  · dsimp only
    split
    · split
      · exact trivial
      split
      · exact h
      split
      · exact trivial
      · exact (((((State.Keeps.of_eq ‹_› h.planCheck).takenAll).fresh).same).sendPieces).arriveAll
    · exact h
    · exact trivial

/-! ### Operations of `Machine/Schedule.lean` -/

theorem State.Keeps.groupIssue {gid : ℕ} (h : s.Keeps x) : s.Keeps (x.groupIssue gid).2 := by
  unfold State.groupIssue
  split
  · exact h
  split
  · exact h
  split
  · exact h.same
  · exact h.giTrapHere
  · exact h.giPageFault
  · exact h.giTrapHere
  · exact h.giFetchTrap
  · exact h
theorem State.Keeps.spanTurn {sid : ℕ} (h : s.Keeps x) : s.Keeps (x.spanTurn sid).2 := by
  unfold State.spanTurn
  split
  · exact h
  split
  · exact h
  split
  · exact h.same
  · exact h
  · exact h.siMat
theorem State.Keeps.groupTurn {gid : ℕ} (h : s.Keeps x) : s.Keeps (x.groupTurn gid).2 := by
  unfold State.groupTurn
  split
  · exact h
  split
  · exact h.groupIssue
  · exact h
theorem State.Keeps.charge {n : ℕ} (h : s.Keeps x) : s.Keeps (x.charge n) := h.same rfl rfl rfl
theorem State.Keeps.event {f : State → State} {t : State} (q : x.event f = .next t)
    (hf : ∀ y, s.Keeps y → s.Keeps (f y))
    (h : s.Keeps x) : s.Keeps t := by
  unfold State.event at q
  split at q
  · cases q
    exact hf x h
  · cases q

/-! ### Operations of `Machine/Sync.lean` -/

theorem State.Keeps.giWait {e : GI} {arg : List ℕ} (h : s.Keeps x) : s.Keeps (e.wait x arg).state := by
  unfold GI.wait
  split <;> exact h.modCtl
theorem State.Keeps.dropPath {core : ℕ} {p : Path} {t1 : ℕ} (h : s.Keeps x) : s.Keeps (x.dropPath core p t1) := by
  unfold State.dropPath
  split
  · exact h
  · exact h.same
theorem State.Keeps.dropPaths {core t1 : ℕ} (h : s.Keeps x) : s.Keeps (x.dropPaths core t1) :=
  State.Keeps.foldl (fun _ _ hy => hy.dropPath) h
theorem fenceBody_keeps {sc : Scope} {e : GI} (h : s.Keeps x) : s.Keeps (fenceBody sc e x).state := by
  unfold fenceBody
  split
  · exact h
  · exact h.giWait
theorem xfenceBody_keeps {b a : Path} {e : GI} (h : s.Keeps x) : s.Keeps (xfenceBody b a e x).state := by
  unfold xfenceBody
  split
  · exact h.dropPath
  · exact h.giWait
theorem State.Keeps.barCheck {tid n : ℕ} (h : s.Keeps x) : s.Keeps (x.barCheck tid n) := by
  unfold State.barCheck
  split
  · exact h
  · exact State.Keeps.ite h.modTeam (State.Keeps.foldl (fun _ _ hy => State.Keeps.ite hy.modCtl hy) h.modTeam)
theorem State.Keeps.barsCheck {tid : ℕ} (h : s.Keeps x) : s.Keeps (x.barsCheck tid) :=
  State.Keeps.foldl (fun _ _ hy => hy.barCheck) h
theorem State.Keeps.barArrive {tid num n c : ℕ} (h : s.Keeps x) : s.Keeps (x.barArrive tid num n c) :=
  h.modTeam.barCheck
theorem State.Keeps.giBarWait {e : GI} {n : ℕ} (h : s.Keeps x) : s.Keeps (e.barWait x n).state := by
  unfold GI.barWait
  split
  · exact h.giWait
  · exact h
theorem barBody_keeps {c n : ℕ} {e : GI} (h : s.Keeps x) : s.Keeps (barBody c n e x).state := by
  unfold barBody
  split
  · exact h
  split
  · exact h
  split
  · exact h
  split
  · exact h.giWait
  split
  · exact h.modCtl
  split
  · exact h.giWait
  · exact h.barArrive.giBarWait
theorem barSpan_keeps {c : ℕ} {e : SI} : s.KeepsSpan (barSpan c e x) := by
  unfold barSpan
  split <;> exact trivial
theorem barwaitBody_keeps {e : GI} (h : s.Keeps x) : s.Keeps (barwaitBody e x).state := by
  unfold barwaitBody
  split
  · split <;> exact h
  · exact h.giWait
theorem State.Keeps.modBc {tid n : ℕ} {f : BcSlot → BcSlot} (h : s.Keeps x) : s.Keeps (x.modBc tid n f) := h.modTeam
theorem State.Keeps.bcinitDone {op : Op} {n : ℕ} (h : s.Keeps x) : s.Keeps (x.bcinitDone op n) := h.modBc
theorem bcwaitBody_keeps {d n : ℕ} {e : GI} (h : s.Keeps x) : s.Keeps (bcwaitBody d n e x).state := by
  unfold bcwaitBody
  extract_lets b
  split
  · exact h.modBc.modRegs
  · exact h.giWait
theorem State.Keeps.addCopyReq {c : Copy} (h : s.Keeps x) : s.Keeps (x.addCopyReq c) := h.fresh.same rfl rfl rfl
theorem State.Keeps.cpykDone {o : ℕ} {op : Op} {count : ℕ} (h : s.Keeps x) : s.Keeps (x.cpykDone o op count) := by
  unfold State.cpykDone
  split
  · exact h
  · exact State.Keeps.foldl (fun _ _ hy => hy.addCopyReq.modAwaits) h
theorem State.Keeps.giOweLater {e : GI} {c : Cause} {arg addr : ℕ} {lanes : Mask} (h : s.Keeps x) :
    s.Keeps (e.oweLater x c arg addr lanes) :=
  h.modCtl
theorem State.Keeps.giHeldBlock {e : GI} (h : s.Keeps x) : s.Keeps (e.heldBlock x).state := h.giStartOp.modGroup
theorem State.Keeps.renameOp {gid m o : ℕ} {f : Op → Op} (h : s.Keeps x) : s.Keeps (x.renameOp gid m o f) := by
  unfold State.renameOp
  split
  · exact h
  · exact h.same.modGroup
theorem State.Keeps.bringAll {ctx : ℕ} {va : Option ℕ} {l : List (ℕ × ℕ × Hint)} {t : State}
    (q : x.bringAll ctx va l = some t)
    (h : s.Keeps x) : s.Keeps t := by
  induction l generalizing x with
  | nil =>
    cases q
    exact h
  | cons a r ih =>
    unfold State.bringAll at q
    split at q
    · cases q
    · exact ih q (h.bring ‹_›).touchAt
theorem State.Keeps.giReadBlock {e : GI} {base : DWord} {n : ℕ} {tags : Bool} (h : s.Keeps x) :
    s.Keeps (e.readBlock x base n tags).2 ∧ ∀ f, (e.readBlock x base n tags).1 = .error f → s.Keeps f.state := by
  unfold GI.readBlock
  extract_lets lane m r va
  have hr : s.Keeps r.2 := h.planCheck
  have both {y : State} {g : Fx} (hy : s.Keeps y) (hg : s.Keeps g.state) :
      s.Keeps ((Except.error g, y) : (Except Fx (List Byte)) × State).2 ∧
        ∀ f, ((Except.error g, y) : (Except Fx (List Byte)) × State).1 = .error f → s.Keeps f.state :=
    ⟨hy, fun f hf => by cases hf; exact hg⟩
  split
  · exact both h h
  split
  · exact both hr hr
  · exact both hr hr
  · exact both hr hr
  · exact both h hr.giHeldBlock
  split
  · exact both hr hr
  split
  · exact both hr hr
  split
  · exact both h hr.giHeldBlock
  split
  · exact both hr hr.giOweLater
  extract_lets
  split
  · exact both h hr.giHeldBlock
  · exact ⟨hr.bringAll ‹_›, fun f hf => by cases hf⟩
theorem pinBody_keeps {a : ℕ} {e : GI} (h : s.Keeps x) : s.Keeps (pinBody a e x).state := by
  have ⟨h1, h2⟩ := h.giReadBlock (e := e) (base := e.g.regs.sr a) (n := 32) (tags := true)
  unfold pinBody
  split
  · exact h2 _ (congrArg Prod.fst ‹_›)
  · exact (State.Keeps.of_eq ‹_› h1).giStartOp
theorem State.Keeps.pinWays {d i : ℕ} (h : s.Keeps x) : s.Keeps (x.pinWays d i) := h.same rfl rfl rfl
theorem State.Keeps.pinDone {op : Op} {ctx d : ℕ} (h : s.Keeps x) : s.Keeps (x.pinDone op ctx d).2 := by
  unfold State.pinDone
  dsimp only
  split
  · exact h
  · exact h.modDie.pinWays
theorem State.Keeps.unpinDone {op : Op} {ctx d : ℕ} (h : s.Keeps x) : s.Keeps (x.unpinDone op ctx d).2 :=
  State.Keeps.iteSnd h h.unpin
theorem mbxrecvBody_keeps {a : ℕ} {e : GI} (h : s.Keeps x) : s.Keeps (mbxrecvBody a e x).state := by
  unfold mbxrecvBody
  split
  · exact h
  split
  · exact h.giWait
  · exact h

/-! ### Operations of `Machine/Barchan.lean` -/

theorem State.Keeps.modBarchan {f : Barchan → Barchan} (h : s.Keeps x) : s.Keeps (x.modBarchan f) := h.same rfl rfl rfl
theorem State.Keeps.modTable {n : ℕ} {f : XTable → XTable} (h : s.Keeps x) : s.Keeps (x.modTable n f) := h.modBarchan
theorem State.Keeps.xPut {pa : ℕ} {data : List Byte} (h : s.Keeps x) : s.Keeps (x.xPut pa data).2 :=
  h.devStore.same rfl rfl rfl
theorem State.Keeps.windowOver {y : State} (h : s.Keeps x) : s.Keeps (y.windowOver x) := State.Keeps.ite h.same h
theorem State.Keeps.xLog {event expert table die slot ver : ℕ} (h : s.Keeps x) :
    s.Keeps (x.xLog event expert table die slot ver) :=
  h.logRecord
theorem State.Keeps.xEnable {n : ℕ} (h : s.Keeps x) : s.Keeps (x.xEnable n) := by
  unfold State.xEnable
  split
  · exact h
  split
  · exact h.xLog
  · exact h.modBarchan.xPut
theorem State.Keeps.xDisable {n : ℕ} (h : s.Keeps x) : s.Keeps (x.xDisable n) := h.modBarchan.windowOver
theorem State.Keeps.xRefresh {n : ℕ} (h : s.Keeps x) : s.Keeps (x.xRefresh n) := h.modBarchan
theorem State.Keeps.routePick {t1 : XTable} {e : ℕ} {x1 : ExpertEnt} (h : s.Keeps x) :
    s.Keeps (x.routePick t1 e x1).2 := by
  unfold State.routePick
  dsimp only
  split
  · exact h
  · exact State.Keeps.foldlSnd (fun _ _ hy => hy.drawFree) h
theorem State.Keeps.routeOne {ctx n e : ℕ} (h : s.Keeps x) : s.Keeps (x.routeOne ctx n e).2 := by
  unfold State.routeOne
  split
  · exact h
  split
  · exact h
  split
  · exact h
  · exact h.routePick.modTable
theorem State.Keeps.routeDone {op : Op} {ctx n d : ℕ} (h : s.Keeps x) : s.Keeps (x.routeDone op ctx n d).2 :=
  State.Keeps.dropPaths (State.Keeps.foldlSnd (fun _ _ hy => hy.routeOne) h)
theorem State.Keeps.xdoneOne {ctx tok ver : ℕ} (h : s.Keeps x) : s.Keeps (x.xdoneOne ctx tok ver) := by
  unfold State.xdoneOne
  split
  · exact h
  · exact h.modTable
theorem State.Keeps.xdoneDone {op : Op} {ctx : ℕ} (h : s.Keeps x) : s.Keeps (x.xdoneDone op ctx) :=
  State.Keeps.foldl (fun _ _ hy => hy.xdoneOne) h
theorem State.Keeps.xDrop {n : ℕ} (h : s.Keeps x) : s.Keeps (x.xDrop n) := by
  unfold State.xDrop
  split
  · exact h
  · exact h.modTable.xPut
theorem State.Keeps.xPublish {n : ℕ} {img : List ExpertEnt} {copies : List XCopy} {w carry : ℕ} {atWindow : Bool}
    (h : s.Keeps x) :
    s.Keeps (x.xPublish n img copies w carry atWindow) :=
  h.modTable
theorem State.Keeps.xLogLost {n : ℕ} {t1 : XTable} (h : s.Keeps x) : s.Keeps (x.xLogLost n t1) :=
  State.Keeps.foldl (fun _ _ hy => hy.xLog) h
theorem State.Keeps.xCarry {n : ℕ} (h : s.Keeps x) : s.Keeps (x.xCarry n) := by
  unfold State.xCarry
  split
  · exact h
  split
  · exact h
  · exact h.xLogLost.xPublish
theorem State.Keeps.barchanDepart {d : ℕ} (h : s.Keeps x) : s.Keeps (x.barchanDepart d) :=
  State.Keeps.foldl (fun _ _ hy => hy.modTable.xDrop.xCarry) h
theorem State.Keeps.copyExpert {t1 : XTable} {e : ExpertEnt} {d slot : ℕ} (h : s.Keeps x) :
    s.Keeps (x.copyExpert t1 e d slot).2 := by
  unfold State.copyExpert
  split
  · exact h
  · exact h.xPut
/-- The step of a table's growth for one hot expert. -/
theorem State.Keeps.growStep {g : Grow} {n maxrep e : ℕ} {t : XTable} {dl : List ℕ} (h : s.Keeps g.s) :
    s.Keeps (g.step n maxrep t dl e).s := by
  unfold Grow.step
  split
  · exact h
  split
  · exact h
  · dsimp only
    split
    · exact h
    · split
      · exact h.copyExpert.xLog
      · exact h.copyExpert
theorem State.Keeps.growFold {l : List ℕ} {g : Grow} {n maxrep : ℕ} {t : XTable} {dl : List ℕ} (h : s.Keeps g.s) :
    s.Keeps (l.foldl (fun g e => g.step n maxrep t dl e) g).s := by
  induction l generalizing g with
  | nil => exact h
  | cons e r ih => exact ih h.growStep
theorem State.Keeps.tableWindow {n : ℕ} (h : s.Keeps x) : s.Keeps (x.tableWindow n) := by
  unfold State.tableWindow
  split
  · exact h
  · extract_lets b load dl s1 s2 s3 s4
    have h4 : s.Keeps s4 := h.xPut.xPut.xPut.modTable.xDrop
    clear_value s4
    split
    · exact h4
    · extract_lets freed s5 s6 img retire
      have h5 : s.Keeps s5 := State.Keeps.modTable (State.Keeps.foldl (fun _ _ hy => State.Keeps.ite hy.xLog hy) h4)
      have h6 : s.Keeps s6 := h5.xLogLost
      split
      · exact h5
      split
      · exact h5.xLog
      split
      · exact h6.modTable.modBarchan.xPublish
      · exact State.Keeps.xPublish (State.Keeps.growFold h6.modTable)
theorem State.Keeps.xPublished {n : ℕ} {p : PubVer} (h : s.Keeps x) : s.Keeps (x.xPublished n p) :=
  (State.Keeps.windowOver h.modTable).xCarry

/-! ### Operations of `Machine/VecInt.lean` -/

theorem uniSpan_keeps {srcs : List ℕ} {out : (ℕ → Word) → List (ℕ × Word)} {e : SI} :
    s.KeepsSpan (uniSpan srcs out e x) := by
  unfold uniSpan
  split <;> exact trivial
theorem lanewise_keeps {d : ℕ} {f : Regs → ℕ → Word} {e : GI} (h : s.Keeps x) : s.Keeps (lanewise d f e x).state :=
  h.modRegs
theorem lanewiseE_keeps {d a b : ℕ} {f : ℕ → Bool → ℕ → ℕ → ℕ → ℕ} {e : GI} (h : s.Keeps x) :
    s.Keeps (lanewiseE d a b f e x).state :=
  h.modRegs
theorem uniSpanE_keeps {srcs : List ℕ} {d a b : ℕ} {f : ℕ → Bool → ℕ → ℕ → ℕ → ℕ} {e : SI} :
    s.KeepsSpan (uniSpanE srcs d a b f e x) := by
  unfold uniSpanE
  exact uniSpan_keeps
theorem affSpan_keeps {srcs : List ℕ} {d a b : ℕ} {op : IOp} {f : Span → Option Form} {e : SI} :
    s.KeepsSpan (affSpan srcs d a b op f e x) := by
  unfold affSpan
  split
  · exact uniSpanE_keeps
  repeat' split
  all_goals exact trivial

/-! ### Operations of `Machine/Ident.lean` -/

theorem predwise_keeps {d : ℕ} {f : GI → Mask} {e : GI} (h : s.Keeps x) : s.Keeps (predwise d f e x).state := h.modRegs
theorem predSpan_keeps {d a b : ℕ} {f : PForm → PForm → Option PForm} {e : SI} :
    s.KeepsSpan (predSpan d a b f e x) := by
  unfold predSpan
  split <;> exact trivial

/-! ### Operations of `Machine/FloatOps.lean` -/

theorem floatFx_keeps {sr : Bool} {w n : ℕ} {put : Regs → (ℕ → ℕ) → Regs} {g : ℕ → ℕ → ℕ → ℕ × Exc} {e : GI}
    (h : s.Keeps x) :
    s.Keeps (floatFx sr w n put g e x).state :=
  h.modGroup.raised
theorem State.Keeps.siArith {e : SI} {exc : Exc} (h : s.Keeps x) : s.Keeps (e.arith x exc) := by
  unfold SI.arith
  split
  · exact h.logRecord
  · exact h
theorem floatSpan_keeps {srcs : List ℕ} {w n : ℕ} {put : ℕ → List (ℕ × Word)} {g : (ℕ → Word) → ℕ → ℕ → ℕ × Exc}
    {e : SI} (h : s.Keeps x) :
    s.KeepsSpan (floatSpan srcs w n put g e x) := by
  unfold floatSpan
  split
  · exact trivial
  · exact h.siArith
theorem longFloat_keeps {d : ℕ} {sr : Bool} {w n : ℕ} {g : ℕ → ℕ → ℕ → ℕ × Exc} {e : GI} (h : s.Keeps x) :
    s.Keeps (longFloat d sr w n g e x).state :=
  h.modGroup.giStartOp

/-! ### Operations of `Machine/Matrix.lean` -/

theorem State.Keeps.modAcc {tid n : ℕ} {f : Acc → Acc} (h : s.Keeps x) : s.Keeps (x.modAcc tid n f) := h.modTeam
theorem State.Keeps.giCommand {e : GI} {st : OpSt} {f : Op → Op} (h : s.Keeps x) : s.Keeps (e.command x st f).2 :=
  h.giStartOp.modOp.modDie
theorem State.Keeps.tileRangeFx {t1 : Tile} {acc : ℕ} (h : s.Keeps x) : s.Keeps (Tile.rangeFx t1 x acc).state := h
theorem State.Keeps.giProduct {e : GI} {r1 : Bool} {t1 a : ℕ} {sc : Option ℕ} (h : s.Keeps x) :
    s.Keeps (e.product x r1 t1 a sc).state := by
  unfold GI.product
  dsimp only
  split
  · exact h
  split
  · exact h.tileRangeFx
  split
  · exact h
  · exact h.giCommand.modGroup
theorem State.Keeps.giDrain {e : GI} {tiles : List Tile} {sv : List DWord} (h : s.Keeps x) :
    s.Keeps (e.drain x tiles sv).state := by
  unfold GI.drain
  split
  · exact h.tileRangeFx
  · exact State.Keeps.ite h.giCommand.modGroup h.giCommand
theorem State.Keeps.setArray {core : ℕ} {o : Option ℕ} (h : s.Keeps x) : s.Keeps (x.setArray core o) := h.modDie
theorem State.Keeps.seenLocal {now old : Memory} {t1 : Tile} (h : s.Keeps x) : s.Keeps (x.seenLocal now old t1).2 :=
  h.drawFree
theorem State.Keeps.eitherLocal {p q : Memory} (h : s.Keeps x) : s.Keeps (x.eitherLocal p q).2 := by
  unfold State.eitherLocal
  split
  · exact h
  · exact h.drawFree
theorem State.Keeps.agdrainStart {o : ℕ} {op : Op} {a : ℕ} (h : s.Keeps x) : s.Keeps (x.agdrainStart o op a) := by
  unfold State.agdrainStart
  split
  · exact h
  · exact ((State.Keeps.foldl (fun _ _ hy => hy.modReq) h).modAcc).modOp
theorem State.Keeps.unqueue {core o : ℕ} (h : s.Keeps x) : s.Keeps (x.unqueue core o) := h.modDie
theorem State.Keeps.productOn {op : Op} {tid d : ℕ} {old : List ℕ} (h : s.Keeps x) :
    s.Keeps (x.productOn op tid d old) := by
  unfold State.productOn
  split
  · exact h.seenLocal.modAcc
  · exact h
theorem State.Keeps.drainDone {op : Op} {a : ℕ} (h : s.Keeps x) : s.Keeps (x.drainDone op a).2.2 := by
  unfold State.drainDone
  split
  · exact h
  split
  · split
    · dsimp only
      exact h.eitherLocal.modTeam.modAcc
    · dsimp only
      exact h.eitherLocal.modTeam.modAcc
  · split
    · dsimp only
      exact h.eitherLocal.modTeam.modAcc
    · dsimp only
      exact h.eitherLocal.modTeam.modAcc
theorem State.Keeps.matrixDone {o : ℕ} {op : Op} (h : s.Keeps x) : s.Keeps (x.matrixDone o op).2.2 := by
  unfold State.matrixDone
  split
  · dsimp only
    exact h.modAcc.setArray
  · split
    · dsimp only
      exact h.modAcc.setArray
    · dsimp only
      exact h.setArray
  · split
    · split
      · dsimp only
        exact h.seenLocal.modAcc.setArray
      · dsimp only
        exact h.seenLocal.modAcc.setArray
    · dsimp only
      exact h.setArray
  · dsimp only
    exact h.productOn.setArray
  · dsimp only
    exact h.productOn.setArray
  · split
    · dsimp only
      exact h.productOn.productOn.setArray.setArray
    · dsimp only
      exact h.productOn.setArray.setArray
  · dsimp only
    exact h.drainDone.setArray
  · dsimp only
    exact h.drainDone.setArray
  · split
    · dsimp only
      exact h.setArray
    · exact h

/-! ### Operations of `Machine/Hash.lean` -/

theorem State.Keeps.gridPut {cluster ctx va : ℕ} {b : List Byte} (h : s.Keeps x) :
    s.Keeps (x.gridPut cluster ctx va b) :=
  h.same rfl rfl rfl
theorem State.Keeps.giGridMis {e : GI} {base : DWord} (h : s.Keeps x) : s.Keeps (e.gridMis x base).state := h
theorem hcfgBody_keeps {a : ℕ} {e : GI} (h : s.Keeps x) : s.Keeps (hcfgBody a e x).state := by
  have ⟨h1, h2⟩ := h.giReadBlock (e := e) (base := e.g.regs.sr a) (n := 128) (tags := false)
  unfold hcfgBody
  extract_lets base
  split
  · exact h.giGridMis
  split
  · exact h2 _ (congrArg Prod.fst ‹_›)
  · exact (State.Keeps.of_eq ‹_› h1).giStartOp
theorem State.Keeps.hcfgDone {op : Op} {l : Launch} {d : ℕ} (h : s.Keeps x) : s.Keeps (x.hcfgDone op l d).2 := h.gridPut
theorem State.Keeps.giGrid {e : GI} {base : DWord} (h : s.Keeps x) :
    s.Keeps (e.grid x base).2 ∧ ∀ f, (e.grid x base).1 = .error f → s.Keeps f.state := by
  have hb {y : State} (hy : s.Keeps y) := hy.giReadBlock (e := e) (base := base) (n := 128) (tags := false)
  unfold GI.grid
  dsimp only
  split
  · split
    · exact ⟨(State.Keeps.of_eq ‹_› (hb h).1).gridPut, fun f hf => by cases hf⟩
    · exact hb h
  split
  · exact ⟨h.drawFree, fun f hf => by cases hf⟩
  split
  · exact ⟨(State.Keeps.of_eq ‹_› (hb h.drawFree).1).gridPut, fun f hf => by cases hf⟩
  · exact hb h.drawFree
theorem State.Keeps.giHash {e : GI} {d a sr l0 n : ℕ} {scatter : Bool} (h : s.Keeps x) :
    s.Keeps (e.hash x d a sr l0 n scatter).state := by
  have ⟨h1, h2⟩ := h.giGrid (e := e) (base := e.g.regs.sr sr)
  unfold GI.hash
  extract_lets base
  split
  · exact h.giGridMis
  split
  · exact h2 _ (congrArg Prod.fst ‹_›)
  · have h3 := State.Keeps.of_eq ‹_› h1
    extract_lets g reads writes
    split
    · exact h3
    split
    · exact h3
    split
    · exact h3
    split
    · exact h
    · exact h3.giStartOp.modGroup
theorem State.Keeps.setScratch {lid die : ℕ} {m : Memory} (h : s.Keeps x) : s.Keeps (x.setScratch lid die m) :=
  h.same rfl rfl rfl
theorem State.Keeps.putHash {cluster lid ln : ℕ} {b : List Byte} {t1 : ℕ} (h : s.Keeps x) :
    s.Keeps (x.putHash cluster lid ln b t1) :=
  h.same rfl rfl rfl
theorem State.Keeps.hashLine {cluster lid die ln t1 : ℕ} (h : s.Keeps x) :
    s.Keeps (x.hashLine cluster lid die ln t1).2 := by
  unfold State.hashLine
  split
  · exact h.putHash
  · exact State.Keeps.iteSnd h (State.Keeps.iteSnd h.drawFree h.drawFree.putHash)
theorem State.Keeps.hashLines {cluster lid die t : ℕ} {l : List ℕ} (h : s.Keeps x) :
    s.Keeps (x.hashLines cluster lid die t l).2 := by
  induction l generalizing x with
  | nil => exact h
  | cons a r ih => exact ih h.hashLine
theorem State.Keeps.hgatherDone {op : Op} {lid d l0 n : ℕ} (h : s.Keeps x) : s.Keeps (x.hgatherDone op lid d l0 n).2 :=
  h.hashLines
theorem State.Keeps.hscatterDone {op : Op} {lid l0 n : ℕ} (h : s.Keeps x) : s.Keeps (x.hscatterDone op lid l0 n) := by
  refine State.Keeps.noteW (State.Keeps.foldl (fun y a hy => ?_) h.setScratch)
  split
  · exact hy
  · exact hy.putHash

/-! ### Operations of `Machine/Routes.lean` -/

theorem State.Keeps.modLink {n : ℕ} {f : Link → Link} (h : s.Keeps x) : s.Keeps (x.modLink n f) := h.same rfl rfl rfl
theorem State.Keeps.showLink {a b : ℕ} {up : Bool} (h : s.Keeps x) : s.Keeps (x.showLink a b up) :=
  State.Keeps.ite ((State.Keeps.ite h.modDie h).modDie) (State.Keeps.ite h.modDie h)
theorem State.Keeps.setLink {a b : ℕ} {up : Bool} (h : s.Keeps x) : s.Keeps (x.setLink a b up) := h.same.showLink

/-! ### Operations of `Machine/Interleave.lean` -/

theorem State.Keeps.modRegion {r1 : ℕ} {f : Region → Region} (h : s.Keeps x) : s.Keeps (x.modRegion r1 f) :=
  h.same rfl rfl rfl
theorem State.Keeps.mapBad {r1 : ℕ} (h : s.Keeps x) : s.Keeps (x.mapBad r1) := h.modPkg
theorem State.Keeps.mapStage {b : Bool} {r1 row data : ℕ} (h : s.Keeps x) : s.Keeps (x.mapStage b r1 row data) := by
  unfold State.mapStage
  split
  · split
    · exact h.mapBad
    · exact h.modRegion
  · split
    · exact h.mapBad
    · exact h.modRegion
theorem State.Keeps.mapApply {r1 : ℕ} (h : s.Keeps x) : s.Keeps (x.mapApply r1) := by
  unfold State.mapApply
  split
  · exact h.mapBad
  split
  · exact h.modPkg
  split
  · exact h.modPkg
  · exact h.modRegion
theorem State.Keeps.mapctl {v : ℕ} (h : s.Keeps x) : s.Keeps (x.mapctl v) := by
  unfold State.mapctl
  dsimp only
  split
  · exact h.mapBad
  split
  · exact h
  · exact h.mapStage
  · exact h.mapStage
  · exact h.mapApply
theorem State.Keeps.retireAccept {st : ℕ} (h : s.Keeps x) : s.Keeps (x.retireAccept st) := h.same rfl rfl rfl
theorem State.Keeps.retireWrite {v : ℕ} (h : s.Keeps x) : s.Keeps (x.retireWrite v) := by
  unfold State.retireWrite
  split
  · exact h.retireAccept
  split
  · exact h
  · exact h.modPkg
theorem State.Keeps.modMoving {cell : ℕ} {f : MoveCell → MoveCell} (h : s.Keeps x) : s.Keeps (x.modMoving cell f) :=
  h.same rfl rfl rfl
theorem State.Keeps.powerDown {stack : ℕ} (h : s.Keeps x) : s.Keeps (x.powerDown stack) :=
  ⟨h.gt, fun c => ⟨Memory.wf_clear (h.form c).1, (h.form c).2⟩⟩
theorem State.Keeps.askUnit {ln key : ℕ} (h : s.Keeps x) : s.Keeps (x.askUnit ln key) := by
  unfold State.askUnit
  split
  · exact h
  · exact h.fresh.same

/-! ### Operations of `Machine/Copy.lean` -/

theorem State.Keeps.modCopy {n : ℕ} {f : Copy → Copy} (h : s.Keeps x) : s.Keeps (x.modCopy n f) := h.same rfl rfl rfl
theorem State.Keeps.copyCount {c : Copy} {n err : ℕ} (h : s.Keeps x) : s.Keeps (x.copyCount c n err) := by
  unfold State.copyCount
  split
  · exact h
  · exact h.modBc
theorem State.Keeps.copyCheck {n : ℕ} (h : s.Keeps x) : s.Keeps (x.copyCheck n) := by
  unfold State.copyCheck
  split
  · exact h
  split
  · exact h
  split
  · exact h.same.modAwaits.noteW.handedDone
  split
  · exact h.same.modAwaits.noteW.handedDone.nodeFail
  · exact State.Keeps.ite h.same.modAwaits.noteW.handedDone h.same.modAwaits.noteW.handedDone.nodeDone
theorem State.Keeps.copyStop {n err : ℕ} (h : s.Keeps x) : s.Keeps (x.copyStop n err) := by
  unfold State.copyStop
  split
  · exact h
  · exact h.copyCount.modCopy.copyCheck
theorem State.Keeps.copyBad {n : ℕ} {c : Copy} (h : s.Keeps x) : s.Keeps (x.copyBad n c) := by
  unfold State.copyBad
  split
  · exact h.copyStop
  · exact ((State.Keeps.ite h.copyCount h.copyCount.modBc).modCopy).copyCheck
theorem State.Keeps.copyFault {n : ℕ} {c : Copy} {f : CopyFor} {st addr : ℕ} {write : Bool} (h : s.Keeps x) :
    s.Keeps (x.copyFault n c f st addr write) := by
  unfold State.copyFault
  split
  · exact h
  split
  · exact h.fresh.setFaults.modCopy
  split
  · exact h.enginePhys
  · exact h.copyStop
theorem State.Keeps.copyResolve {n : ℕ} {deliver : Bool} (h : s.Keeps x) : s.Keeps (x.copyResolve n deliver) := by
  unfold State.copyResolve
  split
  · exact h.modCopy.copyStop
  · exact h.modCopy
theorem State.Keeps.copyTrans {f : CopyFor} {a e : ℕ} {canon write : Bool} (h : s.Keeps x) :
    s.Keeps (x.copyTrans f a e canon write).2 := by
  unfold State.copyTrans
  split
  · exact h
  split
  · exact State.Keeps.of_eq ‹_› h.translate
  · exact State.Keeps.of_eq ‹_› h.translate
  · exact h
  · exact State.Keeps.of_eq ‹_› h.translate
  repeat' split
  all_goals exact State.Keeps.of_eq ‹_› h.translate
theorem State.Keeps.copyRead {f : CopyFor} {r1 : CopyReq} {loc : Memory} {k : ℕ} (h : s.Keeps x) :
    s.Keeps (x.copyRead f r1 loc k).2 := by
  unfold State.copyRead
  split
  · split
    · exact h
    · exact h.drawFree
  · split
    · exact h
    · exact h
    dsimp only
    split
    · exact State.Keeps.of_eq ‹_› h.copyTrans
    split
    · exact (State.Keeps.of_eq ‹_› h.copyTrans).leasedLine
    split
    · exact State.Keeps.of_eq ‹_› h.copyTrans
    split
    · exact h
    split
    · split
      · exact State.Keeps.of_eq ‹_› h.copyTrans
      split
      · exact h
      split
      · exact (State.Keeps.of_eq ‹_› h.copyTrans).bring ‹_›
      · exact ((State.Keeps.of_eq ‹_› h.copyTrans).bring ‹_›).leasedLine
    · split <;> exact (State.Keeps.of_eq ‹_› h.copyTrans).taken
theorem State.Keeps.copyWrite {n : ℕ} {c : Copy} {f : CopyFor} {el : ℕ} {b : List Byte} (h : s.Keeps x) :
    s.Keeps (x.copyWrite n c f el b) := by
  unfold State.copyWrite
  dsimp only
  split
  · exact h.modTeam.copyCount.modCopy.copyCheck
  · exact h.setScratch.modCopy
  split
  · exact h
  · exact (State.Keeps.of_eq ‹_› h.copyTrans).copyStop
  · exact (State.Keeps.of_eq ‹_› h.copyTrans).copyFault
  · exact State.Keeps.of_eq ‹_› h.copyTrans
  split
  · exact (State.Keeps.of_eq ‹_› h.copyTrans).copyFault
  split
  · exact h
  split
  · exact ((State.Keeps.of_eq ‹_› h.copyTrans).taken).copyFault
  · exact (((State.Keeps.of_eq ‹_› h.copyTrans).taken).devStoreFor).modCopy

/-! ### Operations of `Machine/Ray.lean` -/

theorem State.Keeps.rayWrites {op : Op} {got : ℕ → Option (List Byte)} (h : s.Keeps x) :
    s.Keeps (x.rayWrites op got).2 := by
  unfold State.rayWrites
  split
  · exact State.Keeps.iteSnd h.drawFree h
  · exact State.Keeps.iteSnd h.drawFree h
  · exact h

/-! ### Operations of `Machine/Texture.lean` -/

theorem State.Keeps.readRecs {core ctx : ℕ} {l : List (Piece × Trans)} (h : s.Keeps x) :
    s.Keeps (x.readRecs core ctx l).2 := by
  induction l generalizing x with
  | nil => exact h
  | cons a r ih =>
    refine ih ?_
    split
    · exact h
    split
    · exact h
    split
    · split
      · exact h.readLines ‹_›
      · exact h
    · exact h
theorem tsampBody_keeps {c sr x1 l : ℕ} {md : TMode} {e : GI} (h : s.Keeps x) :
    s.Keeps (tsampBody c sr x1 l md e x).state := by
  unfold tsampBody
  dsimp only
  split
  · exact h.planCheck
  · exact h.planCheck
  · exact h.planCheck
  · exact h.planCheck.giHeldBlock
  split
  · exact h.planCheck
  split
  · exact h.planCheck.giHeldBlock
  split
  · exact h.planCheck.giHeldBlock
  split
  · exact h.planCheck.readRecs
  split
  · exact h.planCheck.readRecs
  split
  · exact h.planCheck.readRecs.planCheck
  · exact h.planCheck.readRecs.planCheck
  · exact h.planCheck.readRecs.planCheck
  · exact h.planCheck.readRecs.planCheck.giHeldBlock
  · exact State.Keeps.foldl (fun _ _ hy => hy.sendPieces) h.planCheck.readRecs.planCheck.giStartOp
theorem State.Keeps.tsampWrites {op : Op} {d : ℕ} {md : TMode} {got : ℕ → Option (List (List Byte))} (h : s.Keeps x) :
    s.Keeps (x.tsampWrites op d md got).2 :=
  h.drawFree.modGroup

/-! ### Operations of `Machine/Raster.lean` -/

theorem State.Keeps.drawRead {die : ℕ} {d : Draw} {va n : ℕ} (h : s.Keeps x) : s.Keeps (x.drawRead die d va n).2 :=
  h.readVia
theorem State.Keeps.checkDraw {die : ℕ} {x1 : Bool × Draw} (h : s.Keeps x) : s.Keeps (x.checkDraw die x1).2 := by
  unfold State.checkDraw
  split
  · exact h
  dsimp only
  split
  · exact State.Keeps.of_eq ‹_› h.drawRead
  split
  · exact State.Keeps.of_eq ‹_› h.drawRead
  split
  · exact State.Keeps.of_eq ‹_› ((State.Keeps.of_eq ‹_› h.drawRead).drawRead)
  split
  · exact State.Keeps.of_eq ‹_› ((State.Keeps.of_eq ‹_› h.drawRead).drawRead)
  split <;> exact State.Keeps.of_eq ‹_› ((State.Keeps.of_eq ‹_› ((State.Keeps.of_eq ‹_› h.drawRead).drawRead)).drawRead)
theorem State.Keeps.holdDraw {ctx status addr holder : ℕ} {write op : Bool} (h : s.Keeps x) :
    s.Keeps (x.holdDraw ctx status addr holder write op) := by
  unfold State.holdDraw
  split
  · exact h
  · exact h.fresh.setFaults
theorem State.Keeps.modRaster {die r1 : ℕ} {f : Raster → Raster} (h : s.Keeps x) : s.Keeps (x.modRaster die r1 f) :=
  h.modDie
theorem State.Keeps.queueDraw {die n : ℕ} {any : Bool} {d : Draw} {t : State} (q : x.queueDraw die n any d = some t)
    (h : s.Keeps x) :
    s.Keeps t := by
  unfold State.queueDraw at q
  dsimp only at q
  split at q
  · cases q
  · cases q
    exact h.modRaster
theorem drawBody_keeps {a : ℕ} {e : GI} (h : s.Keeps x) : s.Keeps (drawBody a e x).state := by
  unfold drawBody
  split
  · exact h
  split
  · dsimp only
    split <;> exact h
  · dsimp only
    split
    · exact h
    split
    · exact h.planCheck
    · split
      · exact h.planCheck
      · exact h.planCheck.giStartOp
    · exact h.planCheck
    · exact h.planCheck.giHeldBlock
    · split
      · exact h.planCheck.giStartOp
      split
      · exact (State.Keeps.of_eq ‹_› h.planCheck.readVia).giStartOp
      · exact h.planCheck.giStartOp
theorem State.Keeps.drawQueueFault {y : State} {op ctx st a : ℕ} {phys bad : State → State}
    (hp : ∀ z, s.Keeps z → s.Keeps (phys z))
    (hb : ∀ z, s.Keeps z → s.Keeps (bad z)) (h : s.Keeps x) (hy : s.Keeps y) :
    s.Keeps (x.drawQueueFault y op ctx st a phys bad) :=
  State.Keeps.ite h (State.Keeps.ite hy.holdDraw (State.Keeps.ite (hp _ hy) (hb _ hy)))
theorem State.Keeps.modRunning {die r1 : ℕ} {f : Running → Running} (h : s.Keeps x) : s.Keeps (x.modRunning die r1 f) :=
  h.modRaster
theorem State.Keeps.abandonRun {die r1 : ℕ} {d : Draw} (h : s.Keeps x) : s.Keeps (x.abandonRun die r1 d) := h.modRunning
theorem State.Keeps.abandonQueued {die r1 : ℕ} (h : s.Keeps x) : s.Keeps (x.abandonQueued die r1) := by
  unfold State.abandonQueued
  split
  · exact h.modRaster
  · exact h.abandonRun
  · exact h
theorem State.Keeps.drawPhys {d : Draw} (h : s.Keeps x) : s.Keeps (x.drawPhys d) := h.logRecord.endContext
theorem State.Keeps.drawFault {die r1 : ℕ} {d : Draw} {st addr : ℕ} {write : Bool} (h : s.Keeps x) :
    s.Keeps (x.drawFault die r1 d st addr write) := by
  unfold State.drawFault
  split
  · exact h
  split
  · exact h.holdDraw
  split
  · exact h.drawPhys
  · exact h.abandonRun
theorem State.Keeps.readTriangle {die : ℕ} {d : Draw} {inst prim : ℕ} (h : s.Keeps x) :
    s.Keeps (x.readTriangle die d inst prim).2 := by
  unfold State.readTriangle
  extract_lets isz index step
  have hi (y : State) (k : ℕ) (hy : s.Keeps y) : s.Keeps (index y k).2 := by
    unfold index
    split
    · exact hy
    · split <;> exact State.Keeps.of_eq ‹_› hy.drawRead
  refine State.Keeps.foldlSnd (fun y k hy => ?_) h
  unfold step
  split
  · exact hy
  · exact hy
  split
  · exact State.Keeps.of_eq ‹_› (hi _ _ hy)
  · have h1 := State.Keeps.of_eq ‹_› (hi _ _ hy)
    split
    · exact h1
    · split <;> exact State.Keeps.of_eq ‹_› h1.drawRead
theorem State.Keeps.drawGone {d : Draw} {w : ℕ} (h : s.Keeps x) : s.Keeps (x.drawGone d w) :=
  h.modAwaits.noteW.handedDone
theorem ordentBody_keeps {e : GI} (h : s.Keeps x) : s.Keeps (ordentBody e x).state := by
  unfold ordentBody
  split
  · exact h
  split
  · exact h
  · exact h.giWait

/-! ### Operations of `Machine/Regroup.lean` -/

theorem regroupBody_keeps {e : GI} (h : s.Keeps x) : s.Keeps (regroupBody e x).state := by
  unfold regroupBody
  split
  · split
    · split
      · exact h.dropPaths
      · exact h
    · exact h
  · split
    · exact h
    · exact h.giWait
theorem State.Keeps.privWords {o : OldLane} (h : s.Keeps x) : s.Keeps (x.privWords o).2 := by
  refine State.Keeps.foldlSnd (fun y w hy => ?_) h
  split
  · exact hy
  · dsimp only
    split
    · exact hy.devRead
    · exact State.Keeps.iteSnd hy.devRead hy.devRead
theorem State.Keeps.dealReads {l : List (Member × ℕ × OldLane)} (h : s.Keeps x) : s.Keeps (x.dealReads l).2 := by
  refine State.Keeps.foldlSnd (fun y q hy => ?_) h
  split
  · exact hy
  · dsimp only
    split <;> exact hy.privWords
theorem State.Keeps.dealWrites {l : DealBytes} (h : s.Keeps x) : s.Keeps (x.dealWrites l).2 := by
  refine State.Keeps.foldlSnd (fun y q hy => State.Keeps.foldlSnd (fun z b hz => ?_) hy) h
  split
  · exact hz
  · dsimp only
    split
    · exact hz.devWrite
    · exact State.Keeps.iteSnd hz.devWrite hz.devWrite
theorem State.Keeps.deal {ms : List Member} (h : s.Keeps x) : s.Keeps (x.deal ms) := by
  unfold State.deal
  extract_lets lanes moved order got put
  have hg : s.Keeps got.2 := h.dealReads
  have hp : s.Keeps put.2 := by
    unfold put
    split
    · exact hg.dealWrites
    · exact hg
  split
  · exact State.Keeps.foldl (fun _ _ hy => hy.modGroup.modCtl) hp
  · exact State.Keeps.deviceFault (fun _ hz => hz) h ‹_›
  · exact h

/-! ### Operations of `Machine/Keys.lean` -/

theorem State.Keeps.keyResult {slot res : ℕ} (h : s.Keeps x) : s.Keeps (x.keyResult slot res) := h.same rfl rfl rfl
theorem State.Keeps.keyGenerate {k : ℕ} (h : s.Keeps x) : s.Keeps (x.keyGenerate k) := by
  unfold State.keyGenerate
  split
  · exact h.keyResult.same
  · exact h.keyResult
  · exact h.keyResult
theorem State.Keeps.dropKey {k : ℕ} (h : s.Keeps x) : s.Keeps (x.dropKey k) := h.same rfl rfl rfl
theorem State.Keeps.keyDestroy {k : ℕ} (h : s.Keeps x) : s.Keeps (x.keyDestroy k) := by
  unfold State.keyDestroy
  split
  · exact h.keyResult
  · split
    · exact h.keyResult
    · exact h.keyResult.same.dropKey
  · exact h.keyResult
theorem State.Keeps.keyCommand {v : ℕ} (h : s.Keeps x) : s.Keeps (x.keyCommand v) := by
  unfold State.keyCommand
  split
  · exact h.same
  split
  · exact h.keyResult
  split
  · exact h
  · exact h.keyGenerate
  · exact h.keyDestroy
  · exact h.keyResult
theorem State.Keeps.keyOp {slot op : ℕ} (h : s.Keeps x) : s.Keeps (x.keyOp slot op) := by
  unfold State.keyOp
  split
  · exact h.keyCommand
  · exact h

/-! ### Operations of `Machine/System.lean` -/

theorem State.Keeps.writePolicy {v : ℕ} (h : s.Keeps x) : s.Keeps (x.writePolicy v) :=
  State.Keeps.foldl (fun _ _ hy => State.Keeps.ite hy.xEnable (State.Keeps.ite hy.xDisable hy)) (State.Keeps.foldl (fun _ _ hy => State.Keeps.ite hy.xRefresh hy) h.modBarchan)
theorem State.Keeps.writeMaperr {v : ℕ} (h : s.Keeps x) : s.Keeps (x.writeMaperr v) := h.modPkg
theorem State.Keeps.writeLossx {ctx v : ℕ} (h : s.Keeps x) : s.Keeps (x.writeLossx ctx v) := State.Keeps.ite h.modRun h
theorem State.Keeps.csrWrite {r : Csr} {gid ctx tid v : ℕ} (h : s.Keeps x) : s.Keeps (x.csrWrite r gid ctx tid v) := by
  cases r <;> unfold State.csrWrite
  case acclive => exact h.modTeam
  case tresume | tscratch => exact h.modGroup
  case lossx => exact h.writeLossx
  case preemptTimeout | ordTimeout => exact State.Keeps.ite h.modRun h
  case captarget => exact h.modPkg
  case retirestk => exact h.retireWrite
  case xtabbase | xwindow => exact State.Keeps.ite h.modBarchan h
  case xpolicy => exact h.writePolicy
  case hotThresh | idleThresh | coldThresh => exact h.modBarchan
  case mapctl => exact h.mapctl
  case maperr => exact h.writeMaperr
  case keycmd => exact h.keyCommand
  case leaseRw | leaseRo => exact State.Keeps.ite h.modPkg h
  case tcause | targ | taddr | tlanes | capacity | retirestat | migphase | retain0 | retain1 | retain2 | retain3 | retovfl | xver | keystat
    | svclevel => exact h
theorem State.Keeps.giBadResume {e : GI} (h : s.Keeps x) : s.Keeps (e.badResume x) := h.modCtl.enterTrap
theorem State.Keeps.giHret {e : GI} (h : s.Keeps x) : s.Keeps (e.hret x).state := by
  unfold GI.hret
  split
  · exact h
  dsimp only
  split
  · exact h
  · exact h
  · exact h.giFetchTrap
  · exact h
  split
  · exact h.giBadResume
  · exact h.modGroup
theorem pyieldBody_keeps {e : GI} (h : s.Keeps x) : s.Keeps (pyieldBody e x).state := by
  unfold pyieldBody
  split
  · exact h.modCtl
  · exact h

/-! ### Operations of `Machine/Held.lean` -/

theorem heldBody_keeps {i : Instr} {e : GI} (h : s.Keeps x) : s.Keeps (heldBody i e x).state := by
  unfold heldBody
  split
  · exact fenceBody_keeps h
  · exact xfenceBody_keeps h
  · exact barBody_keeps h
  · exact barwaitBody_keeps h
  · exact bcwaitBody_keeps h
  · exact ordentBody_keeps h
  · exact regroupBody_keeps h
  · exact maskGroup_keeps h
  · exact maskGroup_keeps h
  · exact maskGroup_keeps h
  · exact maskGroup_keeps h
  · exact maskGroup_keeps h
  · exact maskGroup_keeps h
  · exact maskGroup_keeps h
  · exact exitBody_keeps h
  · exact h

/-! ### Operations of `Machine/Preempt.lean` -/

theorem State.Keeps.preGroup {gid : ℕ} (h : s.Keeps x) : s.Keeps (x.preGroup gid) := by
  unfold State.preGroup
  split
  · exact h
  split
  · exact h.modCtl
  · exact h
theorem State.Keeps.requestTeam {tid : ℕ} (h : s.Keeps x) : s.Keeps (x.requestTeam tid) := by
  unfold State.requestTeam
  split
  · exact h
  split
  · exact h
  split
  · exact h
  · exact State.Keeps.foldl (fun _ _ hy => hy.preGroup) h.modTeam
theorem State.Keeps.devWriteAll {die ctx va : ℕ} {data : List Byte} (h : s.Keeps x) :
    s.Keeps (x.devWriteAll die ctx va data).2 :=
  State.Keeps.foldlSnd (fun _ _ hy => hy.devWrite) h
theorem State.Keeps.savesTry {die c : ℕ} (h : s.Keeps x) : s.Keeps (x.savesTry die c).2 := by
  unfold State.savesTry
  split
  · exact h
  · exact State.Keeps.foldlSnd (fun _ _ hy => State.Keeps.iteSnd hy hy.devWriteAll.same) h.devWriteAll
theorem State.Keeps.writeSaves {die c : ℕ} (h : s.Keeps x) : s.Keeps (x.writeSaves die c) := by
  unfold State.writeSaves
  split
  · exact State.Keeps.of_eq ‹_› h.savesTry
  split
  · exact (State.Keeps.of_eq ‹_› h.savesTry).enginePhys
  split
  · exact (State.Keeps.of_eq ‹_› h.savesTry).oweAdd
  · exact State.Keeps.of_eq ‹_› h.savesTry
theorem State.Keeps.savesAgain {o c die : ℕ} (h : s.Keeps x) : s.Keeps (x.savesAgain o c die) := by
  unfold State.savesAgain
  split
  · exact h
  split
  · exact (State.Keeps.of_eq ‹_› h.savesTry).delOp
  · have h1 := State.Keeps.of_eq ‹_› h.savesTry
    exact State.Keeps.ite h1.enginePhys (State.Keeps.deviceFault (fun _ hz => hz.delOp) h h1)
theorem State.Keeps.reloaded {x1 : Saved} {l : Launch} (h : s.Keeps x) : s.Keeps (x.reloaded x1 l).2 := by
  unfold State.reloaded
  split
  · exact h
  split
  · exact h
  split
  · exact h
  split <;> exact State.Keeps.of_eq ‹_› h.devRead
theorem State.Keeps.stowSpans {lid : ℕ} {l : Launch} {ids : List ℕ} (h : s.Keeps x) : s.Keeps (x.stowSpans lid l ids) :=
  h.same.modLaunch
theorem State.Keeps.saveSpan {sid : ℕ} (h : s.Keeps x) : s.Keeps (x.saveSpan sid) := by
  unfold State.saveSpan
  split
  · exact h
  split
  · exact h
  · exact h.stowSpans.writeSaves
theorem State.Keeps.requestLaunch {lid : ℕ} {p : ℕ → Bool} (h : s.Keeps x) : s.Keeps (x.requestLaunch lid p) :=
  State.Keeps.foldl (fun _ _ hy => hy.requestTeam) (State.Keeps.foldl (fun _ _ hy => hy.saveSpan) h)
theorem State.Keeps.forceOut {gid : ℕ} (h : s.Keeps x) : s.Keeps (x.forceOut gid) := by
  unfold State.forceOut
  split
  · exact h
  split
  · exact h
  · exact h.giEventRecord.leaveSection
theorem State.Keeps.forceStops {tid : ℕ} (h : s.Keeps x) : s.Keeps (x.forceStops tid) := by
  refine State.Keeps.foldl (fun y g hy => ?_) h
  split
  · exact hy
  · extract_lets b c
    have hb : s.Keeps b := hy.forceOut
    have hc : s.Keeps c := by
      unfold c
      split
      · exact State.Keeps.ite hb hb.dropOpReqs
      · exact hb
    exact hc.modCtl
theorem State.Keeps.settleWait {gid : ℕ} (h : s.Keeps x) : s.Keeps (x.settleWait gid) := by
  unfold State.settleWait
  split
  · exact h
  split
  · exact h
  split
  · exact h
  · refine State.Keeps.modCtl ?_
    split
    · exact h.giFinish h
    split
    · split
      · rename_i i _ _ e _ _ _ _ _ s2 h2
        have hb : s.Keeps (heldBody i e x).state := heldBody_keeps h
        rw [h2] at hb
        exact h.giFinish hb
      · exact h
    · exact h
theorem State.Keeps.saveTeam {tid : ℕ} (h : s.Keeps x) : s.Keeps (x.saveTeam tid) := by
  unfold State.saveTeam
  dsimp only
  split
  · exact State.Keeps.foldl (fun _ _ hy => hy.settleWait) h
  split
  · exact State.Keeps.foldl (fun _ _ hy => hy.settleWait) h
  · exact ((((State.Keeps.foldl (fun _ _ hy => hy.settleWait) h).dropTeam).fresh).same).writeSaves
theorem State.Keeps.placeSaved {l : Launch} {x1 : Saved} {t1 : Team} {core : ℕ} (h : s.Keeps x) :
    s.Keeps (x.placeSaved l x1 t1 core) := by
  unfold State.placeSaved
  split
  · exact h
  · exact (State.Keeps.foldl (fun _ _ hy => hy.fresh.same) h.fresh.same.takeGranules).teamCheck
theorem State.Keeps.reloadedAll {l : Launch} {xs : List (ℕ × Saved)} (h : s.Keeps x) :
    s.Keeps (x.reloadedAll l xs).2 := by
  refine State.Keeps.foldlSnd (fun y a hy => ?_) h
  split
  · exact hy
  · split <;> exact State.Keeps.of_eq ‹_› hy.reloaded
theorem State.Keeps.resumeStop {l : Launch} {r : NoResume} (h : s.Keeps x) : s.Keeps (x.resumeStop l r) :=
  State.Keeps.ite h.enginePhys (State.Keeps.deviceFault (fun _ hz => hz) h h)
theorem State.Keeps.resumeOne {l : Launch} {id core : ℕ} {t : State} (q : x.resumeOne l id core = some (.ok t))
    (h : s.Keeps x) :
    s.Keeps t := by
  unfold State.resumeOne at q
  split at q
  · cases q
  split at q
  · cases q
  split at q
  · split at q
    · split at q
      · cases q
        exact State.Keeps.same (State.Keeps.placeSaved (State.Keeps.of_eq ‹_› h.reloaded))
      · cases q
    · cases q
  dsimp only at q
  split at q
  · cases q
  split at q
  · cases q
  · have h1 := State.Keeps.of_eq ‹_› h.reloadedAll
    split at q
    · cases q
    · rename_i s3 hs3
      have h3 : s.Keeps s3 := by
        split at hs3
        · exact State.Keeps.holdTeams hs3 h1.same
        · cases hs3
          exact h1.same
      cases q
      refine State.Keeps.settle (State.Keeps.foldl (fun y z hy => ?_) h3)
      split
      · exact hy.same
      · exact hy
theorem State.Keeps.resumeRest {lid : ℕ} {l : Launch} {n : ℕ} {t : State} (q : x.resumeRest lid l n = some (.ok t))
    (h : s.Keeps x) :
    s.Keeps t := by
  induction n generalizing x with
  | zero =>
    cases q
    exact h
  | succ n ih =>
    unfold State.resumeRest at q
    split at q
    · cases q
      exact h
    split at q
    · cases q
    split at q
    · exact ih q (h.resumeOne ‹_›)
    · exact absurd q (by simp_all)
theorem State.Keeps.resumeAll {lid : ℕ} {l : Launch} {first : Option (ℕ × ℕ)} (h : s.Keeps x) :
    s.Keeps (x.resumeAll lid l first) := by
  unfold State.resumeAll
  extract_lets mine r
  have hr (t : State) (ht : r = some (.ok t)) : s.Keeps t := by
    unfold r at ht
    split at ht
    · split at ht
      · exact (h.resumeOne ‹_›).resumeRest ht
      · exact h.resumeOne ht
    · exact h.resumeRest ht
  clear_value r
  split
  · exact h
  split
  · exact (hr _ rfl).modLaunch.writeSaves
  · exact h.resumeStop
  · exact h
theorem State.Keeps.frameTick {c : ℕ} (h : s.Keeps x) : s.Keeps (x.frameTick c) := by
  unfold State.frameTick
  split
  · exact h
  · exact State.Keeps.foldl (fun _ _ hy => State.Keeps.ite hy hy.resumeAll) h.modRun

/-! ### Operations of `Machine/Launch.lean` -/

theorem launchRead_keeps {r : Except (ℕ × ℕ) (List Byte) × State} {k : List Byte → State → DescRes × State}
    (hk : ∀ b y, s.Keeps y → s.Keeps (k b y).2) (h : s.Keeps r.2) : s.Keeps (launchRead r k).2 := by
  obtain ⟨e | b, y⟩ := r
  · exact h
  · exact hk b y h
theorem State.Keeps.readDesc {die ctx addr : ℕ} (h : s.Keeps x) : s.Keeps (x.readDesc die ctx addr).2 := by
  refine launchRead_keeps (fun d y hy => ?_) h.devRead
  split
  · exact hy
  split
  · exact hy
  refine launchRead_keeps (fun o z hz => ?_) hy.devRead
  split
  · exact hz
  split
  · exact hz
  · exact launchRead_keeps (fun c w hw => hw) hz.devRead
theorem State.Keeps.answerSub {n : ℕ} {x1 : Submit} {st : ℕ} (h : s.Keeps x) : s.Keeps (x.answerSub n x1 st) := by
  unfold State.answerSub
  split
  · exact h.same.modOp
  split
  · split
    · exact h.same
    · exact h.same.nodeFail
  · exact h.same
theorem State.Keeps.putSpan {l : Launch} {lid core tx0 n ty : ℕ} (h : s.Keeps x) :
    s.Keeps (x.putSpan l lid core tx0 n ty) := by
  unfold State.putSpan
  split
  · exact h.fresh.same.expandAll
  · exact h.fresh.same
theorem State.Keeps.putPiece {lid : ℕ} {l : Launch} {d core n : ℕ} (h : s.Keeps x) :
    s.Keeps (x.putPiece lid l d core n) := by
  unfold State.putPiece
  extract_lets t0 s0 s1
  have h0 : s.Keeps s0 := by
    unfold s0
    split
    · cases q : x.holdTeams lid l (l.pieceTeams core t0 n) with
      | none => exact h
      | some y => exact h.holdTeams q
    · exact h
  have h1 : s.Keeps s1 := State.Keeps.ite (State.Keeps.foldl (fun _ _ hy => hy.putSpan) h0) h0.putSpan
  exact h1.modLaunch
theorem State.Keeps.carve {lid d : ℕ} (h : s.Keeps x) : s.Keeps (x.carve lid d) := by
  unfold State.carve
  extract_lets _ s1
  have h1 : s.Keeps s1 := h.same
  refine State.Keeps.foldl (fun y w hy => ?_) h1
  dsimp only
  split
  · split
    · exact hy.l2Evict
    · exact hy
  · exact hy
theorem State.Keeps.withScratch {lid : ℕ} {l : Launch} {d : ℕ} {t : State} (q : x.withScratch lid l d = some t)
    (h : s.Keeps x) :
    s.Keeps t := by
  unfold State.withScratch at q
  split at q
  · cases q
    exact h
  split at q
  · cases q
  · cases q
    exact h.carve
theorem State.Keeps.placeRest {lid d k : ℕ} {t : State} (q : x.placeRest lid d k = some t) (h : s.Keeps x) :
    s.Keeps t := by
  induction k generalizing x with
  | zero =>
    cases q
    exact h
  | succ k ih =>
    unfold State.placeRest at q
    split at q
    · cases q
      exact h
    split at q
    · cases q
      exact h
    split at q
    · cases q
    · exact ih q h.putPiece
/-- A loop over optional states in which each turn keeps what the one before it left. -/
theorem State.Keeps.foldlOption {α : Type} {l : List α} {f : Option State → α → Option State}
    (hn : ∀ a, f none a = none) (hf : ∀ y a t, f (some y) a = some t → s.Keeps y → s.Keeps t) {t : State}
    (q : l.foldl f (some x) = some t) (h : s.Keeps x) : s.Keeps t := by
  induction l generalizing x with
  | nil =>
    cases q
    exact h
  | cons a r ih =>
    rw [List.foldl_cons] at q
    cases hy : f (some x) a with
    | none =>
      rw [hy] at q
      have : ∀ m : List α, m.foldl f none = none := fun m => by
        induction m with
        | nil => rfl
        | cons b m ihm => rw [List.foldl_cons, hn, ihm]
      rw [this] at q
      cases q
    | some y =>
      rw [hy] at q
      exact ih q (hf x a y hy h)
theorem State.Keeps.placeWhole {lid : ℕ} {l : Launch} {t : State} (q : x.placeWhole lid l = some t) (h : s.Keeps x) :
    s.Keeps t := by
  refine State.Keeps.foldlOption (fun a => rfl) (fun y d t hq hy => ?_) q h
  dsimp only at hq
  split at hq
  · cases hq
    exact hy
  split at hq
  · cases hq
  split at hq
  · cases hq
  · exact (hy.withScratch ‹_›).placeRest hq
theorem State.Keeps.without {v : Victim} (h : s.Keeps x) : s.Keeps (x.without v) := by
  unfold State.without
  split
  · split
    · exact h.dropTeam.same
    · exact h
  · split
    · split
      · exact h.stowSpans
      · exact h
    · exact h
theorem State.Keeps.preemptFor {lid : ℕ} {l : Launch} {d : ℕ} (h : s.Keeps x) : s.Keeps (x.preemptFor lid l d) := by
  refine State.Keeps.foldl (fun y v hy => ?_) h
  split
  · exact hy.requestTeam
  · exact hy.saveSpan

/-! ### Operations of `Machine/Graph.lean` -/

theorem State.Keeps.enable {c : ℕ} (h : s.Keeps x) : s.Keeps (x.enable c).2 := by
  unfold State.enable
  split
  · exact h
  · extract_lets b k n _ _ t
    split
    · have ht : s.Keeps t := h.same
      exact State.Keeps.ite ht ht.descPut
    · exact State.Keeps.ite h.endContext h
theorem State.Keeps.ctxCommand {v : ℕ} (h : s.Keeps x) : s.Keeps (x.ctxCommand v) := by
  unfold State.ctxCommand
  repeat' split
  all_goals exact h.modPkg
theorem State.Keeps.ctxEvent {op c : ℕ} {f : State → Option ℕ × State} (hf : ∀ y, s.Keeps y → s.Keeps (f y).2)
    (h : s.Keeps x) :
    s.Keeps (x.ctxEvent op c f) := by
  have h1 := State.Keeps.ite (c := x.pkg.cmdBusy && x.pkg.cmdOp == op && x.pkg.cmdCtx == c % 16384 && x.pkg.cmdOut.isNone) h
    (h.ctxCommand (v := c % 16384 + 65536 * op))
  exact State.Keeps.ite (hf _ h1).modPkg h1
theorem State.Keeps.graphRecord {c status handle node addr : ℕ} (h : s.Keeps x) :
    s.Keeps (x.graphRecord c status handle node addr) :=
  h.logRecord
theorem State.Keeps.deviceDeliver {f : FaultRec} (h : s.Keeps x) : s.Keeps (x.deviceDeliver f) := by
  unfold State.deviceDeliver
  split
  · split
    · exact h.modRun.graphRecord
    · exact h
  · split
    · exact h.modNode
    split
    · exact h.answerSub
    · exact h.delOp
theorem State.Keeps.deliverFault {f : FaultRec} (h : s.Keeps x) : s.Keeps (x.deliverFault f) := by
  unfold State.deliverFault
  split
  · exact h
  split
  · exact h.giEventRecord.endContext
  · exact h.owe
theorem State.Keeps.resolveFault {n : ℕ} {f : FaultRec} {deliver : Bool} (h : s.Keeps x) :
    s.Keeps (x.resolveFault n f deliver) := by
  unfold State.resolveFault
  split
  · split
    · exact h.setFaults.modCtl.deliverFault
    · exact h.setFaults.modCtl
  · split
    · dsimp only
      split
      · exact h.setFaults
      · exact h.setFaults.retireOp.owe
    · dsimp only
      split
      · exact h.setFaults
      · exact h.setFaults.modOp
  · exact h.setFaults.copyResolve
  · split
    · exact h.setFaults
    split
    · exact h.setFaults.nodeFail
    · exact h.setFaults.modOp
  · split
    · exact h.setFaults.abandonQueued
    · exact h.setFaults
  · split
    · exact h.setFaults.deviceDeliver
    · exact h.setFaults
  · exact h
theorem State.Keeps.kickDrop {c : ℕ} (h : s.Keeps x) : s.Keeps (x.kickDrop c) := by
  unfold State.kickDrop
  split
  · exact h.modRun
  · exact h.modCtx.descPut
theorem State.Keeps.kicked {c : ℕ} {f : State → State} (hf : ∀ y, s.Keeps y → s.Keeps (f y)) (h : s.Keeps x) :
    s.Keeps (x.kicked c f) := State.Keeps.ite h.kickDrop (hf x h)
theorem State.Keeps.kickReplay {c handle arg : ℕ} (h : s.Keeps x) : s.Keeps (x.kickReplay c handle arg) :=
  State.Keeps.kicked (fun _ hy => State.Keeps.ite hy.kickDrop hy.modRun) h
theorem State.Keeps.kickResolve {c : ℕ} {deliver : Bool} {q : ℕ} (h : s.Keeps x) :
    s.Keeps (x.kickResolve c deliver q) :=
  State.Keeps.kicked (fun _ hy => State.Keeps.foldl (fun _ _ hz => hz.resolveFault) hy) h
theorem State.Keeps.kickTick {c : ℕ} (h : s.Keeps x) :
    s.Keeps (x.kickTick c) := State.Keeps.kicked (fun _ hy => hy.frameTick) h
theorem State.Keeps.kickSuspend {c : ℕ} (h : s.Keeps x) : s.Keeps (x.kickSuspend c) :=
  State.Keeps.kicked (fun _ hy => State.Keeps.foldl (fun _ _ hz => hz.requestLaunch) hy.modRun) h
theorem State.Keeps.kickResume {c : ℕ} (h : s.Keeps x) :
    s.Keeps (x.kickResume c) := State.Keeps.kicked (fun _ hy => hy.modRun) h
theorem State.Keeps.kickWrite {c v : ℕ} (h : s.Keeps x) : s.Keeps (x.kickWrite c v) := by
  unfold State.kickWrite
  split
  · exact h.kickDrop
  split
  · exact h.kickReplay
  · exact h.kickResolve
  · exact h.kickTick
  · exact h.kickSuspend
  · exact h.kickResume
theorem State.Keeps.patchWrite {c va : ℕ} {b : List Byte} (h : s.Keeps x) : s.Keeps (x.patchWrite c va b).2 := by
  unfold State.patchWrite
  dsimp only
  split
  · exact State.Keeps.of_eq ‹_› h.devWrite
  split
  · exact State.Keeps.of_eq ‹_› h.devWrite
  split <;> exact State.Keeps.of_eq ‹_› ((State.Keeps.of_eq ‹_› h.devWrite).devWrite)
theorem State.Keeps.acquireAll (h : s.Keeps x) : s.Keeps (x.acquireAll) := h.same rfl rfl rfl
theorem State.Keeps.runNode {c n at_ : ℕ} (h : s.Keeps x) : s.Keeps (x.runNode c n at_) := h.modNode
theorem State.Keeps.submitNode {c n kind : ℕ} {bg : Bool} (h : s.Keeps x) : s.Keeps (x.submitNode c n kind bg) := by
  unfold State.submitNode
  split
  · exact h
  · exact h.runNode.fresh.same
theorem State.Keeps.nodeDrawFault {y : State} {ctx node st a addr : ℕ} (h : s.Keeps x) (hy : s.Keeps y) :
    s.Keeps (x.nodeDrawFault y ctx node st a addr) :=
  State.Keeps.drawQueueFault (fun _ hz => hz.enginePhys) (fun _ hz => hz.nodeFail) h hy
theorem State.Keeps.replayLeaves {c : ℕ} (h : s.Keeps x) : s.Keeps (x.replayLeaves c) := by
  unfold State.replayLeaves
  split
  · split
    · exact h.modRun
    · exact h
  · exact h
theorem State.Keeps.nodeMsi {x1 : Node} (h : s.Keeps x) : s.Keeps (x.nodeMsi x1) := by
  unfold State.nodeMsi
  split
  · exact h.msi
  · exact h

/-! ### Operations of `Machine/WarmReset.lean` -/

theorem State.Keeps.reachCheck {d : ℕ} (h : s.Keeps x) : s.Keeps (x.reachCheck d) :=
  State.Keeps.ite h.modDie.barchanDepart h
theorem State.Keeps.linkDown {a b : ℕ} (h : s.Keeps x) : s.Keeps (x.linkDown a b) := h.setLink.reachCheck.reachCheck
theorem State.Keeps.resend {n : ℕ} {l : Link} (h : s.Keeps x) : s.Keeps (x.resend n l) := by
  unfold State.resend
  split
  · exact h.linkDown
  · exact h.modLink.modDie
theorem State.Keeps.sendFlit {n : ℕ} (h : s.Keeps x) : s.Keeps (x.sendFlit n) := h.drawFree.modLink
theorem State.Keeps.stopLaunch {lid : ℕ} (h : s.Keeps x) : s.Keeps (x.stopLaunch lid) := by
  unfold State.stopLaunch
  split
  · exact h
  split
  · exact ((State.Keeps.foldl (fun _ _ hy => hy.dropTeam) h).same).nodeFail
  · exact (State.Keeps.foldl (fun _ _ hy => hy.dropTeam) h).same
theorem State.Keeps.warmStart {d : ℕ} (h : s.Keeps x) : s.Keeps (x.warmStart d) :=
  ((State.Keeps.foldl (fun _ _ hy => hy.requestLaunch) (State.Keeps.foldl (fun _ _ hy => hy.stopLaunch) (State.Keeps.ite h.modDie h.modDie.barchanDepart))).same).modDie
theorem State.Keeps.warmRequest {d : ℕ} (h : s.Keeps x) : s.Keeps (x.warmRequest d) := by
  unfold State.warmRequest
  split
  · exact h
  split
  · exact h.warmStart
  · exact h.modDie
theorem State.Keeps.flushDie {d : ℕ} (h : s.Keeps x) : s.Keeps (x.flushDie d) := by
  unfold State.flushDie
  extract_lets mine put s1 s2
  have hput (a : State) (ln key : ℕ) (data : List Byte) (tags : List ℕ) (poison : List Bool) (ha : s.Keeps a) :
      s.Keeps (put a ln key data tags poison) := by
    unfold put
    split
    · exact ha.unitWrite
    · exact ha
  have h1 : s.Keeps s1 := State.Keeps.foldl (fun _ _ hy => hput _ _ _ _ _ _ hy) h
  have h2 : s.Keeps s2 := State.Keeps.foldl (fun _ _ hy => hput _ _ _ _ _ _ hy) h1
  exact h2.same

/-! ### Operations of `Machine/Mgmt.lean` -/

theorem State.Keeps.settleStore {ln : ℕ} {p : PendW} (h : s.Keeps x) : s.Keeps (x.settleStore ln p) := by
  unfold State.settleStore
  split
  · exact h.unpend
  split
  · exact h.unpend
  split
  · split
    · exact h.placeHome.unpend.setTag
    · exact h.placeHome.performPend
  · split
    · exact h.unpend.setTag
    · exact h.performPend
theorem State.Keeps.settleAll (h : s.Keeps x) : s.Keeps (x.settleAll) :=
  State.Keeps.foldl (fun _ _ hy => State.Keeps.foldl (fun _ _ hy => hy.settleStore) hy) h
theorem State.Keeps.settleSignals (h : s.Keeps x) : s.Keeps x.settleSignals := by
  refine State.Keeps.foldl (fun y o hy => ?_) h
  split
  · exact hy.devStore.delOp
  · exact hy
theorem State.Keeps.warmStartModule (h : s.Keeps x) : s.Keeps x.warmStartModule := by
  unfold State.warmStartModule
  extract_lets s0 s1 s2
  have h0 : s.Keeps s0 := State.Keeps.foldl (fun _ _ hy => hy.endContext) h
  have h2 : s.Keeps s2 := State.Keeps.foldl (fun _ _ hy => hy.flushDie) h0.settleAll.settleSignals.settleAll
  clear_value s2
  exact ⟨h2.gt, h2.form⟩
theorem State.Keeps.bootImage (h : s.Keeps x) : s.Keeps (x.bootImage) := by
  unfold State.bootImage
  dsimp only
  split <;> exact h.modMgmt
theorem State.Keeps.startEnds {res : ℕ} (h : s.Keeps x) : s.Keeps (x.startEnds res) := h.modMgmt
theorem State.Keeps.keyZero (h : s.Keeps x) : s.Keeps (x.keyZero) := h.same rfl rfl rfl
theorem State.Keeps.coldStep {n : ℕ} (h : s.Keeps x) : s.Keeps (x.coldStep n) := by
  unfold State.coldStep
  split
  · exact h.modMgmt.modMgmt
  · exact h.bootImage
  · exact h.keyZero.modMgmt
  · exact h.modMgmt
  · exact h.modMgmt.startEnds
  · exact h.modMgmt
theorem State.Keeps.warmStep {n : ℕ} (h : s.Keeps x) : s.Keeps (x.warmStep n) := by
  unfold State.warmStep
  split
  · exact h.modMgmt
  · exact h.modMgmt.startEnds
theorem State.Keeps.bufWrite {b o : ℕ} {d : List Byte} (h : s.Keeps x) : s.Keeps (x.bufWrite b o d) := by
  unfold State.bufWrite
  split
  · exact h.modMgmt
  · exact h.devStore
theorem State.Keeps.mgmtCommand {v : ℕ} (hv : v % 16 ≠ 5) (h : s.Keeps x) : s.Keeps (x.mgmtCommand v) := by
  unfold State.mgmtCommand
  extract_lets c
  have hc : ¬c = 5 := by
    unfold c nfld
    omega
  split
  · exact h.modMgmt
  split
  · exact h.modMgmt
  split
  · exact h.modMgmt
  split
  · exact h.modMgmt.warmStartModule
  · exact h.modMgmt
theorem State.Keeps.mgmtEvent {v : ℕ} {f : State → ℕ → (ℕ × ℕ) × State} (hv : v % 16 ≠ 5)
    (hf : ∀ y b, s.Keeps y → s.Keeps (f y b).2)
    (h : s.Keeps x) : s.Keeps (x.mgmtEvent v f) := by
  unfold State.mgmtEvent
  extract_lets s1
  have h1 : s.Keeps s1 := State.Keeps.ite h (h.mgmtCommand hv)
  split
  · split
    · exact h1.modMgmt
    · exact (hf _ _ h1).modMgmt
  · exact h1

/-! ### Operations of `Machine/CaravanMove.lean` -/

theorem State.Keeps.modCaravan {e : ℕ} {f : Caravan → Caravan} (h : s.Keeps x) : s.Keeps (x.modCaravan e f) :=
  h.same rfl rfl rfl
theorem State.Keeps.putLeaf {old pa leaf : ℕ} (h : s.Keeps x) : s.Keeps (x.putLeaf old pa leaf).2 :=
  State.Keeps.foldlSnd (fun _ _ hy => hy.devStore) h
theorem State.Keeps.claimBegin {o : ℕ} {op : Op} {ctx : ℕ} (h : s.Keeps x) : s.Keeps (x.claimBegin o op ctx).2 := by
  unfold State.claimBegin
  split <;> exact State.Keeps.iteSnd h (State.Keeps.iteSnd h (State.Keeps.iteSnd h h.modOp.modCaravan))
theorem State.Keeps.takeFree {e i : ℕ} (h : s.Keeps x) : s.Keeps (x.takeFree e i) :=
  (State.Keeps.foldl (fun _ _ hy => hy.devStore) h).modCaravan
theorem State.Keeps.moveBegin {e : ℕ} {a : MoveAsk} {leaf i frame : ℕ} (h : s.Keeps x) :
    s.Keeps (x.moveBegin e a leaf i frame) :=
  h.takeFree.putLeaf.modCaravan
theorem State.Keeps.copyLine {die src dst : ℕ} {t : ℕ × State} (q : x.copyLine die src dst = some t) (h : s.Keeps x) :
    s.Keeps t.2 := by
  unfold State.copyLine at q
  split at q
  · cases q
  dsimp only at q
  split at q
  · cases q
    exact h
  split at q
  · cases q
  · cases q
    exact (State.Keeps.placeHome (h.bring ‹_›)).same
theorem State.Keeps.movePhys {e : ℕ} {m : Move} (h : s.Keeps x) : s.Keeps (x.movePhys e m) :=
  h.putLeaf.modCaravan.enginePhys
theorem State.Keeps.freetail {e v : ℕ} (h : s.Keeps x) : s.Keeps (x.freetail e v) := h.modCaravan
theorem State.Keeps.epochFrame {e f : ℕ} (h : s.Keeps x) : s.Keeps (x.epochFrame e f) :=
  State.Keeps.ite h ((State.Keeps.ite h.modCaravan h).devStore)

/-! ### Operations of `Machine/Window.lean` -/

theorem State.Keeps.writeCaravan {e o v : ℕ} {touch : ℕ → Bool} (h : s.Keeps x) :
    s.Keeps (x.writeCaravan e o v touch) := by
  unfold State.writeCaravan
  split
  · exact h.modCaravan
  · split
    · exact h.freetail
    · exact h
  · exact h.modCaravan
  · exact h.modCaravan
  · exact h.modCaravan
  · exact h.modCaravan
  · split
    · exact h.modCaravan
    · exact h
  · exact h
theorem State.Keeps.writeDie {d o v : ℕ} (h : s.Keeps x) : s.Keeps (x.writeDie d o v) := by
  unfold State.writeDie
  split
  · split
    · exact h.warmRequest
    · exact h
  · split
    · exact h.modDie
    · exact h
theorem State.Keeps.writePort {q o v : ℕ} (h : s.Keeps x) : s.Keeps (x.writePort q o v) := by
  unfold State.writePort
  split
  · exact h.same
  split
  · split <;> exact h.same
  · exact h
theorem State.Keeps.inbound {die a key : ℕ} {acc : Inbound} (h : s.Keeps x) : s.Keeps (x.inbound die a key acc) := by
  unfold State.inbound
  extract_lets ls
  split
  · exact h
  split
  · cases q : x.bringAll noCtx none (ls.map fun l => (l, key, Hint.normal)) with
    | none => exact h
    | some y => exact h.bringAll q
  · exact h.devStoreFor
  · exact State.Keeps.ite h h.devStoreFor

/-! ### Operations of `Machine/Homes.lean` -/

theorem State.Keeps.answer {n : ℕ} {st : ReqSt} {val : List Byte} (h : s.Keeps x) : s.Keeps (x.answer n st val) := by
  unfold State.answer
  split
  · exact h
  split
  · exact h.delReq
  · exact h.modReq
theorem State.Keeps.noteWrite {r1 : Req} {w : ℕ} (h : s.Keeps x) : s.Keeps (x.noteWrite r1 w) := h.noteW.modSpan
theorem State.Keeps.installPath {r1 : Req} {data : List Byte} {expiry : ℕ} (h : s.Keeps x) :
    s.Keeps (x.installPath r1 data expiry) := by
  unfold State.installPath
  split
  · split
    · exact h
    · exact h.putCopy
  · exact h
theorem State.Keeps.touchHome {r1 : Req} (h : s.Keeps x) : s.Keeps (x.touchHome r1) := h.touchAt
theorem State.Keeps.leaseOut {r1 : Req} (h : s.Keeps x) : s.Keeps (x.leaseOut r1) := by
  unfold State.leaseOut
  dsimp only
  split
  · exact h
  split
  · exact State.Keeps.of_eq ‹_› h.grant
  · exact (State.Keeps.ite (State.Keeps.of_eq ‹_› h.grant) (((State.Keeps.of_eq ‹_› h.grant).l2Alloc).addCopy)).installPath
theorem State.Keeps.homeServe {n : ℕ} {r1 : Req} (h : s.Keeps x) : s.Keeps (x.homeServe n r1) := by
  unfold State.homeServe
  split
  · exact State.Keeps.ite h h.answer
  split
  · dsimp only
    split
    · exact h
    split
    · exact h
    · exact h.answer
    · exact h.answer
  · split
    · dsimp only
      split
      · exact h
      split
      · exact h
      · exact h.answer
      split
      · exact h.askUnit
      · exact h.touchHome.answer
    · split
      · dsimp only
        split
        · exact h
        split
        · exact h
        · exact h.answer
        split
        · exact h.askUnit
        · exact h.touchHome.answer
      · dsimp only
        split
        · exact h
        split
        · exact h
        · exact h.answer
        split
        · exact h.askUnit
        · exact h.leaseOut.touchHome.answer
theorem State.Keeps.hitServe {n : ℕ} {r1 : Req} {c : CopyLine} (h : s.Keeps x) : s.Keeps (x.hitServe n r1 c) :=
  (State.Keeps.ite h.l2Alloc.installPath (State.Keeps.ite h.touchCopy h)).answer
theorem State.Keeps.setPeer {q : ℕ} {m : Memory} (h : s.Keeps x) : s.Keeps (x.setPeer q m) := h.same rfl rfl rfl
theorem State.Keeps.atHome {n : ℕ} {r : Req} {go : State → State} (hg : ∀ y, s.Keeps y → s.Keeps (go y))
    (h : s.Keeps x) :
    s.Keeps (x.atHome n r go) := by
  unfold State.atHome
  dsimp only
  split
  · exact h
  split
  · exact h.answer
  split
  · exact h
  · exact h.answer
  · exact State.Keeps.ite (hg x h) h.answer
theorem State.Keeps.ackInstall {r1 : Req} {w : ℕ} (h : s.Keeps x) : s.Keeps (x.ackInstall r1 w) := by
  unfold State.ackInstall
  split <;> exact State.Keeps.ite h h.raiseLs.putCopy
theorem State.Keeps.physStore {ln req : ℕ} {r1 : Req} (h : s.Keeps x) : s.Keeps (x.physStore ln req r1) := by
  unfold State.physStore
  split
  · exact h.unpend.answer.enginePhys
  · exact h.unpend.answer
theorem State.Keeps.heldFault {o : ℕ} {op : Op} {c : Cause} {arg addr : ℕ} {lanes : Mask} (h : s.Keeps x) :
    s.Keeps (x.heldFault o op c arg addr lanes) :=
  h.unqueue.retireOp.owe
theorem State.Keeps.giHeldPage {e : GI} {o : ℕ} {op : Op} {st acc addr : ℕ} {lanes : Mask} (h : s.Keeps x) :
    s.Keeps (e.heldPage x o op st acc addr lanes) := by
  unfold GI.heldPage
  split
  · exact h.fresh.setFaults.modOp
  · exact h.heldFault
theorem heldWork_keeps {i : Instr} {f : GI → State → Fx} {e : GI} (q : heldWork i = some f) (h : s.Keeps x) :
    s.Keeps (f e x).state := by
  unfold heldWork at q
  split at q
  · cases q
    exact pinBody_keeps h
  · cases q
    exact hcfgBody_keeps h
  · cases q
    exact h.giHash
  · cases q
    exact h.giHash
  · cases q
    exact tsampBody_keeps h
  · cases q
    exact drawBody_keeps h
  · cases q
theorem State.Keeps.giRecheckPlan {e : GI} {n : ℕ} {o : Op} {p : Plan} (h : s.Keeps x) :
    s.Keeps (e.recheckPlan x n o p) := by
  unfold GI.recheckPlan
  split
  · exact h
  split
  · dsimp only
    split
    · exact h
    · exact h.planCheck.heldFault
    · exact h.planCheck.heldFault
    · exact h.planCheck.giHeldPage
    · exact h.planCheck.modOp.sendPieces
  · dsimp only
    split
    · exact h
    · exact h.planCheck.heldFault
    · exact h.planCheck.heldFault
    · exact h.planCheck.giHeldPage
    · exact h.planCheck.modOp.sendPieces
  · dsimp only
    split
    · exact h
    · exact h.planCheck.heldFault
    · exact h.planCheck.heldFault
    · exact h.planCheck.giHeldPage
    · exact h.planCheck.modOp.sendPieces
/-- What an operation leaves, whether it completes or goes on. -/
@[reducible] def finState : Except State Fin → State
  | .error t => t
  | .ok f => f.s
theorem State.Keeps.giLocalRun {e : GI} {p : Plan} (h : s.Keeps x) : s.Keeps (e.localRun x p).2 := h.modTeam

/-! ### Operations of `Machine/Complete.lean` -/

theorem State.Keeps.prefOne {op : Op} {ctx : ℕ} {h1 : Hint} {lv : PrefLvl} {a : ℕ} {canon : Bool} {t : State}
    (q : x.prefOne op ctx h1 lv a canon = some t) (h : s.Keeps x) : s.Keeps t := by
  unfold State.prefOne at q
  dsimp only at q
  split at q
  · cases q
    exact h
  have ht : s.Keeps (x.translate (coreTlb op.core) (coreDie op.core) ctx (vaOf a) ⟨false, false, op.user⟩).2 := h.translate
  split at q
  · have h1 := State.Keeps.of_eq ‹_› ht
    split at q
    · cases q
      exact h1
    split at q
    · cases q
      exact h1
    · cases q
    · obtain ⟨y, hy, rfl⟩ := Option.map_eq_some_iff.mp q
      have h2 := h1.bring hy
      split
      · exact h2.leaseOut.touchHome
      · exact State.Keeps.ite h2.touchHome h2.leaseOut.dropCopies.touchHome
      · have hm (ln : ℕ) (h3 : Hint) :
            s.Keeps (if ((y.homeLine ln).map (·.inMsc)).getD false then (true, y) else y.mscMiss ln h3).2 :=
          State.Keeps.iteSnd h2 h2.mscMiss
        exact State.Keeps.leaveHome (State.Keeps.ite (hm _ _).mscAlloc (hm _ _))
  · cases q
  · cases q
    exact State.Keeps.of_eq ‹_› ht
theorem State.Keeps.prefAll {op : Op} {ctx : ℕ} {h1 : Hint} {lv : PrefLvl} {l : List ℕ} {t : State}
    (q : x.prefAll op ctx h1 lv l = some t) (h : s.Keeps x) : s.Keeps t := by
  induction l generalizing x with
  | nil =>
    cases q
    exact h
  | cons a r ih =>
    unfold State.prefAll at q
    split at q
    · exact ih q (h.prefOne ‹_›)
    · cases q
theorem State.Keeps.cleanLine {ln : ℕ} (h : s.Keeps x) : s.Keeps (x.cleanLine ln) := by
  unfold State.cleanLine
  split
  · exact h
  split
  · exact h
  · exact h.writeBack.same
theorem State.Keeps.cacheLine {die : ℕ} {k : CacheOp} {ln : ℕ} (h : s.Keeps x) : s.Keeps (x.cacheLine die k ln) := by
  unfold State.cacheLine
  split
  · exact State.Keeps.ite h.dropCopies.l2Evict h.dropCopies
  · exact h.cleanLine
  · exact h.dropCopies.dropHome.same
theorem State.Keeps.reqEnd {o : ℕ} {op : Op} (h : s.Keeps x) : s.Keeps (finState (x.reqEnd o op)) := by
  unfold State.reqEnd
  extract_lets q got have_
  split
  · exact h
  split
  · exact h.dropPaths
  · exact h.rayWrites
  · exact h.rayWrites
  · dsimp only [finState, Fin.ofReqs]
    exact h.tsampWrites
  · exact h.matrixDone
  · exact h
theorem State.Keeps.giLocalEnd {e : GI} {o : ℕ} {op : Op} (h : s.Keeps x) : s.Keeps (finState (e.localEnd x o op)) := by
  unfold GI.localEnd
  split
  · exact h
  split
  · exact h
  · exact h.giLocalRun
theorem State.Keeps.matrixEnd {o : ℕ} {op : Op} (h : s.Keeps x) : s.Keeps (finState (x.matrixEnd o op)) := by
  unfold State.matrixEnd
  split
  · exact h.matrixDone
  · exact h
theorem State.Keeps.claimEnd {o : ℕ} {op : Op} {ctx d : ℕ} (h : s.Keeps x) :
    s.Keeps (finState (x.claimEnd o op ctx d)) := by
  unfold State.claimEnd
  extract_lets out
  split
  · exact h
  split
  · split <;> exact State.Keeps.of_eq ‹_› h.claimBegin
  split <;> exact h
theorem State.Keeps.cacheEnd {o : ℕ} {op : Op} {k : CacheOp} (h : s.Keeps x) :
    s.Keeps (finState (x.cacheEnd o op k)) := by
  unfold State.cacheEnd
  extract_lets q ls
  split
  · exact h
  split
  · split
    · exact h
    · exact State.Keeps.modOp (State.Keeps.foldl (fun _ _ hy => hy.cacheLine) h)
  split <;> exact h
theorem State.Keeps.giOpEnd {e : GI} {o : ℕ} {op : Op} (h : s.Keeps x) : s.Keeps (finState (e.opEnd x o op)) := by
  unfold GI.opEnd
  extract_lets ready
  have hr (w : List RegWrite) (t : State) (ht : s.Keeps t) : s.Keeps (finState (ready w t)) := by
    unfold ready
    split
    · exact ht
    · exact h
  split
  · exact h.giLocalEnd
  · exact h.giLocalEnd
  · exact h.giLocalEnd
  · exact hr _ _ h.bcinitDone
  · exact hr _ _ h.cpykDone
  · exact h.claimEnd
  · exact hr _ _ h.pinDone
  · exact hr _ _ h.unpinDone
  · split
    · exact h.prefAll ‹_›
    · exact h
  · exact h.cacheEnd
  · exact hr _ _ h
  · exact hr _ _ h.hcfgDone
  · split
    · exact h
    · dsimp only [finState, Fin.plain]
      exact h.hgatherDone
  · split
    · exact h
    · exact h.hscatterDone
  · exact h.matrixEnd
  · exact h.matrixEnd
  · exact h.matrixEnd
  · exact h.matrixEnd
  · exact h.matrixEnd
  · exact h.matrixEnd
  · exact h.matrixEnd
  · exact h.matrixEnd
  · exact hr _ _ h.routeDone
  · exact hr _ _ h.xdoneDone
  · split
    · exact h
    · exact h.reqEnd
theorem State.Keeps.dropAnswered {o : ℕ} (h : s.Keeps x) : s.Keeps (x.dropAnswered o) := h.same rfl rfl rfl
theorem State.Keeps.endFaults {f : Fin} {op : Op} {acc addr : ℕ} (h : s.Keeps x) :
    s.Keeps (x.endFaults f op acc addr) := by
  unfold State.endFaults
  split
  · exact h.owe
  split
  · exact h
  · exact h.modGroup.owe
theorem State.Keeps.giComplete {e : GI} {o : ℕ} {op : Op} {f : Fin} (h : s.Keeps f.s) :
    s.Keeps (e.complete x o op f) := by
  unfold GI.complete
  extract_lets addr
  split
  · exact h.raise
  · exact h.modRegs.arithAt.modOp.dropAnswered.retireOp.endFaults
theorem State.Keeps.giEmulDone {e : GI} {o : ℕ} {op : Op} {p : Plan} {all : List EByte} (h : s.Keeps x) :
    s.Keeps (e.emulDone x o op p all) := by
  unfold GI.emulDone
  split <;> exact State.Keeps.ite h.modOp.dropAnswered.retireOp.emulLeave.endFaults (State.Keeps.ite h.modOp.dropAnswered.retireOp.modRegs.emulLeave h.modOp.dropAnswered.retireOp.modRegs.leaveFirmware.endFaults)
theorem State.Keeps.giEmulEnd {e : GI} {o : ℕ} {op : Op} (h : s.Keeps x) : s.Keeps (e.emulEnd x o op) := by
  unfold GI.emulEnd
  split
  · exact h
  split
  · split
    · dsimp only
      split
      · exact h.raise
      split
      · split
        · exact h.giEmulDone
        · exact h
      · split
        · exact h
        · split
          · exact (((State.Keeps.of_eq ‹_› h.planByteStep).dropAnswered).retireOp).emulFault
          · exact h
        · exact (State.Keeps.of_eq ‹_› h.planByteStep).modOp
        · exact ((State.Keeps.of_eq ‹_› h.planByteStep).modTeam).modOp
    · dsimp only
      split
      · exact h.raise
      split
      · split
        · exact h.giEmulDone
        · exact h
      · split
        · exact h
        · split
          · exact (((State.Keeps.of_eq ‹_› h.planByteStep).dropAnswered).retireOp).emulFault
          · exact h
        · exact (State.Keeps.of_eq ‹_› h.planByteStep).modOp
        · exact (State.Keeps.of_eq ‹_› h.planByteStep).modOp
  · dsimp only
    split
    · exact h.raise
    split
    · split
      · exact h.giEmulDone
      · exact h
    · split
      · exact h
      · split
        · exact (((State.Keeps.of_eq ‹_› h.planByteStep).dropAnswered).retireOp).emulFault
        · exact h
      · exact (State.Keeps.of_eq ‹_› h.planByteStep).modOp
      · exact ((State.Keeps.of_eq ‹_› h.planByteStep).sendPieces).modOp
theorem State.Keeps.spanEnd {o : ℕ} {op : Op} (h : s.Keeps x) : s.Keeps (x.spanEnd o op) :=
  State.Keeps.ite h.modOp.dropAnswered.retireOp.same h
theorem State.Keeps.spawnSignal {o va c : ℕ} (h : s.Keeps x) : s.Keeps (x.spawnSignal o va c) := by
  unfold State.spawnSignal
  split
  · exact h.logRecord.delOp
  split
  · exact (State.Keeps.of_eq ‹_› h.devAdd).delOp
  split
  · exact h
  · exact ((State.Keeps.of_eq ‹_› h.devAdd).logRecord).delOp
theorem State.Keeps.releaseEnd {o : ℕ} {op : Op} (h : s.Keeps x) : s.Keeps (x.releaseEnd o op) := by
  unfold State.releaseEnd
  split
  · exact h
  split
  · exact h.spawnSignal
  · exact h.recordAgain
  · exact h.savesAgain
  · exact h.devStore.delOp
  · exact h.delOp

/-! ### Operations of `Machine/CrossLane.lean` -/

theorem redFx_keeps {o : RedOp} {d : ℕ} {res : GI → ℕ → RedVal} {e : GI} (h : s.Keeps x) :
    s.Keeps (redFx o d res e x).state :=
  h.modRegs.raised

/-! ### Operations of `Machine/Turns.lean` -/

theorem State.Keeps.asRun {r : Option Instr × State} (h : s.Keeps r.2) : s.Keeps (asRun r).2 := h
theorem State.Keeps.select (h : s.Keeps x) : s.Keeps x.select.2 := by
  unfold State.select
  split
  · exact h.same
  · exact h.same
  · exact State.Keeps.groupTurn h.same
  · exact State.Keeps.spanTurn h.same
  · split
    · exact h
    · exact h.same
    · exact h.groupIssue
    · exact h.spanTurn
theorem State.Keeps.forced {gid : ℕ} (h : s.Keeps x) : s.Keeps (x.forced gid).2 := h.modGroup.groupIssue

end Sys2Proof.Machine
end

section
/-! SUPPORT. The instructions and events whose work is more than one operation on the state keep GT and the form of the
memories. -/
namespace Sys2Proof.Machine
-- One declaration at a time: the joined text elaborates hundreds of short proofs here, and a worker thread for each is more
-- memory than the check allows.
set_option Elab.async false
variable {s x : State}

/-- The state that a replay's begin leaves. -/
@[reducible] def Begin.state : Begin → State
  | .go _ t | .stop _ _ t | .fault _ _ _ t => t
theorem graphRead_keeps {r : Except (ℕ × ℕ) (List Byte) × State} {k : List Byte → State → Begin}
    (hk : ∀ b y, s.Keeps y → s.Keeps (k b y).state) (h : s.Keeps r.2) : s.Keeps (graphRead r k).state := by
  obtain ⟨e | b, y⟩ := r
  · unfold graphRead
    dsimp only
    split <;> exact h
  · exact hk b y h
theorem applyPatches_keeps {c tab : ℕ} {k : ℕ → State → Begin} (hk : ∀ w y, s.Keeps y → s.Keeps (k w y).state)
    {l : List (ℕ × ℕ × ℕ)} {w : ℕ} (h : s.Keeps x) : s.Keeps (applyPatches c tab k l w x).state := by
  induction l generalizing x w with
  | nil => exact hk w x h
  | cons a r ih =>
    refine graphRead_keeps (fun b y hy => ?_) h.devRead
    split
    · exact ih (State.Keeps.of_eq ‹_› hy.patchWrite)
    · have h1 := State.Keeps.of_eq ‹_› hy.patchWrite
      split <;> exact h1
theorem State.Keeps.beginReplay {c handle arg : ℕ} (h : s.Keeps x) : s.Keeps (x.beginReplay c handle arg).state := by
  unfold State.beginReplay
  refine graphRead_keeps (fun e y hy => ?_) h.devRead
  extract_lets obj
  split
  · exact hy
  refine graphRead_keeps (fun d z hz => ?_) hy.devRead
  split
  · exact hz
  refine graphRead_keeps (fun bn u hu => ?_) hz.devRead
  refine graphRead_keeps (fun be v hv => ?_) (State.Keeps.iteSnd hu hu.devRead)
  refine graphRead_keeps (fun bp w hw => ?_) (State.Keeps.iteSnd hv hv.devRead)
  extract_lets ns es ps go
  split
  · exact hw
  · exact hw
  · exact hw
  · split
    · exact hw
    · refine applyPatches_keeps (fun w y hy => ?_) hw
      exact hy
/-- The state that a held instruction's work done again leaves. -/
@[reducible] def HeldRes.state (x : State) : HeldRes → State
  | .on t | .fault t _ _ _ _ | .page t _ _ _ _ => t
  | .wait => x
theorem State.Keeps.giHeldAgain {e : GI} {o : ℕ} {op : Op} {body : GI → State → Fx}
    (hb : ∀ e y, s.Keeps y → s.Keeps (body e y).state) (h : s.Keeps x) : s.Keeps ((e.heldAgain x o op body).state x) := by
  unfold GI.heldAgain
  extract_lets s0
  have hf : s.Keeps (body (e.asHeld o op) s0).state := hb _ _ h.delOp.modGroup
  generalize body (e.asHeld o op) s0 = f at hf
  cases f with
  | done y =>
    dsimp only
    split
    · split
      · exact h
      · exact hf.renameOp
    · exact hf.modAwaits
  | jump | stay | trap | page => exact h
theorem execClauseStart_keeps {w a b l : ℕ} {t : State} (q : execClauseStart w a b l x = .next t) (h : s.Keeps x) :
    s.Keeps t := by
  refine State.Keeps.issue q (fun e y h => ?_) (fun e y h => ?_) h
  · split
    · exact h
    split
    · exact h.modCtl
    split
    · exact h
    · exact h.modGroup
  · split
    · exact trivial
    split
    · exact h
    · exact h.modSpan
theorem execBra_keeps {c : Cond} {o : ℤ} {t : State} (q : execBra c o x = .next t) (h : s.Keeps x) : s.Keeps t := by
  refine State.Keeps.issue q (fun e y h => ?_) (fun e y h => ?_) h
  · split <;> exact h
  · split <;> exact trivial
theorem execBrz_keeps {p : ℕ} {o : ℤ} {t : State} (q : execBrz p o x = .next t) (h : s.Keeps x) : s.Keeps t := by
  refine State.Keeps.issue q (fun e y h => ?_) (fun _ _ _ => brzSpan_keeps) h
  split <;> exact h
theorem execBrnz_keeps {p : ℕ} {o : ℤ} {t : State} (q : execBrnz p o x = .next t) (h : s.Keeps x) : s.Keeps t := by
  refine State.Keeps.issue q (fun e y h => ?_) (fun _ _ _ => brzSpan_keeps) h
  split <;> exact h
theorem execCall_keeps {o : ℤ} {t : State} (q : execCall o x = .next t) (h : s.Keeps x) : s.Keeps t := by
  refine State.Keeps.issue q (fun e y h => ?_) (fun e y h => ?_) h
  · split
    · exact h.modRegs
    · exact h
  · split <;> exact trivial
theorem jumpReg_keeps {i : Instr} {n : ℕ} {t : State} (q : jumpReg i n x = .next t) (h : s.Keeps x) : s.Keeps t := by
  refine State.Keeps.issue q (fun e y h => ?_) (fun e y h => ?_) h
  · split <;> exact h
  · split <;> exact trivial
theorem execBararr_keeps {c n : ℕ} {t : State} (q : execBararr c n x = .next t) (h : s.Keeps x) : s.Keeps t := by
  refine State.Keeps.issue q (fun e y h => ?_) (fun _ _ _ => matSpan_keeps) h
  split
  · exact h
  · exact h.fresh.same
theorem execBararrArrive_keeps {arr : ℕ} {t : State} (q : execBararrArrive arr x = .next t) (h : s.Keeps x) :
    s.Keeps t := by
  refine State.Keeps.event q (fun y h => ?_) h
  split
  · exact h
  split
  · exact h.same
  split
  · exact h
  split
  · exact h
  · exact State.Keeps.ite h.same.owe h.same.barArrive
theorem execBcinit_keeps {a n : ℕ} {t : State} (q : execBcinit a n x = .next t) (h : s.Keeps x) : s.Keeps t := by
  refine State.Keeps.issue q (fun e y h => ?_) (fun _ _ _ => matSpan_keeps) h
  dsimp only
  split
  · exact h.giStartOp
  · exact h
theorem execCpyk_keeps {count a : ℕ} {t : State} (q : execCpyk count a x = .next t) (h : s.Keeps x) : s.Keeps t := by
  refine State.Keeps.issue q (fun e y h => ?_) (fun _ _ _ => matSpan_keeps) h
  dsimp only
  split
  · exact h.giStartOp
  · exact h
theorem execPubw_keeps {b a : ℕ} {t : State} (q : execPubw b a x = .next t) (h : s.Keeps x) : s.Keeps t := by
  refine State.Keeps.issue q (fun e y h => ?_) (fun _ _ _ => matSpan_keeps) h
  have ha : s.Keeps (e.access y).state := h.giAccess
  split
  · rename_i z hz
    rw [hz] at ha
    exact ha.modOp
  · exact ha
theorem execPubwStore_keeps {op : ℕ} {t : State} (q : execPubwStore op x = .next t) (h : s.Keeps x) : s.Keeps t := by
  refine State.Keeps.event q (fun y h => ?_) h
  split
  · exact h
  split
  · split
    · exact h.modOp
    · exact h
  · exact h
theorem execMbxsend_keeps {a die : ℕ} {fwd : Bool} {t : State} (q : execMbxsend a die fwd x = .next t)
    (h : s.Keeps x) :
    s.Keeps t := by
  refine State.Keeps.issue q (fun e y h => ?_) (fun _ _ _ => matSpan_keeps) h
  dsimp only
  split
  · exact h.giStartOp
  · exact h
theorem execMbxDeliver_keeps {op : ℕ} {t : State} (q : execMbxDeliver op x = .next t) (h : s.Keeps x) : s.Keeps t := by
  refine State.Keeps.event q (fun y h => ?_) h
  split
  · exact h
  split
  · split
    · exact State.Keeps.ite h h
    split
    · exact State.Keeps.ite h h.retireOp.owe
    split
    · exact State.Keeps.ite h h
    split <;> exact State.Keeps.ite h h.modDie.modOp
  · exact h
theorem execMbxrecvTake_keeps {gid : ℕ} {t : State} (q : execMbxrecvTake gid x = .next t) (h : s.Keeps x) :
    s.Keeps t := by
  refine State.Keeps.event q (fun y h => ?_) h
  split
  · exact h
  split
  · split
    · split
      · exact h
      · exact State.Keeps.giFinish h h.modDie.modTeam.modRegs.dropPath
    · exact h
  · exact h
theorem execSpawn_keeps {d a sg : ℕ} {sig : Bool} {cls : ℕ} {t : State} (q : execSpawn d a sg sig cls x = .next t)
    (h : s.Keeps x) :
    s.Keeps t := by
  refine State.Keeps.issue q (fun e y h => ?_) (fun _ _ _ => matSpan_keeps) h
  extract_lets at_ va sv m o f
  have hf : s.Keeps f.2 := h.giStartOp.fresh
  split
  · exact h
  split
  · exact h
  · exact hf.same
theorem execXtableEnable_keeps {table : ℕ} {t : State} (q : execXtableEnable table x = .next t) (h : s.Keeps x) :
    s.Keeps t := by
  refine State.Keeps.event q (fun y h => ?_) h
  split
  · exact h.xEnable
  · exact h
theorem execXtableDisable_keeps {table : ℕ} {t : State} (q : execXtableDisable table x = .next t) (h : s.Keeps x) :
    s.Keeps t :=
  State.Keeps.event q (fun _ h => h.xDisable) h
theorem execXtableRefresh_keeps {table : ℕ} {t : State} (q : execXtableRefresh table x = .next t) (h : s.Keeps x) :
    s.Keeps t :=
  State.Keeps.event q (fun _ h => h.xRefresh) h
theorem execBarchanWindowEnd_keeps {t : State} (q : execBarchanWindowEnd x = .next t) (h : s.Keeps x) : s.Keeps t := by
  refine State.Keeps.event q (fun y h => ?_) h
  split
  · exact h
  · exact State.Keeps.ite (State.Keeps.foldl (fun _ _ hy => hy.tableWindow) h) ((State.Keeps.foldl (fun _ _ hy => hy.tableWindow) h).modBarchan)
theorem execBarchanPublish_keeps {table : ℕ} {t : State} (q : execBarchanPublish table x = .next t) (h : s.Keeps x) :
    s.Keeps t := by
  refine State.Keeps.event q (fun y h => ?_) h
  split
  · exact h
  split
  · exact h
  split
  · exact h
  split
  · exact State.Keeps.ite ((State.Keeps.foldl (fun _ _ hy => hy.xLog) h).xPublished) (((State.Keeps.foldl (fun _ _ hy => hy.xLog) h).xPut).modTable)
  · exact h.modTable.modBarchan.xPut.xPublished
theorem execIshl_keeps {d a b : ℕ} {t : State} (q : execIshl d a b x = .next t) (h : s.Keeps x) : s.Keeps t := by
  refine State.Keeps.issue q (fun e y h => lanewiseE_keeps h) (fun e y h => ?_) h
  split <;> exact trivial
theorem execIcmp_keeps {n : Bool} {c : ICond} {p a b : ℕ} {t : State} (q : execIcmp n c p a b x = .next t)
    (h : s.Keeps x) :
    s.Keeps t := by
  refine State.Keeps.issue q (fun e y h => h.modRegs) (fun e y h => ?_) h
  repeat' split
  all_goals exact trivial
theorem execIaddi_keeps {d a : ℕ} {imm : ℤ} {t : State} (q : execIaddi d a imm x = .next t) (h : s.Keeps x) :
    s.Keeps t := by
  refine State.Keeps.issue q (fun e y h => lanewiseE_keeps h) (fun e y h => ?_) h
  split
  · exact uniSpanE_keeps
  split <;> exact trivial
theorem execIshli_keeps {d a imm : ℕ} {t : State} (q : execIshli d a imm x = .next t) (h : s.Keeps x) : s.Keeps t := by
  refine State.Keeps.issue q (fun e y h => lanewiseE_keeps h) (fun e y h => ?_) h
  split <;> exact trivial
theorem execIdx_keeps {d : ℕ} {k : IdxSel} {t : State} (q : execIdx d k x = .next t) (h : s.Keeps x) : s.Keeps t := by
  refine State.Keeps.issue q (fun e y h => lanewise_keeps h) (fun e y h => ?_) h
  split <;> exact trivial
theorem execSread_keeps {d : ℕ} {clr : Bool} {k : SrSel} {t : State} (q : execSread d clr k x = .next t)
    (h : s.Keeps x) :
    s.Keeps t := by
  refine State.Keeps.issue q (fun e y h => State.Keeps.ite h.modRegs.modGroup h.modRegs) (fun e y h => ?_) h
  split <;> exact trivial
theorem execMater_keeps {t : State} (q : execMater x = .next t) (h : s.Keeps x) : s.Keeps t := by
  refine State.Keeps.issue q (fun e y h => h) (fun e y h => ?_) h
  split
  · exact h
  extract_lets s1
  have h1 : s.Keeps s1 := h.siEnter h
  split
  · split
    · exact h1.materialise
    · exact h1
  · exact h1
theorem execSetmodeReg_keeps {m a : ℕ} {t : State} (q : execSetmodeReg m a x = .next t) (h : s.Keeps x) :
    s.Keeps t := by
  refine State.Keeps.issue q (fun e y h => ?_) (fun e y h => ?_) h
  · split
    · exact h.modRegs
    · exact h
  · split <;> exact trivial
theorem execSetmodeImm_keeps {m imm : ℕ} {t : State} (q : execSetmodeImm m imm x = .next t) (h : s.Keeps x) :
    s.Keeps t := by
  refine State.Keeps.issue q (fun e y h => ?_) (fun e y h => ?_) h
  · split
    · exact h.modRegs
    · exact h
  · split <;> exact trivial
theorem execIsel_keeps {d a : ℕ} {neg : Bool} {p : ℕ} {t : State} (q : execIsel d a neg p x = .next t)
    (h : s.Keeps x) :
    s.Keeps t := by
  refine State.Keeps.issue q (fun e y h => lanewise_keeps h) (fun e y h => ?_) h
  repeat' split
  all_goals exact trivial
theorem execFcmp_keeps {c : FCond} {p a b : ℕ} {t : State} (q : execFcmp c p a b x = .next t) (h : s.Keeps x) :
    s.Keeps t := by
  refine State.Keeps.issue q (fun e y h => floatFx_keeps h) (fun e y h => ?_) h
  split
  · exact trivial
  · exact h.siArith
theorem cvtOp_keeps {i : Instr} {d a k : ℕ} {t1 : EType} {env : Word → FEnv} {t : State}
    (q : cvtOp i d a k t1 env x = .next t) (h : s.Keeps x) :
    s.Keeps t := by
  refine State.Keeps.issue q (fun e y h => floatFx_keeps h) (fun e y h => ?_) h
  split
  · dsimp only
    split
    · exact trivial
    · exact floatSpan_keeps h
  · dsimp only
    split
    · exact trivial
    · exact floatSpan_keeps h
theorem execCvti_keeps {d a : ℕ} {r : Rnd} {t1 : EType} {t : State} (q : execCvti d a r t1 x = .next t)
    (h : s.Keeps x) :
    s.Keeps t :=
  cvtOp_keeps q h
theorem execTdesc_keeps {b a d : ℕ} {t : State} (q : execTdesc b a d x = .next t) (h : s.Keeps x) : s.Keeps t := by
  refine State.Keeps.issue q (fun e y h => ?_) (fun _ _ _ => matSpan_keeps) h
  dsimp only
  split
  · exact h
  split
  · exact h
  · exact h.modRegs
theorem execMmap_keeps {r : Bool} {t1 a d : ℕ} {t : State} (q : execMmap r t1 a d x = .next t) (h : s.Keeps x) :
    s.Keeps t := by
  refine State.Keeps.issue q (fun e y h => ?_) (fun _ _ _ => matSpan_keeps) h
  split
  · exact h
  · exact h.giProduct
theorem execAload_keeps {t1 d : ℕ} {t : State} (q : execAload t1 d x = .next t) (h : s.Keeps x) : s.Keeps t := by
  refine State.Keeps.issue q (fun e y h => ?_) (fun _ _ _ => matSpan_keeps) h
  dsimp only
  split
  · exact h
  split
  · exact h.tileRangeFx
  · exact h.giCommand
theorem execAdrain_keeps {band : Bool} {sr a t1 : ℕ} {t : State} (q : execAdrain band sr a t1 x = .next t)
    (h : s.Keeps x) :
    s.Keeps t := by
  refine State.Keeps.issue q (fun e y h => ?_) (fun _ _ _ => matSpan_keeps) h
  split
  · dsimp only
    split
    · exact h
    · exact h.giDrain
  · dsimp only
    split
    · exact h
    · exact h.giDrain
theorem execAstash_keeps {a q1 p : ℕ} {t : State} (q : execAstash a q1 p x = .next t) (h : s.Keeps x) : s.Keeps t := by
  refine State.Keeps.issue q (fun e y h => ?_) (fun _ _ _ => matSpan_keeps) h
  dsimp only
  split
  · exact h
  · exact h.giDrain
theorem execAgdrain_keeps {o b a : ℕ} {t : State} (q : execAgdrain o b a x = .next t) (h : s.Keeps x) : s.Keeps t := by
  refine State.Keeps.issue q (fun e y h => ?_) (fun _ _ _ => matSpan_keeps) h
  dsimp only
  split
  · exact h
  split
  · exact h.planCheck
  · exact h.planCheck
  · exact h.planCheck
  · exact h.planCheck.giCommand.giClearRedo
  · exact h.planCheck.giCommand.sendPieces.giClearRedo
theorem execMatrixCommandStart_keeps {core : ℕ} {t : State} (q : execMatrixCommandStart core x = .next t)
    (h : s.Keeps x) :
    s.Keeps t := by
  refine State.Keeps.event q (fun y h => ?_) h
  split
  · exact h
  split
  · exact h.unqueue
  split
  · exact h
  split
  · split
    · exact h.unqueue.agdrainStart
    · split
      · exact h
      · exact h.unqueue.setArray.setArray.modOp
    · exact h.unqueue.setArray.modOp
  · split
    · exact h.unqueue.agdrainStart
    · split
      · exact h
      · exact h.unqueue.setArray.setArray.modOp
    · exact h.unqueue.setArray.modOp
theorem execRouteSwitch_keeps {src dst : ℕ} {t : State} (q : execRouteSwitch src dst x = .next t) (h : s.Keeps x) :
    s.Keeps t :=
  State.Keeps.event q (fun _ h => State.Keeps.ite h h.same) h
theorem execMapStageA_keeps {region row data : ℕ} {t : State} (q : execMapStageA region row data x = .next t)
    (h : s.Keeps x) :
    s.Keeps t :=
  State.Keeps.event q (fun _ h => h.mapStage) h
theorem execMapStageB_keeps {region row data : ℕ} {t : State} (q : execMapStageB region row data x = .next t)
    (h : s.Keeps x) :
    s.Keeps t :=
  State.Keeps.event q (fun _ h => h.mapStage) h
theorem execMapApply_keeps {region : ℕ} {t : State} (q : execMapApply region x = .next t) (h : s.Keeps x) : s.Keeps t :=
  State.Keeps.event q (fun _ h => h.mapApply) h
theorem execMapApplySwitch_keeps {region : ℕ} {t : State} (q : execMapApplySwitch region x = .next t) (h : s.Keeps x)
    :
    s.Keeps t := by
  refine State.Keeps.event q (fun y h => ?_) h
  split
  · exact h
  split
  · exact h
  · exact h.modRegion.modPkg
theorem execRetireStack_keeps {value : ℕ} {t : State} (q : execRetireStack value x = .next t) (h : s.Keeps x) :
    s.Keeps t :=
  State.Keeps.event q (fun _ h => h.retireWrite) h
theorem execRetireCellStart_keeps {cell : ℕ} {t : State} (q : execRetireCellStart cell x = .next t) (h : s.Keeps x) :
    s.Keeps t := by
  refine State.Keeps.event q (fun y h => ?_) h
  split
  · exact h
  · exact State.Keeps.ite h.modMoving h
theorem execRetireRowCopy_keeps {cell : ℕ} {t : State} (q : execRetireRowCopy cell x = .next t) (h : s.Keeps x) :
    s.Keeps t := by
  refine State.Keeps.event q (fun y h => ?_) h
  split
  · exact h
  split
  · exact h
  split
  · exact h
  · extract_lets u w um _ s1
    have h1 : s.Keeps s1 := h.writeUnits
    exact h1.modMoving
theorem execRetireCellSwitch_keeps {cell : ℕ} {t : State} (q : execRetireCellSwitch cell x = .next t) (h : s.Keeps x)
    :
    s.Keeps t := by
  refine State.Keeps.event q (fun y h => ?_) h
  split
  · exact h
  split
  · exact h
  split
  · exact h
  · exact State.Keeps.ite h.modMoving.modRegion.modPkg h.modMoving.modRegion.modPkg.powerDown.same
theorem execUnitRequest_keeps {req : ℕ} {t : State} (q : execUnitRequest req x = .next t) (h : s.Keeps x) :
    s.Keeps t := by
  refine State.Keeps.event q (fun y h => ?_) h
  split
  · exact h
  split
  · exact h
  split
  · exact h.same
  split
  · exact h.same
  split
  · exact h
  split
  · exact h.same.unitWrite
  dsimp only
  split
  · exact h.same
  split <;> exact h.same.drawFree.countRead.placeHome
theorem execCopyRequestExecute_keeps {copy : ℕ} {t : State} (q : execCopyRequestExecute copy x = .next t)
    (h : s.Keeps x) :
    s.Keeps t := by
  refine State.Keeps.event q (fun y h => ?_) h
  split
  · exact h
  split
  · exact h
  split
  · exact h
  split
  · split
    · exact State.Keeps.ite h.modCopy.copyBad h.modCopy
    split
    · exact (State.Keeps.of_eq ‹_› h.readVia).copyFault
    · exact State.Keeps.ite (((State.Keeps.of_eq ‹_› h.readVia).modCopy).copyBad) ((State.Keeps.of_eq ‹_› h.readVia).modCopy)
  · split
    · exact State.Keeps.ite h.modCopy.copyBad h.modCopy
    split
    · exact (State.Keeps.of_eq ‹_› h.readVia).copyFault
    · exact State.Keeps.ite (((State.Keeps.of_eq ‹_› h.readVia).modCopy).copyBad) ((State.Keeps.of_eq ‹_› h.readVia).modCopy)
theorem execCopyElementWrite_keeps {copy element : ℕ} {t : State} (q : execCopyElementWrite copy element x = .next t)
    (h : s.Keeps x) :
    s.Keeps t := by
  refine State.Keeps.event q (fun y h => ?_) h
  split
  · exact h
  split
  · exact h
  split
  · split
    · exact h.copyCount.modCopy.copyCheck
    · exact h
  · split
    · exact h
    split
    · dsimp only
      split
      · exact h
      · exact (State.Keeps.of_eq ‹_› h.copyRead).copyStop
      · exact (State.Keeps.of_eq ‹_› h.copyRead).copyFault
      · exact (State.Keeps.of_eq ‹_› h.copyRead).copyWrite
    · dsimp only
      split
      · exact h
      · exact (State.Keeps.of_eq ‹_› h.copyRead).copyStop
      · exact (State.Keeps.of_eq ‹_› h.copyRead).copyFault
      · exact (State.Keeps.of_eq ‹_› h.copyRead).copyWrite
theorem execDrawQueue_keeps {op : ℕ} {t : State} (q : execDrawQueue op x = .next t) (h : s.Keeps x) : s.Keeps t := by
  refine State.Keeps.event q (fun y h => ?_) h
  split
  · exact h
  split
  · extract_lets held va answer stop id b
    have ha (z : State) (st : ℕ) (hz : s.Keeps z) : s.Keeps (answer z st) := hz.modOp
    have hs (z : State) (st a : ℕ) (hz : s.Keeps z) : s.Keeps (stop z st a) :=
      State.Keeps.drawQueueFault (fun _ hw => hw.giEventRecord.endContext) (fun _ hw => ha _ _ hw) h hz
    split
    · exact h
    split
    · split
      · exact (State.Keeps.of_eq ‹_› h.readVia).modOp
      · exact hs _ _ _ (State.Keeps.of_eq ‹_› h.readVia)
    have hc {r : DrawRes} {z : State} {d : ℕ} {w : Bool × Draw} (e : id.2.checkDraw d w = (r, z)) : s.Keeps z :=
      State.Keeps.of_eq e h.fresh.checkDraw
    split
    · exact ha _ _ (hc ‹_›)
    · exact hs _ _ _ (hc ‹_›)
    split
    · exact h
    · exact (ha _ _ ((hc ‹_›).queueDraw ‹_›)).modAwaits
  · exact h
theorem execRasterDrawStart_keeps {die r : ℕ} {t : State} (q : execRasterDrawStart die r x = .next t) (h : s.Keeps x)
    :
    s.Keeps t := by
  refine State.Keeps.event q (fun y h => ?_) h
  split
  · dsimp only
    split <;> exact h
  · dsimp only
    split
    · split
      · exact (State.Keeps.of_eq ‹_› h.drawRead).modRaster
      split
      · exact h
      split
      · exact (State.Keeps.of_eq ‹_› h.drawRead).holdDraw
      split
      · exact (State.Keeps.of_eq ‹_› h.drawRead).drawPhys
      · exact (State.Keeps.of_eq ‹_› h.drawRead).modRaster
    · exact h
theorem execRastTestAndWrite_keeps {die r : ℕ} {t : State} (q : execRastTestAndWrite die r x = .next t)
    (h : s.Keeps x) :
    s.Keeps t := by
  refine State.Keeps.event q (fun y h => ?_) h
  split
  · exact h
  split
  · dsimp only
    split
    · exact h
    split
    · exact (State.Keeps.of_eq ‹_› h.readTriangle).drawFault
    · exact (State.Keeps.of_eq ‹_› h.readTriangle).modRunning
    · exact (State.Keeps.of_eq ‹_› h.readTriangle).modRunning
  · split
    · exact State.Keeps.ite h h.modRunning
    dsimp only
    split
    · exact h
    split
    · exact (State.Keeps.of_eq ‹_› h.translate).drawFault
    · exact (State.Keeps.of_eq ‹_› h.translate).drawFault
    · exact h
    · exact (State.Keeps.of_eq ‹_› h.translate).drawFault
    split
    · exact (State.Keeps.of_eq ‹_› h.translate).drawFault
    split
    · exact (State.Keeps.of_eq ‹_› h.translate).drawFault
    split
    · exact h
    split
    · exact (State.Keeps.of_eq ‹_› h.translate).drawFault
    · exact ((State.Keeps.of_eq ‹_› h.translate).devStoreFor).modRunning
theorem execFragmentRegister_keeps {die r : ℕ} {t : State} (q : execFragmentRegister die r x = .next t)
    (h : s.Keeps x) :
    s.Keeps t := by
  refine State.Keeps.event q (fun y h => ?_) h
  split
  · exact h
  split
  · exact h
  split
  · exact h
  split
  · exact h.modRunning
  split
  · exact h
  dsimp only
  split
  · exact (State.Keeps.of_eq ‹_› h.writeAs).drawFault
  · exact ((State.Keeps.of_eq ‹_› h.writeAs).modDie).modRunning
theorem execDrawEnd_keeps {die r : ℕ} {t : State} (q : execDrawEnd die r x = .next t) (h : s.Keeps x) : s.Keeps t := by
  refine State.Keeps.event q (fun y h => ?_) h
  split
  · exact h
  extract_lets d leave
  have hl (z : State) (hz : s.Keeps z) : s.Keeps (leave z) := by
    unfold leave
    extract_lets s1
    have h1 : s.Keeps s1 := hz.modRaster.drawGone
    split
    · exact h1
    · exact State.Keeps.ite h1.nodeDone h1.nodeFail
  split
  · exact h
  split
  · split
    · have h1 := State.Keeps.of_eq ‹_› h.writeAs
      exact State.Keeps.ite h1.drawFault h1.modRunning
    · split
      · exact (State.Keeps.of_eq ‹_› (State.Keeps.of_eq ‹_› h.writeAs).writeAs).modRunning
      · have h2 := State.Keeps.of_eq ‹_› (State.Keeps.of_eq ‹_› h.writeAs).writeAs
        exact State.Keeps.ite h2.drawFault h2.modRunning
  split
  · exact h
  split
  · exact hl _ (State.Keeps.of_eq ‹_› h.addAs)
  · have h1 := State.Keeps.of_eq ‹_› h.addAs
    exact State.Keeps.ite h1.drawFault (hl _ h1)
theorem execOrdentAdmit_keeps {gid : ℕ} {t : State} (q : execOrdentAdmit gid x = .next t) (h : s.Keeps x) :
    s.Keeps t := by
  refine State.Keeps.event q (fun y h => ?_) h
  split
  · exact h
  split
  · split
    · exact h
    · exact State.Keeps.ite (State.Keeps.giFinish h h.modGroup.dropPath) h
  · exact h
theorem execOrdexitRelease_keeps {rel : ℕ} {t : State} (q : execOrdexitRelease rel x = .next t) (h : s.Keeps x) :
    s.Keeps t := by
  refine State.Keeps.event q (fun y h => ?_) h
  split
  · exact h
  split
  · exact h
  · exact h.modDie.same
theorem execRegroupRoundClose_keeps {die launch : ℕ} {t : State} (q : execRegroupRoundClose die launch x = .next t)
    (h : s.Keeps x) :
    s.Keeps t := by
  refine State.Keeps.event q (fun y h => ?_) h
  split
  · split
    · exact h
    · exact h.deal
  · exact State.Keeps.foldl (fun _ _ hy => hy.modCtl) h.fresh
theorem execKeyGenerate_keeps {slot : ℕ} {t : State} (q : execKeyGenerate slot x = .next t) (h : s.Keeps x) :
    s.Keeps t :=
  State.Keeps.event q (fun _ h => h.keyOp) h
theorem execKeyDestroy_keeps {slot : ℕ} {t : State} (q : execKeyDestroy slot x = .next t) (h : s.Keeps x) : s.Keeps t :=
  State.Keeps.event q (fun _ h => h.keyOp) h
theorem execKeyQuery_keeps {slot : ℕ} {t : State} (q : execKeyQuery slot x = .next t) (h : s.Keeps x) : s.Keeps t :=
  State.Keeps.event q (fun _ h => h.keyOp) h
theorem execKeyGenerateComplete_keeps {slot : ℕ} {t : State} (q : execKeyGenerateComplete slot x = .next t)
    (h : s.Keeps x) :
    s.Keeps t := by
  refine State.Keeps.event q (fun y h => ?_) h
  split
  · exact h.same
  · exact h
theorem execKeyDiscardDone_keeps {slot : ℕ} {t : State} (q : execKeyDiscardDone slot x = .next t) (h : s.Keeps x) :
    s.Keeps t := by
  refine State.Keeps.event q (fun y h => ?_) h
  split
  · exact h.dropKey.same
  · exact h
theorem execWWaitSatisfied_keeps {gid : ℕ} {t : State} (q : execWWaitSatisfied gid x = .next t) (h : s.Keeps x) :
    s.Keeps t := by
  refine State.Keeps.event q (fun y h => ?_) h
  split
  · exact h
  split
  · exact h
  · exact State.Keeps.runGroup (fun _ _ hz => heldBody_keeps hz) h
theorem execPreemptEntry_keeps {gid : ℕ} {t : State} (q : execPreemptEntry gid x = .next t) (h : s.Keeps x) :
    s.Keeps t := by
  refine State.Keeps.event q (fun y h => ?_) h
  split
  · exact h
  split
  · exact h
  split
  · split
    · exact h
    split
    · split
      · exact h.modGroup
      · exact h.modCtl.giTrapHere
    · exact h.modCtl.giPageFault
    · exact h.modCtl.giFetchTrap
    · exact h.modCtl.giTrapHere
    · exact h
  · exact h.preGroup
theorem execOrdTimeoutExpire_keeps {gid : ℕ} {t : State} (q : execOrdTimeoutExpire gid x = .next t) (h : s.Keeps x) :
    s.Keeps t := by
  refine State.Keeps.event q (fun y h => ?_) h
  split
  · exact h
  split
  · split
    · exact h.forceOut.preGroup
    · exact h
  · exact h
theorem execPreemptTimeoutExpire_keeps {team : ℕ} {t : State} (q : execPreemptTimeoutExpire team x = .next t)
    (h : s.Keeps x) :
    s.Keeps t := by
  refine State.Keeps.event q (fun y h => ?_) h
  split
  · exact h
  split
  · split
    · exact h.modTeam
    · exact h
  · exact h
theorem execTeamSave_keeps {team : ℕ} {t : State} (q : execTeamSave team x = .next t) (h : s.Keeps x) : s.Keeps t := by
  refine State.Keeps.event q (fun y h => ?_) h
  split
  · exact h
  split
  · split
    · exact State.Keeps.ite h.forceStops.saveTeam h.forceStops
    · exact State.Keeps.ite h.saveTeam h
  · exact h
theorem execTeamResume_keeps {saved core : ℕ} {t : State} (q : execTeamResume saved core x = .next t) (h : s.Keeps x)
    :
    s.Keeps t := by
  refine State.Keeps.event q (fun y h => ?_) h
  split
  · exact h
  split
  · exact h
  split
  · exact h
  split
  · exact h.resumeAll
  split
  · exact (h.resumeOne ‹_›).writeSaves
  · exact h.resumeStop
  · exact h
theorem execFrameTick_keeps {ctx : ℕ} {t : State} (q : execFrameTick ctx x = .next t) (h : s.Keeps x) : s.Keeps t := by
  refine State.Keeps.event q (fun y h => ?_) h
  split
  · exact h
  split
  · exact h
  · exact h.frameTick.modRun
theorem execBudgetExpire_keeps {ctx : ℕ} {t : State} (q : execBudgetExpire ctx x = .next t) (h : s.Keeps x) :
    s.Keeps t := by
  refine State.Keeps.event q (fun y h => ?_) h
  split
  · exact h
  split
  · exact h
  · exact State.Keeps.foldl (fun _ _ hy => hy.modLaunch.requestLaunch) h
theorem execLaunchSubmit_keeps {sub : ℕ} {t : State} (q : execLaunchSubmit sub x = .next t) (h : s.Keeps x) :
    s.Keeps t := by
  refine State.Keeps.event q (fun y h => ?_) h
  split
  · exact h
  split
  · exact h.same
  dsimp only
  split
  · exact h.answerSub
  split
  · exact h.answerSub
  split
  · exact h
  split
  · exact State.Keeps.deviceFault (fun _ hz => hz.answerSub) h (State.Keeps.of_eq ‹_› h.readDesc)
  · exact (State.Keeps.of_eq ‹_› h.readDesc).answerSub
  · have h1 := State.Keeps.of_eq ‹_› h.readDesc
    split
    · exact h1.answerSub
    · exact State.Keeps.answerSub h1.fresh.same
theorem execPlacePiece_keeps {launch die : ℕ} {t : State} (q : execPlacePiece launch die x = .next t) (h : s.Keeps x)
    :
    s.Keeps t := by
  refine State.Keeps.event q (fun y h => ?_) h
  split
  · exact h
  split
  · exact h
  split
  · split
    · exact h.placeWhole ‹_›
    split
    · exact h
    · exact h.preemptFor
  · split
    · exact h
    split
    · exact h.preemptFor
    · exact (h.withScratch ‹_›).putPiece
theorem execCtxEnable_keeps {ctx : ℕ} {t : State} (q : execCtxEnable ctx x = .next t) (h : s.Keeps x) : s.Keeps t :=
  State.Keeps.event q (fun _ h => State.Keeps.ctxEvent (fun _ hy => hy.enable) h) h
theorem execCtxDisable_keeps {ctx : ℕ} {t : State} (q : execCtxDisable ctx x = .next t) (h : s.Keeps x) : s.Keeps t :=
  State.Keeps.event q (fun _ h => State.Keeps.ctxEvent (fun _ hy => State.Keeps.ite hy.endContext hy) h) h
theorem execCtxRelease_keeps {ctx : ℕ} {t : State} (q : execCtxRelease ctx x = .next t) (h : s.Keeps x) :
    s.Keeps t := by
  refine State.Keeps.event q (fun y h => State.Keeps.ctxEvent (fun z hz => ?_) h) h
  dsimp only
  split
  · exact hz
  split
  · dsimp only
    exact hz.modRun
  · dsimp only
    exact hz.endContext
theorem execCtxcmdComplete_keeps {t : State} (q : execCtxcmdComplete x = .next t) (h : s.Keeps x) : s.Keeps t := by
  refine State.Keeps.event q (fun y h => ?_) h
  split
  · split
    · exact h.modPkg
    · exact h
  · exact h
theorem execFaultQueueWrite_keeps {fault : ℕ} {t : State} (q : execFaultQueueWrite fault x = .next t) (h : s.Keeps x)
    :
    s.Keeps t := by
  refine State.Keeps.event q (fun y h => ?_) h
  split
  · exact h
  split
  · exact h
  split
  · exact h
  extract_lets n k b
  have hk : s.Keeps k.2 := State.Keeps.iteSnd h.drawFree h
  split
  · exact State.Keeps.ite (State.Keeps.of_eq ‹_› hk.devWrite).enginePhys h
  · have h1 := State.Keeps.of_eq ‹_› hk.devWrite
    dsimp only
    exact State.Keeps.ite h1.modCtx.descStore.setFaults.modRun.msi h1.modCtx.descStore.setFaults.modRun
theorem execKickReplay_keeps {ctx handle arg : ℕ} {t : State} (q : execKickReplay ctx handle arg x = .next t)
    (h : s.Keeps x) :
    s.Keeps t :=
  State.Keeps.event q (fun _ h => h.kickReplay) h
theorem execKickResolve_keeps {ctx : ℕ} {deliver : Bool} {seq : ℕ} {t : State}
    (q : execKickResolve ctx deliver seq x = .next t) (h : s.Keeps x) :
    s.Keeps t :=
  State.Keeps.event q (fun _ h => h.kickResolve) h
theorem execKickFrameTick_keeps {ctx : ℕ} {t : State} (q : execKickFrameTick ctx x = .next t) (h : s.Keeps x) :
    s.Keeps t :=
  State.Keeps.event q (fun _ h => h.kickTick) h
theorem execKickSuspend_keeps {ctx : ℕ} {t : State} (q : execKickSuspend ctx x = .next t) (h : s.Keeps x) : s.Keeps t :=
  State.Keeps.event q (fun _ h => h.kickSuspend) h
theorem execKickResume_keeps {ctx : ℕ} {t : State} (q : execKickResume ctx x = .next t) (h : s.Keeps x) : s.Keeps t :=
  State.Keeps.event q (fun _ h => h.kickResume) h
theorem execKickDiscard_keeps {ctx word : ℕ} {t : State} (q : execKickDiscard ctx word x = .next t) (h : s.Keeps x) :
    s.Keeps t := by
  refine State.Keeps.event q (fun y h => ?_) h
  split
  · exact h.kickDrop
  · exact h
theorem execReplayBegin_keeps {ctx : ℕ} {t : State} (q : execReplayBegin ctx x = .next t) (h : s.Keeps x) :
    s.Keeps t := by
  refine State.Keeps.event q (fun y h => ?_) h
  split
  · split
    · exact h
    rename_i hd a rest _ _ _ _
    have hb : s.Keeps (y.beginReplay ctx hd a).state := h.beginReplay
    generalize y.beginReplay ctx hd a = b at hb
    cases b with
    | go r z => exact hb.modRun
    | stop st ad z => exact State.Keeps.graphRecord (State.Keeps.modRun hb)
    | fault st ad w z => exact State.Keeps.deviceFault (fun _ hz => hz) h hb
  · exact h
theorem execNodeLaunch_keeps {ctx node : ℕ} {t : State} (q : execNodeLaunch ctx node x = .next t) (h : s.Keeps x) :
    s.Keeps t :=
  State.Keeps.event q (fun _ h => h.submitNode) h
theorem execNodeBackgroundLaunch_keeps {ctx node : ℕ} {t : State} (q : execNodeBackgroundLaunch ctx node x = .next t)
    (h : s.Keeps x) :
    s.Keeps t :=
  State.Keeps.event q (fun _ h => h.submitNode) h
theorem execNodeCopy_keeps {ctx node : ℕ} {t : State} (q : execNodeCopy ctx node x = .next t) (h : s.Keeps x) :
    s.Keeps t := by
  refine State.Keeps.event q (fun y h => ?_) h
  split
  · exact h
  · exact State.Keeps.foldl (fun _ _ hy => hy.addCopyReq) h.runNode
theorem execNodeDraw_keeps {ctx node : ℕ} {t : State} (q : execNodeDraw ctx node x = .next t) (h : s.Keeps x) :
    s.Keeps t := by
  refine State.Keeps.event q (fun y h => ?_) h
  extract_lets held
  split
  · exact h
  split
  · split
    · exact (State.Keeps.of_eq ‹_› h.devRead).runNode.modNode
    · exact State.Keeps.nodeDrawFault h (State.Keeps.of_eq ‹_› h.devRead)
  split
  · exact h
  split
  · exact h
  · dsimp only
    split
    · exact (State.Keeps.of_eq ‹_› h.fresh.checkDraw).nodeFail
    · exact State.Keeps.nodeDrawFault h (State.Keeps.of_eq ‹_› h.fresh.checkDraw)
    split
    · exact h
    · exact State.Keeps.modNode ((State.Keeps.of_eq ‹_› h.fresh.checkDraw).queueDraw ‹_›)
theorem execNodeSignal_keeps {ctx node : ℕ} {t : State} (q : execNodeSignal ctx node x = .next t) (h : s.Keeps x) :
    s.Keeps t := by
  refine State.Keeps.event q (fun y h => ?_) h
  split
  · split
    · exact h
    split
    · have h2 := State.Keeps.of_eq ‹_› h.devAdd
      exact State.Keeps.ite h2.runNode.nodeDone.frameTick h2.runNode.nodeDone
    · exact State.Keeps.deviceFault (fun _ hz => State.Keeps.ite hz.enginePhys hz.nodeFail) h (State.Keeps.of_eq ‹_› h.devAdd)
  · exact h
theorem execNodeWait_keeps {ctx node : ℕ} {t : State} (q : execNodeWait ctx node x = .next t) (h : s.Keeps x) :
    s.Keeps t := by
  refine State.Keeps.event q (fun y h => ?_) h
  split
  · exact h
  · exact h.runNode
theorem execWaitNodePoll_keeps {ctx node : ℕ} {t : State} (q : execWaitNodePoll ctx node x = .next t) (h : s.Keeps x)
    :
    s.Keeps t := by
  refine State.Keeps.event q (fun y h => ?_) h
  split
  · exact h
  split
  · exact h
  split
  · exact h
  split
  · have h1 := State.Keeps.of_eq ‹_› h.devRead
    exact State.Keeps.ite h1.acquireAll.nodeDone h1.runNode
  · split
    · exact h.runNode
    · exact State.Keeps.deviceFault (fun _ hz => State.Keeps.ite hz.enginePhys hz.nodeFail) h (State.Keeps.of_eq ‹_› h.devRead)
theorem execNodeComplete_keeps {ctx node : ℕ} {t : State} (q : execNodeComplete ctx node x = .next t) (h : s.Keeps x)
    :
    s.Keeps t := by
  refine State.Keeps.event q (fun y h => ?_) h
  split
  · exact h
  split
  · exact h
  extract_lets behind s1 leave msi
  have hb (z : State) (hz : s.Keeps z) : s.Keeps (behind z) := hz.modNode
  have hl (z : State) (hz : s.Keeps z) : s.Keeps (leave z) := (hb z hz).nodeMsi.modRun
  have hm (w : ℕ) (z : State) (hz : s.Keeps z) : s.Keeps (msi w z) := by
    unfold msi
    split
    · exact hz.msi
    · exact hz
  split
  · split
    · exact h
    · exact (hb _ (State.Keeps.ite h h.graphRecord)).modRun.replayLeaves
  · split
    · exact h
    split
    · exact (hb _ h).nodeMsi.replayLeaves
    split
    · exact (hb _ h).nodeMsi
    split
    · exact h
    split
    · exact hm _ _ (hl _ h)
    split
    · exact hm _ _ (hl _ (State.Keeps.of_eq ‹_› h.devAdd))
    · exact State.Keeps.deviceFault (fun _ hz => State.Keeps.ite hz.enginePhys (hl _ hz).graphRecord) h
        (State.Keeps.of_eq ‹_› h.devAdd)
  · exact h
theorem execLinkFlitReceive_keeps {link : ℕ} {crcOk : Bool} {t : State}
    (q : execLinkFlitReceive link crcOk x = .next t) (h : s.Keeps x) :
    s.Keeps t := by
  refine State.Keeps.event q (fun y h => ?_) h
  split
  · exact h
  split
  · exact h
  split
  · split
    · exact h.sendFlit.modLink
    dsimp only
    split
    · exact h.sendFlit.sendFlit.resend
    · exact h.sendFlit.sendFlit
  · split
    · exact h.modLink
    dsimp only
    split
    · exact h.sendFlit.resend
    · exact h.sendFlit
theorem execLinkRetryTimeout_keeps {link : ℕ} {t : State} (q : execLinkRetryTimeout link x = .next t) (h : s.Keeps x)
    :
    s.Keeps t := by
  refine State.Keeps.event q (fun y h => ?_) h
  split
  · exact h
  split
  · exact h.resend
  · exact h
theorem execWarmResetRequest_keeps {die : ℕ} {t : State} (q : execWarmResetRequest die x = .next t) (h : s.Keeps x) :
    s.Keeps t :=
  State.Keeps.event q (fun _ h => h.warmRequest) h
theorem execWarmResetStart_keeps {die : ℕ} {t : State} (q : execWarmResetStart die x = .next t) (h : s.Keeps x) :
    s.Keeps t := by
  refine State.Keeps.event q (fun y h => ?_) h
  split
  · exact h.warmStart
  · exact h
theorem execWarmResetQuiesce_keeps {die : ℕ} {t : State} (q : execWarmResetQuiesce die x = .next t) (h : s.Keeps x) :
    s.Keeps t := by
  refine State.Keeps.event q (fun y h => ?_) h
  split
  · split
    · exact h.modDie
    · exact h
  · split
    · exact h
    · exact State.Keeps.foldl (fun _ _ hy => hy.linkDown) h.flushDie.modDie
  · exact h
theorem execWarmResetRetrain_keeps {die : ℕ} {t : State} (q : execWarmResetRetrain die x = .next t) (h : s.Keeps x) :
    s.Keeps t := by
  refine State.Keeps.event q (fun y h => ?_) h
  split
  · exact h.modDie
  · exact State.Keeps.foldl (fun _ _ hy => hy.setLink) h.same.modDie
  · exact h
theorem execWarmResetAdmit_keeps {die : ℕ} {t : State} (q : execWarmResetAdmit die x = .next t) (h : s.Keeps x) :
    s.Keeps t := by
  refine State.Keeps.event q (fun y h => ?_) h
  split
  · exact h.modDie
  · exact h
theorem execStartStepComplete_keeps {ok : Bool} {t : State} (q : execStartStepComplete ok x = .next t)
    (h : s.Keeps x) :
    s.Keeps t := by
  refine State.Keeps.event q (fun y h => ?_) h
  split
  · exact h
  split
  · exact h.startEnds
  split
  · exact h.warmStep
  · exact h.coldStep
theorem execMgmtAttest_keeps {t : State} (q : execMgmtAttest x = .next t) (h : s.Keeps x) : s.Keeps t :=
  State.Keeps.event q (fun _ h => State.Keeps.mgmtEvent (by decide) (fun _ _ hy => hy.drawFree.bufWrite) h) h
theorem execMgmtReadCert_keeps {t : State} (q : execMgmtReadCert x = .next t) (h : s.Keeps x) : s.Keeps t :=
  State.Keeps.event q (fun _ h => State.Keeps.mgmtEvent (by decide) (fun _ _ hy => hy.bufWrite) h) h
theorem execMgmtRaiseSvn_keeps {t : State} (q : execMgmtRaiseSvn x = .next t) (h : s.Keeps x) : s.Keeps t := by
  refine State.Keeps.event q (fun y h => State.Keeps.mgmtEvent (by decide) (fun z b hz => ?_) h) h
  dsimp only
  exact hz.modMgmt
theorem execMgmtWarmStart_keeps {t : State} (q : execMgmtWarmStart x = .next t) (h : s.Keeps x) : s.Keeps t :=
  State.Keeps.event q (fun _ h => h.mgmtCommand (by decide)) h
theorem execMgmtWriteFlash_keeps {slot chunk : ℕ} {t : State} (q : execMgmtWriteFlash slot chunk x = .next t)
    (h : s.Keeps x) :
    s.Keeps t := by
  refine State.Keeps.event q (fun y h => State.Keeps.mgmtEvent (by omega) (fun z b hz => ?_) h) h
  dsimp only
  exact hz.modMgmt
theorem execMgmtCommandComplete_keeps {t : State} (q : execMgmtCommandComplete x = .next t) (h : s.Keeps x) :
    s.Keeps t := by
  refine State.Keeps.event q (fun y h => ?_) h
  split
  · split
    · exact h.modMgmt
    · exact h
  · exact h
theorem execMonitorSample_keeps {die : ℕ} {temps volts rings : List ℕ} {t : State}
    (q : execMonitorSample die temps volts rings x = .next t) (h : s.Keeps x) :
    s.Keeps t :=
  State.Keeps.event q (fun _ h => State.Keeps.ite h.same h.modDie) h
theorem execCaravanMoveStart_keeps {engine : ℕ} {t : State} (q : execCaravanMoveStart engine x = .next t)
    (h : s.Keeps x) :
    s.Keeps t := by
  refine State.Keeps.event q (fun y h => ?_) h
  split
  · dsimp only
    split <;> exact h
  · dsimp only
    split
    · split
      · exact h
      split
      · exact h.modCaravan
      split
      · exact h.moveBegin
      split
      · exact h
      split
      · exact h.modCaravan
      · exact h.modCaravan.fresh.setFaults
    · exact h
theorem execCaravanPageCopy_keeps {engine : ℕ} {t : State} (q : execCaravanPageCopy engine x = .next t)
    (h : s.Keeps x) :
    s.Keeps t := by
  refine State.Keeps.event q (fun y h => ?_) h
  split
  · exact h
  split
  · exact h
  split
  · exact State.Keeps.ite h h.modCaravan
  dsimp only
  split
  · split
    · exact h.movePhys
    split
    · exact h
    · exact State.Keeps.modCaravan (h.copyLine ‹_›)
  · exact h
theorem execCaravanMoveEnd_keeps {engine : ℕ} {t : State} (q : execCaravanMoveEnd engine x = .next t) (h : s.Keeps x)
    :
    s.Keeps t := by
  refine State.Keeps.event q (fun y h => ?_) h
  dsimp only
  split
  · exact h
  split
  · exact h
  split
  · exact h.putLeaf.modCaravan
  split
  · split
    · exact h
    split
    · exact h.devStore.modCaravan.modOp
    · exact h.devStore.modCaravan
  · exact h
theorem execCaravanFreetailWrite_keeps {engine value : ℕ} {t : State}
    (q : execCaravanFreetailWrite engine value x = .next t) (h : s.Keeps x) :
    s.Keeps t :=
  State.Keeps.event q (fun _ h => h.freetail) h
theorem execCaravanEpochEnd_keeps {engine : ℕ} {t : State} (q : execCaravanEpochEnd engine x = .next t)
    (h : s.Keeps x) :
    s.Keeps t :=
  State.Keeps.event q (fun _ h => State.Keeps.ite h (State.Keeps.ite h.modCaravan (State.Keeps.foldl (fun _ _ hy => hy.epochFrame) h.modCaravan))) h
theorem execPageCountForward_keeps {engine : ℕ} {t : State} (q : execPageCountForward engine x = .next t)
    (h : s.Keeps x) :
    s.Keeps t := by
  refine State.Keeps.event q (fun y h => ?_) h
  split
  · exact h
  · exact h.modCaravan.countFrame
theorem execHostMemAccess_keeps {addr : ℕ} {acc : Inbound} {t : State} (q : execHostMemAccess addr acc x = .next t)
    (h : s.Keeps x) :
    s.Keeps t := by
  refine State.Keeps.event q (fun y h => ?_) h
  split
  · exact h
  · exact h.inbound
theorem execPeerInboundAccess_keeps {port addr : ℕ} {acc : Inbound} {t : State}
    (q : execPeerInboundAccess port addr acc x = .next t) (h : s.Keeps x) :
    s.Keeps t := by
  refine State.Keeps.event q (fun y h => ?_) h
  split
  · dsimp only
    split <;> exact h
  · dsimp only
    split
    · exact h.inbound
    · exact h
theorem execPeerLinkTrain_keeps {port : ℕ} {up : Bool} {lanes remote : ℕ} {t : State}
    (q : execPeerLinkTrain port up lanes remote x = .next t) (h : s.Keeps x) :
    s.Keeps t :=
  State.Keeps.event q (fun _ h => h.same) h
theorem execHomeRead_keeps {req : ℕ} {useCopy : Bool} {t : State} (q : execHomeRead req useCopy x = .next t)
    (h : s.Keeps x) :
    s.Keeps t := by
  refine State.Keeps.event q (fun y h => ?_) h
  split
  · exact h
  split
  · exact h
  split
  · exact h.hitServe
  split
  · exact h.homeServe
  · split
    · exact h.answer
    · exact h
    · exact h.answer
  · split
    · exact h
    · exact h.answer
    · exact State.Keeps.ite h.peerTakes.installPath.answer h.peerTakes.answer
  · exact h.answer
  · exact h
theorem execHomeStorePerform_keeps {req : ℕ} {t : State} (q : execHomeStorePerform req x = .next t) (h : s.Keeps x) :
    s.Keeps t := by
  refine State.Keeps.event q (fun y h => ?_) h
  split
  · exact h
  split
  · split
    · exact State.Keeps.ite h (State.Keeps.ite h.noteWrite.answer (State.Keeps.ite h h.physStore))
    split
    · exact State.Keeps.ite h (State.Keeps.ite h.noteWrite.answer (State.Keeps.ite h h.unpend.noteWrite.answer))
    split
    · split
      · exact State.Keeps.ite h (State.Keeps.ite h.noteWrite.answer (State.Keeps.ite h (State.Keeps.ite (State.Keeps.ite h h.askUnit) h.unpend.setTag.noteWrite.ackInstall.touchHome.answer)))
      · exact State.Keeps.ite h (State.Keeps.ite h.noteWrite.answer (State.Keeps.ite h (State.Keeps.ite (State.Keeps.ite h h.askUnit) h.unpend.setTag.noteWrite.ackInstall.leaveHome.answer)))
    · split
      · exact State.Keeps.ite h (State.Keeps.ite h.noteWrite.answer (State.Keeps.ite h (State.Keeps.ite (State.Keeps.ite h h.askUnit) h.performPend.noteWrite.ackInstall.touchHome.answer)))
      · exact State.Keeps.ite h (State.Keeps.ite h.noteWrite.answer (State.Keeps.ite h (State.Keeps.ite (State.Keeps.ite h h.askUnit) h.performPend.noteWrite.ackInstall.leaveHome.answer)))
  · exact h
theorem execScratchpadBankOp_keeps {req : ℕ} {t : State} (q : execScratchpadBankOp req x = .next t) (h : s.Keeps x) :
    s.Keeps t := by
  refine State.Keeps.event q (fun y h => ?_) h
  split
  · exact h
  split
  · split
    · exact h
    split
    · exact h.answer
    · exact h.setScratch.noteWrite.answer
    · exact h.setScratch.noteWrite.answer
    · exact h.setScratch.noteWrite.answer
    · exact h
  · exact h
theorem execLouvreFilterSwap_keeps {die slice : ℕ} {t : State} (q : execLouvreFilterSwap die slice x = .next t)
    (h : s.Keeps x) :
    s.Keeps t := by
  refine State.Keeps.event q (fun y h => ?_) h
  split
  · exact h
  · exact h.same
theorem execPageWalk_keeps {core ctx va : ℕ} {t : State} (q : execPageWalk core ctx va x = .next t) (h : s.Keeps x) :
    s.Keeps t :=
  State.Keeps.event q (fun _ h => h.walk) h
theorem execMvRecheck_keeps {op : ℕ} {t : State} (q : execMvRecheck op x = .next t) (h : s.Keeps x) : s.Keeps t := by
  refine State.Keeps.event q (fun y h => ?_) h
  split
  · exact h
  split
  · exact h
  split
  · exact h
  split
  · rename_i o _ _ e _ _ _ body hw
    have hr : s.Keeps ((e.heldAgain y op o body).state y) := State.Keeps.giHeldAgain (fun _ _ hz => heldWork_keeps hw hz) h
    split
    · rename_i z hz
      rw [hz] at hr
      exact hr
    · exact h
    · exact h.heldFault
    · exact h.giHeldPage
  split
  · exact h.giRecheckPlan
  · exact h
theorem execLongOpComplete_keeps {op : ℕ} {t : State} (q : execLongOpComplete op x = .next t) (h : s.Keeps x) :
    s.Keeps t := by
  refine State.Keeps.event q (fun y h => ?_) h
  split
  · exact h
  split
  · exact h.releaseEnd
  split
  · exact h.spanEnd
  split
  · exact State.Keeps.ite h.giEmulEnd h
  split
  · exact h
  · rename_i p _ _ _ e _ _ _
    have ho : s.Keeps (finState (e.opEnd y op p)) := h.giOpEnd
    split
    · rename_i z hz
      rw [hz] at ho
      exact ho
    · rename_i f hf
      rw [hf] at ho
      exact State.Keeps.giComplete ho
theorem execTrapHandlerEntry_keeps {gid : ℕ} {t : State} (q : execTrapHandlerEntry gid x = .next t) (h : s.Keeps x) :
    s.Keeps t := by
  refine State.Keeps.event q (fun y h => ?_) h
  split
  · exact h
  split
  · exact h.emulStart
  · exact h.enterTrap
theorem execGroupEnd_keeps {gid : ℕ} {t : State} (q : execGroupEnd gid x = .next t) (h : s.Keeps x) : s.Keeps t := by
  refine State.Keeps.event q (fun y h => ?_) h
  split
  · exact h
  split
  · exact h.modTeam.dropGroup.barsCheck.teamCheck
  · exact h
theorem execTeamExpand_keeps {span : ℕ} {t : State} (q : execTeamExpand span x = .next t) (h : s.Keeps x) :
    s.Keeps t := by
  refine State.Keeps.event q (fun y h => ?_) h
  split
  · exact h
  split
  · exact h
  split
  · exact (h.expandOne ‹_›).settle
  · exact h
theorem execRdfirst_keeps {d a : ℕ} {w : Bool} {t : State} (q : execRdfirst d a w x = .next t) (h : s.Keeps x) :
    s.Keeps t := by
  refine State.Keeps.issue q (fun e y h => ?_) (fun _ _ _ => matSpan_keeps) h
  split
  · exact h.modRegs
  · exact h
theorem execRdlane_keeps {d a b : ℕ} {t : State} (q : execRdlane d a b x = .next t) (h : s.Keeps x) : s.Keeps t := by
  refine State.Keeps.issue q (fun e y h => ?_) (fun _ _ _ => matSpan_keeps) h
  dsimp only
  split
  · exact h.modRegs
  · exact h

end Sys2Proof.Machine
end

section
/-! SUPPORT. Where GT may return to 0: a cold start, and the writes that command one. -/
namespace Sys2Proof.Machine
-- One declaration at a time: the joined text elaborates hundreds of short proofs here, and a worker thread for each is more
-- memory than the check allows.
set_option Elab.async false
/-! ### Cold starts (R442, R450): GT returns to 0 where one may begin -/

/-- GT has not moved, or has returned to 0 where `c` holds, and memories in canonical form still are. -/
structure State.KeepsOr (c : Prop) (s t : State) : Prop where
  gt : t.gt = s.gt ∨ (t.gt = 0 ∧ c)
  form : s.mem.units.wf = true ∧ s.mem.host.wf = true → t.mem.units.wf = true ∧ t.mem.host.wf = true

theorem State.Keeps.or {s t : State} {c : Prop} (h : s.Keeps t) : s.KeepsOr c t := ⟨.inl h.gt, h.form⟩
namespace State.KeepsOr
variable {s x t : State} {c d : Prop}

theorem trans (h : s.KeepsOr c x) (g : x.KeepsOr c t) : s.KeepsOr c t := by
  refine ⟨?_, fun hw => g.form (h.form hw)⟩
  obtain hg | ⟨hg, hc⟩ := g.gt
  · rw [hg]
    exact h.gt
  · exact .inr ⟨hg, hc⟩
theorem keeps (h : s.KeepsOr c x) (g : x.Keeps t) : s.KeepsOr c t := h.trans g.or
theorem imp (h : s.KeepsOr c t) (hcd : c → d) : s.KeepsOr d t := ⟨h.gt.imp_right (And.imp_right hcd), h.form⟩
theorem foldl {α : Type} {l : List α} {f : State → α → State} (hf : ∀ y : State, ∀ a ∈ l, y.KeepsOr c (f y a)) (h : s.KeepsOr c x) :
    s.KeepsOr c (l.foldl f x) := by
  induction l generalizing x with
  | nil => exact h
  | cons a r ih => exact ih (fun y b hb => hf y b (List.mem_cons_of_mem a hb)) (h.trans (hf x a List.mem_cons_self))
theorem event {f : State → State} (q : s.event f = .next t) (hf : s.KeepsOr c (f s)) : s.KeepsOr c t := by
  unfold State.event at q
  split at q
  · cases q
    exact hf
  · cases q

/-- A cold start begins at GT 0, with the module's memory empty and the host's as it was. -/
theorem coldStart {busy : Bool} : s.KeepsOr True (s.coldStart busy) := ⟨.inr ⟨rfl, trivial⟩, fun h => ⟨rfl, h.2⟩⟩
theorem mgmtCommand {v : ℕ} : s.KeepsOr (v % 16 = 5) (s.mgmtCommand v) := by
  by_cases hv : v % 16 = 5
  · unfold State.mgmtCommand
    extract_lets c
    split
    · exact (State.Keeps.refl s).modMgmt.or
    split
    · exact (State.Keeps.refl s).modMgmt.or
    split
    · exact (State.Keeps.refl s).modMgmt.or
    split
    · exact (State.Keeps.refl s).modMgmt.warmStartModule.or
    split
    · exact (State.Keeps.refl s).modMgmt.or.trans (coldStart.imp fun _ => hv)
    · exact (State.Keeps.refl s).modMgmt.or
  · exact ((State.Keeps.refl s).mgmtCommand hv).or
theorem writePkg {o v : ℕ} : s.KeepsOr (o = 0x100) (s.writePkg o v) := by
  have h := State.Keeps.refl s
  unfold State.writePkg
  split
  · exact h.modPkg.or
  · exact h.ctxCommand.or
  · exact h.modPkg.or
  · exact h.modPkg.or
  · exact mgmtCommand.imp fun _ => rfl
  · exact h.modMgmt.or
  · exact h.keyCommand.or
  · exact h.or
/-- Only the word of MGMTCMD may begin a cold start. -/
theorem writeWord {a v : ℕ} {touch : ℕ → Bool} : s.KeepsOr (a = 0xF00000000100) (s.writeWord a v touch) := by
  have h := State.Keeps.refl s
  unfold State.writeWord
  extract_lets o
  split
  · refine writePkg.imp fun (ho : o = 0x100) => ?_
    unfold o at ho
    omega
  split
  · exact h.modMgmt.or
  split
  · exact h.writeCaravan.or
  split
  · exact h.writeDie.or
  split
  · exact h.writePort.or
  split
  · exact h.same.or
  split
  · exact h.kickWrite.or
  · exact h.or
/-- The words that a write touches include that of MGMTCMD only where its bytes reach it. -/
theorem winWrite {a : ℕ} {d : List Byte} : s.KeepsOr (hitsMgmtCmd a d.length = true) (s.winWrite a d) := by
  refine foldl (fun y i hi => writeWord.imp fun hw => ?_) (State.Keeps.refl s).or
  have hlt : 8 * i < a % 8 + d.length := by
    rw [List.mem_range] at hi
    split at hi
    · omega
    · unfold cdiv at hi
      omega
  simp only [hitsMgmtCmd, Bool.and_eq_true, decide_eq_true_eq]
  omega
theorem outside {n : ℕ} {r : Req} {new : List Byte → List Byte} :
    s.KeepsOr (r.space = .window ∧ hitsMgmtCmd r.pa (new (s.winRead r.pa r.size)).length = true) (s.outside n r new) := by
  have h := State.Keeps.refl s
  unfold State.outside
  extract_lets w
  split
  · split
    · exact h.or
    · exact h.answer.or
    · exact (State.Keeps.writeHost h).noteWrite.answer.or
  · split
    · exact h.or
    · exact h.answer.or
    · extract_lets t old
      have ht : s.Keeps t.2 := h.peerTakes
      split
      · exact ht.setPeer.dropCopies.noteWrite.answer.or
      · exact ht.answer.or
  · exact (winWrite.imp fun hw => ⟨‹_›, hw⟩).keeps (State.Keeps.refl _).noteWrite.answer
  · exact h.or

end State.KeepsOr

theorem length_toBytes (n v : ℕ) : (toBytes n v).length = n := by
  induction n generalizing v with
  | zero => rfl
  | succ n ih => exact congrArg Nat.succ (ih _)
theorem hitsMgmtCmd_mono {a m n : ℕ} (h : m ≤ n) (hm : hitsMgmtCmd a m = true) : hitsMgmtCmd a n = true := by
  simp only [hitsMgmtCmd, Bool.and_eq_true, decide_eq_true_eq] at hm ⊢
  omega
/-- A request that is served now stands in the table. -/
theorem reqNow_eq_some {s : State} {n : ℕ} {r : Req} (h : s.reqNow n = some r) : tget s.work.reqs n = some r := by
  unfold State.reqNow at h
  split at h
  · split at h
    · rwa [← h]
    · cases h
  · cases h
/-- A write of the window by a request that is served now. -/
theorem writesMgmtCmd_of {s : State} {n m : ℕ} {r : Req} (h : s.reqNow n = some r) (hm : m ≤ max r.size r.data.length)
    (hw : r.space = .window ∧ hitsMgmtCmd r.pa m = true) : s.writesMgmtCmd n = true := by
  simp only [State.writesMgmtCmd, reqNow_eq_some h, hw.1, hitsMgmtCmd_mono hm hw.2, BEq.rfl, Bool.and_self]

section
variable {s t : State}

theorem execPowerOn_keepsOr (q : execPowerOn s = .next t) : s.KeepsOr ((!s.power) = true) t := by
  cases q
  split
  · exact (State.Keeps.refl s).or
  · exact State.KeepsOr.coldStart.imp fun _ => by simp_all
theorem execMgmtColdStart_keepsOr (q : execMgmtColdStart s = .next t) : s.KeepsOr (true = true) t :=
  State.KeepsOr.event q (State.KeepsOr.mgmtCommand.imp fun _ => rfl)
theorem execRegisterWrite_keepsOr {a n v : ℕ} (q : execRegisterWrite a n v s = .next t) : s.KeepsOr (hitsMgmtCmd a n = true) t := by
  refine State.KeepsOr.event q ?_
  split
  · exact State.KeepsOr.winWrite.imp fun h => by rwa [length_toBytes] at h
  · exact (State.Keeps.refl s).or
theorem execHomeStoreArrive_keepsOr {n : ℕ} {install : Bool} (q : execHomeStoreArrive n install s = .next t) :
    s.KeepsOr (s.writesMgmtCmd n = true) t := by
  refine State.KeepsOr.event q ?_
  have h := State.Keeps.refl s
  split
  · exact h.or
  rename_i r hr
  extract_lets go
  have hgo (data : List Byte) : s.KeepsOr (s.writesMgmtCmd n = true) (go data) := by
    unfold go
    split
    · exact (State.Keeps.atHome (fun _ hy => hy.dropPassing.pend.modReq) h).or
    · exact State.KeepsOr.outside.imp fun hw => writesMgmtCmd_of hr (Nat.le_max_right _ _) hw
  split
  · exact hgo _
  · exact hgo _
  · exact h.or
theorem execHomeAtomic_keepsOr {n : ℕ} (q : execHomeAtomic n s = .next t) : s.KeepsOr (s.writesMgmtCmd n = true) t := by
  refine State.KeepsOr.event q ?_
  have h := State.Keeps.refl s
  split
  · exact h.or
  rename_i r hr
  extract_lets _ go
  have hgo (hl : ∀ old, (r.atomBytes old).length = r.size) : s.KeepsOr (s.writesMgmtCmd n = true) go := by
    unfold go
    split
    · refine (State.Keeps.atHome (fun y hy => ?_) h).or
      dsimp only
      split
      · exact hy.askUnit.modReq
      split
      · exact hy.answer
      · exact hy.dropPassing.dropCopies.toMsc.pend.noteWrite.modReq
    · exact State.KeepsOr.outside.imp fun hw => writesMgmtCmd_of hr (by rw [hl]; exact Nat.le_max_left _ _) hw
  split
  · rename_i hk
    exact hgo fun old => by simp only [Req.atomBytes, hk, length_toBytes]
  · rename_i hk
    exact hgo fun old => by simp only [Req.atomBytes, hk, length_toBytes]
  · exact h.or

end
end Sys2Proof.Machine
end

section
/-! SUPPORT. What any instruction or event keeps, and what it leaves where a cold start may begin. -/
namespace Sys2Proof.Machine
-- One declaration at a time: the joined text elaborates hundreds of short proofs here, and a worker thread for each is more
-- memory than the check allows.
set_option Elab.async false
/-- An instruction with an encoding keeps GT and the form of the memories: only events begin a cold start. -/
theorem exec_keeps_of_encode {i : Instr} {s t : State} (he : encode i ≠ []) (q : exec i s = .next t) : s.Keeps t := by
  have h := State.Keeps.refl s
  cases i with
  | clauseStart => exact execClauseStart_keeps q h
  | iadd | isub | imul | imad => exact State.Keeps.issue q (fun _ _ h => lanewiseE_keeps h) (fun _ _ _ => affSpan_keeps) h
  | imulhi | imulhn | ishr | isra | imin | imax | iminn | imaxn | iabs =>
    exact State.Keeps.issue q (fun _ _ h => lanewiseE_keeps h) (fun _ _ _ => uniSpanE_keeps) h
  | iand | ior | ixor | clz | popc | brev | bfe | bfi | intlv2 | intlv3 | packb | permb =>
    exact State.Keeps.issue q (fun _ _ h => lanewise_keeps h) (fun _ _ _ => uniSpan_keeps) h
  | ishl => exact execIshl_keeps q h
  | mov | movs | movi | movhi => exact State.Keeps.issue q (fun _ _ h => lanewise_keeps h) (fun _ _ h => trivial) h
  | icmp => exact execIcmp_keeps q h
  | iaddi => exact execIaddi_keeps q h
  | ishli => exact execIshli_keeps q h
  | idx => exact execIdx_keeps q h
  | sread => exact execSread_keeps q h
  | mater => exact execMater_keeps q h
  | spanq | getmode | sadd | ssub | smul | smulh | sand | sor | sxor | sshl | sshr | ssra | smin | smax | scmp | ssel | smov
    | smovi | saddImm | smovhi =>
    exact State.Keeps.issue q (fun _ _ h => h.modRegs) (fun _ _ h => trivial) h
  | setmodeReg => exact execSetmodeReg_keeps q h
  | setmodeImm => exact execSetmodeImm_keeps q h
  | isel => exact execIsel_keeps q h
  | pand | por | pxor | pandn => exact State.Keeps.issue q (fun _ _ h => predwise_keeps h) (fun _ _ _ => predSpan_keeps) h
  | pcnt | ptos | shflIdx | shflUp | shflDn | shflXor | shflUpw | shflDnw | shflXorw | qswap | ballot | vmatch | csrr =>
    exact State.Keeps.issue q (fun _ _ h => h.modRegs) (fun _ _ _ => matSpan_keeps) h
  | pfirst | vote => exact State.Keeps.issue q (fun _ _ h => predwise_keeps h) (fun _ _ _ => matSpan_keeps) h
  | stop => exact State.Keeps.issue q (fun _ _ h => State.Keeps.ite h h.modRegs) (fun _ _ _ => matSpan_keeps) h
  | fadd | fsub | fmul | fmad | fmsb | fmin | fmax | fneg | fabs | fclass | frndi | fscale | fdot2 =>
    exact State.Keeps.issue q (fun _ _ h => floatFx_keeps h) (fun _ _ h => floatSpan_keeps h) h
  | fcmp => exact execFcmp_keeps q h
  | cvt => exact cvtOp_keeps q h
  | cvti => exact execCvti_keeps q h
  | qcvt | rcp | rsq | sqrt | exp2 | log2 | sint | cost | tanh =>
    exact State.Keeps.issue q (fun _ _ h => longFloat_keeps h) (fun _ _ _ => matSpan_keeps) h
  | setseed => exact State.Keeps.issue q (fun _ _ h => h.modGroup) (fun _ _ _ => matSpan_keeps) h
  | qddx | qddy => exact State.Keeps.issue q (fun _ _ h => floatFx_keeps h) (fun _ _ _ => matSpan_keeps) h
  | redlog | scanlog => exact State.Keeps.issue q (fun _ _ h => redFx_keeps h) (fun _ _ _ => matSpan_keeps) h
  | rdfirst => exact execRdfirst_keeps q h
  | rdlane => exact execRdlane_keeps q h
  | vmatchf => exact State.Keeps.issue q (fun _ _ h => h.modRegs.raised) (fun _ _ _ => matSpan_keeps) h
  | mendl => exact State.Keeps.issue q (fun _ _ h => maskGroup_keeps h) (fun _ _ h => h.siMendl) h
  | bra => exact execBra_keeps q h
  | brz => exact execBrz_keeps q h
  | brnz => exact execBrnz_keeps q h
  | call => exact execCall_keeps q h
  | mif => exact State.Keeps.issue q (fun _ _ h => maskGroup_keeps h) (fun _ _ h => h.siMif) h
  | melse => exact State.Keeps.issue q (fun _ _ h => maskGroup_keeps h) (fun _ _ _ => State.Keeps.siMelse) h
  | mbrk => exact State.Keeps.issue q (fun _ _ h => maskGroup_keeps h) (fun _ _ h => h.siMbrk) h
  | mcont => exact State.Keeps.issue q (fun _ _ h => maskGroup_keeps h) (fun _ _ h => h.siMcont) h
  | ld | lds | sts | ldl | stl | ldc | stc | ldp | stp | atom | atoml | atomc | redst | redc | tagset | tagget | cacheop
    | acqw | rbox | rtri =>
    exact State.Keeps.issue q (fun _ _ h => h.giAccess) (fun _ _ _ => matSpan_keeps) h
  | st => exact State.Keeps.issue q (fun _ _ h => h.giAccess) (fun _ _ h => h.siStore) h
  | fence => exact State.Keeps.issue q (fun _ _ h => fenceBody_keeps h) (fun _ _ _ => matSpan_keeps) h
  | xfence => exact State.Keeps.issue q (fun _ _ h => xfenceBody_keeps h) (fun _ _ _ => matSpan_keeps) h
  | bar => exact State.Keeps.issue q (fun _ _ h => barBody_keeps h) (fun _ _ _ => barSpan_keeps) h
  | bararr => exact execBararr_keeps q h
  | barwait => exact State.Keeps.issue q (fun _ _ h => barwaitBody_keeps h) (fun _ _ _ => matSpan_keeps) h
  | bcinit => exact execBcinit_keeps q h
  | bcwait => exact State.Keeps.issue q (fun _ _ h => bcwaitBody_keeps h) (fun _ _ _ => matSpan_keeps) h
  | cpyk => exact execCpyk_keeps q h
  | claim | unpin | pref | route | xdone => exact State.Keeps.issue q (fun _ _ h => h.giStartOp) (fun _ _ _ => matSpan_keeps) h
  | pin => exact State.Keeps.issue q (fun _ _ h => pinBody_keeps h) (fun _ _ _ => matSpan_keeps) h
  | pubw => exact execPubw_keeps q h
  | mbxsend => exact execMbxsend_keeps q h
  | mbxrecv => exact State.Keeps.issue q (fun _ _ h => mbxrecvBody_keeps h) (fun _ _ _ => matSpan_keeps) h
  | spawn => exact execSpawn_keeps q h
  | tdesc => exact execTdesc_keeps q h
  | azero | amov => exact State.Keeps.issue q (fun _ _ h => h.giCommand) (fun _ _ _ => matSpan_keeps) h
  | mma | mmabs => exact State.Keeps.issue q (fun _ _ h => h.giProduct) (fun _ _ _ => matSpan_keeps) h
  | mmap => exact execMmap_keeps q h
  | aload => exact execAload_keeps q h
  | adrain => exact execAdrain_keeps q h
  | agdrain => exact execAgdrain_keeps q h
  | astash => exact execAstash_keeps q h
  | hcfg => exact State.Keeps.issue q (fun _ _ h => hcfgBody_keeps h) (fun _ _ _ => matSpan_keeps) h
  | hgather | hscatter => exact State.Keeps.issue q (fun _ _ h => h.giHash) (fun _ _ _ => matSpan_keeps) h
  | draw => exact State.Keeps.issue q (fun _ _ h => drawBody_keeps h) (fun _ _ _ => matSpan_keeps) h
  | ordent => exact State.Keeps.issue q (fun _ _ h => ordentBody_keeps h) (fun _ _ _ => matSpan_keeps) h
  | ordexit => exact State.Keeps.issue q (fun _ _ h => h.leaveSection) (fun _ _ _ => matSpan_keeps) h
  | tsamp => exact State.Keeps.issue q (fun _ _ h => tsampBody_keeps h) (fun _ _ _ => matSpan_keeps) h
  | regroup => exact State.Keeps.issue q (fun _ _ h => regroupBody_keeps h) (fun _ _ _ => matSpan_keeps) h
  | csrw => exact State.Keeps.issue q (fun _ _ h => h.csrWrite) (fun _ _ _ => matSpan_keeps) h
  | trap | trapu => exact State.Keeps.issue q (fun _ _ h => h.raise) (fun _ _ _ => matSpan_keeps) h
  | hret => exact State.Keeps.issue q (fun _ _ h => h.giHret) (fun _ _ _ => matSpan_keeps) h
  | pyield => exact State.Keeps.issue q (fun _ _ h => pyieldBody_keeps h) (fun _ _ _ => matSpan_keeps) h
  | bkpt => exact State.Keeps.issue q (fun _ _ h => h) (fun _ _ _ => matSpan_keeps) h
  | nop => exact State.Keeps.issue q (fun _ _ h => h) (fun _ _ h => trivial) h
  | exit => exact State.Keeps.issue q (fun _ _ h => exitBody_keeps h) (fun _ _ h => exitSpan_keeps h) h
  | ret | jmps => exact jumpReg_keeps q h
  | mend => exact State.Keeps.issue q (fun _ _ h => maskGroup_keeps h) (fun _ _ h => h.siMend) h
  | mloop => exact State.Keeps.issue q (fun _ _ h => maskGroup_keeps h) (fun _ _ h => h.siMloop) h
  | _ => exact absurd rfl he
/-- What the turn of an instruction or event leaves: GT as it was, or 0 where a cold start may begin. -/
theorem exec_keepsOr {i : Instr} {s t : State} (q : exec i s = .next t) : s.KeepsOr (s.mayStartCold i = true) t := by
  by_cases he : encode i = []
  case neg => exact (exec_keeps_of_encode he q).or
  have h := State.Keeps.refl s
  cases i with
  | matrixCommandStart => exact (execMatrixCommandStart_keeps q h).or
  | drawQueue => exact (execDrawQueue_keeps q h).or
  | ordentAdmit => exact (execOrdentAdmit_keeps q h).or
  | ordexitRelease => exact (execOrdexitRelease_keeps q h).or
  | regroupRoundClose => exact (execRegroupRoundClose_keeps q h).or
  | teamExpand => exact (execTeamExpand_keeps q h).or
  | longOpComplete => exact (execLongOpComplete_keeps q h).or
  | wWaitSatisfied => exact (execWWaitSatisfied_keeps q h).or
  | bararrArrive => exact (execBararrArrive_keeps q h).or
  | mbxDeliver => exact (execMbxDeliver_keeps q h).or
  | mbxrecvTake => exact (execMbxrecvTake_keeps q h).or
  | pubwStore => exact (execPubwStore_keeps q h).or
  | copyRequestExecute => exact (execCopyRequestExecute_keeps q h).or
  | copyElementWrite => exact (execCopyElementWrite_keeps q h).or
  | homeRead => exact (execHomeRead_keeps q h).or
  | homeStoreArrive => exact execHomeStoreArrive_keepsOr q
  | homeStorePerform => exact (execHomeStorePerform_keeps q h).or
  | homeAtomic => exact execHomeAtomic_keepsOr q
  | scratchpadBankOp => exact (execScratchpadBankOp_keeps q h).or
  | louvreFilterSwap => exact (execLouvreFilterSwap_keeps q h).or
  | pageWalk => exact (execPageWalk_keeps q h).or
  | mvRecheck => exact (execMvRecheck_keeps q h).or
  | faultQueueWrite => exact (execFaultQueueWrite_keeps q h).or
  | trapHandlerEntry => exact (execTrapHandlerEntry_keeps q h).or
  | groupEnd => exact (execGroupEnd_keeps q h).or
  | launchSubmit => exact (execLaunchSubmit_keeps q h).or
  | placePiece => exact (execPlacePiece_keeps q h).or
  | ctxEnable => exact (execCtxEnable_keeps q h).or
  | ctxDisable => exact (execCtxDisable_keeps q h).or
  | ctxRelease => exact (execCtxRelease_keeps q h).or
  | kickReplay => exact (execKickReplay_keeps q h).or
  | kickResolve => exact (execKickResolve_keeps q h).or
  | kickFrameTick => exact (execKickFrameTick_keeps q h).or
  | kickSuspend => exact (execKickSuspend_keeps q h).or
  | kickResume => exact (execKickResume_keeps q h).or
  | kickDiscard => exact (execKickDiscard_keeps q h).or
  | replayBegin => exact (execReplayBegin_keeps q h).or
  | nodeLaunch => exact (execNodeLaunch_keeps q h).or
  | nodeBackgroundLaunch => exact (execNodeBackgroundLaunch_keeps q h).or
  | nodeCopy => exact (execNodeCopy_keeps q h).or
  | nodeDraw => exact (execNodeDraw_keeps q h).or
  | nodeSignal => exact (execNodeSignal_keeps q h).or
  | nodeWait => exact (execNodeWait_keeps q h).or
  | waitNodePoll => exact (execWaitNodePoll_keeps q h).or
  | nodeComplete => exact (execNodeComplete_keeps q h).or
  | frameTick => exact (execFrameTick_keeps q h).or
  | budgetExpire => exact (execBudgetExpire_keeps q h).or
  | preemptEntry => exact (execPreemptEntry_keeps q h).or
  | teamSave => exact (execTeamSave_keeps q h).or
  | preemptTimeoutExpire => exact (execPreemptTimeoutExpire_keeps q h).or
  | ordTimeoutExpire => exact (execOrdTimeoutExpire_keeps q h).or
  | teamResume => exact (execTeamResume_keeps q h).or
  | rasterDrawStart => exact (execRasterDrawStart_keeps q h).or
  | fragmentRegister => exact (execFragmentRegister_keeps q h).or
  | rastTestAndWrite => exact (execRastTestAndWrite_keeps q h).or
  | drawEnd => exact (execDrawEnd_keeps q h).or
  | linkFlitReceive => exact (execLinkFlitReceive_keeps q h).or
  | linkRetryTimeout => exact (execLinkRetryTimeout_keeps q h).or
  | routeSwitch => exact (execRouteSwitch_keeps q h).or
  | warmResetRequest => exact (execWarmResetRequest_keeps q h).or
  | warmResetStart => exact (execWarmResetStart_keeps q h).or
  | warmResetQuiesce => exact (execWarmResetQuiesce_keeps q h).or
  | warmResetRetrain => exact (execWarmResetRetrain_keeps q h).or
  | warmResetAdmit => exact (execWarmResetAdmit_keeps q h).or
  | barchanWindowEnd => exact (execBarchanWindowEnd_keeps q h).or
  | barchanPublish => exact (execBarchanPublish_keeps q h).or
  | xtableEnable => exact (execXtableEnable_keeps q h).or
  | xtableDisable => exact (execXtableDisable_keeps q h).or
  | xtableRefresh => exact (execXtableRefresh_keeps q h).or
  | mapStageA => exact (execMapStageA_keeps q h).or
  | mapStageB => exact (execMapStageB_keeps q h).or
  | mapApply => exact (execMapApply_keeps q h).or
  | mapApplySwitch => exact (execMapApplySwitch_keeps q h).or
  | retireStack => exact (execRetireStack_keeps q h).or
  | retireCellStart => exact (execRetireCellStart_keeps q h).or
  | retireRowCopy => exact (execRetireRowCopy_keeps q h).or
  | retireCellSwitch => exact (execRetireCellSwitch_keeps q h).or
  | unitRequest => exact (execUnitRequest_keeps q h).or
  | caravanMoveStart => exact (execCaravanMoveStart_keeps q h).or
  | caravanPageCopy => exact (execCaravanPageCopy_keeps q h).or
  | caravanMoveEnd => exact (execCaravanMoveEnd_keeps q h).or
  | caravanFreetailWrite => exact (execCaravanFreetailWrite_keeps q h).or
  | caravanEpochEnd => exact (execCaravanEpochEnd_keeps q h).or
  | pageCountForward => exact (execPageCountForward_keeps q h).or
  | hostMemAccess => exact (execHostMemAccess_keeps q h).or
  | peerInboundAccess => exact (execPeerInboundAccess_keeps q h).or
  | powerOn => exact execPowerOn_keepsOr q
  | mgmtAttest => exact (execMgmtAttest_keeps q h).or
  | mgmtReadCert => exact (execMgmtReadCert_keeps q h).or
  | mgmtRaiseSvn => exact (execMgmtRaiseSvn_keeps q h).or
  | mgmtWarmStart => exact (execMgmtWarmStart_keeps q h).or
  | mgmtColdStart => exact execMgmtColdStart_keepsOr q
  | mgmtWriteFlash => exact (execMgmtWriteFlash_keeps q h).or
  | keyGenerate => exact (execKeyGenerate_keeps q h).or
  | keyDestroy => exact (execKeyDestroy_keeps q h).or
  | keyQuery => exact (execKeyQuery_keeps q h).or
  | keyDiscardDone => exact (execKeyDiscardDone_keeps q h).or
  | monitorSample => exact (execMonitorSample_keeps q h).or
  | registerWrite => exact execRegisterWrite_keepsOr q
  | ctxcmdComplete => exact (execCtxcmdComplete_keeps q h).or
  | mgmtCommandComplete => exact (execMgmtCommandComplete_keeps q h).or
  | keyGenerateComplete => exact (execKeyGenerateComplete_keeps q h).or
  | startStepComplete => exact (execStartStepComplete_keeps q h).or
  | peerLinkTrain => exact (execPeerLinkTrain_keeps q h).or
  | _ => exact absurd he (List.cons_ne_nil _ _)
end Sys2Proof.Machine
end

section
/-! SUPPORT. Turns and steps: only what decodes is issued, and time passes with every turn but an overdue one (R18). -/
namespace Sys2Proof.Machine
-- One declaration at a time: the joined text elaborates hundreds of short proofs here, and a worker thread for each is more
-- memory than the check allows.
set_option Elab.async false

/-- What decodes has an encoding. -/
theorem encode_ne_nil_of_decode {w n : ℕ} {v : Option ℕ} {i : Instr} (h : decode w v = .instr i n) : encode i ≠ [] := by
  obtain ⟨-, ⟨-, hc⟩ | ⟨u, -, -, -, hc⟩⟩ := decode_eq_instr_iff.mp h
  · rw [(checkCand_eq_instr_iff.mp hc).2.2.1]
    exact List.cons_ne_nil _ _
  · rw [(checkCand_eq_instr_iff.mp hc).2.2.1]
    exact List.cons_ne_nil _ _
theorem encode_ne_nil_of_decodeNext {w : ℕ} {v : Option ℕ} {i : Instr} (h : decodeNext w v = .run i) : encode i ≠ [] := by
  unfold decodeNext at h
  cases hd : decode w v with
  | reject r =>
    rw [hd] at h
    cases h
  | instr j n =>
    rw [hd] at h
    cases h
    exact encode_ne_nil_of_decode hd
theorem encode_ne_nil_of_nextOf {p : Pos} {len : ℕ} {first rest : ℕ → Fetched} {i : Instr} (h : nextOf p len first rest = .run i) :
    encode i ≠ [] := by
  unfold nextOf at h
  split at h
  · cases h
  · cases h
  · cases h
  · cases h
  split at h
  · split at h
    · exact encode_ne_nil_of_decodeNext h
    · cases h
  split at h
  · split at h
    · exact encode_ne_nil_of_decodeNext h
    · cases h
    · cases h
    · cases h
    · cases h
  · exact encode_ne_nil_of_decodeNext h
/-- A group issues only what decodes. -/
theorem encode_ne_nil_of_groupIssue {s u : State} {gid : ℕ} {i : Instr} (h : s.groupIssue gid = (some i, u)) : encode i ≠ [] := by
  unfold State.groupIssue at h
  split at h
  · cases h
  split at h
  · cases h
  split at h
  · cases h
    exact encode_ne_nil_of_nextOf ‹_›
  all_goals cases h
/-- A due event beyond an instruction begins no cold start. -/
theorem runGo_keeps {x : Run} {s t : State} (q : x.go s = .next t) : s.Keeps t := by
  have h := State.Keeps.refl s
  cases x with
  | instr i =>
    cases q
    exact h
  | drawStart d r => exact execRasterDrawStart_keeps q h
  | fragment d r => exact execFragmentRegister_keeps q h
  | rast d r => exact execRastTestAndWrite_keeps q h
  | drawEnd d r => exact execDrawEnd_keeps q h
  | flit l => exact execLinkFlitReceive_keeps q h
  | resend l => exact execLinkRetryTimeout_keeps q h
  | reroute a b => exact execRouteSwitch_keeps q h
  | warmStart d => exact execWarmResetStart_keeps q h
  | warmQuiesce d => exact execWarmResetQuiesce_keeps q h
  | warmRetrain d => exact execWarmResetRetrain_keeps q h
  | warmAdmit d => exact execWarmResetAdmit_keeps q h
  | window => exact execBarchanWindowEnd_keeps q h
  | publish n => exact execBarchanPublish_keeps q h
  | mapSwitch r => exact execMapApplySwitch_keeps q h
  | cellStart c => exact execRetireCellStart_keeps q h
  | rowCopy c => exact execRetireRowCopy_keeps q h
  | cellSwitch c => exact execRetireCellSwitch_keeps q h
  | unit n => exact execUnitRequest_keeps q h
  | moveStart e => exact execCaravanMoveStart_keeps q h
  | pageCopy e => exact execCaravanPageCopy_keeps q h
  | moveEnd e => exact execCaravanMoveEnd_keeps q h
  | epoch e => exact execCaravanEpochEnd_keeps q h
  | forward e => exact execPageCountForward_keeps q h
  | keyDone k => exact execKeyDiscardDone_keeps q h
  | ctxDone => exact execCtxcmdComplete_keeps q h
  | mgmtDone => exact execMgmtCommandComplete_keeps q h
  | mgmtRun v =>
    dsimp only [Run.go] at q
    split at q
    · exact execMgmtAttest_keeps q h
    · exact execMgmtReadCert_keeps q h
    · exact execMgmtRaiseSvn_keeps q h
    · exact execMgmtWriteFlash_keeps q h
  | keyGenDone k => exact execKeyGenerateComplete_keeps q h
  | start => exact execStartStepComplete_keeps q h
  | late g =>
    dsimp only [Run.go] at q
    exact State.Keeps.event q (fun _ hy => hy.lateTurn) h
/-- What a selected turn leaves: GT as it was, or 0 after an instruction or event that may begin a cold start. -/
theorem runTurn_keepsOr {r : Option Run × State} {t : State} (q : State.runTurn r = .next t) :
    r.2.KeepsOr (∃ i u, r = (some (.instr i), u) ∧ u.mayStartCold i = true) t := by
  obtain ⟨_ | x, u⟩ := r
  · cases q
    exact (State.Keeps.refl _).or
  by_cases hx : ∃ i, x = .instr i
  · obtain ⟨i, rfl⟩ := hx
    exact (exec_keepsOr q).imp fun hc => ⟨i, u, rfl, hc⟩
  · refine State.Keeps.or (runGo_keeps (x := x) ?_)
    cases x with
    | instr i => exact absurd ⟨i, rfl⟩ hx
    | _ => exact q
/-- An overdue group's turn begins no cold start, since it executes what decodes. -/
theorem runTurn_forced_keeps {s t : State} {gid : ℕ} (q : State.runTurn (s.forced gid) = .next t) : s.Keeps t := by
  have hf : s.Keeps (s.forced gid).2 := (State.Keeps.refl s).forced
  unfold State.forced asRun at q hf
  cases hi : ((s.modGroup gid fun g => { g with lastIssue := s.gtOf g.core }).groupIssue gid).1 with
  | none =>
    rw [hi] at q
    cases q
    exact hf
  | some i =>
    rw [hi] at q
    exact hf.trans (exec_keeps_of_encode (encode_ne_nil_of_groupIssue (Prod.ext hi rfl)) q)
/-- Time passes; the memories keep their form. -/
theorem tick_gt (s : State) : s.tick.gt = s.gt + s.delays.headD 1 := rfl
theorem tick_canonical {s : State} (h : s.Canonical) : s.tick.Canonical :=
  ((State.Keeps.refl s).charge (n := s.delays.headD 1)).form h

/-- Settles O6: an overdue group's turn keeps GT; any other comes after the time of the step, and keeps GT unless it may begin a
cold start; every operation keeps the form of the memories. -/
theorem stepKeepsTimeAndMemoryForm : Obligations.StepKeepsTimeAndMemoryForm := by
  unfold Obligations.StepKeepsTimeAndMemoryForm
  intro s t q
  unfold step at q
  split at q
  · cases q
  split at q
  · rename_i g hg
    obtain ⟨hp, ho⟩ : s.power = true ∧ s.overdue = some g := by
      split at hg
      · exact ⟨‹_›, hg⟩
      · cases hg
    have hk := runTurn_forced_keeps q
    exact ⟨fun _ _ => hk.gt, fun hn => absurd ⟨hp, by rw [ho]; rfl⟩ hn, hk.form⟩
  · rename_i hn
    have hk := (runTurn_keepsOr q)
    have hs : s.tick.Keeps s.tick.select.2 := (State.Keeps.refl _).select
    refine ⟨fun hp ho => ?_, fun _ => ?_, fun hc => hk.form (hs.form (tick_canonical hc))⟩
    · rw [if_pos hp] at hn
      rw [hn] at ho
      cases ho
    · rw [← tick_gt, ← hs.gt]
      exact hk.gt
end Sys2Proof.Machine
end

section
/-! SUPPORT. LOSSX: what the register reads after a write of it, and the range of what it reads (R90). -/
namespace Sys2Proof.Machine

/-! ### An integer in an n-bit field -/

theorem wrapN_lt (i : Int) (n : Nat) : wrapN i n < 2 ^ n := by
  have hlt : i % ((2 ^ n : Nat) : Int) < ((2 ^ n : Nat) : Int) := Int.emod_lt_of_pos i (by positivity)
  unfold wrapN
  omega
/-- The two's complement reading of a number, put back in its field, is the number's low bits. -/
theorem wrapN_sgn (x n : Nat) : wrapN (sgn x n) n = x % 2 ^ n := by
  have hmod : sgn x n % ((2 ^ n : Nat) : Int) = ((x % 2 ^ n : Nat) : Int) := by
    unfold sgn
    split
    · exact (Int.natCast_mod _ _).symm
    · rw [Int.sub_emod_right, Int.natCast_mod]
  rw [wrapN, hmod, Int.toNat_natCast]

/-! ### What LOSSX reads (R90) -/

theorem csrValue_lossx_none {s : State} {c : Nat} (h : tget s.runs c = none) (g : Group) (d : Nat) :
    s.csrValue .lossx g d c = 0 := by
  simp [State.csrValue, h]
theorem csrValue_lossx_some {s : State} {c : Nat} {k : CtxRun} (h : tget s.runs c = some k) (g : Group) (d : Nat) :
    s.csrValue .lossx g d c = lossxWord k.lossx := by
  simp [State.csrValue, h]
/-- The bits of LOSSX above EXP read as zero, in a context with registers or without. -/
theorem csrValue_lossx_lt (s : State) (g : Group) (d c : Nat) : s.csrValue .lossx g d c < 256 := by
  cases h : tget s.runs c with
  | none => rw [csrValue_lossx_none h]; decide
  | some k => rw [csrValue_lossx_some h]; exact wrapN_lt k.lossx 8

/-! ### What a write leaves (R90) -/

theorem tget_modRun {s : State} {c : Nat} {k : CtxRun} (h : tget s.runs c = some k) (f : CtxRun → CtxRun) :
    tget (s.modRun c f).runs c = some (f k) := by
  rw [State.modRun, tmod_eq _ _ _ _ h, tget_tput]
theorem writeLossx_of_inRange {v : Nat} (hv : -64 ≤ sgn (v % 256) 8 ∧ sgn (v % 256) 8 ≤ 64) (s : State) (c : Nat) :
    s.writeLossx c v = s.modRun c fun r => { r with lossx := sgn (v % 256) 8 } := if_pos hv
theorem writeLossx_of_not_inRange {v : Nat} (hv : ¬ (-64 ≤ sgn (v % 256) 8 ∧ sgn (v % 256) 8 ≤ 64)) (s : State) (c : Nat) :
    s.writeLossx c v = s := if_neg hv
/-- LOSSX after a write: EXP as written if it is in range, else what the register held. -/
theorem csrValue_lossx_writeLossx {s : State} {c : Nat} {k : CtxRun} (h : tget s.runs c = some k) (g : Group) (d v : Nat) :
    (s.writeLossx c v).csrValue .lossx g d c =
      if -64 ≤ sgn (v % 256) 8 ∧ sgn (v % 256) 8 ≤ 64 then v % 256 else s.csrValue .lossx g d c := by
  split
  case isTrue hv =>
    rw [writeLossx_of_inRange hv, csrValue_lossx_some (tget_modRun h _), lossxWord, wrapN_sgn]
    exact Nat.mod_mod v 256
  case isFalse hv => rw [writeLossx_of_not_inRange hv]

/-- Settles O12: a write in range reads back as EXP and any other leaves the register; what is read fits EXP's field, and is 0
where the context has no registers. -/
theorem lossScaleRegister : Obligations.LossScaleRegister := by
  unfold Obligations.LossScaleRegister
  intro s g k c d gid tid v hk
  exact ⟨csrValue_lossx_writeLossx hk g d v, csrValue_lossx_lt s g d c, csrValue_lossx_none rfl g d⟩

end Sys2Proof.Machine
end

section
/-! SUPPORT. The words of a well-formed instruction decode to it (R93 to R104): each field of a word format reads back as it was
written, each code of an option field names what it was written for, and so the candidate that a word gives is its instruction. -/
namespace Sys2Proof

/-! ### Codes of option fields -/

theorem Cond.ofCode_eq_some_iff {n : Nat} {c : Cond} : Cond.ofCode n = some c ↔ n = c.code := by
  constructor
  · unfold Cond.ofCode
    split <;> rintro ⟨⟩ <;> rfl
  · rintro rfl
    cases c <;> rfl
theorem ICond.ofCode_eq_some_iff {n : Nat} {c : ICond} : ICond.ofCode n = some c ↔ n = c.code := by
  constructor
  · unfold ICond.ofCode
    split <;> rintro ⟨⟩ <;> rfl
  · rintro rfl
    cases c <;> rfl
theorem FCond.ofCode_eq_some_iff {n : Nat} {c : FCond} : FCond.ofCode n = some c ↔ n = c.code := by
  constructor
  · unfold FCond.ofCode
    split <;> rintro ⟨⟩ <;> rfl
  · rintro rfl
    cases c <;> rfl
theorem SCond.ofCode_eq_some_iff {n : Nat} {c : SCond} : SCond.ofCode n = some c ↔ n = c.code := by
  constructor
  · unfold SCond.ofCode
    split <;> rintro ⟨⟩ <;> rfl
  · rintro rfl
    cases c <;> rfl
theorem IdxSel.ofCode_eq_some_iff {n : Nat} {c : IdxSel} : IdxSel.ofCode n = some c ↔ n = c.code := by
  constructor
  · unfold IdxSel.ofCode
    split <;> rintro ⟨⟩ <;> rfl
  · rintro rfl
    cases c <;> rfl
theorem SrSel.ofCode_eq_some_iff {n : Nat} {c : SrSel} : SrSel.ofCode n = some c ↔ n = c.code := by
  constructor
  · unfold SrSel.ofCode
    split <;> rintro ⟨⟩ <;> rfl
  · rintro rfl
    cases c <;> rfl
theorem EType.ofCode_eq_some_iff {n : Nat} {c : EType} : EType.ofCode n = some c ↔ n = c.code := by
  constructor
  · unfold EType.ofCode
    split <;> rintro ⟨⟩ <;> rfl
  · rintro rfl
    cases c <;> rfl
theorem Rnd.ofCode_eq_some_iff {n : Nat} {c : Rnd} : Rnd.ofCode n = some c ↔ n = c.code := by
  constructor
  · unfold Rnd.ofCode
    split <;> rintro ⟨⟩ <;> rfl
  · rintro rfl
    cases c <;> rfl
theorem Size.ofCode_eq_some_iff {n : Nat} {c : Size} : Size.ofCode n = some c ↔ n = c.code := by
  constructor
  · unfold Size.ofCode
    split <;> rintro ⟨⟩ <;> rfl
  · rintro rfl
    cases c <;> rfl
theorem Hint.ofCode_eq_some_iff {n : Nat} {c : Hint} : Hint.ofCode n = some c ↔ n = c.code := by
  constructor
  · unfold Hint.ofCode
    split <;> rintro ⟨⟩ <;> rfl
  · rintro rfl
    cases c <;> rfl
theorem AOp.ofCode_eq_some_iff {n : Nat} {c : AOp} : AOp.ofCode n = some c ↔ n = c.code := by
  constructor
  · unfold AOp.ofCode
    split <;> rintro ⟨⟩ <;> rfl
  · rintro rfl
    cases c <;> rfl
theorem AType.ofCode_eq_some_iff {n : Nat} {c : AType} : AType.ofCode n = some c ↔ n = c.code := by
  constructor
  · unfold AType.ofCode
    split <;> rintro ⟨⟩ <;> rfl
  · rintro rfl
    cases c <;> rfl
theorem Scope.ofCode_eq_some_iff {n : Nat} {c : Scope} : Scope.ofCode n = some c ↔ n = c.code := by
  constructor
  · unfold Scope.ofCode
    split <;> rintro ⟨⟩ <;> rfl
  · rintro rfl
    cases c <;> rfl
theorem Path.ofCode_eq_some_iff {n : Nat} {c : Path} : Path.ofCode n = some c ↔ n = c.code := by
  constructor
  · unfold Path.ofCode
    split <;> rintro ⟨⟩ <;> rfl
  · rintro rfl
    cases c <;> rfl
theorem PrefLvl.ofCode_eq_some_iff {n : Nat} {c : PrefLvl} : PrefLvl.ofCode n = some c ↔ n = c.code := by
  constructor
  · unfold PrefLvl.ofCode
    split <;> rintro ⟨⟩ <;> rfl
  · rintro rfl
    cases c <;> rfl
theorem CacheOp.ofCode_eq_some_iff {n : Nat} {c : CacheOp} : CacheOp.ofCode n = some c ↔ n = c.code := by
  constructor
  · unfold CacheOp.ofCode
    split <;> rintro ⟨⟩ <;> rfl
  · rintro rfl
    cases c <;> rfl
theorem QDir.ofCode_eq_some_iff {n : Nat} {c : QDir} : QDir.ofCode n = some c ↔ n = c.code := by
  constructor
  · unfold QDir.ofCode
    split <;> rintro ⟨⟩ <;> rfl
  · rintro rfl
    cases c <;> rfl
theorem RedOp.ofCode_eq_some_iff {n : Nat} {c : RedOp} : RedOp.ofCode n = some c ↔ n = c.code := by
  constructor
  · unfold RedOp.ofCode
    split <;> rintro ⟨⟩ <;> rfl
  · rintro rfl
    cases c <;> rfl
theorem VoteOp.ofCode_eq_some_iff {n : Nat} {c : VoteOp} : VoteOp.ofCode n = some c ↔ n = c.code := by
  constructor
  · unfold VoteOp.ofCode
    split <;> rintro ⟨⟩ <;> rfl
  · rintro rfl
    cases c <;> rfl
theorem TMode.ofCode_eq_some_iff {n : Nat} {c : TMode} : TMode.ofCode n = some c ↔ n = c.code := by
  constructor
  · unfold TMode.ofCode
    split <;> rintro ⟨⟩ <;> rfl
  · rintro rfl
    cases c <;> rfl
theorem Csr.ofNum_eq_some_iff {n : Nat} {c : Csr} : Csr.ofNum n = some c ↔ n = c.num := by
  constructor
  · unfold Csr.ofNum
    split <;> rintro ⟨⟩ <;> rfl
  · rintro rfl
    cases c <;> rfl
/-- A code that is no culling's reads as `none`, so that the converse fails: such a word encodes another one (R105). -/
theorem Cull.ofCode_code (c : Cull) : Cull.ofCode c.code = some c := by cases c <;> rfl
theorem Cond.code_lt (c : Cond) : c.code < 16 := by cases c <;> decide
theorem ICond.code_lt (c : ICond) : c.code < 4 := by cases c <;> decide
theorem FCond.code_lt (c : FCond) : c.code < 8 := by cases c <;> decide
theorem SCond.code_lt (c : SCond) : c.code < 4 := by cases c <;> decide
theorem IdxSel.code_lt (c : IdxSel) : c.code < 16 := by cases c <;> decide
theorem SrSel.code_lt (c : SrSel) : c.code < 16 := by cases c <;> decide
theorem EType.code_lt (c : EType) : c.code < 16 := by cases c <;> decide
theorem Rnd.code_lt (c : Rnd) : c.code < 8 := by cases c <;> decide
theorem Size.code_lt (c : Size) : c.code < 8 := by cases c <;> decide
theorem Hint.code_lt (c : Hint) : c.code < 4 := by cases c <;> decide
theorem AOp.code_lt (c : AOp) : c.code < 16 := by cases c <;> decide
theorem AType.code_lt (c : AType) : c.code < 4 := by cases c <;> decide
theorem Scope.code_lt (c : Scope) : c.code < 8 := by cases c <;> decide
theorem Path.code_lt (c : Path) : c.code < 8 := by cases c <;> decide
theorem PrefLvl.code_lt (c : PrefLvl) : c.code < 4 := by cases c <;> decide
theorem CacheOp.code_lt (c : CacheOp) : c.code < 4 := by cases c <;> decide
theorem QDir.code_lt (c : QDir) : c.code < 4 := by cases c <;> decide
theorem RedOp.code_lt (c : RedOp) : c.code < 16 := by cases c <;> decide
theorem VoteOp.code_lt (c : VoteOp) : c.code < 4 := by cases c <;> decide
theorem TMode.code_lt (c : TMode) : c.code < 4 := by cases c <;> decide
theorem Cull.code_lt (c : Cull) : c.code < 4 := by cases c <;> decide
theorem Csr.num_lt (c : Csr) : c.num < 4096 := by cases c <;> decide

/-! ### Fields (R99, R100) -/

theorem bit_eq_iff {w lo : Nat} {b : Bool} : bit w lo = b ↔ w / lo % 2 = b2n b := by
  unfold bit
  cases b <;> simp [b2n]
theorem b2n_lt (b : Bool) : b2n b < 2 := by cases b <;> decide
theorem unsx_lt (i : Int) {n : Nat} (hn : 0 < n) : unsx i n < n := by
  unfold unsx
  have := Int.emod_lt_of_pos i (Int.natCast_pos.mpr hn)
  have := Int.emod_nonneg i (Int.natCast_pos.mpr hn).ne'
  omega
/-- An integer in the range of its field reads back as it was written. -/
theorem sxt_unsx {i : Int} {n : Nat} (hl : -(n : Int) ≤ 2 * i) (hu : 2 * i < n) : sxt (unsx i n) n = i := by
  unfold sxt unsx
  rcases Int.lt_or_le i 0 with hi | hi
  · have hm : i % (n : Int) = i + n := by
      rw [← Int.add_emod_right]
      exact Int.emod_eq_of_lt (by omega) (by omega)
    rw [hm]
    split <;> omega
  · rw [Int.emod_eq_of_lt hi (by omega)]
    split <;> omega

/-! ### Candidates -/

theorem withCode_eq_ok_iff {α : Type} {o : Option α} {f : α → Instr} {i : Instr} :
    withCode o f = .ok i ↔ ∃ c, o = some c ∧ f c = i := by
  cases o <;> simp [withCode]
theorem withSize_eq_ok_iff {z h : Nat} {f : Size → Hint → Instr} {i : Instr} :
    withSize z h f = .ok i ↔ ∃ z' h', z = z'.code ∧ h = h'.code ∧ f z' h' = i := by
  unfold withSize
  cases hz : Size.ofCode z with
  | none => simp [← Size.ofCode_eq_some_iff, hz]
  | some z' => simp [← Size.ofCode_eq_some_iff, ← Hint.ofCode_eq_some_iff, hz, withCode_eq_ok_iff]
theorem withAtomic_of_codes {p : Nat} {op : AOp} {ty : AType} (ho : fld p 16384 16 = op.code) (ht : fld p 262144 4 = ty.code)
    (f : AOp → AType → Instr) : withAtomic p f = .ok (f op ty) := by
  simp only [withAtomic, withCode, AOp.ofCode_eq_some_iff.mpr ho, AType.ofCode_eq_some_iff.mpr ht]
theorem decAtomicWord_of_codes {maj w p : Nat} {z : Size} {h : Hint} (hz : fld w 8 8 = z.code) (hh : fld w 2 4 = h.code) :
    decAtomicWord maj w p = decAtomic maj w p z h := by
  simp only [decAtomicWord, Size.ofCode_eq_some_iff.mpr hz, Hint.ofCode_eq_some_iff.mpr hh]

/-! ### From a candidate to the decoder's answer (R98) -/

/-- The decoder gives an instruction back from its words. -/
def DecodesBack (i : Instr) : Prop := ∀ w ws, encode i = w :: ws → decode w ws.head? = .instr i (ws.length + 1)

theorem decodesBack_of_word {i : Instr} {w : Nat} (h : i.wf = true) (he : encode i = [w]) (hw : w < 4294967296)
    (ht : takesExt w = false) (hf : decFields w 0 = .ok i) : DecodesBack i := by
  intro v vs hv
  obtain ⟨rfl, rfl⟩ : w = v ∧ [] = vs := by simpa [he] using hv
  exact decode_eq_instr_iff.mpr ⟨hw, .inl ⟨ht, checkCand_eq_instr_iff.mpr ⟨hf, h, he, rfl⟩⟩⟩
theorem decodesBack_of_ext {i : Instr} {w p : Nat} (h : i.wf = true) (he : encode i = [w, wE p]) (hw : w < 4294967296)
    (hp : p < 67108864) (ht : takesExt w = true) (hf : decFields w p = .ok i) : DecodesBack i := by
  intro v vs hv
  obtain ⟨rfl, rfl⟩ : w = v ∧ [wE p] = vs := by simpa [he] using hv
  have hm : wE p / 67108864 = 0x3E := by unfold wE; omega
  have hl : fld (wE p) 1 67108864 = p := by unfold fld wE; omega
  exact decode_eq_instr_iff.mpr ⟨hw, .inr ⟨_, ht, rfl, hm, checkCand_eq_instr_iff.mpr ⟨by rw [hl, hf], h, he, rfl⟩⟩⟩
/-- An event has no words. -/
theorem decodesBack_of_event {i : Instr} (he : encode i = []) : DecodesBack i := by
  intro w ws hw
  rw [he] at hw
  cases hw

/-! ### V3 words -/

/-- Words of a major code decode from their V3 fields, and take no extension. -/
def ReadsV3 (maj : Nat) (f : Nat → Nat → Nat → Nat → Cand) : Prop :=
  maj < 64 ∧ ∀ w, w / 67108864 = maj → takesExt w = false ∧
    decFields w 0 = f (fld w 2097152 32) (fld w 16384 128) (fld w 128 128) (fld w 1 128)

theorem readsV3_vecInt : ReadsV3 0x01 decVecInt := ⟨by decide, fun w h => by simp only [takesExt, decFields, h, and_self]⟩
theorem readsV3_pred : ReadsV3 0x07 decPred := ⟨by decide, fun w h => by simp only [takesExt, decFields, h, and_self]⟩
theorem readsV3_float : ReadsV3 0x10 decFloat := ⟨by decide, fun w h => by simp only [takesExt, decFields, h, and_self]⟩
theorem readsV3_convert : ReadsV3 0x11 decConvert := ⟨by decide, fun w h => by simp only [takesExt, decFields, h, and_self]⟩
theorem readsV3_special : ReadsV3 0x13 fun m d a _ => decSpecial m d a := ⟨by decide, fun w h => by simp only [takesExt, decFields, h, and_self]⟩
theorem readsV3_cross : ReadsV3 0x14 decCross := ⟨by decide, fun w h => by simp only [takesExt, decFields, h, and_self]⟩

theorem ReadsV3.decodesBack {maj m d a b : Nat} {f : Nat → Nat → Nat → Nat → Cand} {i : Instr} (hr : ReadsV3 maj f)
    (h : i.wf = true) (he : encode i = [wV3 maj m d a b]) (hb : m < 32 ∧ d < 128 ∧ a < 128 ∧ b < 128) (hf : f m d a b = .ok i) :
    DecodesBack i := by
  obtain ⟨hmaj, hr⟩ := hr
  obtain ⟨ht, hd⟩ := hr (wV3 maj m d a b) (by unfold wV3; omega)
  refine decodesBack_of_word h he (by unfold wV3; omega) ht (hd.trans (Eq.trans ?_ hf))
  congr 1 <;> (unfold wV3 fld; omega)

/-! ### X words -/

theorem wX_major {maj m ops : Nat} (hb : m < 64 ∧ ops < 1048576) : wX maj m ops / 67108864 = maj := by
  unfold wX
  omega
theorem wX_minor {maj m ops : Nat} (hb : m < 64 ∧ ops < 1048576) : fld (wX maj m ops) 1048576 64 = m := by
  unfold wX fld
  omega
/-- Whether a word takes an extension, its major and minor codes say (R98, R102). -/
theorem takesExt_wX {maj m ops : Nat} (hb : m < 64 ∧ ops < 1048576) : takesExt (wX maj m ops) = takesExt (wX maj m 0) := by
  have h0 : m < 64 ∧ 0 < 1048576 := ⟨hb.1, by decide⟩
  simp only [takesExt, wX_major hb, wX_minor hb, wX_major h0, wX_minor h0]
/-- Words of a major code decode by their minor code, from the word and its extension. -/
def ReadsX (maj : Nat) (f : Nat → Nat → Nat → Cand) : Prop :=
  maj < 64 ∧ ∀ w p, w / 67108864 = maj → decFields w p = f (fld w 1048576 64) w p

theorem readsX_ident : ReadsX 0x06 fun m w _ => decIdent m w := ⟨by decide, fun w p h => by simp only [decFields, h]⟩
theorem readsX_quant : ReadsX 0x12 fun m w _ => decQuant m w := ⟨by decide, fun w p h => by simp only [decFields, h]⟩
theorem readsX_sync : ReadsX 0x2F decSync := ⟨by decide, fun w p h => by simp only [decFields, h]⟩
theorem readsX_matrix : ReadsX 0x30 decMatrix := ⟨by decide, fun w p h => by simp only [decFields, h]⟩
theorem readsX_hash : ReadsX 0x31 decHash := ⟨by decide, fun w p h => by simp only [decFields, h]⟩
theorem readsX_render : ReadsX 0x32 decRender := ⟨by decide, fun w p h => by simp only [decFields, h]⟩
theorem readsX_expert : ReadsX 0x33 fun m w _ => decExpert m w := ⟨by decide, fun w p h => by simp only [decFields, h]⟩
theorem readsX_system : ReadsX 0x34 fun m w _ => decSystem m w := ⟨by decide, fun w p h => by simp only [decFields, h]⟩
theorem readsX_control : ReadsX 0x35 fun m w _ => decControl m w := ⟨by decide, fun w p h => by simp only [decFields, h]⟩

section
variable {maj m ops : Nat} {f : Nat → Nat → Nat → Cand} {i : Instr}

theorem ReadsX.decFields_eq (hr : ReadsX maj f) (hb : m < 64 ∧ ops < 1048576) (p : Nat) :
    decFields (wX maj m ops) p = f m (wX maj m ops) p := by
  rw [hr.2 _ p (wX_major hb), wX_minor hb]
theorem ReadsX.word_lt (hr : ReadsX maj f) (hb : m < 64 ∧ ops < 1048576) : wX maj m ops < 4294967296 := by
  have := hr.1
  unfold wX
  omega
theorem ReadsX.decodesBack (hr : ReadsX maj f) (h : i.wf = true) (he : encode i = [wX maj m ops])
    (ht : takesExt (wX maj m 0) = false) (hb : m < 64 ∧ ops < 1048576) (hf : f m (wX maj m ops) 0 = .ok i) : DecodesBack i :=
  decodesBack_of_word h he (hr.word_lt hb) ((takesExt_wX hb).trans ht) ((hr.decFields_eq hb 0).trans hf)
theorem ReadsX.decodesBack_ext {p : Nat} (hr : ReadsX maj f) (h : i.wf = true) (he : encode i = [wX maj m ops, wE p])
    (ht : takesExt (wX maj m 0) = true) (hb : (m < 64 ∧ ops < 1048576) ∧ p < 67108864) (hf : f m (wX maj m ops) p = .ok i) :
    DecodesBack i :=
  decodesBack_of_ext h he (hr.word_lt hb.1) hb.2 ((takesExt_wX hb.1).trans ht) ((hr.decFields_eq hb.1 p).trans hf)

end

/-! ### S3, VI, VL, SI and B words -/

theorem wS3_major {m d a b sub : Nat} (hb : m < 64 ∧ d < 64 ∧ a < 64 ∧ b < 64 ∧ sub < 4) : wS3 m d a b sub / 67108864 = 0x08 := by
  unfold wS3
  omega
theorem decodesBack_of_wS3 {m d a b sub : Nat} {i : Instr} (h : i.wf = true) (he : encode i = [wS3 m d a b sub])
    (hb : m < 64 ∧ d < 64 ∧ a < 64 ∧ b < 64 ∧ sub < 4) (hf : decUniform m d a b sub = .ok i) : DecodesBack i := by
  refine decodesBack_of_word h he (by unfold wS3; omega) (by simp only [takesExt, wS3_major hb]) (Eq.trans ?_ hf)
  simp only [decFields, wS3_major hb]
  congr 1 <;> (unfold wS3 fld; omega)

/-- Words of a major code decode from their VI fields. -/
def ReadsVI (maj : Nat) (f : Nat → Nat → Nat → Instr) : Prop :=
  maj < 64 ∧ ∀ w, w / 67108864 = maj → takesExt w = false ∧
    decFields w 0 = .ok (f (fld w 524288 128) (fld w 4096 128) (fld w 1 4096))

theorem readsVI_iaddi : ReadsVI 0x02 fun d a x => .iaddi d a (sxt x 4096) :=
  ⟨by decide, fun w h => by simp only [takesExt, decFields, h, and_self]⟩
theorem readsVI_ishli : ReadsVI 0x03 .ishli := ⟨by decide, fun w h => by simp only [takesExt, decFields, h, and_self]⟩
theorem ReadsVI.decodesBack {maj d a x : Nat} {f : Nat → Nat → Nat → Instr} {i : Instr} (hr : ReadsVI maj f) (h : i.wf = true)
    (he : encode i = [wVI maj d a x]) (hb : d < 128 ∧ a < 128 ∧ x < 4096) (hf : f d a x = i) : DecodesBack i := by
  obtain ⟨hmaj, hr⟩ := hr
  obtain ⟨ht, hd⟩ := hr (wVI maj d a x) (by unfold wVI; omega)
  refine decodesBack_of_word h he (by unfold wVI; omega) ht (hd.trans (congrArg Except.ok (Eq.trans ?_ hf)))
  congr 1 <;> (unfold wVI fld; omega)

/-- Words of a major code decode from their VL fields. -/
def ReadsVL (maj : Nat) (f : Nat → Nat → Instr) : Prop :=
  maj < 64 ∧ ∀ w, w / 67108864 = maj → takesExt w = false ∧ decFields w 0 = .ok (f (fld w 524288 128) (fld w 1 524288))

theorem readsVL_movi : ReadsVL 0x04 fun d x => .movi d (sxt x 524288) :=
  ⟨by decide, fun w h => by simp only [takesExt, decFields, h, and_self]⟩
theorem readsVL_movhi : ReadsVL 0x05 .movhi := ⟨by decide, fun w h => by simp only [takesExt, decFields, h, and_self]⟩
theorem ReadsVL.decodesBack {maj d x : Nat} {f : Nat → Nat → Instr} {i : Instr} (hr : ReadsVL maj f) (h : i.wf = true)
    (he : encode i = [wVL maj d x]) (hb : d < 128 ∧ x < 524288) (hf : f d x = i) : DecodesBack i := by
  obtain ⟨hmaj, hr⟩ := hr
  obtain ⟨ht, hd⟩ := hr (wVL maj d x) (by unfold wVL; omega)
  refine decodesBack_of_word h he (by unfold wVL; omega) ht (hd.trans (congrArg Except.ok (Eq.trans ?_ hf)))
  congr 1 <;> (unfold wVL fld; omega)

/-- Words of a major code decode from their SI fields. -/
def ReadsSI (maj : Nat) (f : Nat → Nat → Nat → Instr) : Prop :=
  maj < 64 ∧ ∀ w, w / 67108864 = maj → takesExt w = false ∧
    decFields w 0 = .ok (f (fld w 1048576 64) (fld w 16384 64) (fld w 1 16384))

theorem readsSI_smovi : ReadsSI 0x09 fun d _ x => .smovi d (sxt x 16384) :=
  ⟨by decide, fun w h => by simp only [takesExt, decFields, h, and_self]⟩
theorem readsSI_saddImm : ReadsSI 0x0A fun d a x => .saddImm d a (sxt x 16384) :=
  ⟨by decide, fun w h => by simp only [takesExt, decFields, h, and_self]⟩
theorem readsSI_smovhi : ReadsSI 0x0B .smovhi := ⟨by decide, fun w h => by simp only [takesExt, decFields, h, and_self]⟩
theorem readsSI_lds : ReadsSI 0x22 fun d a x => .lds d a (sxt x 16384) :=
  ⟨by decide, fun w h => by simp only [takesExt, decFields, h, and_self]⟩
theorem readsSI_sts : ReadsSI 0x23 fun d a x => .sts d a (sxt x 16384) :=
  ⟨by decide, fun w h => by simp only [takesExt, decFields, h, and_self]⟩
theorem ReadsSI.decodesBack {maj d a x : Nat} {f : Nat → Nat → Nat → Instr} {i : Instr} (hr : ReadsSI maj f) (h : i.wf = true)
    (he : encode i = [wSI maj d a x]) (hb : d < 64 ∧ a < 64 ∧ x < 16384) (hf : f d a x = i) : DecodesBack i := by
  obtain ⟨hmaj, hr⟩ := hr
  obtain ⟨ht, hd⟩ := hr (wSI maj d a x) (by unfold wSI; omega)
  refine decodesBack_of_word h he (by unfold wSI; omega) ht (hd.trans (congrArg Except.ok (Eq.trans ?_ hf)))
  congr 1 <;> (unfold wSI fld; omega)

/-- Words of a major code decode from their B fields. -/
def ReadsB (maj : Nat) (f : Nat → Int → Cand) : Prop :=
  maj < 64 ∧ ∀ w, w / 67108864 = maj → takesExt w = false ∧
    decFields w 0 = f (fld w 4194304 16) (sxt (fld w 1 4194304) 4194304)

theorem readsB_mendl : ReadsB 0x17 fun _ o => .ok (.mendl o) := ⟨by decide, fun w h => by simp only [takesExt, decFields, h, and_self]⟩
theorem readsB_bra : ReadsB 0x18 fun c o => withCode (Cond.ofCode c) fun c => .bra c o :=
  ⟨by decide, fun w h => by simp only [takesExt, decFields, h, and_self]⟩
theorem readsB_brz : ReadsB 0x19 fun p o => .ok (.brz p o) := ⟨by decide, fun w h => by simp only [takesExt, decFields, h, and_self]⟩
theorem readsB_brnz : ReadsB 0x1A fun p o => .ok (.brnz p o) := ⟨by decide, fun w h => by simp only [takesExt, decFields, h, and_self]⟩
theorem readsB_call : ReadsB 0x1B fun _ o => .ok (.call o) := ⟨by decide, fun w h => by simp only [takesExt, decFields, h, and_self]⟩
theorem readsB_mif : ReadsB 0x1C fun p o => .ok (.mif p o) := ⟨by decide, fun w h => by simp only [takesExt, decFields, h, and_self]⟩
theorem readsB_melse : ReadsB 0x1D fun _ o => .ok (.melse o) := ⟨by decide, fun w h => by simp only [takesExt, decFields, h, and_self]⟩
theorem readsB_mbrk : ReadsB 0x1E fun p o => .ok (.mbrk p o) := ⟨by decide, fun w h => by simp only [takesExt, decFields, h, and_self]⟩
theorem readsB_mcont : ReadsB 0x1F fun p o => .ok (.mcont p o) := ⟨by decide, fun w h => by simp only [takesExt, decFields, h, and_self]⟩
theorem ReadsB.decodesBack {maj c : Nat} {o : Int} {f : Nat → Int → Cand} {i : Instr} (hr : ReadsB maj f) (h : i.wf = true)
    (he : encode i = [wB maj c o]) (hb : c < 16 ∧ -2097152 ≤ o ∧ o < 2097152) (hf : f c o = .ok i) : DecodesBack i := by
  obtain ⟨hmaj, hr⟩ := hr
  have hx := unsx_lt o (n := 4194304) (by decide)
  obtain ⟨ht, hd⟩ := hr (wB maj c o) (by unfold wB; omega)
  have hc : fld (wB maj c o) 4194304 16 = c := by unfold wB fld; omega
  have ho : fld (wB maj c o) 1 4194304 = unsx o 4194304 := by unfold wB fld; omega
  refine decodesBack_of_word h he (by unfold wB; omega) ht (hd.trans ?_)
  rw [hc, ho, sxt_unsx (by omega) (by omega), hf]

/-! ### M words -/

section
variable {maj d s o z h nr : Nat} (hb : d < 128 ∧ s < 64 ∧ o < 128 ∧ z < 8 ∧ h < 4 ∧ nr < 2)
include hb

theorem wM_major : wM maj d s o z h nr / 67108864 = maj := by unfold wM; omega
theorem wM_data : fld (wM maj d s o z h nr) 524288 128 = d := by unfold wM fld; omega
theorem wM_base : fld (wM maj d s o z h nr) 8192 64 = s := by unfold wM fld; omega
theorem wM_offset : fld (wM maj d s o z h nr) 64 128 = o := by unfold wM fld; omega
theorem wM_size : fld (wM maj d s o z h nr) 8 8 = z := by unfold wM fld; omega
theorem wM_hint : fld (wM maj d s o z h nr) 2 4 = h := by unfold wM fld; omega
theorem wM_nr : wM maj d s o z h nr / 1 % 2 = nr := by unfold wM; omega
theorem wM_lt (hmaj : maj < 64) : wM maj d s o z h nr < 4294967296 := by unfold wM; omega

end

/-- Words of a major code decode from their M fields, a size and a hint among them. -/
def ReadsM (maj : Nat) (f : Nat → Nat → Nat → Size → Hint → Bool → Instr) : Prop :=
  maj < 64 ∧ ∀ w, w / 67108864 = maj → takesExt w = false ∧ decFields w 0 =
    withSize (fld w 8 8) (fld w 2 4) fun z h => f (fld w 524288 128) (fld w 8192 64) (fld w 64 128) z h (bit w 1)

theorem readsM_ld : ReadsM 0x20 .ld := ⟨by decide, fun w h => by simp only [takesExt, decFields, h, and_self]⟩
theorem readsM_st : ReadsM 0x21 fun d s o z h _ => .st d s o z h := ⟨by decide, fun w h => by simp only [takesExt, decFields, h, and_self]⟩
theorem readsM_ldl : ReadsM 0x24 fun d s o z _ _ => .ldl d s o z := ⟨by decide, fun w h => by simp only [takesExt, decFields, h, and_self]⟩
theorem readsM_stl : ReadsM 0x25 fun d s o z _ _ => .stl d s o z := ⟨by decide, fun w h => by simp only [takesExt, decFields, h, and_self]⟩
theorem readsM_ldc : ReadsM 0x26 fun d s o z _ _ => .ldc d s o z := ⟨by decide, fun w h => by simp only [takesExt, decFields, h, and_self]⟩
theorem readsM_stc : ReadsM 0x27 fun d s o z _ _ => .stc d s o z := ⟨by decide, fun w h => by simp only [takesExt, decFields, h, and_self]⟩
theorem readsM_ldp : ReadsM 0x28 fun d s o z h _ => .ldp d s o z h := ⟨by decide, fun w h => by simp only [takesExt, decFields, h, and_self]⟩
theorem readsM_stp : ReadsM 0x29 fun d s o z h _ => .stp d s o z h := ⟨by decide, fun w h => by simp only [takesExt, decFields, h, and_self]⟩
theorem ReadsM.decodesBack {maj d s o : Nat} {z : Size} {h : Hint} {nr : Bool} {f : Nat → Nat → Nat → Size → Hint → Bool → Instr}
    {i : Instr} (hr : ReadsM maj f) (hwf : i.wf = true) (he : encode i = [wM maj d s o z.code h.code (b2n nr)]) (hb : d < 128 ∧ s < 64 ∧ o < 128)
    (hf : f d s o z h nr = i) : DecodesBack i := by
  have hb : d < 128 ∧ s < 64 ∧ o < 128 ∧ z.code < 8 ∧ h.code < 4 ∧ b2n nr < 2 :=
    ⟨hb.1, hb.2.1, hb.2.2, z.code_lt, h.code_lt, b2n_lt nr⟩
  obtain ⟨hmaj, hr⟩ := hr
  obtain ⟨ht, hd⟩ := hr _ (wM_major hb)
  refine decodesBack_of_word hwf he (wM_lt hb hmaj) ht (hd.trans (withSize_eq_ok_iff.mpr ⟨z, h, wM_size hb, wM_hint hb, ?_⟩))
  rw [wM_data hb, wM_base hb, wM_offset hb, bit_eq_iff.mpr (wM_nr hb), hf]

/-- Words of a major code are atomics', which take an extension and decode from the fields of both words (R213). -/
def ReadsAtomic (maj : Nat) (f : Nat → Nat → Nat → Size → Hint → Nat → Nat → AOp → AType → Instr) : Prop :=
  maj < 64 ∧ (∀ w p, w / 67108864 = maj → takesExt w = true ∧ decFields w p = decAtomicWord maj w p) ∧
    ∀ w p z h, decAtomic maj w p z h = withAtomic p fun op ty =>
      f (fld w 524288 128) (fld w 8192 64) (fld w 64 128) z h (fld p 1 128) (fld p 128 128) op ty

theorem readsAtomic_atom : ReadsAtomic 0x2A .atom :=
  ⟨by decide, fun w p h => by simp only [takesExt, decFields, h, and_self], fun _ _ _ _ => rfl⟩
theorem readsAtomic_atoml : ReadsAtomic 0x2B fun d s o z _ b c op ty => .atoml d s o z b c op ty :=
  ⟨by decide, fun w p h => by simp only [takesExt, decFields, h, and_self], fun _ _ _ _ => rfl⟩
theorem readsAtomic_atomc : ReadsAtomic 0x2C fun d s o _ _ b c op ty => .atomc d s o b c op ty :=
  ⟨by decide, fun w p h => by simp only [takesExt, decFields, h, and_self], fun _ _ _ _ => rfl⟩
theorem readsAtomic_redst : ReadsAtomic 0x2D fun d s o z h _ _ op ty => .redst d s o z h op ty :=
  ⟨by decide, fun w p h => by simp only [takesExt, decFields, h, and_self], fun _ _ _ _ => rfl⟩
theorem readsAtomic_redc : ReadsAtomic 0x2E fun d s o _ _ _ _ op ty => .redc d s o op ty :=
  ⟨by decide, fun w p h => by simp only [takesExt, decFields, h, and_self], fun _ _ _ _ => rfl⟩

/-- The payload of an atomic: its type, operation and operands (R213). -/
def atomicPayload (ty : AType) (op : AOp) (c b : Nat) : Nat := ty.code * 262144 + op.code * 16384 + c * 128 + b
/-- The payload of a reduction store, which has no operands of its own. -/
theorem atomicPayload_zero (ty : AType) (op : AOp) : atomicPayload ty op 0 0 = ty.code * 262144 + op.code * 16384 := by
  simp [atomicPayload]
theorem atomicPayload_fields {ty : AType} {op : AOp} {c b : Nat} (hc : c < 128) (hb : b < 128) :
    fld (atomicPayload ty op c b) 16384 16 = op.code ∧ fld (atomicPayload ty op c b) 262144 4 = ty.code ∧
      fld (atomicPayload ty op c b) 128 128 = c ∧ fld (atomicPayload ty op c b) 1 128 = b ∧ atomicPayload ty op c b < 67108864 := by
  have := ty.code_lt
  have := op.code_lt
  unfold fld atomicPayload
  omega
theorem ReadsAtomic.decodesBack {maj d s o c b : Nat} {z : Size} {h : Hint} {op : AOp} {ty : AType}
    {f : Nat → Nat → Nat → Size → Hint → Nat → Nat → AOp → AType → Instr} {i : Instr} (hr : ReadsAtomic maj f) (hwf : i.wf = true)
    (he : encode i = [wM maj d s o z.code h.code 0, wE (atomicPayload ty op c b)])
    (hb : d < 128 ∧ s < 64 ∧ o < 128 ∧ c < 128 ∧ b < 128) (hf : f d s o z h b c op ty = i) : DecodesBack i := by
  obtain ⟨hd, hs, ho, hc, hb⟩ := hb
  have hm : d < 128 ∧ s < 64 ∧ o < 128 ∧ z.code < 8 ∧ h.code < 4 ∧ 0 < 2 := ⟨hd, hs, ho, z.code_lt, h.code_lt, by decide⟩
  obtain ⟨hop, hty, hpc, hpb, hp⟩ := atomicPayload_fields (ty := ty) (op := op) hc hb
  obtain ⟨hmaj, hr, hat⟩ := hr
  obtain ⟨ht, hw⟩ := hr _ (atomicPayload ty op c b) (wM_major hm)
  refine decodesBack_of_ext hwf he (wM_lt hm hmaj) hp ht (hw.trans ?_)
  rw [decAtomicWord_of_codes (wM_size hm) (wM_hint hm), hat, withAtomic_of_codes hop hty, wM_data hm, wM_base hm, wM_offset hm, hpc, hpb, hf]

/-! ### Instructions with option fields -/

section
variable {d a b p k n : Nat} (f : Bool)

theorem decVecInt_icmp (q : ICond) (hp : p < 16) : decVecInt 26 (b2n f * 64 + q.code * 16 + p) a b = .ok (.icmp f q p a b) := by
  have := b2n_lt f
  have := q.code_lt
  simp only [decVecInt, withCode_eq_ok_iff, ICond.ofCode_eq_some_iff, Instr.icmp.injEq, bit_eq_iff, fld, and_true, true_and, existsAndEq]
  omega
theorem decFloat_fcmp (q : FCond) (hp : p < 16) : decFloat 9 (q.code * 16 + p) a b = .ok (.fcmp q p a b) := by
  have := q.code_lt
  simp only [decFloat, withCode_eq_ok_iff, FCond.ofCode_eq_some_iff, Instr.fcmp.injEq, fld, and_true, true_and, existsAndEq]
  omega
theorem decConvert_cvt (q : EType) (hk : k < 8) : decConvert 0 d a (k * 16 + q.code) = .ok (.cvt d a k q) := by
  have := q.code_lt
  simp only [decConvert, withCode_eq_ok_iff, EType.ofCode_eq_some_iff, Instr.cvt.injEq, fld, and_true, true_and, existsAndEq]
  omega
theorem decConvert_cvti (r : Rnd) (q : EType) : decConvert 1 d a (r.code * 16 + q.code) = .ok (.cvti d a r q) := by
  have := r.code_lt
  have := q.code_lt
  have hr : fld (r.code * 16 + q.code) 16 8 = r.code := by unfold fld; omega
  have hq : fld (r.code * 16 + q.code) 1 16 = q.code := by unfold fld; omega
  simp only [decConvert, Rnd.ofCode_eq_some_iff.mpr hr, EType.ofCode_eq_some_iff.mpr hq, withCode]
theorem decUniform_ssel (q : SCond) : decUniform 13 d a b q.code = .ok (.ssel d a b q) := by
  simp only [decUniform, SCond.ofCode_eq_some_iff.mpr rfl, withCode]
theorem bit_b2n : bit (b2n f) 1 = f := by cases f <;> rfl
theorem bit_pair_hi (g : Bool) : bit (b2n f * 2 + b2n g) 2 = f := by cases f <;> cases g <;> rfl
theorem bit_pair_lo (g : Bool) : bit (b2n f * 2 + b2n g) 1 = g := by cases f <;> cases g <;> rfl
/-- A shuffle's .oob bit stands above its operand, of six bits or, with a width, of three (R187, R188). -/
theorem bit_shuffleFlag (hn : n < 64) : bit (b2n f * 64 + n) 64 = f := by
  have := b2n_lt f
  rw [bit_eq_iff]
  omega
theorem fld_shuffleLow (hn : n < 64) : fld (b2n f * 64 + n) 1 64 = n := by
  unfold fld
  omega
theorem fld_shuffleWidth (hn : n < 8) : fld (b2n f * 64 + n) 1 8 = n := by
  unfold fld
  omega
theorem decCross_qswap (q : QDir) : decCross 8 d a q.code = .ok (.qswap d a q) := by
  have := q.code_lt
  simp only [decCross, withCode_eq_ok_iff, QDir.ofCode_eq_some_iff, Instr.qswap.injEq, fld, true_and, and_true, existsAndEq]
  omega
theorem decCross_redlog (q : RedOp) : decCross 11 d a q.code = .ok (.redlog d a q) := by
  have := q.code_lt
  simp only [decCross, withCode_eq_ok_iff, RedOp.ofCode_eq_some_iff, Instr.redlog.injEq, fld, true_and, and_true, existsAndEq]
  omega
theorem decCross_scanlog (q : RedOp) : decCross 12 d a (b2n f * 16 + q.code) = .ok (.scanlog d a f q) := by
  have := b2n_lt f
  have := q.code_lt
  simp only [decCross, withCode_eq_ok_iff, RedOp.ofCode_eq_some_iff, Instr.scanlog.injEq, bit_eq_iff, fld, true_and, and_true, existsAndEq]
  omega
theorem decCross_vote (q : VoteOp) : decCross 16 d a q.code = .ok (.vote d a q) := by
  have := q.code_lt
  simp only [decCross, withCode_eq_ok_iff, VoteOp.ofCode_eq_some_iff, Instr.vote.injEq, fld, true_and, and_true, existsAndEq]
  omega


end

/-- A clause header's fields (R94). -/
theorem decodesBack_clauseStart {w a b l : Nat} (h : (Instr.clauseStart w a b l).wf = true) : DecodesBack (.clauseStart w a b l) := by
  have hb := h
  simp only [Instr.wf, Bool.and_eq_true, decide_eq_true_eq] at hb
  have hm : (0x3F * 67108864 + w * 16384 + a * 1024 + b * 64 + l) / 67108864 = 0x3F := by omega
  refine decodesBack_of_word h rfl (by omega) (by simp only [takesExt, hm]) ?_
  simp only [decFields, hm, Except.ok.injEq, Instr.clauseStart.injEq, fld]
  omega

/-! ### X words with option fields -/

theorem decodesBack_idx {d : Nat} {q : IdxSel} (h : (Instr.idx d q).wf = true) : DecodesBack (.idx d q) := by
  have hd : d < 128 := of_decide_eq_true h
  have := q.code_lt
  refine readsX_ident.decodesBack h rfl rfl (by omega) ?_
  simp only [decIdent, withCode_eq_ok_iff, IdxSel.ofCode_eq_some_iff, Instr.idx.injEq, fld, wX, existsAndEq, and_true]
  omega
theorem decodesBack_sread {d : Nat} {f : Bool} {q : SrSel} (h : (Instr.sread d f q).wf = true) : DecodesBack (.sread d f q) := by
  have hb := h
  simp only [Instr.wf, Bool.and_eq_true, decide_eq_true_eq] at hb
  have := q.code_lt
  have := b2n_lt f
  refine readsX_ident.decodesBack h rfl rfl (by omega) ?_
  simp only [decIdent, withCode_eq_ok_iff, SrSel.ofCode_eq_some_iff, Instr.sread.injEq, bit_eq_iff, fld, wX, existsAndEq, and_true]
  omega
theorem decodesBack_setmodeReg {m a : Nat} (h : (Instr.setmodeReg m a).wf = true) : DecodesBack (.setmodeReg m a) := by
  have hb := h
  simp only [Instr.wf, Bool.and_eq_true, decide_eq_true_eq] at hb
  have hi : bit (wX 0x06 4 (m * 4096 + a)) 2048 = false :=
    bit_eq_iff.mpr (show _ = 0 by unfold wX; omega)
  refine readsX_ident.decodesBack h rfl rfl (by omega) ?_
  simp only [decIdent, hi, Bool.false_eq_true, if_false, Except.ok.injEq, Instr.setmodeReg.injEq]
  unfold fld wX
  omega
theorem decodesBack_setmodeImm {m x : Nat} (h : (Instr.setmodeImm m x).wf = true) : DecodesBack (.setmodeImm m x) := by
  have hb := h
  simp only [Instr.wf, Bool.and_eq_true, decide_eq_true_eq] at hb
  have hi : bit (wX 0x06 4 (m * 4096 + 2048 + x)) 2048 = true :=
    bit_eq_iff.mpr (show _ = 1 by unfold wX; omega)
  refine readsX_ident.decodesBack h rfl rfl (by omega) ?_
  simp only [decIdent, hi, if_true, Except.ok.injEq, Instr.setmodeImm.injEq]
  unfold fld wX
  omega
theorem decodesBack_fence {q : Scope} (h : (Instr.fence q).wf = true) : DecodesBack (.fence q) := by
  have := q.code_lt
  refine readsX_sync.decodesBack h rfl rfl (by omega) ?_
  simp only [decSync, withCode_eq_ok_iff, Scope.ofCode_eq_some_iff, Instr.fence.injEq, fld, wX, existsAndEq, and_true]
  omega
theorem decodesBack_xfence {q r : Path} (h : (Instr.xfence q r).wf = true) : DecodesBack (.xfence q r) := by
  have := q.code_lt
  have := r.code_lt
  have hq : fld (wX 0x2F 1 (q.code * 8 + r.code)) 8 8 = q.code := by unfold fld wX; omega
  have hr : fld (wX 0x2F 1 (q.code * 8 + r.code)) 1 8 = r.code := by unfold fld wX; omega
  refine readsX_sync.decodesBack h rfl rfl (by omega) ?_
  simp only [decSync, Path.ofCode_eq_some_iff.mpr hq, Path.ofCode_eq_some_iff.mpr hr, withCode]
theorem decodesBack_pref {q : Hint} {r : PrefLvl} {o a : Nat} (h : (Instr.pref q r o a).wf = true) : DecodesBack (.pref q r o a) := by
  have hb := h
  simp only [Instr.wf, Bool.and_eq_true, decide_eq_true_eq] at hb
  have := q.code_lt
  have := r.code_lt
  have hq : fld (wX 0x2F 11 (q.code * 32768 + r.code * 8192 + o * 64 + a)) 32768 4 = q.code := by unfold fld wX; omega
  refine readsX_sync.decodesBack h rfl rfl (by omega) ?_
  simp only [decSync, Hint.ofCode_eq_some_iff.mpr hq, withCode_eq_ok_iff, PrefLvl.ofCode_eq_some_iff, Instr.pref.injEq,
    existsAndEq, true_and]
  unfold fld wX
  omega
theorem decodesBack_cacheop {q : CacheOp} {o a : Nat} (h : (Instr.cacheop q o a).wf = true) : DecodesBack (.cacheop q o a) := by
  have hb := h
  simp only [Instr.wf, Bool.and_eq_true, decide_eq_true_eq] at hb
  have := q.code_lt
  refine readsX_sync.decodesBack h rfl rfl (by omega) ?_
  simp only [decSync, withCode_eq_ok_iff, CacheOp.ofCode_eq_some_iff, Instr.cacheop.injEq, fld, wX, existsAndEq, true_and]
  omega
theorem decodesBack_tsamp {d c s x l : Nat} {m : TMode} (h : (Instr.tsamp d c s x l m).wf = true) : DecodesBack (.tsamp d c s x l m) := by
  have hb := h
  simp only [Instr.wf, Bool.and_eq_true, decide_eq_true_eq] at hb
  have := m.code_lt
  refine readsX_render.decodesBack_ext h rfl rfl (by omega) ?_
  simp only [decRender, withCode_eq_ok_iff, TMode.ofCode_eq_some_iff, Instr.tsamp.injEq, fld, wX, existsAndEq, and_true]
  omega
theorem decodesBack_rtri {d y s n : Nat} {q : Cull} (h : (Instr.rtri d y s n q).wf = true) : DecodesBack (.rtri d y s n q) := by
  have hb := h
  simp only [Instr.wf, Bool.and_eq_true, decide_eq_true_eq] at hb
  have := q.code_lt
  have hq : fld (q.code * 128 + n) 128 4 = q.code := by unfold fld; omega
  refine readsX_render.decodesBack_ext h rfl rfl (by omega) ?_
  simp only [decRender, hq, Cull.ofCode_code, withCode, Except.ok.injEq, Instr.rtri.injEq, and_true]
  unfold fld wX
  omega
theorem decodesBack_csrr {r : Csr} {d : Nat} (h : (Instr.csrr r d).wf = true) : DecodesBack (.csrr r d) := by
  have hd : d < 64 := of_decide_eq_true h
  have := r.num_lt
  refine readsX_system.decodesBack h rfl rfl (by omega) ?_
  simp only [decSystem, withCode_eq_ok_iff, Csr.ofNum_eq_some_iff, Instr.csrr.injEq, fld, wX, existsAndEq, true_and]
  omega
theorem decodesBack_csrw {r : Csr} {a : Nat} (h : (Instr.csrw r a).wf = true) : DecodesBack (.csrw r a) := by
  have ha : a < 64 := of_decide_eq_true h
  have := r.num_lt
  refine readsX_system.decodesBack h rfl rfl (by omega) ?_
  simp only [decSystem, withCode_eq_ok_iff, Csr.ofNum_eq_some_iff, Instr.csrw.injEq, fld, wX, existsAndEq, true_and]
  omega

/-! ### Every instruction -/

/-- The words of a well-formed instruction decode to it: a group of instructions for each format and major code. -/
theorem decodesBack_of_wf {i : Instr} (h : i.wf = true) : DecodesBack i := by
  have hb := h
  cases i <;> simp only [Instr.wf, Bool.and_eq_true, decide_eq_true_eq] at hb
  case clauseStart => exact decodesBack_clauseStart h
  -- V3 words
  case iadd | isub | imul | imulhi | imulhn | imad | iand | ior | ixor | ishl | ishr | isra | imin | imax | iminn | imaxn | iabs | clz
      | popc | brev | bfe | bfi | intlv2 | intlv3 | mov =>
    exact readsV3_vecInt.decodesBack h rfl (by omega) rfl
  case movs d a f =>
    have := b2n_lt f
    exact readsV3_vecInt.decodesBack h rfl (by omega) (by simp only [decVecInt, bit_b2n])
  case icmp f q p a b =>
    have := b2n_lt f
    have := q.code_lt
    exact readsV3_vecInt.decodesBack h rfl (by omega) (decVecInt_icmp f q hb.1.1)
  case pand | por | pxor | pandn | pcnt | pfirst => exact readsV3_pred.decodesBack h rfl (by omega) rfl
  case ptos d a f | stop d a f =>
    have := b2n_lt f
    exact readsV3_pred.decodesBack h rfl (by omega) (by simp only [decPred, bit_b2n])
  case fadd | fsub | fmul | fmad | fmsb | fmin | fmax | fneg | fabs | fclass | frndi | fscale | fdot2 =>
    exact readsV3_float.decodesBack h rfl (by omega) rfl
  case fcmp q p a b =>
    have := q.code_lt
    exact readsV3_float.decodesBack h rfl (by omega) (decFloat_fcmp q hb.1.1)
  case cvt d a k t =>
    have := t.code_lt
    exact readsV3_convert.decodesBack h rfl (by omega) (decConvert_cvt t hb.2)
  case cvti d a r t =>
    have := r.code_lt
    have := t.code_lt
    exact readsV3_convert.decodesBack h rfl (by omega) (decConvert_cvti r t)
  case packb | permb => exact readsV3_convert.decodesBack h rfl (by omega) rfl
  case rcp | rsq | sqrt | exp2 | log2 | sint | cost | tanh => exact readsV3_special.decodesBack h rfl (by omega) rfl
  case shflIdx d a f n | shflUp d a f n | shflDn d a f n | shflXor d a f n =>
    have := b2n_lt f
    exact readsV3_cross.decodesBack h rfl (by omega) (by simp only [decCross, bit_shuffleFlag f hb.2, fld_shuffleLow f hb.2])
  case shflUpw d a f n | shflDnw d a f n | shflXorw d a f n =>
    have := b2n_lt f
    have hn : n < 64 := by omega
    exact readsV3_cross.decodesBack h rfl (by omega) (by simp only [decCross, bit_shuffleFlag f hn, fld_shuffleWidth f hb.2])
  case qswap d a q =>
    have := q.code_lt
    exact readsV3_cross.decodesBack h rfl (by omega) (decCross_qswap q)
  case redlog d a q =>
    have := q.code_lt
    exact readsV3_cross.decodesBack h rfl (by omega) (decCross_redlog q)
  case scanlog d a f q =>
    have := b2n_lt f
    have := q.code_lt
    exact readsV3_cross.decodesBack h rfl (by omega) (decCross_scanlog f q)
  case vote d a q =>
    have := q.code_lt
    exact readsV3_cross.decodesBack h rfl (by omega) (decCross_vote q)
  case qddx d a f | qddy d a f | rdfirst d a f =>
    have := b2n_lt f
    exact readsV3_cross.decodesBack h rfl (by omega) (by simp only [decCross, bit_b2n])
  case rdlane | ballot | vmatch | vmatchf => exact readsV3_cross.decodesBack h rfl (by omega) rfl
  -- S3 words
  case sadd d a b f | ssub d a b f | smul d a b f | sand d a b f | sor d a b f | sxor d a b f | sshl d a b f | sshr d a b f | ssra d a b f =>
    have := b2n_lt f
    exact decodesBack_of_wS3 h rfl (by omega) (by simp only [decUniform, bit_b2n])
  case smulh d a b f g | smin d a b f g | smax d a b f g =>
    have := b2n_lt f
    have := b2n_lt g
    exact decodesBack_of_wS3 h rfl (by omega) (by simp only [decUniform, bit_pair_hi, bit_pair_lo])
  case scmp | smov => exact decodesBack_of_wS3 h rfl (by omega) rfl
  case ssel d a b q =>
    have := q.code_lt
    exact decodesBack_of_wS3 h rfl (by omega) (decUniform_ssel q)
  -- VI, VL and SI words
  case iaddi d a imm =>
    have := unsx_lt imm (n := 4096) (by decide)
    exact readsVI_iaddi.decodesBack h rfl (by omega) (by rw [sxt_unsx (by omega) (by omega)])
  case ishli => exact readsVI_ishli.decodesBack h rfl (by omega) rfl
  case movi d imm =>
    have := unsx_lt imm (n := 524288) (by decide)
    exact readsVL_movi.decodesBack h rfl (by omega) (by rw [sxt_unsx (by omega) (by omega)])
  case movhi => exact readsVL_movhi.decodesBack h rfl (by omega) rfl
  case smovi d imm =>
    have := unsx_lt imm (n := 16384) (by decide)
    exact readsSI_smovi.decodesBack h rfl (by omega) (by rw [sxt_unsx (by omega) (by omega)])
  case saddImm d a imm =>
    have := unsx_lt imm (n := 16384) (by decide)
    exact readsSI_saddImm.decodesBack h rfl (by omega) (by rw [sxt_unsx (by omega) (by omega)])
  case smovhi => exact readsSI_smovhi.decodesBack h rfl (by omega) rfl
  case lds d a imm =>
    have := unsx_lt imm (n := 16384) (by decide)
    exact readsSI_lds.decodesBack h rfl (by omega) (by rw [sxt_unsx (by omega) (by omega)])
  case sts d a imm =>
    have := unsx_lt imm (n := 16384) (by decide)
    exact readsSI_sts.decodesBack h rfl (by omega) (by rw [sxt_unsx (by omega) (by omega)])
  -- B words
  case mendl => exact readsB_mendl.decodesBack h rfl (by omega) rfl
  case bra c o =>
    have := c.code_lt
    exact readsB_bra.decodesBack h rfl (by omega) (by simp only [Cond.ofCode_eq_some_iff.mpr rfl, withCode])
  case brz => exact readsB_brz.decodesBack h rfl (by omega) rfl
  case brnz => exact readsB_brnz.decodesBack h rfl (by omega) rfl
  case call => exact readsB_call.decodesBack h rfl (by omega) rfl
  case mif => exact readsB_mif.decodesBack h rfl (by omega) rfl
  case melse => exact readsB_melse.decodesBack h rfl (by omega) rfl
  case mbrk => exact readsB_mbrk.decodesBack h rfl (by omega) rfl
  case mcont => exact readsB_mcont.decodesBack h rfl (by omega) rfl
  -- M words
  case ld => exact readsM_ld.decodesBack h rfl (by omega) rfl
  case st => exact readsM_st.decodesBack (nr := false) h rfl (by omega) rfl
  case ldl => exact readsM_ldl.decodesBack (h := .normal) (nr := false) h rfl (by omega) rfl
  case stl => exact readsM_stl.decodesBack (h := .normal) (nr := false) h rfl (by omega) rfl
  case ldc => exact readsM_ldc.decodesBack (h := .normal) (nr := false) h rfl (by omega) rfl
  case stc => exact readsM_stc.decodesBack (h := .normal) (nr := false) h rfl (by omega) rfl
  case ldp => exact readsM_ldp.decodesBack (nr := false) h rfl (by omega) rfl
  case stp => exact readsM_stp.decodesBack (nr := false) h rfl (by omega) rfl
  case atom =>
    simp only [atomRegs, Bool.and_eq_true, decide_eq_true_eq] at hb
    exact readsAtomic_atom.decodesBack h rfl (by omega) rfl
  case atoml =>
    simp only [atomRegs, Bool.and_eq_true, decide_eq_true_eq] at hb
    exact readsAtomic_atoml.decodesBack (h := .normal) h rfl (by omega) rfl
  case atomc =>
    simp only [atomRegs, Bool.and_eq_true, decide_eq_true_eq] at hb
    exact readsAtomic_atomc.decodesBack (z := .b32) (h := .normal) h rfl (by omega) rfl
  case redst d s o z q op ty => exact readsAtomic_redst.decodesBack h (by rw [atomicPayload_zero]; rfl) (by omega) rfl
  case redc d s o op ty =>
    exact readsAtomic_redc.decodesBack (z := .b32) (h := .normal) h (by rw [atomicPayload_zero]; rfl) (by omega) rfl
  -- X words
  case idx => exact decodesBack_idx h
  case sread => exact decodesBack_sread h
  case setmodeReg => exact decodesBack_setmodeReg h
  case setmodeImm => exact decodesBack_setmodeImm h
  case mater => exact readsX_ident.decodesBack h rfl rfl (by decide) rfl
  case spanq | getmode =>
    refine readsX_ident.decodesBack h rfl rfl (by omega) ?_
    simp only [decIdent, Except.ok.injEq, Instr.spanq.injEq, Instr.getmode.injEq, fld, wX]
    omega
  case isel d a f p =>
    have := b2n_lt f
    refine readsX_ident.decodesBack h rfl rfl (by omega) ?_
    simp only [decIdent, Except.ok.injEq, Instr.isel.injEq, bit_eq_iff, fld, wX]
    omega
  case qcvt | setseed =>
    refine readsX_quant.decodesBack h rfl rfl (by omega) ?_
    simp only [decQuant, Except.ok.injEq, Instr.qcvt.injEq, Instr.setseed.injEq, fld, wX]
    omega
  case fence => exact decodesBack_fence h
  case xfence => exact decodesBack_xfence h
  case pref => exact decodesBack_pref h
  case cacheop => exact decodesBack_cacheop h
  case bar | bararr | barwait | bcinit | bcwait | cpyk | claim | pin | unpin | tagset | tagget | pubw | acqw | mbxrecv =>
    refine readsX_sync.decodesBack h rfl rfl (by omega) ?_
    simp only [decSync, Except.ok.injEq, Instr.bar.injEq, Instr.bararr.injEq, Instr.barwait.injEq, Instr.bcinit.injEq,
      Instr.bcwait.injEq, Instr.cpyk.injEq, Instr.claim.injEq, Instr.pin.injEq, Instr.unpin.injEq, Instr.tagset.injEq,
      Instr.tagget.injEq, Instr.pubw.injEq, Instr.acqw.injEq, Instr.mbxrecv.injEq, fld, wX]
    omega
  case mbxsend a die f | spawn d a s f cls =>
    have := b2n_lt f
    refine readsX_sync.decodesBack_ext h rfl rfl (by omega) ?_
    simp only [decSync, Except.ok.injEq, Instr.mbxsend.injEq, Instr.spawn.injEq, bit_eq_iff, fld, wX]
    omega
  case tdesc | azero | aload | amov | agdrain | astash =>
    refine readsX_matrix.decodesBack h rfl rfl (by omega) ?_
    simp only [decMatrix, Except.ok.injEq, Instr.tdesc.injEq, Instr.azero.injEq, Instr.aload.injEq, Instr.amov.injEq,
      Instr.agdrain.injEq, Instr.astash.injEq, fld, wX]
    omega
  case mma f t a d | mmap f t a d | adrain f s a t =>
    have := b2n_lt f
    refine readsX_matrix.decodesBack h rfl rfl (by omega) ?_
    simp only [decMatrix, Except.ok.injEq, Instr.mma.injEq, Instr.mmap.injEq, Instr.adrain.injEq, bit_eq_iff, fld, wX]
    omega
  case mmabs f t a d s =>
    have := b2n_lt f
    refine readsX_matrix.decodesBack_ext h rfl rfl (by omega) ?_
    simp only [decMatrix, Except.ok.injEq, Instr.mmabs.injEq, bit_eq_iff, fld, wX]
    omega
  case hcfg =>
    refine readsX_hash.decodesBack h rfl rfl (by omega) ?_
    simp only [decHash, Except.ok.injEq, Instr.hcfg.injEq, fld, wX]
    omega
  case hgather | hscatter =>
    refine readsX_hash.decodesBack_ext h rfl rfl (by omega) ?_
    simp only [decHash, Except.ok.injEq, Instr.hgather.injEq, Instr.hscatter.injEq, fld, wX]
    omega
  case ordexit => exact readsX_render.decodesBack h rfl rfl (by decide) rfl
  case ordent | regroup =>
    refine readsX_render.decodesBack h rfl rfl (by omega) ?_
    simp only [decRender, Except.ok.injEq, Instr.ordent.injEq, Instr.regroup.injEq, fld, wX]
    omega
  case draw d a n f =>
    have := b2n_lt f
    refine readsX_render.decodesBack_ext h rfl rfl (by omega) ?_
    simp only [decRender, Except.ok.injEq, Instr.draw.injEq, bit_eq_iff, fld, wX]
    omega
  case rbox =>
    refine readsX_render.decodesBack_ext h rfl rfl (by omega) ?_
    simp only [decRender, Except.ok.injEq, Instr.rbox.injEq, fld, wX]
    omega
  case tsamp => exact decodesBack_tsamp h
  case rtri => exact decodesBack_rtri h
  case route | xdone =>
    refine readsX_expert.decodesBack h rfl rfl (by omega) ?_
    simp only [decExpert, Except.ok.injEq, Instr.route.injEq, Instr.xdone.injEq, fld, wX]
    omega
  case csrr => exact decodesBack_csrr h
  case csrw => exact decodesBack_csrw h
  case hret | pyield => exact readsX_system.decodesBack h rfl rfl (by decide) rfl
  case trap | bkpt =>
    refine readsX_system.decodesBack h rfl rfl (by omega) ?_
    simp only [decSystem, Except.ok.injEq, Instr.trap.injEq, Instr.bkpt.injEq, fld, wX]
    omega
  case nop | exit | ret | mend | mloop => exact readsX_control.decodesBack h rfl rfl (by decide) rfl
  case jmps | trapu =>
    refine readsX_control.decodesBack h rfl rfl (by omega) ?_
    simp only [decControl, Except.ok.injEq, Instr.jmps.injEq, Instr.trapu.injEq, fld, wX]
    omega
  -- events
  all_goals exact decodesBack_of_event rfl

/-- Settles O2: for each word format, the fields read back as they were written. -/
theorem encodeDecodeAgree : Obligations.EncodeDecodeAgree := by
  unfold Obligations.EncodeDecodeAgree
  intro i w ws h he
  exact decodesBack_of_wf h w ws he

/-- Settles O1: each accepted word is the encoding of its instruction; the two others break R98. -/
theorem decodesSpecWords : Obligations.DecodesSpecWords := by
  unfold Obligations.DecodesSpecWords
  have one : ∀ i w, i.wf = true → encode i = [w] → decode w none = .instr i 1 := fun i w => encodeDecodeAgree i w []
  refine ⟨one _ _ rfl rfl, one _ _ rfl rfl, one _ _ rfl rfl, one _ _ rfl rfl, one _ _ rfl rfl, one _ _ rfl rfl,
    encodeDecodeAgree (.atom 5 2 6 .b32 .normal 7 0 .add .int) _ [_] rfl rfl, one _ _ rfl rfl, one _ _ rfl rfl, one _ _ rfl rfl,
    one _ _ rfl rfl, one _ _ rfl rfl, ?missing, ?stray⟩
  case missing | stray => decide

end Sys2Proof
end

section
/-! SUPPORT. What a check refuses, and clause headers: the trap of a refused instruction, the words that are no clause header, and
the entry of a clause (R94 to R97, R105). -/
namespace Sys2Proof.Machine

/-! ### Instructions that a check refuses (R105) -/

/-- Every check answers ILLEGAL, PRIV or DEPMISS (R105). -/
theorem check_cause {e : GI} {s : State} {c : Cause} (h : e.check s = some c) : c = .priv ∨ c = .illegal ∨ c = .depmiss := by
  unfold GI.check at h
  dsimp only at h
  split at h
  · cases h; exact .inr (.inl rfl)
  · split at h
    · cases h; exact .inl rfl
    · split at h
      · cases h; exact .inr (.inl rfl)
      · split at h
        · cases h; exact .inr (.inr rfl)
        · cases h
/-- A refused instruction traps where it stands, with its first word as the argument (R105, R372). -/
theorem issue_refused {s : State} {i : Instr} {e : GI} {c : Cause} (hp : s.power = true) (ht : s.issuer = .group e.gid)
    (hg : s.gi e.gid i = some e) (hr : e.g.ready i = true) (hh : e.g.ctl.hold = none) (ho : e.g.ctl.owed = []) (hc : e.check s = some c)
    (f : GI → State → Fx) (p : SI → State → SFx) :
    s.issue i f p = .next (s.raise e.gid ⟨c, e.word, 0, 0, e.g.ctl.pos, false⟩) := by
  simp [State.issue, hp, ht, State.runGroup, hg, hr, hh, ho, hc, check_cause hc, GI.trapHere]
/-- The same of an instruction's execution. -/
theorem exec_refused {s : State} {i : Instr} {e : GI} {c : Cause} (hi : encode i ≠ []) (hp : s.power = true)
    (ht : s.issuer = .group e.gid) (hg : s.gi e.gid i = some e) (hr : e.g.ready i = true) (hh : e.g.ctl.hold = none)
    (ho : e.g.ctl.owed = []) (hc : e.check s = some c) :
    exec i s = .next (s.raise e.gid ⟨c, e.word, 0, 0, e.g.ctl.pos, false⟩) := by
  obtain ⟨f, p, hx⟩ := exec_issue i hi
  rw [hx]
  exact issue_refused hp ht hg hr hh ho hc f p

/-- Settles O29: the check's answer is raised as a trap, which the group can take at once. -/
theorem refusedInstructionTraps : Obligations.RefusedInstructionTraps := by
  unfold Obligations.RefusedInstructionTraps
  intro i s e c hi hp ht hg hr hh ho hc hk
  have hphys : c ≠ .physrange := by
    rcases check_cause hc with rfl | rfl | rfl <;> decide
  rw [exec_refused hi hp ht hg hr hh ho hc, raise_takes hg rfl hphys hk]

/-! ### Clause headers and control words (R94 to R97) -/

/-- A word that stands for no instruction cannot be run. -/
theorem decodeNext_bad {w : Nat} {x : Option Nat} (h : ∀ i n, decode w x ≠ .instr i n) : decodeNext w x = .bad w := by
  unfold decodeNext
  cases hd : decode w x with
  | instr i n => exact absurd hd (h i n)
  | reject r => rfl
/-- A clause header that decodes has the fields of a well-formed one (R94, R95). -/
theorem wf_of_decode_header {w n : Nat} {x : Option Nat} {i : Instr} (hh : isHeader w = true) (hd : decode w x = .instr i n) :
    (Instr.clauseStart (fld w 16384 4096) (fld w 1024 16) (fld w 64 16) (fld w 1 64)).wf = true := by
  have hm : w / 67108864 = 0x3F := by simpa [isHeader] using hh
  have ht : takesExt w = false := by simp only [takesExt, hm]
  obtain ⟨-, ⟨-, hc⟩ | ⟨v, hv, -⟩⟩ := decode_eq_instr_iff.mp hd
  · obtain ⟨hf, hwf, -, -⟩ := checkCand_eq_instr_iff.mp hc
    simp only [decFields, hm] at hf
    cases hf
    exact hwf
  · rw [ht] at hv
    cases hv
/-- A header with LEN 0, or with SETA or SETB in 12 to 14, is no instruction (R95). -/
theorem decode_bad_header {w : Nat} {x : Option Nat} (hh : isHeader w = true)
    (hb : w % 64 = 0 ∨ (12 ≤ w / 1024 % 16 ∧ w / 1024 % 16 ≤ 14) ∨ (12 ≤ w / 64 % 16 ∧ w / 64 % 16 ≤ 14)) (i : Instr) (n : Nat) :
    decode w x ≠ .instr i n := by
  intro hd
  have hwf := wf_of_decode_header hh hd
  simp only [Instr.wf, fld, Nat.div_one, Bool.and_eq_true, Bool.not_eq_true', decide_eq_true_eq] at hwf
  obtain ⟨⟨⟨-, hlen⟩, hseta⟩, hsetb⟩ := hwf
  rcases hb with h0 | h1 | h2
  · omega
  · simp [h1] at hseta
  · simp [h2] at hsetb
/-- A group that stands at a word which is no instruction traps there with ILLEGAL (R105). -/
theorem groupIssue_bad {s : State} {gid w : Nat} {e : GI} (hg : s.gi gid .nop = some e) (hf : e.g.free = true)
    (hn : e.nextInstr s = .bad w) : s.groupIssue gid = (none, e.trapHere s .illegal w 0 0) := by
  simp [State.groupIssue, hg, hf, hn]
/-- A step that is such a group's turn. -/
theorem step_badTurn {s : State} {gid w : Nat} {r : List Turn} {e : GI} (hp : s.power = true) (ho : s.overdue = none)
    (hl : s.tick.lateDue = none) (ha : s.agenda = .group gid :: r) (hg : ({ s.tick with agenda := r } : State).gi gid .nop = some e)
    (hc : ({ s.tick with agenda := r } : State).choose e.g.core e.g.quad = some gid) (hf : e.g.free = true)
    (hn : e.nextInstr { s.tick with agenda := r } = .bad w) :
    step s = .next (e.trapHere { s.tick with agenda := r } .illegal w 0 0) := by
  have ht : s.tick.agenda = .group gid :: r := ha
  have hs : s.tick.select = asRun (({ s.tick with agenda := r } : State).groupTurn gid) := by
    simp only [State.select, hl, ht]
  rw [step_select hp ho, hs, groupTurn_chosen hg hc, groupIssue_bad hg hf hn]
  rfl
/-- A misplaced instruction is ILLEGAL before any other check (R97, R105). -/
theorem check_misplaced {e : GI} {s : State} (h : e.i.placeOk e.g.ctl.pos.k e.words.length e.g.ctl.len = false) :
    e.check s = some .illegal := by
  simp [GI.check, h]
/-- The control instructions of one word that R97 lets stand only as the last word of their clause, or only alone in it. -/
theorem misplaced_of_listed {i : Instr} {c : Cond} {o : Int} {p imm k len : Nat}
    (h : (i ∈ [.bra c o, .brz p o, .brnz p o, .call o, .jmps p, .ret, .exit, .trapu imm, .mif p o, .mbrk p o, .mcont p o] ∧ k ≠ len) ∨
      (i ∈ [.melse o, .mend, .mloop, .mendl o] ∧ len ≠ 1)) :
    encode i ≠ [] ∧ i.placeOk k (encode i).length len = false := by
  rcases h with ⟨hi, hk⟩ | ⟨hi, hl⟩ <;> simp only [List.mem_cons, List.not_mem_nil, or_false] at hi
  · have hlast : (k + 1 - 1 == len) = false := by simpa using hk
    rcases hi with rfl | rfl | rfl | rfl | rfl | rfl | rfl | rfl | rfl | rfl | rfl <;> exact ⟨List.cons_ne_nil _ _, hlast⟩
  · have honly : (len == 1) = false := by simpa using hl
    rcases hi with rfl | rfl | rfl | rfl <;> exact ⟨List.cons_ne_nil _ _, honly⟩

/-- Settles O11: a header that is ill-formed is no instruction, and a misplaced control word fails the first check. -/
theorem clauseRules : Obligations.ClauseRules := by
  unfold Obligations.ClauseRules
  intro s e i r w p o c imm
  refine ⟨?header, ?misplaced⟩
  case header =>
    intro hp ho hl ha hg hc hf hk hw hh hb
    have hn : e.nextInstr { s.tick with agenda := r } = .bad w := by
      simpa [GI.nextInstr, nextOf, hk, hw, hh] using decodeNext_bad (decode_bad_header hh hb)
    have hpos : e.g.ctl.pos = ⟨e.g.ctl.pos.h, 0⟩ := by rw [← hk]
    rw [step_badTurn hp ho hl ha hg hc hf hn, GI.trapHere, hpos]
  case misplaced =>
    intro hp ht hg hr hh ho hm
    obtain ⟨hne, hplace⟩ := misplaced_of_listed hm
    have hi : e.i = i := gi_i hg
    rw [exec_refused hne hp ht hg hr hh ho (check_misplaced (by rw [GI.words, hi, hplace])), GI.word, GI.words, hi]

/-- Settles O24: no flag that WAIT names is set and no request to pre-empt is due, so that the header's own work is its entry. -/
theorem clauseHeaderEnters : Obligations.ClauseHeaderEnters := by
  unfold Obligations.ClauseHeaderEnters
  intro w a b l s e h hp
  obtain ⟨hk, hpre, hflags⟩ := hp
  have hany : ((List.range 12).any fun k => nbit w k && decide (e.g.flags.getD k 0 ≠ 0)) = false := by
    simp only [List.any_eq_false, List.mem_range, Bool.and_eq_true, decide_eq_true_eq, not_and, not_not]
    exact hflags
  change execClauseStart w a b l s = _
  unfold execClauseStart
  rw [issue_group h]
  simp only [hk, ne_eq, not_true_eq_false, if_false, hpre, Bool.false_eq_true, hany, GI.finish, modGroup_eq _ _ _ _ h.group]

end Sys2Proof.Machine
end

section
/-! SUPPORT. Held instructions that end, and deliveries behind a group's writes (R107, R219, R225, R239, R241, R242, R266, R267,
R272): what an instruction that holds its group comes back to, and what a delivery finds. -/
namespace Sys2Proof.Machine

/-- An instruction whose work is done goes on one word, by its group's level alone. -/
theorem finish_goesOn {e : GI} {s s1 : State} (hl : s1.HasLevel e.gid e.g.ctl.level) (hp : GoesOn s e) :
    e.finish s (.done s1) = e.goOn s s1 := by
  obtain ⟨g, hg, hgl⟩ := hl
  exact finish_goOn hg hgl hp
/-- Copies dropped as an acquire leave the group at its level. -/
theorem finish_dropPath {e : GI} {s s1 : State} (hl : s1.HasLevel e.gid e.g.ctl.level) (hp : GoesOn s e) (core t : Nat) (p : Path) :
    e.finish s (.done (s1.dropPath core p t)) = e.goOn s (s1.dropPath core p t) :=
  finish_goesOn (hl.of_groups (dropPath_groups s1 core t p)) hp
theorem gi_level {s : State} {gid : Nat} {i : Instr} {e : GI} (h : s.gi gid i = some e) : s.HasLevel e.gid e.g.ctl.level :=
  ⟨e.g, gi_gid h ▸ gi_group h, rfl⟩
/-- A group comes back to the instruction that holds it (R107, R219). -/
theorem runGroup_held {s : State} {gid : Nat} {i : Instr} {e : GI} (hg : s.gi gid i = some e) (hr : e.g.ready i = true)
    (hh : e.g.ctl.hold = some i) (f : GI → State → Fx) : s.runGroup i gid f = e.finish s (f e s) := by
  simp only [State.runGroup, hg, hr, hh, Bool.not_true, Bool.false_eq_true, if_false, if_true]
/-- What holds a group looks again at what it waits for (R224). -/
theorem exec_wWaitSatisfied {s : State} {gid : Nat} {i : Instr} {e : GI} (hp : s.power = true) (hg : s.gi gid i = some e)
    (hr : e.g.ready i = true) (hh : e.g.ctl.hold = some i) :
    exec (.wWaitSatisfied gid) s = .next (e.finish s (heldBody i e s)) := by
  change execWWaitSatisfied gid s = _
  simp only [execWWaitSatisfied, event_next hp, gi_group hg, hh, runGroup_held hg hr hh]
/-- Settles O45: each event finds what it waits for, and the group that it frees goes on from its own level. -/
theorem heldGroupsAndDeliveries : Obligations.HeldGroupsAndDeliveries := by
  unfold Obligations.HeldGroupsAndDeliveries
  constructor
  · intro gid k p d a die l sc e m r x xs
    refine ⟨?fence, ?ordent, ?mbxrecv, ?deal, ?close⟩
    case fence =>
      rintro s hp ⟨hg, hh, hr, hf, hgo⟩
      rw [exec_wWaitSatisfied hp hg hr hh]
      simp only [heldBody, fenceBody, hf, if_true, finish_goesOn (gi_level hg) hgo]
    case ordent =>
      rintro s hp ⟨hg, hh, hpre, hgo, had⟩
      have hgid := gi_gid hg
      subst hgid
      have hall : ((lanesOf (e.g.active &&& ~~~e.g.helpers)).map (e.ordLane k p)).all (fun x => s.admits e.die e.ctx
          ((lanesOf (e.g.active &&& ~~~e.g.helpers)).map (e.ordLane k p)) x.1 x.2) = true := by
        simpa only [List.all_map, List.all_eq_true, Function.comp_apply] using had
      change execOrdentAdmit e.gid s = _
      simp only [execOrdentAdmit, event_next hp, gi_group hg, hh, hg, hpre, hall, and_self, if_true]
      refine congrArg Host.Outcome.next (finish_dropPath ?_ hgo _ _ _)
      exact (gi_level hg).mod _ fun _ => rfl
    case mbxrecv =>
      rintro s hp ⟨hg, hh, hx, ho, ht, hgo⟩
      have hgid := gi_gid hg
      subst hgid
      change execMbxrecvTake e.gid s = _
      have hx' : (s.die (coreDie e.g.core)).mbx = x :: xs := hx
      simp only [execMbxrecvTake, event_next hp, gi_group hg, hh, hg, hx', ho, ht, Bool.not_true, Bool.or_self, Bool.false_eq_true,
        if_false]
      refine congrArg Host.Outcome.next (finish_dropPath ?_ hgo _ _ _)
      exact State.HasLevel.mod ((gi_level hg).of_groups rfl) _ fun _ => rfl
    case deal =>
      rintro s hp ⟨hd, hh⟩
      change execRegroupRoundClose die l s = _
      simp only [execRegroupRoundClose, event_next hp, hd, hh, Bool.false_eq_true, if_false]
    case close =>
      intro s hp hd
      change execRegroupRoundClose die l s = _
      simp only [execRegroupRoundClose, event_next hp, hd]
      rfl
  · intro n d k c fwd e a o r
    refine ⟨?bararr, ?deliver, ?pubw, ?ordexit⟩
    case bararr =>
      rintro s hp ⟨ha, hg, hops, hat, harr, hagr⟩
      have hops' : a.await.ops.isEmpty = true := by rw [hops]; rfl
      have harr' : e.arrived { s with work := { s.work with arrives := tdel s.work.arrives n } } a.bar = false := harr
      have hagr' : State.barAgrees { s with work := { s.work with arrives := tdel s.work.arrives n } } e.g.team
          (e.barOf { s with work := { s.work with arrives := tdel s.work.arrives n } } a.bar) a.c = true := hagr
      change execBararrArrive n s = _
      simp only [execBararrArrive, event_next hp, ha, hg, hops', hat, harr', hagr', Bool.not_true, Bool.or_self, Bool.false_eq_true,
        if_false]
    case deliver =>
      rintro s hp ⟨ho, hi, hst, hg, hearly, hrel, hdie, hreach, hroom⟩
      change execMbxDeliver n s = _
      simp only [execMbxDeliver, event_next hp, ho, hi, hg, hdie, hreach, Nat.not_le.mpr hroom]
      refine congrArg Host.Outcome.next ((if_neg ?none_earlier).trans ?queued)
      case none_earlier =>
        simp only [hst, hrel, ne_eq, not_true_eq_false, decide_false, Bool.not_true, Bool.or_false, Bool.false_or, List.any_eq_true,
          Bool.and_eq_true, decide_eq_true_eq, beq_iff_eq]
        rintro ⟨q, hm, ⟨⟨hlt, hgid⟩, hqst⟩, hq⟩
        split at hq
        case h_1 x y f hqi => exact hearly q hm hlt hgid hqst x f (by rw [hqi, beq_iff_eq.mp hq])
        case h_2 => cases hq
      case queued => simp
    case pubw =>
      rintro s hp ⟨ho, hi, hst, hrel⟩
      change execPubwStore n s = _
      simp only [execPubwStore, event_next hp, ho, hi, hst, hrel, decide_true, Bool.and_self, if_true]
    case ordexit =>
      rintro s hp ⟨hr, hrel⟩
      change execOrdexitRelease n s = _
      simp only [execOrdexitRelease, event_next hp, hr, hrel, Bool.not_true, Bool.false_eq_true, if_false]
      rfl

end Sys2Proof.Machine
end

section
/-! SUPPORT. Operations that complete, commands and draws that start, accesses that the moving bit held (R107, R249 to R256, R265,
R326, R488). -/
namespace Sys2Proof.Machine

/-! ### Matrix commands (R249, R258) -/

/-- The queue of an array whose oldest command may start. -/
theorem startsNext_queue {s : State} {m n : Nat} {o : Op} (h : s.startsNext m n o) : ∃ r, s.arrayQueue m = n :: r := by
  obtain ⟨hq, -⟩ := h
  cases hx : s.arrayQueue m with
  | nil => rw [hx] at hq; cases hq
  | cons k r =>
    rw [hx] at hq
    cases hq
    exact ⟨r, rfl⟩
theorem startsNext_op {s : State} {m n : Nat} {o : Op} (h : s.startsNext m n o) : tget s.work.ops n = some o := by
  obtain ⟨-, ho, -⟩ := h
  exact ho
/-- Nothing holds it back: its array is free, and what R258 orders before it is done. -/
theorem startsNext_free {s : State} {m n : Nat} {o : Op} (h : s.startsNext m n o) :
    ((s.arrayRun m).isSome || o.st != .engine || !o.await.ops.isEmpty) = false := by
  obtain ⟨-, -, hrun, hst, haw⟩ := h
  simp [hrun, hst, haw]

/-! ### Draws (R265, R420) -/

/-- No entry of the fault queue holds an operation's draw (R326). -/
theorem no_draw_held {l : Tbl FaultRec} {n : Nat} (h : ∀ y ∈ l, ¬ (y.2.kind = 4 ∧ y.2.moving = true ∧ y.2.holder = n)) :
    (l.any fun f => f.2.kind == 4 && f.2.moving && f.2.holder == n) = false := by
  simpa [List.any_eq_false, and_assoc] using h

/-! ### Accesses that the moving bit held (R326, R488) -/

section
variable {s s1 : State} {n : Nat} {o : Op} {e : GI} (hp : s.power = true) (ho : tget s.work.ops n = some o)
  (hg : s.gi o.gid o.instr = some e) (hst : o.st = .moving none)
include hp ho hg hst

/-- A held access with a plan of its own looks at its page again. -/
theorem exec_mvRecheck_plan {p : Plan} (hw : heldWork o.instr = none)
    (hpl : planOf o.instr o.svals o.vvals o.lanes e.launch.priv e.team.size e.launch.scrBytes = some p) :
    exec (.mvRecheck n) s = .next (e.recheckPlan s n o p) := by
  change execMvRecheck n s = _
  simp only [execMvRecheck, event_next hp, ho, hg, hst, hw, hpl, ne_eq, not_true_eq_false, if_false]
/-- One that reads a descriptor or records first does its work again, and goes on where that does. -/
theorem exec_mvRecheck_on {work : GI → State → Fx} (hw : heldWork o.instr = some work) (hon : e.heldAgain s n o work = .on s1) :
    exec (.mvRecheck n) s = .next s1 := by
  change execMvRecheck n s = _
  simp only [execMvRecheck, event_next hp, ho, hg, hst, hw, hon, ne_eq, not_true_eq_false, if_false]
theorem exec_mvRecheck_wait {work : GI → State → Fx} (hw : heldWork o.instr = some work) (hwait : e.heldAgain s n o work = .wait) :
    exec (.mvRecheck n) s = .next s := by
  change execMvRecheck n s = _
  simp only [execMvRecheck, event_next hp, ho, hg, hst, hw, hwait, ne_eq, not_true_eq_false, if_false]

end

/-- What a held access waits for once its page has moved: PUBW for the group's writes, AGDRAIN for its array, and any other for
its requests. -/
def movedSt (i : Instr) : OpSt :=
  match i with
  | .pubw _ _ => .engine
  | .agdrain _ _ _ => .engine
  | _ => .reqs
theorem recheckPlan_go {e : GI} {s s1 : State} {n : Nat} {o : Op} {p : Plan} {ts : List (Piece × Trans)} {sp : List Nat}
    (ht : (p.tags && s.tagsPending o.gid n) = false)
    (hc : p.check s (coreTlb o.core) (coreDie o.core) e.ctx o.user = (.go ts sp, s1)) :
    e.recheckPlan s n o p = (s1.modOp n fun y => { y with st := movedSt o.instr, misc := sp }).sendPieces p o.gid n o.core
      (coreDie o.core) e.ctx e.team.launch ts := by
  simp only [GI.recheckPlan, ht, hc, Bool.false_eq_true, if_false]
  rfl
theorem recheckPlan_moving {e : GI} {s s1 : State} {n : Nat} {o : Op} {p : Plan}
    (hc : p.check s (coreTlb o.core) (coreDie o.core) e.ctx o.user = (.moving, s1)) : e.recheckPlan s n o p = s := by
  simp only [GI.recheckPlan, hc, ite_self]

/-- Settles O46: each event finds its operation at the head of its queue, released, or on a page that moves no more. -/
theorem operationsCompleteAndStart : Obligations.OperationsCompleteAndStart := by
  unfold Obligations.OperationsCompleteAndStart
  intro n m d a b c q t sc sr r any z h e o f x p ts sp bs w0 w1 ws s1 s2
  refine ⟨?complete, ?tile, ?mmap, ?agdrain, ?read, ?queue, ?ld, ?st, ?plan, ?moving, ?work⟩
  case complete =>
    rintro s hp ⟨ho, hg, hgid, hflag, hacq, hend⟩
    change execLongOpComplete n s = _
    simp only [execLongOpComplete, event_next hp, ho, hg, hgid, hflag, hacq, hend, Bool.false_eq_true, if_false]
  case tile =>
    rintro s hp ⟨hs, hi⟩
    obtain ⟨k, hk⟩ := startsNext_queue hs
    simp only [List.mem_cons, List.not_mem_nil, or_false] at hi
    change execMatrixCommandStart m s = _
    rcases hi with hi | hi | hi | hi | hi | hi | hi <;>
      (simp only [execMatrixCommandStart, event_next hp, hk, startsNext_op hs, startsNext_free hs, Bool.false_eq_true, if_false, hi]; rfl)
  case mmap =>
    rintro s hp ⟨hs, hi, hrun, hg, hq⟩
    obtain ⟨k, hk⟩ := startsNext_queue hs
    rw [hi] at hg
    change execMatrixCommandStart m s = _
    simp only [execMatrixCommandStart, event_next hp, hk, startsNext_op hs, startsNext_free hs, hi, hrun, Option.isSome_none, hg,
      Option.bind_some, hq, Bool.false_eq_true, if_false]
    rfl
  case agdrain =>
    rintro s hp ⟨hs, hi⟩
    obtain ⟨k, hk⟩ := startsNext_queue hs
    change execMatrixCommandStart m s = _
    simp only [execMatrixCommandStart, event_next hp, hk, startsNext_op hs, startsNext_free hs, Bool.false_eq_true, if_false, hi]
  case read =>
    rintro s hp ⟨ho, hi, hg, hst, hheld, hrel, hmisc, hread⟩
    rw [hi] at hg
    change execDrawQueue n s = _
    simp only [execDrawQueue, event_next hp, ho, hi, hg, hst, no_draw_held hheld, hrel, hmisc, hread, ne_eq, not_true_eq_false,
      decide_false, Bool.not_true, Bool.or_self, Bool.false_eq_true, if_false, List.length_singleton, Nat.le_refl, if_true]
  case queue =>
    rintro s hp ⟨ho, hi, hg, hst, hheld, hrel, hmisc, hck, hqd⟩
    rw [hi] at hg
    have hlen : ¬ (w0 :: w1 :: ws).length ≤ 1 := by simp
    change execDrawQueue n s = _
    simp only [execDrawQueue, event_next hp, ho, hi, hg, hst, no_draw_held hheld, hrel, hmisc, ne_eq, not_true_eq_false,
      decide_false, Bool.not_true, Bool.or_self, Bool.false_eq_true, if_false, hlen, List.drop_succ_cons, List.drop_zero]
    rw [show s.fresh.1 = s.nextId from rfl, hck]
    simp only [hqd]
  case ld =>
    rintro s hp ⟨ho, hg, hi, hst, rfl, ht, hc⟩
    rw [exec_mvRecheck_plan hp ho hg hst (by rw [hi]; rfl) (by rw [hi]; rfl), recheckPlan_go (by rw [ht, Bool.and_false]) hc, hi]
    rfl
  case st =>
    rintro s hp ⟨ho, hg, hi, hst, rfl, ht, hc⟩
    rw [exec_mvRecheck_plan hp ho hg hst (by rw [hi]; rfl) (by rw [hi]; rfl), recheckPlan_go (by rw [ht, Bool.and_false]) hc, hi]
    rfl
  case plan =>
    rintro s hp ⟨ho, hg, hw, hst, hpl, ht, hc⟩
    rw [exec_mvRecheck_plan hp ho hg hst hw hpl, recheckPlan_go ht hc]
    rfl
  case moving =>
    rintro s hp ⟨ho, hg, hw, hst, hpl, hc⟩
    rw [exec_mvRecheck_plan hp ho hg hst hw hpl, recheckPlan_moving hc]
  case work =>
    intro work
    constructor
    · rintro s hp ⟨ho, hg, hw, hst, hon⟩
      exact exec_mvRecheck_on hp ho hg hst hw hon
    · rintro s hp ⟨ho, hg, hw, hst, hwait⟩
      exact exec_mvRecheck_wait hp ho hg hst hw hwait

end Sys2Proof.Machine
end

section
/-! SUPPORT. Instructions that write registers, predicates, uniform registers and MODE: what each shape of group work leaves
(R49, R144 to R168, R194). -/
namespace Sys2Proof.Machine

/-! ### The shapes of register writers -/

section
variable {i : Instr} {p : SI → State → SFx} {d a b : Nat}

/-- R49: a lane-by-lane instruction. -/
theorem writesRegs_lanewise {f : GI → Regs → Nat → Word} (hc : i.cls = .short)
    (hx : ∀ s, exec i s = s.issue i (fun e s => lanewise d (f e) e s) p) : WritesRegs i fun _ e => e.lanewise d (f e) :=
  writesRegs (q := fun _ e r => r.setV d e.lanes (f e e.g.regs)) hx hc fun _ _ => rfl
/-- R156: an instruction marked E. -/
theorem writesRegs_lanewiseE {f : Nat → Bool → Nat → Nat → Nat → Nat} (hc : i.cls = .short)
    (hx : ∀ s, exec i s = s.issue i (lanewiseE d a b f) p) : WritesRegs i fun _ e => e.unitE f d a b :=
  writesRegs (q := fun _ e r => r.setU (mPair e.mode) d e.lanes fun l => f (mEtype e.mode) (mSat e.mode)
    (e.g.regs.vu (mPair e.mode) a l) (e.g.regs.vu (mPair e.mode) b l) (e.g.regs.vu (mPair e.mode) d l)) hx hc fun _ _ => rfl
/-- R44, R167: an instruction that writes a predicate. -/
theorem writesRegs_predwise {f : GI → Mask} (hc : i.cls = .short) (hx : ∀ s, exec i s = s.issue i (predwise d f) p) :
    WritesRegs i fun _ e => e.g.regs.setPr d e.lanes (f e) :=
  writesRegs (q := fun _ e r => r.setPr d e.lanes (f e)) hx hc fun _ _ => rfl
/-- An instruction that writes one uniform register, ungated. -/
theorem writesRegs_setS {f : State → GI → DWord} (hc : i.cls = .short)
    (hx : ∀ s, exec i s = s.issue i (fun e s => .done (s.modRegs e.gid fun r => r.setS d (f s e))) p) :
    WritesRegs i fun s e => e.g.regs.setS d (f s e) :=
  writesRegs (q := fun s e r => r.setS d (f s e)) hx hc fun _ _ => rfl
/-- R152, R153: a uniform instruction with the flags that it gives. -/
theorem writesRegs_uniOp {f : DWord → DWord → DWord} {cc : Option (DWord → DWord → CC)} (hc : i.cls = .short)
    (hx : ∀ s, exec i s = uniOp i d a b f cc s) : WritesRegs i fun _ e => e.uniform d a b f cc := fun s e h hg => by
  rw [hx, uniOp, issue_regs h rfl hc hg]
  rfl
/-- An instruction that has no effect of its own writes its registers back as they are. -/
theorem writesRegs_nothing (hc : i.cls = .short) (hx : ∀ s, exec i s = s.issue i (fun _ s => .done s) p) :
    WritesRegs i fun _ e => e.g.regs := fun s e h hg => by
  have hshort : e.i.cls = .short := by rw [h.instr, hc]
  rw [hx, issue_goesOn h rfl h.level hg]
  simp only [GI.goOn, modGroup_eq _ _ _ _ h.group, GI.untagged, hshort, reduceCtorEq, or_self, if_false]
  rfl

end

/-! ### Vector instructions (R156 to R166, R181) -/

/-- Settles O16: each instruction marked E is a lane-by-lane writer of units. -/
theorem vectorIntegerByElements : Obligations.VectorIntegerByElements := by
  unfold Obligations.VectorIntegerByElements
  intro d a b imm k
  refine ⟨?iadd, ?isub, ?imul, ?imulhi, ?imulhn, ?imad, ?ishl, ?ishr, ?isra, ?imin, ?imax, ?iminn, ?imaxn, ?iabs, ?iaddi, ?ishli⟩
  all_goals exact writesRegs_lanewiseE rfl fun _ => rfl

/-- Settles O17: ICMP writes a predicate, and every other instruction named writes its register lane by lane. -/
theorem vectorBitsAndMoves : Obligations.VectorBitsAndMoves := by
  unfold Obligations.VectorBitsAndMoves
  intro d a b p hi n neg c imm k
  refine ⟨?iand, ?ior, ?ixor, ?clz, ?popc, ?brev, ?bfe, ?bfi, ?intlv2, ?intlv3, ?mov, ?movs, ?movi, ?movhi, ?packb, ?permb, ?isel,
    ?icmp⟩
  case icmp =>
    exact writesRegs_predwise (f := fun e => maskOf fun l => iCompare c n (intShape (mEtype e.mode)).1
      (e.g.regs.vu (mPair e.mode) a l) (e.g.regs.vu (mPair e.mode) b l)) rfl fun _ => rfl
  all_goals exact writesRegs_lanewise rfl fun _ => rfl

/-! ### Predicates (R167, R168, R194) -/

/-- Settles O18: a predicate is written, or a uniform register, or for STOP.hi nothing. -/
theorem predicateInstructions : Obligations.PredicateInstructions := by
  unfold Obligations.PredicateInstructions
  intro d a b o
  refine ⟨?pand, ?por, ?pxor, ?pandn, ?pcnt, ?pfirst, ?ptos, ?ptosHi, ?stop, ?stopHi, ?vote⟩
  case pand | por | pxor | pandn | pfirst | stop | vote => exact writesRegs_predwise rfl fun _ => rfl
  case pcnt | ptos | ptosHi => exact writesRegs_setS rfl fun _ => rfl
  case stopHi => exact writesRegs_nothing rfl fun _ => rfl

/-! ### Uniform instructions (R152 to R155) -/

/-- Settles O20: each is a uniform writer, but for SCMP, which writes CC alone, and SSEL, which takes one of its operands. -/
theorem uniformInstructions : Obligations.UniformInstructions := by
  unfold Obligations.UniformInstructions
  intro d a b f n c imm k
  refine ⟨?sadd, ?ssub, ?smul, ?smulh, ?sand, ?sor, ?sxor, ?sshl, ?sshr, ?ssra, ?smin, ?smax, ?scmp, ?ssel, ?smov, ?smovi,
    ?saddImm, ?smovhi⟩
  case scmp =>
    exact writesRegs (q := fun _ e r => { r with cc := ccSub (e.g.regs.sr a) (e.g.regs.sr b) }) (fun _ => rfl) rfl fun _ _ => rfl
  case ssel => exact writesRegs_setS rfl fun _ => rfl
  case smov => exact writesRegs_uniOp (a := a) (b := a) (f := fun x _ => x) (cc := none) rfl fun _ => rfl
  case smovi => exact writesRegs_uniOp (a := d) (b := d) (f := fun _ _ => BitVec.ofInt 64 imm) (cc := none) rfl fun _ => rfl
  case saddImm => exact writesRegs_uniOp (a := a) (b := a) (f := fun x _ => x + BitVec.ofInt 64 imm) (cc := none) rfl fun _ => rfl
  case smovhi => exact writesRegs_uniOp (a := a) (b := a) (f := fun x _ => x <<< 14 ||| BitVec.ofNat 64 k) (cc := none) rfl fun _ => rfl
  all_goals exact writesRegs_uniOp rfl fun _ => rfl

/-! ### Identity, sticky status and MODE (R76, R77, R144 to R151, R276) -/

/-- R48, R145: a MODE word that SETMODE may write. -/
theorem setModeTo_eq_some {old w : Word} {m image : Nat} (h : setModeTo old m image = some w) :
    w = (old &&& ~~~BitVec.ofNat 32 (modeBits m)) ||| (BitVec.ofNat 32 image &&& BitVec.ofNat 32 (modeBits m)) := by
  unfold setModeTo at h
  dsimp only at h
  split at h
  · exact (Option.some.inj h).symm
  · cases h
theorem nbit_eq_testBit (x k : Nat) : nbit x k = x.testBit k := by
  simp [nbit, Nat.testBit_eq_decide_div_mod_eq, Bool.beq_eq_decide_eq]
/-- R145: bit by bit, SETMODE takes the image where its mask names a field, and keeps MODE elsewhere. -/
theorem getLsbD_setModeTo {old w : Word} {m image k : Nat} (h : setModeTo old m image = some w) (hk : k < 32) :
    w.getLsbD k = if nbit (modeBits m) k then nbit image k else old.getLsbD k := by
  rw [setModeTo_eq_some h]
  simp only [nbit_eq_testBit, BitVec.getLsbD_or, BitVec.getLsbD_and, BitVec.getLsbD_not, BitVec.getLsbD_ofNat, hk, decide_true,
    Bool.true_and]
  cases (modeBits m).testBit k <;> simp
/-- R144, R145: SETMODE's work where the image that it writes is legal. -/
theorem writesMode {i : Instr} {s : State} {e : GI} {w : Word} {image : GI → Option Nat} {m : Nat} {p : SI → State → SFx}
    (hc : i.cls = .short)
    (hx : ∀ s, exec i s = s.issue i (fun e s => match modeFx e.mode m (image e) with
      | some w => .done (s.modRegs e.gid fun r => { r with mode := w })
      | none => .trap s .illegal e.word 0 0) p)
    (h : Issues s i e) (hg : GoesOn s e) (hw : (image e).bind (setModeTo e.mode m) = some w) :
    exec i s = .next (e.wrote s { e.g.regs with mode := w }) := by
  have hfx : modeFx e.mode m (image e) = some w := hw
  rw [hx, issue_regs (r := fun r => { r with mode := w }) h (by simp only [hfx]) hc hg]
  rfl
/-- A write of registers leaves the group at its level. -/
theorem State.HasLevel.modRegs {s : State} {gid : Nat} {l : Level} (h : s.HasLevel gid l) (f : Regs → Regs) :
    (s.modRegs gid f).HasLevel gid l :=
  h.mod (fun g => { g with regs := f g.regs }) fun _ => rfl
/-- R76, R148, R149: SREAD with clearing reads the status before and leaves it zero. -/
theorem sread_clears (d : Nat) (q : SrSel) : Completes (.sread d true q) GoesOn fun s e =>
    e.goOn s ((s.modRegs e.gid fun r => r.setS d ((s.sreadShared e.launch e.g.core q).getD (e.sreadOwn q))).modGroup e.gid
      fun g => { g with sticky := 0 }) := fun s e h hg => by
  refine issue_goesOn (f := fun e s => _) (p := fun e s => _) h rfl ?_ hg
  exact (h.level.modRegs _).mod (fun g => { g with sticky := 0 }) fun _ => rfl
/-- R77: an exception that is not due has no effect yet. -/
theorem lateOf_not_due {s : State} {gid core : Nat} {l : Late} {r : List Late} (h : s.gtOf core < l.due) :
    s.lateOf gid core (l :: r) = s := by
  simp [State.lateOf, Nat.not_le.mpr h]
/-- R77, R78: one that is due joins its group's sticky status. -/
theorem lateOf_due {s : State} {gid core : Nat} {g : Group} {l : Late} (hg : tget s.groups gid = some g) (h : l.due ≤ s.gtOf core) :
    tget (s.lateOf gid core [l]).groups gid = some { g with sticky := g.sticky ||| l.exc, late := g.late.tail } := by
  simp only [State.lateOf, h, if_true, modGroup_eq _ _ _ _ hg]
  exact arithAt_group (s := s.putGroup gid { g with late := g.late.tail }) (tget_tput _ _ _) _ _ _ _ _

/-- Settles O19: reads of identity write one register; SETMODE's new word is, bit by bit, image or old. -/
theorem identityAndMode : Obligations.IdentityAndMode := by
  unfold Obligations.IdentityAndMode
  refine ⟨?reads, ?clearing, ?late, ?setmode⟩
  case reads =>
    intro d k q r
    refine ⟨?idx, ?sread, ?spanq, ?mater, ?getmode, ?csrr⟩
    case idx =>
      exact writesRegs_lanewise (f := fun e _ l => match e.g.items.getD l none with
        | some it => idxValue e.launch it l k
        | none => 0) rfl fun _ => rfl
    case mater => exact writesRegs_nothing rfl fun _ => rfl
    all_goals exact writesRegs_setS rfl fun _ => rfl
  case clearing => exact sread_clears
  case late =>
    intro s gid core g l hg hl
    exact ⟨lateOf_not_due, fun hdue => (lateOf_due hg hdue).trans (by rw [hl]; rfl)⟩
  case setmode =>
    intro m a imm w
    refine ⟨?reg, ?imm, fun old k hk image h => getLsbD_setModeTo h hk⟩
    case reg =>
      rintro s e h ⟨hg, hw⟩
      exact writesMode (image := fun e => some (nfld (e.g.regs.sr a).toNat 0 32)) rfl (fun _ => rfl) h hg hw
    case imm =>
      rintro s e h ⟨hg, hw⟩
      exact writesMode (image := fun _ => modeImage m imm) rfl (fun _ => rfl) h hg hw

end Sys2Proof.Machine
end

section
/-! SUPPORT. Control: transfers, the mask stack below its spill area, EXIT, and the instructions that trap (R128 to R139, R278,
R279). -/
namespace Sys2Proof.Machine

/-! ### Transfers (R128 to R131) -/

/-- An instruction that sends control to a clause header where it can go. -/
theorem issue_jumpTo {s s1 : State} {i : Instr} {e : GI} {f : GI → State → Fx} {p : SI → State → SFx} {t : Nat}
    (h : Issues s i e) (hf : f e s = .jump s1 t) (hl : s1.HasLevel e.gid e.g.ctl.level) (ht : GoesTo s e t) :
    s.issue i f p = .next (e.jumpTo s s1 t) := by
  obtain ⟨g, hg, hgl⟩ := hl
  rw [issue_group h, hf, finish_jumpTo hg hgl ht]
/-- A conditional branch goes to its target where its condition holds, and on where it does not. -/
theorem completes_branch {i : Instr} {c : GI → Prop} [DecidablePred c] {t : GI → Nat} {p : SI → State → SFx}
    (hx : ∀ s, exec i s = s.issue i (fun e s => if c e then .jump s (t e) else .done s) p) :
    Completes i (fun s e => c e ∧ GoesTo s e (t e)) (fun s e => e.jumpTo s s (t e)) ∧
    Completes i (fun s e => ¬ c e ∧ GoesOn s e) (fun s e => e.goOn s s) := by
  refine ⟨?taken, ?passed⟩
  case taken =>
    rintro s e h ⟨hc, ht⟩
    rw [hx, issue_jumpTo h (if_pos hc) h.level ht]
  case passed =>
    rintro s e h ⟨hc, hg⟩
    rw [hx, issue_goesOn h (if_neg hc) h.level hg]
/-- R131: a transfer to the address in a uniform register. -/
theorem jumpReg_goes {i : Instr} {n : Nat} (hx : ∀ s, exec i s = jumpReg i n s) :
    Completes i (fun s e => addrOk (e.g.regs.sr n) = true ∧ GoesTo s e (e.g.regs.sr n).toNat)
      (fun s e => e.jumpTo s s (e.g.regs.sr n).toNat) := by
  rintro s e h ⟨ha, ht⟩
  rw [hx, jumpReg, issue_jumpTo h (if_pos ha) h.level ht]

/-- Settles O25: a branch that is taken, or passed; a call and the transfers by register; NOP. -/
theorem branchesAndCalls : Obligations.BranchesAndCalls := by
  unfold Obligations.BranchesAndCalls
  intro c o p a
  obtain ⟨hbra, hbra'⟩ :=
    completes_branch (i := .bra c o) (c := fun e => c.holds e.g.regs.cc = true) (t := fun e => e.target o) fun _ => rfl
  obtain ⟨hbrz, hbrz'⟩ :=
    completes_branch (i := .brz p o) (c := fun e => e.g.regs.pr p &&& e.g.active = 0) (t := fun e => e.target o) fun _ => rfl
  obtain ⟨hbrnz, hbrnz'⟩ :=
    completes_branch (i := .brnz p o) (c := fun e => e.g.regs.pr p &&& e.g.active ≠ 0) (t := fun e => e.target o) fun _ => rfl
  refine ⟨hbra, ?passed, hbrz, hbrz', hbrnz, ?none, ?call, jumpReg_goes fun _ => rfl, jumpReg_goes fun _ => rfl, ?nop⟩
  case passed =>
    rintro s e h ⟨hc, hg⟩
    exact hbra' s e h ⟨Bool.eq_false_iff.mp hc, hg⟩
  case none =>
    rintro s e h ⟨hz, hg⟩
    exact hbrnz' s e h ⟨not_not.mpr hz, hg⟩
  case call =>
    rintro s e h ⟨ha, ht⟩
    change execCall o s = _
    rw [execCall, issue_jumpTo h (if_pos ha) (h.level.modRegs _) ht]
    rfl
  case nop =>
    intro s e h hg
    change execNop s = _
    rw [execNop, issue_goesOn h rfl h.level hg]

/-! ### The mask stack (R136 to R140) -/

/-- R50: a mask instruction that neither spills nor refills has its effect at once. -/
theorem maskFx_unspilled {e : GI} {s : State} {o : MaskOut} (hold : e.g.stack.length ≤ 16) (hnew : o.stack.length ≤ 16) :
    e.maskFx s o = e.maskApply s o := by
  have h0 : spilledOf e.g.stack = 0 := Nat.sub_eq_zero_of_le hold
  have h1 : spilledOf o.stack = 0 := Nat.sub_eq_zero_of_le hnew
  simp [GI.maskFx, spillWrites, spillReads, h0, h1]

section
variable {i : Instr} {s : State} {e : GI} {f : GI → Option MaskOut} {p : SI → State → SFx} {st : List MaskEntry} {a : Mask} {m : Word}

/-- A mask instruction leaves its group at its level. -/
theorem masked_level (h : Issues s i e) : (e.masked s st a m).HasLevel e.gid e.g.ctl.level :=
  h.level.mod (fun g => { g with stack := st, active := a, regs := { g.regs with mode := m } }) fun _ => rfl
/-- R139: a mask instruction after which control goes on. -/
theorem mask_goesOn (hx : ∀ s, exec i s = s.issue i (fun e => maskGroup f e) p) (h : Issues s i e)
    (hf : f e = some ⟨st, a, m, none, false⟩) (hold : e.g.stack.length ≤ 16) (hnew : st.length ≤ 16) (hg : GoesOn s e) :
    exec i s = .next (e.goOn s (e.masked s st a m)) := by
  have hw : maskGroup f e s = .done (e.masked s st a m) := by
    rw [maskGroup, hf]
    exact maskFx_unspilled hold hnew
  rw [hx, issue_goesOn h hw (masked_level h) hg]
/-- R139: a mask instruction after which control goes to its target. -/
theorem mask_goesTo {t : Nat} (hx : ∀ s, exec i s = s.issue i (fun e => maskGroup f e) p) (h : Issues s i e)
    (hf : f e = some ⟨st, a, m, some t, false⟩) (hold : e.g.stack.length ≤ 16) (hnew : st.length ≤ 16) (ht : GoesTo s e t) :
    exec i s = .next (e.jumpTo s (e.masked s st a m) t) := by
  have hw : maskGroup f e s = .jump (e.masked s st a m) t := by
    rw [maskGroup, hf]
    exact maskFx_unspilled hold hnew
  rw [hx, issue_jumpTo h hw (masked_level h) ht]

end

/-- The newest entry of a kind is the last one, where it is of that kind, and else the newest of those before it. -/
theorem newest_concat (l : List MaskEntry) (x : MaskEntry) (k : MKind) :
    newest (l ++ [x]) k = if x.kind = k then some l.length else newest l k := by
  by_cases h : x.kind = k <;> simp [newest, List.zipIdx_append, h]
/-- Lanes leave the entries from an index on, and no entry before it. -/
theorem clearFrom_append (l r : List MaskEntry) (m : Mask) :
    clearFrom (l ++ r) l.length m = l ++ r.map fun x => { x with mask := x.mask &&& ~~~m } := by
  rw [clearFrom, List.zipIdx_append, List.map_append]
  congr 1
  · refine (List.map_congr_left fun x hx => ?_).trans (List.zipIdx_map_fst 0 l)
    rw [if_neg (Nat.not_le.mpr (by simpa using List.snd_lt_of_mem_zipIdx hx))]
  · conv_rhs => rw [← List.zipIdx_map_fst (0 + l.length) r, List.map_map]
    refine List.map_congr_left fun x hx => ?_
    rw [if_pos (by simpa using List.le_snd_of_mem_zipIdx hx)]
    rfl
/-- The lanes that stay where those of a predicate leave. -/
theorem and_not_and (a b : Mask) : a &&& ~~~(a &&& b) = a &&& ~~~b := by
  ext k
  cases ha : a[k] <;> simp [ha]
theorem and_eq_self_of_and_not {a b : Mask} (h : a &&& ~~~b = 0) : a &&& b = a := by
  have hs : (a &&& b) ||| (a &&& ~~~b) = a := by
    ext k
    cases ha : a[k] <;> simp [ha]
  rw [h] at hs
  exact BitVec.or_zero.symm.trans hs

section
variable {e : GI} {st : List MaskEntry} {x y : MaskEntry}

/-- R139: the newest loop of a group that is in no construct inside it. -/
theorem newest_loopB (hs : e.g.stack = st ++ [x, y]) (hx : x.kind = .loopB) (hy : y.kind = .loopC) :
    newest e.g.stack .loopB = some st.length := by
  rw [hs, List.append_cons, newest_concat, newest_concat, hx, hy, if_neg nofun, if_pos rfl]
theorem newest_loopC (hs : e.g.stack = st ++ [x, y]) (hy : y.kind = .loopC) : newest e.g.stack .loopC = some (st.length + 1) := by
  rw [hs, List.append_cons, newest_concat, hy, if_pos rfl, List.length_append, List.length_singleton]
/-- R139: lanes that break leave the loop's continuing lanes. -/
theorem clearFrom_loopC (hs : e.g.stack = st ++ [x, y]) (m : Mask) :
    clearFrom e.g.stack (st.length + 1) m = st ++ [x, { y with mask := y.mask &&& ~~~m }] := by
  have h := clearFrom_append (st ++ [x]) [y] m
  simpa [hs] using h
/-- R139: lanes that continue leave no entry, where the loop's pair is the newest. -/
theorem clearFrom_above (hs : e.g.stack = st ++ [x, y]) (m : Mask) : clearFrom e.g.stack (st.length + 1 + 1) m = st ++ [x, y] := by
  have h := clearFrom_append (st ++ [x, y]) [] m
  simpa [hs] using h
/-- R139: MBRK, with lanes left in the body. -/
theorem mbrk_stays (hs : e.g.stack = st ++ [x, y]) (hx : x.kind = .loopB) (hy : y.kind = .loopC) {p t : Nat}
    (ha : e.g.active &&& ~~~(e.g.regs.pr p) ≠ 0) :
    e.leave .loopB p t = some ⟨st ++ [x, { y with mask := y.mask &&& ~~~(e.g.active &&& e.g.regs.pr p) }],
      e.g.active &&& ~~~(e.g.active &&& e.g.regs.pr p), e.mode, none, false⟩ := by
  rw [← and_not_and] at ha
  simp only [GI.leave, newest_loopB hs hx hy, clearFrom_loopC hs, ha, false_and, if_false, GI.keep]
/-- R139: MBRK, with no lane left in the body or to continue: the pair is popped. -/
theorem mbrk_leaves (hs : e.g.stack = st ++ [x, y]) (hx : x.kind = .loopB) (hy : y.kind = .loopC) {p t : Nat}
    (ha : e.g.active &&& ~~~(e.g.regs.pr p) = 0) (hm : y.mask &&& ~~~e.g.active = 0) :
    e.leave .loopB p t = some ⟨st, x.mask, x.mode, some t, false⟩ := by
  have hall := and_eq_self_of_and_not ha
  rw [← and_not_and] at ha
  simp [GI.leave, newest_loopB hs hx hy, clearFrom_loopC hs, hall, hm, GI.keep]
/-- R139: MCONT, with lanes left in the body. -/
theorem mcont_stays (hs : e.g.stack = st ++ [x, y]) (hy : y.kind = .loopC) {p t : Nat} (ha : e.g.active &&& ~~~(e.g.regs.pr p) ≠ 0) :
    e.leave .loopC p t = some ⟨st ++ [x, y], e.g.active &&& ~~~(e.g.active &&& e.g.regs.pr p), e.mode, none, false⟩ := by
  rw [← and_not_and] at ha
  simp only [GI.leave, newest_loopC hs hy, clearFrom_above hs, ha, false_and, if_false, GI.keep]
/-- R139: MCONT, with no lane left in the body. -/
theorem mcont_leaves (hs : e.g.stack = st ++ [x, y]) (hy : y.kind = .loopC) {p t : Nat} (ha : e.g.active &&& ~~~(e.g.regs.pr p) = 0) :
    e.leave .loopC p t = some ⟨st ++ [x, y], e.g.active &&& ~~~(e.g.active &&& e.g.regs.pr p), e.mode, some t, false⟩ := by
  rw [← and_not_and] at ha
  have hlen : (st ++ [x, y]).length ≤ st.length + 1 + 1 := by simp
  simp only [GI.leave, newest_loopC hs hy, clearFrom_above hs, ha, List.drop_of_length_le hlen, List.take_of_length_le hlen,
    List.all_nil, and_self, if_true, GI.keep]
/-- R139: MENDL while lanes continue. -/
theorem mendl_back (hs : e.g.stack = st ++ [x, y]) (hx : x.kind = .loopB) (hy : y.kind = .loopC) (hm : y.mask ≠ 0) (t : Nat) :
    e.mendl t = some ⟨st ++ [x, y], y.mask, y.mode, some t, false⟩ := by
  simp only [GI.mendl, GI.keep, hs, List.reverse_append, List.reverse_cons, List.reverse_nil, List.nil_append, List.cons_append, hx, hy,
    and_self, if_true, hm, ne_eq, not_false_eq_true]
/-- R139: MENDL once no lane continues. -/
theorem mendl_pops (hs : e.g.stack = st ++ [x, y]) (hx : x.kind = .loopB) (hy : y.kind = .loopC) (hm : y.mask = 0) (t : Nat) :
    e.mendl t = some ⟨st, x.mask, x.mode, none, false⟩ := by
  simp [GI.mendl, GI.keep, hs, hx, hy, hm]
/-- R139: MIF below the limit of the stack. -/
theorem mif_pushes (hl : e.g.stack.length < 256) (p t : Nat) :
    e.mif p t = some ⟨e.g.stack ++ [⟨e.g.active, e.mode, .ifK, 0⟩], e.g.active &&& e.g.regs.pr p, e.mode,
      if e.g.active &&& e.g.regs.pr p = 0 then some t else none, false⟩ := by
  simp only [GI.mif, GI.keep, Nat.not_le.mpr hl, if_false]
/-- R139: MELSE turns the newest entry, of an IF. -/
theorem melse_turns (hs : e.g.stack = st ++ [x]) (hx : x.kind = .ifK) (t : Nat) :
    e.melse t = some ⟨st ++ [{ x with kind := .elseK, atEnd := 0 }], x.mask &&& ~~~e.g.active &&& ~~~x.atEnd, x.mode,
      if x.mask &&& ~~~e.g.active &&& ~~~x.atEnd = 0 then some t else none, false⟩ := by
  simp only [GI.melse, GI.keep, hs, List.getLast?_concat, hx, if_true, List.dropLast_concat]
/-- R139: MEND pops the newest entry, of an IF or its ELSE. -/
theorem mend_pops (hs : e.g.stack = st ++ [x]) (hx : x.kind = .ifK ∨ x.kind = .elseK) :
    e.mend = some ⟨st, x.mask, x.mode, none, false⟩ := by
  simp only [GI.mend, GI.keep, hs, List.getLast?_concat, hx, if_true, List.dropLast_concat]
/-- R139: MLOOP below the limit of the stack. -/
theorem mloop_pushes (hl : e.g.stack.length < 255) :
    e.mloop = some ⟨e.g.stack ++ [⟨e.g.active, e.mode, .loopB, 0⟩, ⟨e.g.active, e.mode, .loopC, 0⟩], e.g.active, e.mode,
      none, false⟩ := by
  simp only [GI.mloop, GI.keep, Nat.not_le.mpr hl, if_false]
/-- R50: a stack of a few entries above `st` spills none. -/
theorem unspilled {l r : List MaskEntry} (hs : l = st ++ r) (h : st.length + r.length ≤ 16) : l.length ≤ 16 := by
  rw [hs, List.length_append]
  exact h

end

/-- Settles O26: what each construct makes of the stack, and where control goes. -/
theorem maskInstructions : Obligations.MaskInstructions := by
  unfold Obligations.MaskInstructions
  refine ⟨?ifs, ?loops⟩
  case ifs =>
    intro p o st x
    refine ⟨?mif, ?mifNone, ?melse, ?melseNone, ?mend⟩
    case mif =>
      rintro s e h ⟨hl, ha, hg⟩
      exact mask_goesOn (fun _ => rfl) h ((mif_pushes (by omega) _ _).trans (by rw [if_neg ha])) hl.le (unspilled rfl hl) hg
    case mifNone =>
      rintro s e h ⟨hl, ha, ht⟩
      exact mask_goesTo (fun _ => rfl) h ((mif_pushes (by omega) _ _).trans (by rw [if_pos ha, ha])) hl.le (unspilled rfl hl) ht
    case melse =>
      rintro s e h ⟨hs, hl, hx, ha, hg⟩
      exact mask_goesOn (fun _ => rfl) h ((melse_turns hs hx _).trans (by rw [if_neg ha])) (unspilled hs hl) (unspilled rfl hl) hg
    case melseNone =>
      rintro s e h ⟨hs, hl, hx, ha, ht⟩
      exact mask_goesTo (fun _ => rfl) h ((melse_turns hs hx _).trans (by rw [if_pos ha, ha])) (unspilled hs hl) (unspilled rfl hl) ht
    case mend =>
      rintro s e h ⟨hs, hl, hx, hg⟩
      exact mask_goesOn (fun _ => rfl) h (mend_pops hs hx) (unspilled hs hl) hl.le hg
  case loops =>
    intro p o st x y
    refine ⟨?mloop, ?mendl, ?mendlNone, ?mbrk, ?mbrkNone, ?mcont, ?mcontNone⟩
    case mloop =>
      rintro s e h ⟨hl, hg⟩
      exact mask_goesOn (fun _ => rfl) h (mloop_pushes (by omega)) (by omega) (unspilled rfl (Nat.succ_le_succ hl)) hg
    all_goals
      intro s e h hp
      obtain ⟨hs, hl, hx, hy, hp⟩ := hp
      have hpair : st.length + 2 ≤ 16 := by omega
    case mendl =>
      obtain ⟨hm, ht⟩ := hp
      exact mask_goesTo (fun _ => rfl) h (mendl_back hs hx hy hm _) (unspilled hs hpair) (unspilled rfl hpair) ht
    case mendlNone =>
      obtain ⟨hm, hg⟩ := hp
      exact mask_goesOn (fun _ => rfl) h (mendl_pops hs hx hy hm _) (unspilled hs hpair) (by omega) hg
    case mbrk =>
      obtain ⟨ha, hg⟩ := hp
      exact mask_goesOn (fun _ => rfl) h (mbrk_stays hs hx hy ha) (unspilled hs hpair) (unspilled rfl hpair) hg
    case mbrkNone =>
      obtain ⟨ha, hm, ht⟩ := hp
      exact mask_goesTo (fun _ => rfl) h (mbrk_leaves hs hx hy ha hm) (unspilled hs hpair) (by omega) ht
    case mcont =>
      obtain ⟨ha, hg⟩ := hp
      exact mask_goesOn (fun _ => rfl) h (mcont_stays hs hy ha) (unspilled hs hpair) (unspilled rfl hpair) hg
    case mcontNone =>
      obtain ⟨ha, ht⟩ := hp
      exact mask_goesTo (fun _ => rfl) h (mcont_leaves hs hy ha) (unspilled hs hpair) (unspilled rfl hpair) ht

/-! ### EXIT (R132) -/

/-- R132: EXIT's lanes leave every entry, and the group ends with the last lane that some entry holds. -/
theorem exit_eq (e : GI) : e.exit = ⟨e.g.stack.map fun x => { x with mask := x.mask &&& ~~~e.g.active }, 0, e.mode, none,
    (e.g.stack.map fun x => { x with mask := x.mask &&& ~~~e.g.active }).all fun x => x.mask == 0⟩ := by
  have h : clearFrom e.g.stack 0 e.g.active = e.g.stack.map fun x => { x with mask := x.mask &&& ~~~e.g.active } :=
    clearFrom_append [] e.g.stack e.g.active
  simp only [GI.exit, GI.keep, h]
/-- R132: a group in no ordered section leaves none. -/
theorem leaveSection_none {s : State} {gid : Nat} {g : Group} (hg : tget s.groups gid = some g) (hs : g.sect = none) (m : Mask) :
    s.leaveSection gid m = s := by
  unfold State.leaveSection
  cases hi : s.gi gid .nop with
  | none => rfl
  | some e =>
    have he : e.g = g := Option.some.inj ((gi_group hi).symm.trans hg)
    simp only [he, hs]
/-- EXIT's work, from what its effect on the mask stack answers: the lanes leave their ordered section too. -/
theorem exitBody_done {s s1 : State} {e : GI} (h : e.maskFx s e.exit = .done s1) :
    exitBody e s = .done (s1.leaveSection e.gid e.g.active) := by
  unfold exitBody
  rw [h]
theorem exitBody_stay {s s1 : State} {e : GI} {g : Group} (h : e.maskFx s e.exit = .stay s1) (hg : tget s1.groups e.gid = some g)
    (he : g.ctl.ending = true) : exitBody e s = .stay (s1.leaveSection e.gid e.g.active) := by
  unfold exitBody
  rw [h]
  dsimp only
  rw [hg]
  exact congrArg Fx.stay (if_pos he)
/-- R132: EXIT ends a group of which no entry holds another lane: it is left without lanes, and begins to end. -/
theorem exitBody_ends {s : State} {e : GI} (hg : tget s.groups e.gid = some e.g) (hs : e.g.stack = []) (hsect : e.g.sect = none) :
    exitBody e s = .stay ((e.masked s [] 0 e.mode).modCtl e.gid fun c => { c with ending := true, hold := none, holdArg := [] }) := by
  have hfx : e.maskFx s e.exit =
      .stay ((e.masked s [] 0 e.mode).modCtl e.gid fun c => { c with ending := true, hold := none, holdArg := [] }) := by
    rw [exit_eq, hs, maskFx_unspilled (by simp [hs]) (by simp)]
    rfl
  obtain ⟨g, hgrp, hend, hnone⟩ : ∃ g, tget ((e.masked s [] 0 e.mode).modCtl e.gid fun c =>
      { c with ending := true, hold := none, holdArg := [] }).groups e.gid = some g ∧ g.ctl.ending = true ∧ g.sect = none := by
    rw [GI.masked, modGroup_eq _ _ _ _ hg, modCtl_putGroup]
    exact ⟨_, tget_tput _ _ _, rfl, hsect⟩
  rw [exitBody_stay hfx hgrp hend, leaveSection_none hgrp hnone]
/-- R132: where an entry holds another lane, the group goes on without lanes. -/
theorem exitBody_goesOn {s : State} {e : GI} {y : MaskEntry} (hg : tget s.groups e.gid = some e.g) (hl : e.g.stack.length ≤ 16)
    (hy : y ∈ e.g.stack) (hm : y.mask &&& ~~~e.g.active ≠ 0) (hsect : e.g.sect = none) :
    exitBody e s = .done (e.masked s (e.g.stack.map fun x => { x with mask := x.mask &&& ~~~e.g.active }) 0 e.mode) := by
  have hall : (e.g.stack.map fun x => { x with mask := x.mask &&& ~~~e.g.active }).all (fun x => x.mask == 0) = false := by
    rw [List.all_eq_false]
    exact ⟨_, List.mem_map_of_mem hy, by simpa using hm⟩
  have hfx : e.maskFx s e.exit = .done (e.masked s (e.g.stack.map fun x => { x with mask := x.mask &&& ~~~e.g.active }) 0 e.mode) := by
    rw [exit_eq, hall, maskFx_unspilled hl (by simpa using hl)]
    rfl
  obtain ⟨g, hgrp, hnone⟩ : ∃ g, tget (e.masked s (e.g.stack.map fun x => { x with mask := x.mask &&& ~~~e.g.active }) 0
      e.mode).groups e.gid = some g ∧ g.sect = none := by
    rw [GI.masked, modGroup_eq _ _ _ _ hg]
    exact ⟨_, tget_tput _ _ _, hsect⟩
  rw [exitBody_done hfx, leaveSection_none hgrp hnone]

/-- Settles O27: with no entry left the group begins to end; with an entry that holds another lane it goes on. -/
theorem exitEndsLanes : Obligations.ExitEndsLanes := by
  unfold Obligations.ExitEndsLanes
  refine ⟨?ends, fun st x => ?goesOn⟩
  case ends =>
    rintro s e h ⟨hs, hsect⟩
    change execExit s = _
    rw [execExit, issue_group h, exitBody_ends h.group hs hsect]
    rfl
  case goesOn =>
    rintro s e h ⟨hs, hl, hm, hsect, hg⟩
    have hx : x ∈ e.g.stack := by simp [hs]
    change execExit s = _
    rw [execExit, issue_goesOn h (exitBody_goesOn h.group (unspilled hs hl) hx hm hsect) (masked_level h) hg, hs]

/-! ### Instructions that trap (R133, R278, R279, R372, R373) -/

/-- TRAPU raises USER at level S, with the next clause as its trap position (R133). -/
theorem exec_trapu {s : State} {e : GI} {imm : Nat} (h : Issues s (.trapu imm) e) :
    exec (.trapu imm) s = .next (s.raise e.gid ⟨.user, imm, 0, 0, ⟨e.g.ctl.nextHeader, 0⟩, false⟩) := by
  change execTrapu imm s = _
  rw [execTrapu, issue_group h]
  rfl
/-- BKPT raises its trap where it stands (R279). -/
theorem exec_bkpt {s : State} {e : GI} {imm : Nat} (h : Issues s (.bkpt imm) e) :
    exec (.bkpt imm) s = .next (s.raise e.gid ⟨.bkpt, imm, 0, 0, e.g.ctl.pos, false⟩) := by
  change execBkpt imm s = _
  rw [execBkpt, issue_group h]
  rfl
/-- TRAP raises USER at level M, with the next instruction as its trap position (R278). -/
theorem exec_trap {s : State} {e : GI} {imm : Nat} (h : Issues s (.trap imm) e) :
    exec (.trap imm) s = .next (s.raise e.gid ⟨.user, imm, 0, 0, e.after, true⟩) := by
  change execTrap imm s = _
  rw [execTrap, issue_group h]
  rfl
/-- A trap that is not PHYSRANGE is pending first wherever the group's level admits it (R370, R376). -/
theorem raise_pending {s : State} {e : GI} {i : Instr} {t : TrapRec} (hg : s.gi e.gid i = some e) (hc : t.cause ≠ .physrange)
    (hl : e.g.ctl.level = .u ∨ (e.g.ctl.level = .s ∧ t.toM = true) ∨ (e.g.ctl.level = .m ∧ t.cause = .user ∧ t.toM = true)) :
    s.raise e.gid t = (e.withTrap s t).enterTrap e.gid := by
  simp only [State.raise, gi_nop hg, hc, if_false, hl, if_true, modCtl_eq _ _ _ _ (gi_spec hg).2.2.1]
  rfl
/-- USER to level M is admitted at every level (R278, R376). -/
theorem user_admitted (l : Level) (t : TrapRec) (hc : t.cause = .user) (hm : t.toM = true) :
    l = .u ∨ (l = .s ∧ t.toM = true) ∨ (l = .m ∧ t.cause = .user ∧ t.toM = true) := by
  cases l with
  | u => exact .inl rfl
  | s => exact .inr (.inl ⟨rfl, hm⟩)
  | m => exact .inr (.inr ⟨rfl, hc, hm⟩)
/-- A pending trap to level M enters the firmware's handler, whatever stands there (R373). -/
theorem enterTrap_toM {s : State} {gid : Nat} {e : GI} {t : TrapRec} (hg : s.gi gid .nop = some e) (ht : e.g.ctl.trap = some t)
    (hm : t.toM = true) (hq : e.g.quiet = true) (hd : e.g.ctl.desched = none) :
    s.enterTrap gid = s.putGroup gid (e.entered t Config.mvec) := by
  simp only [State.enterTrap, hg, ht, hm, hq, hd, Bool.not_true, Option.isSome_none, Bool.or_self, Bool.false_eq_true, if_false, if_true,
    true_and, modGroup_eq _ _ _ _ (gi_group hg), GI.entered, GI.bankFor]
/-- R111, R196: a pending trap of a group whose instructions are not complete waits. -/
theorem enterTrap_waits {s : State} {gid : Nat} {e : GI} (hg : s.gi gid .nop = some e) (hq : e.g.quiet = false) :
    s.enterTrap gid = s := by
  unfold State.enterTrap
  rw [hg]
  dsimp only
  split
  · rfl
  · rw [hq]
    rfl
/-- R278, R373: a trap to level M that has been raised is taken at once where the group's instructions are complete. -/
theorem withTrap_enters {s : State} {e : GI} {i : Instr} {t : TrapRec} (hg : s.gi e.gid i = some e) (hm : t.toM = true)
    (hq : e.g.quiet = true) (hd : e.g.ctl.desched = none) :
    (e.withTrap s t).enterTrap e.gid = s.putGroup e.gid (e.entered t Config.mvec) := by
  rw [enterTrap_toM (withTrap_gi hg) rfl hm hq hd, GI.withTrap, putGroup_putGroup]
  rfl
/-- R373: a group with a pending trap issues nothing. -/
theorem not_ready_of_trap {g : Group} {t : TrapRec} (h : g.ctl.trap = some t) (i : Instr) : g.ready i = false := by
  simp [Group.ready, h]

/-- Settles O28: the traps of the three instructions, and a trap that waits. -/
theorem trapInstructionsTrap : Obligations.TrapInstructionsTrap := by
  unfold Obligations.TrapInstructionsTrap
  refine ⟨fun imm => ⟨?trapu, ?bkpt, ?trap⟩, ?waits⟩
  case trapu =>
    intro s e h ht
    rw [exec_trapu h, raise_takes h.gi rfl (show Cause.user ≠ .physrange by decide) ht]
  case bkpt =>
    intro s e h ht
    rw [exec_bkpt h, raise_takes h.gi rfl (show Cause.bkpt ≠ .physrange by decide) ht]
  case trap =>
    rintro s e h ⟨hq, hd⟩
    rw [exec_trap h, raise_pending h.gi (show Cause.user ≠ .physrange by decide) (user_admitted _ _ rfl rfl),
      withTrap_enters h.gi rfl hq hd]
  case waits =>
    intro s e t hg hl hc hq
    refine ⟨(raise_pending hg hc (.inl hl)).trans (enterTrap_waits (withTrap_gi hg) hq), fun i g h => ?_⟩
    rw [GI.withTrap, putGroup_groups, tget_tput] at h
    obtain rfl := Option.some.inj h
    exact not_ready_of_trap rfl i

end Sys2Proof.Machine
end

section
/-! SUPPORT. Float arithmetic, the special functions and the generator, and the cross-lane instructions: what each shape of
group work leaves (R75 to R78, R107, R108, R169 to R195). -/
namespace Sys2Proof.Machine

/-! ### Instructions that raise exceptions or start operations -/

/-- Exceptions that a Short instruction raises leave its group at its level (R77). -/
theorem raised_level {s : State} {e : GI} {l : Level} (h : s.HasLevel e.gid l) (x : Exc) (m : Mask) : (s.raised e x m).HasLevel e.gid l := by
  obtain ⟨g, hg, hl⟩ := h
  exact ⟨_, raised_group hg x m, hl⟩

section
variable {i : Instr} {p : SI → State → SFx} {d a b : Nat}

/-- An instruction whose own work ends in a state where its group has kept its level goes on from that state. -/
theorem completes_goOn {f : GI → State → Fx} {t : State → GI → State} (hx : ∀ s, exec i s = s.issue i f p)
    (hf : ∀ e s, f e s = .done (t s e)) (hl : ∀ s e, Issues s i e → (t s e).HasLevel e.gid e.g.ctl.level) :
    Completes i GoesOn fun s e => e.goOn s (t s e) := fun s e h hg => by
  rw [hx, issue_goesOn h (hf e s) (hl s e h) hg]
/-- R75 to R78: a Short instruction that rounds. -/
theorem completes_rounded {sr : GI → Bool} {w n : GI → Nat} {put : GI → Regs → (Nat → Nat) → Regs}
    {g : GI → Nat → Nat → Nat → Nat × Exc}
    (hx : ∀ s, exec i s = s.issue i (fun e s => floatFx (sr e) (w e) (n e) (put e) (g e) e s) p) :
    Completes i GoesOn fun s e => e.goOn s (e.rounded s (sr e) (w e) (n e) (put e) (g e)) :=
  completes_goOn hx (fun _ _ => rfl) fun _ _ h => rounded_group h.group _ _ _ _ _
/-- R169 to R175: a float instruction on registers of elements. -/
theorem completes_floats {rounds : Bool} {srcs : List Nat} {f : Fmt → FEnv → Nat → Nat → Nat → Nat → Nat × Exc}
    (hx : ∀ s, exec i s = floatOp i rounds srcs d a b f s) :
    Completes i GoesOn fun s e => e.goOn s (e.floats s rounds d a b f) :=
  completes_rounded hx
/-- R178 to R180: a conversion. -/
theorem completes_converted {k : Nat} {t : EType} {v : Word → FEnv} (hx : ∀ s, exec i s = cvtOp i d a k t v s) :
    Completes i GoesOn fun s e => e.goOn s (e.converted s d a k t (v e.mode)) :=
  completes_rounded hx
/-- R107, R108: a Long B float instruction forms results, exceptions and draws at issue, and its operation holds them. -/
theorem completes_longElems {sr : GI → Bool} {w n : GI → Nat} {g : GI → Nat → Nat → Nat → Nat × Exc}
    (hx : ∀ s, exec i s = s.issue i (fun e s => longFloat d (sr e) (w e) (n e) (g e) e s) p) :
    Completes i GoesOn fun s e => e.goOn s (e.longElems s d (sr e) (w e) (n e) (g e)) :=
  completes_goOn hx (fun _ _ => rfl) fun _ _ h => longElems_group h.group _ _ _ _ _
/-- R185: a special function. -/
theorem completes_special {fn : SFun} (hx : ∀ s, exec i s = specialOp fn i d a s) :
    Completes i GoesOn fun s e => e.goOn s (e.special s fn d a) :=
  completes_longElems hx
/-- R190: a difference within quads. -/
theorem completes_quadSub {pr : Nat → Nat × Nat} (hx : ∀ s, exec i s = quadDiff i d a pr s) :
    Completes i GoesOn fun s e => e.goOn s (e.quadSub s d a pr) :=
  completes_rounded hx
/-- R191, R192: a reduction or scan. -/
theorem completes_reduced {o : RedOp} {out : GI → Nat → RedVal} (hx : ∀ s, exec i s = s.issue i (fun e s => redFx o d (fun _ => out e) e s) p) :
    Completes i GoesOn fun s e => e.goOn s (e.reduced s o d (out e)) :=
  completes_goOn hx (fun _ _ => rfl) fun _ _ h => reduced_group h.group _ _ _

end

/-! ### Float arithmetic and conversion (R169 to R180) -/

/-- Settles O21: FCMP and FDOT2 round one value a lane, CVT and CVTI convert, every other instruction works on registers of
elements. FSCALE's NaN is the canonical one (assumption log 120), and SR rounds to an integer with quantum 1 (assumption log
70). -/
theorem floatInstructions : Obligations.FloatInstructions := by
  unfold Obligations.FloatInstructions
  refine ⟨fun d a b => ?arith, fun c d a b p k t r => ⟨?fcmp, ?fdot2, ?cvt, ?cvti⟩⟩
  case arith =>
    refine ⟨?fadd, ?fsub, ?fmul, ?fmad, ?fmsb, ?fmin, ?fmax, ?fneg, ?fabs, ?fclass, ?frndi, ?fscale⟩
    all_goals exact completes_floats fun _ => rfl
  case fcmp | fdot2 => exact completes_rounded fun _ => rfl
  case cvt => exact completes_converted (v := mEnv) fun _ => rfl
  case cvti => exact completes_converted (v := fun m => { mEnv m with rnd := r }) fun _ => rfl

/-! ### Quantising conversion, special functions and the generator (R182 to R185) -/

/-- Settles O22: QCVT and the special functions start operations; SETSEED changes the generators alone. -/
theorem longFloatAndSeed : Obligations.LongFloatAndSeed := by
  unfold Obligations.LongFloatAndSeed
  intro d a c
  refine ⟨?qcvt, ?rcp, ?rsq, ?sqrt, ?exp2, ?log2, ?sint, ?cost, ?tanh, ?setseed⟩
  case qcvt => exact completes_longElems fun _ => rfl
  case setseed => exact completes_goOn (fun _ => rfl) (fun _ _ => rfl) fun _ _ h => h.level.mod _ fun _ => rfl
  all_goals exact completes_special fun _ => rfl

/-! ### Cross-lane instructions (R186 to R195) -/

section
variable {i : Instr} {p : SI → State → SFx} {d a : Nat}

/-- A Short instruction that finds nothing to do writes its registers back as they are. -/
theorem issue_nothing {s : State} {e : GI} {f : GI → State → Fx} (hc : i.cls = .short) (h : Issues s i e) (hf : f e s = .done s)
    (hg : GoesOn s e) : s.issue i f p = .next (e.wrote s e.g.regs) := by
  have hshort : e.i.cls = .short := by rw [h.instr, hc]
  rw [issue_goesOn h hf h.level hg]
  simp only [GI.goOn, modGroup_eq _ _ _ _ h.group, GI.untagged, hshort, reduceCtorEq, or_self, if_false]
  rfl
/-- R187, R188: a shuffle. -/
theorem writesRegs_shuffled {oob : Bool} {src : GI → Nat → Nat → Nat → Option Nat} (hc : i.cls = .short)
    (hx : ∀ s, exec i s = shflOp i d a oob src s) : WritesRegs i fun _ e => e.shuffled d a oob (src e) :=
  writesRegs (q := fun _ e r =>
    let r1 := r.setV d e.lanes fun l => e.g.regs.vl a ((shflSource e (src e) l).getD l)
    if oob then r1.setPr 13 e.lanes (maskOf fun l => (shflSource e (src e) l).isNone) else r1) hx hc fun _ _ => rfl
/-- R194, R195: an instruction that gives each lane a mask of its sub-group. -/
theorem writesRegs_setP2 {f : GI → Nat → Nat} (hc : i.cls = .short)
    (hx : ∀ s, exec i s = s.issue i (fun e s => .done (s.modRegs e.gid fun r => r.setP2 d e.lanes (f e))) p) :
    WritesRegs i fun _ e => e.g.regs.setP2 d e.lanes (f e) :=
  writesRegs (q := fun _ e r => r.setP2 d e.lanes (f e)) hx hc fun _ _ => rfl

end

/-- R193: RDFIRST reads the lowest active lane, and nothing where there is none. -/
theorem rdfirst_reads (d a : Nat) (w : Bool) : WritesRegs (.rdfirst d a w) fun _ e => match (lanesOf e.g.active).head? with
    | some l => e.g.regs.setS d (BitVec.ofNat 64 (if w then e.g.regs.vp a l else (e.g.regs.vl a l).toNat))
    | none => e.g.regs := fun s e h hg => by
  change execRdfirst d a w s = _
  unfold execRdfirst
  beta_reduce
  cases hl : (lanesOf e.g.active).head? with
  | some l =>
    exact issue_regs (r := fun r => r.setS d (BitVec.ofNat 64 (if w then e.g.regs.vp a l else (e.g.regs.vl a l).toNat))) h
      (by simp only [hl]) rfl hg
  | none => exact issue_nothing rfl h (by simp only [hl]) hg
/-- R193: RDLANE reads the lane named where it contributes, and nothing elsewhere. -/
theorem rdlane_reads (d a b : Nat) : WritesRegs (.rdlane d a b) fun _ e =>
    if (e.g.regs.sr b).toNat < 64 ∧ inMask e.g.active (e.g.regs.sr b).toNat then
      e.g.regs.setS d ((e.g.regs.vl a (e.g.regs.sr b).toNat).setWidth 64)
    else e.g.regs := fun s e h hg => by
  change execRdlane d a b s = _
  unfold execRdlane
  beta_reduce
  by_cases hl : (e.g.regs.sr b).toNat < 64 ∧ inMask e.g.active (e.g.regs.sr b).toNat
  · rw [if_pos hl]
    exact issue_regs (r := fun r => r.setS d ((e.g.regs.vl a (e.g.regs.sr b).toNat).setWidth 64)) h (if_pos hl) rfl hg
  · rw [if_neg hl]
    exact issue_nothing rfl h (if_neg hl) hg

/-- Settles O23: shuffles and QSWAP; differences, reductions and scans with their exceptions; reads of one lane; ballots and
matches. -/
theorem crossLaneInstructions : Obligations.CrossLaneInstructions := by
  unfold Obligations.CrossLaneInstructions
  refine ⟨?moves, ?rest⟩
  case moves =>
    intro d a b n k oob q
    refine ⟨?idx, ?up, ?dn, ?xor, ?upw, ?dnw, ?xorw, ?qswap⟩
    case idx => exact writesRegs_shuffled (src := fun e _ _ l => some (e.g.regs.vl b l).toNat) rfl fun _ => rfl
    case up => exact writesRegs_shuffled (src := fun _ _ i _ => srcUp n i) rfl fun _ => rfl
    case upw => exact writesRegs_shuffled (src := fun _ g i _ => srcUp (g / 2 ^ k) i) rfl fun _ => rfl
    case dn => exact writesRegs_shuffled (src := fun _ _ i _ => some (i + n)) rfl fun _ => rfl
    case xor => exact writesRegs_shuffled (src := fun _ _ i _ => some (i ^^^ n)) rfl fun _ => rfl
    case dnw => exact writesRegs_shuffled (src := fun _ g i _ => some (i + g / 2 ^ k)) rfl fun _ => rfl
    case xorw => exact writesRegs_shuffled (src := fun _ g i _ => some (i ^^^ g / 2 ^ k)) rfl fun _ => rfl
    case qswap =>
      exact writesRegs_lanewise (f := fun e r l =>
        r.vl a (if inMask e.g.active (l / 4 * 4 + (l % 4 ^^^ q.code)) then l / 4 * 4 + (l % 4 ^^^ q.code) else l)) rfl fun _ => rfl
  case rest =>
    intro d a b c w x o
    refine ⟨?qddx, ?qddy, ?redlog, ?scanlog, rdfirst_reads d a w, rdlane_reads d a b, ?ballot, ?vmatch, ?vmatchf⟩
    case qddx | qddy => exact completes_quadSub fun _ => rfl
    case redlog | scanlog => exact completes_reduced fun _ => rfl
    case ballot | vmatch => exact writesRegs_setP2 rfl fun _ => rfl
    case vmatchf => exact completes_goOn (fun _ => rfl) (fun _ _ => rfl) fun _ _ h => raised_level (h.level.modRegs _) _ _

end Sys2Proof.Machine
end

section
/-! SUPPORT. Accesses to global and local memory as a group issues them, and the traps of misaligned ones (R197 to R218, R236 to
R240, R264, R268, R270, R271). -/
namespace Sys2Proof.Machine

/-! ### The operands that an access captures (R108, R204, R213) -/

theorem capLane_append_left (x : List Word) (xs ys : List (List Word)) {n : Nat} (h : n ≤ xs.length) (l : Nat) :
    capLane (x :: (xs ++ ys)) 1 n l = capLane (x :: xs) 1 n l := by
  refine List.map_congr_left fun k hk => ?_
  have hlt : k < xs.length := Nat.lt_of_lt_of_le (List.mem_range.mp hk) h
  simp [Nat.add_comm 1 k, List.getElem?_append_left hlt]
theorem capLane_append_right (x : List Word) (xs ys : List (List Word)) (n l : Nat) :
    capLane (x :: (xs ++ ys)) (1 + xs.length) n l = capLane (x :: ys) 1 n l := by
  refine List.map_congr_left fun k _ => ?_
  simp [Nat.add_comm 1, Nat.add_right_comm _ 1 k, List.getElem?_append_right]
/-- The data registers that an access captures from `n` on. -/
def GI.dataRegs (e : GI) (z : Size) (n : Nat) : List (List Word) := (List.range (zCount z)).map fun k => e.g.regs.vr (n + k)
/-- What an atomic captures: its offset, its operand's registers, and the comparison operand's. -/
def GI.atomRegs (e : GI) (z : Size) (o b c : Nat) : List (List Word) := e.g.regs.vr o :: (e.dataRegs z b ++ e.dataRegs z c)

@[simp] theorem dataRegs_length (e : GI) (z : Size) (n : Nat) : (e.dataRegs z n).length = zCount z := by simp [GI.dataRegs]
theorem storeBytes_operand (e : GI) (z : Size) (o b c l : Nat) :
    storeBytes z (capLane (e.atomRegs z o b c) 1 (zCount z) l) = e.dataOf z b l := by
  rw [GI.atomRegs, capLane_append_left _ _ _ (dataRegs_length e z b).ge]
  exact storeBytes_captured e z o b l
theorem storeBytes_comparison (e : GI) (z : Size) (o b c l : Nat) :
    storeBytes z (capLane (e.atomRegs z o b c) (1 + zCount z) (zCount z) l) = e.dataOf z c l := by
  have hright := capLane_append_right (e.g.regs.vr o) (e.dataRegs z b) (e.dataRegs z c) (zCount z) l
  rw [dataRegs_length] at hright
  rw [GI.atomRegs, hright]
  exact storeBytes_captured e z o c l
/-- The operand and the comparison operand that an atomic has captured are its request's data (R213). -/
theorem atomData_captured (e : GI) (z : Size) (o b c l : Nat) :
    storeBytes z (capLane (e.atomRegs z o b c) 1 (zCount z) l) ++
      toBytes z.bytes (ofBytes (storeBytes z (capLane (e.atomRegs z o b c) (1 + zCount z) (zCount z) l))) = e.atomData z b c l := by
  rw [storeBytes_operand, storeBytes_comparison, GI.atomData]

/-! ### The plan of an instruction of the common access -/

/-- The lanes and the plan of an instruction whose group reissues nothing after a DIEOFF (R200, R374). -/
def PlansAs (i : Instr) (m : GI → Mask) (p : GI → Plan) : Prop :=
  ∀ e : GI, e.i = i → (e.g.redo = none → e.takePart = m e) ∧ e.plan (m e) = some (p e)

section
variable {i : Instr} {m : GI → Mask} {p : GI → Plan}

theorem plansAs_of (hm : ∀ e : GI, ({ e with i := i } : GI).takePart = e.redo (m e))
    (hp : ∀ e : GI, planOf i (capS i e.g.regs) (capV i e.g.regs) (m e) e.launch.priv e.team.size e.launch.scrBytes = some (p e)) :
    PlansAs i m p := by
  rintro e rfl
  exact ⟨fun hr => (hm e).trans (redo_none hr _), hp e⟩
theorem PlansAs.accesses (h : PlansAs i m p) {q : SI → State → SFx} (hx : ∀ s, exec i s = s.issue i GI.access q)
    (hn : ∀ e, ((p e).at_ == .loc) = false) : Accesses i m p :=
  accesses_of q hx (fun e hi => (h e hi).1) (fun e hi => (h e hi).2) hn
theorem PlansAs.defers (h : PlansAs i m p) {q : SI → State → SFx} (hx : ∀ s, exec i s = s.issue i GI.access q)
    (hn : ∀ e, ((p e).at_ == .loc) = true) : Defers i m p :=
  defers_of q hx (fun e hi => (h e hi).1) (fun e hi => (h e hi).2) hn
/-- The plan that an issuing group's access follows. -/
theorem PlansAs.plan (h : PlansAs i m p) {s : State} {e : GI} (hi : Issues s i e) (hr : e.g.redo = none) :
    e.takePart = m e ∧ e.plan e.takePart = some (p e) := by
  obtain ⟨hm, hp⟩ := h e hi.instr
  rw [hm hr]
  exact ⟨rfl, hp⟩

end

section
variable {d sr o b c a n : Nat} {z : Size} {h : Hint} {nr : Bool} {imm : Int} {op : AOp} {ty : AType} {k : CacheOp} {cull : Cull}

theorem plansAs_ld : PlansAs (.ld d sr o z h nr) GI.lanes fun e =>
    planGlobal z false nr true 1 h .load (e.g.regs.sr sr) (e.g.regs.vr o) (fun _ => []) e.lanes :=
  plansAs_of (fun _ => rfl) fun _ => rfl
theorem plansAs_st : PlansAs (.st d sr o z h) GI.storeLanes fun e =>
    planGlobal z true false true 2 h .store (e.g.regs.sr sr) (e.g.regs.vr o) (e.dataOf z d) e.storeLanes :=
  plansAs_of (fun _ => rfl) fun e => by rw [← funext (storeBytes_captured e z o d)]; rfl
theorem plansAs_lds : PlansAs (.lds d sr imm) GI.once fun e =>
    planOnce false 1 .load (globalAddr (e.g.regs.sr sr) (imm % 2 ^ 56).toNat) (canonical (e.g.regs.sr sr)) [] e.once :=
  plansAs_of (fun _ => rfl) fun _ => rfl
theorem plansAs_sts : PlansAs (.sts d sr imm) GI.onceStore fun e =>
    planOnce true 2 .store (globalAddr (e.g.regs.sr sr) (imm % 2 ^ 56).toNat) (canonical (e.g.regs.sr sr))
      (toBytes 8 (e.g.regs.sr d).toNat) e.onceStore :=
  plansAs_of (fun _ => rfl) fun _ => rfl
theorem plansAs_atom : PlansAs (.atom d sr o z h b c op ty) GI.storeLanes fun e =>
    planGlobal z true false true 3 h (.atomic op ty 0) (e.g.regs.sr sr) (e.g.regs.vr o) (e.atomData z b c) e.storeLanes :=
  plansAs_of (fun _ => rfl) fun e => by rw [← funext (atomData_captured e z o b c)]; rfl
theorem plansAs_redst : PlansAs (.redst d sr o z h op ty) GI.storeLanes fun e =>
    planGlobal z true false true 3 h (.reduce op ty) (e.g.regs.sr sr) (e.g.regs.vr o) (e.dataOf z d) e.storeLanes :=
  plansAs_of (fun _ => rfl) fun e => by rw [← funext (storeBytes_captured e z o d)]; rfl
theorem plansAs_tagset : PlansAs (.tagset d o sr) GI.storeLanes fun e =>
    planGlobal .i8 true false false 2 .normal (.tagSet 0) (e.g.regs.sr sr) (e.g.regs.vr o)
      (fun l => [BitVec.ofNat 8 ((e.g.regs.vl d l).toNat % 16)]) e.storeLanes :=
  plansAs_of (fun _ => rfl) fun _ => rfl
theorem plansAs_tagget : PlansAs (.tagget d o sr) GI.lanes fun e =>
    planGlobal .i8 false false false 1 .normal .tagGet (e.g.regs.sr sr) (e.g.regs.vr o) (fun _ => []) e.lanes :=
  plansAs_of (fun _ => rfl) fun _ => rfl
theorem plansAs_acqw : PlansAs (.acqw d sr) GI.once fun e =>
    planOnce false 1 .load (globalAddr (e.g.regs.sr sr) 0) (canonical (e.g.regs.sr sr)) [] e.once :=
  plansAs_of (fun _ => rfl) fun _ => rfl
theorem plansAs_pubw : PlansAs (.pubw b a) GI.onceStore fun e =>
    planOnce true 2 .store (globalAddr (e.g.regs.sr a) 0) (canonical (e.g.regs.sr a)) (toBytes 8 (e.g.regs.sr b).toNat) e.onceStore :=
  plansAs_of (fun _ => rfl) fun _ => rfl
theorem plansAs_ldl : PlansAs (.ldl d sr o z) GI.lanes fun e =>
    planFlat .loc z false 1 .load (e.g.regs.sr sr) (e.g.regs.vr o) e.team.size (fun _ => []) e.lanes :=
  plansAs_of (fun _ => rfl) fun _ => rfl
theorem plansAs_stl : PlansAs (.stl d sr o z) GI.storeLanes fun e =>
    planFlat .loc z true 2 .store (e.g.regs.sr sr) (e.g.regs.vr o) e.team.size (e.dataOf z d) e.storeLanes :=
  plansAs_of (fun _ => rfl) fun e => by rw [← funext (storeBytes_captured e z o d)]; rfl
theorem plansAs_atoml : PlansAs (.atoml d sr o z b c op ty) GI.storeLanes fun e =>
    planFlat .loc z true 3 (.atomic op ty 0) (e.g.regs.sr sr) (e.g.regs.vr o) e.team.size (e.atomData z b c) e.storeLanes :=
  plansAs_of (fun _ => rfl) fun e => by rw [← funext (atomData_captured e z o b c)]; rfl
theorem plansAs_atomc : PlansAs (.atomc d sr o b c op ty) GI.storeLanes fun e =>
    planFlat .scr .b32 true 3 (.atomic op ty 0) (e.g.regs.sr sr) (e.g.regs.vr o) e.launch.scrBytes (e.atomData .b32 b c) e.storeLanes :=
  plansAs_of (fun _ => rfl) fun _ => rfl
theorem plansAs_redc : PlansAs (.redc d sr o op ty) GI.storeLanes fun e =>
    planFlat .scr .b32 true 3 (.reduce op ty) (e.g.regs.sr sr) (e.g.regs.vr o) e.launch.scrBytes (e.dataOf .b32 d) e.storeLanes :=
  plansAs_of (fun _ => rfl) fun _ => rfl
theorem plansAs_cacheop : PlansAs (.cacheop k o sr) GI.storeLanes fun e =>
    planGlobal .i8 false false true 1 .na .load (e.g.regs.sr sr) (e.g.regs.vr o) (fun _ => []) e.storeLanes :=
  plansAs_of (fun _ => rfl) fun _ => rfl
theorem plansAs_rbox : PlansAs (.rbox d a sr n) GI.lanes fun e =>
    planRecs (e.g.regs.sr sr) (fun l => (e.g.regs.vl n l).toNat) e.lanes :=
  plansAs_of (fun _ => rfl) fun _ => rfl
theorem plansAs_rtri : PlansAs (.rtri d a sr n cull) GI.lanes fun e =>
    planRecs (e.g.regs.sr sr) (fun l => (e.g.regs.vl n l).toNat) e.lanes :=
  plansAs_of (fun _ => rfl) fun _ => rfl

end

/-! ### Accesses that set out, and accesses that their operation makes -/

/-- Settles O32: loads and stores of global memory, over the lanes that take part and the operands that they capture. -/
theorem globalLoadsAndStores : Obligations.GlobalLoadsAndStores := by
  unfold Obligations.GlobalLoadsAndStores
  intro d sr o z h nr imm
  exact ⟨plansAs_ld.accesses (fun _ => rfl) fun _ => rfl, plansAs_st.accesses (fun _ => rfl) fun _ => rfl,
    plansAs_lds.accesses (fun _ => rfl) fun _ => rfl, plansAs_sts.accesses (fun _ => rfl) fun _ => rfl⟩

/-- Settles O34: atomics, reductions and tags per lane; ACQW once for the group. -/
theorem globalAtomicsAndTags : Obligations.GlobalAtomicsAndTags := by
  unfold Obligations.GlobalAtomicsAndTags
  intro d sr o b c z h op ty
  exact ⟨plansAs_atom.accesses (fun _ => rfl) fun _ => rfl, plansAs_redst.accesses (fun _ => rfl) fun _ => rfl,
    plansAs_tagset.accesses (fun _ => rfl) fun _ => rfl, plansAs_tagget.accesses (fun _ => rfl) fun _ => rfl,
    plansAs_acqw.accesses (fun _ => rfl) fun _ => rfl⟩

/-- Settles O35: local memory's accesses wait for their operation; CACHEOP sends requests as a load does (assumption log 46),
and PREF starts an operation without any check (assumption log 45). -/
theorem localAndCacheOperations : Obligations.LocalAndCacheOperations := by
  unfold Obligations.LocalAndCacheOperations
  intro d sr o b c z op ty k h l
  refine ⟨plansAs_ldl.defers (fun _ => rfl) fun _ => rfl, plansAs_stl.defers (fun _ => rfl) fun _ => rfl,
    plansAs_atoml.defers (fun _ => rfl) fun _ => rfl, plansAs_cacheop.accesses (fun _ => rfl) fun _ => rfl, ?pref⟩
  case pref => exact completes_goOn (fun _ => rfl) (fun _ _ => rfl) fun _ _ hi => startOp_level hi.level

/-! ### Misaligned accesses (R199, R201) -/

/-- An instruction's own trap that its group takes at once (R196, R373). -/
theorem issue_trapTaken {s : State} {i : Instr} {e : GI} {f : GI → State → Fx} {q : SI → State → SFx} {c : Cause} {arg addr : Nat}
    {lanes : Mask} (h : Issues s i e) (hf : f e s = .trap s c arg addr lanes) (hc : c ≠ .physrange)
    (ht : TakesTrap s e ⟨c, arg, addr, lanes, e.g.ctl.pos, false⟩) :
    s.issue i f q = .next (e.trapTaken s ⟨c, arg, addr, lanes, e.g.ctl.pos, false⟩) := by
  rw [issue_group h, hf, GI.finish, GI.trapHere, raise_takes h.gi rfl hc ht]
/-- Alignment is checked before anything else of an access, over all its lanes (R201). -/
theorem check_misaligned {p : Plan} {x : Nat × Nat} {r : List (Nat × Nat)} (h : p.misaligned = x :: r) (s : State)
    (cluster die ctx : Nat) (user : Bool) :
    p.check s cluster die ctx user = (.mis (p.addrOf x.1) (maskList (p.misaligned.map (·.1))), s) := by
  simp only [Plan.check, h]
/-- R199: a misaligned access that the firmware does not emulate. -/
theorem access_misaligned {s : State} {e : GI} {p : Plan} {x : Nat × Nat} {r : List (Nat × Nat)} (hp : e.plan e.takePart = some p)
    (ht : (p.tags && s.tagsPending e.gid s.nextId) = false) (hm : p.misaligned = x :: r) (he : e.i.emulates = false) :
    e.access s = .trap s .misalign p.acc (p.addrOf x.1) (maskList (p.misaligned.map (·.1))) := by
  simp only [GI.access, hp, check_misaligned hm, ht, GI.misalign, he, Bool.false_eq_true, if_false]

section
variable {i : Instr} {m : GI → Mask} {p : GI → Plan} {acc : Nat}

/-- An instruction whose own work traps where a lane of its plan is misaligned. -/
theorem misaligns_of {f : GI → State → Fx} {q : SI → State → SFx} (hx : ∀ s, exec i s = s.issue i f q)
    (hf : ∀ s e x r, Issues s i e → e.g.redo = none → ((p e).tags && s.tagsPending e.gid s.nextId) = false →
      (p e).misaligned = x :: r →
      f e s = .trap s .misalign acc ((p e).addrOf x.1) (maskList ((p e).misaligned.map (·.1)))) : Misaligns i acc p := by
  rintro x r s e h ⟨hr, ht, hm, hk⟩
  rw [hx]
  exact issue_trapTaken h (hf s e x r h hr ht hm) (show Cause.misalign ≠ .physrange by decide) hk
theorem PlansAs.access_misaligned (h : PlansAs i m p) (he : i.emulates = false) (ha : ∀ e, (p e).acc = acc) {s : State} {e : GI}
    {x : Nat × Nat} {r : List (Nat × Nat)} (hi : Issues s i e) (hr : e.g.redo = none)
    (ht : ((p e).tags && s.tagsPending e.gid s.nextId) = false) (hm : (p e).misaligned = x :: r) :
    e.access s = .trap s .misalign acc ((p e).addrOf x.1) (maskList ((p e).misaligned.map (·.1))) := by
  rw [← ha e]
  exact Machine.access_misaligned (h.plan hi hr).2 ht hm (by rw [hi.instr, he])
/-- The same of an instruction of the common access. -/
theorem PlansAs.misaligns (h : PlansAs i m p) {q : SI → State → SFx} (hx : ∀ s, exec i s = s.issue i GI.access q)
    (he : i.emulates = false) (ha : ∀ e, (p e).acc = acc) : Misaligns i acc p :=
  misaligns_of hx fun _ _ _ _ hi hr ht hm => h.access_misaligned he ha hi hr ht hm

end

/-- R264: DRAW's descriptor. -/
theorem draw_misaligned (d a n : Nat) (any : Bool) {s : State} {e : GI} (h : Issues s (.draw d a n any) e)
    (hl : e.g.active &&& ~~~e.g.helpers ≠ 0) (hm : vaOf (globalAddr (e.g.regs.sr a) 0) % 64 ≠ 0)
    (ht : TakesTrap s e ⟨.misalign, 1, vaOf (globalAddr (e.g.regs.sr a) 0), lowLane e.g.active, e.g.ctl.pos, false⟩) :
    exec (.draw d a n any) s =
      .next (e.trapTaken s ⟨.misalign, 1, vaOf (globalAddr (e.g.regs.sr a) 0), lowLane e.g.active, e.g.ctl.pos, false⟩) := by
  change execDraw d a n any s = _
  exact issue_trapTaken h (by simp only [drawBody, hl, hm, if_false, ne_eq, not_false_eq_true, if_true])
    (show Cause.misalign ≠ .physrange by decide) ht

/-- Settles O36: each access's plan checks alignment first. That TSAMP's misaligned record traps is assumption log 64. -/
theorem misalignedAccessTraps : Obligations.MisalignedAccessTraps := by
  unfold Obligations.MisalignedAccessTraps
  intro d sr o b c x l a n z h op ty md cull any
  refine ⟨?atom, ?atoml, ?atomc, ?redst, ?redc, ?pubw, ?acqw, ?rbox, ?rtri, ?tsamp, ?draw⟩
  case atom => exact plansAs_atom.misaligns (fun _ => rfl) rfl fun _ => rfl
  case atoml => exact plansAs_atoml.misaligns (fun _ => rfl) rfl fun _ => rfl
  case atomc => exact plansAs_atomc.misaligns (fun _ => rfl) rfl fun _ => rfl
  case redst => exact plansAs_redst.misaligns (fun _ => rfl) rfl fun _ => rfl
  case redc => exact plansAs_redc.misaligns (fun _ => rfl) rfl fun _ => rfl
  case acqw => exact plansAs_acqw.misaligns (fun _ => rfl) rfl fun _ => rfl
  case rbox => exact plansAs_rbox.misaligns (fun _ => rfl) rfl fun _ => rfl
  case rtri => exact plansAs_rtri.misaligns (fun _ => rfl) rfl fun _ => rfl
  case pubw =>
    refine misaligns_of (fun _ => rfl) fun s e x r hi hr ht hm => ?_
    simp only [plansAs_pubw.access_misaligned rfl (fun _ => rfl) hi hr ht hm]
  case tsamp =>
    refine misaligns_of (fun _ => rfl) fun s e y r _ _ _ hm => ?_
    simp only [tsampBody, check_misaligned hm]
  case draw =>
    rintro s e hi ⟨hl, hm, ht⟩
    exact draw_misaligned d a n any hi hl hm ht

end Sys2Proof.Machine
end

section
/-! SUPPORT. Fences and team barriers, byte counts, placement and publication, mailboxes and child launches: what holds a group,
what ends its wait, and the operations that start (R219 to R229, R233 to R235, R239, R241 to R243). -/
namespace Sys2Proof.Machine

/-! ### Instructions that hold their group until a condition is met (R219, R224) -/

section
variable {i : Instr} {f : GI → State → Fx} {q : SI → State → SFx}

/-- Where its work is done at once, an instruction goes on from the state that its work leaves. -/
theorem completes_done (hx : ∀ s, exec i s = s.issue i f q) {c : State → GI → Prop} {t : State → GI → State}
    (hf : ∀ s e, Issues s i e → c s e → f e s = .done (t s e) ∧ (t s e).HasLevel e.gid e.g.ctl.level) :
    Completes i (fun s e => GoesOn s e ∧ c s e) fun s e => e.goOn s (t s e) := by
  rintro s e h ⟨hg, hc⟩
  obtain ⟨hd, hl⟩ := hf s e h hc
  rw [hx, issue_goesOn h hd hl hg]
/-- Where its work begins a wait, an instruction holds its group in the state that its work leaves. -/
theorem completes_held (hx : ∀ s, exec i s = s.issue i f q) {c : State → GI → Prop} {t : State → GI → State} {arg : List Nat}
    (hf : ∀ s e, Issues s i e → c s e → f e s = e.wait (t s e) arg) : Completes i c fun s e => e.held (t s e) arg := by
  intro s e h hc
  rw [hx, issue_held h (hf s e h hc)]
/-- A held instruction whose work is done goes on from the state that its work leaves. -/
theorem continues_done (hx : ∀ s, exec i s = s.issue i f q) {c : State → GI → Prop} {t : State → GI → State}
    (hf : ∀ s e, Resumes s i e → c s e → f e s = .done (t s e) ∧ (t s e).HasLevel e.gid e.g.ctl.level) :
    Continues i (fun s e => GoesOn s e ∧ c s e) fun s e => e.goOn s (t s e) := by
  rintro s e h ⟨hg, hc⟩
  obtain ⟨hd, hl⟩ := hf s e h hc
  rw [hx, resume_goesOn h hd hl hg]

end

theorem Resumes.instr {s : State} {i : Instr} {e : GI} (h : Resumes s i e) : e.i = i := gi_i h.gi
/-- GT at which an instruction issues that was not held, and at which one issued that was. -/
theorem Issues.issuedAt {s : State} {i : Instr} {e : GI} (h : Issues s i e) : e.issuedAt s = s.gtOf e.g.core := by
  simp only [GI.issuedAt, h.hold, reduceCtorEq, if_false]
theorem Resumes.issuedAt {s : State} {i : Instr} {e : GI} (h : Resumes s i e) : e.issuedAt s = e.g.ctl.holdAt := by
  simp only [GI.issuedAt, h.hold, h.instr, if_true]

/-! ### FENCE and XFENCE (R220 to R222) -/

theorem fenceBody_fenced {sc : Scope} {e : GI} {s : State} (h : e.fenced s sc = true) : fenceBody sc e s = .done s := if_pos h
theorem fenceBody_waits {sc : Scope} {e : GI} {s : State} (h : e.fenced s sc = false) : fenceBody sc e s = e.wait s [] :=
  if_neg (Bool.eq_false_iff.mp h)
/-- R222: XFENCE drops the copies of path `b` that were granted before it issued. -/
theorem xfenceBody_fenced {b a : Path} {e : GI} {s : State} (h : e.fenced s .package = true ∧ e.pathDone s a = true) :
    xfenceBody b a e s = .done (s.dropPath e.g.core b (e.issuedAt s)) := if_pos (Bool.and_eq_true_iff.mpr h)
theorem xfenceBody_waits {b a : Path} {e : GI} {s : State} (h : e.fenced s .package = false ∨ e.pathDone s a = false) :
    xfenceBody b a e s = e.wait s [] := if_neg (Bool.eq_false_iff.mp (Bool.and_eq_false_iff.mpr h))

/-! ### Team barriers (R225) -/

/-- A barrier's arrival by a group whose bit is not set yet: its earlier accesses are done, and its count agrees. -/
structure GI.MayArrive (e : GI) (s : State) (c n : Nat) : Prop where
  count : c ≤ e.team.groups
  fenced : e.fenced s .team = true
  none_pending : (s.work.arrives.any fun a => a.2.gid == e.gid) = false
  agrees : s.barAgrees e.g.team (e.barOf s n) c = true
  fresh : e.arrived s n = false

/-- R225: BAR arrives, and then waits for its phase. -/
theorem barBody_arrives {s : State} {e : GI} {c n : Nat} (h : Issues s (.bar c n) e) (ha : e.MayArrive s c n) :
    barBody c n e s = e.barWait (s.barArrive e.g.team e.g.num n c) n := by
  simp only [barBody, h.hold, reduceCtorEq, false_and, if_false, Nat.not_lt.mpr ha.count, ha.fenced, ha.none_pending, ha.agrees, ha.fresh,
    Bool.not_true, Bool.or_self, Bool.false_eq_true]
theorem barWait_waits {e : GI} {s : State} {n : Nat} (h : e.arrived s n = true) : e.barWait s n = e.wait s [1] := if_pos h
theorem barWait_goesOn {e : GI} {s : State} {n : Nat} (h : e.arrived s n = false) : e.barWait s n = .done s :=
  if_neg (Bool.eq_false_iff.mp h)
/-- The arrival that completes the phase frees a group that BAR holds. -/
theorem barBody_over {s : State} {e : GI} {c n : Nat} (h : Resumes s (.bar c n) e) (ha : e.g.ctl.holdArg = [2]) :
    barBody c n e s = .done s := if_pos ⟨by rw [h.hold, h.instr], ha⟩
theorem barwaitBody_waits {s : State} {e : GI} {n : Nat} (h : Issues s (.barwait n) e) : barwaitBody e s = e.wait s [1] := by
  simp only [barwaitBody, h.hold, reduceCtorEq, if_false]
theorem barwaitBody_over {s : State} {e : GI} {n : Nat} (h : Resumes s (.barwait n) e) (ha : e.g.ctl.holdArg = [2]) :
    barwaitBody e s = .done s := by
  simp only [barwaitBody, h.hold, h.instr, ha, if_true]

/-- Settles O37: the conditions that hold a group, and what it finds when they are met. FENCE's condition is that of assumption
logs 40, 105 and 130, which name the copies, AGDRAIN's reductions and the W of atomics. -/
theorem fencesAndBarriers : Obligations.FencesAndBarriers := by
  unfold Obligations.FencesAndBarriers
  refine ⟨fun sc b a => ?fences, fun c n => ?barriers⟩
  case fences =>
    refine ⟨?fence, ?fence_held, ?fence_over, ?xfence, ?xfence_held, ?xfence_over⟩
    case fence => exact completes_done (f := fenceBody sc) (fun _ => rfl) fun s e h hf => ⟨fenceBody_fenced hf, h.level⟩
    case fence_held => exact completes_held (f := fenceBody sc) (fun _ => rfl) fun s e _ hf => fenceBody_waits hf
    case fence_over => exact continues_done (f := fenceBody sc) (fun _ => rfl) fun s e h hf => ⟨fenceBody_fenced hf, h.level⟩
    case xfence =>
      refine completes_done (f := xfenceBody b a) (fun _ => rfl) fun s e h hf => ⟨?_, h.level.of_groups (dropPath_groups ..)⟩
      rw [xfenceBody_fenced hf, h.issuedAt]
    case xfence_held => exact completes_held (f := xfenceBody b a) (fun _ => rfl) fun s e _ hf => xfenceBody_waits hf
    case xfence_over =>
      refine continues_done (f := xfenceBody b a) (fun _ => rfl) fun s e h hf => ⟨?_, h.level.of_groups (dropPath_groups ..)⟩
      rw [xfenceBody_fenced hf, h.issuedAt]
  case barriers =>
    refine ⟨?bar_waits, ?bar_completes, ?bar_over, ?bararr, ?barwait, ?barwait_over⟩
    case bar_waits =>
      refine completes_held (f := barBody c n) (fun _ => rfl) fun s e h ⟨hc, hf, hp, ha, hn, hw⟩ => ?_
      rw [barBody_arrives h ⟨hc, hf, hp, ha, hn⟩, barWait_waits hw]
    case bar_completes =>
      rintro s e h ⟨hc, hf, hp, ha, hn, hw, hg⟩
      have hb : barBody c n e s = .done (s.barArrive e.g.team e.g.num n c) := by
        rw [barBody_arrives h ⟨hc, hf, hp, ha, hn⟩, barWait_goesOn hw]
      exact issue_goesOn h hb (barArrive_level h.level ..) hg
    case bar_over => exact continues_done (f := barBody c n) (fun _ => rfl) fun s e h ha => ⟨barBody_over h ha, h.level⟩
    case bararr =>
      refine completes_done (fun _ => rfl) fun s e h ⟨hc, hn, ha⟩ => ⟨?_, h.level.of_groups rfl⟩
      simp only [Nat.not_lt.mpr hc, hn, ha, Bool.not_true, Bool.false_eq_true, or_self, if_false]
      rfl
    case barwait => exact completes_held (f := barwaitBody) (fun _ => rfl) fun s e h _ => barwaitBody_waits h
    case barwait_over => exact continues_done (f := barwaitBody) (fun _ => rfl) fun s e h ha => ⟨barwaitBody_over h ha, h.level⟩

/-! ### Operations that start (R107) -/

/-- An instruction whose work starts an operation. -/
theorem starts_of {i : Instr} {f : GI → State → Fx} {q : SI → State → SFx} {c : State → GI → Prop} {o : State → GI → Op → Op}
    (hx : ∀ s, exec i s = s.issue i f q) (hf : ∀ s e, c s e → f e s = .done (e.startOp s (o s e)).2) : Starts i c o :=
  completes_done hx fun s e h hc => ⟨hf s e hc, startOp_level h.level⟩

/-! ### Byte counts, placement and publication (R227 to R229, R233 to R235, R239) -/

/-- R227: a byte count that has come down to zero frees its barrier. -/
theorem bcwaitBody_zero {s : State} {e : GI} {t : Team} {d n : Nat} (ht : tget s.teams e.g.team = some t) (hi : (t.bc n).init = true)
    (hz : (t.bc n).count ≤ 0) :
    bcwaitBody d n e s = .done ((s.modBc e.g.team n fun x => { x with init := false }).modRegs e.gid fun r =>
      r.setS d (BitVec.ofNat 64 (t.bc n).err)) := by
  simp only [bcwaitBody, ht, hi, hz, decide_true, Bool.and_self, if_true]
theorem bcwaitBody_waits {s : State} {e : GI} {t : Team} {d n : Nat} (ht : tget s.teams e.g.team = some t)
    (hw : (t.bc n).init = false ∨ 0 < (t.bc n).count) : bcwaitBody d n e s = e.wait s [] := by
  have hb : ((t.bc n).init && decide ((t.bc n).count ≤ 0)) = false :=
    Bool.and_eq_false_iff.mpr (hw.imp_right fun h => decide_eq_false (Int.not_le.mpr h))
  simp only [bcwaitBody, ht, hb, Bool.false_eq_true, if_false]
theorem modBc_level {s : State} {gid : Nat} {l : Level} (h : s.HasLevel gid l) (tid n : Nat) (f : BcSlot → BcSlot) :
    (s.modBc tid n f).HasLevel gid l := h.of_groups rfl
theorem pinBody_read {a : Nat} {s s1 : State} {e : GI} {x : List Byte} (h : e.readBlock s (e.g.regs.sr a) 32 true = (.ok x, s1)) :
    pinBody a e s = .done (e.startOp s1 fun o => { o with misc := x.map (·.toNat) }).2 := by
  simp only [pinBody, h]
/-- R239: PUBW's access has set out, its store held back. -/
theorem published_level {e : GI} {s s1 : State} {l : Level} (h : s1.HasLevel e.gid l) : (e.published s s1).HasLevel e.gid l :=
  h.of_groups rfl

/-- Settles O38: operations that start with what they read, and BCWAIT. What BCINIT, CLAIM and UNPIN read at issue is assumption
log 42, and what CLAIM awaits is log 44. -/
theorem countsPlacementPublication : Obligations.CountsPlacementPublication := by
  unfold Obligations.CountsPlacementPublication
  refine ⟨fun a n d count => ⟨?bcinit, ?cpyk, fun t => ?bcwait, fun t => ?bcwait_held⟩,
    fun d a b => ⟨?claim, fun x s1 => ?pin, ?unpin, fun ts sp s1 => ?pubw⟩⟩
  case bcinit => exact starts_of (fun _ => rfl) fun s e hv => if_pos hv
  case cpyk => exact starts_of (fun _ => rfl) fun s e hl => if_pos hl
  case bcwait =>
    refine completes_done (f := bcwaitBody d n) (fun _ => rfl) fun s e h ⟨ht, hi, hz⟩ => ⟨bcwaitBody_zero ht hi hz, ?_⟩
    exact (modBc_level h.level ..).modRegs _
  case bcwait_held => exact completes_held (f := bcwaitBody d n) (fun _ => rfl) fun s e _ ⟨ht, hw⟩ => bcwaitBody_waits ht hw
  case claim => exact starts_of (fun _ => rfl) fun _ _ _ => rfl
  case pin =>
    exact completes_done (f := pinBody a) (fun _ => rfl) fun s e h hr => ⟨pinBody_read hr, startOp_level (readBlock_level h.level hr)⟩
  case unpin => exact starts_of (fun _ => rfl) fun _ _ _ => rfl
  case pubw =>
    refine completes_done (fun _ => rfl) fun s e h ⟨ht, hr, hc⟩ => ?_
    obtain ⟨hm, hp⟩ := plansAs_pubw.plan h hr
    have ha := access_go hp rfl ht hc
    rw [hm] at ha
    refine ⟨by simp only [ha]; rfl, published_level ?_⟩
    exact sent_group (by rw [checked_groups hc]; exact h.group) ..

/-! ### Mailboxes and child launches (R241 to R243) -/

theorem mbxrecvBody_waits {s : State} {e : GI} {d a : Nat} (h : Issues s (.mbxrecv d a) e)
    (hl : e.localOk (e.g.regs.sr a).toNat 64 = true) : mbxrecvBody a e s = e.wait s [] := by
  simp only [mbxrecvBody, h.hold, reduceCtorEq, if_false, hl, if_true]

/-- Settles O39: MBXSEND's packet is read as its operation starts, whatever the masks are (assumption log 41), MBXRECV waits, and
SPAWN's descriptor is submitted. -/
theorem mailboxesAndChildren : Obligations.MailboxesAndChildren := by
  unfold Obligations.MailboxesAndChildren
  intro a d sg die cls fwd sig
  refine ⟨?send, ?recv, ?spawn⟩
  case send => exact starts_of (fun _ => rfl) fun s e hl => if_pos hl
  case recv => exact completes_held (f := mbxrecvBody a) (fun _ => rfl) fun s e h hl => mbxrecvBody_waits h hl
  case spawn =>
    refine completes_done (fun _ => rfl) fun s e h ⟨ha, hs⟩ =>
      ⟨?_, (startOp_level (f := fun o => { o with st := .engine }) h.level).of_groups rfl⟩
    have hsig : (sig && decide (spawnAddr (e.g.regs.sr sg) % 8 ≠ 0)) = false := by
      cases sig with
      | false => rfl
      | true => simp [hs rfl]
    exact (if_neg (not_not.mpr ha)).trans (if_neg (Bool.eq_false_iff.mp hsig))

end Sys2Proof.Machine
end

section
/-! SUPPORT. What a store that arrives at its home leaves of the byte that every arrival leaves (R204, R301, R302). -/
namespace Sys2Proof.Machine

/-! ### Bytes written over a line -/

@[simp] theorem overlay_length (l : List Byte) (o : Nat) (d : List Byte) : (overlay l o d).length = l.length := by simp [overlay]
/-- A byte of a line that has been written over. -/
theorem getD_overlay {l : List Byte} {k : Nat} (h : k < l.length) (o : Nat) (d : List Byte) :
    (overlay l o d).getD k 0 = if o ≤ k ∧ k < o + d.length then d.getD (k - o) 0 else l.getD k 0 := by
  simp [overlay, h]
/-- Pending writes keep a line's length. -/
theorem foldl_overlay_length (p : List PendW) (l : List Byte) :
    (p.foldl (fun d x => overlay d x.off x.data) l).length = l.length := by
  induction p generalizing l with
  | nil => rfl
  | cons x r ih => rw [List.foldl_cons, ih, overlay_length]

/-! ### The line that every arrival leaves (R302) -/

theorem lineCtl_pend_same (s : State) (ln n o : Nat) (d : List Byte) :
    ((s.pend ln n o d).2.lineCtl ln).pend = (s.lineCtl ln).pend ++ [⟨n, s.nextW ln, o, d⟩] := by
  simp [State.pend, State.lineCtl]
theorem lineCtl_pend_ne (s : State) {ln k : Nat} (h : k ≠ ln) (n o : Nat) (d : List Byte) :
    (s.pend ln n o d).2.lineCtl k = s.lineCtl k := by
  simp [State.pend, State.lineCtl, tget_tput_ne _ _ _ _ h]
/-- A store that becomes pending at a line is written over what earlier arrivals leave of it. -/
theorem futureLine_pend_same (s : State) (ln key n o : Nat) (d : List Byte) :
    (s.pend ln n o d).2.futureLine ln key = overlay (s.futureLine ln key) o d := by
  rw [State.futureLine, lineCtl_pend_same, List.foldl_append]
  rfl
/-- It leaves every other line as it was. -/
theorem futureLine_pend_ne (s : State) {ln k : Nat} (h : k ≠ ln) (key n o : Nat) (d : List Byte) :
    (s.pend ln n o d).2.futureLine k key = s.futureLine k key := by
  rw [State.futureLine, lineCtl_pend_ne s h]
  rfl
theorem byteAt_modReq (s : State) (n : Nat) (f : Req → Req) (a key : Nat) : (s.modReq n f).byteAt a key = s.byteAt a key := rfl
/-- The copy that a store drops on its way is none of its home's (R289). -/
theorem byteAt_dropPassing (s : State) (r : Req) (a key : Nat) : (s.dropPassing r).byteAt a key = s.byteAt a key := by
  unfold State.dropPassing
  dsimp only
  split <;> rfl
theorem homeLine_dropPassing (s : State) (r : Req) (ln : Nat) : (s.dropPassing r).homeLine ln = s.homeLine ln := by
  unfold State.dropPassing
  dsimp only
  split <;> rfl
theorem futureLine_length {s : State} {ln : Nat} {h : HomeLine} (hh : s.homeLine ln = some h) (hl : h.data.length = 128) (key : Nat) :
    (s.futureLine ln key).length = 128 := by
  rw [State.futureLine, foldl_overlay_length, State.lineNow, hh, hl]

/-- Whether an address lies in a write within one line. -/
theorem mem_write_iff {a pa n : Nat} (h : pa % 128 + n ≤ 128) :
    (pa ≤ a ∧ a < pa + n) ↔ a / 128 = pa / 128 ∧ pa % 128 ≤ a % 128 ∧ a % 128 < pa % 128 + n := by
  omega
/-- What a store that becomes pending leaves at every address. -/
theorem byteAt_pend {s : State} {pa n : Nat} {d : List Byte} {h : HomeLine} (hh : s.homeLine (pa / 128) = some h)
    (hl : h.data.length = 128) (hd : pa % 128 + d.length ≤ 128) (a key : Nat) :
    (s.pend (pa / 128) n (pa % 128) d).2.byteAt a key =
      if pa ≤ a ∧ a < pa + d.length then d.getD (a - pa) 0 else s.byteAt a key := by
  unfold State.byteAt
  by_cases hline : a / 128 = pa / 128
  · have hk : a % 128 < (s.futureLine (pa / 128) key).length := by
      rw [futureLine_length hh hl]
      omega
    rw [hline, futureLine_pend_same, getD_overlay hk]
    simp only [mem_write_iff hd, hline, true_and]
    split
    case isTrue hin => rw [show a % 128 - pa % 128 = a - pa by omega]
    case isFalse => rfl
  · rw [futureLine_pend_ne _ hline, if_neg fun hin => hline ((mem_write_iff hd).mp hin).1]

/-! ### The arrival of a store (R301) -/

theorem homeReady_iff {s : State} {r : Req} : s.homeReady r = true ↔ r.space = .global ∧ s.topStalls (r.pa / 128) = false ∧
    (s.spaceOf r.pa).isSome = true ∧ s.reachHome r.die (r.pa / 128) = .ok ∧ s.keyed r.key = true := by
  simp only [State.homeReady, Bool.and_eq_true, beq_iff_eq, Bool.not_eq_true', and_assoc]
/-- A request that its home can take goes on there. -/
theorem atHome_of_ready {s : State} {r : Req} (h : s.homeReady r = true) (n : Nat) (go : State → State) : s.atHome n r go = go s := by
  obtain ⟨-, hstall, hspace, hreach, hkey⟩ := homeReady_iff.mp h
  simp [State.atHome, hstall, Option.isSome_iff_ne_none.mp hspace, hreach, hkey]
/-- A store that arrives at its home is pending there. -/
theorem exec_homeStoreArrive {s : State} {n : Nat} {r : Req} (inst : Bool) (hp : s.power = true) (hr : s.reqNow n = some r)
    (hk : r.kind = .store) (hh : s.homeReady r = true) :
    exec (.homeStoreArrive n inst) s = .next (((s.dropPassing r).pend (r.pa / 128) n (r.pa % 128) r.data).2.modReq n fun x =>
      { x with st := .pending ((s.dropPassing r).pend (r.pa / 128) n (r.pa % 128) r.data).1, install := inst }) := by
  change execHomeStoreArrive n inst s = _
  simp only [execHomeStoreArrive, event_next hp, hr, hk, (homeReady_iff.mp hh).1, if_true, atHome_of_ready hh]

/-- Settles O9: the store joins the pending writes of its line, over what earlier arrivals leave. -/
theorem storesWriteTheirBytes : Obligations.StoresWriteTheirBytes := by
  unfold Obligations.StoresWriteTheirBytes
  intro s n r h inst hp hr hk hh hline hlen hin
  refine ⟨_, exec_homeStoreArrive inst hp hr hk hh, fun a key => ?_⟩
  have hpass : (s.dropPassing r).homeLine (r.pa / 128) = some h := (homeLine_dropPassing ..).trans hline
  rw [byteAt_modReq, byteAt_pend hpass hlen hin, byteAt_dropPassing]

end Sys2Proof.Machine
end

section
/-! SUPPORT. Copy requests and their elements, filter swaps, walks ahead of use and the fault queue (R228 to R231, R295, R315,
R352). -/
namespace Sys2Proof.Machine

/-! ### Copies (R228, R230, R231) -/

section
variable {s : State} {n : Nat} {c : Copy} {f : CopyFor}

/-- R230: a team's request that is not malformed starts. -/
theorem exec_copyRequestExecute {t : Team} (hp : s.power = true) (hc : tget s.work.copies n = some c) (hf : s.copyFor c = some f)
    (hn : c.node = none) (ht : tget s.teams c.team = some t) (hst : c.started = false) (hsp : c.stopped = false)
    (he : s.engineFree c f.die = true) (hm : c.req.malformed f t.loc = false) :
    exec (.copyRequestExecute n) s = .next (s.modCopy n fun _ => { c with started := true }) := by
  change execCopyRequestExecute n s = _
  simp only [execCopyRequestExecute, event_next hp, hc, hf, hst, hsp, he, hn, ht, hm, Bool.not_true, Bool.or_self, Bool.false_eq_true,
    if_false, Option.isNone_none, if_true]
/-- R231: an element that has been read is written where it belongs. -/
theorem exec_copyElementWrite_moves {el : Nat} {t : Team} {b : List Byte} {s1 : State} (hp : s.power = true)
    (hc : tget s.work.copies n = some c) (hf : s.copyFor c = some f) (ht : tget s.teams c.team = some t)
    (hfly : ∀ z ∈ c.flying, z.1 ≠ el) (hst : c.started = true) (hsp : c.stopped = false) (he : s.engineFree c f.die = true)
    (hnext : c.next ≤ el) (hearly : el ∉ c.early) (hcount : el < c.req.count) (hread : s.copyRead f c.req t.loc el = (.bytes b, s1)) :
    exec (.copyElementWrite n el) s = .next (s1.copyWrite n c f el b) := by
  have hnone : c.flying.find? (fun z => z.1 == el) = none := by simpa using hfly
  change execCopyElementWrite n el s = _
  simp [execCopyElementWrite, event_next hp, hc, hf, hnone, hst, hsp, he, hnext, hearly, hcount, ht, hread]
/-- R228: an element on its way counts once GT has passed its W by more than 2 ns. -/
theorem exec_copyElementWrite_counts {el w : Nat} (hp : s.power = true) (hc : tget s.work.copies n = some c) (hf : s.copyFor c = some f)
    (hfly : c.flying.find? (fun z => z.1 == el) = some (el, w)) (hw : w + 2 < s.gtAt f.die) :
    exec (.copyElementWrite n el) s = .next (((s.copyCount c c.req.e 0).modCopy n fun z =>
      { z with flying := z.flying.filter (fun q => q.1 != el), counted := z.counted + c.req.e }).copyCheck n) := by
  change execCopyElementWrite n el s = _
  simp only [execCopyElementWrite, event_next hp, hc, hf, hfly, hw, if_true]

end

/-! ### Filters and walks (R295, R315) -/

theorem louvre_swap_due {f : Louvre} (h : 262144 ≤ f.misses) : f.swap = ⟨0, f.active, f.misses - 262144⟩ := if_neg (Nat.not_lt.mpr h)
theorem exec_louvreFilterSwap {s : State} {die sl : Nat} (hp : s.power = true) (h : 262144 ≤ (s.louvreOf die sl).misses) :
    exec (.louvreFilterSwap die sl) s = .next { s with mem := { s.mem with
      louvre := tput s.mem.louvre (die * 64 + sl) ⟨0, (s.louvreOf die sl).active, (s.louvreOf die sl).misses - 262144⟩ } } := by
  change execLouvreFilterSwap die sl s = _
  simp only [execLouvreFilterSwap, event_next hp, Nat.not_lt.mpr h, if_false, louvre_swap_due h]
theorem exec_pageWalk {s : State} (core ctx va : Nat) (hp : s.power = true) :
    exec (.pageWalk core ctx va) s = .next (s.walk (coreTlb core) (coreDie core) ctx (vaOf va)).2 := by
  change execPageWalk core ctx va s = _
  rw [execPageWalk, event_next hp]

/-! ### The fault queue (R352) -/

/-- The state after a fault's entry has been written in `s1`: the queue's head has moved on, and the entry has its number. -/
def State.faultQueued (s1 : State) (n c head seq : Nat) : State :=
  let h := (head + 1) % 2 ^ 32
  let s2 := (s1.modCtx c fun z => { z with fqHead := h }).descPut c 0x64 h
  (s2.setFaults (tmod s2.work.faults n fun z => { z with seq := seq })).modRun c fun z => { z with nextSeq := seq + 1 }
theorem exec_faultQueueWrite {s s1 : State} {n w : Nat} {x : FaultRec} {y : Ctx} (hp : s.power = true)
    (hx : tget s.work.faults n = some x) (hy : tget s.ctxs x.ctx = some y) (hseq : x.seq = 0) (hkind : x.kind ≠ 5)
    (hmsi : y.fqmsi = false) (hroom : (y.fqHead + 2 ^ 32 - s.descGet x.ctx 0x68) % 2 ^ 32 < 2 ^ y.fqLog)
    (hw : s.devWrite 0 x.ctx (y.fqBase + 32 * (y.fqHead % 2 ^ y.fqLog)) (x.bytes (s.run x.ctx).nextSeq) = (.ok w, s1)) :
    exec (.faultQueueWrite n) s = .next (s1.faultQueued n x.ctx y.fqHead (s.run x.ctx).nextSeq) := by
  have hgo : (decide (x.seq ≠ 0) || decide (2 ^ y.fqLog ≤ (y.fqHead + 2 ^ 32 - s.descGet x.ctx 0x68) % 2 ^ 32)) = false := by
    rw [hseq, decide_eq_false (Nat.not_le.mpr hroom)]
    rfl
  change execFaultQueueWrite n s = _
  simp only [execFaultQueueWrite, event_next hp, hx, hy, hgo, hkind, hmsi, hw, Bool.false_eq_true, if_false]
  rfl

/-- Settles O49: each event finds a request that may start, an element that has been read or has arrived, a swap that is due, or
room in the queue. -/
theorem copiesWalksAndFaults : Obligations.CopiesWalksAndFaults := by
  unfold Obligations.CopiesWalksAndFaults
  intro n el die sl core ctx va w c f t b x y s1
  refine ⟨?start, ?move, ?count, ?swap, ?walk, ?entry⟩
  case start =>
    rintro s hp ⟨hc, hf, hn, ht, hst, hsp, he, hm⟩
    exact exec_copyRequestExecute hp hc hf hn ht hst hsp he hm
  case move =>
    rintro s hp ⟨hc, hf, ht, hfly, hst, hsp, he, hnext, hearly, hcount, hread⟩
    exact exec_copyElementWrite_moves hp hc hf ht hfly hst hsp he hnext hearly hcount hread
  case count =>
    rintro s hp ⟨hc, hf, hfly, hw⟩
    exact exec_copyElementWrite_counts hp hc hf hfly hw
  case swap => exact fun s hp h => exec_louvreFilterSwap hp h
  case walk => exact fun s hp _ => exec_pageWalk core ctx va hp
  case entry =>
    rintro s hp ⟨hx, hy, hseq, hkind, hmsi, hroom, hw⟩
    exact exec_faultQueueWrite hp hx hy hseq hkind hmsi hroom hw

end Sys2Proof.Machine
end

section
/-! SUPPORT. Instructions of the engines as a group issues them: what each queues, starts or holds, and with which operands
(R246 to R275, R280, R380, R420). -/
namespace Sys2Proof.Machine

/-! ### PYIELD (R280, R380) -/

theorem pyieldBody_elsewhere {s : State} {e : GI} (h : e.g.ctl.pre = .run ∨ e.g.ctl.level ≠ .u) : pyieldBody e s = .done s := by
  refine if_neg fun ⟨hp, hl⟩ => ?_
  cases h with
  | inl hrun => cases hrun.symm.trans hp
  | inr hlevel => exact hlevel hl
/-- R280: in its PREEMPT handler a group yields, and PYIELD holds it. -/
theorem pyieldBody_handler {s : State} {e : GI} (hg : tget s.groups e.gid = some e.g)
    (h : e.g.ctl.pre = .handler ∧ e.g.ctl.level = .u) :
    pyieldBody e s = .stay (s.putGroup e.gid { e.g with
      ctl := { e.g.ctl with pre := .yielded, hold := some .pyield, holdAt := s.gtOf e.g.core, holdArg := [] } }) := by
  rw [pyieldBody, if_pos h, modCtl_eq _ _ _ _ hg]
/-- An instruction whose work is complete as it stands leaves control where it is. -/
theorem issue_stays {s s1 : State} {i : Instr} {e : GI} {f : GI → State → Fx} {p : SI → State → SFx} (h : Issues s i e)
    (hf : f e s = .stay s1) : s.issue i f p = .next s1 := by
  rw [issue_group h, hf]
  rfl

/-- Settles O31: the group's place in a pre-emption and its level say which of PYIELD's two works is done. -/
theorem pyieldYields : Obligations.PyieldYields := by
  unfold Obligations.PyieldYields
  refine ⟨?elsewhere, ?handler⟩
  case elsewhere =>
    rintro s e h ⟨hc, hg⟩
    exact issue_goesOn h (pyieldBody_elsewhere hc) h.level hg
  case handler => exact fun s e h hc => issue_stays h (pyieldBody_handler h.group hc)

/-! ### Commands to the array (R246 to R254) -/

/-- R249: an instruction whose work queues a command at its core's array. -/
theorem commands_of {i : Instr} {f : GI → State → Fx} {q : SI → State → SFx} {c : State → GI → Prop} {o : GI → Op → Op}
    (hx : ∀ s, exec i s = s.issue i f q) (hf : ∀ s e, c s e → f e s = .done (e.command s .engine (o e)).2) : Commands i c o :=
  completes_done hx fun s e h hc => ⟨hf s e hc, command_level h.level⟩
/-- R246: TDESC forms the descriptor of its two registers, where it refuses neither its value nor its layout. -/
theorem completes_tdesc (b a d : Nat) (x : Tile) : Completes (.tdesc b a d)
    (fun s e => GoesOn s e ∧ x = BitVec.ofNat 128 ((e.g.regs.sr a).toNat + 2 ^ 64 * (e.g.regs.sr b).toNat) ∧
      Tile.bad x = false ∧ ¬ (Tile.fmt x = 4 ∧ Tile.tr x = true))
    fun s e => e.wrote s (e.g.regs.setT d x) := by
  rintro s e h ⟨hg, rfl, hbad, hlayout⟩
  refine issue_regs (r := fun r => r.setT d _) h ?_ rfl hg
  simp only [hbad, hlayout, Bool.false_eq_true, if_false]
/-- R248, R250: a product whose tile, and whose scales where it has them, may be read is queued. -/
theorem product_queued {s : State} {e : GI} {r : Bool} {t a : Nat} {sc : Option Nat} (ht : e.tileOk t)
    (hs : sc.isSome = true → Tile.scale (e.g.regs.tr t) + 1024 ≤ e.team.size) :
    e.product s r t a sc = .done (e.productDone s t (e.readA r a sc)) := by
  obtain ⟨hshape, hin⟩ := ht
  have hscale : (sc.isSome && decide (e.team.size < Tile.scale (e.g.regs.tr t) + 1024)) = false := by
    cases h : sc.isSome with
    | false => rfl
    | true => simp [hs h]
  simp only [GI.product, hshape, hin, hscale, Bool.not_true, Bool.false_eq_true, if_false]
  rfl
theorem productDone_level {e : GI} {s : State} {l : Level} (h : s.HasLevel e.gid l) (t : Nat) (x : List (List Word) × Latch) :
    (e.productDone s t x).HasLevel e.gid l := (command_level h).mod _ fun _ => rfl
/-- R248 to R253: an instruction whose work is a product. -/
theorem completes_product {i : Instr} {f : GI → State → Fx} {q : SI → State → SFx} {c : State → GI → Prop} {r : Bool} {t a : Nat}
    {sc : Option Nat} (hx : ∀ s, exec i s = s.issue i f q) (hf : ∀ s e, c s e → f e s = e.product s r t a sc)
    (ht : ∀ s e, c s e → e.tileOk t ∧ (sc.isSome = true → Tile.scale (e.g.regs.tr t) + 1024 ≤ e.team.size)) :
    Completes i (fun s e => GoesOn s e ∧ c s e) fun s e => e.goOn s (e.productDone s t (e.readA r a sc)) :=
  completes_done hx fun s e h hc =>
    ⟨(hf s e hc).trans (product_queued (ht s e hc).1 (ht s e hc).2), productDone_level h.level ..⟩

/-! ### Drains (R255 to R257) -/

/-- R255: a drain into tiles that lie in local memory is queued. -/
theorem drain_queued {e : GI} {s : State} {t : Tile} {ts : List Tile} (sv : List DWord)
    (h : ∀ x ∈ t :: ts, Tile.inside x e.team.size = true) :
    e.drain s (t :: ts) sv = .done (e.drained s (Tile.fmt t) (t :: ts) sv) := by
  have hnone : (t :: ts).find? (fun x => !Tile.inside x e.team.size) = none :=
    List.find?_eq_none.mpr fun x hx => by simp [h x hx]
  simp only [GI.drain, hnone]
  rfl
theorem drained_level {e : GI} {s : State} {l : Level} (h : s.HasLevel e.gid l) (fmt : Nat) (ts : List Tile) (sv : List DWord) :
    (e.drained s fmt ts sv).HasLevel e.gid l :=
  ite_level ((command_level h).mod _ fun _ => rfl) (command_level h)
/-- R256: AGDRAIN's rows. -/
theorem plan_agdrain {e : GI} {o b a : Nat} (h : e.i = .agdrain o b a) (m : Mask) :
    e.plan m = some (planRows (e.g.regs.sr b) (e.g.regs.vr o) m) := by
  rw [GI.plan, h]
  rfl
theorem clearRedo_level {e : GI} {s : State} {l : Level} (h : s.HasLevel e.gid l) : (e.clearRedo s).HasLevel e.gid l :=
  h.mod _ fun _ => rfl

/-- Settles O40: what each instruction refuses does not hold, so that its command is queued; that a drain's draws are taken at issue
is assumption log 60. -/
theorem matrixInstructions : Obligations.MatrixInstructions := by
  unfold Obligations.MatrixInstructions
  refine ⟨fun a b d t sc r => ?products, fun band sr a t q o b => ?drains⟩
  case products =>
    refine ⟨completes_tdesc b a d, ?azero, ?amov, ?aload, ?mma, ?mmap, ?mmabs⟩
    case azero | amov => exact commands_of (fun _ => rfl) fun _ _ _ => rfl
    case aload =>
      refine commands_of (fun _ => rfl) fun s e ⟨hfmt, hrows, hcols, hin⟩ => ?_
      simp only [hfmt, hrows, hcols, hin, ne_eq, not_true_eq_false, or_self, Bool.not_true, Bool.false_eq_true, if_false]
    case mma => exact completes_product (fun _ => rfl) (fun _ _ _ => rfl) fun _ _ ht => ⟨ht, nofun⟩
    case mmap =>
      refine completes_product (fun _ => rfl) (fun s e ⟨_, hcore, hco, hlead, hpartner⟩ => ?_) fun _ _ ⟨ht, _⟩ => ⟨ht, nofun⟩
      simp [hcore, hco, hlead, Option.isSome_iff_ne_none.mp hpartner]
    case mmabs => exact completes_product (fun _ => rfl) (fun _ _ _ => rfl) fun _ _ ⟨ht, hs⟩ => ⟨ht, fun _ => hs⟩
  case drains =>
    refine ⟨?adrain, ?astash, fun ts sp s1 => ?agdrain⟩
    case adrain =>
      refine completes_done (fun _ => rfl) fun s e h ⟨hrows, hcols, hscaled, hfmt, hin⟩ => ⟨?_, drained_level h.level ..⟩
      have hdrain := drain_queued (s := s) (if band then [e.g.regs.sr sr] else []) (List.forall_mem_singleton.mpr hin)
      simp only [hrows, hcols, hscaled, Nat.not_lt.mpr hfmt, ne_eq, not_true_eq_false, or_self, if_false, hdrain]
    case astash =>
      refine completes_done (fun _ => rfl) fun s e h ⟨hfmt, hof, htr, htrq, hr, hc, hrq, hcq, hin, hinq⟩ =>
        ⟨?_, drained_level h.level ..⟩
      have hdrain := drain_queued (s := s) [] (List.forall_mem_cons.mpr ⟨hin, List.forall_mem_singleton.mpr hinq⟩)
      rw [hfmt] at hof
      simp only [hfmt, hof, htr, htrq, hr, hc, hrq, hcq, ne_eq, not_true_eq_false, or_self, Bool.not_true, Bool.false_eq_true,
        beq_self_eq_true, Bool.and_self, if_false, hdrain]
    case agdrain =>
      refine completes_done (fun _ => rfl) fun s e h ⟨hr, hc⟩ => ⟨?_, clearRedo_level ?_⟩
      · simp only [redo_none hr, plan_agdrain h.instr]
        unfold GI.checked at hc
        simp only [hc]
      · exact (command_level (h.level.checked hc)).send ..

/-! ### Hash-grid instructions (R260 to R263) -/

/-- R260: HCFG reads the descriptor at its aligned address. -/
theorem hcfgBody_reads {a : Nat} {e : GI} {s s1 : State} {x : List Byte} (ha : (e.g.regs.sr a).toNat % 128 = 0)
    (hr : e.readBlock s (e.g.regs.sr a) 128 false = (.ok x, s1)) :
    hcfgBody a e s = .done (e.startOp s1 fun o => { o with svals := [e.g.regs.sr a], misc := x.map (·.toNat) }).2 := by
  simp only [hcfgBody, ha, ne_eq, not_true_eq_false, if_false, hr]
/-- R260, R261: with a descriptor that it may use, a hash instruction captures its registers. -/
theorem hash_captures {e : GI} {s s1 : State} {d a sr l0 n : Nat} {scatter : Bool} {x : List Byte}
    (h : e.GridOk s d a sr l0 n scatter x s1) : e.hash s d a sr l0 n scatter = .done (e.hashed d a n scatter x s1) := by
  obtain ⟨haligned, hread, hstatus, hlevels, hinputs, houtputs, hwaited, hfree⟩ := h
  simp only [GI.hash, haligned, hread, hstatus, Nat.not_lt.mpr hlevels, Nat.not_lt.mpr hinputs, Nat.not_lt.mpr houtputs, hwaited, hfree,
    ne_eq, not_true_eq_false, or_self, Bool.false_eq_true, if_false]
  rfl
theorem hashed_level {e : GI} {s1 : State} {l : Level} (h : s1.HasLevel e.gid l) (d a n : Nat) (scatter : Bool) (x : List Byte) :
    (e.hashed d a n scatter x s1).HasLevel e.gid l := (startOp_level h).mod _ fun _ => rfl
/-- R260 to R263: an instruction whose work is a hash instruction's. -/
theorem completes_hash {i : Instr} {q : SI → State → SFx} {d a sr l0 n : Nat} {scatter : Bool} (x : List Byte) (s1 : State)
    (hx : ∀ s, exec i s = s.issue i (fun e s => e.hash s d a sr l0 n scatter) q) :
    Completes i (fun s e => GoesOn s e ∧ e.GridOk s d a sr l0 n scatter x s1) fun s e => e.goOn s (e.hashed d a n scatter x s1) :=
  completes_done hx fun _ _ h hok => ⟨hash_captures hok, hashed_level (grid_level h.level hok.read) ..⟩

/-- Settles O41: HCFG's read of its descriptor, and the one work of HGATHER and HSCATTER. -/
theorem hashGridInstructions : Obligations.HashGridInstructions := by
  unfold Obligations.HashGridInstructions
  intro d a sr l0 n x s1
  refine ⟨?hcfg, completes_hash x s1 fun _ => rfl, completes_hash x s1 fun _ => rfl⟩
  case hcfg =>
    exact completes_done (f := hcfgBody a) (fun _ => rfl) fun s e h ⟨ha, hr⟩ =>
      ⟨hcfgBody_reads ha hr, startOp_level (readBlock_level h.level hr)⟩

/-! ### DRAW (R264, R265, R420) -/

section
variable {s s1 s2 : State} {e : GI} {a : Nat} {ts : List (Piece × Trans)} {sp : List Nat} {b : List Byte}

/-- R264: without an active lane that is no helper, DRAW does nothing. -/
theorem drawBody_helpers (h : e.g.active &&& ~~~e.g.helpers = 0) : drawBody a e s = .done s := if_pos h
/-- R265, R420: a descriptor that cannot be read as DRAW issues is read later. -/
theorem drawBody_later {x0 : Nat × Nat} (h : e.DrawOk s a ts sp s1)
    (hw : s1.released e.die (s.awaitOf e.gid Instr.writesMem) = false ∨
      (s1.readVia (some (.l1 e.g.core)) (coreTlb e.g.core) e.die e.ctx (e.g.ctl.level == .u)
        (vaOf (globalAddr (e.g.regs.sr a) 0)) 64).1 = .error x0) : drawBody a e s = .done (e.drew s s1 a []) := by
  obtain ⟨hlanes, haligned, htags, hchecks⟩ := h
  unfold GI.checked at hchecks
  simp only [drawBody, hlanes, haligned, htags, hchecks, ne_eq, not_true_eq_false, Bool.false_eq_true, if_false]
  cases hw with
  | inl hwaits => simp only [hwaits, Bool.not_false, if_true]; rfl
  | inr hfails =>
    split
    · rfl
    · generalize s1.readVia _ _ _ _ _ _ _ = r at hfails
      obtain ⟨r1, r2⟩ := r
      cases hfails
      rfl
/-- R265: a descriptor whose group's writes are done is read as DRAW issues. -/
theorem drawBody_reads (h : e.DrawOk s a ts sp s1) (hw : s1.released e.die (s.awaitOf e.gid Instr.writesMem) = true)
    (hr : s1.readVia (some (.l1 e.g.core)) (coreTlb e.g.core) e.die e.ctx (e.g.ctl.level == .u)
      (vaOf (globalAddr (e.g.regs.sr a) 0)) 64 = (.ok b, s2)) : drawBody a e s = .done (e.drew s s2 a b) := by
  obtain ⟨hlanes, haligned, htags, hchecks⟩ := h
  unfold GI.checked at hchecks
  simp only [drawBody, hlanes, haligned, htags, hchecks, hw, hr, ne_eq, not_true_eq_false, Bool.not_true, Bool.false_eq_true, if_false]
  rfl
theorem drew_level {l : Level} (h : s1.HasLevel e.gid l) : (e.drew s s1 a b).HasLevel e.gid l := startOp_level h

end

/-! ### TSAMP (R268) -/

/-- R268: where its records and texels may be read, TSAMP starts its operation and sends a request a texel. -/
theorem tsampBody_samples {s s1 s2 : State} {e : GI} {c sr x l : Nat} {md : TMode} {ts us : List (Piece × Trans)}
    (h : e.TexOk s c sr x l md ts s1 us s2) :
    tsampBody c sr x l md e s = .done (e.sampled c sr x l md (s1.readRecs e.g.core e.ctx ts).1 us s2) := by
  obtain ⟨⟨sp, hrecords⟩, hmapped, hreached, hinputs, hsteady, hwaited, ⟨sq, htexels⟩⟩ := h
  unfold GI.checked at hrecords htexels
  simp only [tsampBody, hrecords, hmapped, hreached, hsteady, Nat.not_lt.mpr hinputs, hwaited, htexels, Bool.false_eq_true, if_false]
  rfl
theorem sampled_level {e : GI} {s2 : State} {lv : Level} (h : s2.HasLevel e.gid lv) (c sr x l : Nat) (md : TMode)
    (rs : List (Nat × RecRead)) (us : List (Piece × Trans)) : (e.sampled c sr x l md rs us s2).HasLevel e.gid lv :=
  foldl_level (fun _ _ hs => hs.send ..) _ _ (startOp_level h)
/-- The checks of TSAMP's records and texels, and the reads of its records, leave its group at its level. -/
theorem texOk_level {s s1 s2 : State} {e : GI} {c sr x l : Nat} {md : TMode} {ts us : List (Piece × Trans)} {lv : Level}
    (h : e.TexOk s c sr x l md ts s1 us s2) (hl : s.HasLevel e.gid lv) : s2.HasLevel e.gid lv := by
  obtain ⟨_, hrecords⟩ := h.records
  obtain ⟨_, htexels⟩ := h.texels
  exact ((hl.checked hrecords).of_groups (readRecs_groups ..)).checked htexels

/-- Settles O42: DRAW's descriptor is read now or later (assumption log 71), TSAMP's records as it issues (assumption log 64), and the
ray instructions' records by the common access. -/
theorem drawsTexturesAndRays : Obligations.DrawsTexturesAndRays := by
  unfold Obligations.DrawsTexturesAndRays
  intro d a n c sr x l any md cull ts us sp s1 s2 b x0
  refine ⟨?later, ?reads, ?helpers, ?tsamp, plansAs_rbox.accesses (fun _ => rfl) fun _ => rfl,
    plansAs_rtri.accesses (fun _ => rfl) fun _ => rfl⟩
  case later =>
    exact completes_done (f := drawBody a) (fun _ => rfl) fun s e h ⟨hok, hw⟩ =>
      ⟨drawBody_later hok hw, drew_level (h.level.checked hok.checks)⟩
  case reads =>
    refine completes_done (f := drawBody a) (fun _ => rfl) fun s e h ⟨hok, hw, hr⟩ => ⟨drawBody_reads hok hw hr, drew_level ?_⟩
    have hread : s2.groups = s1.groups := (congrArg (·.2.groups) hr).symm.trans (readVia_groups ..)
    exact (h.level.checked hok.checks).of_groups hread
  case helpers => exact completes_done (f := drawBody a) (fun _ => rfl) fun s e h hh => ⟨drawBody_helpers hh, h.level⟩
  case tsamp =>
    exact completes_done (f := tsampBody c sr x l md) (fun _ => rfl) fun s e h hok =>
      ⟨tsampBody_samples hok, sampled_level (texOk_level hok h.level) ..⟩

/-! ### Ordered sections and REGROUP (R266, R267, R272) -/

theorem ordentBody_waits {s : State} {e : GI} {k p : Nat} (h : Issues s (.ordent k p) e) (hs : e.g.sect = none) :
    ordentBody e s = e.wait s [] := by
  simp only [ordentBody, h.hold, hs, reduceCtorEq, Option.isSome_none, Bool.false_eq_true, if_false]
theorem regroupBody_waits {s : State} {e : GI} {k : Nat} (h : Issues s (.regroup k) e)
    (hc : e.g.stack = [] ∧ e.g.helpers = 0 ∧ e.g.sect = none) : regroupBody e s = e.wait s [] := by
  obtain ⟨hstack, hhelpers, hsect⟩ := hc
  simp only [regroupBody, h.hold, hstack, hhelpers, hsect, reduceCtorEq, ne_eq, not_true_eq_false, Option.isSome_none, Bool.false_eq_true,
    or_self, if_false]
/-- R240, R272: a group whose lanes have been dealt acquires on every path. -/
theorem regroupBody_dealt {s : State} {e : GI} {k w : Nat} (h : Resumes s (.regroup k) e) (ha : e.g.ctl.holdArg = [2, w])
    (hw : w + 2 < s.gtOf e.g.core) : regroupBody e s = .done (s.dropPaths e.g.core (s.gtOf e.g.core)) := by
  simp only [regroupBody, h.hold, h.instr, ha, hw, if_true]

/-- Settles O43: ORDENT and REGROUP wait, ORDEXIT leaves its section, and a dealt REGROUP is over once its writes are visible. -/
theorem orderedSectionsAndRegroup : Obligations.OrderedSectionsAndRegroup := by
  unfold Obligations.OrderedSectionsAndRegroup
  intro k p
  refine ⟨?ordent, ?ordexit, ?regroup, ?dealt⟩
  case ordent => exact completes_held (f := ordentBody) (fun _ => rfl) fun s e h hs => ordentBody_waits h hs
  case ordexit => exact completes_goOn (fun _ => rfl) (fun _ _ => rfl) fun s e h => leaveSection_level h.level _
  case regroup => exact completes_held (f := regroupBody) (fun _ => rfl) fun s e h hc => regroupBody_waits h hc
  case dealt =>
    exact continues_done (f := regroupBody) (fun _ => rfl) fun s e h ⟨_, ha, hw⟩ =>
      ⟨regroupBody_dealt h ha hw, h.level.of_groups (dropPaths_groups ..)⟩

/-! ### Experts and control registers (R273 to R275) -/

/-- Settles O44: ROUTE and XDONE start with what they read, and CSRW's write leaves its group at its level. -/
theorem expertsAndControlRegisters : Obligations.ExpertsAndControlRegisters := by
  unfold Obligations.ExpertsAndControlRegisters
  intro n e d t a r
  refine ⟨?route, ?xdone, ?csrw⟩
  case route | xdone => exact starts_of (fun _ => rfl) fun _ _ _ => rfl
  case csrw => exact completes_goOn (fun _ => rfl) (fun _ _ => rfl) fun _ _ h => csrWrite_level h.level ..

end Sys2Proof.Machine
end

section
/-! SUPPORT. Requests at their homes, at copies and at scratchpad banks: reads, performed stores and atomics (R211, R289, R296,
R299 to R303). -/
namespace Sys2Proof.Machine

section
variable {s : State} {n : Nat} {r : Req}

/-! ### Reads (R289, R299, R300) -/

theorem isWrite_of_load (hk : r.kind = .load) : r.isWrite = false := by simp only [Req.isWrite, hk]
/-- R300: a read of which a cache on its path holds a valid copy is served from that copy. -/
theorem exec_homeRead_copy {x : CopyLine} (hp : s.power = true) (hr : s.reqNow n = some r) (hk : r.kind = .load)
    (hx : s.copyHit r = some x) : exec (.homeRead n true) s = .next (s.hitServe n r x) := by
  change execHomeRead n true s = _
  simp only [execHomeRead, event_next hp, hr, isWrite_of_load hk, hk, hx, BEq.rfl, Bool.and_self, Bool.false_eq_true, if_false, if_true]
/-- R299: a home that holds a line without poison serves a read of it, under a lease where it grants one. -/
theorem homeServe_held (hk : r.kind = .load) (hh : s.homeReady r = true) (hl : (s.homeLine (r.pa / 128)).isSome = true)
    (hpo : s.poisonedAt r.pa r.size r.key = false) :
    s.homeServe n r = ((s.leaseOut r).touchHome r).answer n (.done 0) (s.see r.pa r.size r.key) := by
  obtain ⟨-, hstall, hspace, hreach, hkey⟩ := homeReady_iff.mp hh
  simp only [State.homeServe, hstall, Option.isSome_iff_ne_none.mp hspace, hreach, hkey, Option.isNone_eq_false_iff.mpr hl, hk, hpo,
    Bool.not_true, Bool.false_eq_true, reduceCtorEq, if_false]
/-- A read that looks in no copy goes to its home. -/
theorem exec_homeRead_home (hp : s.power = true) (hr : s.reqNow n = some r) (hk : r.kind = .load) (hs : r.space = .global) :
    exec (.homeRead n false) s = .next (s.homeServe n r) := by
  change execHomeRead n false s = _
  simp only [execHomeRead, event_next hp, hr, isWrite_of_load hk, hs, Bool.false_and, Bool.false_eq_true, if_false]

/-! ### Stores that take effect (R301) -/

/-- The oldest pending store of a line stands there. -/
theorem stands_of_head {ln : Nat} (h : (s.lineCtl ln).pend.head?.map (·.req) = some n) : s.stands ln n = true := by
  obtain ⟨p, hp, hn⟩ := Option.map_eq_some_iff.mp h
  exact List.any_eq_true.mpr ⟨p, List.mem_of_mem_head? hp, beq_iff_eq.mpr hn⟩
/-- R301: once GT has reached its W, the oldest pending store of a line takes effect. -/
theorem exec_homeStorePerform {w : Nat} (hp : s.power = true) (hr : tget s.work.reqs n = some r) (hst : r.st = .pending w)
    (hk : r.kind = .store) (hw : w ≤ s.gtAt (s.homeDie (r.pa / 128)))
    (hhead : (s.lineCtl (r.pa / 128)).pend.head?.map (·.req) = some n) (hspace : (s.spaceOf r.pa).isSome = true)
    (hkey : s.keyed r.key = true) (hl : (s.homeLine (r.pa / 128)).isSome = true) :
    exec (.homeStorePerform n) s =
      .next (((((s.performPend (r.pa / 128) n).noteWrite r w).ackInstall r w).touchHome r).answer n (.done w) r.val) := by
  change execHomeStorePerform n s = _
  simp only [execHomeStorePerform, event_next hp, hr, hst, hk, Nat.not_lt.mpr hw, stands_of_head hhead, hhead,
    Option.isSome_iff_ne_none.mp hspace, hkey, Option.isNone_eq_false_iff.mpr hl, Bool.not_true, Bool.false_eq_true, ne_eq,
    not_true_eq_false, if_false, if_true]

/-! ### Atomics (R296, R302) -/

/-- The state after an atomic has been performed at its home: its result is pending over what every earlier arrival leaves. -/
def State.atomicDone (s : State) (n : Nat) (r : Req) : State :=
  let old := slice (s.futureLine (r.pa / 128) r.key) (r.pa % 128) r.size
  let p := (((s.dropPassing r).dropCopies (r.pa / 128) fun h => h == .l1 r.core).toMsc (r.pa / 128) r.hint r.missed).pend
    (r.pa / 128) n (r.pa % 128) (r.atomBytes old)
  (p.2.noteWrite r p.1).modReq n fun y => { y with st := .pending p.1, val := old }
theorem exec_homeAtomic {op : AOp} {ty : AType} {c : Nat} (hp : s.power = true) (hr : s.reqNow n = some r)
    (hk : r.kind = .atomic op ty c) (hh : s.homeReady r = true) (hl : (s.homeLine (r.pa / 128)).isSome = true)
    (hpo : s.poisonedAt r.pa r.size r.key = false) : exec (.homeAtomic n) s = .next (s.atomicDone n r) := by
  have hglobal : r.space = .global := (homeReady_iff.mp hh).1
  change execHomeAtomic n s = _
  simp only [execHomeAtomic, event_next hp, hr, hk, hglobal, if_true, atHome_of_ready hh, Option.isNone_eq_false_iff.mpr hl, hpo,
    Bool.false_eq_true, if_false]
  rfl

/-! ### Scratchpad banks (R211) -/

/-- R211: a store to a scratchpad is performed when it arrives, and that time is its W. -/
theorem exec_scratchpadBankOp_store {lid : Nat} (hp : s.power = true) (hr : s.reqNow n = some r) (hs : r.space = .scratch lid)
    (hk : r.kind = .store) (hheld : s.scratchHeld r = false) :
    exec (.scratchpadBankOp n) s =
      .next (((s.setScratch lid r.die ((s.scratchOf lid r.die).write r.pa r.data)).noteWrite r (s.gtAt r.die)).answer n
        (.done (s.gtAt r.die)) ((s.scratchOf lid r.die).read r.pa r.size)) := by
  change execScratchpadBankOp n s = _
  simp only [execScratchpadBankOp, event_next hp, hr, hs, hheld, hk, Bool.false_eq_true, if_false]

end

/-- Settles O48: a read finds a valid copy or its home's line, a store and an atomic join the pending writes of their line, the
oldest of these takes effect at its W, and a scratchpad store is performed where it arrives. -/
theorem homesServeRequests : Obligations.HomesServeRequests := by
  unfold Obligations.HomesServeRequests
  intro n w lid c inst op ty r x
  refine ⟨?copy, ?home, ?arrive, ?perform, ?atomic, ?scratch⟩
  case copy => exact fun s hp ⟨hr, hk, hx⟩ => exec_homeRead_copy hp hr hk hx
  case home =>
    rintro s hp ⟨hr, hk, hh, hl, hpo⟩
    rw [exec_homeRead_home hp hr hk (homeReady_iff.mp hh).1, homeServe_held hk hh hl hpo]
  case arrive => exact fun s hp ⟨hr, hk, hh⟩ => exec_homeStoreArrive inst hp hr hk hh
  case perform =>
    rintro s hp ⟨hr, hst, hk, hw, hhead, hspace, hkey, hl⟩
    exact exec_homeStorePerform hp hr hst hk hw hhead hspace hkey hl
  case atomic => exact fun s hp ⟨hr, hk, hh, hl, hpo⟩ => exec_homeAtomic hp hr hk hh hl hpo
  case scratch => exact fun s hp ⟨hr, hs, hk, hheld⟩ => exec_scratchpadBankOp_store hp hr hs hk hheld

end Sys2Proof.Machine
end

section
/-! SUPPORT. Interleave maps, live stack retirement and the requests of home slices to their units (R331 to R333, R340 to R348). -/
namespace Sys2Proof.Machine

section
variable {s : State} {r row data : Nat}

/-! ### Maps (R331 to R333) -/

/-- R331: a row that fits its matrix is staged. -/
theorem mapStage_fits {b : Bool} (hr : r ≤ 5) (hrow : row ≤ 11) (hd : data < 2 ^ (if b then bWidth r else 12)) :
    s.mapStage b r row data =
      s.modRegion r fun g => if b then { g with sb := g.sb.set row data } else { g with sa := g.sa.set row data } :=
  if_neg (by omega)
/-- R332: with no retirement under way, MAPCTL's apply captures the staged rows of an A that is invertible. -/
theorem mapApply_invertible (hr : r ≤ 5) (ht : s.retire = none) (hi : invertible (s.region r).sa = true) :
    s.mapApply r = s.modRegion r fun g => { g with applying := some (g.sa, g.sb) } := by
  simp only [State.mapApply, Nat.not_lt.mpr hr, ht, hi, Option.isSome_none, Bool.not_true, Bool.false_eq_true, if_false]
/-- R332: an A that is singular is refused. -/
theorem mapApply_singular (hr : r ≤ 5) (ht : s.retire = none) (hi : invertible (s.region r).sa = false) :
    s.mapApply r = s.modPkg fun p => { p with errSingular := true, errRegion := r } := by
  simp only [State.mapApply, Nat.not_lt.mpr hr, ht, hi, Option.isSome_none, Bool.not_false, Bool.false_eq_true, if_false, if_true]
/-- R333: a region without outstanding requests takes up the rows that its apply captured (assumption log 79). -/
theorem exec_mapApplySwitch_quiet {a b : List Nat} (hp : s.power = true) (ha : (s.region r).applying = some (a, b))
    (hq : s.linesBusy (fun ln => inRegion (ln * 128) r) = false) :
    exec (.mapApplySwitch r) s =
      .next ((s.modRegion r fun g => { g with a := a, b := b, moved := [], applying := none }).modPkg
        fun p => { p with migphase := (p.migphase + 1) % 2 ^ 32 }) := by
  change execMapApplySwitch r s = _
  simp only [execMapApplySwitch, event_next hp, ha, hq, Bool.false_eq_true, if_false]

end

section
variable {s : State} {v c : Nat} {t : Retire} {m : MoveCell}

/-! ### Retirement (R340 to R347) -/

/-- R345: a write of RETIRESTK that nothing refuses is accepted. -/
theorem retireWrite_accepted (h : s.retireRefusal v = none) : s.retireWrite v = s.retireAccept v := by
  simp only [State.retireWrite, h]
/-- R347: while fewer than 64 cells are copying, the first that has not started does. -/
theorem exec_retireCellStart_first (hp : s.power = true) (ht : s.retire = some t)
    (hn : (t.cells.filter fun m => m.started && !m.switched).length < 64)
    (hc : t.cells.findIdx? (fun m => !m.started) = some c) :
    exec (.retireCellStart c) s = .next (s.modMoving c fun m => { m with started := true }) := by
  change execRetireCellStart c s = _
  simp only [execRetireCellStart, event_next hp, ht, hn, hc, and_self, if_true]
/-- R347: the row at a copying cell's watermark is copied and the watermark advances; a line without metadata leaves none. -/
theorem exec_retireRowCopy_bare (hp : s.power = true) (ht : s.retire = some t) (hc : t.cells[c]? = some m)
    (hst : m.started = true) (hsw : m.switched = false) (hm : m.mark < t.depthOf m)
    (hu : s.unitMeta (s.oldPlace m m.mark) = none) :
    exec (.retireRowCopy c) s =
      .next (({ s with mem := { s.mem with
          units := s.mem.units.write (newPlace m m.mark * 128) (s.mem.units.read (s.oldPlace m m.mark * 128) 128)
          umeta := tdel s.mem.umeta (newPlace m m.mark)
          bad := s.mem.bad.filter fun b => b != newPlace m m.mark } } : State).modMoving c
        fun x => { x with mark := x.mark + 1 }) := by
  change execRetireRowCopy c s = _
  simp only [execRetireRowCopy, event_next hp, ht, hc, hst, hsw, decide_eq_false (Nat.not_le.mpr hm), hu, Bool.not_true,
    Bool.or_self, Bool.false_eq_true, if_false]
/-- R347: a cell whose rows are all copied takes its new place, a new PHASE begins, and the retirement goes on while other
cells are left. -/
theorem exec_retireCellSwitch_notLast (hp : s.power = true) (ht : s.retire = some t) (hc : t.cells[c]? = some m)
    (hst : m.started = true) (hsw : m.switched = false) (hm : t.depthOf m ≤ m.mark) (hl : 1 < s.pkg.retLeft) :
    exec (.retireCellSwitch c) s =
      .next (((s.modMoving c fun x => { x with switched := true }).modRegion m.region fun g =>
        { g with moved := tput g.moved m.cell (m.stack, m.base, 1) }).modPkg fun p =>
          { p with migphase := (p.migphase + 1) % 2 ^ 32, retLeft := p.retLeft - 1 }) := by
  have hleft : s.pkg.retLeft - 1 ≠ 0 := by omega
  change execRetireCellSwitch c s = _
  simp only [execRetireCellSwitch, event_next hp, ht, hc, hst, hsw, decide_eq_false (Nat.not_lt.mpr hm), Bool.not_true,
    Bool.or_self, Bool.false_eq_true, if_false]
  exact congrArg Host.Outcome.next (if_pos hleft)

end

/-! ### Requests to units (R348) -/

/-- The oldest request of its line goes before every other. -/
theorem unitq_oldest {s : State} {n ln : Nat} (h : ∀ x ∈ s.mem.unitq, x.1 < n → x.2.line ≠ ln) :
    (s.mem.unitq.any fun x => decide (x.1 < n) && x.2.line == ln) = false :=
  List.any_eq_false.mpr fun x hx => by simpa using h x hx
/-- R348: a write routed under the current PHASE is performed by the unit that holds its line's cell. -/
theorem exec_unitRequest_write {s : State} {n u : Nat} {q : UnitReq} (hp : s.power = true) (hq : tget s.mem.unitq n = some q)
    (hstall : s.unitStalls q.line = false) (hold : ∀ x ∈ s.mem.unitq, x.1 < n → x.2.line ≠ q.line)
    (hphase : q.phase = s.pkg.migphase) (hkey : s.keyed q.key = true) (hu : s.unitOf q.line = some u)
    (hreach : s.reach (s.homeDie q.line) (unitDie (u / 2 ^ 30)) = .ok) (hw : q.write = true) :
    exec (.unitRequest n) s =
      .next (({ s with mem := { s.mem with unitq := tdel s.mem.unitq n } } : State).unitWrite u q.key q.data q.tags q.poison) := by
  change execUnitRequest n s = _
  simp only [execUnitRequest, event_next hp, hq, hstall, unitq_oldest hold, hphase, hkey, hu, hreach, hw, Bool.or_self,
    Bool.false_eq_true, ne_eq, not_true_eq_false, if_false, if_true]

/-- Settles O57: a row that fits, an apply that is taken or refused, a quiet region; a retirement that nothing refuses, and each
step of its cells; a write at its unit. That a region takes the rows captured at MAPAPPLY is assumption log 79. -/
theorem interleaveAndRetirement : Obligations.InterleaveAndRetirement := by
  unfold Obligations.InterleaveAndRetirement
  intro r row data v c u n a b t m q
  refine ⟨?stageA, ?stageB, ?apply, ?singular, ?mapSwitch, ?retire, ?start, ?copy, ?cellSwitch, ?unit⟩
  case stageA =>
    rintro s hp ⟨hr, hrow, hd⟩
    change execMapStageA r row data s = _
    rw [execMapStageA, event_next hp, mapStage_fits hr hrow hd]
    rfl
  case stageB =>
    rintro s hp ⟨hr, hrow, hd⟩
    change execMapStageB r row data s = _
    rw [execMapStageB, event_next hp, mapStage_fits hr hrow hd]
    rfl
  case apply =>
    rintro s hp ⟨hr, ht, hi⟩
    change execMapApply r s = _
    rw [execMapApply, event_next hp, mapApply_invertible hr ht hi]
  case singular =>
    rintro s hp ⟨hr, ht, hi⟩
    change execMapApply r s = _
    rw [execMapApply, event_next hp, mapApply_singular hr ht hi]
  case mapSwitch => exact fun s hp ⟨ha, hq⟩ => exec_mapApplySwitch_quiet hp ha hq
  case retire =>
    intro s hp h
    change execRetireStack v s = _
    rw [execRetireStack, event_next hp, retireWrite_accepted h]
  case start => exact fun s hp ⟨ht, hn, hc⟩ => exec_retireCellStart_first hp ht hn hc
  case copy => exact fun s hp ⟨ht, hc, hst, hsw, hm, hu⟩ => exec_retireRowCopy_bare hp ht hc hst hsw hm hu
  case cellSwitch => exact fun s hp ⟨ht, hc, hst, hsw, hm, hl⟩ => exec_retireCellSwitch_notLast hp ht hc hst hsw hm hl
  case unit =>
    exact fun s hp ⟨hq, hstall, hold, hphase, hkey, hu, hreach, hw⟩ =>
      exec_unitRequest_write hp hq hstall hold hphase hkey hu hreach hw

end Sys2Proof.Machine
end

section
/-! SUPPORT. The page moves of the Caravan engines and the counters that ask for them (R326, R328, R336 to R338). -/
namespace Sys2Proof.Machine

section
variable {s : State} {g : Nat} {m : Move}

/-! ### Moves (R337) -/

/-- R337: the first ask that still stands gets the free frame that fits it. -/
theorem exec_caravanMoveStart_frame {i f : Nat} {a : MoveAsk} {as : List MoveAsk} (hp : s.power = true)
    (hm : (s.caravan g).move = none) (ha : (s.caravan g).asks = a :: as) (hup : s.caravanUp g = true)
    (hmv : (nbit (s.entryAt a.leafPa) 0 && nbit (s.entryAt a.leafPa) 1 && nbit (s.entryAt a.leafPa) 8) = false)
    (hask : askOk g (s.entryAt a.leafPa) a.claim.isSome = true)
    (hfree : s.freeEntry g (s.entryAt a.leafPa) a.claim.isSome = some (i, f)) :
    exec (.caravanMoveStart g) s = .next (s.moveBegin g a (s.entryAt a.leafPa) i f) := by
  change execCaravanMoveStart g s = _
  simp only [execCaravanMoveStart, event_next hp, hm, ha, hup, hmv, hask, hfree, Bool.not_true, Bool.false_eq_true, if_false]
/-- R337: the next line of a page whose old translations are gone is copied. -/
theorem exec_caravanPageCopy_line {w : Nat} {s1 : State} (hp : s.power = true) (hm : (s.caravan g).move = some m)
    (hup : s.caravanUp g = true) (hph : m.phase = 1) (hn : 128 * m.next < m.size)
    (hold : s.spaceOf (65536 * nfld m.oldLeaf 16 32 + 128 * m.next) ≠ none) (hnew : s.spaceOf (m.frame + 128 * m.next) ≠ none)
    (hc : s.copyLine g (65536 * nfld m.oldLeaf 16 32 / 128 + m.next) (m.frame / 128 + m.next) = some (w, s1)) :
    exec (.caravanPageCopy g) s =
      .next (s1.modCaravan g fun x => { x with move := some { m with next := m.next + 1, w := max m.w w } }) := by
  change execCaravanPageCopy g s = _
  simp only [execCaravanPageCopy, event_next hp, hm, hup, hph, hn, hold, hnew, hc, Bool.not_true, Bool.false_eq_true,
    Nat.one_ne_zero, or_self, and_self, if_false, if_true]
/-- R328: a line of the old page or of the new frame that does not exist ends the move. -/
theorem exec_caravanPageCopy_missing (hp : s.power = true) (hm : (s.caravan g).move = some m)
    (hup : s.caravanUp g = true) (hph : m.phase = 1) (hn : 128 * m.next < m.size)
    (hmiss : s.spaceOf (65536 * nfld m.oldLeaf 16 32 + 128 * m.next) = none ∨ s.spaceOf (m.frame + 128 * m.next) = none) :
    exec (.caravanPageCopy g) s = .next (s.movePhys g m) := by
  change execCaravanPageCopy g s = _
  simp only [execCaravanPageCopy, event_next hp, hm, hup, hph, hn, hmiss, Bool.not_true, Bool.false_eq_true, Nat.one_ne_zero,
    and_self, if_false, if_true]
/-- R337: once the copy of the last line is visible, the leaf takes the new frame. -/
theorem exec_caravanMoveEnd_leaf (hp : s.power = true) (hm : (s.caravan g).move = some m) (hup : s.caravanUp g = true)
    (hw : m.w + 2 < s.gt) (hph : m.phase = 1) (hn : m.size ≤ 128 * m.next) :
    exec (.caravanMoveEnd g) s =
      .next ((s.putLeaf m.oldLeaf m.leafPa (withFrame m.oldLeaf m.frame)).2.modCaravan g fun x =>
        { x with move := some { m with phase := 2, w := (s.putLeaf m.oldLeaf m.leafPa (withFrame m.oldLeaf m.frame)).1 } }) := by
  change execCaravanMoveEnd g s = _
  simp only [execCaravanMoveEnd, event_next hp, hm, hup, Nat.not_le.mpr hw, hph, hn, Bool.not_true, Bool.false_eq_true, or_self, and_self,
    if_false, if_true]

/-! ### Counters (R338) -/

/-- R338: when its epoch is over, a far-tier engine looks at the counter of each frame that it has charge of. -/
theorem exec_caravanEpochEnd_due (hp : s.power = true) (hg : g = 4 ∨ g = 5)
    (hdue : (s.caravan g).epochAt + 1000 * (s.caravan g).epoch ≤ s.gt) (hbase : (s.caravan g).ctrBase ≠ 0) :
    exec (.caravanEpochEnd g) s =
      .next ((List.range (s.farFrames / 2)).foldl (fun t i => t.epochFrame g (2 * i + (g - 4)))
        (s.modCaravan g fun x => { x with epochAt := s.gt })) := by
  have hnot : ¬ (g ≠ 4 ∧ g ≠ 5 ∨ s.gt < (s.caravan g).epochAt + 1000 * (s.caravan g).epoch) := by omega
  change execCaravanEpochEnd g s = _
  simp only [execCaravanEpochEnd, event_next hp, hnot, hbase, if_false]
/-- R338: the oldest count that waits is handed on. -/
theorem exec_pageCountForward_first {f : Nat} {fs : List Nat} (hp : s.power = true) (hf : (s.caravan g).fwd = f :: fs) :
    exec (.pageCountForward g) s = .next ((s.modCaravan g fun x => { x with fwd := fs }).countFrame f) := by
  change execPageCountForward g s = _
  simp only [execPageCountForward, event_next hp, hf]

end

/-- Settles O58: a move that finds its frame, the next line of its copy or an address that does not exist, and its end; FREETAIL;
the end of an epoch and a count handed on. What becomes of a move that fails is assumption log 138. -/
theorem pageMoves : Obligations.PageMoves := by
  unfold Obligations.PageMoves
  intro g i f v w a as m fs s1
  refine ⟨?start, ?copy, ?missing, ?finish, ?freetail, ?epoch, ?forward⟩
  case start => exact fun s hp ⟨hm, ha, hup, hmv, hask, hfree⟩ => exec_caravanMoveStart_frame hp hm ha hup hmv hask hfree
  case copy => exact fun s hp ⟨hm, hup, hph, hn, hold, hnew, hc⟩ => exec_caravanPageCopy_line hp hm hup hph hn hold hnew hc
  case missing => exact fun s hp ⟨hm, hup, hph, hn, hmiss⟩ => exec_caravanPageCopy_missing hp hm hup hph hn hmiss
  case finish => exact fun s hp ⟨hm, hup, hw, hph, hn⟩ => exec_caravanMoveEnd_leaf hp hm hup hw hph hn
  case freetail =>
    intro s hp _
    change execCaravanFreetailWrite g v s = _
    rw [execCaravanFreetailWrite, event_next hp, State.freetail]
  case epoch => exact fun s hp ⟨hg, hdue, hbase⟩ => exec_caravanEpochEnd_due hp hg hdue hbase
  case forward => exact fun s hp hf => exec_pageCountForward_first hp hf

end Sys2Proof.Machine
end

section
/-! SUPPORT. The return from a handler, and the kicks of a context (R111, R360 to R362, R374, R445). -/
namespace Sys2Proof.Machine

/-! ### The return from a handler (R111, R374) -/

/-- The group's record once HRET has returned to the position of its trap bank, which lies in the clause of header `w` (R374). -/
def GI.returned (e : GI) (s : State) (w : Nat) : Group :=
  { e.g with
    regs := { e.g.regs with mode := e.bank.mode }
    tags := []
    lastIssue := s.gtOf e.g.core
    ctl := { e.g.ctl with
      level := e.bank.plev, pos := Pos.ofWord e.bank.resume.toNat, seta := nfld w 10 4, setb := nfld w 6 4, len := nfld w 0 6 } }
/-- R374: HRET returns wherever the handler's Long instructions are complete, and the bank names a position that lies in a clause. -/
theorem hret_returns {s : State} {e : GI} {w : Nat} (hg : tget s.groups e.gid = some e.g) (hflags : e.g.flagsClear = true)
    (hfetch : e.fetch s e.bank.plev (Pos.ofWord e.bank.resume.toNat).h = .word w) (hheader : isHeader w = true)
    (hinside : (Pos.ofWord e.bank.resume.toNat).k ≤ nfld w 0 6) (hredo : e.g.redo = none) :
    e.hret s = .stay (s.putGroup e.gid (e.returned s w)) := by
  have hok : (!isHeader w || decide (nfld w 0 6 < (Pos.ofWord e.bank.resume.toNat).k)) = false := by
    rw [hheader, decide_eq_false (Nat.not_lt.mpr hinside)]
    rfl
  simp only [GI.hret, hflags, hfetch, hok, Bool.not_true, Bool.false_eq_true, if_false, modGroup_eq _ _ _ _ hg, hredo, GI.returned]

/-- Settles O30: HRET's work leaves the group at the position that its bank names, and the issue adds nothing to it. -/
theorem hretReturns : Obligations.HretReturns := by
  unfold Obligations.HretReturns
  rintro w s e h ⟨hfetch, hheader, hinside, hredo, hflags⟩
  exact issue_stays h (hret_returns h.group hflags hfetch hheader hinside hredo)

/-! ### Kicks (R360 to R362, R445) -/

/-- An event happens where what it works on the state comes to the next state named. -/
theorem happens_of_event {ev : Instr} {p : State → Prop} {f t : State → State} (hx : ∀ s, exec ev s = s.event f)
    (h : ∀ s, p s → f s = t s) : Happens ev p t := by
  intro s hp hs
  rw [hx, event_next hp, h s hs]

section
variable {s : State} {c : Nat}

/-- R360, R445: a kick that the module serves has its own effect. -/
theorem kicked_served (h : s.serves c) (f : State → State) : s.kicked c f = f s := by
  obtain ⟨hctx, hlevel⟩ := h
  refine if_neg fun hdrop => ?_
  cases hdrop with
  | inl hnone => rw [Option.isNone_iff_eq_none.mp hnone] at hctx; cases hctx
  | inr hzero => exact hlevel hzero
/-- R361: a context's kick queue has 64 entries. -/
theorem kickReplay_queued (h : s.serves c) (hroom : (s.run c).kicks.length < 64) (handle arg : Nat) :
    s.kickReplay c handle arg = s.modRun c fun r => { r with kicks := r.kicks ++ [(handle, arg)] } :=
  (kicked_served h _).trans (if_neg (Nat.not_le.mpr hroom))
theorem kickReplay_full (h : s.serves c) (hfull : 64 ≤ (s.run c).kicks.length) (handle arg : Nat) :
    s.kickReplay c handle arg = s.kickDrop c :=
  (kicked_served h _).trans (if_pos hfull)
/-- R360, R445: a word that breaks R360 is discarded, and at service level 0 every word is. -/
theorem exec_kickDiscard_drops {v : Nat} (hp : s.power = true) (h : kickBad v = true ∨ s.mgmt.level = 0) :
    exec (.kickDiscard c v) s = .next (s.kickDrop c) := by
  have hdrop : (kickBad v || s.mgmt.level == 0) = true := by simpa using h
  change execKickDiscard c v s = _
  rw [execKickDiscard, event_next hp, if_pos hdrop]
/-- R360: KICKDROP of an enabled context counts the discarded kick, in the device and in the context's descriptor. -/
theorem kickDrop_enabled {x : Ctx} (h : tget s.ctxs c = some x) :
    s.kickDrop c =
      (s.modCtx c fun y => { y with kickDrop := (x.kickDrop + 1) % 2 ^ 32 }).descPut c 0x6C ((x.kickDrop + 1) % 2 ^ 32) := by
  simp only [State.kickDrop, h]
/-- The device counts for a context that is not enabled (log 136). -/
theorem kickDrop_absent (h : tget s.ctxs c = none) :
    s.kickDrop c = s.modRun c fun r => { r with dropped := (r.dropped + 1) % 2 ^ 32 } := by
  simp only [State.kickDrop, h]

end

/-- Settles O51: a kick that is served has its own effect; the others are counted as the context's state says. -/
theorem kicksOfContexts : Obligations.KicksOfContexts := by
  unfold Obligations.KicksOfContexts
  intro c h a q v dl
  refine ⟨?queued, ?full, ?resolve, ?tick, ?suspend, ?resume, ?bad, ?level, ?enabled, ?absent⟩
  case queued => exact happens_of_event (fun _ => rfl) fun s ⟨hs, hroom⟩ => kickReplay_queued hs hroom h a
  case full => exact happens_of_event (fun _ => rfl) fun s ⟨hs, hfull⟩ => kickReplay_full hs hfull h a
  case resolve => exact happens_of_event (fun _ => rfl) fun s hs => kicked_served hs _
  case tick => exact happens_of_event (fun _ => rfl) fun s hs => kicked_served hs _
  case suspend => exact happens_of_event (fun _ => rfl) fun s hs => kicked_served hs _
  case resume => exact happens_of_event (fun _ => rfl) fun s hs => kicked_served hs _
  case bad => exact fun s hp hbad => exec_kickDiscard_drops hp (.inl hbad)
  case level => exact fun s hp hzero => exec_kickDiscard_drops hp (.inr hzero)
  case enabled => exact fun s x hx => kickDrop_enabled hx
  case absent => exact fun s hx => kickDrop_absent hx

end Sys2Proof.Machine
end

section
/-! SUPPORT. Replays and their nodes: how a replay begins, what each kind of node does as it starts, and how a node ends
(R353 to R361, R420). -/
namespace Sys2Proof.Machine

section
variable {s s1 s2 : State} {c n : Nat} {x : Node} {r : Replay}

/-! ### The start of a replay and of its nodes (R353 to R361) -/

/-- R359, R361: the oldest queued replay of a context that replays nothing begins, where its graph object is well-formed. -/
theorem exec_replayBegin_goes {h a : Nat} {rest : List (Nat × Nat)} (hp : s.power = true) (hctx : (tget s.ctxs c).isSome = true)
    (hidle : (s.run c).replay = none) (hkick : (s.run c).kicks = (h, a) :: rest) (hheld : s.deviceHeld c replayBase = false)
    (hgo : s.beginReplay c h a = .go r s1) :
    exec (.replayBegin c) s = .next (s1.modRun c fun y => { y with kicks := rest, replay := some r }) := by
  obtain ⟨k, hk⟩ := Option.isSome_iff_exists.mp hctx
  change execReplayBegin c s = _
  simp only [execReplayBegin, event_next hp, hk, hidle, hkick, hheld, hgo, Bool.false_eq_true, if_false]
/-- R355: a launch node that starts hands its launch on. -/
theorem submitNode_submits {kind : Nat} (hx : s.starts c n kind = some x) (background : Bool) :
    s.submitNode c n kind background = s.submits c n x background := by
  simp only [State.submitNode, hx]
  rfl
/-- R355: a copy node that starts hands its requests to the engine of its die. -/
theorem exec_nodeCopy_starts (hp : s.power = true) (hx : s.starts c n 2 = some x) :
    exec (.nodeCopy c n) s = .next ((List.range x.y).foldl (fun t i => t.addCopyReq
      (Copy.queued (nodeEngine (x.z % 4)) 0 0 (some (c, n)) CopyReq.blank (vaOf (x.x + 64 * i)) t.gt)) (s.runNode c n 0)) := by
  change execNodeCopy c n s = _
  simp only [execNodeCopy, event_next hp, hx]

/-! ### Draw nodes (R355, R420) -/

/-- R420: a draw node that starts reads its descriptor. -/
theorem exec_nodeDraw_reads {b : List Byte} (hp : s.power = true) (hx : s.starts c n 3 = some x) (hfaults : s.work.faults = [])
    (hread : s.devRead (x.z % 4) c (vaOf x.x) 64 = (.ok b, s1)) :
    exec (.nodeDraw c n) s = .next ((s1.runNode c n 0).modNode c n fun y => { y with desc := b }) := by
  change execNodeDraw c n s = _
  simp only [execNodeDraw, event_next hp, hfaults, List.any_nil, hx, hread, Bool.false_eq_true, if_false]
/-- R420: a draw node that has its descriptor queues its draw where the rasteriser has room. -/
theorem exec_nodeDraw_queues {d : Draw} (hp : s.power = true) (hx : s.starts c n 3 = none) (hfaults : s.work.faults = [])
    (hr : (s.run c).replay = some r) (hn : r.nodes[n]? = some x) (hkind : x.kind = 3) (hst : x.st = .run) (hdesc : x.desc ≠ [])
    (hgood : s.fresh.2.checkDraw (x.z % 4) (drawOf x.desc c (vaOf x.x) 0 s.nextId (some n) none false) = (.good d, s1))
    (hroom : s1.queueDraw (x.z % 4) (x.y % 4) (nbit x.y 2) d = some s2) :
    exec (.nodeDraw c n) s = .next (s2.modNode c n fun y => { y with desc := [] }) := by
  have hid : s.fresh.1 = s.nextId := rfl
  change execNodeDraw c n s = _
  simp only [execNodeDraw, event_next hp, hfaults, List.any_nil, hx, hr, Option.bind_some, hn, hkind, hst, hdesc, hid, hgood, hroom,
    ne_eq, not_true_eq_false, or_self, Bool.false_eq_true, if_false]

/-! ### Signals and waits (R223, R355) -/

/-- R223, R355: a signal node adds once the writes of every node before it are visible, and is then done. -/
theorem exec_nodeSignal_adds {w : Nat} (hp : s.power = true) (hx : s.starts c n 4 = some x) (hr : (s.run c).replay = some r)
    (hheld : s.deviceHeld c (replayBase + 1 + n) = false) (hvisible : ∀ p ∈ r.preds n, p.at_ + 2 < s.gt)
    (hadd : s.devAdd 0 c (vaOf x.x) x.y = (.ok w, s1)) (htick : x.tick = false) :
    exec (.nodeSignal c n) s = .next ((s1.runNode c n 0).nodeDone c n) := by
  have hnone : ((r.preds n).any fun p => decide (s.gt ≤ p.at_ + 2)) = false := by simpa using hvisible
  change execNodeSignal c n s = _
  simp only [execNodeSignal, event_next hp, hx, hr, hheld, hnone, hadd, htick, Bool.or_self, Bool.false_eq_true, if_false]
/-- R355: a wait node that starts reads its word from now on. -/
theorem exec_nodeWait_starts (hp : s.power = true) (hx : s.starts c n 5 = some x) :
    exec (.nodeWait c n) s = .next (s.runNode c n s.gt) := by
  change execNodeWait c n s = _
  simp only [execNodeWait, event_next hp, hx]
/-- R355: a wait node's read is an acquire that ends the wait where the word has reached its value, and is made again 256 ns
later where it has not. -/
theorem exec_waitNodePoll_reads {b : List Byte} (hp : s.power = true) (hr : (s.run c).replay = some r) (hn : r.nodes[n]? = some x)
    (hkind : x.kind = 5) (hst : x.st = .run) (hdue : x.at_ ≤ s.gt) (hheld : s.deviceHeld c (replayBase + 1 + n) = false)
    (hread : s.devRead 0 c (vaOf x.x) 8 = (.ok b, s1)) :
    exec (.waitNodePoll c n) s =
      .next (if x.y ≤ ofBytes b then s1.acquireAll.nodeDone c n else s1.runNode c n (s.gt + 256)) := by
  change execWaitNodePoll c n s = _
  simp only [execWaitNodePoll, event_next hp, hr, hn, hkind, hst, Nat.not_lt.mpr hdue, hheld, hread, ne_eq, not_true_eq_false,
    Bool.false_eq_true, or_self, if_false]

/-! ### Completion (R355, R356) -/

/-- R355, R356: a node that is done completes, with its message, while another node of its replay has not completed. -/
theorem exec_nodeComplete_inner (hp : s.power = true) (hr : (s.run c).replay = some r) (hn : r.nodes[n]? = some x) (hst : x.st = .done)
    (hkind : x.kind ≠ 4) (hgoes : r.stopped = false) (hmore : ¬ ∀ y ∈ r.nodes.zipIdx, y.2 = n ∨ y.1.st = .complete) :
    exec (.nodeComplete c n) s = .next ((s.modNode c n fun y => { y with st := .complete }).nodeMsi x) := by
  have hinner : (r.nodes.zipIdx.all fun y => y.2 == n || y.1.st == .complete) = false := by
    simpa only [Bool.eq_false_iff, ne_eq, List.all_eq_true, Bool.or_eq_true, beq_iff_eq] using hmore
  change execNodeComplete c n s = _
  simp only [execNodeComplete, event_next hp, hr, hn, hst, hkind, hgoes, hinner, false_and, Bool.not_false, Bool.false_eq_true, if_false,
    if_true]

end

/-- Settles O52: a replay begins; each kind of node starts, a draw node in two steps; a wait node's read; a node that is not the
last completes. -/
theorem graphNodesRun : Obligations.GraphNodesRun := by
  unfold Obligations.GraphNodesRun
  intro c n h a w rest r x d b s1 s2
  refine ⟨?begin, ?launch, ?background, ?copy, ?drawReads, ?drawQueues, ?signal, ?wait, ?poll, ?complete⟩
  case begin =>
    rintro s hp ⟨hctx, hidle, hkick, hheld, hgo⟩
    exact exec_replayBegin_goes hp hctx hidle hkick hheld hgo
  case launch => exact happens_of_event (fun _ => rfl) fun s hx => submitNode_submits hx false
  case background => exact happens_of_event (fun _ => rfl) fun s hx => submitNode_submits hx true
  case copy => exact fun s hp hx => exec_nodeCopy_starts hp hx
  case drawReads =>
    rintro s hp ⟨hx, hfaults, hread⟩
    exact exec_nodeDraw_reads hp hx hfaults hread
  case drawQueues =>
    rintro s hp ⟨hx, hfaults, hr, hn, hkind, hst, hdesc, hgood, hroom⟩
    exact exec_nodeDraw_queues hp hx hfaults hr hn hkind hst hdesc hgood hroom
  case signal =>
    rintro s hp ⟨hx, hr, hheld, hvisible, hadd, htick⟩
    exact exec_nodeSignal_adds hp hx hr hheld hvisible hadd htick
  case wait => exact fun s hp hx => exec_nodeWait_starts hp hx
  case poll =>
    rintro s hp ⟨hr, hn, hkind, hst, hdue, hheld, hread⟩
    exact exec_waitNodePoll_reads hp hr hn hkind hst hdue hheld hread
  case complete =>
    rintro s hp ⟨hr, hn, hst, hkind, hgoes, hmore⟩
    exact exec_nodeComplete_inner hp hr hn hst hkind hgoes hmore

end Sys2Proof.Machine
end

section
/-! SUPPORT. The machine without power, and the retention register that PIN takes (R455, R457). -/
namespace Sys2Proof.Machine

/-! ### Without power (R455) -/

theorem event_noPower {s : State} (h : s.power = false) (f : State → State) : s.event f = .fault .noPower := by
  simp [State.event, h]
theorem issue_noPower {s : State} (h : s.power = false) (i : Instr) (f : GI → State → Fx) (p : SI → State → SFx) :
    s.issue i f p = .fault .noPower := by
  simp [State.issue, h]
/-- Everything without words but POWER_ON is an event of the device. -/
theorem exec_event (i : Instr) (h : encode i = []) (hi : i ≠ .powerOn) : ∃ f, ∀ s, exec i s = s.event f := by
  cases i
  case powerOn => exact absurd rfl hi
  all_goals first
    | exact absurd h (List.cons_ne_nil _ _)
    | exact ⟨_, fun _ => rfl⟩
/-- R455: without power every instruction and every event but POWER_ON is the fault noPower (assumption log 97). -/
theorem exec_noPower {s : State} {i : Instr} (hp : s.power = false) (hi : i ≠ .powerOn) : exec i s = .fault .noPower := by
  by_cases hw : encode i = []
  · obtain ⟨f, hf⟩ := exec_event i hw hi
    rw [hf, event_noPower hp]
  · obtain ⟨f, p, hx⟩ := exec_issue i hw
    rw [hx, issue_noPower hp]
theorem step_noPower {s : State} (hp : s.power = false) (ha : s.agenda.head? ≠ some (.event .powerOn)) :
    step s = .fault .noPower :=
  if_pos (by simpa [hp] using ha)

/-- Settles O5: an instruction needs power to issue and an event to happen, and a step looks at power before it chooses a turn. -/
theorem nothingRunsWithoutPower : Obligations.NothingRunsWithoutPower := by
  unfold Obligations.NothingRunsWithoutPower
  exact fun s i hp hi => ⟨exec_noPower hp hi, step_noPower hp⟩

/-! ### PIN (R457) -/

/-- The number that `findN` finds is the least that passes. -/
theorem findN_eq_some_iff {n i : Nat} {p : Nat → Bool} :
    findN n p = some i ↔ i < n ∧ p i = true ∧ ∀ j < i, p j = false := by
  unfold findN
  rw [List.find?_range_eq_some]
  simp [and_left_comm]
/-- R457: PIN grants a register only with status 0, and then the first that is free. -/
theorem pinStatus_grants {s : State} {d ctx i : Nat} {b : List Byte} (h : (s.pinStatus d ctx b).2 = some i) :
    s.pinStatus d ctx b = (0, some i) ∧ findN 4 (fun k => !((s.die d).retain.getD k Retain.reset).valid) = some i := by
  unfold State.pinStatus at h ⊢
  dsimp only at h ⊢
  split_ifs at h ⊢
  case pos => split at h <;> cases h
  case neg =>
    split at h
    · cases h
    next hfree =>
      obtain rfl := Option.some.inj h
      rw [hfree]
      exact ⟨rfl, rfl⟩
/-- R457: the handle in the value of a PIN that is granted is its register's number. -/
theorem pinDone_grants {s : State} {op : Op} {ctx d i : Nat}
    (h : s.pinStatus (coreDie op.core) ctx (op.misc.map fun n => BitVec.ofNat 8 n) = (0, some i)) :
    (s.pinDone op ctx d).1 = .uni d (BitVec.ofNat 64 (256 * i)) := by
  simp only [State.pinDone, h, Nat.zero_add]

/-- Settles O13: a grant names the first free register, which is the handle in PIN's value. -/
theorem pinTakesLowestRegister : Obligations.PinTakesLowestRegister := by
  unfold Obligations.PinTakesLowestRegister
  intro s op ctx d i h
  obtain ⟨hstatus, hfirst⟩ := pinStatus_grants h
  obtain ⟨hlt, hfree, hbelow⟩ := findN_eq_some_iff.mp hfirst
  exact ⟨hlt, by simpa using hfree, fun j hj => by simpa using hbelow j hj, pinDone_grants hstatus⟩

end Sys2Proof.Machine
end

section
/-! SUPPORT. Flits and routes, and the steps of a die's warm reset (R385, R386, R407 to R409). -/
namespace Sys2Proof.Machine

section
variable {s : State} {n a b d : Nat} {l : Link} {f : Nat × List Byte} {fs : List (Nat × List Byte)}

/-! ### Links (R385, R386) -/

theorem lmod_eq_of_getElem? {α : Type} {l : List α} {n : Nat} {x : α} (h : l[n]? = some x) (f : α → α) :
    lmod l n f = lmod l n fun _ => f x := by
  induction l generalizing n with
  | nil => rfl
  | cons y r ih =>
    cases n with
    | zero =>
      obtain rfl : y = x := by simpa using h
      rfl
    | succ n => exact congrArg (y :: ·) (ih (by simpa using h))
/-- A changed record of a link that exists is that record put in its place. -/
theorem modLink_eq (h : s.links[n]? = some l) (f : Link → Link) : s.modLink n f = s.modLink n fun _ => f l := by
  rw [State.modLink, State.modLink, lmod_eq_of_getElem? h]
/-- R385: the oldest flit of a link that is up has passed its CRC. -/
theorem exec_linkFlitReceive_passed (hp : s.power = true) (hl : s.links[n]? = some l) (hup : l.up = true) (hb : l.buffer = f :: fs) :
    exec (.linkFlitReceive n true) s =
      .next (s.modLink n fun _ => { l with buffer := fs, expect := l.expect + 1, fails := 0, sentAt := s.gt }) := by
  change execLinkFlitReceive n true s = _
  simp only [execLinkFlitReceive, event_next hp, hl, hup, hb, List.isEmpty_cons, Bool.not_true, Bool.false_eq_true, if_false, if_true,
    modLink_eq hl, List.tail_cons]
/-- R385: a flit that fails its CRC is sent again, with the one that the sender has sent behind it (assumption log 90). -/
theorem exec_linkFlitReceive_failed {k : Link} (hp : s.power = true) (hl : s.links[n]? = some l) (hup : l.up = true)
    (hb : l.buffer = f :: fs) (hk : (s.sendFlit n).links[n]? = some k) :
    exec (.linkFlitReceive n false) s = .next ((s.sendFlit n).resend n k) := by
  change execLinkFlitReceive n false s = _
  simp only [execLinkFlitReceive, event_next hp, hl, hup, hb, hk, List.isEmpty_cons, Bool.not_true, Bool.false_eq_true, if_false]
/-- R385: what a link's buffer holds is sent again once nothing has acknowledged it for 1 µs. -/
theorem exec_linkRetryTimeout_due (hp : s.power = true) (hl : s.links[n]? = some l) (hup : l.up = true) (hb : l.buffer ≠ [])
    (hdue : l.sentAt + 1000 ≤ s.gt) : exec (.linkRetryTimeout n) s = .next (s.resend n l) := by
  have hsend : (l.up && !l.buffer.isEmpty && decide (l.sentAt + 1000 ≤ s.gt)) = true := by simp [hup, hb, hdue]
  change execLinkRetryTimeout n s = _
  simp only [execLinkRetryTimeout, event_next hp, hl, hsend, if_true]
/-- R386: traffic leaves a fixed route that is down, where the other is up and no request is under way. -/
theorem exec_routeSwitch_detours (hp : s.power = true) (hab : a ≠ b) (hbusy : s.routeBusy a b = false) (hdet : s.detour a b = false)
    (hdown : s.pathUp a (hops a b false) = false) (hup : s.pathUp a (hops a b true) = true) :
    exec (.routeSwitch a b) s = .next { s with routes := tput s.routes (a * 8 + b) 1 } := by
  have hne : (a == b) = false := beq_false_of_ne hab
  change execRouteSwitch a b s = _
  simp only [execRouteSwitch, event_next hp, hne, hbusy, hdet, hdown, hup, Bool.not_true, Bool.not_false, Bool.and_false, Bool.or_self,
    Bool.false_eq_true, if_false]

/-! ### Warm resets (R407 to R409) -/

/-- R407: a die that is up may be asked for a warm reset. -/
theorem warmRequest_starts (hd : d < 4) (hst : (s.die d).state = 0) (hfree : s.resetFree d = true) : s.warmRequest d = s.warmStart d := by
  simp only [State.warmRequest, Nat.not_le.mpr hd, hst, hfree, ne_eq, not_true_eq_false, false_and, or_self, if_false, if_true]
/-- R407: a request that finds a retirement copying, or another die not up, is held. -/
theorem warmRequest_held (hd : d < 4) (hst : (s.die d).state = 0) (hfree : s.resetFree d = false) :
    s.warmRequest d = s.modDie d fun x => { x with pending := true } := by
  simp only [State.warmRequest, Nat.not_le.mpr hd, hst, hfree, ne_eq, not_true_eq_false, false_and, or_self, Bool.false_eq_true, if_false]
theorem exec_warmResetStart_held (hp : s.power = true) (hpend : (s.die d).pending = true) (hfree : s.resetFree d = true) :
    exec (.warmResetStart d) s = .next (s.warmStart d) := by
  change execWarmResetStart d s = _
  simp only [execWarmResetStart, event_next hp, hpend, hfree, Bool.and_self, if_true]
/-- R408: step 2 ends once the die is idle. -/
theorem exec_warmResetQuiesce_idle (hp : s.power = true) (hst : (s.die d).state = 1) (hidle : s.dieIdle d = true) :
    exec (.warmResetQuiesce d) s = .next (s.modDie d fun x => { x with state := 2, quiesced := s.gtAt d }) := by
  change execWarmResetQuiesce d s = _
  simp only [execWarmResetQuiesce, event_next hp, hst, hidle, if_true]
/-- R408: steps 3 and 4 once the die's requests have completed. -/
theorem exec_warmResetQuiesce_flushes (hp : s.power = true) (hst : (s.die d).state = 2) (hwait : s.dieWaits d = false)
    (hidle : s.dieIdle d = true) :
    exec (.warmResetQuiesce d) s =
      .next ((neighbours d).foldl (fun t n => t.linkDown d n) ((s.flushDie d).modDie d fun x => { x with state := 3 })) := by
  change execWarmResetQuiesce d s = _
  simp only [execWarmResetQuiesce, event_next hp, hst, hwait, hidle, Bool.not_true, Bool.or_self, Bool.false_eq_true, if_false]
theorem exec_warmResetRetrain_begins (hp : s.power = true) (hst : (s.die d).state = 3) :
    exec (.warmResetRetrain d) s = .next (s.modDie d fun x => { x with state := 4 }) := by
  change execWarmResetRetrain d s = _
  simp only [execWarmResetRetrain, event_next hp, hst]
/-- R408: the links are up again, and the die's GT is its neighbour's, or its own where that is later (assumption log 10). -/
theorem exec_warmResetRetrain_ends (hp : s.power = true) (hst : (s.die d).state = 4) :
    exec (.warmResetRetrain d) s =
      .next ((neighbours d).foldl (fun t n => t.setLink d n true)
        ({ s with skew := s.skew.set d (max (s.skew.getD d 0) (s.skew.getD (d ^^^ 1) 0)) }.modDie d fun x => { x with state := 5 })) := by
  change execWarmResetRetrain d s = _
  simp only [execWarmResetRetrain, event_next hp, hst]
/-- R408: homes reopen once no lease of the old summaries is valid. -/
theorem exec_warmResetAdmit_due (hp : s.power = true) (hst : (s.die d).state = 5)
    (hdue : (s.die d).quiesced + s.pkg.leaseRo + 2 < s.gtAt d) :
    exec (.warmResetAdmit d) s = .next (s.modDie d fun x => { x with state := 0 }) := by
  change execWarmResetAdmit d s = _
  simp only [execWarmResetAdmit, event_next hp, hst, hdue, and_self, if_true]

end

/-- Settles O55: a flit that passes, fails or is not acknowledged, a route whose other path is up, and each step of a warm reset
from the STATE that comes before it. Flits are free values (log 90); the reset die's GT is assumption log 10. -/
theorem linksAndWarmReset : Obligations.LinksAndWarmReset := by
  unfold Obligations.LinksAndWarmReset
  intro n a b d l k f fs
  refine ⟨?passed, ?failed, ?timeout, ?route, ?request, ?held, ?start, ?idle, ?flush, ?retrain, ?retrained, ?reopen⟩
  case passed => exact fun s hp ⟨hl, hup, hb⟩ => exec_linkFlitReceive_passed hp hl hup hb
  case failed => exact fun s hp ⟨hl, hup, hb, hk⟩ => exec_linkFlitReceive_failed hp hl hup hb hk
  case timeout => exact fun s hp ⟨hl, hup, hb, hdue⟩ => exec_linkRetryTimeout_due hp hl hup hb hdue
  case route => exact fun s hp ⟨hab, hbusy, hdet, hdown, hup⟩ => exec_routeSwitch_detours hp hab hbusy hdet hdown hup
  case request => exact happens_of_event (fun _ => rfl) fun s ⟨hd, hst, hfree⟩ => warmRequest_starts hd hst hfree
  case held => exact happens_of_event (fun _ => rfl) fun s ⟨hd, hst, hfree⟩ => warmRequest_held hd hst hfree
  case start => exact fun s hp ⟨hpend, hfree⟩ => exec_warmResetStart_held hp hpend hfree
  case idle => exact fun s hp ⟨hst, hidle⟩ => exec_warmResetQuiesce_idle hp hst hidle
  case flush => exact fun s hp ⟨hst, hwait, hidle⟩ => exec_warmResetQuiesce_flushes hp hst hwait hidle
  case retrain => exact fun s hp hst => exec_warmResetRetrain_begins hp hst
  case retrained => exact fun s hp hst => exec_warmResetRetrain_ends hp hst
  case reopen => exact fun s hp ⟨hst, hdue⟩ => exec_warmResetAdmit_due hp hst hdue

end Sys2Proof.Machine
end

section
/-! SUPPORT. Barchan's windows, publications and tables (R395 to R405, R482). -/
namespace Sys2Proof.Machine

section
variable {s : State} {n : Nat} {t : XTable} {p : PubVer}

/-- The state after a version's image is visible: CURVER and XVER have become the new version in one step (R400, R401). -/
def State.xTurned (s : State) (n : Nat) (t : XTable) (p : PubVer) : State :=
  let s1 := s.modTable n fun u => { u with cur := t.nextVer, images := tput u.images t.nextVer p.image }
  let s2 := s1.modBarchan fun b => { b with ver := b.ver.set n t.nextVer }
  ((s2.xPut (s.xBase n + 8) (toBytes 4 t.nextVer)).2).xPublished n p
/-- The state after every table's window end: the next window has begun where none has a version to publish (R399). -/
def State.windowEnded (s : State) : State :=
  let s1 := (List.range 4).foldl (fun a n => a.tableWindow n) s
  if s1.windowing then s1 else s1.modBarchan fun b => { b with windowAt := s1.gt }

/-- R399, R482: a window ends when XWINDOW has passed, no version is on its way, and the last window end's writes are visible. -/
theorem exec_barchanWindowEnd_due (hp : s.power = true) (ht : s.barchan.tables ≠ []) (hpub : s.publishing = false)
    (hdue : s.barchan.windowAt + 1000 * s.barchan.window ≤ s.gt) (hvis : s.barchan.lastW + 2 < s.gt) :
    exec .barchanWindowEnd s = .next s.windowEnded := by
  have hgo : (s.barchan.tables.isEmpty || s.publishing || decide (s.gt < s.barchan.windowAt + 1000 * s.barchan.window) ||
      decide (s.gt ≤ s.barchan.lastW + 2)) = false := by
    simp [ht, hpub, hdue, hvis]
  change execBarchanWindowEnd s = _
  simp only [execBarchanWindowEnd, event_next hp, hgo, Bool.false_eq_true, if_false, State.windowEnded]
/-- R400, R401: a written image that is visible is published. -/
theorem exec_barchanPublish_written (hp : s.power = true) (ht : s.xtab n = some t) (hpub : t.publish = some p) (hvis : p.w + 2 < s.gt)
    (hw : p.written = true) : exec (.barchanPublish n) s = .next (s.xTurned n t p) := by
  change execBarchanPublish n s = _
  simp only [execBarchanPublish, event_next hp, ht, hpub, Nat.not_le.mpr hvis, hw, Bool.not_true, Bool.false_eq_true, if_false,
    State.xTurned]
theorem exec_xtableEnable (hp : s.power = true) (hn : n < 4) : exec (.xtableEnable n) s = .next (s.xEnable n) := by
  change execXtableEnable n s = _
  simp only [execXtableEnable, event_next hp, hn, if_true]
/-- R397, R404: EN shows no table where no header and image hold, and the record says so. -/
theorem xEnable_none (hen : s.barchan.en.getD n false = false) (hf : s.xFind n = none) : s.xEnable n = s.xLog 7 0xFFFF n 0 0 0 := by
  simp only [State.xEnable, hen, hf, Bool.false_eq_true, if_false]
/-- The state once EN bit n is set for the table that was found (R397). -/
def State.xEnabled (s : State) (n : Nat) (t : XTable) : State :=
  ((s.modBarchan fun b =>
    { b with
      windowAt := if b.en.any id then b.windowAt else s.gt
      en := b.en.set n true
      ver := b.ver.set n t.cur
      tables := tput b.tables n t }).xPut (s.xBase n + 0x0C) (toBytes 4 t.cur)).2
theorem xEnable_some (hen : s.barchan.en.getD n false = false) (hf : s.xFind n = some t) : s.xEnable n = s.xEnabled n t := by
  simp only [State.xEnable, hen, hf, Bool.false_eq_true, if_false, State.xEnabled]

end

/-- Settles O56: a window end that is due, an image that is visible, and a table's EN and REFRESH bits. -/
theorem expertTables : Obligations.ExpertTables := by
  unfold Obligations.ExpertTables
  intro n t p
  refine ⟨?window, ?publish, ?enable, ?disable, ?refresh⟩
  case window => exact fun s hp ⟨ht, hpub, hdue, hvis⟩ => exec_barchanWindowEnd_due hp ht hpub hdue hvis
  case publish => exact fun s hp ⟨ht, hpub, hvis, hw⟩ => exec_barchanPublish_written hp ht hpub hvis hw
  case enable =>
    rintro s hp ⟨hn, hen⟩
    rw [exec_xtableEnable hp hn]
    dsimp only
    cases hf : s.xFind n with
    | none => exact congrArg Host.Outcome.next (xEnable_none hen hf)
    | some u => exact congrArg Host.Outcome.next (xEnable_some hen hf)
  case disable => exact happens_of_event (fun _ => rfl) fun s _ => rfl
  case refresh => exact happens_of_event (fun _ => rfl) fun s _ => rfl

end Sys2Proof.Machine
end

section
/-! SUPPORT. Accesses from outside, ports, power and the health monitors (R387, R412, R417, R442, R445, R454, R455). -/
namespace Sys2Proof.Machine

section
variable {s : State} {a q i : Nat} {acc : Inbound}

/-! ### Accesses and registers (R387, R412, R417, R445) -/

/-- R387, R445: the module serves the host's accesses to the HDM range, through key slot 0. -/
theorem exec_hostMemAccess_served (hp : s.power = true) (hl : s.mgmt.level ≠ 0) (ha : a < 0x040000000000) :
    exec (.hostMemAccess a acc) s = .next (s.inbound 4 a 0 acc) := by
  have hgo : ¬ (s.mgmt.level = 0 ∨ 0x040000000000 ≤ a) := by omega
  change execHostMemAccess a acc s = _
  simp only [execHostMemAccess, event_next hp, hgo, if_false]
/-- R417: an access that a port's range admits is performed through the key slot of that range. -/
theorem exec_peerInboundAccess_admitted (hp : s.power = true) (hl : s.mgmt.level ≠ 0)
    (hi : (s.ports.getD q Port.reset).admits a acc = some i) :
    exec (.peerInboundAccess q a acc) s = .next (s.inbound 5 a (nfld ((s.ports.getD q Port.reset).inbase.getD i 0) 54 10) acc) := by
  change execPeerInboundAccess q a acc s = _
  simp only [execPeerInboundAccess, event_next hp, hi, hl, if_false]
theorem exec_registerWrite_window {n v : Nat} (hp : s.power = true) (hw : s.spaceOf a = some .window) (hn : n ≤ 8) :
    exec (.registerWrite a n v) s = .next (s.winWrite a (toBytes n v)) := by
  change execRegisterWrite a n v s = _
  simp only [execRegisterWrite, event_next hp, hw, hn, and_self, if_true]

/-! ### Power and heat (R442, R454, R455) -/

/-- R442: power returns with a cold start (assumption log 97). -/
theorem exec_powerOn_cold (hp : s.power = false) : exec .powerOn s = .next (s.coldStart false) := by
  change execPowerOn s = _
  simp only [execPowerOn, hp, Bool.false_eq_true, if_false]
/-- A valid sensor is no hotter than the hottest. -/
theorem le_hottest {l : List Sensor} {x : Sensor} (hx : x ∈ l) (hv : x.valid = true) : sgn x.val 16 ≤ hottest l := by
  have hmem : sgn x.val 16 ∈ (l.filter (·.valid)).map fun y => sgn y.val 16 :=
    List.mem_map.mpr ⟨x, List.mem_filter.mpr ⟨hx, hv⟩, rfl⟩
  calc sgn x.val 16 ≤ ((l.filter (·.valid)).map fun y => sgn y.val 16).foldr max (-32768) := List.le_max_of_le' _ hmem le_rfl
    _ = ((l.filter (·.valid)).map fun y => sgn y.val 16).foldl max (-32768) := List.foldl_eq_foldr.symm
    _ = hottest l := List.foldl_map

section
variable {t vs rs : List Nat}

/-- The record of a die whose sensors have taken a sample. -/
def Die.sensed (d : Die) (t vs rs : List Nat) : Die :=
  { d with temp := sampled d.temp t 16, volt := sampled d.volt vs 16, ring := sampled d.ring rs 20 }
/-- The record of a die that its sample leaves on: its clock, the causes that hold (assumption log 92), and a step down counted
(R454). -/
def Die.throttled (d : Die) (level : Nat) : Die :=
  let clk := nextClk d level (hottest d.temp) (lowest d.volt)
  { d with
    clk := clk, cause := throttleCause d level
    events := if clk < d.clk then min (d.events + 1) (2 ^ 32 - 1) else d.events }
/-- R454: below 125 °C a sample sets the die's clock and causes. -/
theorem exec_monitorSample_cool (hp : s.power = true) (hcool : hottest (sampled (s.die q).temp t 16) < 125 * 16) :
    exec (.monitorSample q t vs rs) s = .next (s.modDie q fun _ => ((s.die q).sensed t vs rs).throttled s.mgmt.level) := by
  change execMonitorSample q t vs rs s = _
  rw [execMonitorSample, event_next hp]
  exact congrArg Host.Outcome.next (if_neg (Int.not_le.mpr hcool))
/-- R455: a sensor at 125 °C removes power. -/
theorem exec_monitorSample_hot {x : Sensor} (hp : s.power = true) (hx : x ∈ sampled (s.die q).temp t 16) (hv : x.valid = true)
    (hhot : 125 * 16 ≤ sgn x.val 16) : exec (.monitorSample q t vs rs) s = .next { s with power := false } := by
  have hmax : 125 * 16 ≤ hottest (sampled (s.die q).temp t 16) := hhot.trans (le_hottest hx hv)
  change execMonitorSample q t vs rs s = _
  simp only [execMonitorSample, event_next hp, hmax, if_true]

end
end

/-- Settles O59: an access that is served or admitted, a register of the window, a port's link, POWER_ON, and a sample whose hottest
valid sensor is below 125 °C or not. What power keeps is assumption log 97, the causes shown are log 92. -/
theorem outsideWorld : Obligations.OutsideWorld := by
  unfold Obligations.OutsideWorld
  intro a q i n v up rem b acc t vs rs
  refine ⟨?host, ?peer, ?register, ?link, ?power, ?cool, ?hot⟩
  case host => exact fun s hp ⟨hl, ha⟩ => exec_hostMemAccess_served hp hl ha
  case peer => exact fun s hp ⟨hl, hi⟩ => exec_peerInboundAccess_admitted hp hl hi
  case register => exact fun s hp ⟨hw, hn⟩ => exec_registerWrite_window hp hw hn
  case link => exact happens_of_event (fun _ => rfl) fun s _ => rfl
  case power => exact fun s hp => exec_powerOn_cold hp
  case cool => exact fun s hp hcool => exec_monitorSample_cool hp hcool
  case hot => exact fun s hp ⟨x, hx, hv, hhot⟩ => exec_monitorSample_hot hp hx hv hhot

end Sys2Proof.Machine
end

section
/-! SUPPORT. The rasterisers: how a draw starts, tests its samples, registers its fragments and ends (R418, R422 to R428). -/
namespace Sys2Proof.Machine

section
variable {s s1 s2 : State} {die r w : Nat} {x : Running}

/-- R418, R422: the oldest queued draw starts on a free rasteriser, with the fragment list that its status block names. -/
theorem exec_rasterDrawStart_starts {d : Draw} {rest : List Draw} {b : List Byte} (hp : s.power = true)
    (hrun : (s.raster die r).run = none) (hq : (s.raster die r).queue = d :: rest) (hheld : s.rasterHeld die r = false)
    (hread : s.drawRead die d d.status 32 = (.ok b, s1)) :
    exec (.rasterDrawStart die r) s =
      .next (s1.modRaster die r fun z => { z with queue := rest, run := some (d.begun (rdN b 0x10 8) (rdN b 0x18 4)) }) := by
  change execRasterDrawStart die r s = _
  simp only [execRasterDrawStart, event_next hp, hrun, hq, hheld, hread, Bool.false_eq_true, if_false, if_true, Draw.begun]

/-! ### Samples and fragments (R423 to R425, R427, R428) -/

/-- Whether a sample passes against the slot at `t`, which holds what every store that has arrived leaves there (R425). -/
def Running.passes (x : Running) (s : State) (t : Trans) (depth : Nat) : Bool :=
  depthPass x.draw.flags depth (rdN (s.physFuture t.pa 16 t.key) 8 4)
/-- The bytes that a tested sample writes at its slot: none where it fails (R425). -/
def Running.slotBytes (x : Running) (pass : Bool) (depth : Nat) : List Byte :=
  if pass then toBytes 8 x.key ++ (if nbit x.draw.flags 8 then toBytes 4 depth else []) else []
/-- The state after the covered sample `q` has been tested at its slot `t`, and written where it passes (R425). -/
def Running.tested (x : Running) (s : State) (die r : Nat) (t : Trans) (q : Nat × Nat × Nat × Nat)
    (qs : List (Nat × Nat × Nat × Nat)) : State :=
  let pass := x.passes s t q.2.2.2
  let v := s.devStoreFor die x.draw.ctx (x.draw.slot q.1 q.2.1 q.2.2.1) t.hint t.pa t.key (x.slotBytes pass q.2.2.2)
  v.2.modRunning die r fun z => { z with
    todo := qs, lastW := max z.lastW v.1
    passed := if pass && decide (x.draw.ord ≠ 2) then z.passed ++ [(q.1, q.2.1, q.2.2.1)] else z.passed }
/-- R425: the next covered sample of a triangle that is set up is tested and written in one step. -/
theorem exec_rastTestAndWrite_tests {t : Trans} {q : Nat × Nat × Nat × Nat} {qs : List (Nat × Nat × Nat × Nat)} (hp : s.power = true)
    (hx : (s.raster die r).run = some x) (hfin : x.finishing = false) (hinst : x.inst < x.draw.insts) (hheld : s.rasterHeld die r = false)
    (hpix : x.draw.ord = 2 ∨ x.pixelDone = false) (hset : x.setUp = true) (htodo : x.todo = q :: qs)
    (htr : s.translate (engineCluster die) die x.draw.ctx (x.draw.slot q.1 q.2.1 q.2.2.1) ⟨true, false, x.draw.user⟩ = (.ok t, s1))
    (hglobal : s1.spaceOf t.pa = some .global) (hwr : s1.writeRefused die t = false) (hreach : s1.reachFor die t.pa = .ok)
    (hpois : s1.poisonedAt t.pa 16 t.key = false) :
    exec (.rastTestAndWrite die r) s = .next (x.tested s1 die r t q qs) := by
  have hgo : (x.finishing || decide (x.draw.insts ≤ x.inst) || s.rasterHeld die r ||
      (decide (x.draw.ord ≠ 2) && x.pixelDone)) = false := by
    rcases hpix with h | h <;> simp [hfin, hinst, hheld, h]
  change execRastTestAndWrite die r s = _
  simp only [execRastTestAndWrite, event_next hp, hx, hgo, hset, htodo, htr, hglobal, hwr, hreach, hpois, reduceCtorEq, and_false,
    Bool.not_true, Bool.false_eq_true, if_false]
  rfl
/-- The coverage of the pixel under way: its samples that passed (R427). -/
def Running.coverage (x : Running) : Nat := x.passed.foldl (fun m z => setBit m z.2.2 true) 0
/-- The record of the fragment at a pixel (R427). -/
def Running.fragBytes (x : Running) (pix : Nat) : List Byte := toBytes 4 pix ++ toBytes 4 x.coverage ++ toBytes 8 x.key
/-- R427, R428: a pixel that is done, and in which samples passed, becomes a fragment with its record and scoreboard entry. -/
theorem exec_fragmentRegister_registers {y : Nat × Nat × Nat} {ys : List (Nat × Nat × Nat)} (hp : s.power = true)
    (hx : (s.raster die r).run = some x) (hpix : x.pixelDone = true) (hheld : s.rasterHeld die r = false) (hord : x.draw.ord ≠ 2)
    (hpass : x.passed = y :: ys) (hcap : x.frags < x.fragCap) (hboard : (s.die die).board.length < 262144)
    (hw : s.writeAs die x.draw.ctx x.draw.user (x.fragBase + 16 * x.frags) (x.fragBytes (y.1 + 65536 * y.2.1)) = (.ok w, s1)) :
    exec (.fragmentRegister die r) s =
      .next ((s1.modDie die fun z =>
        { z with board := z.board ++ [⟨x.draw.ctx, y.1 + 65536 * y.2.1, x.key, x.draw.ord == 1⟩] }).modRunning die r fun z =>
          { z with frags := z.frags + 1, passed := [], lastW := max z.lastW w }) := by
  have hord2 : (x.draw.ord == 2) = false := beq_false_of_ne hord
  simp only [Running.fragBytes, Running.coverage, hpass] at hw
  change execFragmentRegister die r s = _
  simp only [execFragmentRegister, event_next hp, hx, hpix, hheld, hord2, hpass, Nat.not_le.mpr hcap, Nat.not_le.mpr hboard, hw,
    Bool.not_true, Bool.or_self, Bool.false_eq_true, if_false]

/-! ### The end of a draw (R426) -/

/-- R426: a draw whose instances are done writes its counts and ERR. -/
theorem exec_drawEnd_writes {w2 : Nat} (hp : s.power = true) (hx : (s.raster die r).run = some x) (hinst : x.draw.insts ≤ x.inst)
    (hheld : s.rasterHeld die r = false) (hfin : x.finishing = false)
    (hcounts : s.writeAs die x.draw.ctx x.draw.user (x.draw.status + 8) (toBytes 4 x.frags ++ toBytes 4 x.fragOvf) = (.ok w, s1))
    (herr : s1.writeAs die x.draw.ctx x.draw.user (x.draw.status + 0x1C) (toBytes 4 x.err) = (.ok w2, s2)) :
    exec (.drawEnd die r) s = .next (s2.modRunning die r fun z => { z with finishing := true, lastW := max z.lastW (max w w2) }) := by
  change execDrawEnd die r s = _
  simp only [execDrawEnd, event_next hp, hx, Nat.not_lt.mpr hinst, hheld, hfin, hcounts, herr, Bool.not_false, Bool.false_eq_true, or_self,
    if_false, if_true]
/-- R426: once its writes are visible, a draw of no node signals and is gone. -/
theorem exec_drawEnd_signals (hp : s.power = true) (hx : (s.raster die r).run = some x) (hinst : x.draw.insts ≤ x.inst)
    (hheld : s.rasterHeld die r = false) (hfin : x.finishing = true) (hvis : x.lastW + 2 < s.gtAt die) (hnode : x.draw.node = none)
    (hadd : s.addAs die x.draw.ctx x.draw.user x.draw.status 1 = (.ok w, s1)) :
    exec (.drawEnd die r) s = .next ((s1.modRaster die r fun z => { z with run := none }).drawGone x.draw x.lastW) := by
  change execDrawEnd die r s = _
  simp only [execDrawEnd, event_next hp, hx, Nat.not_lt.mpr hinst, hheld, hfin, Nat.not_le.mpr hvis, hnode, hadd, Bool.not_true,
    Bool.false_eq_true, or_self, if_false]

end

/-- Settles O54: a draw starts, a sample is tested at its slot, a pixel becomes a fragment, and a draw ends in two steps. -/
theorem rasterisersDraw : Obligations.RasterisersDraw := by
  unfold Obligations.RasterisersDraw
  intro die r w x d rest b q qs y ys t w2 s1 s2
  refine ⟨?start, ?sample, ?fragment, ?counts, ?signal⟩
  case start => exact fun s hp ⟨hrun, hq, hheld, hread⟩ => exec_rasterDrawStart_starts hp hrun hq hheld hread
  case sample =>
    rintro s hp ⟨hx, hfin, hinst, hheld, hpix, hset, htodo, htr, hglobal, hwr, hreach, hpois⟩
    exact exec_rastTestAndWrite_tests hp hx hfin hinst hheld hpix hset htodo htr hglobal hwr hreach hpois
  case fragment =>
    rintro s hp ⟨hx, hpix, hheld, hord, hpass, hcap, hboard, hw⟩
    exact exec_fragmentRegister_registers hp hx hpix hheld hord hpass hcap hboard hw
  case counts =>
    rintro s hp ⟨hx, hinst, hheld, hfin, hcounts, herr⟩
    exact exec_drawEnd_writes hp hx hinst hheld hfin hcounts herr
  case signal =>
    rintro s hp ⟨hx, hinst, hheld, hfin, hvis, hnode, hadd⟩
    exact exec_drawEnd_signals hp hx hinst hheld hfin hvis hnode hadd

end Sys2Proof.Machine
end

section
/-! SUPPORT. Management commands, the steps of a start, and key slots (R442 to R452). -/
namespace Sys2Proof.Machine

section
variable {s : State}

/-! ### Management commands (R448 to R450) -/

/-- R450: a command under way, whose buffer can be reached, has the result and the effect of its event. -/
theorem mgmtEvent_manages {v b : Nat} (h : s.manages v b) (f : State → Nat → (Nat × Nat) × State) :
    s.mgmtEvent v f = (f s b).2.modMgmt fun m => { m with out := some (f s b).1 } := by
  obtain ⟨hbusy, hout, hcmd, hbuf⟩ := h
  simp only [State.mgmtEvent, hbusy, hout, hcmd, hbuf, Option.isNone_none, beq_self_eq_true, Bool.and_self, if_true]
/-- R450: the chunk of flash that command 6 names is written from the buffer. -/
theorem exec_mgmtWriteFlash_manages {slot chunk b : Nat} (hp : s.power = true) (hs : slot < 2) (hc : chunk < 65536)
    (h : s.manages (6 + 16 * slot + 65536 * chunk) b) :
    exec (.mgmtWriteFlash slot chunk) s = .next (s.answers (0, 0) fun t => t.modMgmt fun m =>
      { m with flash := lmod m.flash slot fun x => x.write (4096 * chunk) (s.bufRead b 0 4096) }) := by
  change execMgmtWriteFlash slot chunk s = _
  rw [execMgmtWriteFlash, event_next hp, Nat.mod_eq_of_lt hs, Nat.mod_eq_of_lt hc, mgmtEvent_manages h]
  rfl
theorem exec_mgmtCommandComplete_out {r n : Nat} (hp : s.power = true) (hbusy : s.mgmt.busy = true) (hout : s.mgmt.out = some (r, n)) :
    exec .mgmtCommandComplete s =
      .next (s.modMgmt fun m => { m with busy := false, result := r, length := n, out := none }) := by
  change execMgmtCommandComplete s = _
  simp only [execMgmtCommandComplete, event_next hp, hbusy, hout, if_true]
/-- R443, R450: the firmware that runs carries command 4 out at once. -/
theorem mgmtCommand_warm (hbusy : s.mgmt.busy = false) (hrun : s.mgmt.running = true) (hbuf : s.mgmt.level ≠ 0 ∨ s.mgmt.buf = 0) :
    s.mgmtCommand 4 = (s.modMgmt fun m => { m with cmd := 4 }).warmStartModule := by
  have hc : nfld 4 0 4 = 4 := rfl
  have hgo : ¬ (s.mgmt.level = 0 ∧ s.mgmt.buf ≠ 0) := by omega
  simp only [State.mgmtCommand, hbusy, Bool.false_eq_true, ↓reduceIte, hc, OfNat.ofNat_ne_zero, Nat.reduceLT, Nat.lt_add_one, hrun,
    Bool.not_true, and_false, Nat.reduceEqDiff, false_and, or_self, Std.le_refl, ne_eq, hgo]
/-- R450: at level 0 command 4 is refused where MGMTBUF names a buffer. -/
theorem mgmtCommand_warm_refused (hbusy : s.mgmt.busy = false) (hrun : s.mgmt.running = true) (hlevel : s.mgmt.level = 0)
    (hbuf : s.mgmt.buf ≠ 0) : s.mgmtCommand 4 = s.modMgmt fun m => { m with result := 3, length := 0 } := by
  have hc : nfld 4 0 4 = 4 := rfl
  simp only [State.mgmtCommand, hbusy, Bool.false_eq_true, ↓reduceIte, hc, OfNat.ofNat_ne_zero, Nat.reduceLT, Nat.lt_add_one, hrun,
    Bool.not_true, and_false, Nat.reduceEqDiff, false_and, or_self, Std.le_refl, hlevel, ne_eq, hbuf, not_false_eq_true, and_self]
/-- R442, R450: command 5 is the boot ROM's, and starts at once whether firmware runs or not. -/
theorem mgmtCommand_cold (hbusy : s.mgmt.busy = false) (hbuf : s.mgmt.level ≠ 0 ∨ s.mgmt.buf = 0) :
    s.mgmtCommand 5 = (s.modMgmt fun m => { m with cmd := 5 }).coldStart true := by
  have hc : nfld 5 0 4 = 5 := rfl
  have hgo : ¬ (s.mgmt.level = 0 ∧ s.mgmt.buf ≠ 0) := by omega
  simp only [State.mgmtCommand, hbusy, Bool.false_eq_true, ↓reduceIte, hc, OfNat.ofNat_ne_zero, Nat.reduceLT, lt_self_iff_false,
    false_and, Nat.reduceEqDiff, or_self, Nat.reduceLeDiff, Nat.lt_add_one, ne_eq, hgo, and_false, Nat.succ_ne_self]

/-! ### The steps of a start (R442 to R446) -/

theorem exec_startStepComplete_cold {k : Nat} (hp : s.power = true) (h : s.mgmt.starting = some ⟨false, k⟩) :
    exec (.startStepComplete true) s = .next (s.coldStep k) := by
  change execStartStepComplete true s = _
  simp only [execStartStepComplete, event_next hp, h, Bool.not_true, Bool.false_eq_true, if_false]
theorem exec_startStepComplete_warm {k : Nat} (hp : s.power = true) (h : s.mgmt.starting = some ⟨true, k⟩) :
    exec (.startStepComplete true) s = .next (s.warmStep k) := by
  change execStartStepComplete true s = _
  simp only [execStartStepComplete, event_next hp, h, Bool.not_true, Bool.false_eq_true, if_false, if_true]
/-- R445: a step that fails ends the start, with a result of its own for the self-test of the cold start (assumption log 137). -/
theorem exec_startStepComplete_failed {x : Starting} (hp : s.power = true) (h : s.mgmt.starting = some x) :
    exec (.startStepComplete false) s = .next (s.startEnds (if !x.warm && x.step == 7 then 4 else 5)) := by
  change execStartStepComplete false s = _
  simp only [execStartStepComplete, event_next hp, h, Bool.not_false, if_true]
/-- R446: the image that the boot ROM runs is the first that qualifies. -/
theorem bootImage_first {k : Nat} (hk : k < 2) (hgood : imgGood (s.mgmt.flash.getD k []) s.mgmt.fusedSvn = true)
    (hfirst : k = 1 → imgGood (s.mgmt.flash.getD 0 []) s.mgmt.fusedSvn = false) :
    s.bootImage = s.modMgmt fun m =>
      { m with
        img := k, step := 2, starting := some ⟨false, 2⟩, imgSvn := imgSvnOf (s.mgmt.flash.getD k [])
        imgDigest := sha3 ((s.mgmt.flash.getD k []).read 0 (0x1400 + imgBody (s.mgmt.flash.getD k []))) } := by
  have hfind : [0, 1].find? (fun j => imgGood (s.mgmt.flash.getD j []) s.mgmt.fusedSvn) = some k := by
    obtain rfl | rfl : k = 0 ∨ k = 1 := by omega
    · exact List.find?_cons_of_pos hgood
    · rw [List.find?_cons_of_neg (by simp only [hfirst rfl, Bool.false_eq_true, not_false_eq_true])]
      exact List.find?_cons_of_pos hgood
  unfold State.bootImage
  simp only [hfind]
/-- R446: without an image that qualifies the start ends where it is, at level 0. -/
theorem bootImage_none (hbad : ∀ j < 2, imgGood (s.mgmt.flash.getD j []) s.mgmt.fusedSvn = false) :
    s.bootImage = s.modMgmt fun m => { m with starting := none, busy := m.busy && !m.startCmd } := by
  have hfind : [0, 1].find? (fun j => imgGood (s.mgmt.flash.getD j []) s.mgmt.fusedSvn) = none := by
    rw [List.find?_eq_none]
    intro j hj
    have hlt : j < 2 := by
      simp only [List.mem_cons, List.not_mem_nil, or_false] at hj
      omega
    simp only [hbad j hlt, Bool.false_eq_true, not_false_eq_true]
  unfold State.bootImage
  simp only [hfind]
/-- R442: steps 2 to 4 leave the level as it is. -/
theorem coldStep_middle {k : Nat} (hlo : 2 ≤ k) (hhi : k ≤ 4) :
    s.coldStep k = s.modMgmt fun m => { m with step := k + 1, starting := some ⟨false, k + 1⟩ } := by
  obtain rfl | rfl | rfl : k = 2 ∨ k = 3 ∨ k = 4 := by omega
  all_goals rfl
theorem startEnds_mgmt (r : Nat) :
    (s.startEnds r).mgmt =
      if s.mgmt.startCmd then { s.mgmt with starting := none, busy := false, result := r, length := 0 }
      else { s.mgmt with starting := none, result := if r = 0 then s.mgmt.result else r } := rfl
/-- R445: a start that ends leaves the level that it has reached. -/
theorem startEnds_level (r : Nat) : (s.startEnds r).mgmt.starting = none ∧ (s.startEnds r).mgmt.level = s.mgmt.level := by
  rw [startEnds_mgmt]
  split <;> exact ⟨rfl, rfl⟩
/-- R450: a start that is the command under way reports its result. -/
theorem startEnds_reports (r : Nat) (h : s.mgmt.startCmd = true) :
    (s.startEnds r).mgmt.busy = false ∧ (s.startEnds r).mgmt.result = r := by
  rw [startEnds_mgmt, if_pos h]
  exact ⟨rfl, rfl⟩

/-! ### Key slots (R451, R452) -/

section
variable {k : Nat}

/-- R451: a KEYCMD word of a slot and an operation. -/
theorem nfld_keyCommand {op : Nat} (hk : k < 1024) (hop : op < 4) :
    nfld (k + 1024 * op) 0 10 = k ∧ nfld (k + 1024 * op) 10 2 = op ∧ nfld (k + 1024 * op) 12 52 = 0 := by
  unfold nfld
  omega
theorem keyOp_generate (hk : k < 1024) (hb : s.keystat.busy = false) : s.keyOp k 1 = s.keyGenerate k := by
  obtain ⟨hslot, hop, hzero⟩ := nfld_keyCommand hk (op := 1) (by omega)
  simp only [State.keyOp, State.keyCommand, hk, hb, hslot, hop, hzero, ne_eq, not_true_eq_false, Bool.false_eq_true, if_false, if_true]
theorem keyOp_destroy (hk : k < 1024) (hb : s.keystat.busy = false) : s.keyOp k 2 = s.keyDestroy k := by
  obtain ⟨hslot, hop, hzero⟩ := nfld_keyCommand hk (op := 2) (by omega)
  simp only [State.keyOp, State.keyCommand, hk, hb, hslot, hop, hzero, ne_eq, not_true_eq_false, Bool.false_eq_true, if_false, if_true]
/-- R451: a query changes KEYSTAT alone. -/
theorem keyOp_query (hk : k < 1024) (hb : s.keystat.busy = false) : s.keyOp k 3 = s.keyResult k 0 := by
  obtain ⟨hslot, hop, hzero⟩ := nfld_keyCommand hk (op := 3) (by omega)
  simp only [State.keyOp, State.keyCommand, hk, hb, hslot, hop, hzero, ne_eq, not_true_eq_false, Bool.false_eq_true, if_false, if_true]
/-- R451: an empty slot's key is on its way. -/
theorem keyGenerate_empty (h : s.keyState k = 0) : s.keyGenerate k = { s with keystat := ⟨k, 0, true⟩ } := by
  simp only [State.keyGenerate, h, State.keyResult]
/-- R452: a keyed slot is discarding at once, and slot 0 is not destroyed. -/
theorem keyDestroy_keyed (hk : 0 < k) (h : s.keyState k = 1) :
    s.keyDestroy k = ({ s.keyResult k 0 with keys := tmod s.keys k fun e => { e with state := 2 } } : State).dropKey k := by
  simp only [State.keyDestroy, h, Nat.pos_iff_ne_zero.mp hk, if_false]
theorem keyDestroy_zero (h : s.keyState 0 = 1) : s.keyDestroy 0 = s.keyResult 0 4 := by
  simp only [State.keyDestroy, h, if_true]
theorem exec_keyGenerateComplete_busy (hp : s.power = true) (hb : s.keystat.busy = true) (hk : s.keystat.slot = k) :
    exec (.keyGenerateComplete k) s =
      .next { s with keys := tput s.keys k ⟨1, s.keyGen k + 1⟩, keystat := { s.keystat with busy := false } } := by
  change execKeyGenerateComplete k s = _
  simp only [execKeyGenerateComplete, event_next hp, hb, hk, beq_self_eq_true, Bool.and_self, if_true]
theorem exec_keyDiscardDone_discarding (hp : s.power = true) (h : s.keyState k = 2) :
    exec (.keyDiscardDone k) s = .next { s.dropKey k with keys := tmod s.keys k fun e => { e with state := 0 } } := by
  change execKeyDiscardDone k s = _
  simp only [execKeyDiscardDone, event_next hp, h, if_true]

end
end

/-- Settles O60: a command under way and its report; a start that is a command; each step of a start, the image that qualifies or
not, and a step that fails; the commands of a key slot and their ends. The signature's bytes are free (log 12); what a start
without an image reports and the extent of the digest are assumption log 91, the hash's constants log 16, the failing slice log
137. -/
theorem managementAndKeys : Obligations.ManagementAndKeys := by
  unfold Obligations.ManagementAndKeys
  refine ⟨fun slot chunk r n b => ?commands, fun k => ?steps, fun k => ?keys⟩
  case commands =>
    refine ⟨?attest, ?cert, ?svn, ?flash, ?warm, ?cold, ?complete, ?refused⟩
    case attest => exact happens_of_event (fun _ => rfl) fun s h => mgmtEvent_manages h _
    case cert => exact happens_of_event (fun _ => rfl) fun s h => mgmtEvent_manages h _
    case svn => exact happens_of_event (fun _ => rfl) fun s h => mgmtEvent_manages h _
    case flash => exact fun s hp ⟨hs, hc, h⟩ => exec_mgmtWriteFlash_manages hp hs hc h
    case warm => exact happens_of_event (fun _ => rfl) fun s ⟨hbusy, hrun, hbuf⟩ => mgmtCommand_warm hbusy hrun hbuf
    case cold => exact happens_of_event (fun _ => rfl) fun s ⟨hbusy, hbuf⟩ => mgmtCommand_cold hbusy hbuf
    case complete => exact fun s hp ⟨hbusy, hout⟩ => exec_mgmtCommandComplete_out hp hbusy hout
    case refused =>
      exact happens_of_event (fun _ => rfl) fun s ⟨hbusy, hrun, hlevel, hbuf⟩ => mgmtCommand_warm_refused hbusy hrun hlevel hbuf
  case steps =>
    refine ⟨?self, ?image, ?noImage, ?middle, ?memory, ?far, ?near, ?warmFar, ?warmNear, ?selfTest, ?failed, ?ends⟩
    case self => exact fun s hp h => exec_startStepComplete_cold hp h
    case image =>
      rintro s hp ⟨h, hk, hgood, hfirst⟩
      rw [exec_startStepComplete_cold hp h, State.coldStep, bootImage_first hk hgood hfirst]
    case noImage =>
      rintro s hp ⟨h, hbad⟩
      rw [exec_startStepComplete_cold hp h, State.coldStep, bootImage_none hbad]
    case middle =>
      rintro s hp ⟨h, hlo, hhi⟩
      rw [exec_startStepComplete_cold hp h, coldStep_middle hlo hhi]
    case memory => exact fun s hp h => exec_startStepComplete_cold hp h
    case far => exact fun s hp h => exec_startStepComplete_cold hp h
    case near => exact fun s hp h => exec_startStepComplete_cold hp h
    case warmFar => exact fun s hp h => exec_startStepComplete_warm hp h
    case warmNear => exact fun s hp h => exec_startStepComplete_warm hp h
    case selfTest => exact fun s hp h => exec_startStepComplete_failed hp h
    case failed =>
      rintro s hp ⟨x, h, hx⟩
      have hother : (!x.warm && x.step == 7) = false := by
        cases hx with
        | inl hwarm => rw [hwarm]; rfl
        | inr hstep => rw [beq_false_of_ne hstep, Bool.and_false]
      rw [exec_startStepComplete_failed hp h, hother]
      rfl
    case ends =>
      intro s r
      obtain ⟨hstart, hlevel⟩ := startEnds_level (s := s) r
      exact ⟨hstart, hlevel, startEnds_reports r⟩
  case keys =>
    refine ⟨?generate, ?destroy, ?zero, ?query, ?generated, ?discarded⟩
    case generate =>
      exact happens_of_event (fun _ => rfl) fun s ⟨hk, hb, h⟩ => (keyOp_generate hk hb).trans (keyGenerate_empty h)
    case destroy =>
      exact happens_of_event (fun _ => rfl) fun s ⟨hpos, hk, hb, h⟩ => (keyOp_destroy hk hb).trans (keyDestroy_keyed hpos h)
    case zero =>
      refine happens_of_event (fun _ => rfl) ?_
      rintro s ⟨rfl, hb, h⟩
      exact (keyOp_destroy (by omega) hb).trans (keyDestroy_zero h)
    case query => exact happens_of_event (fun _ => rfl) fun s ⟨hk, hb⟩ => keyOp_query hk hb
    case generated => exact fun s hp ⟨hb, hk⟩ => exec_keyGenerateComplete_busy hp hb hk
    case discarded => exact fun s hp h => exec_keyDiscardDone_discarding hp h

end Sys2Proof.Machine
end
